-- ==== Sys2Proof/Word.lean ====
section
/-! DEFINITION. The words of the machine: bytes, 16-, 32- and 64-bit words. -/

namespace Sys2Proof

/-- One byte of memory. -/
abbrev Byte := BitVec 8

/-- A register of 32 bits (R74), an instruction word (R171). -/
abbrev Word := BitVec 32

/-- A 64-bit register pair (R75), a descriptor, a table entry. -/
abbrev DWord := BitVec 64

end Sys2Proof
end

