-- ==== Sys2Proof/Config.lean ====
section
/-! DEFINITION. What an implementation fixes, and the values that the manual leaves open. A constant
without a body is free: no proof can see its value. -/

namespace Sys2Proof.Config

/-- R55: which of the two allowed values the n-th read of an unlive register returns (true: the value last
written). Log entry 10. -/
opaque unliveKeeps : Nat → Bool

/-- R140: whether the n-th atomic executes at the core (true) or at its home slice; it bears only on events
0x0E and 0x0F of R358. Log entry 10. -/
opaque atomicAtCore : Nat → Bool

/-- R147: whether the n-th check of stores against a speculator's read signature hits falsely. Log entry 10. -/
opaque signatureHits : Nat → Bool

/-- A choice that the manual leaves to the device, by a count: a free phaser (R217), a request number (R473).
Log entry 10. -/
opaque pick : Nat → Nat

/-- Values that other standards fix and the manual does not state (R394, R395, R402): uninterpreted.
Log entry 12. -/
opaque sha384 : List Byte → List Byte
opaque rsaVerify : (modulus signature message : List Byte) → Bool
opaque slhVerify : (key signature message : List Byte) → Bool
opaque rsaSign : List Byte → List Byte
opaque slhSign : List Byte → List Byte

/-- The bytes of OpaqueData in SPDM's general opaque data format, with one vendor-defined element (R402). Log entry 12. -/
opaque opaqueData : (vendor kind : Nat) → List Byte → List Byte

/-- The fields of an SPDM response, by its code, that stand before what the model carries (R402). Log entry 12. -/
opaque spdmHeader : (code : Nat) → List Byte

/-- What is fused or held in ROM (R395, R398, R399, R401, R403). Log entry 12. -/
opaque keyHash : List Byte
opaque countersignHash : List Byte
opaque uniqueId : List Byte
opaque certificateChain : List Byte
opaque lodgeRom : List Byte
opaque leafKey : List Byte
opaque slhKey : List Byte

/-- The answer to an MCTP control message (R376): the manual gives its carriage only. Log entry 12. -/
opaque mctpReply : List Byte → List Byte

/-- The bounded parameters that a firmware image may change (R2, R406): the Arbour age timer in core cycles (R50), the matrix
queue (R289), in nanoseconds the free-pool wait (R472), the cross-die time-out (R378), the stop watchdog (R495) and the
corrected-error record interval (R481), and the debit repayment for each watt of the cap (R384). -/
structure Limits where
  ageTimer : Nat
  matrixQueue : Nat
  poolWait : Nat
  crossDie : Nat
  stopWatchdog : Nat
  correctedInterval : Nat
  repay : Nat
  deriving DecidableEq, Repr, Inhabited

/-- The figures that the rules give. -/
def Limits.reset : Limits :=
  { ageTimer := 128, matrixQueue := 16, poolWait := 1000000, crossDie := 2000000, stopWatchdog := 1000000
    correctedInterval := 1000000, repay := 25 }

/-- A number held between two bounds. -/
def within (lo hi n : Nat) : Nat := max lo (min hi n)

/-- R406: an image changes each parameter within the limits of its rule only. -/
def Limits.clamp (x : Limits) : Limits :=
  { ageTimer := within 32 1024 x.ageTimer, matrixQueue := within 4 64 x.matrixQueue, poolWait := within 100000 100000000 x.poolWait
    crossDie := within 100000 100000000 x.crossDie, stopWatchdog := within 100000 10000000 x.stopWatchdog
    correctedInterval := within 100000 1000000000 x.correctedInterval, repay := within 25 100 x.repay }

/-- What a firmware image sets the bounded parameters to: its bytes decide, in a form that the manual does not give. Log
entry 62. -/
opaque imageLimits : List Byte → Limits

/-- R350: warp contexts of a core; R59: child contexts; R58: spawn-queue entries; R50: bins. -/
def warpContexts : Nat := 128
def childContexts : Nat := 512
def spawnEntries : Nat := 4096
def bins : Nat := 32

/-- R18: vector registers and scratchpad granules of a core. -/
def vectorRegisters : Nat := 131072
def granules : Nat := 384

end Sys2Proof.Config
end

