-- ==== Sys2Proof/Syntax.lean ====
section
/-! DEFINITION. The instructions and happenings of the machine: one constructor for each row of
spec/opcode_table.json. Rows 0..150 are instruction encodings and carry the fields of R174 (REP those
of R182). The later rows are happenings of the device's units and of the host; each carries the numbers
that name the unit it befalls, and the values that come from outside the machine with it. -/

namespace Sys2Proof

/-- R171. The length of an instruction, in words. -/
inductive Len where
  | two | three | four
  deriving DecidableEq, Repr

/-- R174. The fields of an instruction of the common layout. `imm` holds IMM32 (zero-extended) in the
96-bit form, IMM64 in the 128-bit form and 0 in the 64-bit form. -/
structure Fields where
  len : Len
  mark : Bool
  trans : Bool
  gp : BitVec 3
  gneg : Bool
  dst : BitVec 8
  sa : BitVec 8
  sb : BitVec 8
  sc : BitVec 8
  typ : BitVec 5
  cls : BitVec 4
  mod : BitVec 4
  imm : BitVec 64
  deriving DecidableEq, Repr

/-- R182. The fields of a repeat prefix: n − 1 and the four signed strides. -/
structure RepFields where
  cnt : BitVec 6
  std : BitVec 8
  sta : BitVec 8
  stb : BitVec 8
  stc : BitVec 8
  deriving DecidableEq, Repr

/-- R185, R187. An encoding that is no instruction: its words as fetched. -/
structure RawWords where
  words : List Word
  deriving DecidableEq, Repr

/-- R369, R374. What a host access through BAR4 does: it reads or writes, or it is one of the AtomicOps. -/
inductive HostOp where
  | read | write | fetchAdd | swap | cas
  deriving DecidableEq, Repr

/-- R407. The update of the boot metadata that a loss of power meets. -/
inductive FwUpdate where
  | activate (bank : Bool)
  | commit
  deriving DecidableEq, Repr

/-- R401: what a requester offers for measurements: specifications and hash algorithms. -/
structure MeasurementOffer where
  specs : List Nat
  hashes : List Nat
  deriving DecidableEq, Repr, Inhabited

/-- One constructor for each row of spec/opcode_table.json. In the happenings `t` numbers a team, `g` a
fragment or drawn group, `c` a command of team `t`, `l` a launch, `pf` a physical function and `q` a
host queue; `n` bounds how many elements, rows or steps an engine takes before it stops at a boundary. -/
inductive Instr where
  /-- R201. No operation beyond counting one issue in the forwarding window; with the switch marker set it parks the fragment. -/
  | nop (f : Fields)
  /-- R202. Branches the whole fragment to a direct target, falls through when the guard is false in every lane, and traps on a divergent guard. -/
  | bra (f : Fields)
  /-- R203. Conditional branch with a reconvergence offset; it splits a divergent fragment and pushes a split-stack entry. -/
  | braC (f : Fields)
  /-- R204. Indirect branch through a target table indexed per thread; splits by distinct targets with the table's reconvergence address. -/
  | brx (f : Fields)
  /-- R204. Indirect call through a target table: writes the return address, then branches as BRX. -/
  | callx (f : Fields)
  /-- R205. Direct branch with link that writes pc + 12 to a register pair; traps on a divergent guard. -/
  | call (f : Fields)
  /-- R206. Branches to the address held in a register pair; traps when the addresses or the guard diverge. -/
  | ret (f : Fields)
  /-- R207. Makes the threads of T exit after their outstanding results, leaves split entries, arrives at the region join and frees child contexts. -/
  | exit (f : Fields)
  /-- R183. Repeat prefix that issues the following instruction n times with stepped register fields. -/
  | rep (r : RepFields)
  /-- R208. Makes the fragment ineligible for the cycle after its issue. -/
  | yield (f : Fields)
  /-- R209. Opens the team's reform region if none is open, enters it and files the thread under its live mask. -/
  | rfopen (f : Fields)
  /-- R209. Arrives the thread at the reform region's join and leaves its group's split-stack entries. -/
  | rfclose (f : Fields)
  /-- R209. Reform point: files entered threads by next program counter, or acts as NOP when no region is open. -/
  | reform (f : Fields)
  /-- R210. Queues one child per thread of T in rank order, reporting in a predicate whether each child was queued. -/
  | spawn (f : Fields)
  /-- R211. Raises a software trap with an optional code for the fragment. -/
  | trap (f : Fields)
  /-- R211. Raises a breakpoint trap for the fragment. -/
  | bkpt (f : Fields)
  /-- R458. Ends the trap routine and restores the registers, window, repeat state, program counter and active set from the frame. -/
  | eret (f : Fields)
  /-- R213. Stops the grid at instruction boundaries and saves it as a resume image; the launch completes with HALTED. -/
  | halt (f : Fields)
  /-- R217. Allocates a phaser of the given scope with a signal count and writes its handle, or 0 when none is free. -/
  | phinit (f : Fields)
  /-- R218. Adds a registration to the warp's list and, for signalling modes, raises N. -/
  | phreg (f : Fields)
  /-- R218. Removes the warp's registration, lowers N for signalling modes and reruns the completion test. -/
  | phdrop (f : Fields)
  /-- R219. Arrives on a phaser as a release after any pending arrival's phase completes, returning the phase. -/
  | pharv (f : Fields)
  /-- R220. Try-wait for a given phase that suspends the warp until completion or hint expiry. -/
  | phwait (f : Fields)
  /-- R220. Arrives once if no arrival is pending, then try-waits for the phase of the last arrival. -/
  | phaw (f : Fields)
  /-- R223. Speculative barrier: arrives on a team phaser, checkpoints to the shadow and continues speculatively while the phase is open. -/
  | bars (f : Fields)
  /-- R226. Begins a transaction: checkpoints the registers, writes 0 to the abort word and enters the transactional state. -/
  | txbeg (f : Fields)
  /-- R227. Commits the transaction's stores at once as a release at .dev. -/
  | txend (f : Fields)
  /-- R228. Explicitly aborts the warp's transaction with a user code. -/
  | txabt (f : Fields)
  /-- R230. Try-wait until every granule of a tile is owned by THREAD, or until the hint elapses. -/
  | tilewait (f : Fields)
  /-- R231. Acquire, release or acquire-release fence at a scope, with the L1 actions of R105. -/
  | fence (f : Fields)
  /-- R232. Reads a special register at issue. -/
  | csrr (f : Fields)
  /-- R233. Writes sr.rxwin from a uniform pair under the checks of R117. -/
  | csrw (f : Fields)
  /-- R234. Privileged write of the context's overflow table. -/
  | ovld (f : Fields)
  /-- R235. Checks a range, then re-homes its pages on the caller's die page by page. -/
  | claim (f : Fields)
  /-- R236. Invalidates the whole read-only cache of the issuing core. -/
  | cctlRo (f : Fields)
  /-- R240. Integer add with optional saturation. -/
  | iadd (f : Fields)
  /-- R240. Integer subtract with optional saturation. -/
  | isub (f : Fields)
  /-- R241. Add with a carry-in predicate, writing the carry-out to the same predicate. -/
  | iaddc (f : Fields)
  /-- R240. Integer negate of source B. -/
  | ineg (f : Fields)
  /-- R240. Integer absolute value of source B. -/
  | iabs (f : Fields)
  /-- R240. Integer multiply, low part. -/
  | imul (f : Fields)
  /-- R240. High 32 bits of an integer product. -/
  | imulhi (f : Fields)
  /-- R240. Integer multiply-add. -/
  | imad (f : Fields)
  /-- R240. Widening integer multiply-add into a 64-bit pair. -/
  | imadw (f : Fields)
  /-- R240. Four-way 8-bit dot product accumulated into 32 bits. -/
  | idot4 (f : Fields)
  /-- R240. Integer minimum. -/
  | imin (f : Fields)
  /-- R240. Integer maximum. -/
  | imax (f : Fields)
  /-- R242. Bitwise and. -/
  | and (f : Fields)
  /-- R242. Bitwise or. -/
  | or (f : Fields)
  /-- R242. Bitwise exclusive or. -/
  | xor (f : Fields)
  /-- R242. Bitwise complement of source B. -/
  | not (f : Fields)
  /-- R242. Bitwise a and not b. -/
  | andn (f : Fields)
  /-- R243. Three-input bitwise function given by an 8-bit truth table. -/
  | bool3 (f : Fields)
  /-- R242. Logical shift left. -/
  | shl (f : Fields)
  /-- R242. Logical shift right. -/
  | shr (f : Fields)
  /-- R242. Arithmetic shift right. -/
  | sar (f : Fields)
  /-- R242. Rotate left. -/
  | rol (f : Fields)
  /-- R242. Funnel shift left of the concatenation a : c. -/
  | fshl (f : Fields)
  /-- R244. Bit-field extract with sign or zero extension. -/
  | bfe (f : Fields)
  /-- R244. Bit-field insert. -/
  | bfi (f : Fields)
  /-- R244. Builds a bit mask from a position and a length. -/
  | bmsk (f : Fields)
  /-- R242. Population count. -/
  | popc (f : Fields)
  /-- R242. Count of leading zeros. -/
  | clz (f : Fields)
  /-- R242. Count of trailing zeros. -/
  | ctz (f : Fields)
  /-- R242. Bit reversal. -/
  | brev (f : Fields)
  /-- R245. Byte select with zero and sign-fill controls. -/
  | bsel (f : Fields)
  /-- R246. Integer compare combined with a predicate into a predicate. -/
  | iset (f : Fields)
  /-- R247. Selects a or b by a predicate. -/
  | sel (f : Fields)
  /-- R247. Register move. -/
  | mov (f : Fields)
  /-- R247. Moves an immediate into a register. -/
  | movi (f : Fields)
  /-- R247. Forms a 64-bit address from a base plus a scaled index. -/
  | lea (f : Fields)
  /-- R248. Predicate and. -/
  | pand (f : Fields)
  /-- R248. Predicate or. -/
  | por (f : Fields)
  /-- R248. Predicate exclusive or. -/
  | pxor (f : Fields)
  /-- R248. Predicate not. -/
  | pnot (f : Fields)
  /-- R248. Predicate move. -/
  | pmov (f : Fields)
  /-- R264. Reads a value from the rank given per thread. -/
  | xlaneAt (f : Fields)
  /-- R264. Reads a value from the rank b below. -/
  | xlaneBack (f : Fields)
  /-- R264. Reads a value from the rank b above. -/
  | xlaneFwd (f : Fields)
  /-- R264. Reads a value from the rank r xor b. -/
  | xlaneSwap (f : Fields)
  /-- R264. Broadcasts the value of one uniformly named rank. -/
  | xlaneOne (f : Fields)
  /-- R265. True if some contributor's predicate is true; sets sr.partial. -/
  | pcolSome (f : Fields)
  /-- R265. True if every contributor's predicate is true; sets sr.partial. -/
  | pcolEvery (f : Fields)
  /-- R265. Collects the contributors' predicates into a bit mask. -/
  | pcolBits (f : Fields)
  /-- R265. True if every contributor holds a bitwise-equal value. -/
  | pcolSame (f : Fields)
  /-- R266. Gives each contributor the mask of the ranks holding an equal value. -/
  | eqset (f : Fields)
  /-- R267. Fixed-tree add reduction across the contributing ranks. -/
  | lredAdd (f : Fields)
  /-- R267. Fixed-tree minimum reduction. -/
  | lredMin (f : Fields)
  /-- R267. Fixed-tree maximum reduction. -/
  | lredMax (f : Fields)
  /-- R267. Fixed-tree bitwise and reduction. -/
  | lredAnd (f : Fields)
  /-- R267. Fixed-tree bitwise or reduction. -/
  | lredOr (f : Fields)
  /-- R267. Fixed-tree bitwise xor reduction. -/
  | lredXor (f : Fields)
  /-- R268. Writes the thread's rank, virtual lane and group population. -/
  | rank (f : Fields)
  /-- R252. Load from a memory space, plain or acquire. -/
  | ld (f : Fields)
  /-- R256. Gather with regrouping: each thread is filed as its data returns. -/
  | ldRf (f : Fields)
  /-- R252. Store to a memory space, plain or release. -/
  | st (f : Fields)
  /-- R254. Load through the read-only cache. -/
  | ldro (f : Fields)
  /-- R257. Atomic add returning the old value. -/
  | atomAdd (f : Fields)
  /-- R257. Atomic and returning the old value. -/
  | atomAnd (f : Fields)
  /-- R257. Atomic or returning the old value. -/
  | atomOr (f : Fields)
  /-- R257. Atomic xor returning the old value. -/
  | atomXor (f : Fields)
  /-- R257. Atomic minimum returning the old value. -/
  | atomMin (f : Fields)
  /-- R257. Atomic maximum returning the old value. -/
  | atomMax (f : Fields)
  /-- R257. Atomic exchange. -/
  | atomXchg (f : Fields)
  /-- R257. Atomic compare and swap. -/
  | atomCas (f : Fields)
  /-- R257. Atomic wrapping increment. -/
  | atomInc (f : Fields)
  /-- R257. Atomic wrapping decrement. -/
  | atomDec (f : Fields)
  /-- R257. Reduction add with no returned value. -/
  | redAdd (f : Fields)
  /-- R257. Reduction and. -/
  | redAnd (f : Fields)
  /-- R257. Reduction or. -/
  | redOr (f : Fields)
  /-- R257. Reduction xor. -/
  | redXor (f : Fields)
  /-- R257. Reduction minimum. -/
  | redMin (f : Fields)
  /-- R257. Reduction maximum. -/
  | redMax (f : Fields)
  /-- R257. Reduction wrapping increment. -/
  | redInc (f : Fields)
  /-- R257. Reduction wrapping decrement. -/
  | redDec (f : Fields)
  /-- R258. Adds an f32 value exactly into the target element's exact accumulator. -/
  | redx (f : Fields)
  /-- R259. Rounds the exact accumulator once, writes the total to the element and frees the accumulator. -/
  | redxf (f : Fields)
  /-- R260. L1 prefetch hint that never faults. -/
  | prefl (f : Fields)
  /-- R272. Floating-point add, rounded once. -/
  | fadd (f : Fields)
  /-- R272. Floating-point subtract. -/
  | fsub (f : Fields)
  /-- R272. Floating-point multiply. -/
  | fmul (f : Fields)
  /-- R272. Fused multiply-add with one rounding. -/
  | ffma (f : Fields)
  /-- R273. Floating-point minimum, unrounded. -/
  | fmin (f : Fields)
  /-- R273. Floating-point maximum, unrounded. -/
  | fmax (f : Fields)
  /-- R274. Floating-point compare combined with a predicate. -/
  | fset (f : Fields)
  /-- R275. Classifies a value into a one-hot mask. -/
  | fclass (f : Fields)
  /-- R276. Rounds to an integral value of the same format. -/
  | frnd (f : Fields)
  /-- R279. Converts to a float or block-scaled format. -/
  | fcvt (f : Fields)
  /-- R279. Converts to an integer format. -/
  | icvt (f : Fields)
  /-- R280. Correctly rounded base-2 exponential. -/
  | ex2 (f : Fields)
  /-- R280. Correctly rounded base-2 logarithm. -/
  | lg2 (f : Fields)
  /-- R280. Correctly rounded reciprocal. -/
  | rcp (f : Fields)
  /-- R280. Correctly rounded reciprocal square root. -/
  | rsq (f : Fields)
  /-- R280. Correctly rounded square root. -/
  | sqrt (f : Fields)
  /-- R280. Correctly rounded sin(pi x). -/
  | sinpi (f : Fields)
  /-- R280. Correctly rounded cos(pi x). -/
  | cospi (f : Fields)
  /-- R280. Computes 2^(y - k), rounded once. -/
  | ex2s (f : Fields)
  /-- R281. Multiplies by 2^k and rounds. -/
  | fscale (f : Fields)
  /-- R281. Extracts floor(log2|x|) as s32. -/
  | fgetexp (f : Fields)
  /-- R281. Running exponent maximum max(m, ceil(y)). -/
  | fmaxe (f : Fields)
  /-- R282. Binds a tile descriptor to a window of the team's scratchpad. -/
  | tbind (f : Fields)
  /-- R283. Clears the V bit of a tile descriptor. -/
  | trel (f : Fields)
  /-- R288. Matrix multiply-accumulate of two tiles into an accumulator, in the frozen block order. -/
  | mma (f : Fields)
  /-- R288. Block-scaled matrix multiply-accumulate. -/
  | mmabs (f : Fields)
  /-- R291. Sets every element of an accumulator to +0.0. -/
  | azero (f : Fields)
  /-- R291. Copies one accumulator to another bit for bit. -/
  | amov (f : Fields)
  /-- R292. Loads a whole accumulator from memory. -/
  | ald (f : Fields)
  /-- R292. Stores a whole accumulator to memory. -/
  | ast (f : Fields)
  /-- R294. Pushes one command word from a register to a queue register; the header push and the last push frame and submit the command. -/
  | movToQueue (f : Fields)
  /-- R294. Pushes an immediate command word to a queue register. -/
  | moviToQueue (f : Fields)
  /-- R295. Pops the oldest result word of a queue register, waiting while a word is still due. -/
  | movFromQueue (f : Fields)
  /-- R187. An encoding in major 0xC0-0xDF traps at decode under the emulation contract. -/
  | unimplementedEncoding (x : RawWords)
  /-- R185. An unassigned or malformed encoding traps at decode. -/
  | illegalEncoding (x : RawWords)
  /-- R454. After the fragment's outstanding results return, writes the frame and starts the trap routine in the privileged state, or halts or forwards to the host. -/
  | trapEntry (t g : Nat)
  /-- R461. Periodic acquire read of HCMD that resumes, halts or terminates a forwarded trap. -/
  | hcmdPoll (t g : Nat)
  /-- R85. A variable-latency result returns; the last one releases the switch-marker park. -/
  | resultReturn (t g i : Nat)
  /-- R256. A thread's .rf gather data returns; the data is written and the thread is filed. -/
  | rfGatherReturn (t g tid : Nat)
  /-- R39. After its outstanding results, a fragment parks at its reconvergence point; a complete arrived set pops the entry and merges. -/
  | fragmentPark (t g : Nat)
  /-- R50. The oldest thread of a bin reaches the age timer and the bin becomes drawable. -/
  | binAgeExpiry (core bin : Nat)
  /-- R53. The Arbour draws an issue group from a drawable bin, assigns ranks and relocates live registers. -/
  | groupDraw (core bin : Nat) (tids : List Nat)
  /-- R59. A queued child takes a free child context and is filed by its entry address. -/
  | childDequeue (core : Nat)
  /-- R101. A translation miss completes its four-level walk and the parked groups resume or fault. -/
  | pageWalk (t g : Nat)
  /-- R472. An access parked on an empty free pool gives up after the bound with cause 0x47. -/
  | freePoolTimeout (t g : Nat)
  /-- R473. Host reply to a placement request; the walker walks again or faults with placement refused. -/
  | plreply (pf : Nat) (v : Word)
  /-- R111. One page of a claim completes re-homing: drain, copy, new ADDR with M cleared, old frame freed. -/
  | claimPage (t g : Nat)
  /-- R220. A try-wait's hint elapses on the time counter and the wait ends with a false predicate. -/
  | tryWaitTimeout (t g : Nat)
  /-- R230. TILEWAIT's hint elapses before the tile returns to THREAD. -/
  | tilewaitTimeout (t g : Nat)
  /-- R229. A signalled abort ends the transaction at the next boundary, discarding stores and restoring the shadow. -/
  | txAbort (t w : Nat)
  /-- R115. A .c store from another core reaches its granule and is applied or refused for a late report. -/
  | clusterStoreArrival (i : Nat)
  /-- R255. The request collector's merge window ends and the merged requests are sent. -/
  | collectorWindowExpiry (core : Nat)
  /-- R289. A queued matrix operation retires after its residue checks and writes its accumulator. -/
  | matrixOpRetire (core mismatches : Nat)
  /-- R308. Copy engine copies bytes between endpoints. -/
  | copy (t c n : Nat)
  /-- R309. Copy engine copies a block of up to four dimensions. -/
  | copynd (t c n : Nat)
  /-- R311. Copy engine reduces source elements into destination elements, or into exact accumulators. -/
  | redcopy (t c n : Nat)
  /-- R313. Copy engine prefetches a range into the issuing die's L2. -/
  | pfl2 (t c : Nat)
  /-- R305. Defines and arms a dependence-graph node. -/
  | gnode (t w : Nat) (ws : List Word)
  /-- R306. Re-arms a Done node with its existing definition. -/
  | garm (t w : Nat) (ws : List Word)
  /-- R321. Coordinate engine resets a table and fills it with voxel cells from a point frame. -/
  | voxel (t c : Nat)
  /-- R323. Coordinate engine builds a rulebook from an input and an output table. -/
  | rbbuild (t c : Nat)
  /-- R322. Coordinate engine inserts keys into a table. -/
  | hins (t c : Nat)
  /-- R322. Coordinate engine looks up keys in a table. -/
  | hlook (t c : Nat)
  /-- R327. Pergola engine runs a sparse convolution through a rulebook. -/
  | spconv (t c n : Nat)
  /-- R328. Pergola engine runs gather-multiply-scatter through a list of triples. -/
  | gmms (t c n : Nat)
  /-- R332. Checks and installs a walk program into a slot on every Maze engine. -/
  | wload (t c : Nat)
  /-- R333. Maze engine runs one walk program from a root and queues its result words. -/
  | walk (t c n : Nat)
  /-- R316. A coordinate or Pergola command is taken up once earlier commands at its engine complete. -/
  | commandTakeUp (t c : Nat)
  /-- R332. A pending program install takes effect once no walk of the slot is in flight. -/
  | wloadInstall (t c : Nat)
  /-- R333. A walk's state arrives at the Maze engine that serves its next node. -/
  | walkHandoff (t c : Nat)
  /-- R486. A REDCOPY element arrives at its home slice and is applied, held or discarded by its watermark. -/
  | redcopyElement (t c slice seq elem : Nat)
  /-- R301. An engine command completes: record, owner-bit flip, result words, phaser arrival and node signals. -/
  | commandCompletion (t c : Nat)
  /-- R500. A request to another die reaches its time-out and traps, faults or terminates by kind. -/
  | remoteDieTimeout (t g : Nat)
  /-- R339. A doorbell write announces host queue slots up to a new tail. -/
  | doorbell (pf q : Nat) (v : Word)
  /-- R347. Host queue command that places and runs a fresh or resume image. -/
  | launch (pf q : Nat)
  /-- R354. Host queue command that runs a fresh image several times with memory restored between passes. -/
  | replay (pf q : Nat)
  /-- R342. Host queue command that writes a value as a release store at .sys. -/
  | signal (pf q : Nat)
  /-- R342. Host queue command that waits until a location meets a condition. -/
  | waitv (pf q : Nat)
  /-- R342. Periodic acquire read of a WAITV location, ending with OK or WAIT TIMEOUT. -/
  | waitvPoll (pf q : Nat)
  /-- R342. Host queue command that drops TLB entries, invalidates read-only caches or cleans the L2. -/
  | flush (pf q : Nat)
  /-- R350. The Pavilion places a pending team, or a gang as a whole, when resources fit, pre-empting lower levels as needed. -/
  | teamPlacement (l : Nat) (cores victims : List Nat)
  /-- R351. A gang not placed within its wait bound completes with GANG TIMEOUT. -/
  | gangTimeout (l : Nat)
  /-- R348. A queue's time slice ends and the Pavilion pre-empts or restarts the slice. -/
  | timeSliceExpiry (pf q : Nat) (victims : List Nat)
  /-- R347. A pre-emption save completes and the launch is re-queued at its run-list entry. -/
  | saveComplete (l : Nat)
  /-- R495. A team not stopped within the watchdog terminates its context with cause 0x82. -/
  | stopWatchdogExpiry (t : Nat)
  /-- R349. A steal request over the Colonnade gives up one unstarted launch of a stealable queue, or nothing. -/
  | stealRequest (die : Nat)
  /-- R354. After a replay pass, captured pages and partitions are restored and caches reset before the next pass. -/
  | replayPassRestore (l : Nat)
  /-- R370. CTXCMD command 1 creates a context from its descriptor. -/
  | createContext (pf : Nat)
  /-- R370. CTXCMD command 2 destroys a context and its queues. -/
  | destroyContext (pf num : Nat)
  /-- R371. CTXCMD command 3 creates a host queue from its descriptor. -/
  | createQueue (pf : Nat)
  /-- R371. CTXCMD command 4 destroys a queue, completing its commands with TERMINATED. -/
  | destroyQueue (pf num : Nat)
  /-- R372. A PREEMPT write with SUSPEND = 1 pre-empts the queue's launches and removes it from the run list. -/
  | queueSuspend (pf q : Nat)
  /-- R372. A PREEMPT write with SUSPEND = 0 returns the queue to the run list. -/
  | queueResume (pf q : Nat)
  /-- R389. A write of the package power cap, effective from the next window. -/
  | pcap (pf : Nat) (v : Word)
  /-- R492. A W1C write through PF0 clears sticky system status bits. -/
  | sysstat (pf : Nat) (v : Word)
  /-- R369. A host read or write through the BAR4 aperture to a die's DRAM. -/
  | bar4Access (pf off : Nat) (bytes : List Byte) (op : HostOp)
  /-- R369. A write to a register with no row of its own, or to an unassigned offset, which is stored or dropped. -/
  | registerWrite (pf bar off width : Nat) (v : DWord)
  /-- R400. Checks an image and writes it into the bank that is not running. -/
  | stage
  /-- R398. Names the bank to boot next, requiring a rollback token for an older image. -/
  | activate (bank : Bool)
  /-- R397. Raises the floor to the running image's SVN and sets CVER. -/
  | commit
  /-- R399. Supplies a host countersignature for a pending ACTIVATE. -/
  | countersign
  /-- R385. A 100,000 ns power window ends; the debit and the next budget are computed. -/
  | powerWindowEnd (energy : Nat)
  /-- R384. A window's energy reaches its budget; quadrants go to OP 7 and layers to point 1. -/
  | budgetReached (energy : Nat)
  /-- R382. A cluster's droop detector stretches its clock. -/
  | droop (cluster : Nat)
  /-- R501. A die samples its hottest sensor against the warning, throttle and halt trips. -/
  | thermalSample (die : Nat) (temp : Int) (sensor : Nat)
  /-- R503. Trip 4 removes power from the die and terminates the contexts that hold it. -/
  | powerRemoved (die : Nat) (temp : Int)
  /-- R504. A supply outside limits powers down a quadrant or stack and terminates affected contexts. -/
  | regulatorFault (die sensor : Nat)
  /-- R497. A damaged or unacknowledged flit is replayed on a UCIe link. -/
  | flitReplay (link : Nat) (again : Bool)
  /-- R497. A flit replayed eight times starts a retrain that holds the link's traffic. -/
  | linkRetrain (link : Nat)
  /-- R499. The PCIe link goes down; every context is terminated and destroyed. -/
  | hostLinkDown
  /-- R480. The patrol scrubber reads and corrects each DRAM word of the die. -/
  | patrolScrub (die word corrected : Nat)
  /-- R396. The Lodges verify and load the bitstream and firmware from a valid bank, or enter recovery. -/
  | packageReset (cut : Bool) (lost : List Bool)
  /-- R506. The Pavilion firmware misses its watchdog; contexts are terminated and the die reloads. -/
  | schedulerFirmwareFault (die : Nat)
  /-- R506. The configuration scrub finds an uncorrectable mismatch; contexts are terminated and the die reloads. -/
  | bitstreamIntegrityFault (die : Nat)
  /-- R401. SPDM request answered with version 1.3. -/
  | getVersion
  /-- R401. SPDM request answered with the responder's capabilities. -/
  | getCapabilities (version : Nat)
  /-- R401. SPDM request that selects the algorithms, or none. -/
  | negotiateAlgorithms (version : Nat) (asym hash : List Nat) (meas : MeasurementOffer)
  /-- R401. SPDM request for certificate chain digests. -/
  | getDigests (version : Nat)
  /-- R401. SPDM request for the slot 0 certificate chain. -/
  | getCertificate (version slot offset length : Nat)
  /-- R402. SPDM challenge answered with RSA and SLH-DSA co-signed CHALLENGE_AUTH. -/
  | challenge (version slot : Nat) (nonce : List Byte)
  /-- R403. SPDM request answered with signed measurements. -/
  | getMeasurements (version index : Nat) (signed : Bool) (nonce : List Byte)
  /-- R507. Any other or malformed SPDM request is answered with an ERROR response. -/
  | spdmUnsupportedRequest (version code : Nat) (malformed : Bool)
  /-- R376. PLDM platform monitoring request reporting sensors and package power. -/
  | pldmRequest (sensor : Nat) (temp : Int)
  /-- R376. MCTP control message handled by the management endpoint. -/
  | mctpControl (msg : List Byte)
  /-- R472. Firmware refills a die's free pool, and the accesses parked on the empty pool bind their frames and complete. -/
  | freePoolRefill (die : Nat) (small large : List Nat)
  /-- R499. The PCIe link comes up again after it went down, and the host can re-create its contexts and queues. -/
  | hostLinkUp
  /-- R497. A UCIe retrain ends, either delivering the held flits once and in order or failing the link. -/
  | linkRetrainEnd (link : Nat) (ok : Bool)
  /-- R386. When a quadrant's activity falls faster than the bounded slope, the controller runs ballast on its matrix engines and reduces it over 2 us. -/
  | ballastRamp (quad energy : Nat)
  /-- R380. The power controller moves a quadrant to another operating point by its own choice, taking effect within 20 us. -/
  | operatingPointChange (quad point : Nat)
  /-- R407. Package power is lost, possibly during an ACTIVATE or COMMIT metadata update, leaving the old or the new metadata in force. -/
  | packagePowerLoss (during : Option FwUpdate) (blown : Nat) (done : Bool)
  /-- R496. In host-assisted run-list mode the host writes the run list, and the Pavilion serves its valid entries and reports each bad one with a BAD COMMAND event. -/
  | runListWrite (die : Nat) (pf : Nat) (rows : List (Nat × Nat × Nat))
  deriving DecidableEq, Repr

end Sys2Proof
end

