-- ==== Sys2Proof/Machine/State.lean ====
section
/-! DEFINITION. The state of the package as plain data, and its reset. Objects that the machine creates
later (contexts, queues, launches, teams, cores in use) are lists that are empty at reset. -/

namespace Sys2Proof.Machine

/-- Bytes of memory as (address, byte) cells in ascending address, none equal to 0 (log entry 1). The
addresses are those of `Place` in Ops: die-local DRAM, host memory, the scratchpads and the boot store. -/
abbrev Memory := List Host.Cell

/-- What a checkpoint holds of a thread (R223): registers, expired state and path term. -/
structure ThreadSave where
  tid : Nat
  v : List Word
  p : List Bool
  vx : List Nat
  px : List Nat
  term : DWord
  deriving DecidableEq, Repr

/-- R38: a split-stack entry of a warp or of a drawn group. -/
structure Split where
  id : Nat
  warp : Nat
  grp : Option Nat
  reconv : Nat
  mem : List Nat
  arrived : List Nat
  parent : Option Nat
  deriving DecidableEq, Repr, Inhabited

/-- R223: the checkpoint of a warp: its threads and uniform registers, the address of the `BARS` or `TXBEG`, and the
split-stack entries and the innermost entry of its one fragment. -/
structure Shadow where
  threads : List ThreadSave
  w : List Word
  wx : List Nat
  pc : Nat
  ent : Option Nat
  splits : List Split
  deriving DecidableEq, Repr

/-- R146, R147: the speculative state of a warp: the phase it awaits, lines read, stores buffered, and the pages of those
(physical address, size); `evicted` says that a line read has left the L1's tags for the overflow signature. -/
structure Spec where
  handle : Nat
  phase : Nat
  shadow : Shadow
  reads : List Nat
  buf : List Host.Cell
  pages : List (Nat × Nat)
  evicted : Bool
  deriving DecidableEq, Repr

/-- R225, R477: one signalled abort reason. -/
structure Abort where
  code : Nat
  cause : Nat
  user : Nat
  deriving DecidableEq, Repr

/-- R148, R226: the transactional state of a warp. -/
structure Tx where
  wd : Nat
  shadow : Shadow
  reads : List Nat
  writes : List Nat
  buf : List Host.Cell
  pages : List (Nat × Nat)
  aborts : List Abort
  deriving DecidableEq, Repr

inductive WarpMode where
  | normal
  | speculative (s : Spec)
  | transactional (t : Tx)
  deriving DecidableEq, Repr, Inhabited

/-- R216: an entry of the registration list. `again` says that the warp's last `PHAW` on the handle has not seen its phase complete:
the next one is the same wait again and makes no arrival (R220, R222). -/
structure Registration where
  handle : Nat
  mode : Nat
  pending : Bool
  phase : Nat
  again : Bool := false
  deriving DecidableEq, Repr, Inhabited

/-- R215: a phaser. -/
structure Phaser where
  p : Nat
  n : Nat
  a : Nat
  deriving DecidableEq, Repr, Inhabited

/-- R456: a trap condition with what its frame header records. -/
structure TrapInfo where
  cause : Nat
  tcode : Word
  addr : Nat
  spc : Nat
  fmask : Nat
  frank : Nat
  late : Bool
  words : List Word
  deriving DecidableEq, Repr, Inhabited

/-- A thread or child (R30, R59). `vx` and `px` hold the numbers of expired registers (R83). In a region,
`live` is its live mask, `liveX` the `.rf` destinations since (R52), and `fresh` the registers written in the
present group (R55). `done` marks arrival at the join (R57), and `late` are its refused stores, oldest first, whose reports
are to come (R453). -/
structure Thread where
  v : List Word
  p : List Bool
  vx : List Nat
  px : List Nat
  term : DWord
  exited : Bool
  entered : Bool
  done : Bool
  drawn : Bool
  reloc : Bool
  live : Word
  liveX : List Nat
  fresh : List Nat
  child : Bool
  parent : Nat
  queued : Bool
  homeFrag : Nat
  resume : Nat
  late : List TrapInfo
  deriving DecidableEq, Repr, Inhabited

/-- Register classes as window entries code them (R346). -/
inductive RegClass where
  | vector | uniform | predicate | accumulator
  deriving DecidableEq, Repr

/-- A forwarded value of a transient result (R83): the thread (0 for a uniform register), its register and value. -/
structure Forwarded where
  tid : Nat
  reg : Nat
  val : Word
  deriving DecidableEq, Repr

/-- R84, R346: one position of the forwarding window. -/
structure WindowEntry where
  valid : Bool
  trans : Bool
  cls : RegClass
  reg : Nat
  nreg : Nat
  fwd : List Forwarded
  deriving DecidableEq, Repr

/-- R85: an outstanding variable-latency result. `op` names the matrix operation that will return it; `after` says that only a
marked instruction later than the last releases it (R289), and `pop` the command whose result word leaves its queue then (R295). -/
structure Outstanding where
  cls : RegClass
  reg : Nat
  nreg : Nat
  returned : Bool
  op : Option Nat
  after : Bool
  pop : Option Nat
  deriving DecidableEq, Repr

/-- R36, R346: a member of a fragment or group and the place its rank maps to. -/
structure Member where
  rank : Nat
  tid : Nat
  lane : Nat
  pass : Nat
  reloc : Bool
  deriving DecidableEq, Repr, Inhabited

/-- Where an access lands: translated memory with the page's ORD, physical address and size, and the virtual address; host
memory; on-chip storage; or an offset in the cluster-shared window that stands on another core. -/
inductive Spot where
  | dram (place ord pa size va : Nat)
  | host (place : Nat)
  | chip (space place : Nat)
  | far (core off : Nat)
  deriving DecidableEq, Repr

/-- What a waiting fragment waits for. -/
inductive Wait where
  | tryWait (handle phase deadline : Nat) (f : Fields)      -- R220
  | tile (tile deadline : Nat) (f : Fields)                 -- R230
  | arrival (handle : Nat)                                  -- R219, a pending arrival
  | queue (q : Nat)                                         -- R295, R297, a push or a pop
  | matrix                                                  -- R289, a full matrix queue
  | spill                                                   -- R487
  | walk (va : Nat)                                         -- R63, R101, translation
  | pool (va deadline : Nat)                                -- R472
  | placement (request va : Nat)                            -- R473
  | remote (va deadline : Nat)                              -- R378, R500
  | pause                                                   -- R146
  | claim (next stop : Nat)                                 -- R235
  | gather (f : Fields) (left : List Nat)                   -- R256
  | collector                                               -- R255
  | rmws (i : Instr) (left : List (Member × Spot)) (vs : List (Nat × Nat))   -- R253, the rest of an `ATOM` or `RED`
  | release                                                 -- R105, earlier read-modify-writes of the team
  | frame                                                   -- R459
  | host                                                    -- R461
  deriving DecidableEq, Repr

inductive FragState where
  | running
  | parked
  | switchParked
  | waiting (w : Wait)
  deriving DecidableEq, Repr, Inhabited

/-- R183: a repeat in progress: the prefix, its count and the repeats not yet completed. -/
structure Repeat where
  prefix0 : Word
  prefix1 : Word
  fields : RepFields
  left : Nat
  deriving DecidableEq, Repr

/-- R37, R49: a fragment, or an issue group of a region (`grp` numbers the group). `ent` is its innermost
split-stack entry. `counted` says that the instruction it waits at has taken its window position (R82), `walked`
that its page walks are made as it issues again (R101), and `fromFrame` that it is to resume from its frame (R213).
`wholeAt` is the frame's WHOLE, `kept` what trap entry covered in a relocated thread's home bank, and `keptW` the transient
uniform values of its window at trap entry where it is not whole (R84, R456 to R458).
`keptX` are the covered transient registers of `kept` that had expired, and `bounds` the pages that the instruction at `pc` has
waited for, each with the cause and the end of its wait, 0 for one that has timed out (R472, R500).
`held` says that the last stop found it waiting (R346), `ready` counts the cycles for which it has been Ready, `after` is the first
cycle that it may issue in again (R208), `gone` the ranks of its group whose threads
have exited in it and `unfiled` that the group stands at its threads' virtual lanes, as `RFOPEN` left it (R49, R263), `slot` the issue slot that the Arbour has assigned a drawn group to (R352), `claim` the next page of a `CLAIM` in progress (R235), and `key` that of its group's bin
(R345). -/
structure Frag where
  id : Nat
  warp : Nat
  grp : Option Nat
  mem : List Member
  pc : Nat
  st : FragState
  ent : Option Nat
  partial_ : Bool
  win : List WindowEntry
  out : List Outstanding
  priv : Bool
  rep : Option Repeat
  trap : Option TrapInfo
  counted : Bool
  walked : Bool
  fromFrame : Bool
  wholeAt : Bool
  kept : List Forwarded
  keptW : List Forwarded
  keptX : List (Nat × Nat)
  bounds : List (Nat × Nat × Nat)
  held : Bool
  ready : Nat
  after : Nat
  slot : Option Nat
  claim : Nat
  key : Nat
  gone : List Nat
  unfiled : Bool
  deriving DecidableEq, Repr, Inhabited

/-- R30: a warp. `again` is the phase of a `BARS` that a rollback has it execute again (R223). `stored` are the lines that it has
stored to, and `logs` those since its last arrival on each phaser that it has arrived on (R147). -/
structure Warp where
  w : List Word
  wx : List Nat
  regs : List Registration
  mode : WarpMode
  repcnt : Nat
  frame : Bool
  again : Option Nat
  stored : List Nat
  logs : List (Nat × List Nat)
  deriving DecidableEq, Repr, Inhabited

/-- R304: node states. -/
inductive NodeState where
  | free | armed | launched | done
  deriving DecidableEq, Repr, Inhabited

/-- R304, R305: a dependence-graph node. `failed` records that a predecessor completed abnormally, and `slot` that of
its completion record, if it writes one (log entry 81). -/
structure Node where
  st : NodeState
  pred : Nat
  k : Int
  succ : List Nat
  valid : List Bool
  pty : Nat
  cmd : Option Nat
  overflow : Bool
  failed : Bool
  ph : Option Nat
  slot : Option Nat
  entry : Nat
  arg0 : Word
  arg1 : Word
  deriving DecidableEq, Repr, Inhabited

/-- R297, R301: states of an engine command; `applied` has had its effect and has not yet completed. -/
inductive CmdState where
  | held | launched | takenUp | applied | complete
  deriving DecidableEq, Repr, Inhabited

/-- R330, R316: the state of a walk in flight. `maze` is the engine it runs on; `handed` says that it came there by
hand-off. -/
structure Walk where
  maze : Nat
  x : List DWord
  node : Nat
  flag : Bool
  op : Nat
  steps : Nat
  ops : Nat
  prog : List Word
  handoff : Option Nat
  handed : Bool
  deriving DecidableEq, Repr, Inhabited

/-- R486: a `REDCOPY` element in flight: its home slice, number there, index, place and data, whether it is held
above the watermark, and its page (physical address and size). -/
structure Sent where
  slice : Nat
  seq : Nat
  elem : Nat
  place : Nat
  data : Nat
  held : Bool
  page : Nat × Nat
  deriving DecidableEq, Repr, Inhabited

/-- R324: a rulebook's header, directory and pairs, as an `SPCONV` has read and checked them. -/
structure Rulebook where
  sets : List (Nat × Nat)
  noff : Nat
  nin : Nat
  nout : Nat
  flags : Nat
  p : Nat
  spare : Nat
  dir : List (Nat × Nat)
  pairs : List Nat
  deriving DecidableEq, Repr

/-- R296, R297: an engine command that holds a queue entry. `tiles` are the descriptors read at its last
push (R298), `marks` the applied watermarks by home slice (R486), `sent` its elements in flight, `issued` says that it
issues no further element, `results` are the words that it has queued or will queue at completion,
`stall` a wait for a frame or (`true`) another die, its page and its end (R472, R488), `taken` counts the result words that fragments have popped and
not yet released (R295), `book` is what an `SPCONV` read as it was taken up (R327), `skip` are the
elements above `idx` that had been applied as the command was saved, and `paid` says that the matrix engine has done
the products of a Pergola command's next rows (R19, R483). -/
structure Cmd where
  id : Nat
  q : Nat
  words : List Word
  sub : Nat
  st : CmdState
  tiles : List (Nat × DWord)
  grans : List Nat
  idx : Nat
  status : Nat
  cause : Nat
  count : Nat
  results : List Word
  marks : List (Nat × Nat)
  sent : List Sent
  issued : Bool
  walk : Option Walk
  fault79 : Bool
  taken : Nat
  book : Option Rulebook
  paid : Bool
  stall : Option (Bool × Nat × Nat)
  warp : Nat
  core : Nat
  order : Nat
  skip : List Nat
  deriving DecidableEq, Repr, Inhabited

/-- R296: an open frame on a queue register, and the register's submission count. -/
structure QueueReg where
  owner : Option Nat
  words : List Word
  subs : Nat
  deriving DecidableEq, Repr, Inhabited

/-- R57: a fragment that ended at `RFOPEN`, to be re-created at the close. -/
structure Home where
  frag : Nat
  warp : Nat
  ent : Option Nat
  mem : List Member
  deriving DecidableEq, Repr

/-- R48, R57: an open reform region. -/
structure Region where
  join : Nat
  kids : Nat
  homes : List Home
  deriving DecidableEq, Repr

inductive TeamState where
  | resident | regionOpen | saving | saved | completed
  deriving DecidableEq, Repr, Inhabited

/-- R30, R66: a team. `base` is the first granule of its scratchpad allocation (R93), `owned` the granules
(relative to it) whose owner is ENGINE (R113). `roSince` is the value of `fresh` as the team came to its core (R106, log entry
111). -/
structure Team where
  id : Nat
  launch : Nat
  num : Nat
  core : Nat
  st : TeamState
  threads : List Thread
  warps : List Warp
  frags : List Frag
  splits : List Split
  tiles : List DWord
  accs : List (List (Nat × Word))
  phasers : List (Option Phaser)
  queues : List QueueReg
  cmds : List Cmd
  nodes : List Node
  region : Option Region
  base : Nat
  owned : List Nat
  rxwin : DWord
  cycles : Nat
  watchdog : Nat
  halting : Bool
  roSince : Nat
  deriving DecidableEq, Repr, Inhabited

/-- R88, R89: the kernel header. -/
structure Header where
  width : Nat
  compat : Bool
  gang : Bool
  claim : Bool
  accs : Nat
  tiles : Nat
  ugran : Nat
  vgran : Nat
  priv : Nat
  scratch : Nat
  nodes : Nat
  queues : Nat
  shadow : Nat
  trap : Nat
  deriving DecidableEq, Repr, Inhabited

/-- R354..R360: a replay: the command's words, the pass under way and what the passes recorded. `area` are the
places of the capture area in chunks of 16 KiB, `pages` the pages captured in this pass (physical address, size, first chunk
in the area), and `exempt` the places and sizes of what R447 leaves out. -/
structure Replay where
  record : Nat
  capture : Nat
  units : Nat
  npass : Nat
  sel : List Word
  pass : Nat
  sigs : List (DWord × List Nat × Nat)
  exempt : List (Nat × Nat)
  area : List Nat
  pages : List (Nat × Nat × Nat)
  dsp : Memory
  bound : List (Nat × Nat × Nat)
  sum : DWord
  startNs : Nat
  overflow : Bool
  abandoned : Bool
  deriving DecidableEq, Repr, Inhabited

/-- R344, R347: a launch. `teams` counts those not yet placed from `nextTeam` on; `drain` is R351's set. -/
structure Launch where
  id : Nat
  pf : Nat
  q : Nat
  slot : Nat
  die : Option Nat
  image : Nat
  resume : Bool
  entry : Nat
  hdr : Header
  dims : List Nat
  t : Nat
  args : List Word
  save : Nat
  saveSize : Nat
  nteam : Nat
  nextTeam : Nat
  started : Bool
  since : Nat
  gangBy : Option Nat
  drain : List Nat
  phasers : List Nat
  slotsLoaded : List Nat
  halting : Bool
  requeue : Bool
  replay : Option Replay
  deriving DecidableEq, Repr, Inhabited

/-- R289: a queued matrix operation: its accumulator and the elements that are not +0.0 when it retires, and the
engine cycles that it takes (R287; 0 for one that multiplies nothing). `cmd` names the Pergola command whose products these are,
which writes no accumulator (R289). -/
structure MatrixOp where
  id : Nat
  team : Nat
  acc : Nat
  elems : List (Nat × Word)
  cycles : Nat
  cmd : Option Nat
  deriving DecidableEq, Repr

/-- R50, R65: a bin: its key, its threads oldest first with the cycle each was filed at, and whether it is
drawable by age. -/
structure Bin where
  team : Nat
  key : Nat
  tids : List (Nat × Int)
  aged : Bool
  deriving DecidableEq, Repr, Inhabited

/-- R101, R103: a translation that a TLB holds: context, level, page number, where its entry stands and
the entry. -/
structure Translation where
  ctx : Nat
  pf : Nat
  level : Nat
  page : Nat
  at_ : Nat
  entry : DWord
  deriving DecidableEq, Repr

/-- A line of a read-only cache (R106) or of an engine cache (R320), at its virtual address in a context (log entry 7). `filled` is
the value of the package's counter `fresh` as a read-only cache loaded it: `CCTL.ro` tells by it the lines older than its team. -/
structure RoLine where
  pf : Nat
  ctx : Nat
  line : Nat
  data : List Byte
  filled : Nat := 0
  deriving DecidableEq, Repr

/-- The private state of a core (R18). `l1` holds 32-byte sectors, latest first, `ro` 128-byte lines, `tlb` the
entries of its L1 TLB, `grids` the launches of which a team has started here (R106), `issued` the slots that have issued in this cycle and `drew` says that a group has been drawn in it (R352). `sel` and `pmc` are the counters' event codes and counts (R358). -/
structure Core where
  l1 : List (Nat × List Byte)
  ro : List RoLine
  tlb : List Translation
  grids : List Nat
  bins : List (Option Bin)
  spawn : List (Nat × Nat)
  collector : List (Nat × Nat)
  matrix : List MatrixOp
  spares : Nat
  matFailed : Bool
  sel : List Nat
  pmc : List Nat
  issued : List Nat
  drew : Bool
  cycle : Nat
  deriving DecidableEq, Repr, Inhabited

/-- A compute die's own state (R21, R377, R501, R506). `tlb` is its L2 TLB, `dirty` the L2 lines that DRAM does not
hold, and `halting` the temperature and sensor of a trip 3 whose saves are not yet complete (R502). -/
structure Die where
  time : Nat
  pool64 : List Nat
  pool2m : List Nat
  phasers : List (Nat × Phaser)
  tlb : List Translation
  dirty : List Nat
  warn : Bool
  throttle : Bool
  halting : Option (Nat × Nat)
  halted : Bool
  haltAt : Nat
  off : Bool
  dout : Bool
  quadLost : List Nat
  noContext : Bool
  faults : List Nat
  corrected : Nat
  correctedAt : Option Nat
  noticeAt : Option Nat
  runList : List (Nat × Nat × Nat × Nat)
  deriving DecidableEq, Repr, Inhabited

/-- R118, R167: a live exact accumulator at the place of its element, with the teams that contributed and the entry of the
spill area that it stands in, if its slice had no room for it. -/
structure Exact where
  pf : Nat
  ctx : Nat
  place : Nat
  sum : BitVec 632
  pinf : Bool
  ninf : Bool
  nan : Bool
  by_ : List Nat
  spill : Option Nat
  deriving DecidableEq, Repr

/-- An event ring: base address, log2 of its entries and the number of the next record (R343). -/
structure Ring where
  va : Nat
  log : Nat
  seq : Nat
  deriving DecidableEq, Repr, Inhabited

/-- R473: a placement request: the die of the walker and its number there, the page, the fragment or command that
asked, its team, and the host's answer (true: the page is placed). -/
structure Request where
  die : Nat
  num : Nat
  va : Nat
  by_ : Nat
  team : Nat
  answer : Option Bool
  deriving DecidableEq, Repr

/-- R370: a live context. -/
structure Context where
  pf : Nat
  num : Nat
  root : Nat
  spill : Nat
  spillUnits : Nat
  dsp : Nat
  dspBase : Nat
  claim : Bool
  hostBooks : Bool
  hostPlace : Bool
  hostTraps : Bool
  hostRuns : Bool
  hostFw : Bool
  ring : Ring
  ovtab : Word
  slots : List (Option (List Word))
  installs : List (Nat × List Word)
  requests : List Request
  deriving DecidableEq, Repr, Inhabited

/-- What a started queue command is doing (R342). -/
inductive QueueWork where
  | launch (l : Nat)
  | wait (deadline : Option Nat) (last : DWord)
  | ended
  deriving DecidableEq, Repr, Inhabited

structure QueueRun where
  slot : Nat
  word0 : Word
  words : List Word
  work : QueueWork
  deriving DecidableEq, Repr, Inhabited

/-- R339, R371: a host queue. `served` grows each time that its slice ends for another queue (R348). -/
structure Queue where
  pf : Nat
  num : Nat
  die : Nat
  ctx : Nat
  base : Nat
  log : Nat
  level : Nat
  stealable : Bool
  ring : Ring
  sliceUs : Nat
  gangMs : Nat
  vector : Nat
  headVa : Nat
  head : Nat
  tail : Nat
  next : Nat
  completed : Nat
  suspended : Bool
  headDue : Bool
  sliceEnd : Nat
  served : Nat
  runs : List QueueRun
  deriving DecidableEq, Repr, Inhabited

/-- R369: the registers of one physical function's window. `cmd` is the value of CTXCMD that the Lodge is carrying out, while
CTXSTAT reads BUSY. -/
structure Window where
  ctxAddr : DWord
  cmd : Option Nat
  statNum : Nat
  stat : Nat
  preempt : Word
  deriving DecidableEq, Repr, Inhabited

/-- R393: the boot metadata, as a copy in the boot store holds it. -/
structure Metadata where
  seq : Nat
  active : Bool
  cver : Nat
  tokcnt : Nat
  deriving DecidableEq, Repr, Inhabited

/-- R398: what a rollback token was accepted for: its IMGVER, the TOKCNT and the manifest digest. -/
structure Accepted where
  ver : Nat
  tokcnt : Nat
  digest : List Byte
  deriving DecidableEq, Repr

/-- R396..R400, R505: firmware state. `pend` is the bank of a pending activation with its accepted token, `lost` are the banks
whose copies to the other dies failed at the boot (R505). `loading` says that the load after a reset is in progress, and `cmd` is the value of
FWCMD that the Lodge is carrying out, while FWSTAT reads BUSY. -/
structure Firmware where
  floor : Nat
  loading : Bool
  cmd : Option Nat
  running : Bool
  runVer : Nat
  runSvn : Nat
  loaded : Bool
  recovery : Bool
  fallback : Bool
  result : Nat
  pend : Option (Bool × Option Accepted)
  lost : List Bool
  addr : DWord
  deriving DecidableEq, Repr, Inhabited

/-- R384, R385, R388..R391: power control. `op` and `layer` are the operating points, `spent` says that the
budget of this window is reached, `energy` is what the window is known to have drawn, `ballast` the ballast energy drawn in it,
`droopTimes` are the clusters and times of the stretches of the last millisecond, and `stretched` the clusters whose clock is
stretched, with the cycles that are left until it is nominal again and whether its next cycle must come (R382). -/
structure Power where
  cap : Nat
  capNext : Nat
  window : Nat
  debit : Nat
  throttled : Nat
  spent : Bool
  doneSeq : Nat
  doneEnergy : Nat
  op : List Nat
  layer : List Nat
  droops : List Nat
  ramps : List Nat
  energy : Nat
  ballast : Nat
  droopTimes : List (Nat × Nat)
  stretched : List (Nat × Nat × Bool)
  deriving DecidableEq, Repr, Inhabited

/-- R497: a UCIe link. -/
structure Link where
  failed : Bool
  retraining : Bool
  replays : Nat
  retrains : Nat
  recent : List Nat
  retried : Nat
  deriving DecidableEq, Repr, Inhabited

/-- What the device makes a request of its own for: an event record, the head word of a queue, a command of a queue, a home slice's
spilled accumulators, a fragment, team or launch, or an arrival of a team's engine on a phaser that another die holds. -/
inductive Asker where
  | record (q : Option Nat)
  | head (q : Nat)
  | queue (q : Nat)
  | slice
  | unit (id : Nat)
  | arrival (team handle : Nat)
  deriving DecidableEq, Repr

/-- R108, R378: a request of the device's own (`owner` names it) that waits for a frame (`remote` false, R472) or for another
die, until a time of its die. -/
structure Waiting where
  owner : Asker
  pf : Nat
  ctx : Nat
  die : Nat
  va : Nat
  remote : Bool
  deadline : Nat
  deriving DecidableEq, Repr

/-- A device write that waits for its translation: an event record of a context's ring or of a queue's, or a head word
(R339, R490). -/
inductive Outgoing where
  | ctx (pf ctx die src code num status detail : Nat)
  | queue (pf q tag status detail : Nat)
  | head (pf q : Nat)
  deriving DecidableEq, Repr

/-- R402: the vendor-defined element of OpaqueData, with the co-signature. -/
structure OpaqueElement where
  vendor : Nat
  kind : Nat
  coSignature : List Byte
  deriving DecidableEq, Repr

/-- R401..R403, R507, R376: answers of the management endpoint, each with its error code or its content. -/
inductive Answer where
  | version (v : Nat)
  | capabilities (cert chal measure fresh : Bool) (ct : Nat)
  | algorithms (asym hash measure spec : Bool)
  | digests (digest : List Byte)
  | certificate (part : List Byte) (left : Nat)
  | challengeAuth (co : OpaqueElement) (signature : List Byte)
  | measurements (blocks : List (Nat × Nat × List Byte)) (co : OpaqueElement) (signature : List Byte)
  | error (code : String)
  | sensor (value : Int)
  | control (data : List Byte)
  | completerAbort
  | bytes (data : List Byte)
  deriving DecidableEq, Repr

/-- R401: what the SPDM session has agreed: nothing, a version, algorithms (some selected or none). -/
inductive Session where
  | start | versioned | capable | selected | none_
  deriving DecidableEq, Repr

/-- A `.c` store on its way to another core (R94, R114, R115): issuing team and thread, a number that the stores of one instruction
share, the store's pc, its offset in the window and its data. The team that it stores to is that which the core has as it arrives. -/
structure FarStore where
  team : Nat
  tid : Nat
  issue : Nat
  pc : Nat
  off : Nat
  core : Nat
  data : List Byte
  words : List Word
  deriving DecidableEq, Repr

/-- An image that this device has saved: the launch and its teams as they stood (R345, R347, log entry 15). -/
structure SavedImage where
  pf : Nat
  ctx : Nat
  save : Nat
  launch : Launch
  teams : List Team
  bins : List (Nat × Bin)
  phasers : List (Nat × Phaser)
  deriving DecidableEq, Repr, Inhabited

/-- The instruction in issue: its team, fragment, address and words as fetched, and how many read-modify-writes of an `ATOM` or
`RED` come at once (`none`: all of them; log entry 94). -/
structure Issue where
  team : Nat
  frag : Nat
  pc : Nat
  words : List Word
  pace : Option Nat := none
  deriving DecidableEq, Repr, Inhabited

/-- What happens next (log entry 3): a fragment issues, of an `ATOM` or `RED` some of the read-modify-writes only, or one more of
them comes about (R253), a unit's or the host's happening comes about, time
passes (10 ns on the dies of a list, whose reference inputs rise, and a cycle on the cores of a list of clusters), the host
writes its own memory, a cached sector, a line of a read-only or an engine cache or a translation is evicted, a dirty L2 line is written back, a DRAM word goes bad, an on-chip structure has an uncorrectable error (STRUCT of R482; 11 for the
speculation buffer of warp `unit`) in what belongs to a team or was read for it (0: no team), a die corrects an error (its DETAIL), a host address answers with an error, the host reads a
register, or assigns queues to a virtual function, which writes and reads through its own window (R373), sets a context's choices
anew (R361), the teams of a queue that a ring fault suspended stop (R493), the Lodge ends
what it is carrying out for the firmware registers or for a function's CTXCMD, or the device tries its waiting writes again. -/
inductive Turn where
  | issue (team frag : Nat)
  | issueSome (team frag n : Nat)
  | rmw (team frag : Nat)
  | happen (i : Instr)
  | tick (edges clusters : List Nat)
  | hostWrite (addr : Nat) (bytes : List Byte)
  | evict (core sector : Nat)
  | evictRo (core idx : Nat)
  | evictTlb (die idx : Nat)
  | evictCoreTlb (core idx : Nat)
  | evictEngine (engine idx : Nat)
  | evictL2 (die idx : Nat)
  | upset (word : Nat)
  | chipError (die struct unit team : Nat)
  | corrected (die detail : Nat)
  | hostError (addr : Nat)
  | hostRead (pf bar off width : Nat)
  | vfAssign (pf vf : Nat) (queues : List Nat)
  | vfWrite (pf vf bar off width : Nat) (v : DWord)
  | vfRead (pf vf bar off width : Nat)
  | choose (pf ctx bits : Nat)
  | stopQueue (pf q : Nat)
  | lodge (pf : Option Nat)
  | resend
  deriving DecidableEq, Repr

/-- The whole package. `caches` are the engine caches of the coordinate engines (R320), `vfs` are the queues that a virtual function of a PF may ring (R373), `msix` the interrupts raised, each with
its PF and vector (R375), and `beat` counts the rounds (log entry 3), and `limits` are the bounded
parameters as the running image sets them (R406). -/
structure State where
  mem : Memory
  cores : List (Nat × Core)
  dies : List Die
  teams : List Team
  launches : List Launch
  contexts : List Context
  queues : List Queue
  exacts : List Exact
  setCounter : List Nat
  caches : List (List RoLine)
  far : List FarStore
  saved : List SavedImage
  mode : Nat
  windows : List Window
  vfs : List (Nat × Nat × List Nat)
  links : List Link
  hostUp : Bool
  evdrop : Bool
  pfail : Bool
  hld : Bool
  power : Power
  fw : Firmware
  msix : List (Nat × Nat)
  session : Session
  answers : List Answer
  bad : List Nat
  hostBad : List Nat
  cur : Issue
  agenda : List Turn
  limits : Config.Limits
  waits : List Waiting
  outbox : List Outgoing
  beat : Nat
  free : Nat
  fresh : Nat
  deriving DecidableEq, Repr

/-- Why the machine stops. Every condition that the manual names is a trap, a status or an event and ends in a
next state. `noIssuer` is raised by the meanings of rows 0..152 in a state whose `cur` names no fragment of a
resident team, so that no fragment issues; `step` never reaches it. Safe: nothing runs. -/
inductive Fault where
  | noIssuer
  deriving DecidableEq, Repr

/-- `notModelled` is raised by an arm of `exec` that has no meaning yet; safe: it claims nothing. -/
inductive Refusal where
  | notModelled (mnemonic : String)
  deriving DecidableEq, Repr

/-- A core in which nothing has run: caches empty, bins free (R65), counters at event 0x00 (R358). -/
def Core.idle : Core :=
  { l1 := [], ro := [], bins := List.replicate 32 none, tlb := [], grids := [], spawn := [], collector := [], matrix := [], spares := 0
    matFailed := false, sel := [0, 0, 0, 0], pmc := [0, 0, 0, 0], issued := [], drew := false, cycle := 0 }

/-- A die after reset: its time counter 0 (R377), nothing allocated, no trip. -/
def Die.reset : Die :=
  { time := 0, pool64 := [], pool2m := [], phasers := [], tlb := [], dirty := [], warn := false, throttle := false
    halting := none, halted := false, haltAt := 0, off := false, dout := false, quadLost := [], noContext := false
    faults := [], corrected := 0, correctedAt := none, noticeAt := none, runList := [] }

/-- The metadata where no copy is valid (log entry 20). -/
def Metadata.blank : Metadata := { seq := 0, active := false, cver := 0, tokcnt := 0 }

/-- R400's reset fields; bank A loaded with version 0 (log entry 20). -/
def Firmware.reset : Firmware :=
  { floor := 0, loading := false, cmd := none, running := false, runVer := 0
    runSvn := 0, loaded := true, recovery := false, fallback := false, result := 0, pend := none, lost := [], addr := 0 }

/-- R389: CAP 320; R390, R391: every reported field 0. -/
def Power.reset : Power :=
  { cap := 320, capNext := 320, window := 0, debit := 0, throttled := 0, spent := false, doneSeq := 0
    doneEnergy := 0, op := List.replicate 16 0, layer := List.replicate 16 0, droops := List.replicate 16 0
    ramps := List.replicate 16 0, energy := 0, ballast := 0, droopTimes := [], stretched := [] }

def Link.reset : Link :=
  { failed := false, retraining := false, replays := 0, retrains := 0, recent := [], retried := 0 }

def Window.reset : Window := { ctxAddr := 0, cmd := none, statNum := 0, stat := 0, preempt := 0 }

/-- The package after reset: four dies, sixteen set counters at 1 (R318), MODE 0 (R366), no context live. -/
def State.reset : State :=
  { mem := [], cores := [], dies := List.replicate 4 Die.reset, teams := [], launches := [], contexts := []
    queues := [], exacts := [], setCounter := List.replicate 16 1, caches := List.replicate 16 [], far := [], saved := [], mode := 0
    windows := List.replicate 4 Window.reset, vfs := [], links := List.replicate 4 Link.reset, hostUp := true, evdrop := false
    pfail := false, hld := false, power := Power.reset, fw := Firmware.reset, msix := [], session := .start
    answers := [], bad := [], hostBad := [], cur := { team := 0, frag := 0, pc := 0, words := [] }, agenda := []
    limits := Config.Limits.reset, waits := [], outbox := [], beat := 0, free := 0, fresh := 1 }

end Sys2Proof.Machine
end

