-- ==== Sys2Proof/Machine/Mem.lean ====
section
/-! DEFINITION. Memory: reading, writing and byte order (R7), and where each byte of the package stands. -/

namespace Sys2Proof.Machine

/-- What a byte that no cell lists reads as (log entry 1). -/
def Memory.blank : Byte := 0

/-- One byte of memory. -/
def Memory.get : Memory → Nat → Byte
  | [], _ => Memory.blank
  | (k, b) :: m, a => if k = a then b else Memory.get m a

/-- Writes one byte and keeps the canonical form: ascending addresses, no blank listed. -/
def Memory.set : Memory → Nat → Byte → Memory
  | [], a, b => if b = Memory.blank then [] else [(a, b)]
  | (k, c) :: m, a, b =>
      if a < k then (if b = Memory.blank then (k, c) :: m else (a, b) :: (k, c) :: m)
      else if a = k then (if b = Memory.blank then m else (a, b) :: m)
      else (k, c) :: Memory.set m a b

/-- The canonical form: every address above `lo`, rising, and no cell blank. -/
def Memory.wfFrom : Nat → Memory → Bool
  | _, [] => true
  | lo, (k, b) :: m => (lo ≤ k) && (b != Memory.blank) && Memory.wfFrom (k + 1) m

def Memory.wf (m : Memory) : Bool := Memory.wfFrom 0 m

/-- The `n` bytes from `a` on. -/
def Memory.bytes (m : Memory) (a : Nat) : Nat → List Byte
  | 0 => []
  | n + 1 => m.get a :: Memory.bytes m (a + 1) n

/-- Writes bytes in ascending address order. -/
def Memory.write (m : Memory) (a : Nat) : List Byte → Memory
  | [] => m
  | b :: bs => Memory.write (m.set a b) (a + 1) bs

/-- The cells in `a .. a + n − 1`, and the memory without them. -/
def Memory.slice (m : Memory) (a n : Nat) : Memory := m.filter fun c => a ≤ c.1 && c.1 < a + n
def Memory.clear (m : Memory) (a n : Nat) : Memory := m.filter fun c => !(a ≤ c.1 && c.1 < a + n)

/-- Puts cells back into a range that has been cleared of others; `d` moves them. -/
def Memory.restore (m : Memory) (a n : Nat) (cells : Memory) : Memory :=
  cells.foldl (fun m c => m.set c.1 c.2) (m.clear a n)

/-- Copies `n` bytes of cells from `src` to `dst`. -/
def Memory.copy (m : Memory) (src dst n : Nat) : Memory :=
  (m.slice src n).foldl (fun m c => m.set (c.1 - src + dst) c.2) (m.clear dst n)

/-- R7: the value of little-endian bytes, and the `n` little-endian bytes of a value. -/
def leNat : List Byte → Nat
  | [] => 0
  | b :: bs => b.toNat + 256 * leNat bs

def leBytes : (n v : Nat) → List Byte
  | 0, _ => []
  | n + 1, v => BitVec.ofNat 8 v :: leBytes n (v / 256)

def Memory.nat (m : Memory) (a n : Nat) : Nat := leNat (m.bytes a n)

/-- A store buffer of a speculative or transactional warp: cells, latest first, blanks kept. -/
def bufFind (buf : List Host.Cell) (a : Nat) : Option Byte :=
  match buf with
  | [] => none
  | (k, b) :: r => if k = a then some b else bufFind r a

def bufPut (buf : List Host.Cell) (a : Nat) (bs : List Byte) : List Host.Cell :=
  match bs with
  | [] => buf
  | b :: r => bufPut ((a, b) :: buf.filter (fun c => c.1 != a)) (a + 1) r

/-- Where bytes stand in `State.mem`: die-local DRAM by its physical address (R96), host memory by PA[51:50] =
0b11, then the core scratchpads (R18), die scratchpads (R21) and the boot store (R393). -/
def placeDram (die o : Nat) : Nat := 2 ^ 36 * die + o
def placeHost (a : Nat) : Nat := 3 * 2 ^ 50 + a
def placeScratch (core off : Nat) : Nat := 2 ^ 52 + 2 ^ 19 * core + off
def placeDieScratch (die off : Nat) : Nat := 2 ^ 53 + 2 ^ 32 * die + off
def placeBoot (off : Nat) : Nat := 2 ^ 54 + off

def dramBytes : Nat := 0xC00000000
def scratchBytes : Nat := 393216

/-- R96: does a place stand in DRAM, and on which die? -/
def isDram (place : Nat) : Bool := place < 4 * 2 ^ 36
def homeDie (place : Nat) : Nat := place / 2 ^ 36 % 4
def isHost (place : Nat) : Bool := 3 * 2 ^ 50 ≤ place && place < 2 ^ 52

/-- R368: the spread partition that reset firmware sets. -/
def spreadBase : Nat := 0xA00000000
def spreadSize : Nat := 8 * 2 ^ 30

/-- R25, R365: the dies of the device that a function leads, in ascending order. -/
def deviceDies (mode pf : Nat) : List Nat :=
  match mode with
  | 0 => if pf = 0 then [0, 1, 2, 3] else []
  | 1 => if pf = 0 then [0, 1] else if pf = 2 then [2, 3] else []
  | 2 => if pf < 4 then [pf] else []
  | _ => []

/-- R96, R368: the place of a physical address, none for an address that gives the device no storage. That takes in a die-local
one with a bit of PA[49:38] set, for which R96 names no fault (log entry 86). -/
def placeOf (mode : Nat) (dies : List Nat) (pa : Nat) : Option Nat :=
  match pa / 2 ^ 50 % 4 with
  | 0 =>
      let o := pa % 2 ^ 36
      let d := pa / 2 ^ 36 % 4
      if pa / 2 ^ 38 % 2 ^ 12 = 0 ∧ o < dramBytes ∧ d ∈ dies then some (placeDram d o) else none
  | 1 =>
      let c := pa % 2 ^ 50 / 2 ^ 14
      let o := 16384 * (c / 4) + pa % 2 ^ 14
      if mode = 0 ∧ o < spreadSize then some (placeDram (c % 4) (spreadBase + o)) else none
  | 2 => none
  | _ => some (placeHost (pa % 2 ^ 50))

/-- R97: the DRAM slice and Maze engine of a place, R98: its home L2 slice. -/
def dramSlice (place : Nat) : Nat :=
  let o := place % 2 ^ 36
  (o / 2 ^ 8 % 16) ^^^ (o / 2 ^ 16 % 16)
def mazeOf (place : Nat) : Nat := 16 * homeDie place + dramSlice place
def l2Slice (place : Nat) : Nat :=
  let l := place % 2 ^ 36 / 128
  32 * homeDie place + ((l % 32) ^^^ (l / 32 % 32) ^^^ (l / 1024 % 32))

end Sys2Proof.Machine
end

