-- ==== Sys2Proof/Machine/Units.lean ====
section
/-! DEFINITION. Finding and changing the units that State lists: teams, fragments, threads, warps, cores, dies,
launches, contexts and queues. Every change of a unit goes through these. -/

namespace Sys2Proof.Machine

/-- Changes the elements of a list that meet a test. -/
def modWhere {α : Type} (p : α → Bool) (f : α → α) (l : List α) : List α := l.map fun x => if p x then f x else x

/-- Changes the n-th element. -/
def modNth {α : Type} (n : Nat) (f : α → α) : List α → List α
  | [] => []
  | x :: l => match n with
    | 0 => f x :: l
    | k + 1 => x :: modNth k f l

def setNth {α : Type} (n : Nat) (a : α) (l : List α) : List α := modNth n (fun _ => a) l

/-- Removes repeats, keeping first occurrences. -/
def dedup (l : List Nat) : List Nat := l.foldl (fun acc x => if acc.contains x then acc else acc ++ [x]) []

/-- Room for one more element in a list of at most `cap`: a member that the device chooses goes (log entry 10). -/
def makeRoom {α : Type} (cap n : Nat) (l : List α) : List α :=
  if l.length < cap then l else l.eraseIdx (Config.pick n % l.length)

/-- Inserts into a rising list, once. -/
def insertNat (n : Nat) : List Nat → List Nat
  | [] => [n]
  | x :: l => if n < x then n :: x :: l else if n = x then x :: l else x :: insertNat n l

def sortNat (l : List Nat) : List Nat := l.foldl (fun acc x => insertNat x acc) []

/-- Bit `i` of a number, and the number with the bits of a list set. -/
def bitOf (n i : Nat) : Bool := n.testBit i
def maskOf (l : List Nat) : Nat := l.foldl (fun acc i => acc ||| 2 ^ i) 0

/-- `b` as the number 0 or 1. -/
def bit (b : Bool) : Nat := if b then 1 else 0

/-! ## Teams, fragments, threads, warps -/

def State.team? (s : State) (t : Nat) : Option Team := s.teams.find? fun x => x.id == t
def State.team (s : State) (t : Nat) : Team := (s.team? t).getD default
def State.modTeam (s : State) (t : Nat) (f : Team → Team) : State :=
  { s with teams := modWhere (fun x => x.id == t) f s.teams }

def Team.frag? (tm : Team) (g : Nat) : Option Frag := tm.frags.find? fun x => x.id == g
def Team.frag (tm : Team) (g : Nat) : Frag := (tm.frag? g).getD default
def Team.modFrag (tm : Team) (g : Nat) (f : Frag → Frag) : Team :=
  { tm with frags := modWhere (fun x => x.id == g) f tm.frags }
def State.modFrag (s : State) (t g : Nat) (f : Frag → Frag) : State := s.modTeam t fun tm => tm.modFrag g f

def Team.thread (tm : Team) (tid : Nat) : Thread := tm.threads.getD tid default
def Team.modThread (tm : Team) (tid : Nat) (f : Thread → Thread) : Team :=
  { tm with threads := modNth tid f tm.threads }
def Team.warp (tm : Team) (w : Nat) : Warp := tm.warps.getD w default
def Team.modWarp (tm : Team) (w : Nat) (f : Warp → Warp) : Team := { tm with warps := modNth w f tm.warps }
def State.modWarp (s : State) (t w : Nat) (f : Warp → Warp) : State := s.modTeam t fun tm => tm.modWarp w f

/-! ## Launches, contexts, queues -/

def State.launch? (s : State) (l : Nat) : Option Launch := s.launches.find? fun x => x.id == l
def State.launchOf (s : State) (l : Nat) : Launch := (s.launch? l).getD default
def State.modLaunch (s : State) (l : Nat) (f : Launch → Launch) : State :=
  { s with launches := modWhere (fun x => x.id == l) f s.launches }

def State.ctx? (s : State) (pf num : Nat) : Option Context :=
  s.contexts.find? fun x => x.pf == pf && x.num == num
def State.ctx (s : State) (pf num : Nat) : Context := (s.ctx? pf num).getD default
def State.modCtx (s : State) (pf num : Nat) (f : Context → Context) : State :=
  { s with contexts := modWhere (fun x => x.pf == pf && x.num == num) f s.contexts }

def State.queue? (s : State) (pf q : Nat) : Option Queue := s.queues.find? fun x => x.pf == pf && x.num == q
def State.queue (s : State) (pf q : Nat) : Queue := (s.queue? pf q).getD default
def State.modQueue (s : State) (pf q : Nat) (f : Queue → Queue) : State :=
  { s with queues := modWhere (fun x => x.pf == pf && x.num == q) f s.queues }

/-! ## Cores and dies. A core that State does not list is idle. -/

def State.core (s : State) (c : Nat) : Core := ((s.cores.find? fun x => x.1 == c).map Prod.snd).getD Core.idle

def putCore (c : Nat) (k : Core) : List (Nat × Core) → List (Nat × Core)
  | [] => [(c, k)]
  | (d, x) :: l => if c < d then (c, k) :: (d, x) :: l else if c = d then (c, k) :: l else (d, x) :: putCore c k l

def State.modCore (s : State) (c : Nat) (f : Core → Core) : State := { s with cores := putCore c (f (s.core c)) s.cores }

def State.die (s : State) (d : Nat) : Die := s.dies.getD d default
def State.modDie (s : State) (d : Nat) (f : Die → Die) : State := { s with dies := modNth d f s.dies }

/-- R15: the die of a core, its quadrant in the package and its cluster. -/
def dieOfCore (c : Nat) : Nat := c / 48
def quadOfCore (c : Nat) : Nat := c / 12
def clusterOfCore (c : Nat) : Nat := c / 4

/-- Fragments of the teams on a core that wait for room in one of its structures issue again (R255, R289). -/
def State.wakeOn (s : State) (core : Nat) (w : Wait) : State :=
  { s with teams := s.teams.map fun tm =>
      if tm.core == core || tm.core + 1 == core then
        { tm with frags := tm.frags.map fun f => if f.st == .waiting w then { f with st := .running } else f }
      else tm }

/-- R487: fragments that wait for a free spill entry go on. -/
def State.wakeSpill (s : State) : State :=
  { s with teams := s.teams.map fun tm => { tm with frags := tm.frags.map fun fr =>
    if fr.st == (.waiting .spill) then { fr with st := .running } else fr } }

/-! ## Facts of a team -/

/-- R88: the warp width. -/
def Header.lanes (h : Header) : Nat := match h.width with
  | 0 => 16
  | 1 => 32
  | _ => 64

/-- R33: does a team of `t` threads take a core pair? -/
def isPair (t : Nat) : Bool := t > 2048

/-- R33: the core of a warp; R44 for a compatibility kernel. -/
def warpCore (h : Header) (t core w : Nat) : Nat :=
  if isPair t then core + (if h.compat then w / 2 % 2 else w % 2) else core

/-- R352: the issue slot of a warp on its core; R44 for the split pairs of a compatibility kernel. -/
def slotOf (h : Header) (t w : Nat) : Nat :=
  let u := if h.compat then w / 2 else w
  (if isPair t then u / 2 else u) % 4

/-- R352: the issue slot of a fragment: its warp's, or that which the Arbour has assigned its group to. -/
def Frag.slotIn (f : Frag) (h : Header) (t : Nat) : Nat := f.slot.getD (slotOf h t f.warp)

/-- R32: the number of warps of a team of `t` threads. -/
def warpCount (h : Header) (t : Nat) : Nat := (t + h.lanes - 1) / h.lanes

/-- R32: the warp of a thread; R61 for a child. -/
def Team.warpOf (tm : Team) (h : Header) (tid : Nat) : Nat :=
  let th := tm.thread tid
  if th.child then th.parent else tid / h.lanes

/-- R93: the granules of a team's scratchpad allocation. -/
def Header.granules (h : Header) (t : Nat) : Nat := h.scratch + (t * 16 * h.priv + 1023) / 1024

/-- R93: the allocation in bytes. -/
def Header.scratchSize (h : Header) (t : Nat) : Nat := 1024 * h.granules t

/-- R123: the dies of the device that a context belongs to. -/
def State.devDies (s : State) (pf : Nat) : List Nat := deviceDies s.mode pf

/-- The place of a physical address for the device of function `pf`. -/
def State.placeOf (s : State) (pf pa : Nat) : Option Nat := Machine.placeOf s.mode (s.devDies pf) pa

/-- Where the 16 KiB chunks of a page stand: no such chunk is split between dies (R96). -/
def State.chunks (s : State) (pf pa size : Nat) : List Nat :=
  (List.range (size / 16384)).filterMap fun i => s.placeOf pf (pa + 16384 * i)

end Sys2Proof.Machine
end

