-- ==== Sys2Proof/Machine/Translate.lean ====
section
/-! DEFINITION. Addresses: the four-level tables (R99 to R103), first touch and placement requests (R108 to
R110, R472, R473), and which dies a request reaches (R22, R378, R498). -/

namespace Sys2Proof.Machine

/-- Who asks for a translation: its context, its die, the fragment or command and its team, and whether a miss is
walked at once (R101) or parks the requester (R63). A fragment looks in the L1 TLB of its core as well. -/
structure Who where
  pf : Nat
  ctx : Nat
  die : Nat
  by_ : Nat
  team : Nat
  walks : Bool
  core : Option Nat := none
  deriving DecidableEq, Repr

/-- R101: the kinds of access that RD, W and X permit; an update is a read-modify-write, which needs RD and W. -/
inductive Access where
  | read | write | fetch | update
  deriving DecidableEq, Repr

def Access.writes : Access → Bool
  | .write | .update => true
  | _ => false

/-- What a translation ends in: a place with the page's ORD and its physical address and size; a cause; a wait; or an
uncorrectable word met on the way (R482). -/
inductive Xlate where
  | ok (s : State) (place ord base size : Nat)
  | fault (s : State) (cause : Nat)
  | walk
  | pool (s : State)
  | asked (s : State) (request : Nat)
  | remote
  | bad (place : Nat)

/-! ## The fabric -/

/-- R22, R491: the link between two adjacent dies. -/
def linkOf (a b : Nat) : Option Nat :=
  match min a b, max a b with
  | 0, 1 => some 0
  | 1, 3 => some 1
  | 2, 3 => some 2
  | 0, 2 => some 3
  | _, _ => none

def State.linkUp (s : State) (a b : Nat) : Bool :=
  match linkOf a b with
  | some k => !(s.links.getD k default).failed
  | none => false

/-- R22, R498: does a request from die `a` reach die `b`? A diagonal takes either path of two links that hold; a
pair that a failed link joined has no route. A die without power answers nothing (R503). -/
def State.reaches (s : State) (a b : Nat) : Bool :=
  if a = b then true
  else if (s.die b).off then false
  else if (linkOf a b).isSome then s.linkUp a b
  else
    let o := [0, 1, 2, 3].filter fun d => d != a && d != b
    o.any fun d => s.linkUp a d && s.linkUp d b

/-! ## Entries -/

def entryV (e : DWord) : Bool := e.getLsbD 0
def entryL (e : DWord) : Bool := e.getLsbD 1
def entryRD (e : DWord) : Bool := e.getLsbD 2
def entryW (e : DWord) : Bool := e.getLsbD 3
def entryU (e : DWord) : Bool := e.getLsbD 4
def entryA (e : DWord) : Bool := e.getLsbD 5
def entryD (e : DWord) : Bool := e.getLsbD 6
def entryM (e : DWord) : Bool := e.getLsbD 7
def entryX (e : DWord) : Bool := e.getLsbD 61
def entryOrd (e : DWord) : Nat := (e >>> 62).toNat
def entryAddr (e : DWord) : Nat := 2 ^ 8 * (e.toNat / 2 ^ 8 % 2 ^ 44)

/-- R99: the bits of a leaf page at a level, and the index of an address there. -/
def pageBits (lvl : Nat) : Nat :=
  match lvl with
  | 1 => 35
  | 2 => 21
  | _ => 16

def levelIndex (va lvl : Nat) : Nat :=
  match lvl with
  | 0 => va / 2 ^ 48 % 2 ^ 8
  | 1 => va / 2 ^ 35 % 2 ^ 13
  | 2 => va / 2 ^ 21 % 2 ^ 14
  | _ => va / 2 ^ 16 % 2 ^ 5

/-- R100: the bits of ADDR that are 0: below the page size in a leaf, below the next table's size otherwise. -/
def alignBits (lvl : Nat) (leaf : Bool) : Nat :=
  if leaf then pageBits lvl
  else match lvl with
    | 0 => 16
    | 1 => 17
    | _ => 8

/-- R100, R101: does an entry break its layout? -/
def badEntry (e : DWord) (lvl : Nat) : Bool :=
  entryOrd e == 3 || e.toNat / 2 ^ 52 % 2 ^ 9 != 0
    || (entryL e && lvl == 0) || (!entryL e && lvl == 3)
    || (entryU e && (!entryL e || lvl < 2))
    || entryAddr e % 2 ^ alignBits lvl (entryL e) != 0

/-- R101: a table stands in device DRAM of the context's device. -/
def State.tablePlace (s : State) (pf pa : Nat) : Option Nat :=
  match s.placeOf pf pa with
  | some p => if isDram p then some p else none
  | none => none

/-- R482: the 64-byte DRAM word of a place is bad. -/
def State.isBad (s : State) (place : Nat) : Bool := isDram place && s.bad.contains (place / 64)

/-- R452, R464: the place of the first byte of a range of host memory that answers with an error. -/
def State.hostErr (s : State) (place n : Nat) : Option Nat :=
  match s.hostBad.filter fun a => place ≤ placeHost a && placeHost a < place + n with
  | [] => none
  | a :: l => some (placeHost (l.foldl min a))

/-! ## What a write of device DRAM does besides -/

/-- Does an address lie in one of the ranges? -/
def inRanges (l : List (Nat × Nat)) (a : Nat) : Bool := l.any fun r => r.1 ≤ a && a < r.1 + r.2

/-- Signals an abort to a transactional warp. -/
def Warp.signal (wp : Warp) (code : Nat) : Warp :=
  match wp.mode with
  | .transactional t =>
    { wp with mode := .transactional { t with aborts := t.aborts ++ [{ code, cause := 0, user := 0 }] } }
  | _ => wp

/-- R148, R477: an access to `n` bytes that is not transactional aborts the transactions that hold one of their lines against it. -/
def State.conflictRange (s : State) (place n : Nat) (write : Bool) : State :=
  let hit (l : List Nat) : Bool := l.any fun x => place / 128 ≤ x && x ≤ (place + n - 1) / 128
  { s with teams := s.teams.map fun tm => { tm with warps := tm.warps.map fun wp =>
      match wp.mode with
      | .transactional t => if hit t.writes || (write && hit t.reads) then wp.signal 0x02 else wp
      | _ => wp } }

def State.conflict (s : State) (place : Nat) (write : Bool) : State := s.conflictRange place 1 write

/-- R354, R447: are `n` bytes at a place ones that a replay does not track? -/
def Replay.exempts (r : Replay) (place n : Nat) : Bool := r.exempt.any fun x => x.1 ≤ place && place + n ≤ x.1 + x.2

/-- R354, R357, R447: a replay captures a page before `n` bytes at a place of it are written: its content goes into the capture area.
The answer is false where the area has no room for it: the write may not be performed, and the pass overflows. The pages of the area
fill it from its start (log entry 37). -/
def State.capturePage (s : State) (l : Launch) (r : Replay) (pa size place n : Nat) : State × Bool :=
  let cs := s.chunks l.pf pa size
  let used := (r.pages.map fun p => p.2.1 / 16384).sum
  if (r.pages.any fun p => p.1 ≤ pa && pa < p.1 + p.2.1) || r.exempts place n then (s, true)
  else if r.area.length < used + cs.length then
    (s.modLaunch l.id fun x => { x with replay := some { r with overflow := true } }, false)
  else
    (({ s with mem := (cs.zip (r.area.drop used)).foldl (fun (m : Memory) (x : Nat × Nat) => m.copy x.1 x.2 16384) s.mem }).modLaunch l.id fun x =>
      { x with replay := some { r with pages := (pa, size, used) :: r.pages } }, true)

/-- Before the first write of a replay pass to a page of its context, the page is captured; may the write be performed? -/
def State.capture (s : State) (pf ctx pa size place n : Nat) : State × Bool :=
  s.launches.foldl (fun x l => match l.replay with
    | some r =>
      if l.pf == pf && (s.queue l.pf l.q).ctx == ctx && l.started then
        let y := x.1.capturePage l r pa size place n
        (y.1, x.2 && y.2)
      else x
    | none => x) (s, true)

/-- R355, R447: has a replay's pass met a write that the capture area has no room for? It performs no write any more. -/
def Launch.overflowed (l : Launch) : Bool := match l.replay with
  | some r => r.overflow
  | none => false

def State.overflowed (s : State) (l : Nat) : Bool := (s.launchOf l).overflowed

/-- R107: a line becomes dirty in its home slice, which holds 12,288 lines and writes one back to make room. -/
def dirtyLine (n line : Nat) (l : List Nat) : List Nat :=
  if l.contains line then l
  else
    let own := l.filter fun x => l2Slice (128 * x) == l2Slice (128 * line)
    let gone := own.filter fun x => !(makeRoom 12288 n own).contains x
    insertNat line (l.filter fun x => !gone.contains x)

/-- R107: the lines written become dirty in the home die's L2; R482: a word written whole is good again. -/
def State.touch (s : State) (place n : Nat) : State :=
  if isDram place then
    let s := s.modDie (homeDie place) fun d =>
      { d with dirty := (List.range ((place % 128 + n + 127) / 128)).foldl (fun l i => dirtyLine (s.free + i) (place / 128 + i) l) d.dirty }
    if s.bad.isEmpty then s
    else { s with bad := s.bad.filter fun w => !(place ≤ w * 64 && w * 64 + 64 ≤ place + n) }
  else s

/-- Writes bytes at a place. -/
def State.poke (s : State) (place : Nat) (bs : List Byte) : State :=
  { s with mem := s.mem.write place bs }.touch place bs.length

/-- The entry at a physical address of a table. -/
def State.entryAt (s : State) (pf pa : Nat) : DWord := BitVec.ofNat 64 (s.mem.nat ((s.tablePlace pf pa).getD 0) 8)

/-- R148: a write of the device's own meets the transactions that hold its lines. -/
def State.pokeOver (s : State) (place : Nat) (bs : List Byte) : State :=
  (if isDram place then s.conflictRange place bs.length true else s).poke place bs

/-- R357: a replay captures the 64 KiB that a page-table entry stands in before the entry changes. -/
def State.captureEntry (s : State) (w : Who) (pa : Nat) : State × Bool :=
  s.capture w.pf w.ctx (65536 * (pa / 65536)) 65536 ((s.tablePlace w.pf pa).getD 0) 8

/-- Writes the page-table entry at a physical address (R102, R108), but for one that a replay has no room to capture (R447). -/
def State.pokeEntry (s : State) (w : Who) (pa : Nat) (e : DWord) : State :=
  let x := s.captureEntry w pa
  if x.2 then x.1.pokeOver ((s.tablePlace w.pf pa).getD 0) (leBytes 8 e.toNat) else x.1

/-! ## First touch -/

/-- R108, R131: no L1 keeps a sector of a range of memory that changes its page (log entry 7). -/
def State.dropLines (s : State) (base size : Nat) : State :=
  { s with cores := s.cores.map fun c =>
      (c.1, { c.2 with l1 := c.2.l1.filter fun x => 32 * x.1 + 32 ≤ base || base + size ≤ 32 * x.1 }) }

/-- R108: takes a frame of a die's pool, filled with zeros. -/
def State.takeFrame (s : State) (die lvl : Nat) : Option (State × Nat) :=
  let d := s.die die
  match (if lvl = 2 then d.pool2m else d.pool64) with
  | [] => none
  | fr :: rest =>
    let s := s.modDie die fun d => if lvl = 2 then { d with pool2m := rest } else { d with pool64 := rest }
    some (({ s with mem := s.mem.clear fr (2 ^ pageBits lvl) }).dropLines fr (2 ^ pageBits lvl), fr)

/-- R357: a frame bound in a replay pass goes back to its pool at the restore. -/
def State.noteBound (s : State) (w : Who) (lvl fr : Nat) : State :=
  { s with launches := s.launches.map fun l =>
      if l.pf == w.pf && (s.queue l.pf l.q).ctx == w.ctx then
        match l.replay with
        | some r => { l with replay := some { r with bound := (homeDie fr, lvl, fr) :: r.bound } }
        | none => l
      else l }

/-- The entry with a new frame, U and M clear, A set, and D as asked. -/
def boundEntry (e : DWord) (fr : Nat) (d : Bool) : DWord :=
  let keep := e &&& ~~~(0x000FFFFFFFFFFF90#64)
  keep ||| BitVec.ofNat 64 (fr / 256 * 256) ||| 0x20#64 ||| (if d then 0x40#64 else 0#64)

/-- A member of a list that the device chooses, and 0 of an empty list. -/
def pickOf (n : Nat) (l : List Nat) : Nat := l.getD (Config.pick n % l.length) 0

/-- R473: the request numbers that no pending request of a die's walker holds. -/
def State.freeRequests (s : State) (die : Nat) : List Nat :=
  (List.range 512).filter fun i => !(s.contexts.any fun c => c.requests.any fun r => r.die == die && r.num == i)

/-! ## The walk -/

/-- What a descent through the tables finds: the leaf's physical address, its entry and level, or why it stops. -/
inductive Leaf where
  | found (at_ : Nat) (e : DWord) (lvl : Nat)
  | fault (cause : Nat)
  | remote
  | bad (place : Nat)
  deriving DecidableEq, Repr

/-- R101: the descent from a table at physical address `pa`, with `fuel` levels left. -/
def State.descend (s : State) (w : Who) (va : Nat) : (fuel lvl pa : Nat) → Leaf
  | 0, _, _ => .fault 0x41
  | fuel + 1, lvl, pa =>
    match s.tablePlace w.pf (pa + 8 * levelIndex va lvl) with
    | none => .fault 0x41
    | some place =>
      if !s.reaches w.die (homeDie place) then .remote
      else if s.isBad place then .bad place
      else
        let e := BitVec.ofNat 64 (s.mem.nat place 8)
        if !entryV e then .fault 0x40
        else if badEntry e lvl then .fault 0x41
        else if entryL e then .found (pa + 8 * levelIndex va lvl) e lvl
        else s.descend w va fuel (lvl + 1) (entryAddr e)

def State.leaf (s : State) (w : Who) (va : Nat) : Leaf := s.descend w va 4 0 (s.ctx w.pf w.ctx).root

def Translation.covers (x : Translation) (w : Who) (va : Nat) : Bool :=
  x.ctx == w.ctx && x.pf == w.pf && va / 2 ^ pageBits x.level == x.page

/-- R103: the entry that the L1 TLB of the requester's core, or else the L2 TLB of its die, holds for an address. -/
def State.tlbFind (s : State) (w : Who) (va : Nat) : Option Translation :=
  ((w.core.map fun c => (s.core c).tlb).getD [] ++ (s.die w.die).tlb).find? fun x => x.covers w va

/-- A TLB of `cap` entries takes an entry. -/
def tlbPut (cap n : Nat) (x : Translation) (l : List Translation) : List Translation :=
  x :: makeRoom cap n (l.filter fun y => !(y.ctx == x.ctx && y.pf == x.pf && y.level == x.level && y.page == x.page))

/-- R103: the TLBs that the requester uses take an entry: 64 in a core's, 8,192 in a die's. -/
def State.tlbFill (s : State) (w : Who) (va at_ : Nat) (e : DWord) (lvl : Nat) : State :=
  let x : Translation := { ctx := w.ctx, pf := w.pf, level := lvl, page := va / 2 ^ pageBits lvl, at_, entry := e }
  let s := s.modDie w.die fun d => { d with tlb := tlbPut 8192 s.free x d.tlb }
  match w.core with
  | some c => s.modCore c fun k => { k with tlb := tlbPut 64 s.free x k.tlb }
  | none => s

/-- Translations leave every TLB. -/
def State.dropTlbs (s : State) (p : Translation → Bool) : State :=
  { s with
    dies := s.dies.map fun d => { d with tlb := d.tlb.filter fun x => !p x }
    cores := s.cores.map fun c => (c.1, { c.2 with tlb := c.2.tlb.filter fun x => !p x }) }

/-- R101, R102, R96: permission, the A and D bits, and the frame of a leaf that is bound. -/
def State.useLeaf (s : State) (w : Who) (va : Nat) (k : Access) (at_ : Nat) (e : DWord) (lvl : Nat) : Xlate :=
  let may := match k with
    | .read => entryRD e
    | .write => entryW e
    | .fetch => entryX e
    | .update => entryRD e && entryW e
  if !may then .fault s 0x42
  else
    let pa := entryAddr e / 2 ^ pageBits lvl * 2 ^ pageBits lvl
    match s.placeOf w.pf pa with
    | none => .fault s 0x43
    | some _ =>
      match s.placeOf w.pf (pa + va % 2 ^ pageBits lvl) with
      | none => .fault s 0x43
      | some place =>
        let wants := k.writes
        let e' := e ||| 0x20#64 ||| (if wants then 0x40#64 else 0#64)
        let now := s.entryAt w.pf at_
        let now' := now ||| 0x20#64 ||| (if wants then 0x40#64 else 0#64)
        let s := if e' == e || now' == now then s else s.pokeEntry w at_ now'
        let s := s.tlbFill w va at_ e' lvl
        if isDram place && !s.reaches w.die (homeDie place) then .remote
        else .ok s place (entryOrd e) pa (2 ^ pageBits lvl)

/-- R110, R473: an unbacked page in the host-assisted mode: the answer of a request that is already made, or a new
request, whose event `send` writes. A replay captures the entry's part of the table before the host is asked to write it, and the
request is not sent where the capture area has no room for that (R357, R447). -/
def State.askHost (s : State) (w : Who) (va at_ : Nat) (send : State → Nat → State) : Xlate :=
  let c := s.ctx w.pf w.ctx
  match c.requests.find? fun r => r.by_ == w.by_ && r.va == va / 65536 with
  | some r =>
    match r.answer with
    | none => .asked s r.num
    | some _ =>
      .fault (s.modCtx w.pf w.ctx fun c => { c with requests := c.requests.filter fun x => x != r }) 0x48
  | none =>
    match s.freeRequests w.die, s.captureEntry w at_ with
    | [], _ => .walk
    | _, (s, false) => .asked s 0
    | l, (s, true) =>
      let n := pickOf s.free l
      let s := { s with free := s.free + 1 }
      let s := s.modCtx w.pf w.ctx fun c =>
        { c with requests := c.requests ++ [{ die := w.die, num := n, va := va / 65536, by_ := w.by_, team := w.team, answer := none }] }
      .asked (send s n) n

/-- R101, R108, R110: the walk for one access. `send` writes the event of a placement request. -/
def State.walkFor (s : State) (w : Who) (va : Nat) (k : Access) (send : State → Nat → State) : Xlate :=
  let c := s.ctx w.pf w.ctx
  let answered := c.requests.find? fun r => r.by_ == w.by_ && r.va == va / 65536 && r.answer.isSome
  let drop (s : State) := match answered with
    | some r => s.modCtx w.pf w.ctx fun c => { c with requests := c.requests.filter fun x => x != r }
    | none => s
  match answered.bind (·.answer) with
  | some false => .fault (drop s) 0x48
  | _ =>
    match s.leaf w va with
    | .fault cause => if answered.isSome && cause == 0x40 then .fault (drop s) 0x48 else .fault (drop s) cause
    | .remote => .remote
    | .bad p => .bad p
    | .found at_ e lvl =>
      if entryM e then .walk
      else if entryU e then
        if answered.isSome then .fault (drop s) 0x48
        else if c.hostPlace then s.askHost w va at_ send
        else match s.takeFrame w.die lvl with
          | none => .pool s
          | some (s, fr) =>
            let e' := boundEntry e fr k.writes
            let s := (s.noteBound w lvl fr).pokeEntry w at_ e'
            s.useLeaf w va k at_ e' lvl
      else (drop s).useLeaf w va k at_ e lvl

/-- R473: has the host answered a request of the requester for the page of an address? -/
def State.answered (s : State) (w : Who) (va : Nat) : Bool :=
  (s.ctx w.pf w.ctx).requests.any fun r => r.by_ == w.by_ && r.va == va / 65536 && r.answer.isSome

/-- R103, R63: a translation through the TLBs of the requester's die. An answer of the host is met by a walk (R473). -/
def State.translate (s : State) (w : Who) (va : Nat) (k : Access) (send : State → Nat → State) : Xlate :=
  match s.tlbFind w va with
  | some x => if s.answered w va then s.walkFor w va k send else s.useLeaf w va k x.at_ x.entry x.level
  | none => if w.walks then s.walkFor w va k send else .walk

/-! ## The device's own requests -/

/-- Why a request of the device's own gives no place: a cause, or a wait after which it is made again. -/
inductive Denied where
  | fault (s : State) (cause : Nat)
  | wait (s : State)

/-- Is a wait that of a request for a page, and those of other requests. -/
def Waiting.isOf (x : Waiting) (own : Asker) (pf ctx die va : Nat) : Bool :=
  x.owner == own && x.pf == pf && x.ctx == ctx && x.die == die && x.va == va

def State.otherWaits (s : State) (own : Asker) (pf ctx die va : Nat) : List Waiting := s.waits.filter fun x => !x.isOf own pf ctx die va

/-- The waits of what ends go with it. -/
def State.dropWaits (s : State) (p : Waiting → Bool) : State := { s with waits := s.waits.filter fun x => !p x }

/-- R472, R378: a request of the device's own waits for a frame, or for another die, as an access of a core does; past the bound
it fails with `cause`. -/
def State.waitOwn (s : State) (own : Asker) (pf ctx die va : Nat) (remote : Bool) (bound cause : Nat) : Denied :=
  let now := (s.die die).time
  let rest := s.otherWaits own pf ctx die va
  match s.waits.find? fun x => x.isOf own pf ctx die va && x.remote == remote with
  | none => .wait { s with waits := { owner := own, pf, ctx, die, va, remote, deadline := now + bound } :: rest }
  | some x => if now < x.deadline then .wait s else .fault { s with waits := rest } cause

/-- A translation by the device itself for `own`. `send` writes the event of a placement request. -/
def State.reachWith (s : State) (own : Asker) (pf ctx die va : Nat) (k : Access) (send : State → Nat → State) : Except Denied (State × Nat) :=
  if va / 2 ^ 48 ≥ 255 then .error (.fault s 0x30)
  else match s.walkFor { pf, ctx, die, by_ := 0, team := 0, walks := true } va k send with
    | .ok s p _ _ _ =>
      let s := if s.waits.isEmpty then s else { s with waits := s.otherWaits own pf ctx die va }
      if !k.writes && s.isBad p then .error (.fault s 0x37) else .ok (s, p)
    | .fault s c => .error (.fault s c)
    | .walk => .error (.wait s)
    | .pool s => .error (s.waitOwn own pf ctx die va false s.limits.poolWait 0x47)
    | .asked s _ => .error (.wait s)
    | .remote => .error (s.waitOwn own pf ctx die va true s.limits.crossDie 0x90)
    | .bad _ => .error (.fault s 0x37)

end Sys2Proof.Machine
end

