-- ==== Sys2Proof/Machine/Events.lean ====
section
/-! DEFINITION. Event records (R343, R362, R375, R490), the head word (R339) and the end of queue commands. -/

namespace Sys2Proof.Machine

/-- A memory write that the device makes for a context, or why it does not (R342, R490, R493); no replay captures
it (R447). Host memory is out of reach while the host link is down (R499). -/
def State.writeWith (s : State) (own : Asker) (pf ctx die va : Nat) (bs : List Byte) (send : State → Nat → State) : Except Denied State :=
  match s.reachWith own pf ctx die va .write send with
  | .error x => .error x
  | .ok (s, p) =>
    if isHost p && !s.hostUp then .error (.fault s 0x38) else .ok (s.pokeOver p bs)

/-- R343: the 16 bytes of a record. -/
def recordBytes (src code tag num seq status : Nat) (detail : Nat) : List Byte :=
  leBytes 4 (2 ^ 24 * src + 2 ^ 16 * code + tag) ++ leBytes 4 (2 ^ 16 * num + 2 ^ 8 * (seq % 256) + status)
    ++ leBytes 8 detail

/-- What the write of a record comes to: it is written, dropped, or waits for the ring's translation. -/
inductive Ringed where
  | written (s : State) (r : Ring)
  | dropped (s : State)
  | waits (s : State)

/-- Where the next record of a ring goes. -/
def Ring.at_ (r : Ring) : Nat := r.va + 16 * (r.seq % 2 ^ r.log)

/-- Writes a record at the ring's next entry; without a translation it is dropped and EVDROP is set (R490). While the host
link is down no record is written (R499). -/
def State.ringWrite (s : State) (q : Option Nat) (pf ctx die : Nat) (r : Ring) (bs : List Byte) (send : State → Nat → State) : Ringed :=
  if !s.hostUp then .dropped s
  else match s.writeWith (.record q) pf ctx die r.at_ bs send with
  | .ok s => .written s { r with seq := r.seq + 1 }
  | .error (.fault s _) => .dropped { s with evdrop := true }
  | .error (.wait s) => .waits s

/-- Does a waiting write go to the ring of a context? -/
def Outgoing.toCtx (pf ctx : Nat) : Outgoing → Bool
  | .ctx p c _ _ _ _ _ _ => p == pf && c == ctx
  | _ => false

def Outgoing.toQueue (pf q : Nat) : Outgoing → Bool
  | .queue p n _ _ _ => p == pf && n == q
  | _ => false

/-- R110, R473: the page of a context's own ring has no frame and the host places pages. It cannot be asked for with a record of that
ring, so the record is dropped (DEDUCED, log entry 99). -/
def State.ringUnplaced (s : State) (pf ctx die : Nat) (c : Context) : Bool :=
  c.hostPlace && match s.leaf { pf, ctx, die, by_ := 0, team := 0, walks := true } c.ring.at_ with
    | .found _ e _ => entryU e
    | _ => false

/-- R490, R375: an event of die `src` number `num` in the ring of one context, and its MSI-X vector 0. Events of a ring keep their
order: one that comes while another waits goes behind it (R362). A die without power writes none. -/
def State.ctxEvent (s : State) (pf ctx die src code num status detail : Nat) : State :=
  match s.ctx? pf ctx with
  | none => s
  | some c =>
    if (s.die die).off then s
    else if s.outbox.any (·.toCtx pf ctx) then { s with outbox := s.outbox ++ [.ctx pf ctx die src code num status detail] }
    else if s.hostUp && s.ringUnplaced pf ctx die c then { s with evdrop := true }
    else match s.ringWrite none pf ctx die c.ring (recordBytes src code 0 num c.ring.seq status detail) (fun s _ => s) with
      | .written s r => { s with msix := s.msix ++ [(pf, 0)] }.modCtx pf ctx fun c => { c with ring := r }
      | .dropped s => s
      | .waits s => { s with outbox := s.outbox ++ [.ctx pf ctx die src code num status detail] }

/-- R473: the event of a placement request. -/
def placementEvent (pf ctx die va : Nat) (s : State) (n : Nat) : State :=
  s.ctxEvent pf ctx die 2 0x11 die 0 (65536 * (va / 65536 % 2 ^ 40) + n)

/-- A translation by the device itself (R108, R110, R378). -/
def State.reachVa (s : State) (own : Asker) (pf ctx die va : Nat) (k : Access) : Except Denied (State × Nat) :=
  s.reachWith own pf ctx die va k (placementEvent pf ctx die va)

def State.deviceWrite (s : State) (own : Asker) (pf ctx die va : Nat) (bs : List Byte) : Except Denied State :=
  s.writeWith own pf ctx die va bs (placementEvent pf ctx die va)

/-- R490: the die that writes an event about `die` for the device of `pf`. -/
def State.writerFor (s : State) (pf die : Nat) : Nat :=
  if (s.die die).off then ((s.devDies pf).find? fun d => !(s.die d).off).getD die else die

/-- R490: a system event about a die reaches every live context whose device holds one of `dies`. -/
def State.systemEvent (s : State) (dies : List Nat) (die code status detail : Nat) : State :=
  s.contexts.foldl (fun s c =>
    if (s.devDies c.pf).any dies.contains then
      let d := s.writerFor c.pf die
      s.ctxEvent c.pf c.num d 2 code d status detail
    else s) s

/-- R491: the DETAIL of a system event. -/
def sysDetail (subj sensor val16 val32 : Nat) : Nat :=
  2 ^ 56 * (subj % 256) + 2 ^ 48 * (sensor % 256) + 2 ^ 32 * (val16 % 2 ^ 16) + val32 % 2 ^ 32

/-- R343: an event of a host queue. -/
def State.queueEvent (s : State) (pf q tag status detail : Nat) : State :=
  match s.queue? pf q with
  | none => s
  | some x =>
    if s.outbox.any (·.toQueue pf q) then { s with outbox := s.outbox ++ [.queue pf q tag status detail] }
    else match s.ringWrite (some q) pf x.ctx x.die x.ring (recordBytes 1 0x01 tag q x.ring.seq status detail)
        (placementEvent pf x.ctx x.die x.ring.at_) with
      | .written s r => { s with msix := s.msix ++ [(pf, x.vector)] }.modQueue pf q fun x => { x with ring := r }
      | .dropped s => s
      | .waits s => { s with outbox := s.outbox ++ [.queue pf q tag status detail] }

/-- R493: the error that `n` bytes at a place answer with: an uncorrectable word, or the host's. -/
def State.answersError (s : State) (p n : Nat) : Option Nat :=
  if s.isBad p then some 0x37
  else if isHost p && (s.hostErr p n).isSome then some 0x38
  else none

/-- A place whose bytes answer with an error is a fault. -/
def unlessError (n : Nat) (x : State × Nat) : Except Denied (State × Nat) := match x.1.answersError x.2 n with
  | some c => .error (.fault x.1 c)
  | none => .ok x

/-- R339, R371, R493: the words of a slot, or why they are not read. -/
def State.slotWords (s : State) (x : Queue) (slot : Nat) : Except Denied (State × List Word) :=
  ((s.reachVa (.queue x.num) x.pf x.ctx x.die (x.base + 64 * slot) .read).bind (unlessError 64)).map fun p =>
    (p.1, (List.range 16).map fun i => BitVec.ofNat 32 (p.1.mem.nat (p.2 + 4 * i) 4))

/-- R339: the head passes over completed commands. -/
def advanceHead (head n : Nat) (runs : List QueueRun) : (fuel : Nat) → Nat × List QueueRun
  | 0 => (head, runs)
  | fuel + 1 =>
    match runs with
    | r :: rest => if r.slot = head && r.work = .ended then advanceHead ((head + 1) % n) n rest fuel else (head, runs)
    | [] => (head, runs)

/-- R493: a slot read or (`head`) a head-word write faulted. The queue is suspended, and the next turn stops the teams of its
launches as PREEMPT does. -/
def State.ringFault (s : State) (pf q : Nat) (head : Bool) (cause : Nat) : State :=
  let s := { s with agenda := .stopQueue pf q :: s.agenda }
  (s.modQueue pf q fun x => { x with suspended := true, headDue := head }).queueEvent pf q 0 0x08 cause

/-- The head word of a queue waits behind every other write of the outbox. -/
def State.holdHead (s : State) (pf q : Nat) : State :=
  { s with outbox := s.outbox.filter (· != .head pf q) ++ [.head pf q] }

/-- R339, R493: the head word is written after a completion and its record; a fault suspends the queue with RING FAULT. -/
def State.writeHead (s : State) (pf q : Nat) : State :=
  match s.queue? pf q with
  | none => s
  | some x =>
    if s.outbox.any (fun y => y.toQueue pf q || y == .head pf q) then s.holdHead pf q
    else match (s.reachVa (.head q) pf x.ctx x.die x.headVa .write).bind (unlessError 8) with
      | .ok (s, p) =>
        if isHost p && !s.hostUp then s.ringFault pf q true 0x38 else s.pokeOver p (leBytes 8 (x.head + 2 ^ 32 * (x.completed % 2 ^ 32)))
      | .error (.fault s c) => s.ringFault pf q true c
      | .error (.wait s) => s.holdHead pf q

/-- A waiting write is made again. -/
def State.sendAgain (s : State) : Outgoing → State
  | .ctx pf ctx die src code num status detail => s.ctxEvent pf ctx die src code num status detail
  | .queue pf q tag status detail => s.queueEvent pf q tag status detail
  | .head pf q => s.writeHead pf q

def State.resend (s : State) : State := s.outbox.foldl State.sendAgain { s with outbox := [] }

/-- R339, R343, R362: a started command completes: its record, the head and the head word. -/
def State.endCommand (s : State) (pf q slot status detail : Nat) : State :=
  match s.queue? pf q with
  | none => s
  | some x =>
    match x.runs.find? fun r => r.slot == slot && r.work != .ended with
    | none => s
    | some r =>
      let s := if status != 0 || r.word0.getLsbD 22 then s.queueEvent pf q (r.word0.toNat % 2 ^ 16) status detail else s
      let s := s.modQueue pf q fun x =>
        let runs := modWhere (fun y => y.slot == slot) (fun y => { y with work := .ended }) x.runs
        let (head, runs) := advanceHead x.head (2 ^ x.log) runs runs.length
        { x with runs, head, completed := x.completed + 1 }
      (s.dropWaits fun y => y.pf == pf && y.owner == .queue q).writeHead pf q

end Sys2Proof.Machine
end

