-- ==== Sys2Proof/Machine/Complete.lean ====
section
/-! DEFINITION. The ends of teams, grids, contexts and queues: R66, R119, R217, R370, R371, R516. -/

namespace Sys2Proof.Machine

/-- The launches, and the teams, of a context. -/
def State.launchesOf (s : State) (pf ctx : Nat) : List Launch :=
  s.launches.filter fun l => l.pf == pf && (s.queue l.pf l.q).ctx == ctx

def State.teamsOfLaunch (s : State) (l : Nat) : List Team := s.teams.filter fun t => t.launch == l

/-- R119: a team that ends leaves every contributor set; an accumulator without contributors is discarded. -/
def State.leaveExacts (s : State) (t : Nat) : State :=
  let left := (s.exacts.map fun x => { x with by_ := x.by_.filter (· != t) }).filter fun x => !x.by_.isEmpty
  let s' : State := { s with exacts := left }
  if left.length = s.exacts.length then s' else s'.wakeSpill

/-- Is a wait that of an arrival of an engine of a team? -/
def Waiting.arrives (x : Waiting) (t : Nat) : Bool := match x.owner with
  | .arrival u _ => u == t
  | _ => false

/-- Removes a team with what its cores hold of it. Fragments that wait for the room that this makes issue again. -/
def State.dropTeam (s : State) (t : Nat) : State :=
  let core := (s.team t).core
  let own := t :: (s.team t).frags.map (·.id)
  let s := s.dropWaits fun x => x.arrives t || own.any fun i => x.owner == .unit i
  let s : State := { s with
    teams := s.teams.filter fun x => x.id != t
    far := s.far.filter fun x => x.team != t
    cores := s.cores.map fun c => (c.1, { c.2 with
      bins := c.2.bins.map fun b => match b with
        | some b => if b.team == t then none else some b
        | none => none
      spawn := c.2.spawn.filter fun x => x.1 != t
      collector := c.2.collector.filter fun x => x.1 != t
      matrix := c.2.matrix.filter fun x => x.team != t }) }
  ((s.wakeOn core .matrix).wakeOn core .collector).wakeOn (core + 1) .collector

/-- R217: the die-scope and device-scope phasers of a launch are freed. -/
def State.freePhasers (s : State) (handles : List Nat) : State :=
  handles.foldl (fun s h => s.modDie (h / 2 ^ 10 % 8) fun d =>
    { d with phasers := d.phasers.filter fun x => x.1 != h % 2 ^ 10 }) s

/-- R358: every counter of a device selects event 0x00 and reads 0. -/
def State.clearCounters (s : State) (pf : Nat) : State :=
  let dies := s.devDies pf
  { s with cores := s.cores.map fun c =>
      if dies.contains (dieOfCore c.1) then (c.1, { c.2 with sel := [0, 0, 0, 0], pmc := [0, 0, 0, 0] }) else c }

/-- R359: path terms of a replayed grid's threads that end join its signature. -/
def State.addTerms (s : State) (l : Nat) (ths : List Thread) : State :=
  s.modLaunch l fun x => { x with replay := x.replay.map fun r => { r with sum := ths.foldl (fun n th => n + th.term) r.sum } }

/-- The launch's record goes, with the phasers of its grid and, after a replay, the counters (R358). -/
def State.dropLaunch (s : State) (l : Nat) : State :=
  let x := s.launchOf l
  let s := (s.freePhasers x.phasers).dropWaits fun y => y.owner == .unit l
  let s := if x.replay.isSome then s.clearCounters x.pf else s
  { s with
    cores := s.cores.map fun c => (c.1, { c.2 with grids := c.2.grids.filter (· != l) })
    launches := s.launches.filter fun y => y.id != l }

/-- R342: a launch completes. -/
def State.endLaunch (s : State) (l status detail : Nat) : State :=
  let x := s.launchOf l
  (s.dropLaunch l).endCommand x.pf x.q x.slot status detail

/-- R66: the grid has completed when no team of it is left to place or to run. A replay's pass ends by its own
happening (R354). -/
def State.gridCheck (s : State) (l : Nat) : State :=
  match s.launch? l with
  | none => s
  | some x =>
    if x.replay.isNone && !x.halting && x.nextTeam ≥ x.nteam && (s.teamsOfLaunch l).isEmpty
      && !(s.saved.any fun i => i.launch.id == l && i.teams.length != 0) then
      s.endLaunch l 0 0
    else s

/-- R66: a team whose threads have all exited and whose commands are complete. A command whose result words are
unpopped counts as complete. -/
def Team.finished (tm : Team) : Bool :=
  tm.st == .resident && tm.threads.all (·.exited) && tm.cmds.all (fun c => c.st == .complete)

/-- R66, R119: completes a team if it is finished and no arrival of its engines is still under way (R301). -/
def State.teamCheck (s : State) (t : Nat) : State :=
  match s.team? t with
  | none => s
  | some tm => if tm.finished && !s.waits.any (·.arrives t) then (((s.addTerms tm.launch tm.threads).dropTeam t).leaveExacts t).gridCheck tm.launch else s

/-- R516: the commands that are announced and not started complete one after the other with a status. -/
def State.endAnnounced (s : State) (pf q status detail : Nat) : (fuel : Nat) → State
  | 0 => s
  | fuel + 1 =>
    match s.queue? pf q with
    | none => s
    | some x =>
      if x.next = x.tail then s
      else
        let ws := match s.slotWords x x.next with
          | .ok (_, ws) => ws
          | .error _ => []
        let run : QueueRun := { slot := x.next, word0 := ws.getD 0 0, words := ws, work := .wait none 0 }
        let s := s.modQueue pf q fun y => { y with runs := y.runs ++ [run], next := (x.next + 1) % 2 ^ x.log }
        (s.endCommand pf q x.next status detail).endAnnounced pf q status detail fuel

/-- R371, R516: every started and every announced command of a queue completes with TERMINATED. -/
def State.endQueue (s : State) (pf q detail : Nat) : State :=
  match s.queue? pf q with
  | none => s
  | some x =>
    let s := x.runs.foldl (fun s r => if r.work == .ended then s else s.endCommand pf q r.slot 0x06 detail) s
    s.endAnnounced pf q 0x06 detail (2 ^ x.log)

/-- R360: the replay record. -/
def Replay.recordOf (r : Replay) (status : Nat) : List Byte :=
  let differ := match r.sigs with
    | x :: l => l.any fun y => y.1 != x.1
    | [] => false
  leBytes 4 (status * 2 ^ 8 + r.sigs.length * 2 ^ 4 + bit r.overflow * 2 + bit differ) ++ leBytes 12 0
    ++ r.sigs.flatMap fun x => leBytes 8 x.1.toNat ++ ((List.range 4).flatMap fun i => leBytes 8 (x.2.1.getD i 0)) ++ leBytes 8 x.2.2

/-- R360: a replay's record is written, for the request `own`; a part of it stands in one chunk of a spread page. -/
def State.writeParts (s : State) (own : Asker) (pf ctx die : Nat) : (fuel va : Nat) → List Byte → Except Denied State
  | 0, _, _ => .ok s
  | fuel + 1, va, bs =>
    if bs.isEmpty then .ok s
    else
      let n := 16384 - va % 16384
      match s.deviceWrite own pf ctx die va (bs.take n) with
      | .error x => .error x
      | .ok s => s.writeParts own pf ctx die fuel (va + n) (bs.drop n)

def State.writeRecord (s : State) (ln : Launch) (r : Replay) (status : Nat) : Except Denied State :=
  let x := s.queue ln.pf ln.q
  s.writeParts (.unit ln.id) ln.pf x.ctx x.die 3 r.record (r.recordOf status)

/-- R360, R516: the record of a replay that is terminated. No further part of the command runs, so that a write that would have to
wait is not made (log entry 110). -/
def State.lastRecord (s : State) (l : Nat) : State :=
  let ln := s.launchOf l
  match ln.replay with
  | some r => match s.writeRecord ln r 0x06 with
    | .ok s => s
    | .error _ => s
  | none => s

/-- Stops launches without a save and removes their teams, images and phasers. The teams leave the contributor sets (R119, log entry
61). -/
def State.killLaunches (s : State) (ls : List Nat) : State :=
  let s := ls.foldl (fun s l => s.lastRecord l) s
  let s := ls.foldl (fun s l => (s.teamsOfLaunch l).foldl (fun s t => (s.dropTeam t.id).leaveExacts t.id) s) s
  let s := ls.foldl (fun s l => s.dropLaunch l) s
  { s with saved := s.saved.filter fun i => !ls.contains i.launch.id }

/-- R516: termination of a context with a cause. The event is written by the rule that terminates. -/
def State.terminate (s : State) (pf ctx cause : Nat) : State :=
  match s.ctx? pf ctx with
  | none => s
  | some _ =>
    let ls := s.launchesOf pf ctx
    let slots := ls.flatMap (·.slotsLoaded)
    let s := s.killLaunches (ls.map (·.id))
    let s := { s with exacts := s.exacts.filter fun x => !(x.pf == pf && x.ctx == ctx) }
    let s := s.modCtx pf ctx fun c =>
      { c with requests := [], installs := []
               slots := (List.range 8).map fun i => if slots.contains i then none else (c.slots.getD i none) }
    s.queues.foldl (fun s q => if q.pf == pf && q.ctx == ctx then s.endQueue pf q.num cause else s) s

/-- R516, R490: termination of every context that holds one of `dies`; the number of them. -/
def State.terminateAll (s : State) (dies : List Nat) (cause : Nat) : State × Nat :=
  let cs := s.contexts.filter fun c => (s.devDies c.pf).any dies.contains
  (cs.foldl (fun s c => s.terminate c.pf c.num cause) s, cs.length)

/-- R371: a queue is destroyed: its launches and commands end first. -/
def State.killQueue (s : State) (pf q detail : Nat) : State :=
  let s := s.killLaunches ((s.launches.filter fun l => l.pf == pf && l.q == q).map (·.id))
  let s := s.endQueue pf q detail
  let s := s.dropWaits fun y => y.pf == pf && [Asker.record (some q), .head q, .queue q].contains y.owner
  { s with
    queues := s.queues.filter fun x => !(x.pf == pf && x.num == q)
    outbox := s.outbox.filter fun x => !(x.toQueue pf q || x == .head pf q) }

/-- R370: a context is destroyed after its queues, with everything that it holds. -/
def State.killContext (s : State) (pf num : Nat) : State :=
  let s := s.queues.foldl (fun s q => if q.pf == pf && q.ctx == num then s.killQueue pf q.num 0x81 else s) s
  { s with
    contexts := s.contexts.filter fun c => !(c.pf == pf && c.num == num)
    exacts := s.exacts.filter fun x => !(x.pf == pf && x.ctx == num)
    saved := s.saved.filter fun i => !(i.pf == pf && i.ctx == num)
    waits := s.waits.filter fun x => !(x.pf == pf && x.ctx == num)
    outbox := s.outbox.filter fun x => !x.toCtx pf num }.dropTlbs fun x => x.pf == pf && x.ctx == num

/-- R482: the DETAIL of a data error: the DRAM word, or the on-chip structure and its unit. -/
def chipDetail (struct unit : Nat) : Nat := 2 ^ 63 + 256 * struct + unit % 256

/-- R482, R490: an uncorrectable word that a request of a context met: the context is terminated, with the system event 0x21. -/
def State.badWord (s : State) (pf ctx place : Nat) : State :=
  let die := homeDie place
  (s.terminate pf ctx 0x37).systemEvent [die] die 0x21 0x37 (place / 64 * 64)

end Sys2Proof.Machine
end

