-- ==== Sys2Proof/WellFormed.lean ====
section
/-! DEFINITION. Which fields each instruction has and what each may hold: check 3 of R186 (R176 to R179
and the entries' own encoding rules), and the register operands that checks 4 and 6 look at. -/

namespace Sys2Proof

/-- What a register field of R174 holds in an instruction (R176, R196). `raw m` is a field of another
class whose bits outside mask `m` are 0. -/
inductive Slot where
  | zero | vu | v | w | pdst | psrc | tile | acc | queue
  | raw (mask : Nat)
  deriving DecidableEq, Repr

/-- How many registers an operand takes: by the format (R237), by the special register (R232), by the
space of an address (R249), by the group width (R262), or by a conversion's formats (R278). -/
inductive Wide where
  | one | two | three | byTyp | byAddr | byCsr | byWidth | cas | cvtDst | cvtSrc
  deriving DecidableEq, Repr

/-- The encoding of one instruction beyond its opcode: R184 (lengths), R196, R240..R249, R262, R269,
R282..R294 (fields), and the widths of its operands. `mods` masks the MOD bits that it reads. -/
structure Shape where
  lens : List Len := [.two]
  dst : Slot := .zero
  sa : Slot := .zero
  sb : Slot := .zero
  sc : Slot := .zero
  dstW : Wide := .one
  saW : Wide := .one
  sbW : Wide := .one
  scW : Wide := .one
  mods : Nat := 0
  fmts : List Nat := []
  immB : Bool := false
  immMask : Bool := false
  mixed : Bool := false
  deriving DecidableEq, Repr

/-- The fields of an instruction of the common layout. -/
def Instr.fields? : Instr → Option Fields
  | .nop f => some f
  | .bra f => some f
  | .braC f => some f
  | .brx f => some f
  | .callx f => some f
  | .call f => some f
  | .ret f => some f
  | .exit f => some f
  | .yield f => some f
  | .rfopen f => some f
  | .rfclose f => some f
  | .reform f => some f
  | .spawn f => some f
  | .trap f => some f
  | .bkpt f => some f
  | .eret f => some f
  | .halt f => some f
  | .phinit f => some f
  | .phreg f => some f
  | .phdrop f => some f
  | .pharv f => some f
  | .phwait f => some f
  | .phaw f => some f
  | .bars f => some f
  | .txbeg f => some f
  | .txend f => some f
  | .txabt f => some f
  | .tilewait f => some f
  | .fence f => some f
  | .csrr f => some f
  | .csrw f => some f
  | .ovld f => some f
  | .claim f => some f
  | .cctlRo f => some f
  | .iadd f => some f
  | .isub f => some f
  | .iaddc f => some f
  | .ineg f => some f
  | .iabs f => some f
  | .imul f => some f
  | .imulhi f => some f
  | .imad f => some f
  | .imadw f => some f
  | .idot4 f => some f
  | .imin f => some f
  | .imax f => some f
  | .and f => some f
  | .or f => some f
  | .xor f => some f
  | .not f => some f
  | .andn f => some f
  | .bool3 f => some f
  | .shl f => some f
  | .shr f => some f
  | .sar f => some f
  | .rol f => some f
  | .fshl f => some f
  | .bfe f => some f
  | .bfi f => some f
  | .bmsk f => some f
  | .popc f => some f
  | .clz f => some f
  | .ctz f => some f
  | .brev f => some f
  | .bsel f => some f
  | .iset f => some f
  | .sel f => some f
  | .mov f => some f
  | .movi f => some f
  | .lea f => some f
  | .pand f => some f
  | .por f => some f
  | .pxor f => some f
  | .pnot f => some f
  | .pmov f => some f
  | .xlaneAt f => some f
  | .xlaneBack f => some f
  | .xlaneFwd f => some f
  | .xlaneSwap f => some f
  | .xlaneOne f => some f
  | .pcolSome f => some f
  | .pcolEvery f => some f
  | .pcolBits f => some f
  | .pcolSame f => some f
  | .eqset f => some f
  | .lredAdd f => some f
  | .lredMin f => some f
  | .lredMax f => some f
  | .lredAnd f => some f
  | .lredOr f => some f
  | .lredXor f => some f
  | .rank f => some f
  | .ld f => some f
  | .ldRf f => some f
  | .st f => some f
  | .ldro f => some f
  | .atomAdd f => some f
  | .atomAnd f => some f
  | .atomOr f => some f
  | .atomXor f => some f
  | .atomMin f => some f
  | .atomMax f => some f
  | .atomXchg f => some f
  | .atomCas f => some f
  | .atomInc f => some f
  | .atomDec f => some f
  | .redAdd f => some f
  | .redAnd f => some f
  | .redOr f => some f
  | .redXor f => some f
  | .redMin f => some f
  | .redMax f => some f
  | .redInc f => some f
  | .redDec f => some f
  | .redx f => some f
  | .redxf f => some f
  | .prefl f => some f
  | .fadd f => some f
  | .fsub f => some f
  | .fmul f => some f
  | .ffma f => some f
  | .fmin f => some f
  | .fmax f => some f
  | .fset f => some f
  | .fclass f => some f
  | .frnd f => some f
  | .fcvt f => some f
  | .icvt f => some f
  | .ex2 f => some f
  | .lg2 f => some f
  | .rcp f => some f
  | .rsq f => some f
  | .sqrt f => some f
  | .sinpi f => some f
  | .cospi f => some f
  | .ex2s f => some f
  | .fscale f => some f
  | .fgetexp f => some f
  | .fmaxe f => some f
  | .tbind f => some f
  | .trel f => some f
  | .mma f => some f
  | .mmabs f => some f
  | .azero f => some f
  | .amov f => some f
  | .ald f => some f
  | .ast f => some f
  | .movToQueue f => some f
  | .moviToQueue f => some f
  | .movFromQueue f => some f
  | _ => none

/-- Two- and three-word forms, the second with IMM32 in place of source B (R177). -/
def Shape.imm : Shape := { lens := [.two, .three], immB := true }

def fInt : List Nat := [0x06, 0x0A, 0x07, 0x0B]
def fInt32 : List Nat := [0x06, 0x0A]
def fSig : List Nat := [0x06, 0x07]
def fBits : List Nat := [0x02, 0x03]
def fFloat : List Nat := [0x0E, 0x0C, 0x0D, 0x10, 0x11]
def fScalar : List Nat := [0x0E, 0x0C, 0x0D]
def fLoad : List Nat := [0x00, 0x01, 0x02, 0x03, 0x04, 0x05, 0x08, 0x09]
def fStore : List Nat := [0x00, 0x01, 0x02, 0x03]

/-- The shape of an integer or bit instruction over A and B. -/
def Shape.ab (fmts : List Nat) (mods : Nat) : Shape :=
  { Shape.imm with dst := .vu, sa := .vu, sb := .vu, dstW := .byTyp, saW := .byTyp, sbW := .byTyp, mods, fmts }

/-- The shape of an instruction over B alone. -/
def Shape.b1 (fmts : List Nat) (mods : Nat) : Shape := { Shape.ab fmts mods with sa := .zero }

/-- The shape of an instruction over A, B and C. -/
def Shape.abc (fmts : List Nat) (mods : Nat) : Shape := { Shape.ab fmts mods with sc := .vu, scW := .byTyp }

/-- The shape of a shift or of a field instruction whose control B is one register (R237). -/
def Shape.shift (fmts : List Nat) : Shape := { Shape.ab fmts 0 with sbW := .one }

/-- The shape of a predicate instruction (R248). -/
def Shape.pred (two : Bool) : Shape :=
  { dst := .pdst, sa := .psrc, sb := if two then .psrc else .zero }

/-- The shape of a memory instruction (R178, R249): MOD[60] is `.rf`, SC the ordering field. -/
def Shape.memory (dst sb : Slot) (fmts : List Nat) : Shape :=
  { lens := [.two, .three], dst, sa := .vu, sb, sc := .raw 0xFF, dstW := .byTyp, saW := .byAddr, sbW := .byTyp,
    mods := 1, fmts }

/-- The shape of a cross-lane instruction that collects over a mask (R262). -/
def Shape.collect (dst sa : Slot) (fmts : List Nat) : Shape :=
  { lens := [.two, .three], dst, sa, sc := .w, scW := .two, saW := .byTyp, dstW := .byTyp, fmts, immMask := true, mixed := true }

/-- The shape of `XLANE` (R262). Beside a uniform destination, a vector SB is not illegal under R176: the destination's own cause
decides (DEDUCED, log entry 123). -/
def Shape.xlane : Shape :=
  { Shape.imm with dst := .vu, sa := .v, sb := .vu, sc := .w, dstW := .byTyp, saW := .byTyp, scW := .two, fmts := fBits, mixed := true }

/-- R184, R196, R240..R249, R262, R269, R277, R282..R294: the shape of each instruction. -/
def Instr.shape : Instr → Shape
  | .nop _ => { lens := [.two, .three, .four] }
  | .bra _ => { lens := [.three] }
  | .braC _ => { lens := [.four] }
  | .brx _ => { sa := .w, saW := .two, sb := .vu }
  | .callx _ => { dst := .vu, dstW := .two, sa := .w, saW := .two, sb := .vu }
  | .call _ => { lens := [.three], dst := .vu, dstW := .two }
  | .ret _ => { sa := .vu, saW := .two }
  | .exit _ | .yield _ | .rfclose _ | .eret _ | .bkpt _ | .txend _ | .cctlRo _ | .halt _ => {}
  | .rfopen _ | .reform _ => { lens := [.three] }
  | .spawn _ => { lens := [.three], dst := .pdst, sa := .vu, sb := .vu }
  | .trap _ => { lens := [.two, .three] }
  | .phinit _ => { Shape.imm with dst := .w, sb := .w, mods := 7 }
  | .phreg _ => { sa := .w, mods := 3 }
  | .phdrop _ => { sa := .w }
  | .pharv _ => { dst := .w, sa := .w }
  | .phwait _ => { Shape.imm with dst := .pdst, sa := .w, sb := .w, sc := .w }
  | .phaw _ => { Shape.imm with dst := .pdst, sa := .w, sb := .w }
  | .bars _ => { sa := .w }
  | .txbeg _ => { dst := .w }
  | .txabt _ => { Shape.imm with sb := .w }
  | .tilewait _ => { dst := .pdst, sa := .tile, sb := .w }
  | .fence _ => { sc := .raw 0xFF }
  | .csrr _ => { dst := .vu, dstW := .byCsr, sa := .raw 0xFF, sb := .raw 0x0F }
  | .csrw _ => { sa := .raw 0xFF, sb := .raw 0x0F, sc := .vu, scW := .byCsr }
  | .ovld _ => { sa := .w }
  | .claim _ => { sa := .w, saW := .two, sb := .w, sbW := .two }
  | .iadd _ | .isub _ | .imul _ => Shape.ab fInt 1
  | .imin _ | .imax _ => Shape.ab fInt 0
  | .iaddc _ => { Shape.ab [0x0A] 0 with sc := .psrc }
  | .ineg _ | .iabs _ => Shape.b1 fSig 1
  | .imulhi _ => Shape.ab fInt32 0
  | .imad _ => Shape.abc fInt32 1
  | .imadw _ => { Shape.abc fInt32 1 with dstW := .two, scW := .two }
  | .idot4 _ => { Shape.abc [0x04, 0x08] 1 with dstW := .one, scW := .one }
  | .and _ | .or _ | .xor _ | .andn _ => Shape.ab fBits 0
  | .not _ => Shape.b1 fBits 0
  | .bool3 _ => { Shape.abc fBits 0 with lens := [.three], immB := false }
  | .shl _ | .shr _ | .rol _ => Shape.shift fBits
  | .sar _ => Shape.shift fSig
  | .fshl _ => { Shape.shift fBits with sc := .vu, scW := .byTyp }
  | .bfe _ => Shape.shift fInt
  | .bfi _ => { Shape.shift fBits with sc := .vu, scW := .byTyp }
  | .bmsk _ => { Shape.b1 fBits 0 with sbW := .one }
  | .popc _ | .clz _ | .ctz _ => { dst := .vu, sa := .vu, saW := .byTyp, fmts := fBits }
  | .brev _ => { dst := .vu, sa := .vu, dstW := .byTyp, saW := .byTyp, fmts := fBits }
  | .bsel _ => Shape.abc [0x02] 0
  | .iset _ => { Shape.ab fInt 6 with dst := .pdst, dstW := .one, sc := .psrc }
  | .sel _ => { Shape.ab fBits 0 with sc := .psrc }
  | .mov _ => { dst := .vu, sa := .vu, dstW := .byTyp, saW := .byTyp, fmts := [0x02, 0x03, 0x0E] }
  | .movi _ => { lens := [.three, .four], dst := .vu, dstW := .byTyp, fmts := [0x02, 0x0E, 0x07, 0x0B, 0x03] }
  | .lea _ => { Shape.imm with dst := .vu, sa := .vu, sb := .vu, dstW := .two, saW := .two, mods := 6, fmts := fInt32 }
  | .pand _ | .por _ | .pxor _ => Shape.pred true
  | .pnot _ | .pmov _ => Shape.pred false
  | .fadd _ | .fsub _ | .fmul _ => Shape.ab fFloat 15
  | .ffma _ => Shape.abc fFloat 15
  | .fmin _ | .fmax _ => Shape.ab fFloat 8
  | .fset _ => { Shape.ab fScalar 8 with dst := .pdst, dstW := .one, sc := .raw 0xFF }
  | .fclass _ => { dst := .vu, sa := .vu, fmts := fScalar }
  | .frnd _ => { dst := .vu, sa := .vu, mods := 15, fmts := fFloat }
  | .fcvt _ => { dst := .vu, sa := .vu, sc := .raw 0x1F, dstW := .cvtDst, saW := .cvtSrc, mods := 15, fmts := [0x0E, 0x0C, 0x0D, 0x14, 0x15, 0x16, 0x10, 0x11, 0x18, 0x19, 0x1A] }
  | .icvt _ => { dst := .vu, sa := .vu, sb := .raw 1, sc := .raw 0x1F, dstW := .cvtDst, saW := .cvtSrc, mods := 15, fmts := [0x04, 0x05, 0x06, 0x07, 0x08, 0x09, 0x0A, 0x0B] }
  | .ex2 _ | .lg2 _ | .rcp _ | .rsq _ | .sqrt _ | .sinpi _ | .cospi _ =>
      { dst := .vu, sa := .vu, mods := 8, fmts := [0x0E] }
  | .ex2s _ => { dst := .vu, sa := .vu, sb := .vu, mods := 8, fmts := [0x0E] }
  | .fscale _ => Shape.ab [0x0E] 15
  | .fgetexp _ => Shape.b1 [0x0E] 8
  | .fmaxe _ => Shape.ab [0x0E] 8
  | .xlaneAt _ | .xlaneBack _ | .xlaneFwd _ | .xlaneSwap _ | .xlaneOne _ => Shape.xlane
  | .pcolSome _ | .pcolEvery _ => { Shape.collect .pdst .psrc [0] with dstW := .one, saW := .one }
  | .pcolBits _ => { Shape.collect .vu .psrc fBits with saW := .one }
  | .pcolSame _ => { Shape.collect .pdst .v fBits with dstW := .one }
  | .eqset _ => { Shape.collect .vu .v fBits with dstW := .byWidth }
  | .lredAdd _ | .lredMin _ | .lredMax _ => { Shape.collect .vu .v [0x06, 0x0A, 0x07, 0x0B, 0x0E] with mods := 15 }
  | .lredAnd _ | .lredOr _ | .lredXor _ => Shape.collect .vu .v fBits
  | .rank _ => { dst := .vu, dstW := .three, fmts := [0], mixed := true }
  | .ld _ | .ldRf _ => Shape.memory .vu .zero fLoad
  | .ldro _ => Shape.memory .vu .zero fLoad
  | .st _ => Shape.memory .zero .vu fStore
  | .atomAdd _ => Shape.memory .vu .vu [0x06, 0x0A, 0x07, 0x0B, 0x0E]
  | .atomMin _ | .atomMax _ => Shape.memory .vu .vu fInt
  | .atomAnd _ | .atomOr _ | .atomXor _ | .atomXchg _ => Shape.memory .vu .vu fBits
  | .atomCas _ => { Shape.memory .vu .vu fBits with sbW := .cas }
  | .atomInc _ | .atomDec _ => Shape.memory .vu .vu [0x0A]
  | .redAdd _ => Shape.memory .zero .vu [0x06, 0x0A, 0x07, 0x0B, 0x0E]
  | .redMin _ | .redMax _ => Shape.memory .zero .vu fInt
  | .redAnd _ | .redOr _ | .redXor _ => Shape.memory .zero .vu fBits
  | .redInc _ | .redDec _ => Shape.memory .zero .vu [0x0A]
  | .redx _ => Shape.memory .zero .vu [0x0E]
  | .redxf _ => Shape.memory .vu (.raw 7) [0x0E]
  | .prefl _ => Shape.memory .zero .zero [0x00]
  | .tbind _ => { Shape.imm with dst := .tile, sa := .w, sb := .w, fmts := [0, 1, 2, 3, 4, 5, 6, 7, 8, 9, 10, 11, 12, 13, 14, 0x10, 0x11, 0x14, 0x15, 0x16, 0x18, 0x19, 0x1A] }
  | .trel _ => { dst := .tile }
  | .mma _ | .mmabs _ => { dst := .acc, sa := .tile, sb := .tile, sc := .w, scW := .two }
  | .azero _ => { dst := .acc }
  | .amov _ => { dst := .acc, sa := .acc }
  | .ald _ => { lens := [.two, .three], dst := .acc, sa := .w, saW := .byAddr, sc := .raw 0xFF, fmts := [0x0E, 0x06, 0x0C, 0x0D] }
  | .ast _ => { lens := [.two, .three], sa := .w, saW := .byAddr, sb := .acc, sc := .raw 0xFF, mods := 7, fmts := [0x0E, 0x06, 0x0C, 0x0D] }
  | .movToQueue _ => { dst := .queue, sa := .vu, fmts := [0x02] }
  | .movFromQueue _ => { dst := .vu, sa := .queue, fmts := [0x02] }
  | .moviToQueue _ => { lens := [.three], dst := .queue, fmts := [0x02] }
  | _ => { lens := [] }

/-- The ordering field of R178 held in SC: SPACE, ANN and SCOPE. -/
def Fields.space (f : Fields) : Nat := (f.sc >>> 5).toNat
def Fields.ann (f : Fields) : Nat := (f.sc >>> 3).toNat % 4
def Fields.scope (f : Fields) : Nat := f.sc.toNat % 8
/-- IMM32 of the 96-bit form; the first and the second field of IMM64. -/
def Fields.imm32 (f : Fields) : Word := f.imm.setWidth 32
def Fields.imm32b (f : Fields) : Word := (f.imm >>> 32).setWidth 32
/-- MOD[63] `.ftz` and MOD[62:60], the rounding mode (R178). -/
def Fields.ftz (f : Fields) : Bool := f.mod.getLsbD 3
def Fields.rmode (f : Fields) : Nat := f.mod.toNat % 8
/-- MOD[60]: `.sat` or `.rf` (R178). -/
def Fields.sat (f : Fields) : Bool := f.mod.getLsbD 0
/-- The special-register number of R176: SB[3:0] : SA. -/
def Fields.csr (f : Fields) : Nat := f.sb.toNat % 16 * 256 + f.sa.toNat

/-- R176: does a field with CLS bit `c` hold what its class allows? -/
def Slot.okay (s : Slot) (x : BitVec 8) (c : Bool) : Bool :=
  match s with
  | .zero => x == 0 && !c
  | .vu => true
  | .v => !c
  | .w => c
  | .pdst => x.toNat < 8 && !c
  | .psrc => (x &&& 0x78#8) == 0 && !c
  | .tile => x.toNat < 16 && !c
  | .acc => x.toNat < 32 && !c
  | .queue => x.toNat < 8 && !c
  | .raw m => x.toNat &&& m == x.toNat && !c

/-- R176: with a uniform destination every vector-or-uniform source is uniform too, unless the entry names
the combination. -/
def Shape.uniformOk (h : Shape) (f : Fields) (sb : Slot) : Bool :=
  !(h.dst == .vu && f.cls.getLsbD 0) || h.mixed ||
    ((h.sa != .vu || f.cls.getLsbD 1) && (sb != .vu || f.cls.getLsbD 2) && (h.sc != .vu || f.cls.getLsbD 3))

/-- The encoding rules that entries add to the shape (R201, R217, R218, R231, R237, R243, R247, R262, R270,
R274, R277, R292, R196). A 128-bit `MOVI` of a packed code (f16x2, bf16x2) does not break them: its code is one that the entry does
not list, which is cause 0x11 (log entry 113). -/
def Instr.extraOk (i : Instr) (f : Fields) : Bool :=
  match i with
  | .phreg _ => f.mod != 0
  | .fence _ => f.space == 0 && f.ann != 0
  | .txabt _ => f.imm32.toNat < 0x10000
  | .bool3 _ => f.imm32.toNat < 0x100
  | .movi _ => f.len == .three || !([0x02, 0x06, 0x0A, 0x0E].contains f.typ.toNat)
  | .fadd _ | .fsub _ | .fmul _ | .ffma _ | .fmin _ | .fmax _ =>
      !([0x0C, 0x0D].contains f.typ.toNat) || f.imm32.toNat < 0x10000
  | .fset _ => (!([0x0C, 0x0D].contains f.typ.toNat) || f.imm32.toNat < 0x10000) && (f.sc.toNat / 8 % 16 < 14)
  | .fcvt _ => !f.ftz || ([0x0E, 0x0C, 0x0D, 0x10, 0x11].any fun c => c == f.typ.toNat || c == f.sc.toNat)
  | .icvt _ => if f.sc.toNat ∈ [4, 5, 6, 7, 8, 9, 10, 11] then f.mod == 0 else f.sb == 0
  | .lredAdd _ | .lredMin _ | .lredMax _ => f.typ == 0x0E || f.mod == 0
  | .ast _ => f.typ == 0x0C || f.typ == 0x0D || f.mod == 0
  | .ld _ => !f.sat
  | .ldRf _ => f.sat
  | _ => true

/-- Is the instruction one that carries the memory ordering field (R178)? -/
def Instr.ordered : Instr → Bool
  | .ld _ | .ldRf _ | .st _ | .ldro _ | .atomAdd _ | .atomAnd _ | .atomOr _ | .atomXor _ | .atomMin _ | .atomMax _
  | .atomXchg _ | .atomCas _ | .atomInc _ | .atomDec _ | .redAdd _ | .redAnd _ | .redOr _ | .redXor _ | .redMin _
  | .redMax _ | .redInc _ | .redDec _ | .redx _ | .redxf _ | .prefl _ | .ald _ | .ast _ => true
  | _ => false

/-- R171, R177: the immediate words that the length has, and no others. -/
def Fields.immFits (f : Fields) : Bool :=
  match f.len with
  | .two => f.imm == 0
  | .three => f.imm.toNat < 2 ^ 32
  | .four => true

/-- Check 3 of R186 for an instruction of the common layout, with the length of R184. -/
def Instr.fieldsOk (i : Instr) (f : Fields) : Bool :=
  let h := i.shape
  let sb := if h.immB && f.len != .two then .zero else h.sb
  let sc := if h.immMask && f.len != .two then .zero else h.sc
  h.lens.contains f.len && f.immFits
    && h.dst.okay f.dst (f.cls.getLsbD 0) && h.sa.okay f.sa (f.cls.getLsbD 1)
    && sb.okay f.sb (f.cls.getLsbD 2) && sc.okay f.sc (f.cls.getLsbD 3)
    && (f.mod.toNat &&& h.mods == f.mod.toNat) && (!h.fmts.isEmpty || f.typ == 0)
    && h.uniformOk f sb && i.extraOk f
    && (!i.ordered || (f.space < 6 && (f.ann != 0 || f.scope == 0)))

/-- A well-formed instruction is one that an encoding of R184 stands for. A happening is no encoding. -/
def Instr.wf (i : Instr) : Bool :=
  match i with
  | .rep _ => true
  | _ => match i.fields? with
    | some f => i.fieldsOk f
    | none => false

end Sys2Proof
end

