-- ==== Sys2Proof/Decode.lean ====
section
/-! DEFINITION. Decoding: the words of a fetch to an instruction or to the fate of R185, and the encoder
written from the same layout (R174, R182, R184). -/

namespace Sys2Proof

/-- Why an encoding is no instruction, by name (R171, R179, R183, R185). -/
inductive Reject where
  | shortLength      -- L = 0b00
  | missingWords     -- the words do not reach the instruction's length
  | unassigned       -- a major or minor code that R184 does not list
  | unimplemented    -- a major code of 0xC0..0xDF (R187)
  | badFields        -- a length, field or class that the entry does not allow
  deriving DecidableEq, Repr

/-- R184: the major and minor opcode of each instruction. -/
def Instr.key : Instr → Option (Nat × Nat)
  | .nop _ => some (0x00, 0)
  | .bra _ => some (0x01, 0)
  | .braC _ => some (0x01, 1)
  | .brx _ => some (0x02, 0)
  | .callx _ => some (0x02, 1)
  | .call _ => some (0x03, 0)
  | .ret _ => some (0x03, 1)
  | .exit _ => some (0x04, 0)
  | .yield _ => some (0x06, 0)
  | .rfopen _ => some (0x07, 0)
  | .rfclose _ => some (0x07, 1)
  | .reform _ => some (0x07, 2)
  | .spawn _ => some (0x08, 0)
  | .trap _ => some (0x09, 0)
  | .bkpt _ => some (0x09, 2)
  | .eret _ => some (0x09, 1)
  | .halt _ => some (0xBC, 0)
  | .phinit _ => some (0x10, 0)
  | .phreg _ => some (0x11, 0)
  | .phdrop _ => some (0x11, 1)
  | .pharv _ => some (0x12, 0)
  | .phwait _ => some (0x13, 0)
  | .phaw _ => some (0x13, 1)
  | .bars _ => some (0x14, 0)
  | .txbeg _ => some (0x15, 0)
  | .txend _ => some (0x15, 1)
  | .txabt _ => some (0x15, 2)
  | .tilewait _ => some (0x16, 0)
  | .fence _ => some (0x17, 0)
  | .csrr _ => some (0xB8, 0)
  | .csrw _ => some (0xB8, 1)
  | .ovld _ => some (0xB9, 0)
  | .claim _ => some (0xBA, 0)
  | .cctlRo _ => some (0xBB, 0)
  | .iadd _ => some (0x20, 0)
  | .isub _ => some (0x20, 1)
  | .iaddc _ => some (0x20, 2)
  | .ineg _ => some (0x20, 3)
  | .iabs _ => some (0x20, 4)
  | .imul _ => some (0x21, 0)
  | .imulhi _ => some (0x21, 1)
  | .imad _ => some (0x21, 2)
  | .imadw _ => some (0x21, 3)
  | .idot4 _ => some (0x21, 4)
  | .imin _ => some (0x22, 0)
  | .imax _ => some (0x22, 1)
  | .and _ => some (0x23, 0)
  | .or _ => some (0x23, 1)
  | .xor _ => some (0x23, 2)
  | .not _ => some (0x23, 3)
  | .andn _ => some (0x23, 4)
  | .bool3 _ => some (0x23, 5)
  | .shl _ => some (0x24, 0)
  | .shr _ => some (0x24, 1)
  | .sar _ => some (0x24, 2)
  | .rol _ => some (0x24, 3)
  | .fshl _ => some (0x24, 4)
  | .bfe _ => some (0x25, 0)
  | .bfi _ => some (0x25, 1)
  | .bmsk _ => some (0x25, 2)
  | .popc _ => some (0x26, 0)
  | .clz _ => some (0x26, 1)
  | .ctz _ => some (0x26, 2)
  | .brev _ => some (0x26, 3)
  | .bsel _ => some (0x26, 4)
  | .iset _ => some (0x27, 0)
  | .sel _ => some (0x27, 1)
  | .mov _ => some (0x28, 0)
  | .movi _ => some (0x28, 1)
  | .lea _ => some (0x28, 2)
  | .pand _ => some (0x29, 0)
  | .por _ => some (0x29, 1)
  | .pxor _ => some (0x29, 2)
  | .pnot _ => some (0x29, 3)
  | .pmov _ => some (0x29, 4)
  | .xlaneAt _ => some (0x70, 0)
  | .xlaneBack _ => some (0x70, 1)
  | .xlaneFwd _ => some (0x70, 2)
  | .xlaneSwap _ => some (0x70, 3)
  | .xlaneOne _ => some (0x70, 4)
  | .pcolSome _ => some (0x71, 0)
  | .pcolEvery _ => some (0x71, 1)
  | .pcolBits _ => some (0x71, 2)
  | .pcolSame _ => some (0x71, 3)
  | .eqset _ => some (0x72, 0)
  | .lredAdd _ => some (0x73, 0)
  | .lredMin _ => some (0x73, 1)
  | .lredMax _ => some (0x73, 2)
  | .lredAnd _ => some (0x73, 3)
  | .lredOr _ => some (0x73, 4)
  | .lredXor _ => some (0x73, 5)
  | .rank _ => some (0x74, 0)
  | .ld _ => some (0x80, 0)
  | .ldRf _ => some (0x80, 0)
  | .st _ => some (0x81, 0)
  | .ldro _ => some (0x82, 0)
  | .atomAdd _ => some (0x83, 0)
  | .atomAnd _ => some (0x83, 1)
  | .atomOr _ => some (0x83, 2)
  | .atomXor _ => some (0x83, 3)
  | .atomMin _ => some (0x83, 4)
  | .atomMax _ => some (0x83, 5)
  | .atomXchg _ => some (0x83, 6)
  | .atomCas _ => some (0x83, 7)
  | .atomInc _ => some (0x84, 0)
  | .atomDec _ => some (0x84, 1)
  | .redAdd _ => some (0x85, 0)
  | .redAnd _ => some (0x85, 1)
  | .redOr _ => some (0x85, 2)
  | .redXor _ => some (0x85, 3)
  | .redMin _ => some (0x85, 4)
  | .redMax _ => some (0x85, 5)
  | .redInc _ => some (0x85, 6)
  | .redDec _ => some (0x85, 7)
  | .redx _ => some (0x86, 0)
  | .redxf _ => some (0x86, 1)
  | .prefl _ => some (0x87, 0)
  | .fadd _ => some (0x40, 0)
  | .fsub _ => some (0x40, 1)
  | .fmul _ => some (0x40, 2)
  | .ffma _ => some (0x40, 3)
  | .fmin _ => some (0x41, 0)
  | .fmax _ => some (0x41, 1)
  | .fset _ => some (0x42, 0)
  | .fclass _ => some (0x43, 0)
  | .frnd _ => some (0x44, 0)
  | .fcvt _ => some (0x45, 0)
  | .icvt _ => some (0x45, 1)
  | .ex2 _ => some (0x60, 0)
  | .lg2 _ => some (0x60, 1)
  | .rcp _ => some (0x60, 2)
  | .rsq _ => some (0x60, 3)
  | .sqrt _ => some (0x60, 4)
  | .sinpi _ => some (0x60, 5)
  | .cospi _ => some (0x60, 6)
  | .ex2s _ => some (0x60, 7)
  | .fscale _ => some (0x61, 0)
  | .fgetexp _ => some (0x61, 1)
  | .fmaxe _ => some (0x61, 2)
  | .tbind _ => some (0xA0, 0)
  | .trel _ => some (0xA0, 1)
  | .mma _ => some (0xA1, 0)
  | .mmabs _ => some (0xA2, 0)
  | .azero _ => some (0xA3, 0)
  | .amov _ => some (0xA6, 0)
  | .ald _ => some (0xA4, 0)
  | .ast _ => some (0xA5, 0)
  | .movToQueue _ => some (0xB0, 0)
  | .moviToQueue _ => some (0xB0, 2)
  | .movFromQueue _ => some (0xB0, 1)
  | .rep _ => some (0x05, 0)
  | _ => none

/-- R184: the instruction of each major and minor opcode. MOD[60] tells the gather from the load (R249). -/
def opcode (major minor : Nat) : Option (Fields → Instr) :=
  match major, minor with
  | 0x00, 0 => some .nop
  | 0x01, 0 => some .bra
  | 0x01, 1 => some .braC
  | 0x02, 0 => some .brx
  | 0x02, 1 => some .callx
  | 0x03, 0 => some .call
  | 0x03, 1 => some .ret
  | 0x04, 0 => some .exit
  | 0x06, 0 => some .yield
  | 0x07, 0 => some .rfopen
  | 0x07, 1 => some .rfclose
  | 0x07, 2 => some .reform
  | 0x08, 0 => some .spawn
  | 0x09, 0 => some .trap
  | 0x09, 2 => some .bkpt
  | 0x09, 1 => some .eret
  | 0xBC, 0 => some .halt
  | 0x10, 0 => some .phinit
  | 0x11, 0 => some .phreg
  | 0x11, 1 => some .phdrop
  | 0x12, 0 => some .pharv
  | 0x13, 0 => some .phwait
  | 0x13, 1 => some .phaw
  | 0x14, 0 => some .bars
  | 0x15, 0 => some .txbeg
  | 0x15, 1 => some .txend
  | 0x15, 2 => some .txabt
  | 0x16, 0 => some .tilewait
  | 0x17, 0 => some .fence
  | 0xB8, 0 => some .csrr
  | 0xB8, 1 => some .csrw
  | 0xB9, 0 => some .ovld
  | 0xBA, 0 => some .claim
  | 0xBB, 0 => some .cctlRo
  | 0x20, 0 => some .iadd
  | 0x20, 1 => some .isub
  | 0x20, 2 => some .iaddc
  | 0x20, 3 => some .ineg
  | 0x20, 4 => some .iabs
  | 0x21, 0 => some .imul
  | 0x21, 1 => some .imulhi
  | 0x21, 2 => some .imad
  | 0x21, 3 => some .imadw
  | 0x21, 4 => some .idot4
  | 0x22, 0 => some .imin
  | 0x22, 1 => some .imax
  | 0x23, 0 => some .and
  | 0x23, 1 => some .or
  | 0x23, 2 => some .xor
  | 0x23, 3 => some .not
  | 0x23, 4 => some .andn
  | 0x23, 5 => some .bool3
  | 0x24, 0 => some .shl
  | 0x24, 1 => some .shr
  | 0x24, 2 => some .sar
  | 0x24, 3 => some .rol
  | 0x24, 4 => some .fshl
  | 0x25, 0 => some .bfe
  | 0x25, 1 => some .bfi
  | 0x25, 2 => some .bmsk
  | 0x26, 0 => some .popc
  | 0x26, 1 => some .clz
  | 0x26, 2 => some .ctz
  | 0x26, 3 => some .brev
  | 0x26, 4 => some .bsel
  | 0x27, 0 => some .iset
  | 0x27, 1 => some .sel
  | 0x28, 0 => some .mov
  | 0x28, 1 => some .movi
  | 0x28, 2 => some .lea
  | 0x29, 0 => some .pand
  | 0x29, 1 => some .por
  | 0x29, 2 => some .pxor
  | 0x29, 3 => some .pnot
  | 0x29, 4 => some .pmov
  | 0x70, 0 => some .xlaneAt
  | 0x70, 1 => some .xlaneBack
  | 0x70, 2 => some .xlaneFwd
  | 0x70, 3 => some .xlaneSwap
  | 0x70, 4 => some .xlaneOne
  | 0x71, 0 => some .pcolSome
  | 0x71, 1 => some .pcolEvery
  | 0x71, 2 => some .pcolBits
  | 0x71, 3 => some .pcolSame
  | 0x72, 0 => some .eqset
  | 0x73, 0 => some .lredAdd
  | 0x73, 1 => some .lredMin
  | 0x73, 2 => some .lredMax
  | 0x73, 3 => some .lredAnd
  | 0x73, 4 => some .lredOr
  | 0x73, 5 => some .lredXor
  | 0x74, 0 => some .rank
  | 0x80, 0 => some (fun f => if f.sat then .ldRf f else .ld f)
  | 0x81, 0 => some .st
  | 0x82, 0 => some .ldro
  | 0x83, 0 => some .atomAdd
  | 0x83, 1 => some .atomAnd
  | 0x83, 2 => some .atomOr
  | 0x83, 3 => some .atomXor
  | 0x83, 4 => some .atomMin
  | 0x83, 5 => some .atomMax
  | 0x83, 6 => some .atomXchg
  | 0x83, 7 => some .atomCas
  | 0x84, 0 => some .atomInc
  | 0x84, 1 => some .atomDec
  | 0x85, 0 => some .redAdd
  | 0x85, 1 => some .redAnd
  | 0x85, 2 => some .redOr
  | 0x85, 3 => some .redXor
  | 0x85, 4 => some .redMin
  | 0x85, 5 => some .redMax
  | 0x85, 6 => some .redInc
  | 0x85, 7 => some .redDec
  | 0x86, 0 => some .redx
  | 0x86, 1 => some .redxf
  | 0x87, 0 => some .prefl
  | 0x40, 0 => some .fadd
  | 0x40, 1 => some .fsub
  | 0x40, 2 => some .fmul
  | 0x40, 3 => some .ffma
  | 0x41, 0 => some .fmin
  | 0x41, 1 => some .fmax
  | 0x42, 0 => some .fset
  | 0x43, 0 => some .fclass
  | 0x44, 0 => some .frnd
  | 0x45, 0 => some .fcvt
  | 0x45, 1 => some .icvt
  | 0x60, 0 => some .ex2
  | 0x60, 1 => some .lg2
  | 0x60, 2 => some .rcp
  | 0x60, 3 => some .rsq
  | 0x60, 4 => some .sqrt
  | 0x60, 5 => some .sinpi
  | 0x60, 6 => some .cospi
  | 0x60, 7 => some .ex2s
  | 0x61, 0 => some .fscale
  | 0x61, 1 => some .fgetexp
  | 0x61, 2 => some .fmaxe
  | 0xA0, 0 => some .tbind
  | 0xA0, 1 => some .trel
  | 0xA1, 0 => some .mma
  | 0xA2, 0 => some .mmabs
  | 0xA3, 0 => some .azero
  | 0xA6, 0 => some .amov
  | 0xA4, 0 => some .ald
  | 0xA5, 0 => some .ast
  | 0xB0, 0 => some .movToQueue
  | 0xB0, 2 => some .moviToQueue
  | 0xB0, 1 => some .movFromQueue
  | _, _ => none

/-- R171: the length that the L field gives, and the L field of a length. -/
def Len.ofL (l : Nat) : Option Len :=
  match l with
  | 1 => some .two
  | 2 => some .three
  | 3 => some .four
  | _ => none

def Len.words : Len → Nat
  | .two => 2
  | .three => 3
  | .four => 4

/-- The length of an instruction in bytes. -/
def Len.bytes (l : Len) : Nat := 4 * l.words

/-- R174: the fields of the first two words and the immediate words. -/
def fieldsOf (len : Len) (w0 w1 : Word) (imm : BitVec 64) : Fields :=
  { len, mark := w0.getLsbD 2, trans := w0.getLsbD 3, gp := w0.extractLsb' 4 3, gneg := w0.getLsbD 7,
    dst := w0.extractLsb' 16 8, sa := w0.extractLsb' 24 8, sb := w1.extractLsb' 0 8, sc := w1.extractLsb' 8 8,
    typ := w1.extractLsb' 16 5, cls := w1.extractLsb' 24 4, mod := w1.extractLsb' 28 4, imm }

/-- R174, R177: IMM32 or IMM64 of the words after the first two. -/
def immOf (ws : List Word) : BitVec 64 :=
  match ws with
  | [a] => a.setWidth 64
  | [a, b] => b ++ a
  | _ => 0

/-- R182: a repeat prefix, with its fixed bits. -/
def decodeRep (w0 w1 : Word) : Except Reject Instr :=
  if w0.extractLsb' 0 8 = 0x71#8 ∧ w1.extractLsb' 16 10 = 0#10 then
    .ok (.rep { cnt := w1.extractLsb' 26 6, std := w0.extractLsb' 16 8, sta := w0.extractLsb' 24 8,
                 stb := w1.extractLsb' 0 8, stc := w1.extractLsb' 8 8 })
  else .error .badFields

/-- Checks 2 and 3 of R186 on the words of one instruction, the first word first. -/
def decode (ws : List Word) : Except Reject Instr :=
  match ws with
  | [] => .error .missingWords
  | w0 :: rest =>
    match Len.ofL (w0.extractLsb' 0 2).toNat with
    | none => .error .shortLength
    | some len =>
      match rest with
      | [] => .error .missingWords
      | w1 :: imms =>
        let major := (w0.extractLsb' 8 8).toNat
        let minor := (w1.extractLsb' 21 3).toNat
        if imms.length < len.words - 2 then .error .missingWords
        else if 0xC0 ≤ major ∧ major < 0xE0 then .error .unimplemented
        else if major = 5 ∧ minor = 0 ∧ len = .two then decodeRep w0 w1
        else match opcode major minor with
          | none => .error .unassigned
          | some mk =>
            let f := fieldsOf len w0 w1 (immOf (imms.take (len.words - 2)))
            if (mk f).fieldsOk f then .ok (mk f) else .error .badFields

/-- R185: every encoding has a fate. -/
def decodeFate (ws : List Word) : Instr :=
  match decode ws with
  | .ok i => i
  | .error .unimplemented => .unimplementedEncoding ⟨ws⟩
  | .error _ => .illegalEncoding ⟨ws⟩

def Len.toL : Len → BitVec 2
  | .two => 1
  | .three => 2
  | .four => 3

/-- R174: the first two words of an instruction of the common layout. -/
def word0 (major : BitVec 8) (f : Fields) : Word :=
  f.sa ++ f.dst ++ major ++ BitVec.ofBool f.gneg ++ f.gp ++ BitVec.ofBool f.trans ++ BitVec.ofBool f.mark ++ f.len.toL

def word1 (minor : BitVec 3) (f : Fields) : Word := f.mod ++ f.cls ++ minor ++ f.typ ++ f.sc ++ f.sb

/-- The immediate words of the length. -/
def immWords (f : Fields) : List Word :=
  match f.len with
  | .two => []
  | .three => [f.imm.extractLsb' 0 32]
  | .four => [f.imm.extractLsb' 0 32, f.imm.extractLsb' 32 32]

/-- R182: the words of a repeat prefix. -/
def encodeRep (r : RepFields) : List Word :=
  [r.sta ++ r.std ++ 0x05#8 ++ 0x71#8, r.cnt ++ 0#10 ++ r.stc ++ r.stb]

/-- The words of a well-formed instruction (none for a happening). -/
def encode (i : Instr) : List Word :=
  match i with
  | .rep r => encodeRep r
  | .illegalEncoding x | .unimplementedEncoding x => x.words
  | _ =>
    match i.fields?, i.key with
    | some f, some (major, minor) =>
        word0 (BitVec.ofNat 8 major) f :: word1 (BitVec.ofNat 3 minor) f :: immWords f
    | _, _ => []

/-- The words of an instruction whose bits are `w`, `n` words long; the first word holds the lowest bits. -/
def wordsOf (n w : Nat) : List Word :=
  match n with
  | 0 => []
  | k + 1 => BitVec.ofNat 32 w :: wordsOf k (w / 2 ^ 32)

/-- R7, R171: the words that the table's bits stand for, four words with every bit above `nbits` 0. -/
def tableWords (nbits w : Nat) : List Word := wordsOf 4 (w % 2 ^ nbits)

/-- What the decoder reads from an opcode-table word: an instruction or the fate of R185. -/
def decodeTableWord (nbits w : Nat) : Option Instr :=
  if nbits = 0 then none else some (decodeFate (tableWords nbits w))

end Sys2Proof
end

