-- ==== Sys2Proof/Machine/Regs.lean ====
section
/-! DEFINITION. The registers of an issuing fragment: reading them through the forwarding window (R82, R83),
the two values of an unlive register (R55), and writing results. -/

namespace Sys2Proof.Machine

/-- What an instruction in issue sees: its team and fragment as they stood, the launch, and the free values'
counter. -/
structure Env where
  tm : Team
  fr : Frag
  ln : Launch
  pc : Nat
  words : List Word
  free : Nat
  pace : Option Nat := none
  deriving DecidableEq, Repr, Inhabited

/-- The issuing fragment of the state, if `cur` names one. -/
def State.env? (s : State) : Option Env :=
  match s.team? s.cur.team with
  | none => none
  | some tm =>
    match tm.frag? s.cur.frag with
    | none => none
    | some fr =>
      match s.launch? tm.launch with
      | none => none
      | some ln => some { tm, fr, ln, pc := s.cur.pc, words := s.cur.words, free := s.free, pace := s.cur.pace }

def Env.hdr (e : Env) : Header := e.ln.hdr
def Env.wp (e : Env) : Warp := e.tm.warp e.fr.warp
def Env.t (e : Env) : Nat := e.tm.id
def Env.g (e : Env) : Nat := e.fr.id

/-- The core that issues (R33) and its die. -/
def Env.core (e : Env) : Nat := warpCore e.hdr e.ln.t e.tm.core e.fr.warp
def Env.die (e : Env) : Nat := dieOfCore e.core

/-- R197: the active set, in rank order. Exited threads leave their fragment. -/
def Env.active (e : Env) : List Member := e.fr.mem

/-- R48: is the fragment a group of a reform region? -/
def Env.region (e : Env) : Bool := e.fr.grp.isSome

/-- R77, R56: does the fragment hold every non-exited thread of its warp, outside a region? -/
def Team.liveOf (tm : Team) (h : Header) (w : Nat) : List Nat :=
  (List.range h.lanes).filterMap fun l =>
    let tid := w * h.lanes + l
    match tm.threads[tid]? with
    | some th => if th.exited || th.child then none else some tid
    | none => none

def Env.whole (e : Env) : Bool :=
  !e.region && (e.tm.liveOf e.hdr e.fr.warp).all fun tid => e.fr.mem.any fun m => m.tid == tid

/-- R54, R265: the population of the issuing group. -/
def Env.pop (e : Env) : Nat := e.fr.mem.length

/-! ## Forwarding -/

/-- R83: the forwarded value of a register, from the latest entry that holds one. -/
def forwarded (win : List WindowEntry) (c : RegClass) (tid r : Nat) : Option Word :=
  match win with
  | [] => none
  | x :: rest =>
    if x.valid && x.cls == c then
      match x.fwd.find? fun y => y.tid == tid && y.reg == r with
      | some y => some y.val
      | none => forwarded rest c tid r
    else forwarded rest c tid r

/-- A write of a register withdraws older forwarded values of it. -/
def withdraw (win : List WindowEntry) (c : RegClass) (tid r : Nat) : List WindowEntry :=
  win.map fun x => if x.cls == c then { x with fwd := x.fwd.filter fun y => !(y.tid == tid && y.reg == r) } else x

/-- R52: is a vector register in the thread's live set, or has it been written since the group was drawn (R55)? -/
def Thread.readable (th : Thread) (r : Nat) : Bool :=
  th.live.toNat.testBit (r / 8) || th.liveX.contains r || th.fresh.contains r

/-- R52, R55: may a write of `r` by this member reach its registers? -/
def Thread.keeps (th : Thread) (m : Member) (r : Nat) : Bool :=
  !m.reloc || th.live.toNat.testBit (r / 8) || th.liveX.contains r

/-- R55: the choice for one read of an unlive register. -/
def unliveChoice (free tid r : Nat) (v : Word) : Word :=
  if Config.unliveKeeps ((free * 2 ^ 24 + tid) * 256 + r) then v else 0

/-- R83, R55: what a thread of the fragment reads in vector register `r`. -/
def Env.v (e : Env) (tid r : Nat) : Word :=
  match forwarded e.fr.win .vector tid r with
  | some x => x
  | none =>
    let th := e.tm.thread tid
    let x := th.v.getD r 0
    if e.region && !th.child && !th.readable r then unliveChoice e.free tid r x else x

/-- R84, R457: the transient value of a uniform register that a fragment in its trap routine entered with. -/
def Frag.keptUni (fr : Frag) (r : Nat) : Option Word :=
  if fr.priv then (fr.keptW.find? fun y => y.reg == r).map (·.val) else none

/-- R83: what the fragment reads in uniform register `r` of its warp. -/
def Env.w (e : Env) (r : Nat) : Word :=
  match forwarded e.fr.win .uniform 0 r with
  | some x => x
  | none => (e.fr.keptUni r).getD (e.wp.w.getD r 0)

/-- R76, R83: a predicate of a thread; p7 is true. -/
def Env.p (e : Env) (tid r : Nat) : Bool :=
  if r = 7 then true
  else match forwarded e.fr.win .predicate tid r with
    | some x => x != 0
    | none => (e.tm.thread tid).p.getD r false

/-- R175: the guard of a thread. -/
def Env.guard (e : Env) (f : Fields) (tid : Nat) : Bool := e.p tid f.gp.toNat != f.gneg

/-- R197: T, in rank order. -/
def Env.T (e : Env) (f : Fields) : List Member := e.active.filter fun m => e.guard f m.tid
def Env.F (e : Env) (f : Fields) : List Member := e.active.filter fun m => !e.guard f m.tid

/-- R83: is a register expired for the reader? -/
def Env.expired (e : Env) (c : RegClass) (tid r : Nat) : Bool :=
  (forwarded e.fr.win c tid r).isNone &&
    match c with
    | .vector => (e.tm.thread tid).vx.contains r
    | .predicate => r < 7 && (e.tm.thread tid).px.contains r
    | .uniform => (e.fr.keptUni r).isNone && e.wp.wx.contains r
    | .accumulator => false

/-! ## Operands -/

def wide (lo hi : Word) : DWord := hi ++ lo
def DWord.lo (d : DWord) : Word := d.setWidth 32
def DWord.hi (d : DWord) : Word := (d >>> 32).setWidth 32

/-- R176: a source of the vector or uniform class, as the thread reads it. -/
def Env.reg (e : Env) (uni : Bool) (tid r : Nat) : Word := if uni then e.w r else e.v tid r
def Env.reg2 (e : Env) (uni : Bool) (tid r : Nat) : DWord := wide (e.reg uni tid r) (e.reg uni tid (r + 1))

def Fields.du (f : Fields) : Bool := f.cls.getLsbD 0
def Fields.au (f : Fields) : Bool := f.cls.getLsbD 1
def Fields.bu (f : Fields) : Bool := f.cls.getLsbD 2
def Fields.cu (f : Fields) : Bool := f.cls.getLsbD 3

/-- The operands A, B and C of 32 and of 64 bits; IMM32 stands for B in the longer form (R177). -/
def Env.a (e : Env) (f : Fields) (tid : Nat) : Word := e.reg (Fields.au f) tid f.sa.toNat
def Env.b (e : Env) (f : Fields) (tid : Nat) : Word :=
  if f.len = .two then e.reg (Fields.bu f) tid f.sb.toNat else f.imm32
def Env.c (e : Env) (f : Fields) (tid : Nat) : Word := e.reg (Fields.cu f) tid f.sc.toNat
def Env.a2 (e : Env) (f : Fields) (tid : Nat) : DWord := e.reg2 (Fields.au f) tid f.sa.toNat
def Env.c2 (e : Env) (f : Fields) (tid : Nat) : DWord := e.reg2 (Fields.cu f) tid f.sc.toNat

/-- R176: a predicate source with its negation. -/
def Env.psrc (e : Env) (tid : Nat) (x : BitVec 8) : Bool := e.p tid (x.toNat % 8) != x.getLsbD 7

/-! ## Results -/

/-- What an instruction writes through DST: words or a predicate per thread, or uniform words (R84). -/
inductive Res where
  | none
  | v (xs : List (Nat × List Word))
  | w (ws : List Word)
  | p (xs : List (Nat × Bool))
  deriving DecidableEq, Repr, Inhabited

/-- Pairs the registers from `r` on with words. -/
def numbered (r : Nat) (ws : List Word) : List (Nat × Word) :=
  match ws with
  | [] => []
  | x :: l => (r, x) :: numbered (r + 1) l

/-- The element of a list paired with a number. -/
def lookup {α : Type} (n : Nat) (l : List (Nat × α)) : Option α := (l.find? fun x => x.1 == n).map Prod.snd

/-- Writes one vector register of a thread into its bank and clears its expired state (R83). -/
def Thread.setV (th : Thread) (r : Nat) (x : Word) : Thread :=
  { th with v := setNth r x th.v, vx := th.vx.filter (· != r), fresh := insertNat r th.fresh }

def Thread.setP (th : Thread) (r : Nat) (x : Bool) : Thread :=
  { th with p := setNth r x th.p, px := th.px.filter (· != r) }

def Warp.setW (wp : Warp) (r : Nat) (x : Word) : Warp :=
  { wp with w := setNth r x wp.w, wx := wp.wx.filter (· != r) }

/-- A transient write leaves the bank and makes the register expired outside the window (R83). -/
def Thread.transV (th : Thread) (r : Nat) : Thread := { th with vx := insertNat r th.vx, fresh := insertNat r th.fresh }
def Thread.transP (th : Thread) (r : Nat) : Thread := { th with px := insertNat r th.px }
def Warp.transW (wp : Warp) (r : Nat) : Warp := { wp with wx := insertNat r wp.wx }

/-- R55, R83: writes registers `rs` of one member's thread, in the banks or only for forwarding. -/
def Team.putV (tm : Team) (k : Bool) (m : Member) (rs : List (Nat × Word)) : Team :=
  tm.modThread m.tid fun th =>
    rs.foldl (fun th x => if th.keeps m x.1 then (if k then th.transV x.1 else th.setV x.1 x.2) else th) th

/-- R76: p7 takes no write. -/
def Team.putP (tm : Team) (k : Bool) (tid r : Nat) (x : Bool) : Team :=
  if r < 7 then tm.modThread tid fun th => if k then th.transP r else th.setP r x else tm

def Team.putW (tm : Team) (k : Bool) (w : Nat) (rs : List (Nat × Word)) : Team :=
  tm.modWarp w fun wp => rs.foldl (fun wp x => if k then wp.transW x.1 else wp.setW x.1 x.2) wp

/-- The forwarded values of a transient result (R83). -/
def Res.fwds (r : Res) (d : Nat) (mem : List Member) (tm : Team) : List Forwarded :=
  match r with
  | .none => []
  | .v xs => xs.flatMap fun x =>
      match mem.find? fun m => m.tid == x.1 with
      | Option.some m => (numbered d x.2).filterMap fun y =>
          if (tm.thread x.1).keeps m y.1 then Option.some { tid := x.1, reg := y.1, val := y.2 } else Option.none
      | Option.none => []
  | .w ws => (numbered d ws).map fun y => { tid := 0, reg := y.1, val := y.2 }
  | .p xs => if d < 7 then xs.map fun x => { tid := x.1, reg := d, val := BitVec.ofNat 32 (bit x.2) } else []

/-- The registers that a result writes, by class and thread. -/
def Res.targets (r : Res) (d : Nat) : List (RegClass × Nat × Nat) :=
  match r with
  | .none => []
  | .v xs => xs.flatMap fun x => (numbered d x.2).map fun y => (.vector, x.1, y.1)
  | .w ws => (numbered d ws).map fun y => (.uniform, 0, y.1)
  | .p xs => xs.map fun x => (.predicate, x.1, d)

/-- R83, R84: writes a result through DST `d`, transient or not, of a fragment whose members are `mem`. -/
def Team.putRes (tm : Team) (w : Nat) (mem : List Member) (k : Bool) (d : Nat) (r : Res) : Team :=
  match r with
  | .none => tm
  | .v xs => mem.foldl (fun tm m => match lookup m.tid xs with
      | some ws => tm.putV k m (numbered d ws)
      | none => tm) tm
  | .w ws => tm.putW k w (numbered d ws)
  | .p xs => xs.foldl (fun tm x => tm.putP k x.1 d x.2) tm

/-- The window after the writes of a result (R83). -/
def withdrawAll (win : List WindowEntry) (l : List (RegClass × Nat × Nat)) : List WindowEntry :=
  l.foldl (fun w x => withdraw w x.1 x.2.1 x.2.2) win

/-- R82: the window with one more position. -/
def pushWindow (win : List WindowEntry) (x : WindowEntry) : List WindowEntry := (x :: win).take 8

end Sys2Proof.Machine
end

