-- ==== Sys2Proof/Machine/Access.lean ====
section
/-! DEFINITION. Accesses of threads to memory: address formation (R91 to R95, R250), every check before any access
(R251), the L1 and read-only caches (R104 to R106), stores and read-modify-writes, and what speculation and
transactions make of them (R146 to R148, R261). -/

namespace Sys2Proof.Machine

def Env.pf (e : Env) : Nat := e.ln.pf
def Env.ctx (e : Env) (s : State) : Nat := (s.queue e.ln.pf e.ln.q).ctx

def Env.who (e : Env) (s : State) : Who :=
  { pf := e.pf, ctx := e.ctx s, die := e.die, by_ := e.g, team := e.t, walks := e.fr.walked, core := some e.core }

/-- The page that an address waits for with a cause: of a spread page each chunk stands on a die of its own (R96). -/
def boundKey (va cause : Nat) : Nat := if cause = 0x90 then va / 16384 else va / 65536

/-- The cause of a wait for an address that has timed out (R472, R500). -/
def Env.timedOut (e : Env) (va : Nat) : Option Nat := (e.fr.bounds.find? fun x => x.1 == boundKey va x.2.1 && x.2.2 == 0).map (·.2.1)

/-- R378: has a request of the instruction to another die timed out? All of them went out together. -/
def Env.remoteOver (e : Env) : Bool := e.fr.bounds.any fun x => x.2.1 == 0x90 && x.2.2 == 0

/-- The end of a wait for a page, which lasts `bound` from its beginning. -/
def Env.waitEnd (e : Env) (s : State) (va cause bound : Nat) : Nat :=
  match e.fr.bounds.find? fun x => x.1 == boundKey va cause && x.2.1 == cause with
  | some x => x.2.2
  | none => (s.die e.die).time + bound

/-- No address: what a phaser instruction waits for (R500). -/
def noVa : Nat := 2 ^ 56

/-- R472, R378: the waits for a frame and for another die. -/
def Env.poolWait (e : Env) (s : State) (va : Nat) : Wait := .pool va (e.waitEnd s va 0x47 s.limits.poolWait)
def Env.dieWait (e : Env) (s : State) (va : Nat) : Wait := .remote va (e.waitEnd s va 0x90 s.limits.crossDie)

/-- A translation for the instruction in issue. -/
def Env.translate (e : Env) (s : State) (va : Nat) (k : Access) : Xlate :=
  match e.timedOut va with
  | some cause => .fault s cause
  | none => match s.translate (e.who s) va k (placementEvent e.pf (e.ctx s) e.die va) with
    | .remote => if e.remoteOver then .fault s 0x90 else .remote
    | x => x

/-! ## Counting (R358) -/

/-- R358: counts an event of a replayed grid on a core. -/
def State.count (s : State) (l core ev n : Nat) : State :=
  if (s.launchOf l).replay.isSome then
    s.modCore core fun k =>
      { k with pmc := (List.range 4).map fun i => (k.pmc.getD i 0 + if k.sel.getD i 0 == ev then n else 0) % 2 ^ 64 }
  else s

/-! ## Where a thread's access goes -/

/-- R91, R92: a virtual address or an offset in an on-chip space (2 `.p`, 3 `.s`, 4 `.c`, 5 `.d`). -/
inductive Target where
  | va (a : Nat)
  | off (space o : Nat)
  deriving DecidableEq, Repr

/-- R250: address formation: the target, or cause 0x30 or 0x31 with what ADDR records. -/
def formAddress (space : Nat) (base : Nat) (off : Int) : Except (Nat × Nat) Target :=
  let x : Int := base + off
  let seen := (x % (2 ^ 64 : Int)).toNat
  if space < 2 then
    if x < 0 ∨ x ≥ 2 ^ 56 then .error (0x30, seen)
    else
      let a := x.toNat
      if a / 2 ^ 48 ≠ 255 then .ok (.va a)
      else if space = 1 then .error (0x30, seen)
      else if a / 2 ^ 32 % 2 ^ 12 ≠ 0 ∨ a / 2 ^ 44 % 16 > 3 then .error (0x30, seen)
      else .ok (.off (a / 2 ^ 44 % 16 + 2) (a % 2 ^ 32))
  else if x < 0 then .error (0x31, seen)
  else .ok (.off space x.toNat)

/-- The place of a spot. -/
def Spot.place : Spot → Nat
  | .dram p _ _ _ _ => p
  | .host p => p
  | .chip _ p => p
  | .far c o => placeScratch c (o % scratchBytes)

/-- What the check of one thread's access ends in. -/
inductive Found where
  | ok (s : State) (x : Spot)
  | fault (s : State) (cause addr : Nat)
  | wait (s : State) (kind : Nat) (va request : Nat)
  | bad (place : Nat)

/-- The kinds of access that the checks tell apart: `host` says that a host page serves it (R139), `exact` that it
must lie in the exact window (R117), `len` the bytes that a piece of a block reads (R292). -/
structure Need where
  write : Bool
  load : Bool
  host : Bool
  exact : Bool
  size : Nat
  len : Nat := 0
  deriving DecidableEq, Repr

/-- R117: does the team's window hold an address? -/
def inWindow (rxwin : DWord) (va : Nat) : Bool :=
  rxwin.getLsbD 63 &&
    (let size := 2 ^ (rxwin.toNat / 2 ^ 56 % 16 + 8)
     let base := 2 ^ 8 * (rxwin.toNat / 2 ^ 8 % 2 ^ 48)
     base ≤ va && va < base + size)

/-- R94: the peer of a `.c` access on a core: the resident team of the grid with the lowest number there; a team that is
being saved still counts (DESIGN CHOICE, log entry 122). -/
def State.peer (s : State) (launch core : Nat) : Option Team :=
  (s.teams.filter fun t => t.launch == launch && t.core == core).foldl (fun best t => match best with
    | none => some t
    | some b => if t.num < b.num then some t else some b) none

/-- R93 to R95, R114: an offset in an on-chip space. A `.c` store to a core that is neither the issuing one nor its own team's
meets its peer and its owner bit as it arrives; any other access of an engine's granule traps precisely (log entry 72). -/
def Env.locateOff (e : Env) (s : State) (n : Need) (tid space o : Nat) : Found :=
  let tm := s.team e.t
  let own := (e.hdr.granules e.ln.t)
  let owned (t : Team) (x : Nat) : Bool := t.owned.contains (x / 1024)
  match space with
  | 2 =>
    if (tm.thread tid).child || o ≥ 16 * e.hdr.priv then .fault s 0x31 o
    else if o % n.size ≠ 0 then .fault s 0x32 o
    else .ok s (.chip 2 (placeScratch tm.core (1024 * tm.base + 1024 * e.hdr.scratch + 16 * e.hdr.priv * tid + o)))
  | 3 =>
    if o ≥ 1024 * e.hdr.scratch then .fault s 0x31 o
    else if o % n.size ≠ 0 then .fault s 0x32 o
    else if owned tm o then .fault s 0x34 o
    else .ok s (.chip 3 (placeScratch tm.core (1024 * tm.base + o)))
  | 4 =>
    let core := clusterOfCore e.core * 4 + o / scratchBytes
    let x := o % scratchBytes
    if o ≥ 4 * scratchBytes then .fault s 0x31 o
    else match s.peer e.ln.id core with
      | none => .fault s 0x31 o
      | some peer =>
        if x ≥ 1024 * own then .fault s 0x31 o
        else if o % n.size ≠ 0 then .fault s 0x32 o
        else
          if n.write && !n.load && core ≠ e.core && peer.id ≠ e.t then .ok s (.far core o)
          else if owned peer x then .fault s 0x34 o
          else .ok s (.chip 4 (placeScratch core (1024 * peer.base + x)))
  | _ =>
    let c := s.ctx e.pf (e.ctx s)
    if o ≥ 65536 * c.dsp then .fault s 0x31 o
    else if o % n.size ≠ 0 then .fault s 0x32 o
    else .ok s (.chip 5 (placeDieScratch e.die (65536 * c.dspBase + o)))

/-- R250, R251: the checks of one thread's access, in the order of R186. -/
def Env.locate (e : Env) (s : State) (n : Need) (space tid base : Nat) (off : Int) : Found :=
  match formAddress space base off with
  | .error (c, a) => .fault s c a
  | .ok (.off sp o) =>
    if n.exact then .fault s 0x36 ((base + off) % (2 ^ 64 : Int)).toNat else e.locateOff s n tid sp o
  | .ok (.va va) =>
    if n.exact && !inWindow (s.team e.t).rxwin va then .fault s 0x36 va
    else match e.translate s va (if n.write && n.load then .update else if n.write then .write else .read) with
      | .fault s c => .fault s c va
      | .walk => .wait s 0 va 0
      | .pool s => .wait s 1 va 0
      | .asked s r => .wait s 2 va r
      | .remote => .wait s 3 va 0
      | .bad p => .bad p
      | .ok s place ord pb ps =>
        if space = 1 && !isHost place then .fault s 0x33 va
        else if va % n.size ≠ 0 then .fault s 0x32 va
        else if isHost place then
          if !n.host then .fault s 0x35 va
          else match if n.load then s.hostErr place (max n.size n.len) else none with
            | some p => .fault s 0x38 (va + (p - place) / 8 * 8)
            | none => .ok s (.host place)
        else .ok s (.dram place ord pb ps va)

/-- What the checks of a whole instruction found: the state with its A and D updates, the spots in rank order, the
failing threads, the first wait and an uncorrectable word. -/
structure Checks where
  s : State
  spots : List (Member × Spot)
  faults : List (Nat × Nat × Nat)
  wait : Option (Nat × Nat × Nat)
  bad : Option Nat

/-- R251: the checks of every thread, in rank order, before any access. -/
def Env.locateAll (e : Env) (s : State) (n : Need) (space : Nat) (base : Member → Nat) (off : Int) :
    List Member → Checks
  | [] => { s, spots := [], faults := [], wait := none, bad := none }
  | m :: ms =>
    match e.locate s n space m.tid (base m) off with
    | .ok s x =>
      let c := e.locateAll s n space base off ms
      { c with spots := (m, x) :: c.spots }
    | .fault s cause a =>
      let c := e.locateAll s n space base off ms
      { c with faults := (m.rank, cause, a) :: c.faults }
    | .wait s k va r => { s, spots := [], faults := [], wait := some (k, va, r), bad := none }
    | .bad p => { s, spots := [], faults := [], wait := none, bad := some p }

/-! ## Transactions' conflicts (R148, R477) -/

def TxLine (place : Nat) : Nat := place / 128

/-- R148: does another transaction hold the line against this transactional access? -/
def State.held (s : State) (t w place : Nat) (write : Bool) : Bool :=
  let line := place / 128
  s.teams.any fun tm => (List.range tm.warps.length).any fun i =>
    !(tm.id == t && i == w) &&
      match (tm.warp i).mode with
      | .transactional x => x.writes.contains line || (write && x.reads.contains line)
      | _ => false

/-! ## Caches -/

/-- R104: the L1 data of a place, if the core holds its sector. -/
def Core.l1Find (k : Core) (place n : Nat) : Option (List Byte) :=
  (lookup (place / 32) k.l1).map fun d => (d.drop (place % 32)).take n

/-- R104: a store updates a sector that the L1 holds. -/
def patch (d : List Byte) (i : Nat) (bs : List Byte) : List Byte := d.take i ++ bs ++ d.drop (i + bs.length)

def Core.l1Patch (k : Core) (place : Nat) (bs : List Byte) : Core :=
  { k with l1 := k.l1.map fun x => if x.1 == place / 32 then (x.1, patch x.2 (place % 32) bs) else x }

/-- R146, R147: lines of a core's L1 go. A speculator there that has read one keeps it in its overflow signature alone. -/
def State.untag (s : State) (core : Nat) (p : Nat → Bool) : State :=
  { s with teams := s.teams.map fun tm =>
      if tm.core == core || tm.core + 1 == core then
        let ln := s.launchOf tm.launch
        { tm with warps := tm.warps.zipIdx.map fun y => match y.1.mode with
            | .speculative x =>
              if warpCore ln.hdr ln.t tm.core y.2 == core && x.reads.any p then { y.1 with mode := .speculative { x with evicted := true } } else y.1
            | _ => y.1 }
      else tm }

/-- R105: every line of a core's L1 is invalidated. -/
def State.dropL1 (s : State) (core : Nat) : State :=
  (s.modCore core fun k => { k with l1 := [] }).untag core fun _ => true

/-- One line leaves a core's L1. -/
def State.dropLine (s : State) (core line : Nat) : State :=
  (s.modCore core fun k => { k with l1 := k.l1.filter fun x => x.1 / 4 != line }).untag core (· == line)

/-- R104: the lines that stand in the set of a line: 1,024 lines in 128 sets of eight ways (log entry 73). -/
def Core.l1Set (k : Core) (line : Nat) : List Nat :=
  (dedup (k.l1.map fun x => x.1 / 4)).filter fun x => x % 128 == line % 128

/-- R104: a line whose set is full takes the place of one that the core chooses. -/
def State.l1Room (s : State) (core line : Nat) : State :=
  let set := (s.core core).l1Set line
  if set.contains line || set.length < 8 then s
  else s.dropLine core (set.getD (Config.pick (s.free * 2 ^ 40 + line) % 8) 0)

/-- R104: the L1 takes the sector of a place. -/
def State.l1Fill (s : State) (core place : Nat) : State :=
  let sec := place / 32
  (s.l1Room core (sec / 4)).modCore core fun k => { k with l1 := (sec, s.mem.bytes (32 * sec) 32) :: k.l1.filter fun x => x.1 != sec }

/-- A load of RC or UO device memory through the L1, which fills by sector (R104). -/
def State.l1Load (s : State) (l core place n : Nat) : State × List Byte :=
  match (s.core core).l1Find place n with
  | some d => (s, d)
  | none => ((s.count l core 0x0A 1).l1Fill core place, s.mem.bytes place n)

/-- R106: the data of a line that a core's read-only cache holds. A team that came to the core at `since` takes no line from it that
was loaded before: a thread of it may have executed `CCTL.RO` elsewhere (R149, log entry 111). -/
def State.roFind (s : State) (core since pf ctx va : Nat) : Option (List Byte) :=
  ((s.core core).ro.find? fun x => x.pf == pf && x.ctx == ctx && x.line == va / 128 && since ≤ x.filled).map (·.data)

/-- R482: the uncorrectable word that a fill of the read-only cache meets, the one asked for first. -/
def State.lineBad (s : State) (core since pf ctx place va : Nat) : Option Nat :=
  let other := 128 * (place / 128) + 64 * ((place / 64 + 1) % 2)
  if (s.roFind core since pf ctx va).isSome then none
  else if s.isBad place then some place
  else if s.isBad other then some other
  else none

/-- R106: a load through the read-only cache, which fills by line and holds 512. What the L1 holds of the line becomes no older than
what the load returns (R125). -/
def State.roLoad (s : State) (l core since pf ctx place va n : Nat) : State × List Byte :=
  match s.roFind core since pf ctx va with
  | some d => (s, (d.drop (va % 128)).take n)
  | none =>
    let x : RoLine := { pf, ctx, line := va / 128, data := s.mem.bytes (128 * (place / 128)) 128, filled := s.fresh }
    let other (y : RoLine) : Bool := !(y.pf == pf && y.ctx == ctx && y.line == va / 128)
    let fresh (y : Nat × List Byte) : Nat × List Byte := if y.1 / 4 == place / 128 then (y.1, s.mem.bytes (32 * y.1) 32) else y
    ((s.count l core 0x0A 1).modCore core fun k => { k with ro := x :: makeRoom 512 (s.free * 2 ^ 40 + va) (k.ro.filter other), l1 := k.l1.map fresh }
     , s.mem.bytes place n)

/-- R255, R358: the teams of the collector's requests for a line that an earlier request asks for, each of which merges with it. -/
def mergedOf : (lines : List Nat) → List (Nat × Nat) → List Nat
  | _, [] => []
  | lines, x :: l => if lines.contains x.2 then x.1 :: mergedOf lines l else mergedOf (x.2 :: lines) l

/-- R255: a core's collector sends its requests, one for each line; groups that wait for room issue again. -/
def State.sendCollector (s : State) (core : Nat) : State :=
  let s := (mergedOf [] (s.core core).collector).foldl (fun s t => s.count (s.team t).launch core 0x0B 1) s
  (s.modCore core fun k => { k with collector := [] }).wakeOn core .collector

/-- R255: does a core's collector take so many lane requests more? -/
def State.collects (s : State) (core n : Nat) : Bool := (s.core core).collector.length + n ≤ 512

def State.collect (s : State) (core t : Nat) (places : List Nat) : State :=
  s.modCore core fun k => { k with collector := k.collector ++ places.map fun p => (t, p / 128) }

/-! ## Late reports (R453) -/

/-- R453, R456: the late report that a fragment's threads await, the oldest of the lowest rank first. Its mask names every
member whose store of that instruction was refused. -/
def Team.late (tm : Team) (g : Nat) : Option TrapInfo :=
  let fr := tm.frag g
  match fr.mem.find? fun m => !(tm.thread m.tid).late.isEmpty with
  | none => none
  | some m => ((tm.thread m.tid).late.head?).map fun x =>
    { x with
      frank := m.rank
      fmask := maskOf ((fr.mem.filter fun y => (tm.thread y.tid).late.any fun z => z.spc == x.spc && z.cause == x.cause).map (·.rank)) }

/-- A report is taken: it leaves the threads that it names. -/
def Team.dropLate (tm : Team) (g : Nat) (x : TrapInfo) : Team :=
  (tm.frag g).mem.foldl (fun tm m => tm.modThread m.tid fun th =>
    { th with late := th.late.eraseP fun z => z.spc == x.spc && z.cause == x.cause }) tm

/-! ## Far stores (R94, R114, R115) -/

/-- The late report of a refused store (R453): taken later, at the store's address. -/
def lateInfo (x : FarStore) (cause : Nat) : TrapInfo :=
  { cause, tcode := 0, addr := x.off, spc := x.pc, fmask := 0, frank := 0, late := true, words := x.words }

def State.refuse (s : State) (x : FarStore) (cause : Nat) : State :=
  s.modTeam x.team fun tm => tm.modThread x.tid fun th => { th with late := th.late ++ [lateInfo x cause] }

/-- R147: a warp's stores since the launch, and since its last arrival on each phaser. -/
def Warp.noteStore (wp : Warp) (place : Nat) : Warp :=
  { wp with stored := insertNat (place / 128) wp.stored, logs := wp.logs.map fun r => (r.1, insertNat (place / 128) r.2) }

/-- R94, R115: a `.c` store reaches its core: it is applied to the granule of the peer there, or refused when an engine owns
the granule or no peer has it. -/
def State.arriveFar (s : State) (x : FarStore) : State :=
  let ln := s.launchOf (s.team x.team).launch
  let o := x.off % scratchBytes
  match s.peer ln.id x.core with
  | none => s.refuse x 0x31
  | some p =>
    let place := placeScratch x.core (1024 * p.base + o)
    if ln.hdr.scratchSize ln.t ≤ o then s.refuse x 0x31
    else if p.owned.contains (o / 1024) then s.refuse x 0x34
    else (s.poke place x.data).modWarp x.team ((s.team x.team).warpOf ln.hdr x.tid) fun wp => wp.noteStore place

/-- Every far store that satisfies a test arrives, oldest first. -/
def State.deliver (s : State) (p : FarStore → Bool) : State :=
  let xs := s.far.filter p
  xs.foldl State.arriveFar { s with far := s.far.filter fun x => !p x }

/-- The far stores of a fragment's threads arrive before their later stores perform (R127). -/
def State.deliverFrag (s : State) (t g : Nat) : State :=
  if s.far.isEmpty then s
  else
    let mem := ((s.team t).frag g).mem
    s.deliver fun x => x.team == t && mem.any fun m => m.tid == x.tid

/-! ## Performing -/

def spotOrd : Spot → Nat
  | .dram _ o _ _ _ => o
  | _ => 0

/-- A store of launch `l` that performs now, by a thread of warp `w`: conflicts, capture, memory, the issuing core's L1. A store
that a replay's capture area has no room for is not performed, nor is any other of its pass after it (R447). -/
def State.performStore (s : State) (pf ctx l core t w : Nat) (x : Spot) (bs : List Byte) : State :=
  let (s, may) := match x with
    | .dram p _ pa ps _ => (s.conflict p true).capture pf ctx pa ps p bs.length
    | _ => (s, true)
  if !may || s.overflowed l then s
  else
    let s := s.poke x.place bs
    let s := match x with
      | .dram p _ _ _ _ => s.modCore core fun k => k.l1Patch p bs
      | _ => s
    s.modWarp t w fun wp => wp.noteStore x.place

/-- The buffered stores of the issuing warp. -/
def Warp.buf (wp : Warp) : List Host.Cell :=
  match wp.mode with
  | .normal => []
  | .speculative x => x.buf
  | .transactional x => x.buf

/-- A warp reads its own buffered stores (R145). -/
def overlay (buf : List Host.Cell) (place : Nat) : List Byte → List Byte
  | [] => []
  | b :: bs => (bufFind buf place).getD b :: overlay buf (place + 1) bs

/-- R146 to R148: the warp's read set takes a line. -/
def Warp.noteRead (wp : Warp) (place : Nat) : Warp :=
  match wp.mode with
  | .normal => wp
  | .speculative x => { wp with mode := .speculative { x with reads := insertNat (place / 128) x.reads } }
  | .transactional x => { wp with mode := .transactional { x with reads := insertNat (place / 128) x.reads } }

/-- The page of a spot in device memory: its physical address and size. -/
def Spot.pageOf : Spot → Option (Nat × Nat)
  | .dram _ _ pa size _ => some (pa, size)
  | _ => none

/-- R147, R148: a store goes into the warp's buffer, with its page. -/
def Warp.buffer (wp : Warp) (x : Spot) (bs : List Byte) : Warp :=
  let add (l : List (Nat × Nat)) : List (Nat × Nat) := match x.pageOf with
    | some p => if l.contains p then l else p :: l
    | none => l
  match wp.mode with
  | .normal => wp
  | .speculative y => { wp with mode := .speculative { y with buf := bufPut y.buf x.place bs, pages := add y.pages } }
  | .transactional y =>
    let y := { y with buf := bufPut y.buf x.place bs, pages := add y.pages, writes := insertNat (x.place / 128) y.writes }
    { wp with mode := .transactional y }

/-- The lines that a warp's buffer would hold with more places stored to. -/
def Warp.bufLines (wp : Warp) (places : List Nat) : Nat :=
  (dedup ((wp.buf.map fun c => c.1 / 128) ++ places.map fun p => p / 128)).length

/-- R18, R146: the lines that the other speculators and transactions of a core hold in its speculation buffer. -/
def State.bufferedBeside (s : State) (core t w : Nat) : Nat :=
  (s.teams.map fun tm =>
    let ln := s.launchOf tm.launch
    (tm.warps.zipIdx.map fun x =>
      if warpCore ln.hdr ln.t tm.core x.2 == core && !(tm.id == t && x.2 == w) then x.1.bufLines [] else 0).sum).sum

/-- R145: does the L1 serve no load of a warp? A speculator of a pair team loads what it would load after the acquire that ends its
wait, which drops the lines that its core has filled before the other core's stores. -/
def Env.readsPast (e : Env) : WarpMode → Bool
  | .speculative _ => isPair e.ln.t
  | _ => false

/-- R358: the L1 sectors that the loads of an instruction hit and miss, each counted once. -/
def Env.countSectors (e : Env) (s : State) (ro : Bool) (l : List (Member × Spot)) : State :=
  let secs := dedup (l.filterMap fun y => match y.2 with
    | .dram p ord _ _ _ => if ord = 1 then none else some (p / 32)
    | _ => none)
  let skip := match ((s.team e.t).warp e.fr.warp).mode with
    | .transactional _ => true
    | .normal => ro
    | .speculative _ => false
  let past := e.readsPast ((s.team e.t).warp e.fr.warp).mode
  let hits := (secs.filter fun k => !past && ((s.core e.core).l1Find (32 * k) 1).isSome).length
  if skip then s else (s.count e.ln.id e.core 0x08 hits).count e.ln.id e.core 0x09 (secs.length - hits)

/-- R125: the L1 keeps no older value of a place than one that a load beside it has returned. -/
def State.refresh (s : State) (core place n : Nat) : State := s.modCore core fun k => k.l1Patch place (s.mem.bytes place n)

/-- The data of a sector leave a core's L1. -/
def State.dropSector (s : State) (core place : Nat) : State :=
  s.modCore core fun k => { k with l1 := k.l1.filter fun x => x.1 != place / 32 }

/-- One load's bytes, with the marks it leaves, or the bad word it met (R482). `ro` reads as `LDRO`. -/
def Env.load1 (e : Env) (s : State) (x : Spot) (n : Nat) (ro : Bool) : Except Nat (State × List Byte) :=
  let w := e.fr.warp
  let wp := (s.team e.t).warp w
  match x with
  | .dram p ord _ _ va =>
    match wp.mode with
    | .transactional _ =>
      if s.isBad p then .error p
      else
        let s := (s.modWarp e.t w fun wp => wp.noteRead p).refresh e.core p n
        .ok (s.count e.ln.id e.core 0x0A 1, overlay wp.buf p (s.mem.bytes p n))
    | _ =>
      let s := s.conflict p false
      let s := s.modWarp e.t w fun wp => wp.noteRead p
      let s := if e.readsPast wp.mode then s.dropSector e.core p else s
      if ord = 1 then
        if s.isBad p then .error p else .ok ((s.refresh e.core p n).count e.ln.id e.core 0x0A 1, overlay wp.buf p (s.mem.bytes p n))
      else if ro && wp.mode == .normal then
        match s.lineBad e.core e.tm.roSince e.pf (e.ctx s) p va with
        | some q => .error q
        | none => .ok (s.roLoad e.ln.id e.core e.tm.roSince e.pf (e.ctx s) p va n)
      else if ((s.core e.core).l1Find p n).isNone && s.isBad p then .error p
      else
        let r := s.l1Load e.ln.id e.core p n
        .ok (r.1, overlay wp.buf p r.2)
  | .host p => .ok (s, s.mem.bytes p n)
  | .chip _ p => .ok (s.modWarp e.t w fun wp => wp.noteRead p, overlay wp.buf p (s.mem.bytes p n))
  | .far c o => .ok (s, s.mem.bytes (placeScratch c (o % scratchBytes)) n)

/-- The loads of a list of spots, in rank order. -/
def Env.loadEach (e : Env) (s : State) (n : Nat) (ro : Bool) : List (Member × Spot) → Except Nat (State × List (Nat × List Byte))
  | [] => .ok (s, [])
  | (m, x) :: l =>
    match e.load1 s x n ro with
    | .error p => .error p
    | .ok (s, bs) =>
      match e.loadEach s n ro l with
      | .error p => .error p
      | .ok (s, r) => .ok (s, (m.tid, bs) :: r)

def Env.loadAll (e : Env) (s : State) (n : Nat) (ro : Bool) (l : List (Member × Spot)) : Except Nat (State × List (Nat × List Byte)) :=
  e.loadEach (e.countSectors s ro l) n ro l

/-- One thread's store: buffered, sent to another core, or performed. -/
def Env.store1 (e : Env) (s : State) (m : Member) (x : Spot) (bs : List Byte) : State :=
  let w := (s.team e.t).warpOf e.hdr m.tid
  match ((s.team e.t).warp e.fr.warp).mode with
  | .normal =>
    match x with
    | .far core off =>
      { s with far := s.far ++ [{ team := e.t, tid := m.tid, issue := e.free, pc := e.pc, off, core, data := bs, words := e.words }] }
    | .dram _ _ _ _ _ => (s.count e.ln.id e.core 0x0A 1).performStore e.pf (e.ctx s) e.ln.id e.core e.t w x bs
    | _ => s.performStore e.pf (e.ctx s) e.ln.id e.core e.t w x bs
  | .speculative _ => s.modWarp e.t e.fr.warp fun wp => wp.buffer x bs
  | .transactional _ => s.modWarp e.t e.fr.warp fun wp => wp.buffer x bs

/-- R253: the stores of an instruction, in rank order. -/
def Env.storeAll (e : Env) (s : State) (l : List (Member × Spot × List Byte)) : State :=
  l.foldl (fun s y => e.store1 s y.1 y.2.1 y.2.2) s

/-- R139, R253: one read-modify-write: the old bytes, and the state with the new ones. -/
def Env.rmw1 (e : Env) (s : State) (m : Member) (x : Spot) (n : Nat) (f : Nat → Nat) : Except Nat (State × Nat) :=
  let wp := (s.team e.t).warp e.fr.warp
  if (match x with | .dram p _ _ _ _ => s.isBad p | _ => false) then .error x.place
  else match wp.mode with
  | .transactional _ =>
    let old := leNat (overlay wp.buf x.place (s.mem.bytes x.place n))
    .ok (s.modWarp e.t e.fr.warp fun wp => (wp.noteRead x.place).buffer x (leBytes n (f old)), old)
  | _ =>
    let s := match x with
      | .dram p _ _ _ _ => (s.conflict p false).count e.ln.id e.core 0x0A 1
      | _ => s
    let old := s.mem.nat x.place n
    .ok (s.performStore e.pf (e.ctx s) e.ln.id e.core e.t ((s.team e.t).warpOf e.hdr m.tid) x (leBytes n (f old)), old)

def Env.rmwAll (e : Env) (s : State) (n : Nat) (f : Member → Nat → Nat) : List (Member × Spot) → Except Nat (State × List (Nat × Nat))
  | [] => .ok (s, [])
  | (m, x) :: l =>
    match e.rmw1 s m x n (f m) with
    | .error p => .error p
    | .ok (s, old) =>
      match e.rmwAll s n f l with
      | .error p => .error p
      | .ok (s, r) => .ok (s, (m.tid, old) :: r)

/-! ## Ordering (R105, R128, R129) -/

/-- R105: the L1 action of an acquire at a scope. -/
def Env.acquire (e : Env) (s : State) (scope : Nat) : State :=
  if scope ≥ 3 || (scope = 2 && isPair e.ln.t) then s.dropL1 e.core else s

/-- R105, R128: a release waits until the team's stores on this core are acknowledged. -/
def Env.release (e : Env) (s : State) : State := s.deliver fun x => x.team == e.t

/-- R253: has a fragment read-modify-writes of one instruction to come? -/
def Frag.midAtomic (fr : Frag) : Bool := match fr.st with
  | .waiting (.rmws _ _ _) => true
  | _ => false

/-- R105, R127: must a release of the team wait for read-modify-writes of an earlier `ATOM` or `RED`, which are stores too? -/
def Env.storesDue (e : Env) (s : State) : Bool := (s.team e.t).frags.any Frag.midAtomic

end Sys2Proof.Machine
end

