-- ==== Sys2Proof/Machine/Image.lean ====
section
/-! DEFINITION. The layout of the save area (R87, R345, R346): where sections, parts and warp records stand, and the
pieces of a frame (R455, R456). -/

namespace Sys2Proof.Machine

def roundUp (n k : Nat) : Nat := k * ((n + k - 1) / k)

/-- R87: the three register areas of a warp together. -/
def Header.areas (h : Header) : Nat := 32 * h.vgran * h.lanes + 32 * h.ugran + 64

/-- R346: the size of a warp record. -/
def Header.recordSize (h : Header) : Nat := roundUp (2 * h.areas + 3528 + 2 * (33 * h.lanes + 8)) 64

/-- R345: the sizes of the ten parts of a team section, before rounding. -/
def Header.parts (h : Header) (t : Nat) : List Nat :=
  [256, h.scratchSize t, 48, 128 + 16384 * h.accs, 1024, 48 * h.nodes, 640 + 160 * h.queues, 16,
   156160 + 136 * (t + 512) + 288 * min t 256, warpCount h t * h.recordSize]

/-- R345: the offset of a part within its team section, after the 256-byte directory. -/
def Header.partAt (h : Header) (t i : Nat) : Nat :=
  256 + (((h.parts t).take i).map fun n => roundUp n 256).sum

def Header.sectionSize (h : Header) (t : Nat) : Nat := h.partAt t 10

/-- R344, R345: the grid section follows the header; team sections follow it. -/
def gridSection : Nat := 67072
def Header.sectionAt (h : Header) (t k : Nat) : Nat := 256 + gridSection + k * h.sectionSize t

/-- R344: the size of a resume image of the grid. -/
def Launch.imageSize (l : Launch) : Nat := l.hdr.sectionAt l.t l.nteam

/-- The offset of a warp's record in the save area. -/
def Launch.recordAt (l : Launch) (num w : Nat) : Nat :=
  l.hdr.sectionAt l.t num + l.hdr.partAt l.t 9 + w * l.hdr.recordSize

/-- R346: offsets within a warp record. -/
def Header.frameAt (h : Header) : Nat := h.areas
def Header.execAt (h : Header) : Nat := 2 * h.areas
def Header.headAt (h : Header) : Nat := 2 * h.areas + 16
def Header.regsAt (h : Header) : Nat := 2 * h.areas + 528
def Header.splitAt (h : Header) : Nat := 2 * h.areas + 592
def Header.fragsAt (h : Header) : Nat := 2 * h.areas + 1616
def Header.winsAt (h : Header) : Nat := 2 * h.areas + 2408
def Header.masksAt (h : Header) : Nat := 2 * h.areas + 3464
def Header.maskSet (h : Header) : Nat := 33 * h.lanes + 8

/-- The address of a warp's frame header. -/
def Launch.headVa (l : Launch) (num w : Nat) : Nat := l.save + l.recordAt num w + l.hdr.headAt

/-- A piece of a layout: its offset and bytes. Bytes that no piece names are 0. -/
abbrev Pieces := List (Nat × List Byte)

def piece (off n v : Nat) : Nat × List Byte := (off, leBytes n v)

/-! ## Reading and writing the save area -/

/-- Writes pieces over a cleared range, 16 KiB at a time: no piece crosses such a boundary. -/
def State.savePieces (s : State) (own : Asker) (pf ctx die va n : Nat) (ps : Pieces) : (fuel : Nat) → Except Denied State
  | 0 => .ok s
  | fuel + 1 =>
    if n = 0 then .ok s
    else
      let k := min n (16384 - va % 16384)
      match s.reachVa own pf ctx die va .write with
      | .error x => .error x
      | .ok (s, p) =>
        let m := (ps.filter fun x => x.1 < k).foldl (fun m x => m.write (p + x.1) x.2) (s.mem.clear p k)
        let s := (if isDram p then { s with mem := m }.conflictRange p k true else { s with mem := m }).touch p k
        s.savePieces own pf ctx die (va + k) (n - k)
          ((ps.filter fun x => k ≤ x.1).map fun x => (x.1 - k, x.2)) fuel

/-- Reads `n` bytes of the save area as a number; no read crosses a 16 KiB boundary. -/
def State.saveNat (s : State) (own : Asker) (pf ctx die va n : Nat) : Except Denied Nat :=
  match s.reachVa own pf ctx die va .read with
  | .ok (s, p) => .ok (s.mem.nat p n)
  | .error x => .error x

/-! ## Codes (R346) -/

def RegClass.code : RegClass → Nat
  | .vector => 0
  | .uniform => 1
  | .predicate => 2
  | .accumulator => 3

def RegClass.ofCode (n : Nat) : RegClass :=
  match n with
  | 0 => .vector
  | 1 => .uniform
  | 2 => .predicate
  | _ => .accumulator

def bool2 (b : Bool) (n : Nat) : Nat := if b then 2 ^ n else 0

/-- R509: a window entry of age `age`; one that is not valid reads 0. -/
def WindowEntry.code (x : WindowEntry) (age : Nat) : Nat :=
  if x.valid then
    2 ^ 31 + bool2 x.trans 30 + age * 2 ^ 24 + (x.nreg - 1) % 8 * 2 ^ 18 + x.cls.code * 2 ^ 16 + x.reg
  else 0

def winCodes (age : Nat) : List WindowEntry → List Nat
  | [] => []
  | x :: l => x.code age :: winCodes (age + 1) l

/-- A window entry read back, with no forwarded value. -/
def WindowEntry.ofCode (n : Nat) : WindowEntry :=
  if n.testBit 31 then
    { valid := true, trans := n.testBit 30, cls := RegClass.ofCode (n / 2 ^ 16 % 4), reg := n % 256
      nreg := n / 2 ^ 18 % 8 + 1, fwd := [] }
  else { valid := false, trans := false, cls := .vector, reg := 0, nreg := 0, fwd := [] }

/-- A rank-table entry of an occupied rank. -/
def Member.code (m : Member) : Nat :=
  2 ^ 31 + bool2 m.reloc 30 + 2 ^ 29 * (m.pass % 2) + 2 ^ 24 * (m.lane % 32) + m.tid % 2 ^ 24

/-! ## The frame -/

/-- R455: what the frame holds for an expired register is its bank value. -/
def Env.slotV (e : Env) (tid r : Nat) : Word := (forwarded e.fr.win .vector tid r).getD ((e.tm.thread tid).v.getD r 0)
def Env.slotP (e : Env) (tid r : Nat) : Bool :=
  match forwarded e.fr.win .predicate tid r with
  | some x => x != 0
  | none => (e.tm.thread tid).p.getD r false

/-- The registers of a class of a thread that are expired and not forwarded. -/
def Env.deadV (e : Env) (tid : Nat) : List Nat := (e.tm.thread tid).vx.filter fun r => e.expired .vector tid r
def Env.deadP (e : Env) (tid : Nat) : List Nat := (e.tm.thread tid).px.filter fun r => e.expired .predicate tid r
def Env.deadW (e : Env) : List Nat := e.wp.wx.filter fun r => e.expired .uniform 0 r

/-- The active set as a mask of ranks. -/
def ranksOf (ms : List Member) : Nat := maskOf (ms.map (·.rank))

/-- R455: the frame areas and the frame's expired masks, at their offsets in the warp record. -/
def Env.framePieces (e : Env) : Pieces :=
  let h := e.hdr
  let vs := e.active.flatMap fun m =>
    (List.range (if (e.tm.thread m.tid).child then 16 else 8 * h.vgran)).map fun r =>
      piece (h.frameAt + 4 * h.lanes * r + 4 * m.rank) 4 (e.slotV m.tid r).toNat
  let ws := (List.range (8 * h.ugran)).map fun r =>
    piece (h.frameAt + 32 * h.vgran * h.lanes + 4 * r) 4 (e.w r).toNat
  let ps := (List.range 7).map fun r =>
    piece (h.frameAt + 32 * h.vgran * h.lanes + 32 * h.ugran + 8 * r) 8
      (ranksOf (e.active.filter fun m => e.slotP m.tid r))
  let mk := h.masksAt + h.maskSet
  let xv := e.active.flatMap fun m => (List.range 4).map fun k =>
    piece (mk + 32 * m.rank + 8 * k) 8 (maskOf (e.deadV m.tid) / 2 ^ (64 * k))
  let xw := [piece (mk + 32 * h.lanes) 8 (maskOf e.deadW)]
  let xp := e.active.map fun m => piece (mk + 32 * h.lanes + 8 + m.rank) 1 (maskOf (e.deadP m.tid))
  vs ++ ws ++ ps ++ xv ++ xw ++ xp

/-- R456: the cause word. -/
def causeWord (x : TrapInfo) (rep whole region fwd : Bool) : Nat :=
  bool2 rep 28 + bool2 whole 27 + bool2 region 26 + bool2 x.late 25 + bool2 fwd 24 + x.frank % 64 * 2 ^ 16
    + 4 * x.words.length * 2 ^ 8 + x.cause

/-- R81, R183: the number of repeats that the fragment has not completed, 0 outside a `REP`. -/
def Env.repcnt (e : Env) : Nat := match e.fr.rep with
  | some r => r.left
  | none => 0

/-- R456: the frame header. -/
def Env.headPieces (e : Env) (x : TrapInfo) (fwd : Bool) : Pieces :=
  let rep := e.fr.rep
  let base := [piece 0 8 e.pc, piece 8 4 (causeWord x rep.isSome e.whole e.region fwd), piece 12 4 x.tcode.toNat,
    piece 16 8 (x.addr % 2 ^ 64), piece 24 8 x.spc, piece 32 8 (ranksOf e.active), piece 40 8 x.fmask]
  let iw := (numbered 0 x.words).map fun y => piece (48 + 4 * y.1) 4 y.2.toNat
  let pf := match rep with
    | some r => [piece 64 4 r.prefix0.toNat, piece 68 4 r.prefix1.toNat]
    | none => []
  let wn := (winCodes 0 (e.fr.win.take 8)).zipIdx.map fun y => piece (80 + 4 * y.2) 4 y.1
  let rm := e.active.map fun m => piece (256 + 4 * m.rank) 4 m.code
  base ++ iw ++ pf ++ [piece 72 4 e.repcnt] ++ wn ++ rm

end Sys2Proof.Machine
end

