-- ==== Sys2Proof/Machine/Fragments.lean ====
section
/-! DEFINITION. Fragments: completing an instruction (R82 to R85), splitting and merging (R38 to R41), exits (R207),
reform regions, bins and groups (R48 to R61). -/

namespace Sys2Proof.Machine

/-! ## Completing an instruction -/

/-- What completion needs to know of an instruction: its K and S bits, the registers it writes through DST (R84),
whether the result is of variable latency (R86), has already returned, which matrix operation returns it, and whether it
stays outstanding past the instruction's own marker (R289). -/
structure Ret where
  k : Bool
  sw : Bool
  cls : Option RegClass
  reg : Nat
  nreg : Nat
  var : Bool
  back : Bool
  op : Option Nat
  product : Bool := false
  isRep : Bool
  pop : Option Nat := none
  deriving DecidableEq, Repr, Inhabited

/-- The window entry of a completed instruction. -/
def Ret.entry (r : Ret) (fwd : List Forwarded) : WindowEntry :=
  match r.cls with
  | some c => { valid := true, trans := r.k, cls := c, reg := r.reg, nreg := r.nreg, fwd }
  | none => { valid := false, trans := false, cls := .vector, reg := 0, nreg := 0, fwd := [] }

/-- R83: K has no effect on a tile or an accumulator. -/
def Ret.trans (r : Ret) : Bool := r.k && r.cls != some .accumulator

/-- R85: the results that the fragment has outstanding after this instruction. -/
def Ret.outs (r : Ret) : List Outstanding :=
  match r.cls with
  | some c => if r.var then [{ cls := c, reg := r.reg, nreg := r.nreg, returned := r.back, op := r.op, after := r.product, pop := r.pop }] else []
  | none => []

/-- R183: the repeats that remain once this one has completed. -/
def Frag.repLeft (fr : Frag) : Nat := match fr.rep with
  | some r => r.left - 1
  | none => 0

/-- R85: the results that a marked instruction releases once they have returned. The accumulator of an
`MMA` or `MMABS` is none of its own marker's (R289). -/
def Frag.awaited (fr : Frag) : List Outstanding := fr.out.filter fun o => !o.after

def Frag.released (fr : Frag) : Frag := { fr with out := fr.out.filter (·.after) }

/-- R85: the fragment after a marked instruction. -/
def Frag.mark (fr : Frag) : Frag :=
  if fr.awaited.all (·.returned) then fr.released else { fr with st := .switchParked }

/-- R82 to R85, R183: the fragment after an instruction completes and continues at `pc`. A uniform register that it writes no longer
has the transient value of the trap entry (R83). -/
def Frag.retire (fr : Frag) (r : Ret) (fwd : List Forwarded) (tg : List (RegClass × Nat × Nat)) (pc : Nat) : Frag :=
  let win := if fr.counted then fr.win.drop 1 else fr.win
  let win := pushWindow (withdrawAll win tg) (r.entry (if r.trans then fwd else []))
  let left := fr.repLeft
  let last := r.isRep || left = 0
  let kept (y : Forwarded) : Bool := !(tg.any fun x => x.1 == .uniform && x.2.2 == y.reg)
  let fr := { fr with win, out := (fr.out.map fun (o : Outstanding) => { o with after := false }) ++ r.outs, counted := false, walked := false, st := .running
                      bounds := [], keptW := fr.keptW.filter kept
                      pc := if last then pc else fr.pc
                      rep := if r.isRep || left ≠ 0 then fr.rep.map fun y => { y with left := if r.isRep then y.left else left }
                             else none }
  if r.sw && last then fr.mark else fr

/-- Fragments that wait for a queue entry, a result word or the read-modify-writes of others try again. -/
def Team.wakeQueue (tm : Team) : Team :=
  { tm with frags := tm.frags.map fun fr => match fr.st with
    | .waiting (.queue _) => { fr with st := .running }
    | .waiting .release => { fr with st := .running }
    | _ => fr }

/-- The result words of a command that fragments have popped and not released. -/
def Team.popping (tm : Team) (c : Nat) : Nat := (tm.frags.map fun fr => (fr.out.filter fun o => o.pop == some c).length).sum

/-- R295, R297: a word leaves its queue as the pop's result is released, and the last one frees the entry. -/
def Team.popWords (tm : Team) : Team :=
  if tm.cmds.all fun c => c.taken == tm.popping c.id then tm
  else
    let cmds : List Cmd := tm.cmds.map fun c => { c with results := c.results.drop (c.taken - tm.popping c.id), taken := tm.popping c.id }
    ({ tm with cmds := cmds.filter fun c => !(c.st == .complete && c.results.isEmpty) } : Team).wakeQueue

/-- R81, R183: `sr.repcnt` of a warp whose fragment `fr`, the repeats of an interrupted `REP` in progress, has `left` of them to complete
now. While the frame is in use, the register is that of the trapped fragment. -/
def Warp.repeats (wp : Warp) (fr : Frag) (left : Nat) : Warp :=
  if wp.repcnt ≠ 0 && !wp.frame && fr.rep.isSome then { wp with repcnt := left } else wp

/-- An instruction completes: its result, its position in the window, its counters, and the next pc. -/
def State.retire (s : State) (e : Env) (r : Ret) (res : Res) (pc : Nat) : State :=
  let tm := s.team e.t
  let fr := tm.frag e.g
  let fwd := res.fwds r.reg fr.mem tm
  let tm := tm.putRes fr.warp fr.mem r.trans r.reg res
  let fr' := fr.retire r fwd (res.targets r.reg) pc
  let tm := ((tm.modFrag e.g fun _ => fr').modWarp fr.warp fun wp => if r.isRep then wp else wp.repeats fr fr.repLeft).popWords
  let s := { (s.modTeam e.t fun _ => tm) with free := s.free + 1 }
  let s := if fr.counted then s else s.count e.ln.id e.core 0x01 1
  if fr'.st == .switchParked then s.count e.ln.id e.core 0x12 1 else s

/-- R82: an instruction that waits after its issue takes its position now. Until it completes, its operands are read
through the eight positions before it, which the window keeps. -/
def State.suspend (s : State) (e : Env) (r : Ret) (w : Wait) : State :=
  let fr := (s.team e.t).frag e.g
  let s := if fr.counted then s else s.count e.ln.id e.core 0x01 1
  s.modFrag e.t e.g fun fr =>
    { fr with st := .waiting w, counted := true, bounds := []
              win := if fr.counted then fr.win else r.entry [] :: fr.win }

/-- R472, R378: the page that a wait is for, its cause and its end. -/
def Wait.bound : Wait → Option (Nat × Nat × Nat)
  | .pool va deadline => some (boundKey va 0x47, 0x47, deadline)
  | .remote va deadline => some (boundKey va 0x90, 0x90, deadline)
  | _ => none

/-- The bounds of an instruction's waits, each as it began. -/
def Frag.bounded (fr : Frag) (w : Wait) : List (Nat × Nat × Nat) := match w.bound with
  | some b => if fr.bounds.any fun x => x.1 == b.1 && x.2.1 == b.2.1 then fr.bounds else b :: fr.bounds
  | none => fr.bounds

/-- A wait that leaves the instruction unexecuted (R63, R146, R459). -/
def State.park (s : State) (t g : Nat) (w : Wait) : State :=
  s.modFrag t g fun fr => { fr with st := .waiting w, bounds := fr.bounded w }

/-- R472, R500: a wait has timed out. The instruction issues again, and its check of that page fails with `cause`. -/
def State.timeOut (s : State) (t g va cause : Nat) : State :=
  s.modFrag t g fun fr =>
    { fr with st := .running, walked := true, bounds := (boundKey va cause, cause, 0) :: fr.bounds.filter fun x => x.1 != boundKey va cause || x.2.1 != cause }

/-- A fragment that waited becomes eligible again. -/
def State.wake (s : State) (t g : Nat) (walked : Bool) : State :=
  s.modFrag t g fun fr => { fr with st := .running, walked := fr.walked || walked }

/-- R84: the fragment's outstanding results are released. -/
def State.release (s : State) (t g : Nat) : State := s.modTeam t fun tm => (tm.modFrag g fun fr => { fr with out := [] }).popWords

/-- R85: a fragment whose outstanding results have all returned leaves its switch-marker park. -/
def Frag.unpark (fr : Frag) : Frag :=
  if fr.st == .switchParked && fr.awaited.all (·.returned) then { fr.released with st := .running } else fr

/-- R289: the oldest operation of a core's matrix queue retires: its accumulator takes the result, and the fragment
that waits for it sees it returned. Products of a Pergola command go to that command. -/
def State.retireHead (s : State) (core : Nat) : State :=
  match (s.core core).matrix with
  | [] => s
  | op :: rest =>
    let s := s.modCore core fun k => { k with matrix := rest }
    let s := s.modTeam op.team fun tm => match op.cmd with
      | some c => { tm with cmds := modWhere (fun x => x.id == c) (fun x => { x with paid := true }) tm.cmds }
      | none =>
        let frags := tm.frags.map fun f =>
          ({ f with out := f.out.map fun (o : Outstanding) => if o.op == some op.id then { o with returned := true } else o } : Frag).unpark
        ({ tm with accs := setNth op.acc op.elems tm.accs, frags } : Team).popWords
    let l := (s.team op.team).launch
    let s := (s.wakeOn core .matrix).count l core 0x0C op.cycles
    if op.cycles = 0 || op.cmd.isSome then s else s.count l core 0x0D 1

/-- Retires operations until none that the fragment waits for is queued. -/
def State.drainMatrix (s : State) (t g : Nat) : (fuel : Nat) → State
  | 0 => s
  | fuel + 1 =>
    if ((s.team t).frag g).out.any fun (o : Outstanding) => o.op.isSome && !o.returned then
      (s.retireHead (s.team t).core).drainMatrix t g fuel
    else s

/-- R84: the events that first wait for the fragment's outstanding results. -/
def State.settle (s : State) (t g : Nat) : State :=
  ((s.deliverFrag t g).drainMatrix t g (s.core (s.team t).core).matrix.length).release t g

/-! ## Splits and merges (R38, R39) -/

/-- The split-stack entries of the warp, or of the drawn group, of a fragment. -/
def Team.splitsOf (tm : Team) (fr : Frag) : List Split :=
  tm.splits.filter fun x => x.grp == fr.grp && (fr.grp.isSome || x.warp == fr.warp)

/-- The new fragments of a split, one for each part, numbered from `id`. -/
def newFrags (fr : Frag) (ent id : Nat) : List (Nat × List Member) → List Frag
  | [] => []
  | (pc, ms) :: l => { fr with id := id, mem := ms, pc := pc, ent := some ent, st := .running, ready := 0, bounds := [] } :: newFrags fr ent (id + 1) l

/-- R38: the fragment ends; an entry is pushed and one fragment runs at each selected pc. -/
def State.split (s : State) (t g : Nat) (parts : List (Nat × List Member)) (rcv : Nat) : State :=
  let tm := s.team t
  let fr := tm.frag g
  let ent : Split := { id := s.fresh, warp := fr.warp, grp := fr.grp, reconv := rcv, mem := fr.mem.map (·.tid), arrived := []
                       parent := fr.ent }
  let tm := { tm with frags := (tm.frags.filter fun x => x.id != g) ++ newFrags fr s.fresh (s.fresh + 1) parts
                      splits := tm.splits ++ [ent] }
  { (s.modTeam t fun _ => tm) with fresh := s.fresh + 1 + parts.length }

/-- Members in rank order. -/
def insertRank (m : Member) : List Member → List Member
  | [] => [m]
  | x :: l => if m.rank < x.rank then m :: x :: l else x :: insertRank m l

def sortRank (l : List Member) : List Member := l.foldl (fun acc m => insertRank m acc) []

/-- R39: does an entry's arrived set equal its member set (which exited threads have left)? -/
def Split.whole (x : Split) : Bool := x.mem.all x.arrived.contains

/-- R39: the test of one entry: when whole, it is popped and the fragments parked at it merge. The merged fragment has
an empty window (R82) and its `sr.partial` reads 0 (R81). -/
def State.popTest (s : State) (t ent : Nat) : State :=
  let tm := s.team t
  match tm.splits.find? fun x => x.id == ent with
  | none => s
  | some x =>
    if !x.whole then s
    else
      let parked := tm.frags.filter fun f => f.ent == some ent && f.st == .parked
      let mem := sortRank (parked.flatMap (·.mem))
      let rest := tm.frags.filter fun f => !(f.ent == some ent && f.st == .parked)
      let merged : List Frag := match parked with
        | [] => []
        | f :: _ => if mem.isEmpty then [] else
          [{ f with id := s.fresh, mem, pc := x.reconv, st := .running, ent := x.parent, win := [], out := [], partial_ := false
                    counted := false, walked := false, rep := none, ready := 0, bounds := [] }]
      let s := { (s.modTeam t fun tm => { tm with frags := rest ++ merged, splits := tm.splits.filter fun y => y.id != ent })
                 with fresh := s.fresh + 1 }
      s.count tm.launch (warpCore (s.launchOf tm.launch).hdr (s.launchOf tm.launch).t tm.core x.warp) 0x05 1

/-- R41: the test again for a list of entries, innermost (youngest) first. -/
def State.popTests (s : State) (t : Nat) (ents : List Nat) : State :=
  (sortNat ents).reverse.foldl (fun s x => s.popTest t x) s

/-- R39: a fragment parks at the reconvergence point of its innermost entry. -/
def State.parkFrag (s : State) (t g : Nat) : State :=
  let tm := s.team t
  let fr := tm.frag g
  match fr.ent with
  | none => s
  | some ent =>
    let s := s.settle t g
    let s := s.modTeam t fun tm =>
      let tm := tm.modFrag g fun f => { f with st := .parked }
      { tm with splits := modWhere (fun x => x.id == ent) (fun x => { x with arrived := x.arrived ++ fr.mem.map (·.tid) }) tm.splits }
    s.popTest t ent

/-- R41: threads leave the entries that hold them and meet a test; the entries that changed. -/
def Team.leaveSplits (tm : Team) (p : Split → Bool) (tids : List Nat) : Team × List Nat :=
  let hit := tm.splits.filter fun x => p x && x.mem.any tids.contains
  ({ tm with splits := tm.splits.map fun x => if p x then
      { x with mem := x.mem.filter fun i => !tids.contains i, arrived := x.arrived.filter fun i => !tids.contains i }
      else x },
   hit.map (·.id))

/-- Takes threads out of a fragment; an empty fragment ends. -/
def Team.shrink (tm : Team) (g : Nat) (tids : List Nat) : Team :=
  let tm := tm.modFrag g fun f => { f with mem := f.mem.filter fun m => !tids.contains m.tid }
  { tm with frags := tm.frags.filter fun f => !(f.id == g && f.mem.isEmpty) }

/-! ## Reform regions -/

/-- R57: the members that have not yet arrived. Children count from their creation. -/
def Team.waiting (tm : Team) : Nat := (tm.threads.filter fun x => !x.exited && !x.done).length

/-- The distinct pcs of a list, in order of first occurrence. -/
def partsBy (key : Member → Nat) (ms : List Member) : List (Nat × List Member) :=
  (dedup (ms.map key)).map fun k => (k, ms.filter fun m => key m == k)

/-- R57, R64: the fragments re-created from one that ended at `RFOPEN`. Its surviving threads return at the instruction
after their `RFCLOSE`; those that closed elsewhere form a fragment of their own. -/
def homeFrags (tm : Team) (id : Nat) (x : Home) : List Frag :=
  let ms := x.mem.filter fun m => !(tm.thread m.tid).exited
  ((partsBy (fun m => (tm.thread m.tid).resume) ms).zipIdx).map fun y =>
    { (default : Frag) with id := id + y.2, warp := x.warp, mem := y.1.2, pc := y.1.1, ent := x.ent, st := .running }

def homesFrags (tm : Team) (id : Nat) : List Home → List Frag
  | [] => []
  | x :: l => let fs := homeFrags tm id x
    fs ++ homesFrags tm (id + fs.length) l

/-- R57: closes the region when every member has arrived; children were counted as members. -/
def State.closeTest (s : State) (t : Nat) : State :=
  match s.team? t with
  | none => s
  | some tm =>
    match tm.region with
    | none => s
    | some r =>
      if tm.waiting ≠ 0 then s
      else
        let fs := homesFrags tm s.fresh r.homes
        let base := (s.launchOf tm.launch).t
        let s := s.addTerms tm.launch (tm.threads.drop base)
        let tm := { tm with
          region := none, st := .resident
          threads := (tm.threads.take base).map fun x =>
            { x with entered := false, done := false, drawn := false, reloc := false, live := 0, liveX := [], fresh := [] }
          frags := tm.frags ++ fs }
        let s := { (s.modTeam t fun _ => tm) with fresh := s.fresh + fs.length }
        s.popTests t (tm.splits.map (·.id))

/-- R299: a frame whose warp has no thread left is discarded, and its entry is freed. -/
def Team.discardFrames (tm : Team) (h : Header) : Team :=
  let dead (q : QueueReg) : Bool := match q.owner with
    | some w => (tm.liveOf h w).isEmpty
    | none => false
  if tm.queues.any dead then
    { tm with queues := tm.queues.map fun q => if dead q then { q with owner := none, words := [] } else q }.wakeQueue
  else tm

/-- R263: the ranks of threads that exit in a group of a region are no absent ranks of the group from then on. -/
def Team.leaveRanks (tm : Team) (fr : Frag) (tids : List Nat) : Team :=
  let ranks := (fr.mem.filter fun m => tids.contains m.tid).map (·.rank)
  if fr.grp.isNone then tm
  else { tm with frags := tm.frags.map fun f => if f.grp == fr.grp then { f with gone := f.gone ++ ranks } else f }

/-- R207, R41, R57, R59, R66: threads of a fragment exit. -/
def State.exitThreads (s : State) (t g : Nat) (tids : List Nat) : State :=
  let tm := ((s.team t).leaveRanks ((s.team t).frag g) tids).shrink g tids
  let tm := tids.foldl (fun tm i => tm.modThread i fun x => { x with exited := true, done := true }) tm
  let (tm, ents) := tm.leaveSplits (fun _ => true) tids
  let s := s.modTeam t fun _ => tm.discardFrames (s.launchOf tm.launch).hdr
  ((s.popTests t ents).closeTest t).teamCheck t

/-- R57: members arrive at the join and leave the entries of their group. -/
def State.joinThreads (s : State) (t g : Nat) (tids : List Nat) (resume : Nat) : State :=
  let grp := ((s.team t).frag g).grp
  let tm := (s.team t).shrink g tids
  let tm := tids.foldl (fun tm i => tm.modThread i fun x =>
    if x.child then { x with exited := true, done := true } else { x with done := true, resume }) tm
  let (tm, ents) := tm.leaveSplits (fun x => x.grp == grp) tids
  let s := s.modTeam t fun _ => tm
  ((s.popTests t ents).closeTest t).teamCheck t

/-! ## Bins (R49, R50, R65) -/

/-- The bin that takes one more thread of a team at a key: one that holds the key with room, else a free one. -/
def Core.binFor (k : Core) (t key : Nat) : Option Nat :=
  let holds := (List.range 32).find? fun i => match k.bins.getD i none with
    | some b => b.team == t && b.key == key
    | none => false
  match holds with
  | some i => match k.bins.getD i none with
    | some b => if b.tids.length < 64 then some i else none
    | none => none
  | none => (List.range 32).find? fun i => (k.bins.getD i none).isNone

def Core.file (k : Core) (i t key tid : Nat) : Core :=
  { k with bins := modNth i (fun b => match b with
      | some b => some { b with tids := b.tids ++ [(tid, (k.cycle : Int))] }
      | none => some { team := t, key, tids := [(tid, (k.cycle : Int))], aged := false }) k.bins }

/-- R63: the core on which a thread of a team runs. -/
def State.coreOf (s : State) (t tid : Nat) : Nat :=
  let tm := s.team t
  let l := s.launchOf tm.launch
  warpCore l.hdr l.t tm.core (tm.warpOf l.hdr tid)

/-- R49: files one thread at a key, if a bin takes it. -/
def State.fileThread (s : State) (t tid key : Nat) : Option State :=
  let c := s.coreOf t tid
  match (s.core c).binFor t key with
  | none => none
  | some i =>
    let s := s.modCore c fun k => k.file i t key tid
    some (s.modTeam t fun tm => tm.modThread tid fun x => { x with drawn := false, reloc := false })

/-- Files threads in order; those that no bin took. Where the bins have room for some of them only, R49 and R65 give no order: the
lowest ranks are filed (DESIGN CHOICE, log entry 102). -/
def State.fileThreads (s : State) (t key : Nat) : List Nat → State × List Nat
  | [] => (s, [])
  | i :: l =>
    match s.fileThread t i key with
    | some s => s.fileThreads t key l
    | none => let r := s.fileThreads t key l
      (r.1, i :: r.2)

/-- R49: does an `RFCLOSE` stand at an address? An address that cannot be fetched holds none. -/
def State.isClose (s : State) (w : Who) (va : Nat) : Bool :=
  match s.leaf w va with
  | .found _ e lvl =>
    match s.placeOf w.pf (entryAddr e / 2 ^ pageBits lvl * 2 ^ pageBits lvl + va % 2 ^ pageBits lvl) with
    | some p => match decode [BitVec.ofNat 32 (s.mem.nat p 4), BitVec.ofNat 32 (s.mem.nat (p + 4) 4)] with
      | .ok (.rfclose _) => true
      | _ => false
    | none => false
  | _ => false

/-- Sets the live mask of threads (R52). -/
def Team.setLive (tm : Team) (tids : List Nat) (mask : Word) : Team :=
  tids.foldl (fun tm i => tm.modThread i fun x => { x with live := mask, liveX := [], fresh := [], entered := true }) tm

/-- R50, R53: the slots of a group's ranks: home lanes first, then the free slots in order; children last. -/
def homeLane (h : Header) (tid : Nat) : Nat :=
  match h.width with
  | 0 => 16 * (tid / 16 % 2) + tid % 16
  | _ => tid % h.lanes % 32

def takeHomes (h : Header) (tm : Team) (passes : Nat) : List (Nat × Nat) → List (Nat × Nat) → List (Nat × Option (Nat × Nat)) × List (Nat × Nat)
  | [], used => ([], used)
  | (rank, tid) :: l, used =>
    if (tm.thread tid).child then
      let r := takeHomes h tm passes l used
      ((rank, none) :: r.1, r.2)
    else
      let lane := homeLane h tid
      match (List.range passes).find? fun p => !used.contains (p, lane) with
      | some p =>
        let r := takeHomes h tm passes l ((p, lane) :: used)
        ((rank, some (p, lane)) :: r.1, r.2)
      | none =>
        let r := takeHomes h tm passes l used
        ((rank, none) :: r.1, r.2)

/-- The slots (pass, lane) that are free, in order. -/
def freeSlots (passes : Nat) (used : List (Nat × Nat)) : List (Nat × Nat) :=
  ((List.range passes).flatMap fun p => (List.range 32).map fun l => (p, l)).filter fun x => !used.contains x

/-- Gives the ranks without a slot the free ones: relocated members first, then children (the children's: DESIGN CHOICE, log entry
116). -/
def takeFree (tm : Team) (tids : List Nat) (child : Bool) : List (Nat × Option (Nat × Nat)) → List (Nat × Nat) → List Member × List (Nat × Nat)
  | [], free => ([], free)
  | (rank, x) :: l, free =>
    let tid := tids.getD rank 0
    let isChild := (tm.thread tid).child
    match x with
    | some (p, lane) =>
      let r := takeFree tm tids child l free
      (if child then r.1 else { rank, tid, lane, pass := p, reloc := false } :: r.1, r.2)
    | none =>
      if isChild == child then
        match free with
        | (p, lane) :: free =>
          let r := takeFree tm tids child l free
          ({ rank, tid, lane, pass := p, reloc := !child } :: r.1, r.2)
        | [] => takeFree tm tids child l []
      else takeFree tm tids child l free

/-- R53, R54: the members of a drawn group, ranks in ascending thread number. -/
def placeGroup (h : Header) (tm : Team) (tids : List Nat) : List Member :=
  let tids := sortNat tids
  let passes := if h.lanes = 64 then 2 else 1
  let homes := takeHomes h tm passes (tids.zipIdx.map fun x => (x.2, x.1)) []
  let a := takeFree tm tids false homes.1 (freeSlots passes homes.2)
  let b := takeFree tm tids true homes.1 a.2
  sortRank (a.1 ++ b.1)

/-- R352: the candidates of an issue slot of a core that are Ready (R63). -/
def State.readyIn (s : State) (core slot : Nat) : Nat :=
  ((s.teams.filter fun tm => tm.st == .resident || tm.st == .regionOpen).map fun tm =>
    let l := s.launchOf tm.launch
    (tm.frags.filter fun f => f.st == .running && warpCore l.hdr l.t tm.core f.warp == core && f.slotIn l.hdr l.t == slot).length).sum

/-- R352: the slot of a core with the fewest Ready candidates, the lowest among equals (log entry 93). -/
def State.freeSlot (s : State) (core : Nat) : Nat :=
  ([0, 1, 2, 3].find? fun i => [0, 1, 2, 3].all fun j => s.readyIn core i ≤ s.readyIn core j).getD 0

/-- R53, R82: a group of a region starts at the bin's key with an empty window. Its uniform registers and its frame are those of
the warp of its lowest rank as it is drawn, whichever threads leave it later (R56 is silent; log entry 74). -/
def State.drawGroup (s : State) (core t key : Nat) (tids : List Nat) : State :=
  let tm := s.team t
  let l := s.launchOf tm.launch
  let mem := placeGroup l.hdr tm tids
  let fr : Frag := { (default : Frag) with
    id := s.fresh, warp := tm.warpOf l.hdr ((mem.map (·.tid)).getD 0 0), grp := some s.fresh, mem, pc := key, key, st := .running, slot := some (s.freeSlot core) }
  let tm := mem.foldl (fun tm m => tm.modThread m.tid fun x => { x with drawn := true, reloc := m.reloc, fresh := [] }) tm
  let s := { (s.modTeam t fun _ => { tm with frags := tm.frags ++ [fr] }) with fresh := s.fresh + 1 }
  (s.count l.id core 0x06 1).count l.id core 0x07 (mem.filter (·.reloc)).length

end Sys2Proof.Machine
end

