-- ==== Sys2Proof/Machine/Sync.lean ====
section
/-! DEFINITION. Phasers (R214 to R222), the checkpoint, commit and rollback of a speculator (R145 to R147, R223),
and the commit and abort of a transaction (R148, R226 to R229). -/

namespace Sys2Proof.Machine

/-! ## Handles (R214) -/

def hScope (h : Nat) : Nat := h / 2 ^ 13 % 8
def hDie (h : Nat) : Nat := h / 2 ^ 10 % 8
def hIndex (h : Nat) : Nat := h % 2 ^ 10
def handleOf (scope die idx : Nat) : Nat := 2 ^ 13 * scope + 2 ^ 10 * die + idx

/-- R221: the phaser of a handle, if one is allocated. Scopes 4 and 5 name one table of the die: which of the two allocated it is
not looked at (DESIGN CHOICE, log entry 125). -/
def State.phaser? (s : State) (t h : Nat) : Option Phaser :=
  if hScope h = 2 then ((s.team t).phasers.getD (hIndex h) none)
  else lookup (hIndex h) (s.die (hDie h)).phasers

def State.setPhaser (s : State) (t h : Nat) (p : Phaser) : State :=
  if hScope h = 2 then s.modTeam t fun tm => { tm with phasers := setNth (hIndex h) (some p) tm.phasers }
  else s.modDie (hDie h) fun d => { d with phasers := modWhere (fun x => x.1 == hIndex h) (fun x => (x.1, p)) d.phasers }

/-- R221: is a handle bad for an instruction of team `t` issued on die `die`? -/
def State.badHandle (s : State) (pf t die h : Nat) : Bool :=
  match hScope h with
  | 2 => hDie h != 0 || (s.phaser? t h).isNone
  | 4 => hDie h != die || (s.phaser? t h).isNone
  | 5 => !(s.devDies pf).contains (hDie h) || (s.phaser? t h).isNone
  | _ => true

/-- R215: is phase `t` complete? -/
def Phaser.done (p : Phaser) (t : Nat) : Bool :=
  let d := (p.p + 2 ^ 16 - t % 2 ^ 16) % 2 ^ 16
  0 < d && d < 2 ^ 15

/-- R215: the completion test. -/
def Phaser.test (p : Phaser) : Phaser :=
  if p.a ≥ max p.n 1 then { p with p := (p.p + 1) % 2 ^ 16, a := 0 } else p

def Phaser.arrive (p : Phaser) : Phaser := { p with a := p.a + 1 }.test

/-- R216: the warp's entry for a handle. -/
def Warp.reg? (wp : Warp) (h : Nat) : Option Registration := wp.regs.find? fun r => r.handle == h

/-- R216: is the warp's last arrival on the handle pending? -/
def Registration.waits (r : Registration) (p : Phaser) : Bool := r.pending && !p.done r.phase

/-- R222: from here to its success, a `PHAW` on the handle that awaits phase `t` is one wait, however often it is executed. -/
def State.setAgain (s : State) (t w h phase : Nat) (b : Bool) : State := s.modWarp t w fun wp =>
  { wp with regs := wp.regs.map fun x => if x.handle == h && x.phase == phase then { x with again := b } else x }

/-! ## Fragments seen from outside their issue -/

/-- The environment of a fragment that is not in issue. -/
def State.envAt (s : State) (t g : Nat) : Env :=
  let tm := s.team t
  let fr := tm.frag g
  { tm, fr, ln := s.launchOf tm.launch, pc := fr.pc, words := [], free := s.free }

/-- A fragment number is unique in the package; the team that holds it. -/
def Team.waiters (tm : Team) : List Frag := tm.frags.filter fun f => match f.st with
  | .waiting _ => true
  | _ => false

/-- R84: the completion record of an instruction with a predicate destination of variable latency. -/
def predRet (f : Fields) : Ret :=
  { k := f.trans, sw := f.mark, cls := some .predicate, reg := f.dst.toNat, nreg := 1, var := true, back := true, op := none
    isRep := false }

/-- R198, R220: a try-wait ends: the predicate is written for every active thread, and a success is an acquire. -/
def State.endTry (s : State) (t g scope : Nat) (f : Fields) (ok : Bool) : State :=
  let e := s.envAt t g
  let s := if ok then e.acquire s scope else s
  s.retire e (predRet f) (.p (e.active.map fun m => (m.tid, ok))) (e.pc + f.len.bytes)

/-! ## Checkpoints (R223) -/

/-- The save of a warp's non-exited threads. -/
def Team.saveThreads (tm : Team) (h : Header) (w : Nat) : List ThreadSave :=
  (tm.liveOf h w).map fun i =>
    let x := tm.thread i
    { tid := i, v := x.v, p := x.p, vx := x.vx, px := x.px, term := x.term }

def Team.checkpoint (tm : Team) (h : Header) (fr : Frag) (pc : Nat) : Shadow :=
  { threads := tm.saveThreads h fr.warp, w := (tm.warp fr.warp).w, wx := (tm.warp fr.warp).wx, pc, ent := fr.ent
    splits := tm.splitsOf fr }

/-- The member that a thread is outside a region (R35, R36). -/
def homeMember (h : Header) (tid : Nat) : Member :=
  { rank := tid % h.lanes, tid, lane := homeLane h tid, pass := tid % h.lanes / 32, reloc := false }

/-- Restores a warp's registers and makes its threads one fragment at `pc` with an empty window (R223, R229). R81 does not say
what its `sr.partial` reads: it keeps the value of the warp's first fragment (log entry 75). -/
def State.restoreWarp (s : State) (t w : Nat) (x : Shadow) (pc : Nat) : State :=
  let tm := s.team t
  let h := (s.launchOf tm.launch).hdr
  let tm := x.threads.foldl (fun tm y => tm.modThread y.tid fun th =>
    { th with v := y.v, p := y.p, vx := y.vx, px := y.px, term := y.term }) tm
  let tm := tm.modWarp w fun wp => { wp with w := x.w, wx := x.wx, mode := .normal, repcnt := 0 }
  let part := ((tm.frags.find? fun f => f.warp == w && f.grp.isNone).map (·.partial_)).getD false
  let fr : Frag := { (default : Frag) with
    id := s.fresh, warp := w, mem := (tm.liveOf h w).map (homeMember h), pc, ent := x.ent, st := .running, partial_ := part }
  let tm := { tm with
    frags := (tm.frags.filter fun f => !(f.warp == w && f.grp.isNone)) ++ [fr]
    splits := (tm.splits.filter fun y => !(y.warp == w && y.grp.isNone)) ++ x.splits }
  { (s.modTeam t fun _ => tm) with fresh := s.fresh + 1 }

/-- The spot of a place, for stores that leave a buffer; `pages` are those of the buffer's device memory. -/
def State.spotAt (s : State) (pf : Nat) (pages : List (Nat × Nat)) (place : Nat) : Spot :=
  if isDram place then
    let page := (pages.find? fun p => (s.chunks pf p.1 p.2).any fun c => c ≤ place && place < c + 16384).getD (0, 0)
    .dram place 0 page.1 page.2 0
  else if isHost place then .host place
  else .chip 3 place

/-- R147, R227: buffered stores perform all at once, a request to the L2 for each line (log entry 41). -/
def State.flushBuf (s : State) (t w : Nat) (buf : List Host.Cell) (pages : List (Nat × Nat)) : State :=
  let tm := s.team t
  let l := s.launchOf tm.launch
  let ctx := (s.queue l.pf l.q).ctx
  let core := warpCore l.hdr l.t tm.core w
  let s := s.count l.id core 0x0A (dedup ((buf.filter fun c => isDram c.1).map fun c => c.1 / 128)).length
  buf.foldl (fun s c => s.performStore l.pf ctx l.id core t w (s.spotAt l.pf pages c.1) [c.2]) s

/-- Fragments of a warp that paused become eligible (R146). -/
def State.wakePaused (s : State) (t w : Nat) : State :=
  s.modTeam t fun tm => { tm with frags := tm.frags.map fun f =>
    if f.warp == w && f.grp.isNone && f.st == .waiting .pause then { f with st := .running } else f }

/-- R105, R145: the completion of a phase is an acquire at `.tm`: it empties the L1 of a warp of a pair team. -/
def State.acquireTeam (s : State) (t w : Nat) : State :=
  let tm := s.team t
  let l := s.launchOf tm.launch
  if isPair l.t then s.dropL1 (warpCore l.hdr l.t tm.core w) else s

/-- R147: a speculator whose phase has completed commits and returns to the normal state. -/
def State.commitSpec (s : State) (t w : Nat) : State :=
  match ((s.team t).warp w).mode with
  | .speculative x =>
    let s := s.modWarp t w fun wp => { wp with mode := .normal }
    (((s.flushBuf t w x.buf x.pages).acquireTeam t w).wakePaused t w).modTeam t Team.wakeQueue
  | _ => s

/-- R147, R223: a speculator rolls back to its `BARS`. -/
def State.rollback (s : State) (t w : Nat) : State :=
  match ((s.team t).warp w).mode with
  | .speculative x =>
    let tm := s.team t
    let l := s.launchOf tm.launch
    let s := (s.restoreWarp t w x.shadow x.shadow.pc).modWarp t w fun wp => { wp with again := some x.phase }
    let s := s.modTeam t Team.wakeQueue
    s.count l.id (warpCore l.hdr l.t tm.core w) 0x10 1
  | _ => s

/-- R147: do the lines of a late arriver's stores hit what a speculator has read? Its signature may hit falsely while it holds
a line (R435, R479). -/
def State.specHit (s : State) (w : Nat) (x : Spec) (lines : List Nat) : Bool :=
  x.reads.any lines.contains || (x.evicted && !lines.isEmpty && Config.signatureHits (s.free * 128 + w))

/-- R147: a late arriver's stores roll back the speculators of its team that read their lines, whichever phaser each is past. -/
def State.checkSpecs (s : State) (t w : Nat) (lines : List Nat) : State :=
  (List.range (s.team t).warps.length).foldl (fun s i =>
    if i = w then s
    else match ((s.team t).warp i).mode with
      | .speculative x => if s.specHit i x lines then s.rollback t i else s
      | _ => s) s

/-- R147: the lines that a warp has stored to since its previous arrival on a phaser, or since the launch. -/
def Warp.since (wp : Warp) (h : Nat) : List Nat := (lookup h wp.logs).getD wp.stored

/-- R145: has a speculator read a line that another warp of its team has stored to since that warp's own arrival? The last arriver may
have observed such a store, which no arrival has checked (log entry 115). -/
def Team.missed (tm : Team) (h w : Nat) (x : Spec) : Bool :=
  (List.range tm.warps.length).any fun i => i != w && ((tm.warp i).since h).any x.reads.contains

/-- The warps of a team whose speculation past a phase of a phaser ends as it completes in `p`. -/
def Team.ending (tm : Team) (h : Nat) (p : Phaser) : List (Nat × Spec) :=
  (List.range tm.warps.length).filterMap fun w => match (tm.warp w).mode with
    | .speculative x => if x.handle == h && p.done x.phase then some (w, x) else none
    | _ => none

/-- R145, R147: the speculators of a team past a phase that is complete commit, in ascending warp order (R147 gives them no order; log
entry 76), but for those that have read what was stored before the phase completed. -/
def State.endSpecs (s : State) (t h : Nat) (p : Phaser) : State :=
  let tm := s.team t
  (tm.ending h p).foldl (fun s x => if tm.missed h x.1 x.2 then s.rollback t x.1 else s.commitSpec t x.1) s

/-! ## Phase completion -/

/-- The teams whose warps can wait on a handle used by team `t`. -/
def State.audience (s : State) (t h : Nat) : List Nat :=
  if hScope h = 2 then [t]
  else
    let pf := (s.launchOf (s.team t).launch).pf
    (s.teams.filter fun x => (s.launchOf x.launch).pf == pf).map (·.id)

/-- R220, R219: what a phase's completion does for one waiting fragment. -/
def State.notify (s : State) (t h : Nat) (p : Phaser) (fr : Frag) : State :=
  match fr.st with
  | .waiting (.tryWait h' ph _ f) =>
    if h' = h && p.done ph then (s.setAgain t fr.warp h ph false).endTry t fr.id (hScope h) f true else s
  | .waiting (.arrival h') => if h' = h then s.wake t fr.id false else s
  | _ => s

/-- A phaser takes a new state; if its phase has moved on, the speculation past it ends, and waiters go on (R147, R220). -/
def State.putPhaser (s : State) (t h : Nat) (p : Phaser) : State :=
  let moved := match s.phaser? t h with
    | some q => q.p != p.p
    | none => false
  let s := s.setPhaser t h p
  if !moved then s
  else (s.audience t h).foldl (fun s u =>
    let s := s.endSpecs u h p
    (s.team u).waiters.foldl (fun s fr => s.notify u h p fr) s) s

/-- R147, R219: the warp arrives in the open phase of a phaser it is registered on. -/
def State.arrive (s : State) (t w h : Nat) : State :=
  match s.phaser? t h, ((s.team t).warp w).reg? h with
  | some p, some _ =>
    let s := s.checkSpecs t w (((s.team t).warp w).since h)
    let s := s.modWarp t w fun wp => { wp with
      regs := wp.regs.map fun x => if x.handle == h then { x with pending := true, phase := p.p, again := false } else x
      logs := (h, []) :: wp.logs.filter fun x => x.1 != h }
    s.putPhaser t h p.arrive
  | _, _ => s

/-- R130, R301: an engine completion arrives on a phaser. -/
def State.arriveEngine (s : State) (t h : Nat) : State :=
  match s.phaser? t h with
  | some p => s.putPhaser t h p.arrive
  | none => s

/-- R378, R500: the arrival of an engine of a die on a phaser that another die holds. While that die cannot be reached it waits. -/
def State.sendArrival (s : State) (t die h : Nat) : State :=
  if hScope h = 2 || s.reaches die (hDie h) then s.arriveEngine t h
  else
    let l := s.launchOf (s.team t).launch
    { s with waits := s.waits ++ [{ owner := .arrival t h, pf := l.pf, ctx := (s.queue l.pf l.q).ctx, die, va := noVa, remote := true
                                    deadline := (s.die die).time + s.limits.crossDie }] }

/-- A waiting arrival reaches the phaser's die, or its time-out ends the context (R500). -/
def State.retryArrival (s : State) (x : Waiting) : State :=
  match x.owner with
  | .arrival t h =>
    if !s.waits.contains x then s
    else if s.reaches x.die (hDie h) then ({ s with waits := s.waits.erase x }.arriveEngine t h).teamCheck t
    else if (s.die x.die).time < x.deadline then s
    else s.terminate x.pf x.ctx 0x90
  | _ => s

def State.retryArrivals (s : State) : State := s.waits.foldl State.retryArrival s

/-! ## Transactions -/

/-- R478: the order in which abort reasons decide. -/
def abortRank (code : Nat) : Nat :=
  match code with
  | 0x0A => 0
  | 0x09 => 1
  | 0x02 => 2
  | 0x01 => 3
  | 0x03 => 4
  | 0x04 => 5
  | _ => 6

def firstAbort : List Abort → Option Abort
  | [] => none
  | a :: l => match firstAbort l with
    | none => some a
    | some b => if abortRank b.code < abortRank a.code then some b else some a

/-- R225: the abort word. -/
def Abort.word (a : Abort) : Word := BitVec.ofNat 32 (2 ^ 16 * (a.user % 2 ^ 16) + 2 ^ 8 * (a.cause % 256) + a.code % 256)

/-- R229: ends the warp's transaction with the reason that R478 picks; the warp resumes after its `TXBEG`. -/
def State.abortTx (s : State) (t w : Nat) (more : List Abort) : State :=
  match ((s.team t).warp w).mode with
  | .transactional x =>
    match firstAbort (x.aborts ++ more) with
    | none => s
    | some a =>
      let tm := s.team t
      let l := s.launchOf tm.launch
      let s := s.restoreWarp t w x.shadow (x.shadow.pc + 8)
      let s := s.modWarp t w fun wp => wp.setW x.wd a.word
      s.count l.id (warpCore l.hdr l.t tm.core w) 0x11 1
  | _ => s

/-- R227: the transaction's stores perform at once, as a release; the warp returns to the normal state. -/
def State.commitTx (s : State) (t w : Nat) : State :=
  match ((s.team t).warp w).mode with
  | .transactional x =>
    let s := s.modWarp t w fun wp => { wp with mode := .normal }
    s.flushBuf t w x.buf x.pages
  | _ => s

end Sys2Proof.Machine
end

