-- ==== Sys2Proof/Machine/Ops.lean ====
section
/-! DEFINITION. Taking a trap (R453 to R461), returning from one (R458), stopping a grid (R213, R353), and how an
instruction's effect ends. -/

namespace Sys2Proof.Machine

/-! ## Stopping (R353) -/

/-- R293: the accumulators whose operations have retired and which no marked instruction has released yet. -/
def Frag.unmarked (fr : Frag) : List Outstanding :=
  (fr.out.filter fun o => o.cls == .accumulator && (o.after || fr.st != .switchParked)).map fun o => { o with returned := true, op := none }

/-- R353: a fragment as a stop leaves it: its outstanding results are in its registers, and a wait is abandoned and its
instruction not yet executed (R220). The position that the wait took stays, with no register (R82; log entry 95). A gather keeps
the threads whose data has not returned (R69), and the read-modify-writes of an atomic go on to their end. -/
def Frag.stopped (fr : Frag) : Frag :=
  let fr : Frag := { fr with out := fr.unmarked, bounds := [] }
  let blank : WindowEntry := { valid := false, trans := false, cls := .vector, reg := 0, nreg := 0, fwd := [] }
  match fr.st with
  | .switchParked => { fr with st := .running, held := false }
  | .waiting (.gather _ _) => fr
  | .waiting (.rmws _ _ _) => fr
  | .waiting .frame => fr
  | .waiting .host => fr
  | .waiting _ =>
    { fr with st := .running, counted := false, walked := false, held := true, win := if fr.counted then pushWindow (fr.win.drop 1) blank else fr.win }
  | _ => { fr with held := false }

/-- R303, R337: a command as a stop leaves it: it resumes at its index, or, for a coordinate command or a walk, from its
beginning. A `WLOAD` in progress completes. -/
def Cmd.stopped (c : Cmd) : Cmd :=
  let kind := (c.words.headD 0).toNat / 2 ^ 24 % 16
  let opc := (c.words.headD 0).toNat / 2 ^ 16 % 256
  let again := kind == 1 || (kind == 3 && opc == 1)
  match c.st with
  | .takenUp =>
    if kind == 3 && opc == 0 then c
    else { c with st := .launched, walk := none, stall := none, idx := if again then 0 else c.idx, paid := false }
  | .launched => { c with stall := none, idx := if again then 0 else c.idx }
  | _ => c

/-- R337: the products of a team's Pergola commands leave the matrix queues of its cluster. -/
def State.dropProducts (s : State) (t : Nat) : State :=
  let mine (o : MatrixOp) : Bool := o.team == t && o.cmd.isSome
  let hit := s.cores.filter fun c => c.2.matrix.any mine
  hit.foldl (fun s c => (s.modCore c.1 fun k => { k with matrix := k.matrix.filter fun o => !mine o }).wakeOn c.1 .matrix) s

/-- R293: the operations of a team that are queued on its core retire. -/
def State.drainTeam (s : State) (t : Nat) : (fuel : Nat) → State
  | 0 => s
  | fuel + 1 =>
    let c := (s.team t).core
    if (s.core c).matrix.any fun o => o.team == t then (s.retireHead c).drainTeam t fuel else s

/-- R81, R183: the repeats that a warp has to complete: those of its first fragment outside a trap routine that is in a `REP`, else what
`sr.repcnt` holds of a trapped one. -/
def Team.repeatsOf (tm : Team) (w : Nat) : Nat :=
  ((tm.frags.filterMap fun f => if f.warp == w && !f.priv then f.rep else none).map (·.left)).headD (tm.warp w).repcnt

/-- A warp as a stop leaves it: R183 has `sr.repcnt` hold the repeats to come, and a registration says whether its arrival is pending
(R216). -/
def Team.stopWarp (tm : Team) (p : Nat → Option Phaser) (w : Nat) : Team :=
  let waits (r : Registration) : Bool := ((p r.handle).map r.waits).getD false
  tm.modWarp w fun wp => { wp with repcnt := tm.repeatsOf w, regs := wp.regs.map fun r => { r with pending := waits r } }

/-- R303, R495: the team is being saved, with its stop watchdog set. -/
def Team.stopping (tm : Team) (watchdog : Nat) : Team := { tm with st := .saving, cmds := tm.cmds.map Cmd.stopped, watchdog }

/-- R353: one team stops at instruction boundaries. -/
def State.stopTeam (s : State) (t : Nat) : State :=
  let s := (List.range (s.team t).warps.length).foldl (fun s w =>
    (s.rollback t w).abortTx t w [{ code := 0x09, cause := 0, user := 0 }]) s
  let s := s.dropProducts t
  let s := s.drainTeam t ((s.core (s.team t).core).matrix.length)
  let s := s.deliver fun x => x.team == t
  let l := s.launchOf (s.team t).launch
  let s := s.modCtx l.pf (s.queue l.pf l.q).ctx fun c => { c with requests := c.requests.filter fun r => r.team != t }
  let s := s.modTeam t fun tm => (List.range tm.warps.length).foldl (Team.stopWarp · (s.phaser? t) ·) tm
  s.modTeam t fun tm => ({ tm with frags := tm.frags.map Frag.stopped } : Team).popWords.stopping ((s.die (dieOfCore tm.core)).time + s.limits.stopWatchdog)

/-- R353: every running team of a launch stops. -/
def State.stopLaunch (s : State) (l : Nat) : State :=
  (s.teamsOfLaunch l).foldl (fun s t =>
    if t.st == .resident || t.st == .regionOpen then s.stopTeam t.id else s) s

/-- R213: the grid halts: its teams stop and its launch will complete with HALTED. -/
def State.haltLaunch (s : State) (l : Nat) : State :=
  (s.modLaunch l fun x => { x with halting := true }).stopLaunch l

/-- The trap information of the instruction in issue (R456). -/
def Env.info (e : Env) (cause frank fmask addr : Nat) : TrapInfo :=
  { cause, tcode := 0, addr, spc := e.pc, fmask, frank, late := false, words := e.words }

/-- R456: checks 1 to 6 concern the whole active set, and its lowest rank decides. -/
def Env.infoAll (e : Env) (cause addr : Nat) : TrapInfo :=
  e.info cause ((e.active.map (·.rank)).getD 0 0) (ranksOf e.active) addr

/-! ## Trap entry -/

/-- R454, R455: writes the frame of the fragment's warp. -/
def State.writeFrame (s : State) (e : Env) (x : TrapInfo) (fwd : Bool) : Except Denied State :=
  let h := e.hdr
  let base := e.ln.save + e.ln.recordAt e.tm.num e.fr.warp
  let ps := e.framePieces
  let area := (ps.filter fun y => y.1 < h.execAt).map fun y => (y.1 - h.frameAt, y.2)
  let mk := h.masksAt + h.maskSet
  let masks := (ps.filter fun y => mk ≤ y.1).map fun y => (y.1 - mk, y.2)
  let fuel := h.areas / 16384 + 3
  (s.savePieces (.unit e.g) e.pf (e.ctx s) e.die (base + h.frameAt) h.areas area fuel).bind fun s =>
    (s.savePieces (.unit e.g) e.pf (e.ctx s) e.die (base + h.headAt) 512 (e.headPieces x fwd) 3).bind fun s =>
      s.savePieces (.unit e.g) e.pf (e.ctx s) e.die (base + mk) h.maskSet masks 3

/-- R495, R454: a save write that faults terminates the context. -/
def State.saveFault (s : State) (pf ctx : Nat) : State := { (s.terminate pf ctx 0x83) with pfail := true }

/-- R482: the first uncorrectable word that the walks to a context's addresses from `va` on meet, or that stands there (`data`). -/
def State.badWithin (s : State) (pf ctx die : Nat) (data : Bool) (va n : Nat) : Option Nat :=
  let w : Who := { pf, ctx, die, by_ := 0, team := 0, walks := true }
  (List.range (n / 64 + 1)).findSome? fun i =>
    let a := 64 * (va / 64 + i)
    match s.leaf w a with
    | .bad p => some p
    | .found _ e lvl => match s.placeOf pf (entryAddr e / 2 ^ pageBits lvl * 2 ^ pageBits lvl + a % 2 ^ pageBits lvl) with
      | some p => if data && s.isBad p then some p else none
      | none => none
    | _ => none

/-- R482, R495: the device's read (`data`) or write of the save area failed. An uncorrectable word that it met ends the context as any
other that a read or a walk meets. -/
def State.areaFault (s : State) (data : Bool) (pf ctx die va n cause : Nat) : State :=
  match if cause = 0x37 then s.badWithin pf ctx die data va n else none with
  | some p => s.badWord pf ctx p
  | none => s.saveFault pf ctx

def State.readFault (s : State) (pf ctx die va n cause : Nat) : State := s.areaFault true pf ctx die va n cause
def State.writeFault (s : State) (pf ctx die va n cause : Nat) : State := s.areaFault false pf ctx die va n cause

/-- What goes on after a write of a fragment to the save area, after its fault (R482, R495), or while it waits (R108, R378). -/
def State.afterSave (e : Env) (r : Except Denied State) (hold go : State → State) : State :=
  match r with
  | .error (.fault s c) => s.writeFault e.pf (e.ctx s) e.die (e.ln.save + e.ln.recordAt e.tm.num e.fr.warp) e.hdr.recordSize c
  | .error (.wait s) => hold s
  | .ok s => go s

/-- R84, R457: at trap entry every forwarded value reaches its register; a uniform one of a fragment that is not whole stays with
the fragment, whose siblings have windows of their own. -/
def Team.materialize (tm : Team) (fr : Frag) (whole : Bool) : Team :=
  fr.win.reverse.foldl (fun (tm : Team) (x : WindowEntry) => x.fwd.foldl (fun (tm : Team) (y : Forwarded) => match x.cls with
    | .vector => tm.modThread y.tid fun (th : Thread) => th.setV y.reg y.val
    | .predicate => tm.modThread y.tid fun th => th.setP y.reg (y.val != 0)
    | .uniform => if whole then tm.modWarp fr.warp fun wp => wp.setW y.reg y.val else tm
    | .accumulator => tm) tm) tm

/-- The transient uniform values that a window holds. -/
def Frag.uniforms (fr : Frag) : List Forwarded := (fr.win.filter fun x => x.cls == .uniform).flatMap (·.fwd)

/-- R82: an instruction that does not complete takes no position: the one that it took as it began to wait goes.
A trap ends a `CLAIM` in progress (R475). -/
def Frag.uncount (fr : Frag) : Frag :=
  let fr : Frag := { fr with claim := 0, bounds := [] }
  if fr.counted then { fr with counted := false, win := fr.win.drop 1 } else fr

/-- R457: v0:v1 hold the frame header's address and v2 the cause word in every active thread. -/
def Team.trapRegs (tm : Team) (mem : List Member) (va cause : Nat) : Team :=
  mem.foldl (fun tm m => tm.modThread m.tid fun th =>
    ((th.setV 0 (BitVec.ofNat 32 va)).setV 1 (BitVec.ofNat 32 (va / 2 ^ 32))).setV 2 (BitVec.ofNat 32 cause)) tm

/-- R83, R458: the registers among those that trap entry covers that had expired. -/
def Team.coveredX (tm : Team) (l : List Forwarded) : List (Nat × Nat) :=
  (l.filter fun y => (tm.thread y.tid).vx.contains y.reg).map fun y => (y.tid, y.reg)

/-- R457, R458: what trap entry covers in the home bank of a relocated thread. -/
def Team.covered (tm : Team) (mem : List Member) : List Forwarded :=
  mem.flatMap fun m => [0, 1, 2].filterMap fun r =>
    if (tm.thread m.tid).keeps m r then none else some { tid := m.tid, reg := r, val := (tm.thread m.tid).v.getD r 0 }

/-- R454 step 4: the fragment enters the privileged state at the kernel's TRAP address with an empty window. -/
def Frag.enter (fr : Frag) (pc : Nat) (whole : Bool) (kept : List Forwarded) (keptX : List (Nat × Nat)) : Frag :=
  { fr with priv := true, win := [], out := [], rep := none, pc, st := .running, trap := none, counted := false
            walked := false, wholeAt := whole, kept, keptX, keptW := if whole then [] else fr.uniforms }

/-- R459: the trap waits, its instruction unexecuted, for the frame or for a write of the frame. -/
def State.holdTrap (s : State) (e : Env) (x : TrapInfo) : State :=
  s.modFrag e.t e.g fun fr => { fr with st := .waiting .frame, trap := some x }

/-- R459 to R461, R454: a trap of a fragment outside the privileged state, with its warp's frame free. -/
def State.enterTrap (s : State) (e : Env) (x : TrapInfo) : State :=
  let s := s.settle e.t e.g
  let ctx := e.ctx s
  let fwd := (s.ctx e.pf ctx).hostTraps
  State.afterSave e (s.writeFrame e x fwd) (fun s => s.holdTrap e x) fun s =>
    let s := s.dropL1 e.core
    let s := if x.late then s.modTeam e.t fun tm => tm.dropLate e.g x else s
    let va := e.ln.headVa e.tm.num e.fr.warp
    let cw := causeWord x e.fr.rep.isSome e.whole e.region fwd
    let s := s.modWarp e.t e.fr.warp fun wp => { wp with frame := true, repcnt := e.repcnt }
    let keep (fr : Frag) : List Forwarded := if e.whole then [] else fr.uniforms
    if fwd then
      let s := s.modFrag e.t e.g fun fr =>
        { fr with st := .waiting .host, priv := true, trap := none, out := [], wholeAt := e.whole, kept := [], keptX := [], keptW := keep fr, counted := false }
      s.ctxEvent e.pf ctx e.die 2 0x10 e.die x.cause va
    else if e.hdr.trap = 0 then
      (s.modFrag e.t e.g fun fr => { fr with st := .running, trap := none, fromFrame := true, wholeAt := e.whole, keptW := keep fr, counted := false }).haltLaunch e.ln.id
    else
      s.modTeam e.t fun tm =>
        let tm := tm.materialize e.fr e.whole
        let kept := tm.covered e.fr.mem
        let keptX := tm.coveredX kept
        let tm := tm.trapRegs e.fr.mem va cw
        tm.modFrag e.g fun fr => fr.enter e.hdr.trap e.whole kept keptX

/-- R460: a trap condition in the privileged state: the frame stays that of the first trap, NCAUSE holds the second
cause, an event is written and the grid halts. -/
def State.secondTrap (s : State) (e : Env) (x : TrapInfo) : State :=
  let ctx := e.ctx s
  let va := e.ln.headVa e.tm.num e.fr.warp
  State.afterSave e (s.deviceWrite (.unit e.g) e.pf ctx e.die (va + 76) (leBytes 4 x.cause)) (fun s => s.holdTrap e x) fun s =>
    let s := s.ctxEvent e.pf ctx e.die 2 0x12 e.die 0x80 va
    (s.modFrag e.t e.g fun fr => { fr with st := .running, fromFrame := true, trap := none }).haltLaunch e.ln.id

/-- R453 to R461: takes a trap for a fragment whose warp is in the normal state. The instruction has taken no position (R82), and
a late report comes first (R453, R471). -/
def State.takeTrap (s : State) (e : Env) (x : TrapInfo) : State :=
  let e := { e with fr := e.fr.uncount }
  let s := (s.deliverFrag e.t e.g).modFrag e.t e.g Frag.uncount
  let x := ((s.team e.t).late e.g).getD x
  if e.fr.priv then s.secondTrap e x
  else if ((s.team e.t).warp e.fr.warp).frame then s.holdTrap e x
  else s.enterTrap e x

/-- R146, R224, R229: a trap condition: taken in the normal state, a pause of a speculator, the abort of a
transaction. -/
def State.raise (s : State) (e : Env) (x : TrapInfo) : State :=
  match ((s.team e.t).warp e.fr.warp).mode with
  | .normal => s.takeTrap e x
  | .speculative _ => s.park e.t e.g .pause
  | .transactional _ => s.abortTx e.t e.fr.warp [{ code := 0x06, cause := x.cause, user := 0 }]

/-! ## Return from a trap (R458) -/

/-- What `ERET` reads of a frame. -/
structure FrameRead where
  pc : Nat
  rep : Bool
  active : Nat
  prefix0 : Word
  prefix1 : Word
  repcnt : Nat
  wins : List Nat
  regs : List (Nat × List Word × Nat)
  preds : List Nat
  predX : List (Nat × Nat)
  unis : List Word
  uniX : Nat

/-- Reads a list of words of the save area. -/
def State.saveWords (s : State) (own : Asker) (pf ctx die : Nat) : List Nat → Except Denied (List Word)
  | [] => .ok []
  | a :: l => match s.saveNat own pf ctx die a 4, s.saveWords own pf ctx die l with
    | .ok x, .ok r => .ok (BitVec.ofNat 32 x :: r)
    | .error c, _ => .error c
    | _, .error c => .error c

def State.saveDoubles (s : State) (own : Asker) (pf ctx die : Nat) : List Nat → Except Denied (List Nat)
  | [] => .ok []
  | a :: l => match s.saveNat own pf ctx die a 8, s.saveDoubles own pf ctx die l with
    | .ok x, .ok r => .ok (x :: r)
    | .error c, _ => .error c
    | _, .error c => .error c

/-- The registers of one rank: its words and its expired mask. -/
def State.readRank (s : State) (e : Env) (base : Nat) (m : Member) : Except Denied (Nat × List Word × Nat) :=
  let h := e.hdr
  let mk := base + h.masksAt + h.maskSet
  let n := if (e.tm.thread m.tid).child then 16 else 8 * h.vgran
  match s.saveWords (.unit e.g) e.pf (e.ctx s) e.die ((List.range n).map fun r => base + h.frameAt + 4 * h.lanes * r + 4 * m.rank),
    s.saveDoubles (.unit e.g) e.pf (e.ctx s) e.die ((List.range 4).map fun k => mk + 32 * m.rank + 8 * k) with
  | .ok ws, .ok xs => .ok (m.rank, ws, (xs.zipIdx.map fun y => y.1 * 2 ^ (64 * y.2)).sum)
  | .error c, _ => .error c
  | _, .error c => .error c

def State.readRanks (s : State) (e : Env) (base : Nat) : List Member → Except Denied (List (Nat × List Word × Nat))
  | [] => .ok []
  | m :: l => match s.readRank e base m, s.readRanks e base l with
    | .ok x, .ok r => .ok (x :: r)
    | .error c, _ => .error c
    | _, .error c => .error c

def State.readPredX (s : State) (e : Env) (base : Nat) : List Member → Except Denied (List (Nat × Nat))
  | [] => .ok []
  | m :: l =>
    match s.saveNat (.unit e.g) e.pf (e.ctx s) e.die (base + e.hdr.masksAt + e.hdr.maskSet + 32 * e.hdr.lanes + 8 + m.rank) 1,
      s.readPredX e base l with
    | .ok x, .ok r => .ok ((m.rank, x) :: r)
    | .error c, _ => .error c
    | _, .error c => .error c

/-- R458: reads the frame of the fragment's warp. -/
def State.readFrame (s : State) (e : Env) : Except Denied FrameRead := do
  let h := e.hdr
  let base := e.ln.save + e.ln.recordAt e.tm.num e.fr.warp
  let head := base + h.headAt
  let rd := s.saveNat (.unit e.g) e.pf (e.ctx s) e.die
  let pc ← rd head 8
  let cw ← rd (head + 8) 4
  let active ← rd (head + 32) 8
  let p0 ← rd (head + 64) 4
  let p1 ← rd (head + 68) 4
  let rc ← rd (head + 72) 4
  let wins ← s.saveWords (.unit e.g) e.pf (e.ctx s) e.die ((List.range 8).map fun i => head + 80 + 4 * i)
  let regs ← s.readRanks e base e.active
  let preds ← s.saveDoubles (.unit e.g) e.pf (e.ctx s) e.die
    ((List.range 7).map fun r => base + h.frameAt + 32 * h.vgran * h.lanes + 32 * h.ugran + 8 * r)
  let predX ← s.readPredX e base e.active
  let unis ← s.saveWords (.unit e.g) e.pf (e.ctx s) e.die
    ((List.range (8 * h.ugran)).map fun r => base + h.frameAt + 32 * h.vgran * h.lanes + 4 * r)
  let uniX ← rd (base + h.masksAt + h.maskSet + 32 * h.lanes) 8
  return { pc, rep := cw.testBit 28, active, prefix0 := BitVec.ofNat 32 p0, prefix1 := BitVec.ofNat 32 p1, repcnt := rc
           wins := wins.map (·.toNat), regs, preds, predX, unis, uniX }

/-- The bits of a mask, as register numbers. -/
def bitsOf (n mask : Nat) : List Nat := (List.range n).filter fun i => mask.testBit i

/-- R84, R458: does a newer entry of a restored window write a register of a class? -/
def shadowedBy (newer : List WindowEntry) (c : RegClass) (r : Nat) : Bool :=
  newer.any fun x => x.valid && x.cls == c && x.reg ≤ r && r < x.reg + x.nreg

/-- R84, R458: restored window entries whose K is 1 forward the slot values again. An entry holds neither its values nor its guard, so
one of either K hides an older one of the same register, and one forwards for every active thread (DEDUCED, log entry 103). -/
def rearm (val : RegClass → Nat → Nat → Word) (tids : List Nat) : List WindowEntry → List WindowEntry → List WindowEntry
  | _, [] => []
  | newer, x :: l =>
    let regs := (List.range x.nreg).map fun i => x.reg + i
    let fwd : List Forwarded := if x.valid && x.trans then
        regs.flatMap fun r => if shadowedBy newer x.cls r then []
          else match x.cls with
            | .uniform => [{ tid := 0, reg := r, val := val .uniform 0 r }]
            | .accumulator => []
            | c => tids.map fun t => { tid := t, reg := r, val := val c t r }
      else []
    { x with fwd } :: rearm val tids (newer ++ [x]) l

/-- R458: the registers of one member from its slots, with their expired state; a relocated thread keeps what is outside its live set
as it stood at the trap entry. -/
def Team.restoreRank (tm : Team) (m : Member) (ws : List Word) (mask : Nat) (preds : List Nat) (px : Nat)
    (kept : List Forwarded) (keptX : List (Nat × Nat)) : Team :=
  tm.modThread m.tid fun th =>
    let was (r : Nat) : Bool := if kept.any fun k => k.tid == m.tid && k.reg == r then keptX.contains (m.tid, r) else th.vx.contains r
    let v := th.v.zipIdx.map fun y =>
      if th.keeps m y.2 then ws.getD y.2 0
      else ((kept.find? fun k => k.tid == m.tid && k.reg == y.2).map (·.val)).getD y.1
    { th with
      v
      vx := (List.range 256).filter fun r => if th.keeps m r then mask.testBit r else was r
      p := (List.range 7).map fun i => (preds.getD i 0).testBit m.rank
      px := bitsOf 7 px }

/-- R171, R172: the words that an instruction at a place takes within its fetch block, and whether it ends there. Of the values
that R173 allows for a block that the grid stores to, the newest is read (log entry 77). -/
def State.blockWords (s : State) (place pc : Nat) : List Word × Bool :=
  let room := 8 - pc / 4 % 8
  let w0 := BitVec.ofNat 32 (s.mem.nat place 4)
  let n := w0.toNat % 4 + 1
  ((List.range (min n room)).map fun i => BitVec.ofNat 32 (s.mem.nat (place + 4 * i) 4), n ≤ room)

/-- A fetch: the words, a trap, a wait for a walk or another die, or an uncorrectable word. -/
inductive FetchResult where
  | words (s : State) (ws : List Word)
  | trap (s : State) (x : TrapInfo)
  | wait (s : State) (w : Wait)
  | bad (place : Nat)

/-- R173, R172: fetches the instruction at the fragment's pc. -/
def Env.fetch (e : Env) (s : State) : FetchResult :=
  let va := e.pc
  if 2 ^ 56 ≤ va ∨ va / 2 ^ 48 = 255 then .trap s (e.infoAll 0x44 va)
  else match e.translate s va .fetch with
    | .fault s c => .trap s (e.infoAll (if c = 0x42 then 0x44 else c) va)
    | .walk => .wait s (.walk va)
    | .pool s => .wait s (e.poolWait s va)
    | .asked s r => .wait s (.placement r va)
    | .remote => .wait s (e.dieWait s va)
    | .bad p => .bad p
    | .ok s place _ _ _ =>
      if isHost place then .trap s (e.infoAll 0x44 va)
      else if s.isBad place then .bad place
      else match s.blockWords place va with
        | (ws, true) => .words s ws
        | (ws, false) => .trap s ({ e with words := ws }.infoAll 0x03 0)

/-- R183: a word that a `REP` may not repeat. -/
def notRepeated (w : Word) : Bool :=
  let major := (w.extractLsb' 8 8).toNat
  major < 0x20 || 0xB8 ≤ major || w.toNat % 4 == 0

/-- The first word that a fetch read; an instruction that runs past its fetch block has one too (R172). -/
def FetchResult.first? : FetchResult → Option Word
  | .words _ ws => ws.head?
  | .trap _ x => if x.cause = 0x03 then x.words.head? else none
  | _ => none

/-- R183, R186, R458: the instruction at the PC that a frame with the REP bit holds: its length by the L field, or the state that
the `ERET` ends in. It traps where no `REP` may repeat that instruction, and waits as the fetch does. Where nothing can be fetched
there, the repeats go on and meet it at their own turn; with none left, the fetch's cause is the trap (DEDUCED, log entry 120). -/
def State.repeatedAt (s : State) (e : Env) (rep : Bool) (pc cnt : Nat) : Except State (State × Nat) :=
  if !rep then .ok (s, 0)
  else
    let x := { e with pc }.fetch s
    match x.first?, x with
    | some w, .words s _ | some w, .trap s _ =>
      if notRepeated w then .error (s.secondTrap e (e.infoAll 0x01 0)) else .ok (s, 4 * (w.toNat % 4 + 1))
    | _, .trap s x => if cnt = 0 then .error (s.secondTrap e (e.infoAll x.cause x.addr)) else .ok (s, 0)
    | _, .wait s _ => .error (s.modFrag e.t e.g fun fr => { fr with fromFrame := true, st := .running, after := (s.core e.core).cycle + 2 })
    | _, .bad p => .error (s.badWord e.pf (e.ctx s) p)
    | _, .words s _ => .ok (s, 4)

/-- R84: the registers whose values a restored window holds are expired again. -/
def Team.expire (tm : Team) (w : Nat) (win : List WindowEntry) : Team :=
  win.foldl (fun tm x => x.fwd.foldl (fun tm y => match x.cls with
    | .vector => tm.modThread y.tid fun th => { th with vx := insertNat y.reg th.vx }
    | .predicate => tm.modThread y.tid fun th => { th with px := insertNat y.reg th.px }
    | .uniform => tm.modWarp w fun wp => { wp with wx := insertNat y.reg wp.wx }
    | .accumulator => tm) tm) tm

/-- The fragment `g` of team `t`, with what its frame gives. -/
def State.resumeWith (s : State) (t g : Nat) (e : Env) (frame : Except Denied FrameRead) : State :=
  match frame with
  | .error (.fault s c) => s.readFault e.pf (e.ctx s) e.die (e.ln.save + e.ln.recordAt e.tm.num e.fr.warp) e.hdr.recordSize c
  | .error (.wait s) => s.modFrag t g fun fr => { fr with fromFrame := true, st := .running, after := (s.core e.core).cycle + 2 }
  | .ok f =>
    if f.pc % 4 ≠ 0 then s.secondTrap e (e.infoAll 0x05 0)
    else
      let pre := decode [f.prefix0, f.prefix1]
      let rep : Option RepFields := match pre with
        | .ok (.rep r) => some r
        | _ => none
      if f.rep && rep.isNone then s.secondTrap e (e.infoAll 0x01 0)
      else
        let r := rep.getD { cnt := 0, std := 0, sta := 0, stb := 0, stc := 0 }
        let n := r.cnt.toNat + 1
        let cnt := if f.rep then min f.repcnt n else 0
        match s.repeatedAt e f.rep f.pc cnt with
        | .error s => s
        | .ok (s, len) =>
        let live := e.active.filter fun m => f.active.testBit m.rank
        let gone := e.active.filter fun m => !f.active.testBit m.rank
        let tm := s.team t
        let tm := live.foldl (fun tm m =>
          let x := (f.regs.find? fun y => y.1 == m.rank).map (·.2)
          tm.restoreRank m ((x.map (·.1)).getD []) ((x.map (·.2)).getD 0) f.preds ((lookup m.rank f.predX).getD 0) e.fr.kept e.fr.keptX) tm
        let tm := if e.fr.wholeAt then tm.modWarp e.fr.warp fun wp => { wp with w := f.unis, wx := bitsOf 64 f.uniX } else tm
        let tids := live.map (·.tid)
        let val : RegClass → Nat → Nat → Word := fun c i r => match c with
          | .vector => (tm.thread i).v.getD r 0
          | .predicate => BitVec.ofNat 32 (bit ((tm.thread i).p.getD r false))
          | _ => if e.fr.wholeAt then (tm.warp e.fr.warp).w.getD r 0
            else ((e.fr.keptW.find? fun y => y.reg == r).map (·.val)).getD ((tm.warp e.fr.warp).w.getD r 0)
        let win := rearm val tids [] (f.wins.map WindowEntry.ofCode)
        let tm := (tm.expire e.fr.warp win).modWarp e.fr.warp fun wp => { wp with frame := false, repcnt := if live.isEmpty then 0 else cnt }
        let pc := if f.rep && cnt = 0 then f.pc + len else f.pc
        let tm := tm.modFrag g fun fr =>
          { fr with priv := false, win, pc, st := .running, out := [], counted := false, walked := false, fromFrame := false, kept := [], keptX := [], keptW := []
                    rep := if f.rep && cnt ≠ 0 then
                        some { prefix0 := f.prefix0, prefix1 := f.prefix1, fields := r, left := cnt }
                      else none }
        let s := s.modTeam t fun _ => tm.popWords
        if gone.isEmpty then s else s.exitThreads t g (gone.map (·.tid))

/-- R458, R212: the fragment resumes from what its frame holds. -/
def State.resumeFrame (s : State) (t g : Nat) : State := s.resumeWith t g (s.envAt t g) (s.readFrame (s.envAt t g))

/-! ## How an effect ends -/

/-- What an instruction's effect comes to: it completes with a result and continues after itself or elsewhere; a
condition of step 7 fails; it waits, having taken its position or unexecuted; a transaction's own abort reason; or it
has already put the fragment where it goes. -/
inductive Effect where
  | done (s : State) (r : Res)
  | jump (s : State) (r : Res) (pc : Nat)
  | trap (s : State) (x : TrapInfo)
  | wait (s : State) (w : Wait)
  | hold (s : State) (w : Wait)
  | abort (s : State) (code user : Nat)
  | placed (s : State)

/-- R84, R453: an event that waits for the outstanding results; a late report is taken in place of it. -/
def Env.settled (e : Env) (s : State) (k : State → Effect) : Effect :=
  let s := s.settle e.t e.g
  match (s.team e.t).late e.g with
  | some x => .trap s x
  | none => k s

def Warp.inTx (wp : Warp) : Bool := match wp.mode with
  | .transactional _ => true
  | _ => false

/-- R105: an instruction that releases is held while its team has read-modify-writes to come. The release of a transaction is that of its
end (R148). -/
def Env.held (e : Env) (s : State) (f : Fields) : Bool :=
  (f.ann == 2 || f.ann == 3) && e.storesDue s && !((s.team e.t).warp e.fr.warp).inTx

def Env.onRelease (e : Env) (s : State) (f : Fields) (k : Effect) : Effect := if e.held s f then .hold s .release else k

/-- The length in bytes of the instruction in issue (R171). -/
def Env.next (e : Env) (f : Fields) : Nat := e.pc + f.len.bytes

/-- Puts an effect into the state. -/
def Env.conclude (e : Env) (f : Fields) (r : Ret) : Effect → State
  | .done s x => s.retire e r x (e.next f)
  | .jump s x pc => s.retire e r x pc
  | .trap s x => s.raise e x
  | .wait s w => s.suspend e r w
  | .hold s w => s.park e.t e.g w
  | .abort s code user => s.abortTx e.t e.fr.warp [{ code, cause := 0, user }]
  | .placed s => s

end Sys2Proof.Machine
end

