-- ==== Sys2Proof/Machine/Operands.lean ====
section
/-! DEFINITION. The checks before an instruction acts (R186 steps 3 to 6): which registers each operand takes, what
each instruction accepts, hazards, and what the warp's execution state makes of it (R146, R224, R261, R293). -/

namespace Sys2Proof.Machine

/-! ## Operand widths -/

/-- R151: the formats of 64 bits. -/
def is64 (typ : Nat) : Bool := typ == 0x03 || typ == 0x07 || typ == 0x0B
def isBlock (t : Nat) : Bool := t == 0x18 || t == 0x19 || t == 0x1A
def isPacked (t : Nat) : Bool := t == 0x10 || t == 0x11
def isInt (t : Nat) : Bool := 0x04 ≤ t && t ≤ 0x0B
def isScalarFloat (t : Nat) : Bool := [0x0E, 0x0C, 0x0D, 0x14, 0x15, 0x16].contains t
def isFloat3 (t : Nat) : Bool := [0x0E, 0x0C, 0x0D].contains t

/-- The registers of an operand and the multiple that the first must be of. -/
abbrev Span := Nat × Nat

/-- R278: the registers of a conversion's destination and source. -/
def cvtDstSpan (d s : Nat) : Span :=
  if d == 0x18 then (3, 1)
  else if isBlock d then (2, 1)
  else if isBlock s then (if d == 0x0E then 8 else 4, 1)
  else if is64 d || (d == 0x0E && isPacked s) then (2, 2)
  else (1, 1)

def cvtSrcSpan (d s : Nat) : Span :=
  if isBlock d then (if s == 0x0E then 8 else 4, 1)
  else if s == 0x18 then (3, 1)
  else if isBlock s then (2, 1)
  else if is64 s || (s == 0x0E && isPacked d) then (2, 2)
  else (1, 1)

/-- R81: the special registers of 64 bits. -/
def csr64 (n : Nat) : Bool := [0x010, 0x011, 0x030, 0x040, 0x041, 0x042, 0x043].contains n

/-- R237, R232, R249, R257, R262, R278: the registers that an operand of a width takes. -/
def span (lanes : Nat) (f : Fields) : Wide → Span
  | .one => (1, 1)
  | .two => (2, 2)
  | .three => (3, 1)
  | .byTyp => if is64 f.typ.toNat then (2, 2) else (1, 1)
  | .byAddr => if f.space < 2 then (2, 2) else (1, 1)
  | .byCsr => if csr64 f.csr then (2, 2) else (1, 1)
  | .byWidth => if lanes = 64 then (2, 2) else (1, 1)
  | .cas => if is64 f.typ.toNat then (4, 4) else (2, 2)
  | .cvtDst => cvtDstSpan f.typ.toNat (f.sc.toNat % 32)
  | .cvtSrc => cvtSrcSpan f.typ.toNat (f.sc.toNat % 32)

/-- A use of consecutive registers. -/
structure Use where
  cls : RegClass
  reg : Nat
  n : Nat
  align : Nat
  write : Bool
  deriving DecidableEq, Repr

/-- The use of one field. -/
def useOf (lanes : Nat) (f : Fields) (s : Slot) (w : Wide) (x : BitVec 8) (uni write : Bool) : List Use :=
  let p := span lanes f w
  match s with
  | .vu => [{ cls := if uni then .uniform else .vector, reg := x.toNat, n := p.1, align := p.2, write }]
  | .v => [{ cls := .vector, reg := x.toNat, n := p.1, align := p.2, write }]
  | .w => [{ cls := .uniform, reg := x.toNat, n := p.1, align := p.2, write }]
  | .pdst | .psrc => if x.toNat % 8 = 7 then [] else [{ cls := .predicate, reg := x.toNat % 8, n := 1, align := 1, write }]
  | .acc => [{ cls := .accumulator, reg := x.toNat, n := 1, align := 1, write }]
  | _ => []

/-- Uses that the shape does not show: the carry that `IADDC` writes (R241), the predicate of `FSET` (R274), and the
accumulator that `MMA` reads (R288). -/
def extraUses (i : Instr) (f : Fields) : List Use :=
  match i with
  | .iaddc _ => if f.sc.toNat % 8 = 7 then [] else [{ cls := .predicate, reg := f.sc.toNat % 8, n := 1, align := 1, write := true }]
  | .fset _ => if f.sc.toNat % 8 = 7 then [] else [{ cls := .predicate, reg := f.sc.toNat % 8, n := 1, align := 1, write := false }]
  | _ => []

/-- Every register that an instruction names, its guard included. -/
def usesOf (i : Instr) (f : Fields) (lanes : Nat) : List Use :=
  let h := i.shape
  let sb := if h.immB && f.len != .two then .zero else h.sb
  let sc := if h.immMask && f.len != .two then .zero else h.sc
  let guard : List Use := if f.gp.toNat = 7 then [] else [{ cls := .predicate, reg := f.gp.toNat, n := 1, align := 1, write := false }]
  guard ++ useOf lanes f h.dst h.dstW f.dst (Fields.du f) true ++ useOf lanes f h.sa h.saW f.sa (Fields.au f) false
    ++ useOf lanes f sb h.sbW f.sb (Fields.bu f) false ++ useOf lanes f sc h.scW f.sc (Fields.cu f) false ++ extraUses i f

/-! ## Which instructions are which -/

/-- R198, R284, R294: the instructions that must be whole. -/
def isCollective : Instr → Bool
  | .phinit _ | .phreg _ | .phdrop _ | .pharv _ | .phwait _ | .phaw _ | .bars _ | .txbeg _ | .txend _
  | .tbind _ | .trel _ | .mma _ | .mmabs _ | .azero _ | .amov _ | .ald _ | .ast _
  | .movToQueue _ | .moviToQueue _ | .movFromQueue _ => true
  | _ => false

/-- R77: an instruction with a uniform destination. -/
def isUniform (i : Instr) (f : Fields) : Bool :=
  match i.shape.dst with
  | .vu => Fields.du f
  | .w => true
  | _ => false

/-- R86, R200, R239, R271, R285, R294: the instructions whose result is of variable latency. -/
def isVariable : Instr → Bool
  | .phinit _ | .pharv _ | .phwait _ | .phaw _ | .spawn _ | .tilewait _ | .txbeg _
  | .ld _ | .ldRf _ | .ldro _ | .atomAdd _ | .atomAnd _ | .atomOr _ | .atomXor _ | .atomMin _ | .atomMax _ | .atomXchg _
  | .atomCas _ | .atomInc _ | .atomDec _ | .redxf _
  | .ex2 _ | .lg2 _ | .rcp _ | .rsq _ | .sqrt _ | .sinpi _ | .cospi _ | .ex2s _
  | .mma _ | .mmabs _ | .azero _ | .amov _ | .ald _ | .movFromQueue _ => true
  | _ => false

/-- R289: the operations whose accumulator only a marked instruction that follows them makes readable. -/
def isProduct : Instr → Bool
  | .mma _ | .mmabs _ => true
  | _ => false

/-- R84: what an instruction writes through DST. -/
def retOf (i : Instr) (f : Fields) (lanes : Nat) : Ret :=
  let h := i.shape
  let n := (span lanes f h.dstW).1
  let cls : Option RegClass := match h.dst with
    | .vu => some (if Fields.du f then .uniform else .vector)
    | .v => some .vector
    | .w => some .uniform
    | .pdst => some .predicate
    | .acc => some .accumulator
    | _ => none
  { k := f.trans, sw := f.mark, cls, reg := f.dst.toNat, nreg := n, var := isVariable i, back := false, op := none
    product := isProduct i, isRep := false }

/-! ## Check 3: privilege (R199) -/

def isPrivileged : Instr → Bool
  | .eret _ | .ovld _ | .halt _ => true
  | _ => false

/-! ## Check 4 -/

/-- R75: a register beyond the kernel's count, or one that its operand does not allow. -/
def badReg (h : Header) (u : Use) : Bool :=
  match u.cls with
  | .vector => u.reg % u.align != 0 || 8 * h.vgran < u.reg + u.n
  | .uniform => u.reg % u.align != 0 || 8 * h.ugran < u.reg + u.n
  | _ => false

/-- R75: a tile beyond TILES. -/
def badTile (i : Instr) (f : Fields) (tiles : Nat) : Bool :=
  let h := i.shape
  (h.dst == .tile && tiles ≤ f.dst.toNat) || (h.sa == .tile && tiles ≤ f.sa.toNat) || (h.sb == .tile && tiles ≤ f.sb.toNat)

/-- R161, R277: the pairs of formats that a conversion accepts. -/
def cvtOk (toInt : Bool) (d s : Nat) : Bool :=
  if toInt then isInt d && (isInt s || isScalarFloat s)
  else if isBlock s then isFloat3 d
  else if isBlock d then isFloat3 s
  else if isPacked s then d == 0x0E || (isPacked d && d != s)
  else if isPacked d then s == 0x0E
  else isScalarFloat d && (isScalarFloat s || isInt s)

/-- R151, R237: is the format accepted? -/
def formatOk (i : Instr) (f : Fields) : Bool :=
  match i with
  | .fcvt _ => cvtOk false f.typ.toNat (f.sc.toNat % 32)
  | .icvt _ => cvtOk true f.typ.toNat (f.sc.toNat % 32)
  | _ => i.shape.fmts.isEmpty || i.shape.fmts.contains f.typ.toNat

/-- R157, R259: the rounding mode that an instruction reads. -/
def roundingOf (i : Instr) (f : Fields) : Nat :=
  match i with
  | .fadd _ | .fsub _ | .fmul _ | .ffma _ | .frnd _ | .fcvt _ | .fscale _ => f.rmode
  | .icvt _ => if isInt (f.sc.toNat % 32) then 0 else f.rmode
  | .lredAdd _ | .lredMin _ | .lredMax _ => if f.typ == 0x0E then f.rmode else 0
  | .ast _ => if f.typ == 0x0C || f.typ == 0x0D then f.rmode else 0
  | .redxf _ => f.sb.toNat % 8
  | _ => 0

/-- R249, R262, R268, R292: operands that an instruction does not accept (0x1B). -/
def notAccepted (i : Instr) (f : Fields) (lanes : Nat) : Bool :=
  match i with
  | .xlaneAt _ | .xlaneBack _ | .xlaneFwd _ | .xlaneSwap _ => Fields.du f
  | .xlaneOne _ => Fields.du f || (f.len == .two && !Fields.bu f)
  | .rank _ => Fields.du f
  | .pcolBits _ => (f.typ == 0x03) != (lanes == 64)
  | .ldRf _ => Fields.du f
  | .st _ | .ldro _ | .atomAdd _ | .atomAnd _ | .atomOr _ | .atomXor _ | .atomMin _ | .atomMax _ | .atomXchg _ | .atomCas _
  | .atomInc _ | .atomDec _ | .redAdd _ | .redAnd _ | .redOr _ | .redXor _ | .redMin _ | .redMax _ | .redInc _ | .redDec _ => f.sat
  | .redx _ | .redxf _ | .prefl _ => f.sat || f.space != 0
  | .ald _ => !([0, 3, 4, 5].contains f.space) || 1 < f.ann
  | .ast _ => !([0, 3, 4, 5].contains f.space) || f.ann == 1 || f.ann == 3
  | _ => false

/-- R122, R178, R217: an annotation or a scope that an instruction does not accept (0x13). -/
def badAnnotation (i : Instr) (f : Fields) : Bool :=
  (i.ordered && f.scope == 7) ||
  match i with
  | .fence _ => f.scope == 7
  | .phinit _ => !([2, 4, 5].contains (f.mod.toNat % 8))
  | .ld _ | .ldRf _ => 1 < f.ann
  | .st _ | .redx _ => f.ann == 1 || f.ann == 3
  | .ldro _ | .prefl _ => f.ann != 0
  | _ => false

/-- R52: a live mask of more than 8 bits, or beyond the kernel's registers. -/
def badMask (i : Instr) (f : Fields) (vgran : Nat) : Bool :=
  match i with
  | .rfopen _ | .reform _ =>
    let bits := bitsOf 32 f.imm32.toNat
    8 < bits.length || bits.any fun b => vgran ≤ b
  | _ => false

/-- R232, R233: a thread-scope register into a uniform destination, or a vector source of `CSRW` (0x16). -/
def badCsrClass (i : Instr) (f : Fields) : Bool :=
  match i with
  | .csrr _ => Fields.du f && f.csr < 3
  | .csrw _ => !Fields.cu f
  | _ => false

/-- Check 4 of R186 in its order: the cause of the first failure and, for a child's register, its rank. -/
def Env.check4 (e : Env) (i : Instr) (f : Fields) : Option TrapInfo :=
  let us := usesOf i f e.hdr.lanes
  let childRank := (e.active.filter fun m => (e.tm.thread m.tid).child &&
    us.any fun u => u.cls == .vector && 16 < u.reg + u.n).map (·.rank)
  if us.any (badReg e.hdr) || badTile i f e.hdr.tiles then some (e.infoAll 0x10 0)
  else if !childRank.isEmpty then some (e.info 0x1A (childRank.getD 0 0) (ranksOf e.active) 0)
  else if !formatOk i f then some (e.infoAll 0x11 0)
  else if 5 ≤ roundingOf i f then some (e.infoAll 0x12 0)
  else if notAccepted i f e.hdr.lanes then some (e.infoAll 0x1B 0)
  else if badAnnotation i f then some (e.infoAll 0x13 0)
  else if badMask i f e.hdr.vgran then some (e.infoAll 0x14 0)
  else if badCsrClass i f then some (e.infoAll 0x16 0)
  else none

/-! ## Check 5 -/

/-- R81: the assigned special registers. -/
def csrAssigned (n : Nat) : Bool :=
  n ≤ 0x009 || [0x010, 0x011, 0x018, 0x019, 0x020, 0x021, 0x030, 0x031, 0x040, 0x041, 0x042, 0x043].contains n

/-- R79, R285: an unbound tile, an accumulator at or above ACCS, a queue register at or above QUEUES (0x15). -/
def badHandle (h : Header) (tiles : List DWord) (i : Instr) (f : Fields) : Bool :=
  let sh := i.shape
  let unbound (x : BitVec 8) : Bool := !(tiles.getD x.toNat 0).getLsbD 63
  (sh.sa == .tile && unbound f.sa) || (sh.sb == .tile && unbound f.sb)
    || (match i with | .trel _ => unbound f.dst | _ => false)
    || (sh.dst == .acc && h.accs ≤ f.dst.toNat) || (sh.sa == .acc && h.accs ≤ f.sa.toNat)
    || (sh.sb == .acc && h.accs ≤ f.sb.toNat)
    || (sh.dst == .queue && h.queues ≤ f.dst.toNat) || (sh.sa == .queue && h.queues ≤ f.sa.toNat)

def badCsr (i : Instr) (f : Fields) : Bool :=
  match i with
  | .csrr _ => !csrAssigned f.csr
  | .csrw _ => f.csr != 0x030
  | _ => false

/-- Check 5 of R186. R186 has no place for a partial collective: it comes first (log entry 80). -/
def Env.check5 (e : Env) (i : Instr) (f : Fields) : Option TrapInfo :=
  if (isCollective i || isUniform i f) && !e.whole then some (e.infoAll 0x24 0)
  else if badHandle e.hdr e.tm.tiles i f then some (e.infoAll 0x15 0)
  else if badCsr i f then some (e.infoAll 0x16 0)
  else none

/-! ## Check 6 -/

def overlaps (u : Use) (o : Outstanding) : Bool :=
  u.cls == o.cls && u.reg < o.reg + o.nreg && o.reg < u.reg + u.n

/-- R83: the ranks for which a register that the instruction reads is expired. -/
def Env.expiredRanks (e : Env) (us : List Use) : List Nat :=
  (e.active.filter fun m => us.any fun u => !u.write &&
    (List.range u.n).any fun k => e.expired u.cls (if u.cls == .uniform then 0 else m.tid) (u.reg + k)).map (·.rank)

/-- Check 6 of R186: an unmarked hazard, then an expired transient value. -/
def Env.check6 (e : Env) (i : Instr) (f : Fields) : Option TrapInfo :=
  let us := usesOf i f e.hdr.lanes
  if us.any fun u => e.fr.out.any (overlaps u) then some (e.infoAll 0x20 0)
  else match e.expiredRanks us with
    | [] => none
    | r :: _ => some (e.info 0x21 r (ranksOf e.active) 0)

/-- R186: the checks before the guard, in order. The words have decoded, so an illegal encoding (0x01) has decided before the
privilege (0x04) of step 3, which R186 does not place (log entry 80). -/
def Env.checks (e : Env) (i : Instr) (f : Fields) : Option TrapInfo :=
  if isPrivileged i && !e.fr.priv then some (e.infoAll 0x04 0)
  else match e.check4 i f with
    | some x => some x
    | none => match e.check5 i f with
      | some x => some x
      | none => e.check6 i f

/-! ## The warp's execution state -/

/-- R146, R224, R261, R293, R294: what an instruction does before it acts in a warp that is not in the normal state. -/
inductive Gate where
  | go | pause | abort (code : Nat)
  deriving DecidableEq, Repr

/-- R146: an acquire or a release at `.cl` or wider. -/
def wideOrder (f : Fields) : Bool := f.ann != 0 && 3 ≤ f.scope

/-- The instructions that pause a speculator whatever they access. -/
def pausesSpec (i : Instr) (f : Fields) : Bool :=
  match i with
  | .exit _ | .rfopen _ | .reform _ | .rfclose _ | .spawn _ | .phinit _ | .phreg _ | .phdrop _ | .pharv _ | .phwait _
  | .phaw _ | .bars _ | .txbeg _ | .csrw _ | .ovld _ | .claim _ | .cctlRo _ | .halt _ | .ldro _ | .atomAdd _ | .atomAnd _
  | .atomOr _ | .atomXor _ | .atomMin _ | .atomMax _ | .atomXchg _ | .atomCas _ | .atomInc _ | .atomDec _ | .redAdd _
  | .redAnd _ | .redOr _ | .redXor _ | .redMin _ | .redMax _ | .redInc _ | .redDec _ | .redx _ | .redxf _ | .tbind _
  | .trel _ | .mma _ | .mmabs _ | .azero _ | .amov _ | .ald _ | .movToQueue _ | .moviToQueue _ | .movFromQueue _ => true
  | .fence _ => 3 ≤ f.scope
  | .ld _ | .ldRf _ | .st _ | .ast _ => wideOrder f
  | _ => false

/-- The abort that an instruction raises in a transaction whatever it accesses. -/
def abortsTx : Instr → Option Nat
  | .bars _ => some 0x07
  | .exit _ | .rfopen _ | .reform _ | .rfclose _ | .spawn _ | .phinit _ | .phreg _ | .phdrop _ | .pharv _ | .phwait _
  | .phaw _ | .txbeg _ | .csrw _ | .ovld _ | .claim _ | .cctlRo _ | .halt _ | .redx _ | .redxf _ | .tbind _
  | .trel _ | .mma _ | .mmabs _ | .azero _ | .amov _ | .ald _ | .movToQueue _ | .moviToQueue _ | .movFromQueue _ => some 0x05
  | _ => none

def gate (m : WarpMode) (i : Instr) (f : Fields) : Gate :=
  match m with
  | .normal => .go
  | .speculative _ => if pausesSpec i f then .pause else .go
  | .transactional _ => match abortsTx i with
    | some c => .abort c
    | none => .go

/-! ## Issue of one instruction -/

/-- R186: the checks, then the guard, then the effect in the warp's execution state. `body` is what the instruction
does in terms of T and F, and `none_` what it does when T is empty. -/
def Env.issue (e : Env) (s : State) (i : Instr) (f : Fields) (none_ body : Env → Effect) : State :=
  match e.checks i f with
  | some x => s.raise e x
  | none =>
    let r := retOf i f e.hdr.lanes
    if (e.T f).isEmpty then e.conclude f { r with var := false } (none_ e)
    else match gate e.wp.mode i f with
      | .pause => s.park e.t e.g .pause
      | .abort c => s.abortTx e.t e.fr.warp [{ code := c, cause := 0, user := 0 }]
      | .go => e.conclude f r (body e)

/-- The meaning of an instruction with fields: no fragment in issue is a fault. With T empty the instruction completes
without an effect. -/
def issueWith (i : Instr) (f : Fields) (s : State) (body : Env → Effect) : Host.Outcome State Fault Refusal :=
  match s.env? with
  | none => .fault .noIssuer
  | some e => .next (e.issue s i f (fun _ => .done s .none) body)

/-- The same for a branch, which has an effect on path terms when T is empty too (R359). -/
def branchWith (i : Instr) (f : Fields) (s : State) (none_ body : Env → Effect) : Host.Outcome State Fault Refusal :=
  match s.env? with
  | none => .fault .noIssuer
  | some e => .next (e.issue s i f none_ body)

end Sys2Proof.Machine
end

