-- ==== Sys2Proof/Machine/Flags.lean ====
section
/-! DEFINITION. What the machine computes instead of flags: integer and floating conditions (R246, R274), the carry
predicate (R241), the range of an integer format and its clamp (R152, R237), and `sr.partial` (R263). -/

namespace Sys2Proof.Machine

/-- R151, R152: the width of an integer or bit format, and whether it is signed. -/
def intWidth (typ : Nat) : Nat :=
  match typ with
  | 0x00 | 0x04 | 0x08 => 8
  | 0x01 | 0x05 | 0x09 => 16
  | 0x03 | 0x07 | 0x0B => 64
  | _ => 32

def isSigned (typ : Nat) : Bool := typ == 0x04 || typ == 0x05 || typ == 0x06 || typ == 0x07

/-- R152: the value of a pattern of `n` bits. -/
def intVal (n : Nat) (signed : Bool) (x : Nat) : Int :=
  let y := x % 2 ^ n
  if signed && y.testBit (n - 1) then (y : Int) - 2 ^ n else y

/-- R152: the range of an integer format. -/
def intLo (n : Nat) (signed : Bool) : Int := if signed then -(2 ^ (n - 1)) else 0
def intHi (n : Nat) (signed : Bool) : Int := if signed then 2 ^ (n - 1) - 1 else 2 ^ n - 1

def clampInt (n : Nat) (signed : Bool) (v : Int) : Int := min (max v (intLo n signed)) (intHi n signed)

/-- R239: narrows an exact value to `n` bits, clamping first when saturating. -/
def fitInt (n : Nat) (signed sat : Bool) (v : Int) : Nat :=
  ((if sat then clampInt n signed v else v) % (2 ^ n : Int)).toNat

/-- R246: the condition of `ISET`. -/
def intCond (code : Nat) (a b : Int) : Bool :=
  match code with
  | 0 => a == b
  | 1 => a != b
  | 2 => a < b
  | _ => b ≤ a

/-- R241: the sum with a carry, and the carry out. -/
def addCarry (a b : Word) (cin : Bool) : Word × Bool :=
  let s := a.toNat + b.toNat + bit cin
  (BitVec.ofNat 32 s, 2 ^ 32 ≤ s)

/-- R274: a floating condition, from the order of two values; `none` is unordered. -/
def floatCond (code : Nat) (o : Option Ordering) : Bool :=
  let eq := o == some .eq
  let lt := o == some .lt
  let gt := o == some .gt
  match code with
  | 0 => eq
  | 1 => lt || gt
  | 2 => lt
  | 3 => lt || eq
  | 4 => gt
  | 5 => gt || eq
  | 6 => o.isSome
  | 7 => o.isNone
  | 8 => eq || o.isNone
  | 9 => lt || gt || o.isNone
  | 10 => lt || o.isNone
  | 11 => lt || eq || o.isNone
  | 12 => gt || o.isNone
  | 13 => gt || eq || o.isNone
  | _ => false

/-- R263: the ranks that a cross-lane instruction decides over. -/
def groupRanks (h : Header) : Nat := if h.compat then 16 else h.lanes

/-- R32, R68: does virtual lane `l` of a warp hold a thread that has not exited? -/
def Team.onLane (tm : Team) (h : Header) (w l : Nat) : Bool := match tm.threads[w * h.lanes + l]? with
  | some th => !th.exited && !th.child
  | none => false

/-- R263: is rank `r` absent? A group that `RFOPEN` has left unfiled stands at its virtual lanes (R49), of which a vacant one is never
absent (R32); nor is a rank whose thread has exited. -/
def Env.absent (e : Env) (r : Nat) : Bool :=
  !(e.active.any fun m => m.rank == r) && !e.fr.gone.contains r &&
    (e.region && !e.fr.unfiled || e.tm.onLane e.hdr e.fr.warp r)

/-- R265: does a mask name an absent rank? -/
def Env.partialMask (e : Env) (mask : Nat) : Bool :=
  (List.range (groupRanks e.hdr)).any fun r => mask.testBit r && e.absent r

end Sys2Proof.Machine
end

