-- ==== Sys2Proof/Machine/Float.lean ====
section
/-! DEFINITION. Floating-point values as exact binary numbers, the rounding function and the arithmetic on them
(R153 to R163, R167, R168, R170). -/

namespace Sys2Proof.Machine

/-- A floating-point value: NaN, an infinity, or (−1)^neg · m · 2^e. -/
inductive Num where
  | nan
  | inf (neg : Bool)
  | fin (neg : Bool) (m : Nat) (e : Int)
  deriving DecidableEq, Repr

/-- R153, R154: a format: its width and fraction bits, the weight of its smallest denormal, its largest finite pattern,
and the patterns of +∞ and of the canonical NaN where it has them. -/
structure Fmt where
  width : Nat
  frac : Nat
  qmin : Int
  maxPat : Nat
  infPat : Option Nat
  nanPat : Option Nat
  deriving DecidableEq, Repr

def f32Fmt : Fmt := { width := 32, frac := 23, qmin := -149, maxPat := 0x7F7FFFFF, infPat := some 0x7F800000, nanPat := some 0x7FC00000 }
def f16Fmt : Fmt := { width := 16, frac := 10, qmin := -24, maxPat := 0x7BFF, infPat := some 0x7C00, nanPat := some 0x7E00 }
def bf16Fmt : Fmt := { width := 16, frac := 7, qmin := -133, maxPat := 0x7F7F, infPat := some 0x7F80, nanPat := some 0x7FC0 }
def e4m3Fmt : Fmt := { width := 8, frac := 3, qmin := -9, maxPat := 0x7E, infPat := none, nanPat := some 0x7F }
def e5m2Fmt : Fmt := { width := 8, frac := 2, qmin := -16, maxPat := 0x7B, infPat := some 0x7C, nanPat := some 0x7E }
def e2m1Fmt : Fmt := { width := 4, frac := 1, qmin := -1, maxPat := 7, infPat := none, nanPat := none }

/-- R151, R155: the format of a code; a packed code gives that of its elements. -/
def fmtOf (typ : Nat) : Fmt :=
  match typ with
  | 0x0C | 0x10 => f16Fmt
  | 0x0D | 0x11 => bf16Fmt
  | 0x14 => e4m3Fmt
  | 0x15 => e5m2Fmt
  | 0x16 => e2m1Fmt
  | _ => f32Fmt

/-- R153, R154: the value of a pattern. -/
def Fmt.value (f : Fmt) (x : Nat) : Num :=
  let neg := x.testBit (f.width - 1)
  let mag := x % 2 ^ (f.width - 1)
  if f.maxPat < mag then (if f.infPat = some mag then .inf neg else .nan)
  else
    let ex := mag / 2 ^ f.frac
    if ex = 0 then .fin neg mag f.qmin
    else .fin neg (mag % 2 ^ f.frac + 2 ^ f.frac) (f.qmin + ex - 1)

/-- R160: replaces a denormal pattern by a zero of its sign. -/
def Fmt.flush (f : Fmt) (ftz : Bool) (x : Nat) : Nat :=
  let mag := x % 2 ^ (f.width - 1)
  if ftz && mag < 2 ^ f.frac then x % 2 ^ f.width - mag else x

def Fmt.signed (f : Fmt) (neg : Bool) (mag : Nat) : Nat := mag + (if neg then 2 ^ (f.width - 1) else 0)
def Fmt.nan (f : Fmt) : Nat := f.nanPat.getD 0
def Fmt.inf (f : Fmt) (neg : Bool) : Nat := f.signed neg (f.infPat.getD f.maxPat)

/-! ## Rounding (R157, R158) -/

/-- R157: 0 RN, 1 RNA, 2 RZ, 3 RD, 4 RU. -/
abbrev Mode := Nat

/-- R158: m · 2^e, of the sign given, rounded to a whole number of units of 2^q. -/
def roundUnits (mode : Mode) (neg : Bool) (m : Nat) (e q : Int) : Nat :=
  if q ≤ e then m * 2 ^ (e - q).toNat
  else
    let d := 2 ^ (q - e).toNat
    let lo := m / d
    let r := m % d
    let up := match mode with
      | 0 => d < 2 * r || (2 * r == d && lo % 2 == 1)
      | 1 => d ≤ 2 * r
      | 2 => false
      | 3 => neg && r != 0
      | _ => !neg && r != 0
    if up then lo + 1 else lo

/-- R158, R162: what an overflow gives: by the rounding mode, or by the choice of the overflow table. -/
inductive Overflow where
  | arithmetic
  | table (choice : Nat)
  deriving DecidableEq, Repr

def Fmt.overflow (f : Fmt) (o : Overflow) (mode : Mode) (neg : Bool) : Nat :=
  match o with
  | .arithmetic => match mode with
    | 0 | 1 => f.inf neg
    | 2 => f.signed neg f.maxPat
    | 3 => if neg then f.inf neg else f.maxPat
    | _ => if neg then f.signed neg f.maxPat else f.inf neg
  | .table 1 => f.inf neg
  | .table 2 => f.nan
  | .table _ => f.signed neg f.maxPat

/-- R158: rounds a finite non-zero value; values far outside the format stand for any as far out. -/
def Fmt.roundFin (f : Fmt) (o : Overflow) (mode : Mode) (neg : Bool) (m : Nat) (e : Int) : Nat :=
  let top : Int := e + Nat.log2 m
  let (m, e) :=
    if top < f.qmin - 4 then (1, f.qmin - 4)
    else if f.qmin + 2 ^ 10 < top then (1, f.qmin + 2 ^ 10)
    else (m, e)
  let q := max (e + Nat.log2 m - f.frac) f.qmin
  let n := roundUnits mode neg m e q
  let mag := (q - f.qmin).toNat * 2 ^ f.frac + n
  if f.maxPat < mag then f.overflow o mode neg else f.signed neg mag

/-- R158, R159, R161: the pattern of a value in a format. An infinity is an overflow under the table rule. -/
def Fmt.round (f : Fmt) (o : Overflow) (mode : Mode) (x : Num) : Nat :=
  match x with
  | .nan => f.nan
  | .inf neg => match o with
    | .arithmetic => f.inf neg
    | .table _ => f.overflow o mode neg
  | .fin neg 0 _ => f.signed neg 0
  | .fin neg m e => f.roundFin o mode neg m e

/-! ## Exact arithmetic -/

def Num.neg : Num → Num
  | .nan => .nan
  | .inf n => .inf (!n)
  | .fin n m e => .fin (!n) m e

/-- The signed integer of m · 2^e in units of 2^q, for q ≤ e. -/
def unitsAt (neg : Bool) (m : Nat) (e q : Int) : Int :=
  let v : Int := m * 2 ^ (e - q).toNat
  if neg then -v else v

/-- R159, R272: an exact sum; a zero sum of opposite signs is −0 under RD only. -/
def Num.add (mode : Mode) (a b : Num) : Num :=
  match a, b with
  | .nan, _ => .nan
  | _, .nan => .nan
  | .inf x, .inf y => if x = y then .inf x else .nan
  | .inf x, _ => .inf x
  | _, .inf y => .inf y
  | .fin x m e, .fin y n k =>
    let q := min e k
    let s := unitsAt x m e q + unitsAt y n k q
    if s = 0 then .fin (if x = y then x else mode == 3) 0 q
    else .fin (s < 0) s.natAbs q

/-- R272: an exact product. -/
def Num.mul (a b : Num) : Num :=
  match a, b with
  | .nan, _ => .nan
  | _, .nan => .nan
  | .inf x, .inf y => .inf (x != y)
  | .inf x, .fin y n _ => if n = 0 then .nan else .inf (x != y)
  | .fin x m _, .inf y => if m = 0 then .nan else .inf (x != y)
  | .fin x m e, .fin y n k => .fin (x != y) (m * n) (e + k)

/-- R274: the order of two values, none when either is NaN; −0 equals +0. -/
def Num.cmp (a b : Num) : Option Ordering :=
  match a, b with
  | .nan, _ => none
  | _, .nan => none
  | .inf x, .inf y => some (if x = y then .eq else if x then .lt else .gt)
  | .inf x, _ => some (if x then .lt else .gt)
  | _, .inf y => some (if y then .gt else .lt)
  | .fin x m e, .fin y n k =>
    let q := min e k
    some (compare (unitsAt x m e q) (unitsAt y n k q))

/-! ## Operations on patterns -/

/-- R272: an operation rounded once by the arithmetic rule, with `.ftz` on its result. -/
def Fmt.result (f : Fmt) (mode : Mode) (ftz : Bool) (x : Num) : Nat := f.flush ftz (f.round .arithmetic mode x)

def Fmt.add (f : Fmt) (mode : Mode) (ftz : Bool) (a b : Nat) : Nat :=
  f.result mode ftz ((f.value (f.flush ftz a)).add mode (f.value (f.flush ftz b)))

def Fmt.sub (f : Fmt) (mode : Mode) (ftz : Bool) (a b : Nat) : Nat :=
  f.result mode ftz ((f.value (f.flush ftz a)).add mode (f.value (f.flush ftz b)).neg)

def Fmt.mul (f : Fmt) (mode : Mode) (ftz : Bool) (a b : Nat) : Nat :=
  f.result mode ftz ((f.value (f.flush ftz a)).mul (f.value (f.flush ftz b)))

def Fmt.fma (f : Fmt) (mode : Mode) (ftz : Bool) (a b c : Nat) : Nat :=
  f.result mode ftz (((f.value (f.flush ftz a)).mul (f.value (f.flush ftz b))).add mode (f.value (f.flush ftz c)))

/-- R273, R267: is `a` ordered below `b`, with −0 below +0? -/
def Fmt.below (f : Fmt) (a b : Nat) : Bool :=
  match (f.value a).cmp (f.value b) with
  | some .lt => true
  | some .eq => a.testBit (f.width - 1) && !b.testBit (f.width - 1)
  | _ => false

/-- R273: the minimum or maximum of two patterns, unrounded. -/
def Fmt.extreme (f : Fmt) (least ftz : Bool) (a b : Nat) : Nat :=
  let a := f.flush ftz (a % 2 ^ f.width)
  let b := f.flush ftz (b % 2 ^ f.width)
  match f.value a, f.value b with
  | .nan, .nan => f.nan
  | .nan, _ => b
  | _, .nan => a
  | _, _ => if least then (if f.below b a then b else a) else (if f.below a b then b else a)

/-- R275: the one-hot class of a pattern. -/
def Fmt.classBit (f : Fmt) (x : Nat) : Nat :=
  let neg := x.testBit (f.width - 1)
  let mag := x % 2 ^ (f.width - 1)
  match f.value x with
  | .nan => 8
  | .inf _ => if neg then 0 else 7
  | .fin _ _ _ =>
    if mag = 0 then (if neg then 3 else 4)
    else if mag < 2 ^ f.frac then (if neg then 2 else 5)
    else if neg then 1 else 6

/-- R276: rounds to an integral value of the same format. -/
def Fmt.integral (f : Fmt) (mode : Mode) (x : Nat) : Nat :=
  match f.value x with
  | .nan => f.nan
  | .inf neg => f.inf neg
  | .fin neg m e => if 0 ≤ e then x % 2 ^ f.width else f.round .arithmetic 0 (.fin neg (roundUnits mode neg m e 0) 0)

/-- R155: an operation on the elements of a word of the format. -/
def perElement (typ : Nat) (op : Nat → Nat → Nat → Nat) (a b c : Word) : Word :=
  if typ == 0x10 || typ == 0x11 then
    BitVec.ofNat 32 (op (a.toNat % 2 ^ 16) (b.toNat % 2 ^ 16) (c.toNat % 2 ^ 16)
      + 2 ^ 16 * op (a.toNat / 2 ^ 16) (b.toNat / 2 ^ 16) (c.toNat / 2 ^ 16))
  else
    let w := (fmtOf typ).width
    BitVec.ofNat 32 (op (a.toNat % 2 ^ w) (b.toNat % 2 ^ w) (c.toNat % 2 ^ w))

/-! ## Conversions (R161 to R163) -/

/-- R162: the choice of the overflow table for a destination format. -/
def tableChoice (ovtab : Word) (typ : Nat) : Overflow :=
  let field (i : Nat) := ovtab.toNat / 2 ^ i % 4
  match typ with
  | 0x0C | 0x10 => .table (field 0)
  | 0x0D | 0x11 => .table (field 2)
  | 0x14 => .table (field 4)
  | 0x15 => .table (field 6)
  | 0x16 => .table (field 8)
  | _ => .arithmetic

/-- R161: does the destination hold every value of the source? A format holds its own values. -/
def exactPair (d s : Nat) : Bool :=
  d == s || d == 0x0E || ((d == 0x0C || d == 0x0D) && (s == 0x14 || s == 0x15 || s == 0x16))
    || ((d == 0x14 || d == 0x15) && s == 0x16)

/-- R161: float to float, both formats scalar. -/
def floatToFloat (ovtab : Word) (mode : Mode) (ftz : Bool) (d s : Nat) (x : Nat) : Nat :=
  let fs := fmtOf s
  let fd := fmtOf d
  let wide (t : Nat) := ftz && (t == 0x0E || t == 0x0C || t == 0x0D)
  let v := fs.value (fs.flush (wide s) (x % 2 ^ fs.width))
  fd.flush (wide d) (fd.round (if exactPair d s then .arithmetic else tableChoice ovtab d) mode v)

/-- R161: float to integer: rounded, then clamped; NaN gives 0. -/
def floatToInt (mode : Mode) (n : Nat) (signed : Bool) (x : Num) : Int :=
  match x with
  | .nan => 0
  | .inf neg => if neg then intLo n signed else intHi n signed
  | .fin neg m e =>
    let u : Int := if 64 < e + (Nat.log2 m : Int) ∧ m ≠ 0 then (2 ^ 65 : Int) else (roundUnits mode neg m e 0 : Int)
    clampInt n signed (if neg then -u else u)

/-- R161: integer to float. -/
def intToFloat (ovtab : Word) (mode : Mode) (ftz : Bool) (d : Nat) (v : Int) : Nat :=
  let fd := fmtOf d
  fd.flush (ftz && (d == 0x0E || d == 0x0C || d == 0x0D)) (fd.round (tableChoice ovtab d) mode (.fin (v < 0) v.natAbs 0))

/-- R156: the scale of an E8M0 byte. -/
def scaleValue (c : Nat) : Num := if c = 255 then .nan else .fin false 1 ((c : Int) - 127)

/-- The value of an s4 element. -/
def s4Value (x : Nat) : Num := let v := intVal 4 true x; .fin (v < 0) v.natAbs 0

/-- R156: the element format of a block format's elements, none for s4. -/
def blockElement (typ : Nat) : Option Fmt :=
  match typ with
  | 0x18 => some e4m3Fmt
  | 0x19 => some e2m1Fmt
  | _ => none

def elementValue (typ : Nat) (x : Nat) : Num :=
  match blockElement typ with
  | some f => f.value x
  | none => s4Value x

/-- R156: the element bits and the scale byte of a block held as a number of little-endian bytes. -/
def blockField (typ : Nat) (blk i : Nat) : Nat :=
  if typ = 0x18 then blk / 2 ^ (8 * i) % 2 ^ 8 else blk / 2 ^ (4 * i) % 2 ^ 4
def blockScale (typ : Nat) (blk : Nat) : Nat := blk / 2 ^ (if typ = 0x18 then 64 else 32) % 2 ^ 8

/-- R156: the exact value of element `i` of a block. -/
def blockValue (typ : Nat) (blk i : Nat) : Num := (elementValue typ (blockField typ blk i)).mul (scaleValue (blockScale typ blk))

def Num.isNan : Num → Bool
  | .nan => true
  | _ => false

/-- The magnitude of a finite value as (m, e); 0 otherwise. -/
def Num.mag : Num → Nat × Int
  | .fin _ m e => (m, e)
  | _ => (0, 0)

def magLe (a b : Nat × Int) : Bool :=
  let q := min a.2 b.2
  a.1 * 2 ^ (a.2 - q).toNat ≤ b.1 * 2 ^ (b.2 - q).toNat

/-- R163: the largest magnitude that an element of a block format holds. -/
def blockMax (typ : Nat) : Nat :=
  match typ with
  | 0x18 => 448
  | 0x19 => 6
  | _ => 7

/-- R163: the exponent of a block whose largest finite magnitude is given. -/
def blockExp (typ : Nat) (a : Nat × Int) : Int :=
  if a.1 = 0 then 0
  else
    let fm := blockMax typ
    let e0 : Int := a.2 + Nat.log2 a.1 - Nat.log2 fm
    let e := if magLe a (fm, e0) then e0 else e0 + 1
    min (max e (-127)) 127

/-- R163: one element of a block. -/
def blockEncode (ovtab : Word) (mode : Mode) (typ : Nat) (x : Num) (ex : Int) : Nat :=
  let y := match x with
    | .fin n m e => .fin n m (e - ex)
    | z => z
  match typ with
  | 0x18 => e4m3Fmt.round (tableChoice ovtab 0x14) mode y
  | 0x19 => e2m1Fmt.round (.table 0) mode y
  | _ => (floatToInt mode 4 true y % 16).toNat

/-- R163: eight values as a block, a number of little-endian bytes. -/
def toBlock (ovtab : Word) (mode : Mode) (typ : Nat) (xs : List Num) : Nat :=
  let shift := if typ = 0x18 then 8 else 4
  if xs.any Num.isNan then 255 * 2 ^ (8 * shift)
  else
    let amax := xs.foldl (fun a x => if magLe a x.mag then x.mag else a) (0, 0)
    let ex := blockExp typ amax
    (xs.zipIdx.map fun y => blockEncode ovtab mode typ y.1 ex * 2 ^ (shift * y.2)).sum + (ex + 127).toNat * 2 ^ (8 * shift)

/-! ## Exact accumulators (R167, R168) -/

/-- R167: adds an f32 pattern. -/
def Exact.plus (x : Exact) (b : Nat) : Exact :=
  match f32Fmt.value b with
  | .nan => { x with nan := true }
  | .inf true => { x with ninf := true }
  | .inf false => { x with pinf := true }
  | .fin n m e => { x with sum := x.sum + BitVec.ofInt 632 (unitsAt n m e (-149)) }

/-- R168: the total of an accumulator as an f32 pattern. -/
def Exact.total (x : Exact) (mode : Mode) : Nat :=
  if x.nan || (x.pinf && x.ninf) then f32Fmt.nan
  else if x.pinf then f32Fmt.inf false
  else if x.ninf then f32Fmt.inf true
  else
    let n := x.sum.toInt
    if n = 0 then 0 else f32Fmt.round .arithmetic mode (.fin (n < 0) n.natAbs (-149))

/-! ## Exponent arithmetic (R170) -/

def fgetexp (ftz : Bool) (b : Nat) : Nat :=
  match f32Fmt.value (f32Fmt.flush ftz b) with
  | .fin _ 0 _ => 0x80000000
  | .fin _ m e => ((e + Nat.log2 m) % (2 ^ 32 : Int)).toNat
  | _ => 0x7FFFFFFF

/-- The ceiling of a finite value. -/
def ceilOf (neg : Bool) (m : Nat) (e : Int) : Int :=
  let u : Int := roundUnits 4 neg m e 0
  if neg then -u else u

def fmaxe (ftz : Bool) (m : Word) (b : Nat) : Nat :=
  match f32Fmt.value (f32Fmt.flush ftz b) with
  | .nan => 0x7FFFFFFF
  | .inf false => 0x7FFFFFFF
  | .inf true => m.toNat
  | .fin n x e => ((min (max m.toInt (ceilOf n x e)) (2 ^ 31 - 1)) % (2 ^ 32 : Int)).toNat

def fscale (mode : Mode) (ftz : Bool) (a : Nat) (k : Word) : Nat :=
  match f32Fmt.value (f32Fmt.flush ftz a) with
  | .fin n 0 _ => f32Fmt.signed n 0
  | .fin n m e => f32Fmt.result mode ftz (.fin n m (e + k.toInt))
  | x => f32Fmt.round .arithmetic mode x

end Sys2Proof.Machine
end

