-- ==== Sys2Proof/Machine/Fetch.lean ====
section
/-! DEFINITION. The turn of one fragment up to the instruction it issues: aborts, parking, the
repeats of R183 and the decoding of R185. -/

namespace Sys2Proof.Machine

/-- What a fragment's turn comes to: it ends without an instruction, or an instruction issues. -/
inductive Fetched where
  | done (s : State)
  | run (s : State) (i : Instr)

/-- R183: a field of repeat `i` of a stride, none outside 0..255. -/
def stepField (x : BitVec 8) (stride : BitVec 8) (i : Nat) : Option (BitVec 8) :=
  let v : Int := x.toNat + i * stride.toInt
  if v < 0 ∨ 255 < v then none else some (BitVec.ofInt 8 v)

/-- R183: the words of repeat `i`, with DST, SA, SB and SC stepped. -/
def stepWords (r : RepFields) (i : Nat) (ws : List Word) : Option (List Word) :=
  match ws with
  | w0 :: w1 :: rest =>
    match stepField (w0.extractLsb' 16 8) r.std i, stepField (w0.extractLsb' 24 8) r.sta i,
      stepField (w1.extractLsb' 0 8) r.stb i, stepField (w1.extractLsb' 8 8) r.stc i with
    | some d, some a, some b, some c =>
      some ((a ++ d ++ w0.extractLsb' 0 16) :: (w1.extractLsb' 16 16 ++ c ++ b) :: rest)
    | _, _, _, _ => none
  | _ => none

/-- R183, R185: what the words of a fetch issue as, given the repeat in progress. -/
def issueOf (rep : Option Repeat) (ws : List Word) : Instr :=
  match rep with
  | none => decodeFate ws
  | some r =>
    match stepWords r.fields (r.fields.cnt.toNat + 1 - r.left) ws with
    | some ws => decodeFate ws
    | none => .illegalEncoding ⟨ws⟩

/-- R453: a marked instruction, at its last repeat, is one before which a late report is taken. -/
def takesLate (rep : Option Repeat) (i : Instr) : Bool :=
  match i.fields? with
  | some f => f.mark && (match rep with
    | some r => r.left ≤ 1
    | none => true)
  | none => false

/-- R63, R208, R352, R447, R502: may the fragment take a turn? A slot issues once in a cycle. -/
def State.canIssue (s : State) (t g : Nat) : Bool :=
  match s.team? t with
  | none => false
  | some tm =>
    match tm.frag? g with
    | none => false
    | some fr =>
      (s.launch? tm.launch).isSome && (tm.st == .resident || tm.st == .regionOpen) && fr.st == .running
        && fr.after ≤ (s.core (warpCore (s.launchOf tm.launch).hdr (s.launchOf tm.launch).t tm.core fr.warp)).cycle
        && !(s.core (warpCore (s.launchOf tm.launch).hdr (s.launchOf tm.launch).t tm.core fr.warp)).issued.contains
          (fr.slotIn (s.launchOf tm.launch).hdr (s.launchOf tm.launch).t)
        && !s.overflowed tm.launch && !(s.die (dieOfCore tm.core)).halted && !(s.die (dieOfCore tm.core)).off

/-- R229: has the warp of a fragment an abort to take? -/
def Warp.aborting (wp : Warp) : Bool :=
  match wp.mode with
  | .transactional x => !x.aborts.isEmpty
  | _ => false

/-- R39: does the fragment's next pc equal the reconvergence point of its innermost entry? Inside a `REP` whose repeated instruction
stands there it does not park until the repeats end (R183; DEDUCED, log entry 101). -/
def Team.atJoin (tm : Team) (fr : Frag) : Bool :=
  fr.rep.isNone && tm.splits.any fun x => fr.ent == some x.id && x.reconv == fr.pc

/-- R352: a fragment issues: its slot has issued in this cycle, and its wait is over (log entry 100). -/
def State.noteIssue (s : State) (e : Env) (t g : Nat) : State :=
  (s.modFrag t g fun fr => { fr with ready := 0 }).modCore e.core fun k =>
    { k with issued := insertNat (e.fr.slotIn e.ln.hdr e.ln.t) k.issued }

/-- The turn of fragment `g` of team `t`. -/
def State.fetchTurn (s : State) (t g : Nat) : Fetched :=
  if !s.canIssue t g then .done s
  else
    let e := s.envAt t g
    if e.fr.grp.isNone && e.wp.aborting then .done (s.abortTx t e.fr.warp [])
    else if e.fr.fromFrame then .done ((s.noteIssue e t g).resumeFrame t g)
    else if e.tm.atJoin e.fr then
      let s := s.deliverFrag t g
      match (s.team t).late g with
      | some x => .done (s.raise e x)
      | none => .done (s.parkFrag t g)
    else match e.fetch s with
      | .trap s x => .done (s.raise e x)
      | .wait s w => .done (s.park t g w)
      | .bad p => .done (s.badWord e.pf (e.ctx s) p)
      | .words s ws =>
        let i := issueOf e.fr.rep ws
        let s := if takesLate e.fr.rep i then s.deliverFrag t g else s
        match (if takesLate e.fr.rep i then (s.team t).late g else none) with
        | some x => .done (s.raise e x)
        | none =>
          .run { s.noteIssue e t g with cur := { team := t, frag := g, pc := e.pc, words := ws } } i

end Sys2Proof.Machine
end

