-- ==== Sys2Proof/Machine/Teams.lean ====
section
/-! DEFINITION. A team as a fresh launch places it (R32, R66, R78, R113, R216), the resources it takes (R89, R350), and the
one-team machine that `State.withFetchWord` starts from. -/

namespace Sys2Proof.Machine

/-- R214: the handle of the team barrier. -/
def barrierHandle : Nat := 0x4000

/-- R78: a thread at a fresh launch. -/
def freshThread (h : Header) : Thread :=
  { (default : Thread) with v := List.replicate (8 * h.vgran) 0, p := List.replicate 7 false }

/-- R78, R216: a warp at a fresh launch. -/
def freshWarp (h : Header) (args : List Word) : Warp :=
  { w := (List.range (8 * h.ugran)).map fun i => if i < 16 then args.getD i 0 else 0
    wx := []
    regs := [{ handle := barrierHandle, mode := 3, pending := false, phase := 0 }]
    mode := .normal, repcnt := 0, frame := false, again := none, stored := [], logs := [] }

/-- R32: the threads of warp `w`. -/
def warpThreads (h : Header) (t w : Nat) : List Nat :=
  (List.range h.lanes).filterMap fun l => if w * h.lanes + l < t then some (w * h.lanes + l) else none

/-- R32, R63: each warp starts as one fragment at the entry. -/
def freshFrag (h : Header) (t id entry w : Nat) : Frag :=
  { (default : Frag) with id := id, warp := w, mem := (warpThreads h t w).map (homeMember h), pc := entry, st := .running }

/-- A team as a fresh launch places it; its fragments are numbered from `f` on. -/
def freshTeam (ln : Launch) (id num core base f : Nat) : Team :=
  let h := ln.hdr
  let n := warpCount h ln.t
  { id, launch := ln.id, num, core, st := .resident
    threads := List.replicate ln.t (freshThread h)
    warps := List.replicate n (freshWarp h ln.args)
    frags := (List.range n).map fun w => freshFrag h ln.t (f + w) ln.entry w
    splits := [], tiles := List.replicate 16 0, accs := List.replicate h.accs []
    phasers := some { p := 0, n := n, a := 0 } :: List.replicate 63 none
    queues := List.replicate 8 { owner := none, words := [], subs := 0 }
    cmds := [], nodes := List.replicate h.nodes { (default : Node) with st := .free }
    region := none, base, owned := [], rxwin := 0, cycles := 0, watchdog := 0, halting := false, roSince := 0 }

/-! ## Resources -/

/-- R89: the threads of a team on the core `j` of its pair (0 for a one-core team). -/
def threadsOn (h : Header) (t j : Nat) : Nat :=
  if isPair t then
    (((List.range (warpCount h t)).filter fun w => warpCore h t 0 w == j).map fun w => (warpThreads h t w).length).sum
  else if j = 0 then t else 0

/-- R89: the vector registers that a team takes on a core of its pair. -/
def vectorsOn (h : Header) (t j : Nat) : Nat := threadsOn h t j * 8 * (h.vgran + h.shadow)

/-- R350: the teams that are on a core, as anchor or as the odd core of a pair, and their warps there. -/
def State.onCore (s : State) (c : Nat) : List (Team × Nat) :=
  s.teams.filterMap fun t =>
    if t.core == c then some (t, 0)
    else if isPair (s.launchOf t.launch).t && t.core + 1 == c then some (t, 1)
    else none

/-- R350: the warps that a team has in one issue slot of a core of its pair. -/
def warpsOn (slot : Nat) (h : Header) (t j : Nat) : Nat :=
  ((List.range (warpCount h t)).filter fun w => warpCore h t 0 w == j && slotOf h t w == slot).length

/-- R93: the first granule of a run of `n` that no team on the core holds, below 384. -/
def findRun (taken : List (Nat × Nat)) (n : Nat) : (fuel base : Nat) → Option Nat
  | 0, _ => none
  | fuel + 1, base =>
    if Config.granules < base + n then none
    else match taken.find? fun x => x.1 < base + n && base < x.1 + x.2 with
      | none => some base
      | some x => findRun taken n fuel (x.1 + x.2)

def State.granulesTaken (s : State) (c : Nat) : List (Nat × Nat) :=
  (s.teams.filter fun t => t.core == c).map fun t =>
    (t.base, (s.launchOf t.launch).hdr.granules (s.launchOf t.launch).t)

/-- R350: does a team of a launch fit on a core? For a pair, the core is the even one and its neighbour is free. -/
def State.fits (s : State) (ln : Launch) (c : Nat) : Option Nat :=
  let h := ln.hdr
  let use (j : Nat) (f : Header → Nat → Nat → Nat) : Nat :=
    ((s.onCore (c + j)).map fun x => let l := s.launchOf x.1.launch; f l.hdr l.t x.2).sum
  let anchor (f : Header → Nat) : Nat := ((s.teams.filter fun t => t.core == c).map fun t => f (s.launchOf t.launch).hdr).sum
  let cores := if isPair ln.t then [0, 1] else [0]
  let room := cores.all fun j =>
    use j vectorsOn + vectorsOn h ln.t j ≤ Config.vectorRegisters && (List.range 4).all fun k => use j (warpsOn k) + warpsOn k h ln.t j ≤ Config.warpContexts / 4
  let free := !isPair ln.t || (c % 2 == 0 && (s.onCore c).isEmpty && (s.onCore (c + 1)).isEmpty)
  let phasers := ((s.teams.filter fun t => t.core == c).map fun t => (t.phasers.filter (·.isSome)).length).sum
  if room && free && anchor (·.tiles) + h.tiles ≤ 16 && anchor (·.accs) + h.accs ≤ 32 && anchor (·.queues) + h.queues ≤ 64
      && anchor (·.nodes) + h.nodes ≤ 256 && phasers < 64 then
    findRun (s.granulesTaken c) (h.granules ln.t) (s.teams.length + 1) 0
  else none

/-! ## The one-team machine -/

/-- The header of the sample kernel. -/
def sampleHeader : Header :=
  { width := 1, compat := false, gang := false, claim := true, accs := 2, tiles := 2, ugran := 2, vgran := 4, priv := 1
    scratch := 2, nodes := 2, queues := 4, shadow := 4, trap := 0x10800 }

def sampleLaunch : Launch :=
  { (default : Launch) with
    id := 1, pf := 0, q := 0, slot := 0, die := some 0, image := 0x20000, entry := 0x10040, hdr := sampleHeader
    dims := [1, 1, 1], t := 1, args := List.replicate 16 0, save := 0x100000, saveSize := 0x100000, nteam := 1, nextTeam := 1
    started := true }

def sampleContext : Context :=
  { (default : Context) with
    pf := 0, num := 1, root := 0x1000, dsp := 1, ring := { va := 0x22000, log := 4, seq := 0 }, ovtab := 5
    slots := List.replicate 8 none }

def sampleQueue : Queue :=
  { (default : Queue) with
    pf := 0, num := 0, die := 0, ctx := 1, base := 0x20000, log := 4, ring := { va := 0x23000, log := 4, seq := 0 }
    headVa := 0x24000, head := 0, tail := 1, next := 1
    runs := [{ slot := 0, word0 := 0x01000000, words := [], work := .launch 1 }] }

/-- R99, R100: tables that map VA 0x10000 (X) and every page up to 0x200000 (RD, W, X) at 1 MiB and above of die 0. -/
def sampleTables : Memory :=
  [(0x1000, 1), (0x1002, 1), (0x10000, 1), (0x10002, 2), (0x20000, 1), (0x20002, 4)]
  ++ (List.range 31).flatMap fun i => [(0x40008 + 8 * i, 0x6F), (0x4000A + 8 * i, BitVec.ofNat 8 (0x10 + i)), (0x4000F + 8 * i, 0x20)]

/-- One resident team of one thread whose only fragment stands at 0x10040, where the words stand. -/
def sampleState (s : State) (ws : List Word) : State :=
  let tm := freshTeam sampleLaunch 1 0 0 0 1
  { s with
    mode := 0
    mem := (ws.zipIdx.foldl (fun m x => m.write (0x100040 + 4 * x.2) (leBytes 4 x.1.toNat)) sampleTables)
    dies := List.replicate 4 Die.reset
    contexts := [sampleContext], queues := [sampleQueue], launches := [sampleLaunch]
    teams := [{ tm with frags := tm.frags.map fun f => { f with walked := true } }]
    agenda := [.issue 1 1], bad := [], links := List.replicate 4 Link.reset, fresh := 2 }

end Sys2Proof.Machine
end

