-- ==== Sys2Proof/Machine/Integer.lean ====
section
/-! DEFINITION. Reading operands by format and writing results (R237, R238), and the integer instructions (R240,
R241). -/

namespace Sys2Proof.Machine

/-- R252, R284: the elected thread, the lowest-ranked of T. -/
def Env.elected (e : Env) (f : Fields) : Nat := ((e.T f).map (·.tid)).getD 0 0

/-- R237: sources A, B and C at the width of the format. -/
def Env.aN (e : Env) (f : Fields) (t : Nat) : Nat := if is64 f.typ.toNat then (e.a2 f t).toNat else (e.a f t).toNat
def Env.cN (e : Env) (f : Fields) (t : Nat) : Nat := if is64 f.typ.toNat then (e.c2 f t).toNat else (e.c f t).toNat

/-- R237: IMM32 at the width of the format. -/
def immN (f : Fields) : Nat := if f.typ.toNat = 0x07 then (f.imm32.signExtend 64).toNat else f.imm32.toNat

def Env.bN (e : Env) (f : Fields) (t : Nat) : Nat :=
  if f.len != .two then immN f
  else if is64 f.typ.toNat then (e.reg2 (Fields.bu f) t f.sb.toNat).toNat
  else (e.b f t).toNat

/-- The words of a value of `n` bits. -/
def wordsN (n x : Nat) : List Word := if n = 64 then [BitVec.ofNat 32 x, BitVec.ofNat 32 (x / 2 ^ 32)] else [BitVec.ofNat 32 x]

/-- R238: a result computed for each thread of T, or once from uniform sources. -/
def Env.results (e : Env) (f : Fields) (op : Nat → List Word) : Res :=
  if Fields.du f then .w (op (e.elected f)) else .v ((e.T f).map fun m => (m.tid, op m.tid))

/-- R238: a predicate for each thread of T. -/
def Env.preds (e : Env) (f : Fields) (op : Nat → Bool) : Res := .p ((e.T f).map fun m => (m.tid, op m.tid))

/-- An instruction whose result of the format's width comes from A, B and C. -/
def execOn (i : Instr) (f : Fields) (s : State) (op : Nat → Nat → Nat → Nat) : Host.Outcome State Fault Refusal :=
  issueWith i f s fun e =>
    .done s (e.results f fun t => wordsN (intWidth f.typ.toNat) (op (e.aN f t) (e.bN f t) (e.cN f t)))

/-- R240: an integer instruction, by its exact result. -/
def execFit (i : Instr) (f : Fields) (s : State) (op : Int → Int → Int → Int) : Host.Outcome State Fault Refusal :=
  let n := intWidth f.typ.toNat
  let sg := isSigned f.typ.toNat
  execOn i f s fun a b c => fitInt n sg f.sat (op (intVal n sg a) (intVal n sg b) (intVal n sg c))

def execIadd (f : Fields) (s : State) := execFit (.iadd f) f s fun a b _ => a + b
def execIsub (f : Fields) (s : State) := execFit (.isub f) f s fun a b _ => a - b
def execIneg (f : Fields) (s : State) := execFit (.ineg f) f s fun _ b _ => -b
def execIabs (f : Fields) (s : State) := execFit (.iabs f) f s fun _ b _ => b.natAbs
def execImul (f : Fields) (s : State) := execFit (.imul f) f s fun a b _ => a * b
def execImulhi (f : Fields) (s : State) := execFit (.imulhi f) f s fun a b _ => a * b / 2 ^ 32
def execImad (f : Fields) (s : State) := execFit (.imad f) f s fun a b c => a * b + c
def execImin (f : Fields) (s : State) := execFit (.imin f) f s fun a b _ => if a ≤ b then a else b
def execImax (f : Fields) (s : State) := execFit (.imax f) f s fun a b _ => if b ≤ a then a else b

/-- R240: the widening multiply-add; C and the result are pairs. -/
def execImadw (f : Fields) (s : State) : Host.Outcome State Fault Refusal :=
  let sg := isSigned f.typ.toNat
  issueWith (.imadw f) f s fun e => .done s (e.results f fun t =>
    wordsN 64 (fitInt 64 sg f.sat
      (intVal 32 sg (e.aN f t) * intVal 32 sg (e.bN f t) + intVal 64 sg (e.c2 f t).toNat)))

/-- R240: the products of the four bytes of two words. -/
def dot4 (sg : Bool) (a b : Nat) : Int :=
  ((List.range 4).map fun i => intVal 8 sg (a / 2 ^ (8 * i)) * intVal 8 sg (b / 2 ^ (8 * i))).sum

def execIdot4 (f : Fields) (s : State) : Host.Outcome State Fault Refusal :=
  let sg := isSigned f.typ.toNat
  issueWith (.idot4 f) f s fun e => .done s (e.results f fun t =>
    wordsN 32 (fitInt 32 sg f.sat (intVal 32 sg (e.c f t).toNat + dot4 sg (e.a f t).toNat (e.b f t).toNat)))

/-- A predicate that is written beside DST is never transient (R84), and it withdraws older forwarded values. -/
def State.putBeside (s : State) (e : Env) (r : Nat) (xs : List (Nat × Bool)) : State :=
  s.modTeam e.t fun tm =>
    let tm := xs.foldl (fun tm x => tm.putP false x.1 r x.2) tm
    tm.modFrag e.g fun fr => { fr with win := withdrawAll fr.win (xs.map fun x => (.predicate, x.1, r)) }

/-- R241: the sum and carry of one thread. -/
def Env.addc (e : Env) (f : Fields) (t : Nat) : Word × Bool := addCarry (e.a f t) (e.b f t) (e.psrc t f.sc)

def execIaddc (f : Fields) (s : State) : Host.Outcome State Fault Refusal :=
  issueWith (.iaddc f) f s fun e =>
    let of (t : Nat) : Nat := if Fields.du f then e.elected f else t
    let s := s.putBeside e (f.sc.toNat % 8) ((e.T f).map fun m => (m.tid, (e.addc f (of m.tid)).2))
    .done s (e.results f fun t => [(e.addc f t).1])

end Sys2Proof.Machine
end

