-- ==== Sys2Proof/Machine/Logic.lean ====
section
/-! DEFINITION. Logic, shifts and bit fields (R242 to R245). -/

namespace Sys2Proof.Machine

/-- The width of the instruction's format. -/
def Fields.n (f : Fields) : Nat := intWidth f.typ.toNat

def execAnd (f : Fields) (s : State) := execOn (.and f) f s fun a b _ => a &&& b
def execOr (f : Fields) (s : State) := execOn (.or f) f s fun a b _ => a ||| b
def execXor (f : Fields) (s : State) := execOn (.xor f) f s fun a b _ => a ^^^ b
def execNot (f : Fields) (s : State) := execOn (.not f) f s fun _ b _ => 2 ^ Fields.n f - 1 - b
def execAndn (f : Fields) (s : State) := execOn (.andn f) f s fun a b _ => a &&& (2 ^ Fields.n f - 1 - b)

/-- R243: bit `i` of the table for the bits of a, b and c. -/
def tableBit (table a b c i : Nat) : Bool := table.testBit (4 * bit (a.testBit i) + 2 * bit (b.testBit i) + bit (c.testBit i))

/-- R243: SB keeps its register meaning. -/
def execBool3 (f : Fields) (s : State) : Host.Outcome State Fault Refusal :=
  issueWith (.bool3 f) f s fun e => .done s (e.results f fun t =>
    let b := if is64 f.typ.toNat then (e.reg2 (Fields.bu f) t f.sb.toNat).toNat else (e.reg (Fields.bu f) t f.sb.toNat).toNat
    wordsN (Fields.n f) (maskOf ((List.range (Fields.n f)).filter fun i => tableBit f.imm32.toNat (e.aN f t) b (e.cN f t) i)))

/-- R242, R244: an instruction on A and C whose control B is 32 bits. -/
def execShift (i : Instr) (f : Fields) (s : State) (op : Nat → Nat → Nat → Nat) : Host.Outcome State Fault Refusal :=
  issueWith i f s fun e => .done s (e.results f fun t =>
    wordsN (Fields.n f) (op (e.aN f t) (e.b f t).toNat (e.cN f t) % 2 ^ Fields.n f))

def execShl (f : Fields) (s : State) := execShift (.shl f) f s fun a k _ => if k < Fields.n f then a * 2 ^ k else 0
def execShr (f : Fields) (s : State) := execShift (.shr f) f s fun a k _ => if k < Fields.n f then a / 2 ^ k else 0
def execSar (f : Fields) (s : State) := execShift (.sar f) f s fun a k _ =>
  ((intVal (Fields.n f) true a / 2 ^ min k (Fields.n f - 1)) % (2 ^ Fields.n f : Int)).toNat
def execRol (f : Fields) (s : State) := execShift (.rol f) f s fun a k _ =>
  let k := k % Fields.n f
  a * 2 ^ k + a / 2 ^ (Fields.n f - k)
def execFshl (f : Fields) (s : State) := execShift (.fshl f) f s fun a k c =>
  let k := k % Fields.n f
  a * 2 ^ k + c / 2 ^ (Fields.n f - k)

/-- R244: the control's position and length. -/
def ctlPos (b : Nat) : Nat := b % 256
def ctlLen (b : Nat) : Nat := b / 256 % 256

/-- R244: the field of `a`, extended by sign or zeros. -/
def bitField (n : Nat) (sg : Bool) (a b : Nat) : Nat :=
  let len := min (ctlLen b) n
  if len = 0 then 0
  else fitInt n sg false (intVal len sg ((intVal n sg a / 2 ^ ctlPos b) % (2 ^ len : Int)).toNat)

/-- R244: the bits that a control names within `n` bits. -/
def ctlMask (n b : Nat) : Nat := (2 ^ ctlLen b - 1) * 2 ^ ctlPos b % 2 ^ n

def execBfe (f : Fields) (s : State) := execShift (.bfe f) f s fun a b _ => bitField (Fields.n f) (isSigned f.typ.toNat) a b
def execBfi (f : Fields) (s : State) := execShift (.bfi f) f s fun a b c =>
  let m := ctlMask (Fields.n f) b
  (c &&& (2 ^ Fields.n f - 1 - m)) ||| (a * 2 ^ ctlPos b &&& m)
def execBmsk (f : Fields) (s : State) := execShift (.bmsk f) f s fun _ b _ => ctlMask (Fields.n f) b

/-- R242: counts, whose result is one register. -/
def execCount (i : Instr) (f : Fields) (s : State) (op : List Bool → Nat) : Host.Outcome State Fault Refusal :=
  issueWith i f s fun e => .done s (e.results f fun t =>
    [BitVec.ofNat 32 (op ((List.range (Fields.n f)).map fun i => (e.aN f t).testBit i))])

/-- The length of the run of zeros at the head of a list of bits. -/
def zeroRun : List Bool → Nat
  | false :: l => zeroRun l + 1
  | _ => 0

def execPopc (f : Fields) (s : State) := execCount (.popc f) f s fun bs => bs.count true
def execClz (f : Fields) (s : State) := execCount (.clz f) f s fun bs => zeroRun bs.reverse
def execCtz (f : Fields) (s : State) := execCount (.ctz f) f s fun bs => zeroRun bs
def execBrev (f : Fields) (s : State) := execOn (.brev f) f s fun a _ _ =>
  maskOf ((List.range (Fields.n f)).filter fun i => a.testBit (Fields.n f - 1 - i))

/-- R245: result byte `i`, given the byte below it. -/
def selByte (a c b i below : Nat) : Nat :=
  let src := b / 2 ^ (3 * i) % 8
  let x := if src < 4 then a / 2 ^ (8 * src) % 256 else c / 2 ^ (8 * (src - 4)) % 256
  if 0 < i ∧ b.testBit (16 + i) then (if below.testBit 7 then 255 else 0)
  else if b.testBit (12 + i) then 0 else x

def byteSelect (a b c : Nat) : Nat :=
  let x0 := selByte a c b 0 0
  let x1 := selByte a c b 1 x0
  let x2 := selByte a c b 2 x1
  let x3 := selByte a c b 3 x2
  x0 + 2 ^ 8 * x1 + 2 ^ 16 * x2 + 2 ^ 24 * x3

def execBsel (f : Fields) (s : State) := execOn (.bsel f) f s fun a b c => byteSelect a b c

end Sys2Proof.Machine
end

