-- ==== Sys2Proof/Machine/Move.lean ====
section
/-! DEFINITION. Compare, select, move, address and predicate instructions (R246 to R248). -/

namespace Sys2Proof.Machine

/-- The two-bit field MOD[62:61]. -/
def Fields.mod61 (f : Fields) : Nat := f.mod.toNat / 2 % 4

def execIset (f : Fields) (s : State) : Host.Outcome State Fault Refusal :=
  let n := intWidth f.typ.toNat
  let sg := isSigned f.typ.toNat
  issueWith (.iset f) f s fun e => .done s (e.preds f fun t =>
    intCond (Fields.mod61 f) (intVal n sg (e.aN f t)) (intVal n sg (e.bN f t)) && e.psrc t f.sc)

/-- R247; a uniform `SEL` reads the predicate of the elected thread, as R241 has it for `IADDC` (log entry 21). -/
def execSel (f : Fields) (s : State) : Host.Outcome State Fault Refusal :=
  issueWith (.sel f) f s fun e => .done s (e.results f fun t =>
    wordsN (intWidth f.typ.toNat) (if e.psrc t f.sc then e.aN f t else e.bN f t))

def execMov (f : Fields) (s : State) := execOn (.mov f) f s fun a _ _ => a

def execMovi (f : Fields) (s : State) : Host.Outcome State Fault Refusal :=
  issueWith (.movi f) f s fun e => .done s (e.results f fun _ =>
    wordsN (intWidth f.typ.toNat) (if f.len = .four then f.imm.toNat else immN f))

def execLea (f : Fields) (s : State) : Host.Outcome State Fault Refusal :=
  issueWith (.lea f) f s fun e => .done s (e.results f fun t =>
    wordsN 64 (fitInt 64 false false
      ((e.a2 f t).toNat + intVal 32 (isSigned f.typ.toNat) (e.b f t).toNat * 2 ^ Fields.mod61 f)))

/-- R248: a predicate instruction. -/
def execPred (i : Instr) (f : Fields) (s : State) (op : Bool → Bool → Bool) : Host.Outcome State Fault Refusal :=
  issueWith i f s fun e => .done s (e.preds f fun t => op (e.psrc t f.sa) (e.psrc t f.sb))

def execPand (f : Fields) (s : State) := execPred (.pand f) f s fun a b => a && b
def execPor (f : Fields) (s : State) := execPred (.por f) f s fun a b => a || b
def execPxor (f : Fields) (s : State) := execPred (.pxor f) f s fun a b => a != b
def execPnot (f : Fields) (s : State) := execPred (.pnot f) f s fun a _ => !a
def execPmov (f : Fields) (s : State) := execPred (.pmov f) f s fun a _ => a

end Sys2Proof.Machine
end

