-- ==== Sys2Proof/Machine/CrossLane.lean ====
section
/-! DEFINITION. Cross-lane instructions over the ranks of the issuing group (R262 to R268). -/

namespace Sys2Proof.Machine

/-- R262, R263: the mask: the uniform pair of SC, or IMM32 extended by sign where it stands for the mask. -/
def Env.mask (e : Env) (immForm : Bool) (f : Fields) : Nat :=
  if immForm && f.len != .two then (f.imm32.signExtend 64).toNat else (e.reg2 true 0 f.sc.toNat).toNat

/-- R263: the sources that a mask names. -/
def Env.sources (e : Env) (mask : Nat) : List Member :=
  e.active.filter fun m => m.rank < groupRanks e.hdr && mask.testBit m.rank

/-- R263: the contributors. -/
def Env.contributors (e : Env) (f : Fields) (mask : Nat) : List Member :=
  (e.T f).filter fun m => m.rank < groupRanks e.hdr && mask.testBit m.rank

/-- R264: the value that a member receives from the rank that `from_` computes of its rank and operand. -/
def Env.xlane (e : Env) (f : Fields) (from_ : Int → Nat → Int) (m : Member) : Nat :=
  let mask := e.mask false f
  let s := from_ m.rank (e.b f m.tid).toNat
  let s := if e.hdr.compat then s % 16 else s
  match (e.sources mask).find? fun x => (x.rank : Int) == s with
  | some x => if mask.testBit m.rank then e.aN f x.tid else e.aN f m.tid
  | none => e.aN f m.tid

def execXlane (i : Instr) (f : Fields) (s : State) (from_ : Int → Nat → Int) : Host.Outcome State Fault Refusal :=
  issueWith i f s fun e =>
    .done s (.v ((e.T f).map fun m => (m.tid, wordsN (intWidth f.typ.toNat) (e.xlane f from_ m))))

def execXlaneAt (f : Fields) (s : State) := execXlane (.xlaneAt f) f s fun _ b => b
def execXlaneBack (f : Fields) (s : State) := execXlane (.xlaneBack f) f s fun r b => r - b
def execXlaneFwd (f : Fields) (s : State) := execXlane (.xlaneFwd f) f s fun r b => r + b
def execXlaneSwap (f : Fields) (s : State) := execXlane (.xlaneSwap f) f s fun r b => ((r.toNat ^^^ b : Nat) : Int)
def execXlaneOne (f : Fields) (s : State) := execXlane (.xlaneOne f) f s fun _ b => b

/-- R265: `PCOL` sets `sr.partial` of the issuing group. -/
def State.setPartial (s : State) (e : Env) (mask : Nat) : State :=
  s.modFrag e.t e.g fun fr => { fr with partial_ := e.partialMask mask }

/-- R265: a `PCOL` whose result comes from the contributors. -/
def execPcol (i : Instr) (f : Fields) (s : State) (res : Env → List Member → Res) : Host.Outcome State Fault Refusal :=
  issueWith i f s fun e =>
    let mask := e.mask true f
    .done (s.setPartial e mask) (res e (e.contributors f mask))

def execPcolSome (f : Fields) (s : State) :=
  execPcol (.pcolSome f) f s fun e c => e.preds f fun _ => c.any fun m => e.psrc m.tid f.sa
def execPcolEvery (f : Fields) (s : State) :=
  execPcol (.pcolEvery f) f s fun e c => e.preds f fun _ => c.all fun m => e.psrc m.tid f.sa
def execPcolBits (f : Fields) (s : State) :=
  execPcol (.pcolBits f) f s fun e c => e.results f fun _ =>
    wordsN (intWidth f.typ.toNat) (maskOf ((c.filter fun m => e.psrc m.tid f.sa).map (·.rank)))
def execPcolSame (f : Fields) (s : State) :=
  execPcol (.pcolSame f) f s fun e c => e.preds f fun _ => c.all fun m => c.all fun n => e.aN f m.tid == e.aN f n.tid

/-- R266: the ranks of the contributors whose value equals that of a member. -/
def Env.equalRanks (e : Env) (f : Fields) (c : List Member) (m : Member) : Nat :=
  if c.contains m then maskOf ((c.filter fun x => e.aN f x.tid == e.aN f m.tid).map (·.rank)) else 2 ^ m.rank

def execEqset (f : Fields) (s : State) : Host.Outcome State Fault Refusal :=
  issueWith (.eqset f) f s fun e =>
    let c := e.contributors f (e.mask true f)
    let out (x : Nat) := wordsN (if e.hdr.lanes = 64 then 64 else 32) x
    .done s (if Fields.du f then
        .w (out (match c.find? fun m => m.rank == 0 with
          | some m => e.equalRanks f c m
          | none => 0))
      else .v ((e.T f).map fun m => (m.tid, out (e.equalRanks f c m))))

/-! ## `LRED` -/

/-- The operations of `LRED`. -/
inductive Fold where
  | add | min | max | and | or | xor
  deriving DecidableEq, Repr

/-- R267: the combine step of `.f32`. -/
def Fold.combineFloat (op : Fold) (f : Fields) (x y : Nat) : Nat :=
  match op with
  | .add => f32Fmt.add f.rmode f.ftz x y
  | .min => f32Fmt.extreme true f.ftz x y
  | _ => f32Fmt.extreme false f.ftz x y

/-- R267: the combine step of a format, the lower rank's value first. -/
def Fold.combine (op : Fold) (f : Fields) (x y : Nat) : Nat :=
  let n := intWidth f.typ.toNat
  let sg := isSigned f.typ.toNat
  if f.typ = 0x0E then op.combineFloat f x y
  else match op with
    | .add => (x + y) % 2 ^ n
    | .min => if intVal n sg x ≤ intVal n sg y then x else y
    | .max => if intVal n sg y ≤ intVal n sg x then x else y
    | .and => x &&& y
    | .or => x ||| y
    | .xor => x ^^^ y

/-- R267: the result when nothing contributes. -/
def Fold.identity (op : Fold) (f : Fields) : Nat :=
  let n := intWidth f.typ.toNat
  let sg := isSigned f.typ.toNat
  match op with
  | .add | .or | .xor => 0
  | .and => 2 ^ n - 1
  | .min => if f.typ = 0x0E then f32Fmt.inf false else fitInt n sg false (intHi n sg)
  | .max => if f.typ = 0x0E then f32Fmt.inf true else fitInt n sg false (intLo n sg)

/-- R165: one level of the tree. -/
def treeLevel (g : Nat → Nat → Nat) : List (Option Nat) → List (Option Nat)
  | x :: y :: l =>
    (match x, y with
      | some a, some b => some (g a b)
      | some a, none => some a
      | none, y => y) :: treeLevel g l
  | l => l

/-- R165: the value at rank 0 after all levels. -/
def treeFold (g : Nat → Nat → Nat) : (levels : Nat) → List (Option Nat) → Option Nat
  | 0, l => l.headD none
  | k + 1, l => treeFold g k (treeLevel g l)

/-- R267, R154: the result of `LRED`; a NaN that it gives is the canonical NaN (log entry 22). -/
def Env.lred (e : Env) (op : Fold) (f : Fields) : Nat :=
  let c := e.contributors f (e.mask true f)
  let enter (x : Nat) := if f.typ = 0x0E then f32Fmt.flush f.ftz x else x
  let vals := (List.range (groupRanks e.hdr)).map fun r => (c.find? fun m => m.rank == r).map fun m => enter (e.aN f m.tid)
  let x := (treeFold (op.combine f) 6 vals).getD (op.identity f)
  if f.typ = 0x0E && (f32Fmt.value x).isNan then f32Fmt.nan else x

def execLred (i : Instr) (op : Fold) (f : Fields) (s : State) : Host.Outcome State Fault Refusal :=
  issueWith i f s fun e => .done s (e.results f fun _ => wordsN (intWidth f.typ.toNat) (e.lred op f))

def execLredAdd (f : Fields) (s : State) := execLred (.lredAdd f) .add f s
def execLredMin (f : Fields) (s : State) := execLred (.lredMin f) .min f s
def execLredMax (f : Fields) (s : State) := execLred (.lredMax f) .max f s
def execLredAnd (f : Fields) (s : State) := execLred (.lredAnd f) .and f s
def execLredOr (f : Fields) (s : State) := execLred (.lredOr f) .or f s
def execLredXor (f : Fields) (s : State) := execLred (.lredXor f) .xor f s

/-- R81, R268: the virtual lane of a thread as software reads it. -/
def Env.vlane (e : Env) (t : Nat) : Word :=
  if (e.tm.thread t).child then 0xFFFFFFFF else BitVec.ofNat 32 (t % e.hdr.lanes)

def execRank (f : Fields) (s : State) : Host.Outcome State Fault Refusal :=
  issueWith (.rank f) f s fun e => .done s (.v ((e.T f).map fun m =>
    (m.tid, [BitVec.ofNat 32 m.rank, e.vlane m.tid, BitVec.ofNat 32 e.pop])))

end Sys2Proof.Machine
end

