-- ==== Sys2Proof/Machine/Special.lean ====
section
/-! DEFINITION. The special functions of R169 and ex2s of R170. A result that is no binary fraction is computed in fixed
point of 448 fraction bits and given a trailing 1 below them before its one rounding (log entry 11). -/

namespace Sys2Proof.Machine

/-- The fraction bits of the fixed-point numbers here. -/
def fixBits : Nat := 448

/-- π and ln 2 in units of 2^−448, rounded down. -/
def fixPi : Nat :=
  0x3243f6a8885a308d313198a2e03707344a4093822299f31d0082efa98ec4e6c89452821e638d01377be5466cf34e90c6cc0ac29b7c97c50dd
def fixLn2 : Nat :=
  0xb17217f7d1cf79abc9e3b39803f2f6af40f343267298b62d8a0d175b8baafa2be7b876206debac98559552fb4afa1b10ed2eae35c1382144

def fixMul (a b : Nat) : Nat := a * b / 2 ^ fixBits

/-- The terms x^k / k! from `term` on, added. -/
def expSeries (x : Nat) : (fuel k term : Nat) → Nat
  | 0, _, _ => 0
  | fuel + 1, k, term => term + expSeries x fuel (k + 1) (fixMul term x / (k + 1))

/-- 2^f of a fixed-point fraction. -/
def fixExp2 (f : Nat) : Nat := expSeries (fixMul f fixLn2) 100 0 (2 ^ fixBits)

/-- The terms z^k / k for odd k from `k` on, added; `pow` is z^k. -/
def oddSeries (z2 : Nat) : (fuel k pow : Nat) → Nat
  | 0, _, _ => 0
  | fuel + 1, k, pow => pow / k + oddSeries z2 fuel (k + 2) (fixMul pow z2)

/-- log2 of m / 2^l, for 2^l ≤ m < 2^(l+1). -/
def fixLog2 (m l : Nat) : Nat :=
  let z := (m - 2 ^ l) * 2 ^ fixBits / (m + 2 ^ l)
  2 * oddSeries (fixMul z z) 150 1 z * 2 ^ fixBits / fixLn2

/-- The alternating terms of sin from `term` = x^k / k! on. -/
def sinSeries (x2 : Nat) : (fuel k term : Nat) → Int
  | 0, _, _ => 0
  | fuel + 1, k, term => term - sinSeries x2 fuel (k + 2) (fixMul term x2 / ((k + 1) * (k + 2)))

/-- sin(πh) of a fixed-point h in 0..½. -/
def fixSinPi (h : Nat) : Nat :=
  let x := fixMul h fixPi
  (sinSeries (fixMul x x) 80 1 x).toNat

/-- The largest r with r² ≤ n, below 2^bits. -/
def isqrt (n : Nat) : (bits r : Nat) → Nat
  | 0, r => r
  | b + 1, r => isqrt n b (if (r + 2 ^ b) ^ 2 ≤ n then r + 2 ^ b else r)

/-- A value of which `m` · 2^e is the exact part and `more` says that some of it remains. -/
def sticky (neg : Bool) (m : Nat) (e : Int) (more : Bool) : Num := .fin neg (2 * m + bit more) (e - 1)

/-- 2^v, for v in units of 2^−448. -/
def exp2Of (v : Int) : Num :=
  let n := v / 2 ^ fixBits
  let f := (v % 2 ^ fixBits).toNat
  if f = 0 then .fin false 1 n else sticky false (fixExp2 f) (n - fixBits) true

def ex2 : Num → Num
  | .nan => .nan
  | .inf neg => if neg then .fin false 0 0 else .inf false
  | .fin neg m e => exp2Of (unitsAt neg m e (-fixBits))

/-- R170: ex2s(y, k), with y − k exact. -/
def ex2s (y : Num) (k : Int) : Num :=
  match y with
  | .fin neg m e => exp2Of (unitsAt neg m e (-fixBits) - k * 2 ^ fixBits)
  | y => ex2 y

def lg2 : Num → Num
  | .nan => .nan
  | .inf neg => if neg then .nan else .inf false
  | .fin neg m e =>
    if m = 0 then .inf true
    else if neg then .nan
    else
      let l := Nat.log2 m
      let v : Int := (e + l) * 2 ^ fixBits + fixLog2 m l
      if m = 2 ^ l then .fin (e + l < 0) (e + l).natAbs 0 else sticky (v < 0) v.natAbs (-fixBits) true

def rcp : Num → Num
  | .nan => .nan
  | .inf neg => .fin neg 0 0
  | .fin neg m e => if m = 0 then .inf neg else sticky neg (2 ^ 80 / m) (-80 - e) (2 ^ 80 % m != 0)

def rsq : Num → Num
  | .nan => .nan
  | .inf neg => if neg then .nan else .fin false 0 0
  | .fin neg m e =>
    if m = 0 then .inf neg
    else if neg then .nan
    else
      let m' := if e % 2 = 0 then m else 2 * m
      let e' := if e % 2 = 0 then e else e - 1
      let r := isqrt (2 ^ 160 / m') 81 0
      sticky false r (-80 - e' / 2) (r * r * m' != 2 ^ 160)

def sqrtOf : Num → Num
  | .nan => .nan
  | .inf neg => if neg then .nan else .inf false
  | .fin neg m e =>
    if m = 0 then .fin neg 0 0
    else if neg then .nan
    else
      let m' := if e % 2 = 0 then m * 2 ^ 64 else m * 2 ^ 65
      let e' := if e % 2 = 0 then e - 64 else e - 65
      let r := isqrt m' 60 0
      sticky false r (e' / 2) (r * r != m')

/-- sin(πh) for a fixed-point h in 0..1, exact at 0, ½ and 1. -/
def halfTurn (neg : Bool) (h : Nat) : Num :=
  let h := min h (2 ^ fixBits - h)
  if h = 0 then .fin neg 0 0
  else if 2 * h = 2 ^ fixBits then .fin neg 1 0
  else sticky neg (fixSinPi h) (-fixBits) true

def sinpi : Num → Num
  | .fin neg m e =>
    if 0 ≤ e ∨ m = 0 then .fin neg 0 0
    else
      let u := (unitsAt false m e (-fixBits)).toNat
      let h := u % 2 ^ fixBits
      if h = 0 then .fin neg 0 0 else halfTurn (neg != ((u / 2 ^ fixBits) % 2 == 1)) h
  | _ => .nan

def cospi : Num → Num
  | .fin _ m e =>
    if m = 0 then .fin false 1 0
    else if 0 ≤ e then .fin (e == 0 && m % 2 == 1) 1 0
    else
      let r := (unitsAt false m e (-fixBits)).toNat % 2 ^ (fixBits + 1)
      let r := if 2 ^ fixBits < r then 2 ^ (fixBits + 1) - r else r
      let half := 2 ^ (fixBits - 1)
      if r = half then .fin false 0 0
      else if r < half then halfTurn false (half - r)
      else halfTurn true (r - half)
  | _ => .nan

/-- R169: a special function of an f32 pattern, rounded once under RN; its result is never flushed. -/
def specialOf (f : Num → Num) (ftz : Bool) (x : Nat) : Nat := f32Fmt.round .arithmetic 0 (f (f32Fmt.value (f32Fmt.flush ftz x)))

end Sys2Proof.Machine
end

