-- ==== Sys2Proof/Machine/FloatOps.lean ====
section
/-! DEFINITION. Floating-point, conversion and special-function instructions (R269 to R281). -/

namespace Sys2Proof.Machine

/-- R270: a result of 32 bits from the words of A, B and C. -/
def execWord (i : Instr) (f : Fields) (s : State) (op : Word → Word → Word → Word) : Host.Outcome State Fault Refusal :=
  issueWith i f s fun e => .done s (e.results f fun t => [op (e.a f t) (e.b f t) (e.c f t)])

/-- R155, R270: an operation on each element of the format. -/
def execFloat (i : Instr) (f : Fields) (s : State) (op : Fmt → Nat → Nat → Nat → Nat) : Host.Outcome State Fault Refusal :=
  execWord i f s (perElement f.typ.toNat (op (fmtOf f.typ.toNat)))

def execFadd (f : Fields) (s : State) := execFloat (.fadd f) f s fun g a b _ => g.add f.rmode f.ftz a b
def execFsub (f : Fields) (s : State) := execFloat (.fsub f) f s fun g a b _ => g.sub f.rmode f.ftz a b
def execFmul (f : Fields) (s : State) := execFloat (.fmul f) f s fun g a b _ => g.mul f.rmode f.ftz a b
def execFfma (f : Fields) (s : State) := execFloat (.ffma f) f s fun g a b c => g.fma f.rmode f.ftz a b c
def execFmin (f : Fields) (s : State) := execFloat (.fmin f) f s fun g a b _ => g.extreme true f.ftz a b
def execFmax (f : Fields) (s : State) := execFloat (.fmax f) f s fun g a b _ => g.extreme false f.ftz a b
def execFrnd (f : Fields) (s : State) := execFloat (.frnd f) f s fun g a _ _ => g.integral f.rmode (g.flush f.ftz a)
def execFclass (f : Fields) (s : State) := execFloat (.fclass f) f s fun g a _ _ => 2 ^ g.classBit a

/-- R274: SC[6:3] is the condition, SC[7] and SC[2:0] the combining predicate. -/
def execFset (f : Fields) (s : State) : Host.Outcome State Fault Refusal :=
  issueWith (.fset f) f s fun e =>
    let g := fmtOf f.typ.toNat
    let v (x : Word) := g.value (g.flush f.ftz (x.toNat % 2 ^ g.width))
    .done s (e.preds f fun t =>
      floatCond (f.sc.toNat / 8 % 16) ((v (e.a f t)).cmp (v (e.b f t))) && (e.p t (f.sc.toNat % 8) != f.sc.getLsbD 7))

/-! ## Conversions (R277 to R279) -/

/-- R278: `n` consecutive registers of source A. -/
def Env.aGroup (e : Env) (f : Fields) (n t : Nat) : List Word :=
  (List.range n).map fun k => e.reg (Fields.au f) t (f.sa.toNat + k)

/-- The number that little-endian words make, and the low `n` words of a number. -/
def wordsNat : List Word → Nat
  | [] => 0
  | x :: l => x.toNat + 2 ^ 32 * wordsNat l

def natWords : (n x : Nat) → List Word
  | 0, _ => []
  | n + 1, x => BitVec.ofNat 32 x :: natWords n (x / 2 ^ 32)

/-- R278: an integer source, extended by its sign. -/
def intSource (typ x : Nat) : Int := intVal (intWidth typ) (isSigned typ) x

/-- R278: an integer result in its registers. -/
def intResult (typ : Nat) (v : Int) : List Word :=
  if is64 typ then natWords 2 (v % (2 ^ 64 : Int)).toNat else [BitVec.ofInt 32 v]

/-- R278: the `i`-th 16-bit half of a group of words. -/
def half (ws : List Word) (i : Nat) : Nat := (ws.getD (i / 2) 0).toNat / 2 ^ (16 * (i % 2)) % 2 ^ 16

/-- Packs 16-bit patterns two to a word. -/
def pack16 : List Nat → List Word
  | x :: y :: l => BitVec.ofNat 32 (x + 2 ^ 16 * y) :: pack16 l
  | [x] => [BitVec.ofNat 32 x]
  | [] => []

/-- R163, R278: eight float sources to a block. -/
def toBlockWords (ovtab : Word) (mode : Mode) (ftz : Bool) (d s : Nat) (ws : List Word) : List Word :=
  let g := fmtOf s
  let xs := (List.range 8).map fun i => if s = 0x0E then (ws.getD i 0).toNat else half ws i
  natWords (if d = 0x18 then 3 else 2) (toBlock ovtab mode d (xs.map fun x => g.value (g.flush ftz x)))

/-- R161, R278: a block to eight floats. -/
def fromBlockWords (ovtab : Word) (mode : Mode) (ftz : Bool) (d s : Nat) (ws : List Word) : List Word :=
  let g := fmtOf d
  let blk := wordsNat ws
  let ys := (List.range 8).map fun i =>
    let v := blockValue s blk i
    g.flush ftz (match v with
      | .nan => g.nan
      | v => g.round (tableChoice ovtab d) mode v)
  if d = 0x0E then ys.map (BitVec.ofNat 32) else pack16 ys

/-- R161: the element formats of a packed pair. -/
def scalarOf (typ : Nat) : Nat :=
  match typ with
  | 0x10 => 0x0C
  | 0x11 => 0x0D
  | t => t

/-- R161, R277 to R279: `FCVT` on the source's registers. -/
def convertFloat (ovtab : Word) (mode : Mode) (ftz : Bool) (d s : Nat) (ws : List Word) : List Word :=
  let x := wordsNat ws
  if isBlock d then toBlockWords ovtab mode ftz d s ws
  else if isBlock s then fromBlockWords ovtab mode ftz d s ws
  else if isPacked s then
    let ys := [half ws 0, half ws 1].map (floatToFloat ovtab mode ftz (scalarOf d) (scalarOf s))
    if d = 0x0E then ys.map (BitVec.ofNat 32) else pack16 ys
  else if isPacked d then pack16 ((ws.map (·.toNat)).map (floatToFloat ovtab mode ftz (scalarOf d) s))
  else if isInt s then [BitVec.ofNat 32 (intToFloat ovtab mode ftz d (intSource s x))]
  else [BitVec.ofNat 32 (floatToFloat ovtab mode ftz d s x)]

/-- R161, R277 to R279: `ICVT` on the source's registers; `sat` clamps an integer source. -/
def convertInt (mode : Mode) (ftz sat : Bool) (d s : Nat) (ws : List Word) : List Word :=
  let x := wordsNat ws
  if isInt s then
    let v := intSource s x
    intResult d (if sat then clampInt (intWidth d) (isSigned d) v else intVal (intWidth d) (isSigned d) (v % (2 ^ 64 : Int)).toNat)
  else
    let g := fmtOf s
    let flush := ftz && (s == 0x0E || s == 0x0C || s == 0x0D)
    intResult d (floatToInt mode (intWidth d) (isSigned d) (g.value (g.flush flush (x % 2 ^ g.width))))

/-- R162: the context's overflow table. -/
def Env.ovtab (e : Env) (s : State) : Word := (s.ctx e.pf (e.ctx s)).ovtab

def execFcvt (f : Fields) (s : State) : Host.Outcome State Fault Refusal :=
  issueWith (.fcvt f) f s fun e =>
    let src := f.sc.toNat % 32
    .done s (e.results f fun t =>
      convertFloat (e.ovtab s) f.rmode f.ftz f.typ.toNat src (e.aGroup f (cvtSrcSpan f.typ.toNat src).1 t))

def execIcvt (f : Fields) (s : State) : Host.Outcome State Fault Refusal :=
  issueWith (.icvt f) f s fun e =>
    let src := f.sc.toNat % 32
    .done s (e.results f fun t =>
      convertInt f.rmode f.ftz (f.sb.getLsbD 0) f.typ.toNat src (e.aGroup f (cvtSrcSpan f.typ.toNat src).1 t))

/-! ## Special functions and exponent arithmetic (R280, R281) -/

/-- R280: a special function of A and B, counted as event 0x13 (R358). -/
def execSpecial (i : Instr) (f : Fields) (s : State) (op : Word → Word → Nat) : Host.Outcome State Fault Refusal :=
  issueWith i f s fun e =>
    .done (s.count e.ln.id e.core 0x13 1) (e.results f fun t => [BitVec.ofNat 32 (op (e.a f t) (e.b f t))])

def execEx2 (f : Fields) (s : State) := execSpecial (.ex2 f) f s fun a _ => specialOf ex2 f.ftz a.toNat
def execLg2 (f : Fields) (s : State) := execSpecial (.lg2 f) f s fun a _ => specialOf lg2 f.ftz a.toNat
def execRcp (f : Fields) (s : State) := execSpecial (.rcp f) f s fun a _ => specialOf rcp f.ftz a.toNat
def execRsq (f : Fields) (s : State) := execSpecial (.rsq f) f s fun a _ => specialOf rsq f.ftz a.toNat
def execSqrt (f : Fields) (s : State) := execSpecial (.sqrt f) f s fun a _ => specialOf sqrtOf f.ftz a.toNat
def execSinpi (f : Fields) (s : State) := execSpecial (.sinpi f) f s fun a _ => specialOf sinpi f.ftz a.toNat
def execCospi (f : Fields) (s : State) := execSpecial (.cospi f) f s fun a _ => specialOf cospi f.ftz a.toNat
def execEx2s (f : Fields) (s : State) := execSpecial (.ex2s f) f s fun a b => specialOf (ex2s · b.toInt) f.ftz a.toNat

def execFscale (f : Fields) (s : State) :=
  execWord (.fscale f) f s fun a b _ => BitVec.ofNat 32 (fscale f.rmode f.ftz a.toNat b)
def execFgetexp (f : Fields) (s : State) := execWord (.fgetexp f) f s fun _ b _ => BitVec.ofNat 32 (fgetexp f.ftz b.toNat)
def execFmaxe (f : Fields) (s : State) := execWord (.fmaxe f) f s fun a b _ => BitVec.ofNat 32 (fmaxe f.ftz a b.toNat)

end Sys2Proof.Machine
end

