-- ==== Sys2Proof/Machine/Memory.lean ====
section
/-! DEFINITION. Loads, stores, gathers, atomics, reductions and prefetches (R249 to R261), and path terms (R359). -/

namespace Sys2Proof.Machine

/-! ## Path terms (R359) -/

/-- One bit of the CRC. -/
def crcBit (c : DWord) : DWord := if c.getLsbD 63 then (c <<< 1) ^^^ 0x42F0E1EBA9EA3693#64 else c <<< 1

def crcBits : (n : Nat) → DWord → DWord
  | 0, c => c
  | n + 1, c => crcBits n (crcBit c)

/-- R359: the CRC-64 over bytes, each most significant bit first. -/
def crcBytes (c : DWord) : List Byte → DWord
  | [] => c
  | b :: bs => crcBytes (crcBits 8 (c ^^^ (b.setWidth 64 <<< 56))) bs

def crc64 (a b : Nat) : DWord := crcBytes 0 (leBytes 8 a ++ leBytes 8 b)

/-- R359: threads' terms take a value each. -/
def State.pathTerms (s : State) (t : Nat) (xs : List (Nat × Nat)) : State :=
  s.modTeam t fun tm => xs.foldl (fun tm x => tm.modThread x.1 fun th => { th with term := crc64 x.2 th.term.toNat }) tm

/-! ## Shared parts -/

/-- The access size in bytes of a format (R250). -/
def accessSize (typ : Nat) : Nat := intWidth typ / 8

/-- R250: the base address or offset of a member, and the signed byte offset. -/
def Env.baseOf (e : Env) (f : Fields) (m : Member) : Nat :=
  if f.space < 2 then (e.a2 f m.tid).toNat else (e.a f m.tid).toNat
def offsetOf (f : Fields) : Int := if f.len = .two then 0 else f.imm32.toInt

/-- R252, R257: a uniform destination makes one access, in the name of the elected thread. -/
def Env.actors (e : Env) (f : Fields) : List Member := if Fields.du f then (e.T f).take 1 else e.T f

/-- Source B at the width of the format; IMM32 is the offset here (R177). -/
def Env.dataB (e : Env) (f : Fields) (t : Nat) : Nat :=
  if is64 f.typ.toNat then (e.reg2 (Fields.bu f) t f.sb.toNat).toNat else (e.reg (Fields.bu f) t f.sb.toNat).toNat

/-- R257: the replacement value of cas, beyond the value compared. -/
def Env.dataNew (e : Env) (f : Fields) (t : Nat) : Nat :=
  if is64 f.typ.toNat then (e.reg2 (Fields.bu f) t (f.sb.toNat + 2)).toNat else (e.reg (Fields.bu f) t (f.sb.toNat + 1)).toNat

/-- The wait that a check met, with the deadlines of R472 and R378: its kind, page and request. -/
def Env.waitFor (e : Env) (s : State) (w : Nat × Nat × Nat) : Wait :=
  match w.1 with
  | 0 => .walk w.2.1
  | 1 => e.poolWait s w.2.1
  | 2 => .placement w.2.2 w.2.1
  | _ => e.dieWait s w.2.1

/-- R251, R453: the trap of the lowest-ranked thread that failed. -/
def Env.faultOf (e : Env) (fs : List (Nat × Nat × Nat)) : TrapInfo :=
  let (rank, cause, a) := fs.headD (0, 0, 0)
  e.info cause rank (maskOf (fs.map (·.1))) a

/-- R453, R500: what the faults come to: the trap of the thread that decides, or, where a store or an atomic of that thread has met a
die that does not answer, the end of the context. -/
def Env.failed (e : Env) (s : State) (fs : List (Nat × Nat × Nat)) (store : Bool) : Effect :=
  if store && (fs.headD (0, 0, 0)).2.1 == 0x90 then .placed (s.terminate e.pf (e.ctx s) 0x90) else .trap s (e.faultOf fs)

/-- R251: every check of every thread, then the accesses. In a transaction a failed check aborts before what R261 forbids there does
(R477 and R478 do not order the two; DEDUCED, log entry 109). -/
def Env.checked (e : Env) (ms : List Member) (c : Checks) (store : Bool)
    (k : State → List (Member × Spot) → Effect) : Effect :=
  match c.wait, c.bad, c.faults with
  | some w, _, _ => .hold c.s (e.waitFor c.s w)
  | none, some p, _ => .placed (c.s.badWord e.pf (e.ctx c.s) p)
  | none, none, x :: xs => e.failed c.s (x :: xs) store
  | none, none, [] => if ms.isEmpty then .done c.s .none else k c.s c.spots

/-- R261, R148: is a place one that a transaction may touch, or a speculator? -/
def Spot.page : Spot → Bool
  | .dram _ ord _ _ _ => ord != 1
  | _ => false
def Spot.onTeam : Spot → Bool
  | .chip sp _ => sp == 2 || sp == 3
  | _ => false

/-- R148, R261, R477: the reasons for which the accesses of an instruction abort its transaction. The 512 lines are the core's, over
its warps (R18; DEDUCED, log entry 126). -/
def Env.abortCodes (e : Env) (s : State) (t : Tx) (write read : Bool) (xs : List (Member × Spot)) : List Nat :=
  let lines := xs.map fun x => x.2.place / 128
  (if xs.any fun x => x.2.page && s.held e.t e.fr.warp x.2.place write then [0x01] else [])
    ++ (if write && 512 < s.bufferedBeside e.core e.t e.fr.warp + (dedup (t.writes ++ lines)).length then [0x03] else [])
    ++ (if read && 1024 < (dedup (t.reads ++ lines)).length then [0x04] else [])
    ++ (if xs.any fun x => !x.2.page then [0x05] else [])

/-- R478: of several reasons, the one that decides. -/
def decidingAbort (codes : List Nat) : Option Nat := (firstAbort (codes.map fun c => { code := c, cause := 0, user := 0 })).map (·.code)

/-- R146, R261, R477: what the warp's execution state makes of the accesses, before any is performed. -/
def Env.inMode (e : Env) (s : State) (write read : Bool) (xs : List (Member × Spot)) (k : Effect) : Effect :=
  let wp := (s.team e.t).warp e.fr.warp
  match wp.mode with
  | .normal => k
  | .speculative _ =>
    if xs.any fun x => !(x.2.page || x.2.onTeam) then .hold s .pause
    else if write && 512 < s.bufferedBeside e.core e.t e.fr.warp + wp.bufLines (xs.map fun x => x.2.place) then .hold s .pause
    else k
  | .transactional t => match decidingAbort (e.abortCodes s t write read xs) with
    | some code => .abort s code 0
    | none => k

/-- R105, R128: an acquire before the accesses of a load or atomic, and a release before those of a store or atomic,
in the normal state. -/
def Env.order (e : Env) (s : State) (f : Fields) : State :=
  match ((s.team e.t).warp e.fr.warp).mode with
  | .transactional _ => s
  | _ =>
    let s := if f.ann = 2 ∨ f.ann = 3 then e.release s else s
    if f.ann = 1 ∨ f.ann = 3 then e.acquire s f.scope else s

/-- R127: the fragment's own far stores are applied before its later accesses to the same storage. -/
def Env.ownFar (e : Env) (s : State) : State := s.deliverFrag e.t e.g

/-- R252: loaded bytes, extended. -/
def extendLoad (typ : Nat) (bs : List Byte) : List Word :=
  let n := intWidth typ
  wordsN (if n = 64 then 64 else 32) ((intVal n (isSigned typ) (leNat bs) % (2 ^ 64 : Int)).toNat)

/-- A result per member of the actors, uniform or not. -/
def resOf (f : Fields) (xs : List (Nat × List Word)) : Res :=
  if Fields.du f then .w ((xs.map (·.2)).headD []) else .v xs

/-! ## Loads and stores -/

/-- R252, R254: the loads of an instruction; `k` says what follows them. -/
def Env.doLoad (e : Env) (s : State) (f : Fields) (ro : Bool) (k : State → List (Nat × List Word) → Effect) : Effect :=
  let n := accessSize f.typ.toNat
  let ms := e.actors f
  let c := e.locateAll s { write := false, load := true, host := true, exact := false, size := n } f.space (e.baseOf f) (offsetOf f) ms
  e.checked ms c false fun s xs => e.inMode s false true xs <|
    let lanes := (xs.filter fun x => x.2.page).map fun x => x.2.place
    if !s.collects e.core lanes.length then .hold s .collector
    else
      let s := (e.order (e.ownFar s) f).collect e.core e.t lanes
      match e.loadAll s n ro xs with
      | .error p => .placed (s.badWord e.pf (e.ctx s) p)
      | .ok (s, vs) => k s (vs.map fun v => (v.1, extendLoad f.typ.toNat v.2))

def execLd (f : Fields) (s : State) : Host.Outcome State Fault Refusal :=
  issueWith (.ld f) f s fun e => e.doLoad s f false fun s vs => .done s (resOf f vs)

def execLdro (f : Fields) (s : State) : Host.Outcome State Fault Refusal :=
  issueWith (.ldro f) f s fun e => e.doLoad s f true fun s vs => .done s (resOf f vs)

/-- R51, R256: does a gather regroup? -/
def Env.regroups (e : Env) : Bool := e.region && e.fr.ent.isNone

/-- R52, R256: the data of a gather is written and its destinations join the live sets. -/
def Team.gatherData (tm : Team) (e : Env) (k : Bool) (d : Nat) (vs : List (Nat × List Word)) : Team :=
  let tm := vs.foldl (fun tm v => tm.modThread v.1 fun th =>
    { th with liveX := (numbered d v.2).foldl (fun l y => insertNat y.1 l) th.liveX }) tm
  tm.putRes e.fr.warp e.fr.mem k d (.v vs)

/-- R256: data binds at issue and is filed as it returns (log entry 5). -/
def execLdRf (f : Fields) (s : State) : Host.Outcome State Fault Refusal :=
  issueWith (.ldRf f) f s fun e =>
    if e.regroups then
      e.settled s fun s => e.doLoad s f false fun s vs =>
        .wait (s.modTeam e.t fun tm => tm.gatherData e f.trans f.dst.toNat vs) (.gather f (vs.map (·.1)))
    else e.doLoad s f false fun s vs => .done s (resOf f vs)

def execSt (f : Fields) (s : State) : Host.Outcome State Fault Refusal :=
  issueWith (.st f) f s fun e =>
    let n := accessSize f.typ.toNat
    let ms := e.T f
    let c := e.locateAll s { write := true, load := false, host := true, exact := false, size := n } f.space (e.baseOf f) (offsetOf f) ms
    e.checked ms c true fun s xs => e.inMode s true false xs <| e.onRelease s f <|
      let s := e.order s f
      let s := if xs.all fun x => match x.2 with | .far _ _ => true | _ => false then s else e.ownFar s
      .done (e.storeAll s (xs.map fun x => (x.1, x.2, leBytes n (e.dataB f x.1.tid)))) .none

/-! ## Atomics and reductions (R257) -/

inductive AtomOp where
  | add | and | or | xor | min | max | xchg | cas | inc | dec
  deriving DecidableEq, Repr

/-- R257: the new value, from the old one, b and cas's replacement. -/
def AtomOp.apply (op : AtomOp) (typ old b new : Nat) : Nat :=
  let n := intWidth typ
  let sg := isSigned typ
  match op with
  | .add => if typ = 0x0E then f32Fmt.add 0 false old b else (old + b) % 2 ^ n
  | .and => old &&& b
  | .or => old ||| b
  | .xor => old ^^^ b
  | .min => if intVal n sg old ≤ intVal n sg b then old else b
  | .max => if intVal n sg b ≤ intVal n sg old then old else b
  | .xchg => b
  | .cas => if old = b then new else old
  | .inc => if b ≤ old then 0 else old + 1
  | .dec => if old = 0 ∨ b < old then b else old - 1

/-- R139: the atomics that a host page serves. -/
def hostAtomic (op : AtomOp) (typ : Nat) (ret : Bool) : Bool :=
  ret && (match op with
    | .add => typ != 0x0E
    | .xchg | .cas => true
    | _ => false)

/-- R140, R358: an atomic on device memory counts where it executed. -/
def Env.countAtomics (e : Env) (s : State) (xs : List (Member × Spot)) : State :=
  xs.foldl (fun s x => match x.2 with
    | .dram _ _ _ _ _ => { (s.count e.ln.id e.core (if Config.atomicAtCore s.free then 0x0E else 0x0F) 1) with free := s.free + 1 }
    | _ => s) s

/-- R253: how many of the read-modify-writes come with the issue. Other agents' accesses may fall between the others. Those of `.c`
come together, as the peer that they were checked against may leave (R94; log entry 94). -/
def Env.pacing (e : Env) (s : State) (xs : List (Member × Spot)) : Nat :=
  let far (x : Member × Spot) : Bool := match x.2 with
    | .chip space _ => space == 4
    | _ => false
  match ((s.team e.t).warp e.fr.warp).mode with
  | .normal => if xs.any far then xs.length else min xs.length (e.pace.getD xs.length)
  | _ => xs.length

/-- R257: the new value that a thread's read-modify-write gives. -/
def Env.atomicNew (e : Env) (f : Fields) (op : AtomOp) (m : Member) (old : Nat) : Nat :=
  op.apply f.typ.toNat old (e.dataB f m.tid) (e.dataNew f m.tid)

/-- R257, R359: the end of an `ATOM`, whose path terms take the values that it returns, or of a `RED`. -/
def Env.atomicEnd (e : Env) (s : State) (f : Fields) (ret : Bool) (vs : List (Nat × Nat)) : Effect :=
  if ret then
    let terms := if Fields.du f then (e.T f).map fun m => (m.tid, (vs.map (·.2)).headD 0) else vs
    .done (s.pathTerms e.t terms) (resOf f (vs.map fun v => (v.1, wordsN (intWidth f.typ.toNat) v.2)))
  else .done s .none

/-- R253, R257: an `ATOM` or `RED`. -/
def execAtomic (i : Instr) (f : Fields) (s : State) (op : AtomOp) (ret : Bool) : Host.Outcome State Fault Refusal :=
  issueWith i f s fun e =>
    let typ := f.typ.toNat
    let n := accessSize typ
    let ms := e.actors f
    let c := e.locateAll s { write := true, load := true, host := hostAtomic op typ ret, exact := false, size := n } f.space (e.baseOf f) (offsetOf f) ms
    e.checked ms c true fun s xs => e.inMode s true true xs <| e.onRelease s f <|
      let s := e.countAtomics (e.order (e.ownFar s) f) xs
      let k := e.pacing s xs
      match e.rmwAll s n (e.atomicNew f op) (xs.take k) with
      | .error p => .placed (s.badWord e.pf (e.ctx s) p)
      | .ok (s, vs) => if k < xs.length then .wait s (.rmws i (xs.drop k) vs) else e.atomicEnd s f ret vs

def execAtomAdd (f : Fields) (s : State) := execAtomic (.atomAdd f) f s .add true
def execAtomAnd (f : Fields) (s : State) := execAtomic (.atomAnd f) f s .and true
def execAtomOr (f : Fields) (s : State) := execAtomic (.atomOr f) f s .or true
def execAtomXor (f : Fields) (s : State) := execAtomic (.atomXor f) f s .xor true
def execAtomMin (f : Fields) (s : State) := execAtomic (.atomMin f) f s .min true
def execAtomMax (f : Fields) (s : State) := execAtomic (.atomMax f) f s .max true
def execAtomXchg (f : Fields) (s : State) := execAtomic (.atomXchg f) f s .xchg true
def execAtomCas (f : Fields) (s : State) := execAtomic (.atomCas f) f s .cas true
def execAtomInc (f : Fields) (s : State) := execAtomic (.atomInc f) f s .inc true
def execAtomDec (f : Fields) (s : State) := execAtomic (.atomDec f) f s .dec true
def execRedAdd (f : Fields) (s : State) := execAtomic (.redAdd f) f s .add false
def execRedAnd (f : Fields) (s : State) := execAtomic (.redAnd f) f s .and false
def execRedOr (f : Fields) (s : State) := execAtomic (.redOr f) f s .or false
def execRedXor (f : Fields) (s : State) := execAtomic (.redXor f) f s .xor false
def execRedMin (f : Fields) (s : State) := execAtomic (.redMin f) f s .min false
def execRedMax (f : Fields) (s : State) := execAtomic (.redMax f) f s .max false
def execRedInc (f : Fields) (s : State) := execAtomic (.redInc f) f s .inc false
def execRedDec (f : Fields) (s : State) := execAtomic (.redDec f) f s .dec false

/-- R257: the fields, the operation and whether an atomic instruction returns the old values. -/
def atomicOf : Instr → Option (Fields × AtomOp × Bool)
  | .atomAdd f => some (f, .add, true)
  | .atomAnd f => some (f, .and, true)
  | .atomOr f => some (f, .or, true)
  | .atomXor f => some (f, .xor, true)
  | .atomMin f => some (f, .min, true)
  | .atomMax f => some (f, .max, true)
  | .atomXchg f => some (f, .xchg, true)
  | .atomCas f => some (f, .cas, true)
  | .atomInc f => some (f, .inc, true)
  | .atomDec f => some (f, .dec, true)
  | .redAdd f => some (f, .add, false)
  | .redAnd f => some (f, .and, false)
  | .redOr f => some (f, .or, false)
  | .redXor f => some (f, .xor, false)
  | .redMin f => some (f, .min, false)
  | .redMax f => some (f, .max, false)
  | .redInc f => some (f, .inc, false)
  | .redDec f => some (f, .dec, false)
  | _ => none

/-- R129: the acquire of an atomic that acquires, at its last read-modify-write as at its first. -/
def Env.acquireLast (e : Env) (s : State) (f : Fields) : State := if f.ann = 1 ∨ f.ann = 3 then e.acquire s f.scope else s

/-- R253: the next read-modify-write of an instruction whose first ones are done. -/
def Env.rmwNext (e : Env) (s : State) (i : Instr) (x : Member × Spot) (left : List (Member × Spot)) (vs : List (Nat × Nat)) : State :=
  match atomicOf i with
  | none => s
  | some (f, op, ret) =>
    match e.rmw1 s x.1 x.2 (accessSize f.typ.toNat) (e.atomicNew f op x.1) with
    | .error p => s.badWord e.pf (e.ctx s) p
    | .ok (s, old) =>
      let vs := vs ++ [(x.1.tid, old)]
      if left.isEmpty then
        let s := (e.conclude f (retOf i f e.hdr.lanes) (e.atomicEnd (e.acquireLast s f) f ret vs)).modTeam e.t Team.wakeQueue
        if e.tm.st == .saving then s.modFrag e.t e.g Frag.stopped else s
      else s.modFrag e.t e.g fun fr => { fr with st := .waiting (.rmws i left vs) }

/-- R253: the turn of a fragment whose `ATOM` or `RED` has read-modify-writes to come. -/
def State.rmwTurn (s : State) (t g : Nat) : State :=
  if (s.launch? (s.team t).launch).isNone || s.overflowed (s.team t).launch then s
  else match ((s.team t).frag g).st with
    | .waiting (.rmws i (x :: left) vs) => (s.envAt t g).rmwNext s i x left vs
    | _ => s

/-! ## Exact accumulators (R118, R167, R258, R259) -/

def State.exact? (s : State) (pf ctx place : Nat) : Option Exact :=
  s.exacts.find? fun x => x.pf == pf && x.ctx == ctx && x.place == place

def State.modExact (s : State) (pf ctx place : Nat) (f : Exact → Exact) : State :=
  { s with exacts := modWhere (fun x => x.pf == pf && x.ctx == ctx && x.place == place) f s.exacts }

/-- R118: has the home slice of a place room for one more accumulator? -/
def State.sliceRoom (s : State) (place : Nat) : Bool :=
  (s.exacts.filter fun x => x.spill.isNone && l2Slice x.place == l2Slice place).length < 4096

/-- R118, R487: the lowest free entry of a context's spill area. -/
def State.spillEntry (s : State) (pf ctx : Nat) : Option Nat :=
  let used := s.exacts.filterMap fun x => if x.pf == pf && x.ctx == ctx then x.spill else none
  (List.range (used.length + 1)).find? fun i => !used.contains i && 80 * (i + 1) ≤ 65536 * (s.ctx pf ctx).spillUnits

/-- R167: the 640 bits of an accumulator, and an accumulator with the contents of 640 bits. -/
def Exact.image (x : Exact) : Nat := x.sum.toNat + 2 ^ 632 * bit x.pinf + 2 ^ 633 * bit x.ninf + 2 ^ 634 * bit x.nan

def Exact.ofImage (x : Exact) (n : Nat) : Exact :=
  { x with sum := BitVec.ofNat 632 n, pinf := n.testBit 632, ninf := n.testBit 633, nan := n.testBit 634 }

/-- R118, R167: writes and reads the 80 little-endian bytes of an entry of the spill area, at the die of the home slice. -/
def State.spillVa (s : State) (pf ctx i : Nat) : Nat := (s.ctx pf ctx).spill + 80 * i

/-- R354: a replay captures the page that an address lies in before the device writes there; is there room for it? -/
def State.captureVa (s : State) (pf ctx die va place : Nat) : State × Bool :=
  match s.leaf { pf, ctx, die, by_ := 0, team := 0, walks := true } va with
  | .found _ e lvl => s.capture pf ctx (entryAddr e / 2 ^ pageBits lvl * 2 ^ pageBits lvl) (2 ^ pageBits lvl) place 1
  | _ => (s, true)

/-- Both pages of an entry are reached, and captured for a replay; without room for them the entry is not written (R447). -/
def State.writeSpill (s : State) (pf ctx die i n : Nat) : Except Denied State :=
  let va := s.spillVa pf ctx i
  (s.reachVa .slice pf ctx die va .write).bind fun x => (x.1.reachVa .slice pf ctx die (va + 79) .write).bind fun y =>
    let a := y.1.captureVa pf ctx die va x.2
    let b := a.1.captureVa pf ctx die (va + 79) y.2
    let s := b.1
    if !(a.2 && b.2) then .ok s
    else s.savePieces .slice pf ctx die va 80 ((List.range 10).map fun j => piece (8 * j) 8 (n / 2 ^ (64 * j))) 3

def State.readSpill (s : State) (pf ctx die i : Nat) : Except Denied Nat :=
  (s.saveDoubles .slice pf ctx die ((List.range 10).map fun j => s.spillVa pf ctx i + 8 * j)).map fun l =>
    (l.zipIdx.map fun y => y.1 * 2 ^ (64 * y.2)).sum

/-- R118: an accumulator as its first contribution finds it. -/
def freshExact (pf ctx place : Nat) (spill : Option Nat) : Exact :=
  { pf, ctx, place, sum := 0, pinf := false, ninf := false, nan := false, by_ := [], spill }

/-- R118: the accumulator of an element is brought to its slice: a spilled one with what its entry holds, a new one at zero. One
that finds the slice full spills at once (log entry 78). A fault says that no entry takes it (R487). -/
def State.exactReady (s : State) (pf ctx place : Nat) : Except Denied State :=
  match s.exact? pf ctx place with
  | some x =>
    match x.spill with
    | none => .ok s
    | some i =>
      (s.readSpill pf ctx (homeDie place) i).bind fun n =>
        (s.writeSpill pf ctx (homeDie place) i n).map fun s =>
          s.modExact pf ctx place fun x => { x.ofImage n with spill := if s.sliceRoom place then none else some i }
  | none =>
    if s.sliceRoom place then .ok { s with exacts := s.exacts ++ [freshExact pf ctx place none] }
    else match s.spillEntry pf ctx with
      | none => .error (.fault s 0)
      | some i => (s.writeSpill pf ctx (homeDie place) i 0).map fun s => { s with exacts := s.exacts ++ [freshExact pf ctx place (some i)] }

def State.exactReadyEach (s : State) (pf ctx : Nat) : List Nat → Except Denied State
  | [] => .ok s
  | p :: l => (s.exactReady pf ctx p).bind fun s => s.exactReadyEach pf ctx l

/-- The accumulators of all elements of an instruction, before any is added to; none is created where one must wait. -/
def State.exactRoom (s : State) (pf ctx : Nat) (places : List Nat) : Except Denied State :=
  match s.exactReadyEach pf ctx places with
  | .ok s => .ok s
  | .error (.fault s' c) => .error (.fault { s' with exacts := s.exacts } c)
  | .error (.wait s') => .error (.wait { s' with exacts := s.exacts })

/-- R119, R167: a team's contribution. -/
def Exact.join (x : Exact) (t b : Nat) : Exact := { x.plus b with by_ := insertNat t x.by_ }

/-- R118, R167: adds an f32 pattern to the accumulator of an element, and to the entry of one that is spilled. -/
def State.exactAdd (s : State) (pf ctx t place b : Nat) : State :=
  let s := s.modExact pf ctx place fun x => x.join t b
  match s.exact? pf ctx place with
  | some x => match x.spill with
    | none => s
    | some i => match s.writeSpill pf ctx (homeDie place) i x.image with
      | .ok s => s
      | .error _ => s
  | none => s

/-- R482: an uncorrectable word that the entries of spilled accumulators, or the tables on the way to them, have met. -/
def State.badSpill (s : State) (pf ctx : Nat) (places : List Nat) : Option Nat :=
  places.findSome? fun p => match s.exact? pf ctx p with
    | some x => x.spill.bind fun i => s.badWithin pf ctx (homeDie p) true (s.spillVa pf ctx i) 80
    | none => s.badWithin pf ctx (homeDie p) false (s.ctx pf ctx).spill (65536 * (s.ctx pf ctx).spillUnits)

/-- What an instruction on exact accumulators does once they are at hand: it waits for a free entry (R487) or for the translation
of one; an uncorrectable word that it meets ends its context (R482). -/
def Env.withExacts (e : Env) (s : State) (places : List Nat) (k : State → Effect) : Effect :=
  match s.exactRoom e.pf (e.ctx s) places with
  | .ok s => k s
  | .error (.fault s c) => match if c = 0x37 then s.badSpill e.pf (e.ctx s) places else none with
    | some p => .placed (s.badWord e.pf (e.ctx s) p)
    | none => .hold s .spill
  | .error (.wait s) => .hold s (.walk (s.ctx e.pf (e.ctx s)).spill)

def execRedx (f : Fields) (s : State) : Host.Outcome State Fault Refusal :=
  issueWith (.redx f) f s fun e =>
    let ms := e.T f
    let c := e.locateAll s { write := true, load := false, host := false, exact := true, size := 4 } 0 (e.baseOf f) (offsetOf f) ms
    e.checked ms c true fun s xs => e.onRelease s f <|
      e.withExacts s (xs.map fun x => x.2.place) fun s =>
        let s := e.order (e.ownFar s) f
        .done (xs.foldl (fun s x => s.exactAdd e.pf (e.ctx s) e.t x.2.place (e.dataB f x.1.tid)) (s.count e.ln.id e.core 0x0A xs.length)) .none

/-- R259, R148: one thread's `REDXF`: the total written and returned, or the element as it stands. -/
def Env.finish (e : Env) (s : State) (mode : Mode) (m : Member) (x : Spot) : Except Nat (State × Nat) :=
  let ctx := e.ctx s
  match s.exact? e.pf ctx x.place with
  | some a =>
    let y := a.total mode
    let s := { s with exacts := s.exacts.filter fun z => !(z.pf == e.pf && z.ctx == ctx && z.place == x.place) }
    .ok ((e.store1 s m x (leBytes 4 y)).wakeSpill, y)
  | none =>
    if s.isBad x.place then .error x.place
    else .ok (((s.conflict x.place false).count e.ln.id e.core 0x0A 1).refresh e.core x.place 4, s.mem.nat x.place 4)

def Env.finishAll (e : Env) (s : State) (mode : Mode) : List (Member × Spot) → Except Nat (State × List (Nat × Nat))
  | [] => .ok (s, [])
  | (m, x) :: l =>
    match e.finish s mode m x with
    | .error p => .error p
    | .ok (s, y) =>
      match e.finishAll s mode l with
      | .error p => .error p
      | .ok (s, r) => .ok (s, (m.tid, y) :: r)

def execRedxf (f : Fields) (s : State) : Host.Outcome State Fault Refusal :=
  issueWith (.redxf f) f s fun e =>
    let ms := e.actors f
    let c := e.locateAll s { write := true, load := true, host := false, exact := true, size := 4 } 0 (e.baseOf f) (offsetOf f) ms
    e.checked ms c true fun s xs => e.onRelease s f <|
      e.withExacts s ((xs.map fun x => x.2.place).filter fun p => (s.exact? e.pf (e.ctx s) p).isSome) fun s =>
        let s := e.order (e.ownFar s) f
        match e.finishAll s (f.sb.toNat % 8) xs with
        | .error p => .placed (s.badWord e.pf (e.ctx s) p)
        | .ok (s, vs) =>
          let terms := if Fields.du f then (e.T f).map fun m => (m.tid, (vs.map (·.2)).headD 0) else vs
          .done (s.pathTerms e.t terms) (resOf f (vs.map fun v => (v.1, wordsN 32 v.2)))

/-! ## Prefetch (R260) -/

/-- R260: where a prefetch lands: a bound RC or UO page of device DRAM that a TLB holds or a walk finds readable. It
sets no A bit and binds nothing. -/
def Env.prefetchSpot (e : Env) (s : State) (va : Nat) : Option Nat :=
  let leaf := match s.tlbFind (e.who s) va with
    | some x => some (x.entry, x.level)
    | none => match s.leaf (e.who s) va with
      | .found _ en lvl => some (en, lvl)
      | _ => none
  match leaf with
  | some (en, lvl) =>
    if entryU en || entryM en || !entryRD en || entryOrd en == 1 then none
    else match s.placeOf e.pf (entryAddr en / 2 ^ pageBits lvl * 2 ^ pageBits lvl + va % 2 ^ pageBits lvl) with
      | some p => if isDram p && s.reaches e.die (homeDie p) then some p else none
      | none => none
  | none => none

/-- R260: the line that a thread's address names comes into the L1; sectors held are kept, bad words are not fetched. -/
def Env.prefetch (e : Env) (s : State) (place : Nat) : State :=
  let line := place / 128
  (List.range 4).foldl (fun s i =>
    let sec := 4 * line + i
    if ((s.core e.core).l1Find (32 * sec) 32).isSome || s.isBad (32 * sec) then s
    else s.l1Fill e.core (32 * sec)) s

def execPrefl (f : Fields) (s : State) : Host.Outcome State Fault Refusal :=
  issueWith (.prefl f) f s fun e =>
    .done ((e.T f).foldl (fun s m => match formAddress 0 (e.baseOf f m) (offsetOf f) with
      | .ok (.va va) => match e.prefetchSpot s va with
        | some p => e.prefetch s p
        | none => s
      | _ => s) s) .none

end Sys2Proof.Machine
end

