-- ==== Sys2Proof/Machine/Control.lean ====
section
/-! DEFINITION. Control, thread and region instructions, traps and encodings that are none (R183, R185, R187, R201 to
R213). -/

namespace Sys2Proof.Machine

/-- R180: pc + 4 · offset, as the 64-bit program counter holds it. -/
def Env.target (e : Env) (off : Word) : Nat := (((e.pc : Int) + 4 * off.toInt) % (2 ^ 64 : Int)).toNat

/-- A step-7 fault of threads of T: the lowest rank decides. -/
def Env.threadTrap (e : Env) (cause : Nat) (ms : List Member) : TrapInfo :=
  e.info cause ((ms.map (·.rank)).headD 0) (ranksOf ms) 0

def Env.isAll (e : Env) (f : Fields) : Bool := (e.F f).isEmpty

/-- R359: the branches that always count, and those that count when guarded. -/
def guarded (f : Fields) : Bool := f.gneg || f.gp.toNat != 7

/-- R359: the terms of every thread of the active set, by its next pc. -/
def Env.branchTerms (e : Env) (s : State) (next : Nat → Nat) : State :=
  s.pathTerms e.t (e.active.map fun m => (m.tid, next m.tid))

def execNop (f : Fields) (s : State) := issueWith (.nop f) f s fun _ => .done s .none

/-- R208: the fragment may not issue in the cycle after this one. -/
def execYield (f : Fields) (s : State) : Host.Outcome State Fault Refusal :=
  issueWith (.yield f) f s fun e =>
    .done (s.modFrag e.t e.g fun fr => { fr with after := (s.core e.core).cycle + 2 }) .none

/-! ## Branches -/

/-- R202, R205: a branch of the whole fragment; `terms` says whether path terms take it. -/
def execWhole (i : Instr) (f : Fields) (s : State) (res : Env → Res) : Host.Outcome State Fault Refusal :=
  branchWith i f s
    (fun e => .done (if guarded f then e.branchTerms s fun _ => e.next f else s) .none)
    (fun e =>
      let tgt := e.target f.imm32
      if e.isAll f then .jump (if guarded f then e.branchTerms s fun _ => tgt else s) (res e) tgt
      else .trap s (e.threadTrap 0x22 (e.T f)))

def execBra (f : Fields) (s : State) := execWhole (.bra f) f s fun _ => .none

/-- R204, R205: the return address, for each thread of T. -/
def Env.link (e : Env) (f : Fields) : Res := e.results f fun _ => wordsN 64 (e.next f)

def execCall (f : Fields) (s : State) := execWhole (.call f) f s fun e => e.link f

/-- R38, R203, R204: the fragment moves as a whole, or it splits among the next pcs that its threads select. -/
def Env.diverge (e : Env) (s : State) (f : Fields) (r : Ret) (res : Res) (parts : List (Nat × List Member)) (rcv : Nat) : Effect :=
  match parts with
  | [(pc, _)] => .jump s res pc
  | _ =>
    if 32 ≤ (e.tm.splitsOf e.fr).length then .trap s (e.threadTrap 0x23 (e.T f))
    else e.settled s fun s =>
      .placed (((s.retire e r res e.pc).split e.t e.g parts rcv).count e.ln.id e.core 0x04 1)

/-- R38, R203: a branch whose target is the next instruction moves its fragment as one. -/
def execBraC (f : Fields) (s : State) : Host.Outcome State Fault Refusal :=
  branchWith (.braC f) f s
    (fun e => .done (e.branchTerms s fun _ => e.next f) .none)
    (fun e =>
      let tgt := e.target f.imm32
      let s' := e.branchTerms s fun t => if e.guard f t then tgt else e.next f
      if e.isAll f || tgt == e.next f then .jump s' .none tgt
      else match e.diverge s' f (retOf (.braC f) f e.hdr.lanes) .none [(tgt, e.T f), (e.next f, e.F f)] (e.target f.imm32b) with
        | .trap _ x => .trap s x
        | y => y)

/-! ## Target tables (R181) -/

/-- One aligned 8-byte read of a table: as `LDRO` reads; a speculator's is outside its read set (R204). -/
def Env.tableRead (e : Env) (s : State) (x : Spot) : Except Nat (State × Nat) :=
  match e.wp.mode, x with
  | .speculative _, .dram p ord _ _ va =>
    let s := s.conflict p false
    match (if ord = 1 then (if s.isBad p then some p else none) else s.lineBad e.core e.tm.roSince e.pf (e.ctx s) p va) with
    | some q => .error q
    | none =>
      if ord = 1 then .ok (s.count e.ln.id e.core 0x0A 1, s.mem.nat p 8)
      else let r := s.roLoad e.ln.id e.core e.tm.roSince e.pf (e.ctx s) p va 8; .ok (r.1, leNat r.2)
  | .speculative _, x => .ok (s, s.mem.nat x.place 8)
  | _, x => (e.load1 s x 8 true).map fun r => (r.1, leNat r.2)

/-- What a table lookup found. -/
inductive Looked where
  | ok (s : State) (v : Nat)
  | fault (s : State) (cause addr : Nat)
  | wait (s : State) (kind va request : Nat)
  | bad (place : Nat)
  | abort (s : State) (code : Nat)

/-- R148: the abort that a table read of a transaction meets. -/
def Env.tableAbort (e : Env) (s : State) (x : Spot) : Option Nat :=
  match ((s.team e.t).warp e.fr.warp).mode with
  | .transactional t => decidingAbort (e.abortCodes s t false true [(default, x)])
  | _ => none

def Env.lookAt (e : Env) (s : State) (tid va : Nat) : Looked :=
  match e.locate s { write := false, load := true, host := true, exact := false, size := 8 } 0 tid va 0 with
  | .fault s c a => .fault s c a
  | .wait s k v r => .wait s k v r
  | .bad p => .bad p
  | .ok s x => match e.tableAbort s x with
    | some code => .abort s code
    | none => match e.tableRead s x with
      | .ok r => .ok r.1 r.2
      | .error p => .bad p

/-- R181: an address that a table may hold. -/
def tableAddr (v : Nat) : Bool := v % 4 == 0 && v < 2 ^ 56

/-- The next pcs of the threads of T, in rank order, or what stops the branch. -/
inductive Targets where
  | ok (s : State) (xs : List (Nat × Nat))
  | faults (s : State) (fs : List (Nat × Nat × Nat))
  | wait (s : State) (w : Nat × Nat × Nat)
  | bad (place : Nat)
  | abort (s : State) (code : Nat)

/-- What one thread finds: an index outside the table comes first, then a bad header (R181, R186). -/
def Env.readTarget (e : Env) (s : State) (base n : Nat) (good : Bool) (tid idx : Nat) : Looked :=
  if n ≤ idx then .fault s 0x06 0
  else if !good then .fault s 0x07 0
  else match e.lookAt s tid (base + 16 + 8 * idx) with
    | .ok s v => if tableAddr v then .ok s v else .fault s 0x07 0
    | x => x

def Env.readTargets (e : Env) (s : State) (base n : Nat) (good : Bool) (idx : Nat → Nat) : List Member → Targets
  | [] => .ok s []
  | m :: l =>
    match e.readTarget s base n good m.tid (idx m.tid) with
    | .wait s k va r => .wait s (k, va, r)
    | .bad p => .bad p
    | .abort s c => .abort s c
    | .ok s v => match e.readTargets s base n good idx l with
      | .ok s xs => .ok s ((m.tid, v) :: xs)
      | x => x
    | .fault s c a => match e.readTargets s base n good idx l with
      | .ok s _ => .faults s [(m.rank, c, a)]
      | .faults s fs => .faults s ((m.rank, c, a) :: fs)
      | x => x

/-- What stops a branch at its table's header concerns every thread of T. -/
def Looked.header (x : Looked) (ms : List Member) (k : State → Nat → Targets × Nat) : Targets × Nat :=
  match x with
  | .ok s v => k s v
  | .fault s c a => (.faults s (ms.map fun m => (m.rank, c, a)), 0)
  | .wait s w va r => (.wait s (w, va, r), 0)
  | .bad p => (.bad p, 0)
  | .abort s c => (.abort s c, 0)

/-- R181: the header, then the entries. A reserved bit that is set and a reconvergence address that breaks the address rule make
the table bad for every thread whose index it holds; a misaligned table and a size outside 1..256 do so for every thread of T, before any
index is looked at (log entry 79). -/
def Env.readTable (e : Env) (s : State) (f : Fields) : Targets × Nat :=
  let ms := e.T f
  let tid := e.elected f
  let base := (e.reg2 true 0 f.sa.toNat).toNat
  let every (s : State) : Targets × Nat := (.faults s (ms.map fun m => (m.rank, 0x07, 0)), 0)
  if base % 8 ≠ 0 then every s
  else (e.lookAt s tid base).header ms fun s h =>
    (e.lookAt s tid (base + 8)).header ms fun s rcv =>
      let n := h % 512
      if n = 0 ∨ 256 < n then every s
      else (e.readTargets s base n (h == n && tableAddr rcv) (fun t => (e.reg (Fields.bu f) t f.sb.toNat).toNat) ms, rcv)

/-- R204: an indirect branch; `res` is the link of `CALLX`. -/
def execTable (i : Instr) (f : Fields) (s : State) (res : Env → Res) : Host.Outcome State Fault Refusal :=
  branchWith i f s
    (fun e => .done (e.branchTerms s fun _ => e.next f) .none)
    (fun e =>
      match e.readTable s f with
      | (.wait s w, _) => .hold s (e.waitFor s w)
      | (.bad p, _) => .placed (s.badWord e.pf (e.ctx s) p)
      | (.faults s fs, _) => .trap s (e.faultOf fs)
      | (.abort s c, _) => .abort s c 0
      | (.ok s xs, rcv) =>
        let next (t : Nat) : Nat := (lookup t xs).getD (e.next f)
        match e.diverge (e.branchTerms s next) f (retOf i f e.hdr.lanes) (res e) (partsBy (fun m => next m.tid) e.active) rcv with
        | .trap _ x => .trap s x
        | y => y)

def execBrx (f : Fields) (s : State) := execTable (.brx f) f s fun _ => .none
def execCallx (f : Fields) (s : State) := execTable (.callx f) f s fun e => e.link f

def execRet (f : Fields) (s : State) : Host.Outcome State Fault Refusal :=
  branchWith (.ret f) f s
    (fun e => .done (e.branchTerms s fun _ => e.next f) .none)
    (fun e =>
      let a := (e.a2 f (e.elected f)).toNat
      if !e.isAll f || (e.T f).any fun m => (e.a2 f m.tid).toNat != a then .trap s (e.threadTrap 0x22 (e.T f))
      else if a % 4 ≠ 0 then .trap s (e.threadTrap 0x05 (e.T f))
      else .jump (e.branchTerms s fun _ => a) .none a)

/-! ## Threads and regions -/

/-- The numbers of the threads of T. -/
def Env.tids (e : Env) (f : Fields) : List Nat := (e.T f).map (·.tid)

/-- R207. -/
def execExit (f : Fields) (s : State) : Host.Outcome State Fault Refusal :=
  issueWith (.exit f) f s fun e => e.settled s fun s =>
    .placed ((s.retire e (retOf (.exit f) f e.hdr.lanes) .none (e.next f)).exitThreads e.t e.g (e.tids f))

/-- R48: the threads of T that have, or have not, entered the region. -/
def Env.enteredOf (e : Env) (f : Fields) (b : Bool) : List Member := (e.T f).filter fun m => (e.tm.thread m.tid).entered == b

/-- R49: the unfiled threads at `RFOPEN` form a group of the region that keeps the window, each at its virtual lane. -/
def Team.regionGroup (tm : Team) (fr : Frag) (id pc : Nat) (mem : List Member) : Team :=
  if mem.isEmpty then tm
  else
    let tm := mem.foldl (fun tm m => tm.modThread m.tid fun th => { th with drawn := true }) tm
    { tm with frags := tm.frags ++ [{ fr with id := id, grp := some id, mem := mem, pc := pc, key := pc, ent := none, partial_ := false, out := [], unfiled := true }] }

/-- R48, R49, R57: opens the region if none is open; the threads of T enter it and are filed. -/
def State.openRegion (s : State) (e : Env) (f : Fields) : State :=
  let next := e.next f
  let mem := e.T f
  let tids := e.tids f
  let close := s.isClose (e.who s) next
  let s := s.modTeam e.t fun tm =>
    let tm := tm.setLive tids f.imm32
    let home : Home := { frag := e.g, warp := e.fr.warp, ent := e.fr.ent, mem }
    let r := tm.region.getD { join := 0, kids := 0, homes := [] }
    { tm with region := some { r with homes := r.homes ++ [home] }, st := .regionOpen }
  let fr := (s.team e.t).frag e.g
  let s := s.modTeam e.t fun tm => tm.shrink e.g tids
  let (s, left) := if close then (s, tids) else s.fileThreads e.t next tids
  { (s.modTeam e.t fun tm => tm.regionGroup fr s.fresh next (mem.filter fun m => left.contains m.tid)) with fresh := s.fresh + 1 }

def execRfopen (f : Fields) (s : State) : Host.Outcome State Fault Refusal :=
  issueWith (.rfopen f) f s fun e =>
    match e.enteredOf f true with
    | [] => e.settled s fun s => .placed ((s.retire e (retOf (.rfopen f) f e.hdr.lanes) .none (e.next f)).openRegion e f)
    | ms => .trap s (e.threadTrap 0x50 ms)

/-- R49, R51: files the threads of T at a reform point; those not filed stay in the group, as do all of one that runs its trap
routine (R469). -/
def State.refile (s : State) (e : Env) (pc : Nat) (tids : List Nat) : State :=
  if e.fr.priv || s.isClose (e.who s) pc then s
  else
    let (s, left) := s.fileThreads e.t pc tids
    s.modTeam e.t fun tm => tm.shrink e.g (tids.filter fun t => !left.contains t)

def execReform (f : Fields) (s : State) : Host.Outcome State Fault Refusal :=
  issueWith (.reform f) f s fun e =>
    if e.tm.region.isNone then .done s .none
    else match e.enteredOf f false with
      | m :: ms => .trap s (e.threadTrap 0x51 (m :: ms))
      | [] =>
        if e.fr.ent.isSome then .done s .none
        else e.settled s fun s =>
          let s := s.retire e (retOf (.reform f) f e.hdr.lanes) .none (e.next f)
          .placed ((s.modTeam e.t fun tm => tm.setLive (e.tids f) f.imm32).refile e (e.next f) (e.tids f))

/-- R57: the threads of T join; a child retires as at `EXIT`, with the wait of R84. R84 does not list the join of other threads: what
their group has outstanding goes with the group, and their registers hold it already (DEDUCED, log entry 104). -/
def execRfclose (f : Fields) (s : State) : Host.Outcome State Fault Refusal :=
  issueWith (.rfclose f) f s fun e =>
    match e.enteredOf f false with
    | m :: ms => .trap s (e.threadTrap 0x51 (m :: ms))
    | [] =>
      let close (s : State) : Effect :=
        .placed ((s.retire e (retOf (.rfclose f) f e.hdr.lanes) .none (e.next f)).joinThreads e.t e.g (e.tids f) (e.next f))
      if (e.tids f).any fun t => (e.tm.thread t).child then e.settled s close else close s

/-- R59: a child as it is queued; `resume` holds its entry. -/
def childThread (entry parent : Nat) (a0 a1 : Word) : Thread :=
  { (default : Thread) with
    v := a0 :: a1 :: List.replicate 14 0, p := List.replicate 7 false, child := true, queued := true, parent, resume := entry, entered := true }

/-- R58, R60: queues one child, if the queue of the core and the spawn numbers have room. -/
def State.queueChild (s : State) (t core entry parent : Nat) (a0 a1 : Word) : Option State :=
  let tm := s.team t
  let base := (s.launchOf tm.launch).t
  match tm.region with
  | none => none
  | some r =>
    if Config.spawnEntries ≤ (s.core core).spawn.length ∨ 2 ^ 24 - base ≤ r.kids then none
    else
      let tid := base + r.kids
      let s := s.modTeam t fun tm =>
        { tm with threads := tm.threads ++ [childThread entry parent a0 a1], region := some { r with kids := r.kids + 1 } }
      some (s.modCore core fun k => { k with spawn := k.spawn ++ [(t, tid)] })

/-- R210: one child for each thread, in rank order, with whether it was queued. -/
def Env.spawnAll (e : Env) (s : State) (f : Fields) : List Member → State × List (Nat × Bool)
  | [] => (s, [])
  | m :: l =>
    match s.queueChild e.t (s.coreOf e.t m.tid) (e.target f.imm32) (e.tm.warpOf e.hdr m.tid) (e.a f m.tid)
      (e.reg (Fields.bu f) m.tid f.sb.toNat) with
    | some s => let r := e.spawnAll s f l; (r.1, (m.tid, true) :: r.2)
    | none => let r := e.spawnAll s f l; (r.1, (m.tid, false) :: r.2)

def execSpawn (f : Fields) (s : State) : Host.Outcome State Fault Refusal :=
  issueWith (.spawn f) f s fun e =>
    match e.enteredOf f false with
    | m :: ms => .trap s (e.threadTrap 0x51 (m :: ms))
    | [] => let r := e.spawnAll s f (e.T f); .done r.1 (.p r.2)

/-! ## Traps and halting -/

/-- R211, R453: a trap by an instruction that completes; the pc stays its own address. -/
def execSoft (i : Instr) (f : Fields) (s : State) (cause : Nat) (code : Word) : Host.Outcome State Fault Refusal :=
  issueWith i f s fun e =>
    let x := { e.threadTrap cause (e.T f) with tcode := code }
    if e.wp.mode == .normal then e.settled s fun s =>
      let s := s.retire e (retOf i f e.hdr.lanes) .none e.pc
      .placed (s.takeTrap { s.envAt e.t e.g with pc := e.pc, words := e.words } x)
    else .trap s x

def execTrap (f : Fields) (s : State) := execSoft (.trap f) f s 0x08 f.imm32
def execBkpt (f : Fields) (s : State) := execSoft (.bkpt f) f s 0x09 0

/-- R212, R458: the fragment returns as a whole, whichever of its threads the guard holds for (DEDUCED, log entry 106). -/
def execEret (f : Fields) (s : State) : Host.Outcome State Fault Refusal :=
  issueWith (.eret f) f s fun e => .placed (((s.deliverFrag e.t e.g).count e.ln.id e.core 0x01 1).resumeFrame e.t e.g)

/-- R213: the halting fragment is saved with its frame. -/
def execHalt (f : Fields) (s : State) : Host.Outcome State Fault Refusal :=
  issueWith (.halt f) f s fun e =>
    .placed (((s.modFrag e.t e.g fun fr => { fr with fromFrame := true }).count e.ln.id e.core 0x01 1).haltLaunch e.ln.id)

/-! ## Repeats and encodings that are no instruction -/

/-- R182, R183: the prefix issues, and the repeats begin at the next instruction. -/
def State.beginRepeat (s : State) (e : Env) (r : RepFields) : State :=
  let n := r.cnt.toNat + 1
  let rep : Repeat := { prefix0 := e.words.getD 0 0, prefix1 := e.words.getD 1 0, fields := r, left := n }
  let s := s.modFrag e.t e.g fun fr => { fr with rep := some rep }
  s.retire e { (default : Ret) with isRep := true } .none (e.pc + 8)

/-- R183: what follows decides whether the `REP` is legal. Where it cannot be fetched, or names no permitted page, its own turn
says so. -/
def execRep (r : RepFields) (s : State) : Host.Outcome State Fault Refusal :=
  match s.env? with
  | none => .fault .noIssuer
  | some e =>
    let start (s : State) (ws : List Word) : State :=
      match ws with
      | w :: _ => if notRepeated w then s.raise e (e.infoAll 0x01 0) else s.beginRepeat e r
      | [] => s.beginRepeat e r
    .next (match { e with pc := e.pc + 8 }.fetch s with
      | .words s ws => start s ws
      | .trap s x => start s (if x.cause = 0x03 then x.words else [])
      | .wait s w => s.park e.t e.g w
      | .bad p => s.badWord e.pf (e.ctx s) p)

/-- R185: the words stand in the frame as fetched. -/
def execIllegalEncoding (_x : RawWords) (s : State) : Host.Outcome State Fault Refusal :=
  match s.env? with
  | none => .fault .noIssuer
  | some e => .next (s.raise e (e.infoAll 0x01 0))

/-- R187, R470. -/
def execUnimplementedEncoding (_x : RawWords) (s : State) : Host.Outcome State Fault Refusal :=
  match s.env? with
  | none => .fault .noIssuer
  | some e => .next (s.raise e (e.infoAll 0x02 0))

end Sys2Proof.Machine
end

