-- ==== Sys2Proof/Machine/Barriers.lean ====
section
/-! DEFINITION. Phaser instructions, the speculative barrier and transactions (R214 to R229). -/

namespace Sys2Proof.Machine

/-- A step-7 fault of an instruction that acts once (R198). -/
def Env.onceTrap (e : Env) (f : Fields) (cause : Nat) : TrapInfo := e.threadTrap cause (e.T f)

/-- R214: the handle in source A. -/
def Env.handle (e : Env) (f : Fields) : Nat := (e.a f 0).toNat % 2 ^ 16

/-! ## Allocation and registration (R217, R218) -/

/-- R217: the free indices of a scope for the issuing team. -/
def Env.freePhasers (e : Env) (s : State) (scope : Nat) : List Nat :=
  if scope = 2 then
    let anchored := (s.teams.filter fun t => t.core == e.tm.core).map fun t => (t.phasers.filter (·.isSome)).length
    if 64 ≤ anchored.sum then []
    else ((List.range 64).filter fun i => 0 < i && (e.tm.phasers.getD i none).isNone).take 1
  else (List.range 1024).filter fun i => (lookup i (s.die e.die).phasers).isNone

/-- R217: allocates a phaser and answers its handle, or 0. -/
def Env.allocPhaser (e : Env) (s : State) (scope count : Nat) : State × Nat :=
  match e.freePhasers s scope with
  | [] => (s, 0)
  | i :: rest =>
    let p : Phaser := { p := 0, n := count, a := 0 }
    if scope = 2 then
      (s.modTeam e.t fun tm => { tm with phasers := setNth i (some p) tm.phasers }, handleOf 2 0 i)
    else
      let i := if rest.isEmpty then i else pickOf s.free (i :: rest)
      let h := handleOf scope e.die i
      ((s.modDie e.die fun d => { d with phasers := d.phasers ++ [(i, p)] }).modLaunch e.ln.id fun l =>
        { l with phasers := l.phasers ++ [h] }, h)

def execPhinit (f : Fields) (s : State) : Host.Outcome State Fault Refusal :=
  issueWith (.phinit f) f s fun e =>
    let count := (e.b f 0).toNat
    if 2 ^ 16 ≤ count then .trap s (e.onceTrap f 0x56)
    else
      let r := e.allocPhaser s (f.mod.toNat % 8) count
      .done r.1 (.w [BitVec.ofNat 32 r.2])

/-- R500: the wait of a phaser instruction for a die that does not answer; its end terminates the context. -/
def Env.farWait (e : Env) (s : State) : Wait := e.dieWait s noVa

/-- R221: the phaser of a handle that an instruction names, or the trap. A bad handle is found before a list that is full or does
not hold it (R218; DESIGN CHOICE, log entry 124). -/
def Env.withPhaser (e : Env) (s : State) (f : Fields) (k : Nat → Phaser → Effect) : Effect :=
  let h := e.handle f
  if s.badHandle e.pf e.t e.die h then .trap s (e.onceTrap f 0x52)
  else if hScope h = 5 && !s.reaches e.die (hDie h) then .hold s (e.farWait s)
  else match s.phaser? e.t h with
    | none => .trap s (e.onceTrap f 0x52)
    | some p => k h p

/-- R216, R221: with the warp's registration as well, in one of the modes given. -/
def Env.withReg (e : Env) (s : State) (f : Fields) (modes : List Nat) (k : Nat → Phaser → Registration → Effect) : Effect :=
  e.withPhaser s f fun h p =>
    match e.wp.reg? h with
    | none => .trap s (e.onceTrap f 0x53)
    | some r => if modes.contains r.mode then k h p r else .trap s (e.onceTrap f 0x57)

def execPhreg (f : Fields) (s : State) : Host.Outcome State Fault Refusal :=
  issueWith (.phreg f) f s fun e => e.withPhaser s f fun h p =>
    let mode := f.mod.toNat % 4
    let signals := mode != 2
    if (e.wp.reg? h).isSome then .trap s (e.onceTrap f 0x54)
    else if 8 ≤ e.wp.regs.length then .trap s (e.onceTrap f 0x55)
    else if signals && 65535 ≤ p.n then .trap s (e.onceTrap f 0x56)
    else
      let s := s.modWarp e.t e.fr.warp fun wp =>
        { wp with regs := wp.regs ++ [{ handle := h, mode, pending := false, phase := 0 }] }
      .done (s.putPhaser e.t h { p with n := p.n + bit signals }.test) .none

def execPhdrop (f : Fields) (s : State) : Host.Outcome State Fault Refusal :=
  issueWith (.phdrop f) f s fun e => e.withReg s f [1, 2, 3] fun h p r =>
    let s := s.modWarp e.t e.fr.warp fun wp => { wp with regs := wp.regs.filter fun x => x.handle != h }
    .done (s.putPhaser e.t h { p with n := p.n - bit (r.mode != 2) }.test) .none

/-! ## Arrivals and waits (R219, R220) -/

/-- R105, R128: the release of an arrival, then the arrival. -/
def Env.arriveOn (e : Env) (s : State) (h : Nat) : State := (e.release s).arrive e.t e.fr.warp h

def execPharv (f : Fields) (s : State) : Host.Outcome State Fault Refusal :=
  issueWith (.pharv f) f s fun e => e.withReg s f [1, 3] fun h p r =>
    if r.waits p then .wait s (.arrival h)
    else if e.storesDue s then .hold s .release
    else .done (e.arriveOn s h) (.w [BitVec.ofNat 32 p.p])

/-- R198: one predicate for the active set. -/
def Env.allPreds (e : Env) (b : Bool) : Res := .p (e.active.map fun m => (m.tid, b))

/-- The time of the issuing die's counter after a hint (R220). -/
def Env.deadline (e : Env) (s : State) (hint : Word) : Nat := (s.die e.die).time + hint.toNat

/-- R220: a try-wait for phase `t` of a phaser. -/
def Env.tryWait (e : Env) (s : State) (f : Fields) (h t : Nat) (hint : Word) : Effect :=
  match s.phaser? e.t h with
  | some p =>
    if p.done t then .done (e.acquire (s.setAgain e.t e.fr.warp h t false) (hScope h)) (e.allPreds true)
    else if hint = 0 then .done s (e.allPreds false)
    else .wait s (.tryWait h t (e.deadline s hint) f)
  | none => .trap s (e.onceTrap f 0x52)

def execPhwait (f : Fields) (s : State) : Host.Outcome State Fault Refusal :=
  issueWith (.phwait f) f s fun e => e.withReg s f [2, 3] fun h _ _ =>
    e.tryWait s f h ((e.c f 0).toNat % 2 ^ 16) (e.b f 0)

/-- R220, R222: a `PHAW` repeated after its hint has ended the wait, or after a save, makes no arrival, whether the arrival that it
made is still pending or its phase has completed since (log entry 114). -/
def execPhaw (f : Fields) (s : State) : Host.Outcome State Fault Refusal :=
  issueWith (.phaw f) f s fun e => e.withReg s f [3] fun h p r =>
    let old := r.again || r.waits p
    if !old && e.storesDue s then .hold s .release
    else
      let (s, t) := if old then (s, r.phase) else (e.arriveOn s h, p.p)
      e.tryWait (s.setAgain e.t e.fr.warp h t true) f h t (e.b f 0)

/-! ## Speculative barrier (R223) -/

/-- R83: the fragment's window is emptied. -/
def State.emptyWindow (s : State) (t g : Nat) : State := s.modFrag t g fun fr => { fr with win := [] }

/-- R223: the phase that a `BARS` awaits, with its arrival if it makes one. A `BARS` executed again after a rollback
does not arrive a second time. -/
def Env.barsArrive (e : Env) (s : State) (h : Nat) (p : Phaser) (r : Registration) : State × Nat :=
  match e.wp.again with
  | some t => (s.modWarp e.t e.fr.warp fun wp => { wp with again := none }, t)
  | none => if r.waits p then (s.setAgain e.t e.fr.warp h r.phase false, r.phase) else (e.arriveOn s h, p.p)

/-- R223: the checkpoint of the issuing fragment's warp. -/
def State.shadowOf (s : State) (e : Env) : Shadow := (s.team e.t).checkpoint e.hdr ((s.team e.t).frag e.g) e.pc

def Warp.speculate (wp : Warp) (h t : Nat) (x : Shadow) : Warp :=
  { wp with mode := .speculative { handle := h, phase := t, shadow := x, reads := [], buf := [], pages := [], evicted := false } }

def execBars (f : Fields) (s : State) : Host.Outcome State Fault Refusal :=
  issueWith (.bars f) f s fun e =>
    if hScope (e.handle f) ≠ 2 then .trap s (e.onceTrap f 0x52)
    else if e.hdr.shadow < e.hdr.vgran then .trap s (e.onceTrap f 0x58)
    else e.withReg s f [1, 3] fun h p r => if e.wp.again.isNone && !r.waits p && e.storesDue s then .hold s .release else e.settled s fun s =>
      let s := s.emptyWindow e.t e.g
      let (s, t) := e.barsArrive s h p r
      match s.phaser? e.t h with
      | none => .done s .none
      | some q =>
        if q.done t then .done (s.acquireTeam e.t e.fr.warp) .none
        else
          let x := s.shadowOf e
          .done ((s.acquireTeam e.t e.fr.warp).modWarp e.t e.fr.warp fun wp => wp.speculate h t x) .none

/-! ## Transactions (R226 to R228) -/

def Warp.transact (wp : Warp) (wd : Nat) (x : Shadow) : Warp :=
  { wp with mode := .transactional { wd, shadow := x, reads := [], writes := [], buf := [], pages := [], aborts := [] } }

def execTxbeg (f : Fields) (s : State) : Host.Outcome State Fault Refusal :=
  issueWith (.txbeg f) f s fun e =>
    if e.hdr.shadow < e.hdr.vgran then .trap s (e.onceTrap f 0x58)
    else e.settled s fun s =>
      let s := s.emptyWindow e.t e.g
      let x := s.shadowOf e
      .done ((e.acquire s 5).modWarp e.t e.fr.warp fun wp => wp.transact f.dst.toNat x) (.w [0])

def execTxend (f : Fields) (s : State) : Host.Outcome State Fault Refusal :=
  issueWith (.txend f) f s fun e =>
    match e.wp.mode with
    | .transactional _ => if e.storesDue s then .hold s .release else e.settled s fun s => .done ((e.release s).commitTx e.t e.fr.warp) .none
    | _ => .trap s (e.onceTrap f 0x59)

def execTxabt (f : Fields) (s : State) : Host.Outcome State Fault Refusal :=
  issueWith (.txabt f) f s fun e =>
    match e.wp.mode with
    | .transactional _ => .abort s 0x08 ((e.b f 0).toNat % 2 ^ 16)
    | _ => .done s .none

end Sys2Proof.Machine
end

