-- ==== Sys2Proof/Machine/System.lean ====
section
/-! DEFINITION. Owner-bit waits, fences, special registers, the overflow table, claims and `CCTL.RO` (R111, R230 to
R236). -/

namespace Sys2Proof.Machine

/-! ## Tiles (R79, R230) -/

/-- R79: the fields of a tile descriptor. -/
def tileBase (d : DWord) : Nat := d.toNat % 2 ^ 9
def tileCount (d : DWord) : Nat := d.toNat / 2 ^ 9 % 2 ^ 9
def tileGrans (d : DWord) : List Nat := (List.range (tileCount d + 1)).map fun i => tileBase d + i

/-- R230: does every granule of a tile's window read THREAD? -/
def Team.tileFree (tm : Team) (tile : Nat) : Bool :=
  (tileGrans (tm.tiles.getD tile 0)).all fun g => !tm.owned.contains g

/-- R130, R142, R230: THREAD for every granule observes the completion of the tile's command, and is an acquire of the engine's
stores. -/
def execTilewait (f : Fields) (s : State) : Host.Outcome State Fault Refusal :=
  issueWith (.tilewait f) f s fun e =>
    let hint := e.b f 0
    if e.tm.tileFree f.sa.toNat then .done (e.acquire s 5) (e.allPreds true)
    else if hint = 0 then .done s (e.allPreds false)
    else .wait s (.tile f.sa.toNat (e.deadline s hint) f)

/-- R230: fragments whose tiles are all THREAD again go on with a true predicate. -/
def State.notifyTiles (s : State) (t : Nat) : State :=
  (s.team t).frags.foldl (fun s fr => match fr.st with
    | .waiting (.tile tile _ f) => if (s.team t).tileFree tile then s.endTry t fr.id 5 f true else s
    | _ => s) s

/-! ## Fences and caches (R231, R236) -/

def execFence (f : Fields) (s : State) : Host.Outcome State Fault Refusal :=
  issueWith (.fence f) f s fun e => e.onRelease s f (.done (e.order s f) .none)

def execCctlRo (f : Fields) (s : State) : Host.Outcome State Fault Refusal :=
  issueWith (.cctlRo f) f s fun e => .done (s.modCore e.core fun k => { k with ro := [] }) .none

/-! ## Special registers (R81, R232, R233) -/

/-- R81: what a thread reads in a special register. A register of warp scope is that of the warp whose uniform
registers the group reads (log entry 22). The counters count a replayed grid alone and read 0 for any other (R358). -/
def Env.csr (e : Env) (s : State) (n : Nat) (m : Member) : Nat :=
  match n with
  | 0x000 => m.tid
  | 0x001 => m.rank
  | 0x002 => (e.vlane m.tid).toNat
  | 0x003 => e.pop
  | 0x004 => e.fr.warp
  | 0x005 => e.tm.num
  | 0x006 => e.ln.nteam
  | 0x007 => e.ln.t
  | 0x008 => e.core
  | 0x009 => e.die
  | 0x010 => e.tm.cycles
  | 0x011 => (s.die e.die).time
  | 0x018 => bit e.fr.partial_
  | 0x019 => e.wp.repcnt
  | 0x020 => 0x200
  | 0x021 => s.mode
  | 0x030 => e.tm.rxwin.toNat
  | 0x031 => (s.ctx e.pf (e.ctx s)).ovtab.toNat
  | n => if e.ln.replay.isSome then (s.core e.core).pmc.getD (n % 4) 0 else 0

def execCsrr (f : Fields) (s : State) : Host.Outcome State Fault Refusal :=
  issueWith (.csrr f) f s fun e =>
    let w := if csr64 f.csr then 64 else 32
    if Fields.du f then .done s (.w (wordsN w (e.csr s f.csr (((e.T f).head?).getD default))))
    else .done s (.v ((e.T f).map fun m => (m.tid, wordsN w (e.csr s f.csr m))))

/-- R117: a window that may not be registered. -/
def badWindow (x : DWord) : Bool :=
  x.getLsbD 63 && (x.toNat / 2 ^ 8 % 2 ^ 48 * 2 ^ 8 % 2 ^ (x.toNat / 2 ^ 56 % 16 + 8) != 0 || x.toNat / 2 ^ 48 % 2 ^ 8 == 255)

/-- R117: the fields that the register holds; reserved ones read 0. -/
def windowFields (x : DWord) : DWord := x &&& 0x8FFFFFFFFFFFFF00#64

/-- R117: does the team's registered window hold the element at a place? Its pages are looked up in pieces that no frame splits. -/
def State.windowHolds (s : State) (w : Who) (rxwin : DWord) (place : Nat) : Bool :=
  let size := 2 ^ (rxwin.toNat / 2 ^ 56 % 16 + 8)
  let base := 2 ^ 8 * (rxwin.toNat / 2 ^ 8 % 2 ^ 48)
  let k := min size 16384
  rxwin.getLsbD 63 && (List.range (size / k)).any fun i =>
    match s.leaf w (base + k * i) with
    | .found _ e lvl =>
      match s.placeOf w.pf (entryAddr e / 2 ^ pageBits lvl * 2 ^ pageBits lvl + (base + k * i) % 2 ^ pageBits lvl) with
      | some p => p ≤ place && place < p + k
      | none => false
    | _ => false

/-- R117: is the team a contributor to a live accumulator in the window that it has registered? -/
def Env.contributes (e : Env) (s : State) : Bool :=
  s.exacts.any fun x => x.by_.contains e.t && x.pf == e.pf && x.ctx == e.ctx s && s.windowHolds (e.who s) (s.team e.t).rxwin x.place

def execCsrw (f : Fields) (s : State) : Host.Outcome State Fault Refusal :=
  issueWith (.csrw f) f s fun e =>
    let x := e.c2 f 0
    if badWindow x || e.contributes s then .trap s (e.onceTrap f 0x18)
    else .done (s.modTeam e.t fun tm => { tm with rxwin := windowFields x }) .none

/-- R162: an overflow table that is not accepted. -/
def badOverflow (x : Word) : Bool :=
  let c (i : Nat) : Nat := x.toNat / 4 ^ i % 4
  1024 ≤ x.toNat || (List.range 5).any (fun i => c i == 3) || c 2 == 1 || c 4 != 0

def execOvld (f : Fields) (s : State) : Host.Outcome State Fault Refusal :=
  issueWith (.ovld f) f s fun e =>
    let x := e.a f 0
    if badOverflow x then .trap s (e.onceTrap f 0x1C)
    else .done (s.modCtx e.pf (e.ctx s) fun c => { c with ovtab := x }) .none

/-! ## Claims (R111, R112, R235) -/

/-- R235: the checks of every page from `va` on, page by page: a trap, a wait, or a bad word. -/
inductive ClaimCheck where
  | ok
  | fault (cause va : Nat)
  | wait (kind va : Nat)
  | bad (place : Nat)

/-- R111: why a leaf cannot be claimed. -/
def State.claimFault (s : State) (pf : Nat) (e : DWord) (lvl : Nat) : Option Nat :=
  if lvl = 1 then some 0x45
  else if entryU e then none
  else match s.placeOf pf (entryAddr e / 2 ^ pageBits lvl * 2 ^ pageBits lvl) with
    | none => some 0x43
    | some p => if isHost p then some 0x45 else none

/-- The address of the page that holds an address, where a leaf says how large it is (R475). -/
def State.pageBase (s : State) (w : Who) (va : Nat) : Nat :=
  match s.leaf w va with
  | .found _ _ lvl => va / 2 ^ pageBits lvl * 2 ^ pageBits lvl
  | _ => va

def Env.claimChecks (e : Env) (s : State) (stop : Nat) : (fuel va : Nat) → ClaimCheck
  | 0, _ => .ok
  | fuel + 1, va =>
    if stop ≤ va then .ok
    else match e.timedOut va with
      | some c => .fault c va
      | none => match s.leaf (e.who s) va with
        | .fault c => .fault c va
        | .remote => .wait 3 va
        | .bad p => .bad p
        | .found _ en lvl =>
          if entryM en then .wait 0 va
          else match s.claimFault e.pf en lvl with
            | some c => .fault c va
            | none => e.claimChecks s stop fuel ((va / 2 ^ pageBits lvl + 1) * 2 ^ pageBits lvl)

/-- R473: the host's answer to the fragment's request for a page of its claim, which is then gone; the page where the host refused it
or did not place it. -/
def Env.claimAnswer (e : Env) (s : State) : State × Option Nat :=
  match (s.ctx e.pf (e.ctx s)).requests.find? fun r => r.by_ == e.g && r.answer.isSome with
  | none => (s, none)
  | some r =>
    let missing := match s.leaf (e.who s) (65536 * r.va) with
      | .found _ en _ => entryU en
      | .fault c => c == 0x40
      | _ => false
    (s.modCtx e.pf (e.ctx s) fun c => { c with requests := c.requests.filter fun x => x != r }
     , if r.answer == some false || missing then some (65536 * r.va) else none)

/-- R235: a range that is not accepted. -/
def badClaim (start len : Nat) : Bool :=
  start % 65536 != 0 || len % 65536 != 0 || 255 * 2 ^ 48 < start + len

/-- A trap of the page of a claim that holds `va` (R475). -/
def Env.claimTrap (e : Env) (s : State) (f : Fields) (cause va : Nat) : TrapInfo :=
  { e.onceTrap f cause with addr := s.pageBase (e.who s) va }

/-- R235: the claim goes on from the page that its fragment names, if it was under way. In a replay pass it moves no page (R357). -/
def execClaim (f : Fields) (s : State) : Host.Outcome State Fault Refusal :=
  issueWith (.claim f) f s fun e =>
    let start := (e.a2 f 0).toNat
    let len := (e.reg2 true 0 f.sb.toNat).toNat
    let stop := start + len
    let next := if e.fr.claim = 0 then start else e.fr.claim
    if badClaim start len then .trap s (e.onceTrap f 0x19)
    else if stop ≤ next then .done (s.modFrag e.t e.g fun fr => { fr with claim := 0 }) .none
    else if !e.hdr.claim then .trap s (e.claimTrap s f 0x46 start)
    else match e.claimAnswer s with
      | (s, some va) => .trap s (e.claimTrap s f 0x48 va)
      | (s, none) => match e.claimChecks s stop (len / 65536) next with
        | .fault c va => .trap s (e.claimTrap s f c va)
        | .wait k va => .hold s (e.waitFor s (k, va, 0))
        | .bad p => .placed (s.badWord e.pf (e.ctx s) p)
        | .ok => if e.ln.replay.isSome then .done s .none else .wait s (.claim next stop)

/-- Where each part of a page stands and where it goes: chunks of 16 KiB for spread DRAM (R96). -/
structure Move where
  src : Nat
  dst : Nat
  size : Nat
  deriving DecidableEq, Repr

def State.movesOf (s : State) (pf pa size dst : Nat) : List Move :=
  if pa / 2 ^ 50 % 4 = 1 then
    (List.range (size / 16384)).filterMap fun i =>
      (s.placeOf pf (pa + 16384 * i)).map fun p => { src := p, dst := dst + 16384 * i, size := 16384 }
  else match s.placeOf pf pa with
    | some p => [{ src := p, dst, size }]
    | none => []

/-- A place after a move. -/
def movePlace (ms : List Move) (p : Nat) : Nat :=
  match ms.find? fun m => m.src ≤ p && p < m.src + m.size with
  | some m => p - m.src + m.dst
  | none => p

def moveLine (ms : List Move) (l : Nat) : Nat := movePlace ms (128 * l) / 128

/-- R477: an access of the device, or the write-back of a claim, meets the lines that transactions hold. -/
def Warp.moved (ms : List Move) (wp : Warp) : Warp :=
  let hit (l : Nat) : Bool := moveLine ms l != l
  let wp : Warp := { wp with
    stored := sortNat (wp.stored.map (moveLine ms))
    logs := wp.logs.map fun r => (r.1, sortNat (r.2.map (moveLine ms))) }
  match wp.mode with
  | .normal => wp
  | .speculative x =>
    { wp with mode := .speculative { x with reads := sortNat (x.reads.map (moveLine ms)), buf := x.buf.map fun (c : Host.Cell) => (movePlace ms c.1, c.2) } }
  | .transactional x => if x.reads.any hit || x.writes.any hit then wp.signal 0x02 else wp

/-- R111 step 3: no L2 keeps a line of a range. -/
def State.dropDirty (s : State) (base size : Nat) : State :=
  s.modDie (homeDie base) fun d => { d with dirty := d.dirty.filter fun l => 128 * l + 128 ≤ base || base + size ≤ 128 * l }

/-- R111 steps 2 to 4: the content moves, and what the device keeps by place follows it. -/
def State.movePage (s : State) (ms : List Move) : State :=
  let s := ms.foldl (fun s m => (({ s with mem := s.mem.copy m.src m.dst m.size }.dropLines m.src m.size).dropDirty m.src m.size).touch m.dst m.size) s
  { s with
    teams := s.teams.map fun tm => { tm with warps := tm.warps.map (Warp.moved ms) }
    exacts := s.exacts.map fun x => { x with place := movePlace ms x.place } }

/-- The translations of a page leave every TLB of the device. -/
def State.dropPage (s : State) (pf ctx va : Nat) : State :=
  s.dropTlbs fun x => x.pf == pf && x.ctx == ctx && va / 2 ^ pageBits x.level == x.page

/-- R111 step 5: a frame goes back to its die's pool. Spread frames have none. -/
def State.giveFrame (s : State) (pa lvl place : Nat) : State :=
  if pa / 2 ^ 50 % 4 = 1 then s
  else s.modDie (homeDie place) fun d =>
    if lvl = 2 then { d with pool2m := d.pool2m ++ [place] } else { d with pool64 := d.pool64 ++ [place] }

/-- R111 step 2: are elements of `REDCOPY`s, or read-modify-writes of an atomic in progress, in flight to a page? -/
def State.inFlight (s : State) (ms : List Move) : Bool :=
  let hits (p : Nat) : Bool := ms.any fun m => m.src ≤ p && p < m.src + m.size
  s.teams.any fun tm => (tm.cmds.any fun c => c.sent.any fun y => hits y.place) || tm.frags.any fun fr => match fr.st with
    | .waiting (.rmws _ left _) => left.any fun x => hits x.2.place
    | _ => false

/-- What one page of a claim comes to. -/
inductive Claimed where
  | ok (s : State) (next : Nat)
  | fault (s : State) (cause : Nat)
  | wait (s : State) (w : Wait)
  | busy
  | bad (place : Nat)

/-- R111: one page re-homed as a whole (log entry 23). -/
def Env.claimPage (e : Env) (s : State) (va : Nat) : Claimed :=
  let w := e.who s
  match s.leaf w va with
  | .fault c => .fault s c
  | .remote => .wait s (e.dieWait s va)
  | .bad p => .bad p
  | .found at_ en lvl =>
    let next := (va / 2 ^ pageBits lvl + 1) * 2 ^ pageBits lvl
    if entryM en then .wait s (.walk va)
    else match s.claimFault e.pf en lvl with
      | some c => .fault s c
      | none =>
        if entryU en then
          if (s.ctx w.pf w.ctx).hostPlace then
            match s.askHost w va at_ (placementEvent w.pf w.ctx e.die va) with
            | .asked s r => .wait s (.placement r va)
            | .fault s c => .fault s c
            | _ => .wait s (.walk va)
          else match s.takeFrame e.die lvl with
            | none => .wait s (e.poolWait s va)
            | some (s, fr) => .ok ((s.noteBound w lvl fr).pokeEntry w at_ (boundEntry en fr false)) next
        else
          let pa := entryAddr en / 2 ^ pageBits lvl * 2 ^ pageBits lvl
          match s.placeOf e.pf pa with
          | none => .fault s 0x43
          | some p =>
            if pa / 2 ^ 50 % 4 = 0 && homeDie p == e.die then .ok s next
            else if !s.reaches e.die (homeDie p) then
              .wait s (e.dieWait s va)
            else if s.inFlight (s.movesOf e.pf pa (2 ^ pageBits lvl) 0) then .busy
            else
              match (s.movesOf e.pf pa (2 ^ pageBits lvl) 0).findSome? fun m =>
                s.bad.find? fun b => m.src ≤ b * 64 && b * 64 < m.src + m.size with
              | some b => .bad (b * 64)
              | none => match s.takeFrame e.die lvl with
                | none => .wait s (e.poolWait s va)
                | some (s, fr) =>
                  let s := s.movePage (s.movesOf e.pf pa (2 ^ pageBits lvl) fr)
                  let en' := (en &&& ~~~(0x000FFFFFFFFFFF80#64)) ||| BitVec.ofNat 64 (fr / 256 * 256)
                  let s := (s.pokeEntry w at_ en').dropPage w.pf w.ctx va
                  .ok (s.giveFrame pa lvl p) next

/-- The environment of a waiting fragment with the words of its instruction (R456). -/
def State.envFetched (s : State) (t g : Nat) : Env :=
  let e := s.envAt t g
  match e.fetch s with
  | .words _ ws => { e with words := ws }
  | _ => e

/-- A claim whose next page is `va`: waiting for that page, or ready to complete. -/
def State.claimTo (s : State) (t g next stop : Nat) : State :=
  s.modFrag t g fun f => { f with claim := next, st := if stop ≤ next then .running else .waiting (.claim next stop) }

/-- The trap of a page that a `CLAIM` re-homes, in the name of the threads of its T. -/
def Env.pageTrap (e : Env) (s : State) (cause va : Nat) : TrapInfo := match decode e.words with
  | .ok (.claim f) => e.claimTrap s f cause va
  | _ => e.infoAll cause (s.pageBase (e.who s) va)

/-- R111, R235: the next page of a claim. A page that must wait sends the fragment back to its `CLAIM`, which goes on
from that page. -/
def execClaimPage (t g : Nat) (s : State) : Host.Outcome State Fault Refusal :=
  match ((s.team t).frag g).st with
  | .waiting (.claim next stop) =>
    let e := s.envFetched t g
    match e.claimPage s next with
    | .ok s n => .next (s.claimTo t g n stop)
    | .fault s c => .next (s.raise e (e.pageTrap s c next))
    | .wait s w => .next (s.modFrag t g fun f => { f with claim := next, st := .waiting w, bounds := f.bounded w })
    | .busy => .next s
    | .bad p => .next (s.badWord e.pf (e.ctx s) p)
  | _ => .next s

end Sys2Proof.Machine
end

