-- ==== Sys2Proof/Machine/Matrix.lean ====
section
/-! DEFINITION. Tiles and the matrix engine (R164, R282 to R293). -/

namespace Sys2Proof.Machine

/-! ## Tiles (R79, R282, R283) -/

def tileRows (d : DWord) : Nat := d.toNat / 2 ^ 36 % 2 ^ 12 + 1
/-- The pitch in bytes. -/
def tilePitch (d : DWord) : Nat :=
  let p := d.toNat / 2 ^ 24 % 2 ^ 12
  if p = 0 then 65536 else 16 * p

/-- R79: the descriptor that `TBIND` writes. -/
def tileDesc (typ : Nat) (wA wB : Word) : DWord :=
  BitVec.ofNat 64 (2 ^ 63 + typ * 2 ^ 48 + wB.toNat % 2 ^ 12 * 2 ^ 36 + wB.toNat / 2 ^ 16 % 2 ^ 12 * 2 ^ 24
    + wA.toNat / 2 ^ 16 % 2 ^ 9 * 2 ^ 9 + wA.toNat % 2 ^ 9)

/-- R282: a window that is not accepted. -/
def badTileWindow (scratch : Nat) (wA wB : Word) : Bool :=
  let d := tileDesc 0 wA wB
  (wA &&& ~~~(0x01FF01FF#32)) != 0 || (wB &&& ~~~(0x0FFF0FFF#32)) != 0 || scratch ≤ tileBase d + tileCount d
    || (tileCount d + 1) * 1024 < tileRows d * tilePitch d

def State.putTile (s : State) (t n : Nat) (d : DWord) : State := s.modTeam t fun tm => { tm with tiles := setNth n d tm.tiles }

def execTbind (f : Fields) (s : State) : Host.Outcome State Fault Refusal :=
  issueWith (.tbind f) f s fun e =>
    let wA := e.a f 0
    let wB := e.b f 0
    if badTileWindow e.hdr.scratch wA wB then .trap s (e.onceTrap f 0x17)
    else .done (s.putTile e.t f.dst.toNat (tileDesc f.typ.toNat wA wB)) .none

def execTrel (f : Fields) (s : State) : Host.Outcome State Fault Refusal :=
  issueWith (.trel f) f s fun e =>
    .done (s.putTile e.t f.dst.toNat ((e.tm.tiles.getD f.dst.toNat 0) &&& 0x7FFFFFFFFFFFFFFF#64)) .none

/-! ## Blocks (R164) -/

/-- An operand element: a float value or an integer. -/
inductive Elem where
  | num (x : Num)
  | int (x : Int)
  deriving DecidableEq, Repr

/-- R288: element `k` of the row of bytes at a place. -/
def State.rowElem (s : State) (fmt place k : Nat) : Elem :=
  match fmt with
  | 0x04 => .int (intVal 8 true (s.mem.get (place + k)).toNat)
  | 0x14 | 0x15 => .num ((fmtOf fmt).value (s.mem.get (place + k)).toNat)
  | 0x0C | 0x0D => .num ((fmtOf fmt).value (s.mem.nat (place + 2 * k) 2))
  | 0x16 => .num (e2m1Fmt.value ((s.mem.get (place + k / 2)).toNat / 16 ^ (k % 2) % 16))
  | 0x18 => .num (blockValue 0x18 (s.mem.nat (place + 9 * (k / 8)) 9) (k % 8))
  | _ => .num (blockValue fmt (s.mem.nat (place + 5 * (k / 8)) 5) (k % 8))

/-- R164: the exact sum of the products of one block, where NaN and infinities are special. -/
def blockSum : List (Num × Num) → Num
  | [] => .fin false 0 0
  | (a, b) :: l => (a.mul b).add 0 (blockSum l)

/-- R164: one block added to an element. An exact zero sum adds +0. -/
def addBlock (c : Nat) (l : List (Num × Num)) : Nat :=
  let b := match blockSum l with
    | .fin _ 0 _ => 0
    | x => f32Fmt.round .arithmetic 0 x
  f32Fmt.add 0 false c b

/-- Lists of at most 16 in order. -/
def chunks16 {α : Type} : (fuel : Nat) → List α → List (List α)
  | 0, _ => []
  | fuel + 1, l => if l.isEmpty then [] else l.take 16 :: chunks16 fuel (l.drop 16)

def intProducts : List Elem → List Elem → Int
  | .int a :: l, .int b :: r => a * b + intProducts l r
  | _, _ => 0

def numPairs : List Elem → List Elem → List (Num × Num)
  | .num a :: l, .num b :: r => (a, b) :: numPairs l r
  | _, _ => []

/-- R164: a row of A and a row of B accumulated into an element. -/
def accumulate (isInt : Bool) (c : Nat) (a b : List Elem) : Nat :=
  if isInt then ((c + intProducts a b) % (2 ^ 32 : Int)).toNat
  else (chunks16 a.length (numPairs a b)).foldl addBlock c

/-! ## The matrix operation (R286 to R289) -/

/-- R287: K₀ and the bytes of a row of K elements for a listed pair. -/
def pairOf (scaled : Bool) (a b : Nat) : Option (Nat × (Nat → Nat)) :=
  if scaled then
    if a = 0x18 ∧ b = 0x18 then some (32, fun k => 9 * k / 8)
    else if (a = 0x19 ∨ a = 0x1A) ∧ (b = 0x19 ∨ b = 0x1A) then some (64, fun k => 5 * k / 8)
    else none
  else
    if (a = 0x14 ∨ a = 0x15) ∧ (b = 0x14 ∨ b = 0x15) then some (32, fun k => k)
    else if a = 0x04 ∧ b = 0x04 then some (32, fun k => k)
    else if (a = 0x0C ∨ a = 0x0D) ∧ a = b then some (16, fun k => 2 * k)
    else if a = 0x16 ∧ b = 0x16 then some (64, fun k => k / 2)
    else none

/-- R286: the parameter block. -/
structure Params where
  za : Bool
  m : Nat
  n : Nat
  kmul : Nat
  afmt : Nat
  bfmt : Nat
  arow : Nat
  brow : Nat
  deriving DecidableEq, Repr

def paramsOf (x y : Word) : Params :=
  { za := x.getLsbD 28
    m := 16 * (x.toNat / 2 ^ 22 % 4 + 1)
    n := 16 * (x.toNat / 2 ^ 24 % 4 + 1)
    kmul := x.toNat / 2 ^ 26 % 4 + 1
    afmt := x.toNat % 32
    bfmt := x.toNat / 2 ^ 8 % 32
    arow := y.toNat % 2 ^ 12
    brow := y.toNat / 2 ^ 16 % 2 ^ 12 }

/-- R287: the cycles of the matrix engine. -/
def Params.cycles (p : Params) : Nat := 16 * p.m * p.n * p.kmul / 4096

/-- R288: does one operand lie outside its tile? -/
def outsideTile (d : DWord) (row count bytes : Nat) : Bool :=
  tileRows d < row + count || tilePitch d < bytes
    || 1024 * (tileCount d + 1) < tilePitch d * (row + count - 1) + bytes

/-- R288: the K of an operation whose parameters are good. -/
def goodParams (scaled : Bool) (x y : Word) (dA dB : DWord) : Option Nat :=
  let p := paramsOf x y
  if (x &&& 0xE03FE0E0#32) != 0 || (y &&& 0xF000F000#32) != 0 then none
  else match pairOf scaled p.afmt p.bfmt with
    | none => none
    | some (k0, bytes) =>
      let k := k0 * p.kmul
      if outsideTile dA p.arow p.m (bytes k) || outsideTile dB p.brow p.n (bytes k) then none else some k

/-- R288: the place of a row of a tile. -/
def Team.rowPlace (tm : Team) (d : DWord) (row : Nat) : Nat :=
  placeScratch tm.core (1024 * tm.base + 1024 * tileBase d + tilePitch d * row)

/-- The elements of an accumulator that differ from +0.0, by number. -/
abbrev AccElems := List (Nat × Word)

def accElem (l : AccElems) (n : Nat) : Nat := ((lookup n l).getD 0).toNat

/-- The 4,096 elements from a function of their number. -/
def accFrom (g : Nat → Nat) : AccElems :=
  (List.range 4096).filterMap fun n => let x := BitVec.ofNat 32 (g n); if x = 0 then none else some (n, x)

/-- R289, R290: an accumulator as an operation queued now finds it. Pergola products use none. -/
def State.accView (s : State) (tm : Team) (a : Nat) : AccElems :=
  match (s.core tm.core).matrix.reverse.find? fun o => o.team == tm.id && o.acc == a && o.cmd.isNone with
  | some o => o.elems
  | none => tm.accs.getD a []

/-- R288: the accumulator after an operation. -/
def State.mmaElems (s : State) (tm : Team) (p : Params) (k : Nat) (dA dB : DWord) (old : AccElems) : AccElems :=
  let row (d : DWord) (fmt r : Nat) : List Elem := (List.range k).map fun i => s.rowElem fmt (tm.rowPlace d r) i
  let as_ := (List.range p.m).map fun i => row dA p.afmt (p.arow + i)
  let bs := (List.range p.n).map fun j => row dB p.bfmt (p.brow + j)
  let isI := p.afmt == 0x04
  let new := as_.zipIdx.flatMap fun a => bs.zipIdx.map fun b =>
    let n := 64 * a.2 + b.2
    (n, accumulate isI (if p.za then 0 else accElem old n) a.1 b.1)
  let inside := new.filterMap fun x => let w := BitVec.ofNat 32 x.2; if w = 0 then none else some (x.1, w)
  accFrom fun n => if n / 64 < p.m && n % 64 < p.n then accElem inside n else accElem old n

/-- R289: queues an operation behind those on the anchor core; a full queue holds the fragment at issue. -/
def Env.queueMatrix (e : Env) (s : State) (i : Instr) (f : Fields) (cycles : Nat) (elems : AccElems) : Effect :=
  if s.limits.matrixQueue ≤ (s.core e.tm.core).matrix.length then .hold s .matrix
  else
    let op : MatrixOp := { id := s.fresh, team := e.t, acc := f.dst.toNat, elems, cycles, cmd := none }
    let s := { (s.modCore e.tm.core fun k => { k with matrix := k.matrix ++ [op] }) with fresh := s.fresh + 1 }
    .placed (s.retire e { retOf i f e.hdr.lanes with op := some op.id } .none (e.next f))

/-- R456: the trap of a tile granule that an engine owns, at the offset of the first one of a list (log entry 117). -/
def Env.granTrap (e : Env) (f : Fields) (grans : List Nat) : TrapInfo :=
  { e.onceTrap f 0x34 with addr := 1024 * ((grans.find? e.tm.owned.contains).getD 0) }

/-- R288: `MMA` and `MMABS`. -/
def execMatrix (i : Instr) (f : Fields) (scaled : Bool) (s : State) : Host.Outcome State Fault Refusal :=
  issueWith i f s fun e =>
    let x := e.w f.sc.toNat
    let y := e.w (f.sc.toNat + 1)
    let dA := e.tm.tiles.getD f.sa.toNat 0
    let dB := e.tm.tiles.getD f.sb.toNat 0
    match goodParams scaled x y dA dB with
    | none => .trap s (e.onceTrap f 0x60)
    | some k =>
      if (tileGrans dA ++ tileGrans dB).any e.tm.owned.contains then .trap s (e.granTrap f (tileGrans dA ++ tileGrans dB))
      else
        let s := e.ownFar s
        e.queueMatrix s i f (paramsOf x y).cycles (s.mmaElems e.tm (paramsOf x y) k dA dB (s.accView e.tm f.dst.toNat))

def execMma (f : Fields) (s : State) := execMatrix (.mma f) f false s
def execMmabs (f : Fields) (s : State) := execMatrix (.mmabs f) f true s

/-! ## Accumulator instructions (R291, R292) -/

def execAzero (f : Fields) (s : State) : Host.Outcome State Fault Refusal :=
  issueWith (.azero f) f s fun e => e.queueMatrix s (.azero f) f 0 []

def execAmov (f : Fields) (s : State) : Host.Outcome State Fault Refusal :=
  issueWith (.amov f) f s fun e => e.queueMatrix s (.amov f) f 0 (s.accView e.tm f.sa.toNat)

/-- R87, R292: the bytes of an element in memory, and of the block. -/
def accBytes (typ : Nat) : Nat := if typ = 0x0C ∨ typ = 0x0D then 2 else 4

/-- R292: the elected thread alone makes the access. -/
def Env.one (e : Env) (f : Fields) : List Member := (e.T f).take 1

/-- The first offset of each piece of a block that lies in one granule, page and chunk, with its size. -/
def blockPieces (addr : Int) (size : Nat) : (fuel off : Nat) → List (Nat × Nat)
  | 0, _ => []
  | fuel + 1, off =>
    if size ≤ off then []
    else
      let room := 1024 - ((addr + off) % 1024).toNat
      let n := min room (size - off)
      (off, n) :: blockPieces addr size fuel (off + n)

/-- A spot moved on by `n` bytes. -/
def Spot.shift (x : Spot) (n : Nat) : Spot :=
  match x with
  | .dram p o b z va => .dram (p + n) o b z (va + n)
  | .host p => .host (p + n)
  | .chip sp p => .chip sp (p + n)
  | .far c o => .far c (o + n)

/-- R186, R251: alignment comes after the translation of every byte of the block, and ownership and the answer of the host come after
alignment. -/
def laterFault (cause : Nat) : Bool := cause == 0x32 || cause == 0x34 || cause == 0x38

def Checks.ends (c : Checks) : Bool := c.wait.isSome || c.bad.isSome || c.faults.any fun x => !laterFault x.2.1

/-- R292, R251: the checks of every piece of the block, in ascending address; the spots are of 8 bytes each. A piece that fails gives
its own address as the faulting one (log entry 118). -/
def Env.locateBlock (e : Env) (s : State) (n : Need) (f : Fields) : List (Nat × Nat) → Checks
  | [] => { s, spots := [], faults := [], wait := none, bad := none }
  | (off, len) :: l =>
    let c := e.locateAll s { n with len } f.space (e.baseOf f) (offsetOf f + off) (e.one f)
    if c.ends then c
    else
      let d := e.locateBlock c.s n f l
      if d.ends then d
      else { d with
        faults := c.faults ++ d.faults
        spots := c.spots.flatMap (fun x => (List.range (len / 8)).map fun i => (x.1, x.2.shift (8 * i))) ++ d.spots }

/-- Of the faults of the pieces, the one that decides. -/
def decidingFault (fs : List (Nat × Nat × Nat)) : List (Nat × Nat × Nat) :=
  match fs.find? fun x => x.2.1 == 0x32 with
  | some x => [x]
  | none => fs.take 1

def Env.blockChecks (e : Env) (s : State) (n : Need) (f : Fields) : Checks :=
  let m := ((e.T f).head?).getD default
  let c := e.locateBlock s n f (blockPieces (e.baseOf f m + offsetOf f) (4096 * accBytes f.typ.toNat) 20 0)
  { c with faults := if c.ends then c.faults else decidingFault c.faults }

/-- R292: an element loaded from memory, and an element as stored. -/
def loadElem (typ x : Nat) : Nat :=
  if typ = 0x0C ∨ typ = 0x0D then f32Fmt.round .arithmetic 0 ((fmtOf typ).value x) else x

def storeElem (ovtab : Word) (mode typ x : Nat) : Nat :=
  if typ = 0x0C ∨ typ = 0x0D then (fmtOf typ).round (tableChoice ovtab typ) mode (f32Fmt.value x) else x

/-- The element of a number in a block's bytes. -/
def blockElem (bs : Memory) (k n : Nat) : Nat := bs.nat (k * n) k

/-- The block as cells numbered from 0. -/
def cellsFrom (i : Nat) : List Byte → Memory
  | [] => []
  | b :: l => if b = 0 then cellsFrom (i + 1) l else (i, b) :: cellsFrom (i + 1) l

/-- R292. `ALD` takes one of the queued operations of the engine and waits while that queue is full (DEDUCED, log entry 127). -/
def execAld (f : Fields) (s : State) : Host.Outcome State Fault Refusal :=
  issueWith (.ald f) f s fun e =>
    let c := e.blockChecks s { write := false, load := true, host := true, exact := false, size := 16 } f
    e.checked (e.one f) c false fun s xs =>
      if s.limits.matrixQueue ≤ (s.core e.tm.core).matrix.length then .hold s .matrix
      else
        let s := e.order (e.ownFar s) f
        match e.loadAll s 8 false xs with
        | .error p => .placed (s.badWord e.pf (e.ctx s) p)
        | .ok (s, vs) =>
          let bs := cellsFrom 0 (vs.flatMap (·.2))
          e.queueMatrix s (.ald f) f 0
            (accFrom fun n => loadElem f.typ.toNat (blockElem bs (accBytes f.typ.toNat) n))

/-- The bytes that `AST` stores, 8 at a time. -/
def storeBytes (ovtab : Word) (mode typ : Nat) (acc : AccElems) (piece : Nat) : List Byte :=
  let k := accBytes typ
  (List.range (8 / k)).flatMap fun i => leBytes k (storeElem ovtab mode typ (accElem acc (piece * (8 / k) + i)))

def execAst (f : Fields) (s : State) : Host.Outcome State Fault Refusal :=
  issueWith (.ast f) f s fun e =>
    let c := e.blockChecks s { write := true, load := false, host := true, exact := false, size := 16 } f
    e.checked (e.one f) c true fun s xs => e.inMode s true false xs <| e.onRelease s f <|
      let s := e.order (e.ownFar s) f
      let acc := s.accView e.tm f.sb.toNat
      .done (e.storeAll s (xs.zipIdx.map fun x =>
        (x.1.1, x.1.2, storeBytes (e.ovtab s) f.rmode f.typ.toNat acc x.2))) .none

end Sys2Proof.Machine
end

