-- ==== Sys2Proof/Machine/Queues.lean ====
section
/-! DEFINITION. Queue registers, the framing and completion of engine commands, and the dependence graph (R294 to
R307, R315). -/

namespace Sys2Proof.Machine

/-! ## The fields of a command (R296) -/

def Cmd.word (c : Cmd) (i : Nat) : Nat := (c.words.getD i 0).toNat
def cmdLen (w : Nat) : Nat := w / 2 ^ 28 % 16
def cmdKind (w : Nat) : Nat := w / 2 ^ 24 % 16
def cmdOpc (w : Nat) : Nat := w / 2 ^ 16 % 256
def cmdTgt (w : Nat) : Nat := w / 2 ^ 8 % 256
def cmdRec (w : Nat) : Nat := w % 256
def Cmd.kind (c : Cmd) : Nat := cmdKind (c.word 0)
def Cmd.opc (c : Cmd) : Nat := cmdOpc (c.word 0)
def Cmd.tgt (c : Cmd) : Nat := cmdTgt (c.word 0)

/-- The control word: PH, RC, GN, RW, SCOPE, NODE, PHASER. -/
def ctlPh (w : Nat) : Bool := w.testBit 31
def ctlRc (w : Nat) : Bool := w.testBit 30
def ctlGn (w : Nat) : Bool := w.testBit 29
def ctlRw (w : Nat) : Bool := w.testBit 28
def ctlScope (w : Nat) : Nat := w / 2 ^ 25 % 8
def ctlNode (w : Nat) : Nat := w / 2 ^ 16 % 256
def ctlPhaser (w : Nat) : Nat := w % 2 ^ 16

/-- R297, R315: a header word that names a command. -/
def goodHeader (dies : List Nat) (w : Nat) : Bool :=
  let len := cmdLen w
  let tgt0 := cmdTgt w == 0
  let tgt1 := cmdTgt w < 16 && dies.contains (cmdTgt w / 4)
  match cmdKind w, cmdOpc w with
  | 0, 0 => len == 6 && tgt0
  | 0, 1 => len == 15 && tgt0
  | 0, 2 => len == 7 && tgt0
  | 0, 3 => len == 4 && tgt0
  | 1, 0 => len == 15 && tgt1
  | 1, 1 => len == 9 && tgt1
  | 1, 2 => len == 9 && tgt1
  | 1, 3 => len == 8 && tgt1
  | 2, 0 => len == 14 && tgt0
  | 2, 1 => len == 15 && tgt0
  | 3, 0 => len == 4 && tgt0
  | 3, 1 => len == 6 && tgt0
  | 4, 0 => (len == 3 || len == 7) && tgt0
  | 4, 1 => len == 1 && tgt0
  | _, _ => false

/-! ## Endpoints (R300) -/

/-- An endpoint: a virtual address, or a tile register and an offset into its window. -/
inductive Endpoint where
  | mem (va : Nat)
  | tile (reg off : Nat)
  deriving DecidableEq, Repr

def endpointOf (lo hi : Nat) : Option Endpoint :=
  if hi.testBit 31 then (if hi / 16 % 2 ^ 27 = 0 then some (.tile (hi % 16) lo) else none)
  else if hi / 2 ^ 24 = 0 then some (.mem (2 ^ 32 * hi + lo))
  else none

/-- R300: may a command reach the bytes from `lo` to `hi`? All of them are translated, or all of them stand in the
die-scratchpad window. -/
def goodRange (lo hi : Int) : Bool :=
  (0 ≤ lo && hi < 255 * 2 ^ 48) || (0xFF300000000000 ≤ lo && hi < 0xFF300000000000 + 2 ^ 32)

/-- The bytes of a tile's window. -/
def tileBytes (d : DWord) : Nat := 1024 * (tileCount d + 1)

/-- R298, R300: an endpoint of words `i` and `i + 1` whose bytes from `lo` to `hi`, relative to it, the command may
reach. -/
def goodEndpoint (tiles : List DWord) (ws : List Word) (i : Nat) (tile : Bool) (lo hi : Int) : Bool :=
  match endpointOf (ws.getD i 0).toNat (ws.getD (i + 1) 0).toNat with
  | none => false
  | some (.mem va) => goodRange (va + lo) (max (va + hi) (va + lo))
  | some (.tile r o) =>
    let d := tiles.getD r 0
    tile && d.getLsbD 63 && 0 ≤ o + lo && o + hi < tileBytes d

/-- An address of words `i` and `i + 1` (R315). -/
def addrOf (ws : List Word) (i : Nat) : Nat := 2 ^ 32 * (ws.getD (i + 1) 0).toNat + (ws.getD i 0).toNat
def goodAddr (ws : List Word) (i align : Nat) : Bool := goodEndpoint [] ws i false 0 0 && addrOf ws i % align == 0

/-! ## The layouts (R308 to R333) -/

/-- Word `i` as a number, and as an s32. -/
def wn (ws : List Word) (i : Nat) : Nat := (ws.getD i 0).toNat
def ws32 (ws : List Word) (i : Nat) : Int := (ws.getD i 0).toInt

/-- R309: the lowest and highest offset of one endpoint's corners. -/
def ndLow (ws : List Word) (src : Bool) : Int :=
  let k := if src then 0 else 1
  ((List.range 3).map fun d => min 0 (((wn ws (7 + d) : Int) - 1) * ws32 ws (10 + 2 * d + k))).sum
def ndHigh (ws : List Word) (src : Bool) : Int :=
  let k := if src then 0 else 1
  (wn ws 6 : Int) - 1 + ((List.range 3).map fun d => max 0 (((wn ws (7 + d) : Int) - 1) * ws32 ws (10 + 2 * d + k))).sum

/-- R311: the element size of a `REDCOPY`, none for a format that its operation does not take. -/
def redSize (op fmt : Nat) : Option Nat :=
  match op with
  | 0 => if [0x06, 0x0A, 0x0E].contains fmt then some 4 else if [0x07, 0x0B].contains fmt then some 8 else none
  | 1 | 2 => if [0x06, 0x0A].contains fmt then some 4 else if [0x07, 0x0B].contains fmt then some 8 else none
  | 3 => if fmt = 0x0E then some 4 else none
  | _ => none

/-- R326: the bytes of an element of a feature or output format. -/
def elemBytes (fmt : Nat) : Nat :=
  match fmt with
  | 0x0C | 0x0D => 2
  | 0x0E | 0x06 => 4
  | _ => 1

/-- R326: the format word, with the pitches of its three operands. -/
def goodFormat (w inp wgt out : Nat) : Bool :=
  let a := w % 32
  let b := w / 2 ^ 5 % 32
  let o := w / 2 ^ 10 % 32
  let mode := w / 2 ^ 15 % 8
  let ci := 16 * (w / 2 ^ 26 + 1)
  let co := 16 * (w / 2 ^ 20 % 64 + 1)
  let float := ((a == 0x14 || a == 0x15) && (b == 0x14 || b == 0x15)) || ((a == 0x0C || a == 0x0D) && a == b)
  let pair := (float && [0x0E, 0x0C, 0x0D].contains o) || (a == 0x04 && b == 0x04 && o == 0x06)
  let pitch (p size : Nat) : Bool := p % 16 == 0 && size ≤ p
  pair && !w.testBit 19 && mode < 5 && (mode == 0 || o == 0x0C || o == 0x0D)
    && pitch inp (ci * elemBytes a) && pitch wgt (ci * elemBytes b) && pitch out (co * elemBytes o)

/-- R321: a finite f32, and a positive, finite and normal one. -/
def finiteF32 (w : Nat) : Bool := w / 2 ^ 23 % 2 ^ 8 != 255
def positiveF32 (w : Nat) : Bool := finiteF32 w && w / 2 ^ 23 % 2 ^ 8 != 0 && w < 2 ^ 31

/-- R298: the layout of a command of kinds 0 to 3, its control word apart. -/
def goodCommand (tiles : List DWord) (ws : List Word) : Bool :=
  let n := wn ws
  match cmdKind (n 0), cmdOpc (n 0) with
  | 0, 0 => goodEndpoint tiles ws 2 true 0 ((n 6 : Int) - 1) && goodEndpoint tiles ws 4 true 0 ((n 6 : Int) - 1)
  | 0, 1 =>
    n 6 != 0 && (List.range 3).all (fun d => 1 ≤ n (7 + d) && n (7 + d) ≤ 65536) && n 6 * n 7 * n 8 * n 9 ≤ 2 ^ 32
      && goodEndpoint tiles ws 2 true (ndLow ws true) (ndHigh ws true)
      && goodEndpoint tiles ws 4 true (ndLow ws false) (ndHigh ws false)
  | 0, 2 =>
    let op := n 7 % 8
    (n 7 / 2 ^ 3 % 32 == 0) && n 7 < 2 ^ 13 &&
      match redSize op (n 7 / 2 ^ 8 % 32) with
      | none => false
      | some k =>
        n 6 % k == 0 && n 2 % k == 0 && n 4 % k == 0 && !(n 5).testBit 31 && addrOf ws 4 < 255 * 2 ^ 48
          && goodEndpoint tiles ws 2 true 0 ((n 6 : Int) - 1) && goodEndpoint tiles ws 4 false 0 ((n 6 : Int) - 1)
  | 0, 3 => goodEndpoint tiles ws 2 false 0 ((n 4 : Int) - 1)
  | 1, 0 =>
    goodAddr ws 2 (2 ^ 21) && goodAddr ws 4 16 && goodAddr ws 6 4 && goodAddr ws 8 4
      && finiteF32 (n 11) && finiteF32 (n 12) && finiteF32 (n 13) && positiveF32 (n 14) && n 15 < 8 && n 15 % 4 < 2
  | 1, 1 => goodAddr ws 2 (2 ^ 21) && goodAddr ws 4 (2 ^ 21) && goodAddr ws 6 64 && n 9 < 4
  | 1, 2 => goodAddr ws 2 (2 ^ 21) && goodAddr ws 4 8 && goodAddr ws 6 4 && n 9 < 4
  | 1, 3 => goodAddr ws 2 (2 ^ 21) && goodAddr ws 4 8 && goodAddr ws 6 4
  | 2, 0 =>
    goodAddr ws 2 64 && goodAddr ws 4 16 && goodAddr ws 6 16 && goodAddr ws 8 16 && goodFormat (n 10) (n 11) (n 12) (n 13)
  | 2, 1 =>
    goodAddr ws 2 4 && goodAddr ws 6 16 && goodAddr ws 8 16 && goodAddr ws 10 16 && goodFormat (n 12) (n 13) (n 14) (n 15)
  | 3, 0 => goodAddr ws 2 4 && (n 4 &&& 0xFFFFF8C0) == 0 && 1 ≤ n 4 % 64 && n 4 % 64 ≤ 32
  | 3, 1 => goodAddr ws 4 1 && n 6 < 2 ^ 22 && n 6 / 2 ^ 5 % 32 ≤ 16 && n 6 / 2 ^ 3 % 4 != 3
  | _, _ => false

/-- R298: the tile registers that a command names, with their descriptors. -/
def cmdTiles (tiles : List DWord) (ws : List Word) : List (Nat × DWord) :=
  if cmdKind (wn ws 0) = 0 ∧ cmdOpc (wn ws 0) ≤ 2 then
    [2, 4].filterMap fun i => match endpointOf (wn ws i) (wn ws (i + 1)) with
      | some (.tile r _) => some (r, tiles.getD r 0)
      | _ => none
  else []

/-! ## Waking and completion (R301, R302) -/

def Team.cmd? (tm : Team) (c : Nat) : Option Cmd := tm.cmds.find? fun x => x.id == c
def Team.modCmd (tm : Team) (c : Nat) (f : Cmd → Cmd) : Team := { tm with cmds := modWhere (fun x => x.id == c) f tm.cmds }
def State.modCmd (s : State) (t c : Nat) (f : Cmd → Cmd) : State := s.modTeam t fun tm => tm.modCmd c f

/-- R302: the completion record. -/
def Cmd.record (c : Cmd) : List Byte :=
  leBytes 4 (2 ^ 24 * c.kind + 2 ^ 16 * c.opc + 2 ^ 8 * (c.cause % 256) + c.status)
    ++ leBytes 4 (2 ^ 8 * bit (ctlGn (c.word 1)) + ctlNode (c.word 1)) ++ leBytes 8 c.count

/-- R301, R302: 16 bytes go into a record slot of the team, unless an engine owns its granule. -/
def State.putRecord (s : State) (t slot : Nat) (bs : List Byte) : State :=
  let tm := s.team t
  if tm.owned.contains (16 * slot / 1024) then s else s.poke (placeScratch tm.core (1024 * tm.base + 16 * slot)) bs

/-- R302, R304: the record of node `n`, whose payload is no command and completed abnormally. -/
def State.nodeRecord (s : State) (t n status cause : Nat) : State :=
  match (((s.team t).nodes.getD n default) : Node).slot with
  | some k => s.putRecord t k (leBytes 4 (2 ^ 26 + 2 ^ 8 * cause + status) ++ leBytes 4 (2 ^ 8 + n) ++ leBytes 8 0)
  | none => s

/-- R304: a successor takes a signal; `bad` says that the predecessor completed abnormally. -/
def Node.signal (n : Node) (bad : Bool) : Node :=
  if n.k = -256 then { n with overflow := true, failed := n.failed || bad }
  else { n with k := n.k - 1, failed := n.failed || bad }

/-- R304: a node completes and signals its valid successors. Marks that signals have set since its launch stay for its next. -/
def Team.nodeDone (tm : Team) (n : Nat) (bad : Bool) : Team :=
  let x := tm.nodes.getD n default
  let tm := { tm with nodes := modNth n (fun y => { y with st := .done, cmd := none }) tm.nodes }
  let nodes := ((List.range 4).filter fun i => x.valid.getD i false).foldl
    (fun l i => modNth (x.succ.getD i 0) (fun y => y.signal bad) l) tm.nodes
  { tm with nodes }

/-- R130, R142: what a thread loads once it has observed a completion is no older than what the engine has stored: the cores of the team
give up their L1 lines. -/
def State.dropTeamL1 (s : State) (t : Nat) : State :=
  let tm := s.team t
  let s := s.dropL1 tm.core
  if isPair (s.launchOf tm.launch).t then s.dropL1 (tm.core + 1) else s

/-- The die of a command's engine. -/
def Cmd.engineDie (x : Cmd) : Nat := if x.kind = 1 then x.tgt / 4 else dieOfCore x.core

/-- R301: the steps of completion, up to the launches that its signals cause. -/
def State.finishCmd (s : State) (t c : Nat) : State :=
  match (s.team t).cmd? c with
  | none => s
  | some x =>
    let ctl := x.word 1
    let s := s.dropTeamL1 t
    let s := if x.status ≠ 0 ∧ ctlRc ctl then s.putRecord t (cmdRec (x.word 0)) x.record else s
    let s := (s.modTeam t fun tm => { tm with owned := tm.owned.filter fun g => !x.grans.contains g }).notifyTiles t
    let results := x.results ++ (if ctlRw ctl then [BitVec.ofNat 32 x.status] else [])
    let s := s.modTeam t fun tm =>
      if results.isEmpty then { tm with cmds := tm.cmds.filter fun y => y.id != c }
      else tm.modCmd c fun y => { y with st := .complete, results, grans := [] }
    let s := if ctlPh ctl then s.sendArrival t x.engineDie (ctlPhaser ctl) else s
    s.modTeam t fun tm =>
      let tm := if ctlGn ctl then tm.nodeDone (ctlNode ctl) (x.status != 0) else tm
      tm.wakeQueue

/-- A command ends with nothing done. -/
def State.endCmd (s : State) (t c status cause : Nat) : State :=
  (s.modCmd t c fun x => { x with status, cause, count := 0, grans := [] }).finishCmd t c

/-! ## Launching (R298, R304, R307, R504) -/

/-- R503, R504: does the engine of a command refuse it, for want of power? -/
def State.engineLost (s : State) (x : Cmd) : Bool :=
  let quad (q : Nat) : Bool := (s.die (q / 4)).off || (s.die (q / 4)).quadLost.contains (q % 4)
  match x.kind with
  | 0 | 2 => quad (quadOfCore x.core)
  | 1 => quad x.tgt
  | _ => false

def badScope (scope : Nat) : Bool := scope = 0 || scope = 1 || scope = 7

/-- R117, R311: do the elements of an exact `REDCOPY` lie in the team's window? -/
def State.exactInside (s : State) (t : Nat) (x : Cmd) : Bool :=
  if x.kind = 0 ∧ x.opc = 2 ∧ x.word 7 % 8 = 3 ∧ x.word 6 ≠ 0 then
    let d := addrOf x.words 4
    inWindow (s.team t).rxwin d && inWindow (s.team t).rxwin (d + x.word 6 - 4)
  else true

/-- R115, R298: a command launches: it is refused, or its granules flip and it goes to its engine. -/
def State.launchCmd (s : State) (t c : Nat) : State :=
  match (s.team t).cmd? c with
  | none => s
  | some x =>
    if badScope (ctlScope (x.word 1)) || s.engineLost x || !s.exactInside t x then s.endCmd t c 0x01 0
    else
      let s := s.deliver fun y => y.team == t
      let order := s.fresh
      let s := { s with fresh := order + 1 }
      s.modTeam t fun tm =>
        { tm.modCmd c fun x => { x with st := .launched, order } with owned := dedup (tm.owned ++ x.grans) }

/-- R115: has the team a store to one of the granules that is still to perform: one that a speculator buffers, or a
read-modify-write to come? -/
def State.buffered (s : State) (t : Nat) (grans : List Nat) : Bool :=
  let tm := s.team t
  let base := placeScratch tm.core (1024 * tm.base)
  let hits (p : Nat) : Bool := base ≤ p && grans.contains ((p - base) / 1024)
  (tm.warps.any fun wp => wp.buf.any fun c => hits c.1) || tm.frags.any fun fr => match fr.st with
    | .waiting (.rmws _ left _) => left.any fun x => hits x.2.place
    | _ => false

/-- R304: can a node launch? -/
def Node.ready (n : Node) : Bool := n.st == .armed && n.k == 0 && (n.pty != 0 || n.cmd.isSome)

/-- R304: a ready node launches. -/
def State.launchNode (s : State) (t n : Nat) : State :=
  let x := (s.team t).nodes.getD n default
  let s := s.modTeam t fun tm =>
    { tm with nodes := modNth n (fun y => { y with st := .launched, failed := false, overflow := false }) tm.nodes }
  if x.pty = 0 then
    let c := x.cmd.getD 0
    if x.overflow then s.endCmd t c 0x03 0x77
    else if x.failed then s.endCmd t c 0x04 0
    else match (s.team t).cmd? c with
      | none => s
      | some y =>
        if !badScope (ctlScope (y.word 1)) && y.grans.any (s.team t).owned.contains then s.endCmd t c 0x02 0
        else s.launchCmd t c
  else
    let arrived := match x.ph with
      | some h => s.sendArrival t (dieOfCore (s.team t).core) h
      | none => s
    let bad (s : State) (status cause : Nat) : State := (s.nodeRecord t n status cause).modTeam t fun tm => tm.nodeDone n true
    if x.overflow then bad arrived 0x03 0x77
    else if x.failed then bad arrived 0x04 0
    else if x.pty = 1 then arrived.modTeam t fun tm => tm.nodeDone n false
    else match s.queueChild t (s.team t).core x.entry 0 x.arg0 x.arg1 with
      | some s => s.modTeam t fun tm => tm.nodeDone n false
      | none => bad s 0x03 0x78

/-- R115, R298: does the flip of node `n`'s command wait for a store? One of a scope that is refused flips nothing, nor does one whose
node a predecessor or an overflow has failed (R304). -/
def State.nodeWaits (s : State) (t : Nat) (x : Node) : Bool :=
  match x.cmd.bind (s.team t).cmd? with
  | some c => !x.failed && !x.overflow && !badScope (ctlScope (c.word 1)) && s.buffered t c.grans
  | none => false

/-- R304: every ready node launches, one at a time. -/
def State.runGraph (s : State) (t : Nat) : (fuel : Nat) → State
  | 0 => s
  | fuel + 1 =>
    match (List.range (s.team t).nodes.length).find? fun n =>
      let x := (s.team t).nodes.getD n default
      x.ready && !s.nodeWaits t x with
    | some n => (s.launchNode t n).runGraph t fuel
    | none => s

/-- R301, R304, R66: a command completes, ready nodes launch, and the team may complete. -/
def State.completeCmd (s : State) (t c : Nat) : State := ((s.finishCmd t c).runGraph t 1024).teamCheck t

/-! ## Graph commands (R305, R306) -/

/-- R298, R305: what a `GNODE` must hold beyond its header. -/
def goodGnode (nodes : Nat) (ws : List Word) : Bool :=
  let n := wn ws
  let pty := n 2 / 2 ^ 18 % 4
  let ctl := n 1
  ctlGn ctl && !ctlRw ctl && !ctl.testBit 24 && (pty == 1 || !ctlPh ctl) && pty != 3 && n 2 % 2 ^ 18 == 0
    && cmdLen (n 0) == (if pty == 2 then 7 else 3) && (pty != 2 || n 4 % 4 == 0)
    && (List.range 4).all fun i =>
      let s := n 3 / 2 ^ (8 * i) % 256
      if (n 2).testBit (20 + i) then s < nodes else s == 0

def goodGarm (ws : List Word) : Bool :=
  let ctl := wn ws 1
  ctlGn ctl && !ctlPh ctl && !ctlRw ctl && !ctl.testBit 24

/-- R305: the node as `GNODE` defines it. -/
def defineNode (ws : List Word) (x : Node) : Node :=
  let n := wn ws
  { x with
    st := .armed
    pred := n 2 / 2 ^ 24
    k := x.k + (n 2 / 2 ^ 24 : Nat)
    succ := (List.range 4).map fun i => n 3 / 2 ^ (8 * i) % 256
    valid := (List.range 4).map fun i => (n 2).testBit (20 + i)
    pty := n 2 / 2 ^ 18 % 4
    cmd := none
    ph := if ctlPh (n 1) then some (ctlPhaser (n 1)) else none
    slot := if ctlRc (n 1) then some (cmdRec (n 0)) else none
    entry := 2 ^ 32 * n 5 + n 4
    arg0 := ws.getD 6 0
    arg1 := ws.getD 7 0 }

/-- R298, R305, R306: the state after a graph command is accepted, or the cause of its trap. -/
def State.acceptGraph (s : State) (t : Nat) (ws : List Word) : Except Nat State :=
  let tm := s.team t
  let ln := s.launchOf tm.launch
  let ctl := wn ws 1
  let i := ctlNode ctl
  let x := tm.nodes.getD i default
  let gnode := cmdOpc (wn ws 0) = 0
  let record := ctlRc ctl && 1024 * ln.hdr.scratch < 16 * cmdRec (wn ws 0) + 16
  if !(if gnode then goodGnode tm.nodes.length ws else goodGarm ws) || tm.nodes.length ≤ i || record then .error 0x71
  else if ctlPh ctl && s.badHandle ln.pf t (dieOfCore tm.core) (ctlPhaser ctl) then .error 0x52
  else if (if gnode then x.st == .armed || x.st == .launched else x.st != .done) then .error 0x75
  else
    let y := if gnode then defineNode ws x else { x with st := .armed, k := x.k + (x.pred : Nat) }
    .ok (((s.modTeam t fun tm => { tm with nodes := modNth i (fun _ => y) tm.nodes }).runGraph t 1024).teamCheck t)

/-- The happening of row GNODE or GARM: the command of warp `w`'s words takes effect if it is accepted. -/
def graphHappening (opc t : Nat) (ws : List Word) (s : State) : State :=
  if (s.team? t).isSome && goodHeader [] (wn ws 0) && cmdKind (wn ws 0) == 4 && cmdOpc (wn ws 0) == opc
      && ws.length == cmdLen (wn ws 0) + 1 then
    match s.acceptGraph t ws with
    | .ok s => s
    | .error _ => s
  else s

def execGnode (t _w : Nat) (ws : List Word) (s : State) : Host.Outcome State Fault Refusal := .next (graphHappening 0 t ws s)
def execGarm (t _w : Nat) (ws : List Word) (s : State) : Host.Outcome State Fault Refusal := .next (graphHappening 1 t ws s)

/-! ## Pushing and popping (R294 to R298) -/

/-- R297: the queue entries that the team holds. -/
def Team.openFrames (tm : Team) : List QueueReg :=
  tm.queues.filter fun q => q.owner.isSome && cmdKind ((q.words.headD 0).toNat) < 4
def Team.entries (tm : Team) : Nat := tm.cmds.length + tm.openFrames.length

def Team.modQueue (tm : Team) (q : Nat) (f : QueueReg → QueueReg) : Team := { tm with queues := modNth q f tm.queues }

/-- A command as its last word submits it. -/
def Env.newCmd (e : Env) (s : State) (q sub : Nat) (ws : List Word) : Cmd :=
  let tiles := cmdTiles e.tm.tiles ws
  { (default : Cmd) with
    id := s.fresh, q, words := ws, sub, st := .held, tiles, grans := dedup (tiles.flatMap fun x => tileGrans x.2)
    idx := 0, warp := e.fr.warp, core := e.core }

/-- R298, R307: the checks of the last push of a command of kinds 0 to 3. -/
def Env.submitFault (e : Env) (s : State) (ws : List Word) : Option Nat :=
  let ctl := wn ws 1
  let node := e.tm.nodes.getD (ctlNode ctl) default
  if ctl.testBit 24 || !goodCommand e.tm.tiles ws
      || (ctlRc ctl && 1024 * e.hdr.scratch < 16 * cmdRec (wn ws 0) + 16)
      || (ctlGn ctl && e.tm.nodes.length ≤ ctlNode ctl) then some 0x71
  else if ctlPh ctl && s.badHandle e.pf e.t e.die (ctlPhaser ctl) then some 0x52
  else if ctlGn ctl then
    (if node.st == .armed && node.pty == 0 && node.cmd.isNone then none else some 0x76)
  else if !badScope (ctlScope ctl) && (cmdTiles e.tm.tiles ws).any fun x => (tileGrans x.2).any e.tm.owned.contains then some 0x34
  else none

/-- The frame of a register closes. -/
def State.closeFrame (s : State) (t q : Nat) : State :=
  s.modTeam t fun tm => tm.modQueue q fun x => { x with owner := none, words := [], subs := x.subs + 1 }

/-- The granules of a command's tiles. -/
def Env.pushGrans (e : Env) (ws : List Word) : List Nat := (cmdTiles e.tm.tiles ws).flatMap fun x => tileGrans x.2

/-- R298: the last push. It is a release (R130, R105), and waits at issue for the team's stores to the granules that it flips (R115). -/
def Env.submit (e : Env) (s : State) (f : Fields) (q : Nat) (ws : List Word) : Effect :=
  if cmdKind (wn ws 0) = 4 then
    match s.acceptGraph e.t ws with
    | .error c => .trap s (e.onceTrap f c)
    | .ok s => .done (s.modTeam e.t fun tm => tm.modQueue q fun x => { x with owner := none, words := [] }) .none
  else match e.submitFault s ws with
    | some c => .trap s (if c = 0x34 then e.granTrap f (e.pushGrans ws) else e.onceTrap f c)
    | none =>
      if e.storesDue s || !ctlGn (wn ws 1) && !badScope (ctlScope (wn ws 1)) && s.buffered e.t (e.pushGrans ws) then
        .hold s (.queue q)
      else
      let x := e.newCmd s q (e.tm.queues.getD q default).subs ws
      let s := { (e.release s) with fresh := s.fresh + 1 }
      let s := (s.closeFrame e.t q).modTeam e.t fun tm => { tm with cmds := tm.cmds ++ [x] }
      if ctlGn (wn ws 1) then
        let s := s.modTeam e.t fun tm =>
          { tm with nodes := modNth (ctlNode (wn ws 1)) (fun y => { y with cmd := some x.id }) tm.nodes }
        .done (s.runGraph e.t 1024) .none
      else .done ((s.launchCmd e.t x.id).runGraph e.t 1024) .none

/-- R297: a push of one word. -/
def Env.push (e : Env) (s : State) (f : Fields) (v : Word) : Effect :=
  let q := f.dst.toNat
  let reg := e.tm.queues.getD q default
  match reg.owner with
  | some w =>
    if w ≠ e.fr.warp then .trap s (e.onceTrap f 0x72)
    else
      let ws := reg.words ++ [v]
      if cmdLen (wn ws 0) + 1 ≤ ws.length then e.submit s f q ws
      else .done (s.modTeam e.t fun tm => tm.modQueue q fun x => { x with words := ws }) .none
  | none =>
    if !goodHeader (s.devDies e.pf) v.toNat then .trap s (e.onceTrap f 0x70)
    else if cmdKind v.toNat < 4 && e.hdr.queues ≤ e.tm.entries then
      if e.tm.openFrames.isEmpty && e.tm.cmds.all (fun c => c.st == .complete) then .trap s (e.onceTrap f 0x73)
      else .wait s (.queue q)
    else .done (s.modTeam e.t fun tm => tm.modQueue q fun x => { x with owner := some e.fr.warp, words := [v] }) .none

def execMovToQueue (f : Fields) (s : State) : Host.Outcome State Fault Refusal :=
  issueWith (.movToQueue f) f s fun e => e.push s f (e.a f (e.elected f))

def execMoviToQueue (f : Fields) (s : State) : Host.Outcome State Fault Refusal :=
  issueWith (.moviToQueue f) f s fun e => e.push s f f.imm32

/-- R295: will a command queue a word at its completion, or has it one? -/
def Cmd.owes (c : Cmd) : Bool :=
  if c.st == .complete then c.taken < c.results.length else ctlRw (c.word 1) || (c.kind = 3 && c.opc = 1)

/-- R295: the command submitted first through a register among those that owe words. -/
def firstOwing (q : Nat) : List Cmd → Option Cmd
  | [] => none
  | c :: l => match firstOwing q l with
    | none => if c.q == q && c.owes then some c else none
    | some d => if c.q == q && c.owes && c.sub < d.sub then some c else some d

/-- R295: the words are popped as the results are released; until then the entry is held. -/
def execMovFromQueue (f : Fields) (s : State) : Host.Outcome State Fault Refusal :=
  issueWith (.movFromQueue f) f s fun e =>
    let q := f.sa.toNat
    match firstOwing q e.tm.cmds with
    | none => .trap s (e.onceTrap f 0x74)
    | some c =>
      if c.st != .complete then .wait s (.queue q)
      else if c.fault79 then .trap s { e.onceTrap f 0x79 with tcode := BitVec.ofNat 32 c.cause }
      else
        let s := (e.acquire s (ctlScope (c.word 1))).modTeam e.t fun tm => tm.modCmd c.id fun x => { x with taken := x.taken + 1 }
        .placed (s.retire e { retOf (.movFromQueue f) f e.hdr.lanes with pop := some c.id }
          (e.results f fun _ => [c.results.getD c.taken 0]) (e.next f))

/-- R301: the completion of a command whose accesses are performed. -/
def execCommandCompletion (t c : Nat) (s : State) : Host.Outcome State Fault Refusal :=
  match (s.team t).cmd? c with
  | some x => .next (if x.st == .applied then s.completeCmd t c else s)
  | none => .next s

end Sys2Proof.Machine
end

