-- ==== Sys2Proof/Machine/Copies.lean ====
section
/-! DEFINITION. Accesses of engines to memory (R143, R300, R472, R474, R488) and the copy engine (R303, R308 to R313,
R486). -/

namespace Sys2Proof.Machine

/-! ## Accesses of engines -/

/-- What an access of an engine comes to: done; a fault with its cause; a wait (0 for a claim or the host, 1 for an empty
pool, 2 for another die) at an address; or an uncorrectable word. -/
inductive Eng (α : Type) where
  | ok (s : State) (x : α)
  | fault (s : State) (cause : Nat)
  | stay (s : State) (kind va : Nat)
  | bad (s : State) (place : Nat)

def Eng.state {α : Type} : Eng α → State
  | .ok s _ | .fault s _ | .stay s _ _ | .bad s _ => s

def Eng.bind {α β : Type} (x : Eng α) (f : State → α → Eng β) : Eng β :=
  match x with
  | .ok s x => f s x
  | .fault s c => .fault s c
  | .stay s k va => .stay s k va
  | .bad s p => .bad s p

/-- Where an access lands, and the page around it. -/
structure Site where
  place : Nat
  base : Nat
  size : Nat
  deriving DecidableEq, Repr

/-- The requester that a command is, at an engine of a die. -/
def State.cmdWho (s : State) (t : Nat) (x : Cmd) (die : Nat) : Who :=
  let ln := s.launchOf (s.team t).launch
  { pf := ln.pf, ctx := (s.queue ln.pf ln.q).ctx, die, by_ := x.id, team := t, walks := true }

/-- R139, R452: why the host does not serve an access of an engine: it has no read-modify-write, and an address that answers with an
error gives cause 0x38 (log entry 119). -/
def State.hostRefuses (s : State) (k : Access) (place : Nat) : Option Nat :=
  if !isHost place then none
  else match k with
    | .update => some 0x35
    | .write => none
    | _ => if (s.hostErr place 1).isSome then some 0x38 else none

/-- R300, R310: the site of a generic address. -/
def State.engineAt (s : State) (w : Who) (va : Nat) (k : Access) : Eng Site :=
  if 2 ^ 56 ≤ va then .fault s 0x30
  else if va / 2 ^ 48 = 255 then
    if va / 2 ^ 32 % 2 ^ 16 ≠ 0x3000 then .fault s 0x30
    else
      let c := s.ctx w.pf w.ctx
      let o := va % 2 ^ 32
      if 65536 * c.dsp ≤ o then .fault s 0x31
      else .ok s { place := placeDieScratch w.die (65536 * c.dspBase + o), base := 0, size := 0 }
  else match s.translate w va k (placementEvent w.pf w.ctx w.die va) with
    | .ok s p _ b z => (match s.hostRefuses k p with
      | some c => .fault s c
      | none => .ok s { place := p, base := b, size := z })
    | .fault s c => .fault s c
    | .walk => .stay s 0 va
    | .asked s _ => .stay s 0 va
    | .pool s => .stay s 1 va
    | .remote => .stay s 2 va
    | .bad p => .bad s p

/-- An uncorrectable word in a range. -/
def State.badIn (s : State) (place n : Nat) : Option Nat :=
  if isDram place then (s.bad.find? fun w => w * 64 < place + n && place < w * 64 + 64).map (· * 64) else none

/-- Bytes at a site. -/
def State.siteRead (s : State) (x : Site) (n : Nat) : Eng (List Byte) :=
  match s.badIn x.place n with
  | some p => .bad s p
  | none =>
    if isHost x.place && (s.hostErr x.place n).isSome then .fault s 0x38
    else .ok (if isDram x.place then s.conflictRange x.place n false else s) (s.mem.bytes x.place n)

/-- A write that a replay's capture area has no room for is not performed, nor is any later one of its pass (R447). -/
def State.siteWrite (s : State) (w : Who) (x : Site) (bs : List Byte) : State :=
  let (s, may) := if isDram x.place then (s.conflictRange x.place bs.length true).capture w.pf w.ctx x.base x.size x.place bs.length else (s, true)
  if !may || s.overflowed (s.team w.team).launch then s else s.poke x.place bs

/-- The bytes to the end of a 16 KiB piece, which no page and no chunk divides. -/
def pieceRoom (va : Nat) : Nat := 16384 - va % 16384

/-- Reads, and writes, a range of virtual addresses piece by piece. -/
def State.readVa (s : State) (w : Who) : (fuel va n : Nat) → Eng (List Byte)
  | 0, _, _ => .ok s []
  | fuel + 1, va, n =>
    if n = 0 then .ok s []
    else
      let k := min n (pieceRoom va)
      (s.engineAt w va .read).bind fun s x => (s.siteRead x k).bind fun s bs =>
        (s.readVa w fuel (va + k) (n - k)).bind fun s r => .ok s (bs ++ r)

def State.writeVa (s : State) (w : Who) : (fuel va : Nat) → List Byte → Eng Unit
  | 0, _, _ => .ok s ()
  | fuel + 1, va, bs =>
    if bs.isEmpty then .ok s ()
    else
      let k := min bs.length (pieceRoom va)
      (s.engineAt w va .write).bind fun s x =>
        (s.siteWrite w x (bs.take k)).writeVa w fuel (va + k) (bs.drop k)

def State.eRead (s : State) (w : Who) (va n : Nat) : Eng (List Byte) := s.readVa w (n / 16384 + 2) va n
def State.eWrite (s : State) (w : Who) (va : Nat) (bs : List Byte) : Eng Unit := s.writeVa w (bs.length / 16384 + 2) va bs

/-! ## How a command goes on -/

/-- May the engines act for a team? A team that is being saved issues nothing more (R303). -/
def Team.active (tm : Team) : Bool := tm.st == .resident || tm.st == .regionOpen

/-- The command, if it may run at its engine. A replay's pass whose capture area is full runs none (R355). -/
def State.cmdAt (s : State) (t c kind opc : Nat) (st : CmdState) : Option Cmd :=
  match s.team? t with
  | none => none
  | some tm =>
    match tm.cmd? c with
    | none => none
    | some x => if tm.active && x.kind == kind && x.opc == opc && x.st == st && !(s.die (dieOfCore tm.core)).halted && !s.overflowed tm.launch then some x else none

/-- The accesses of a command are over. -/
def State.applyCmd (s : State) (t c status cause count : Nat) : State :=
  s.modCmd t c fun x => { x with st := .applied, status, cause, count, stall := none }

/-- R303, R472, R488: a command that must wait stands at its first element not yet applied. For a frame or another die the engine
waits up to the bound of its request for that page; then the command faults. -/
def State.stallCmd (s : State) (t c die kind va count : Nat) (fault : State → Nat → State) : State :=
  let now := (s.die die).time
  let page := va / 65536
  let remote := kind == 2
  let begun := ((s.team t).cmd? c).bind fun x => x.stall.filter fun y => y.1 == remote && y.2.1 == page
  let limit := match begun with
    | some y => y.2.2
    | none => now + if remote then s.limits.crossDie else s.limits.poolWait
  if kind = 0 then s.modCmd t c fun x => { x with stall := none, idx := count }
  else if begun.isSome && limit ≤ now then fault s (if remote then 0x90 else 0x47)
  else s.modCmd t c fun x => { x with stall := some (remote, page, limit), idx := count }

/-- What an engine's work comes to for its command. -/
def State.settleCmd (s₀ : State) (t c die count : Nat) (r : Eng Unit) (fault : State → Nat → State) : State :=
  match r with
  | .ok s _ => s
  | .fault s cause => fault s cause
  | .stay s k va => s.stallCmd t c die k va count fault
  | .bad s p => let w := s₀.cmdWho t (((s₀.team t).cmd? c).getD default) die
    s.badWord w.pf w.ctx p

/-! ## COPY and COPYND (R308 to R310) -/

/-- The bytes of a site that are left before its 16 KiB piece ends or a host address answers a read with an error. -/
def State.roomAt (s : State) (y : Site) (va : Nat) (k : Access) : Nat :=
  match if isHost y.place && !k.writes then s.hostErr y.place (pieceRoom va) else none with
  | some p => p - y.place
  | none => pieceRoom va

/-- The endpoint of words `i` and `i + 1` moved on by `d` bytes. -/
def State.epAt (s : State) (w : Who) (tm : Team) (x : Cmd) (i : Nat) (d : Int) (k : Access) : Eng (Site × Nat) :=
  match endpointOf (x.word i) (x.word (i + 1)) with
  | some (.mem va) =>
    let a := (va + d).toNat
    (s.engineAt w a k).bind fun s y => .ok s (y, s.roomAt y a k)
  | some (.tile r o) =>
    let desc := (lookup r x.tiles).getD 0
    .ok s ({ place := placeScratch tm.core (1024 * tm.base + 1024 * tileBase desc + (o + d).toNat), base := 0, size := 0 }, 2 ^ 32)
  | none => .fault s 0x30

/-- The offsets of linear index `i`, and how many bytes follow it in its row. -/
def copyOffsets (x : Cmd) (i : Nat) : Int × Int × Nat :=
  if x.opc = 0 then (i, i, x.word 6 - i)
  else
    let e0 := x.word 6
    let i0 := i % e0
    let r := i / e0
    let ix := [r % x.word 7, r / x.word 7 % x.word 8, r / x.word 7 / x.word 8]
    let off (k : Nat) : Int := (i0 : Int) + ((List.range 3).map fun d => (ix.getD d 0 : Int) * ws32 x.words (10 + 2 * d + k)).sum
    (off 0, off 1, e0 - i0)

/-- The number of elements of a copy. -/
def copyLength (x : Cmd) : Nat := if x.opc = 0 then x.word 6 else x.word 6 * x.word 7 * x.word 8 * x.word 9

/-- R310: elements in ascending linear index, `n` at most; the index reached goes with the outcome. -/
def State.copyGo (s : State) (w : Who) (t : Nat) (x : Cmd) : (fuel n i : Nat) → Nat × Eng Unit
  | 0, _, i => (i, .ok s ())
  | fuel + 1, n, i =>
    if n = 0 ∨ copyLength x ≤ i then (i, .ok s ())
    else
      let o := copyOffsets x i
      let one := (s.epAt w (s.team t) x 2 o.1 .read).bind fun s a => (s.epAt w (s.team t) x 4 o.2.1 .write).bind fun s b =>
        let k := min (min n o.2.2) (min a.2 b.2)
        (s.siteRead a.1 k).bind fun s bs => .ok (s.siteWrite w b.1 bs) k
      match one with
      | .ok s k => s.copyGo w t x fuel (n - k) (i + k)
      | .fault s c => (i, .fault s c)
      | .stay s k va => (i, .stay s k va)
      | .bad s p => (i, .bad s p)

/-- A copy takes up to `n` elements. -/
def copyHappening (opc t c n : Nat) (s : State) : State :=
  match s.cmdAt t c 0 opc .launched with
  | none => s
  | some x =>
    let die := dieOfCore x.core
    let w := s.cmdWho t x die
    let (i, r) := s.copyGo w t x n n x.idx
    match r with
    | .ok s _ => if copyLength x ≤ i then s.applyCmd t c 0 0 i else s.modCmd t c fun y => { y with idx := i, stall := none }
    | r => s.settleCmd t c die i r fun s cause => s.applyCmd t c 0x03 cause i

def execCopy (t c n : Nat) (s : State) : Host.Outcome State Fault Refusal := .next (copyHappening 0 t c n s)
def execCopynd (t c n : Nat) (s : State) : Host.Outcome State Fault Refusal := .next (copyHappening 1 t c n s)

/-! ## REDCOPY (R311, R312, R486) -/

def redOp (x : Cmd) : Nat := x.word 7 % 8
def redFmt (x : Cmd) : Nat := x.word 7 / 2 ^ 8 % 32
def redBytes (x : Cmd) : Nat := intWidth (redFmt x) / 8
def redLength (x : Cmd) : Nat := x.word 6 / redBytes x

/-- R486: the number that the next element for a home slice takes. -/
def Cmd.nextSeq (x : Cmd) (slice : Nat) : Nat :=
  (lookup slice x.marks).getD 0 + (x.sent.filter fun y => y.slice == slice).length

/-- R310, R311: element `i` is read and sent to its home slice. The host serves no element (R139). -/
def State.redSend (s : State) (w : Who) (t : Nat) (x : Cmd) (i : Nat) : Eng Unit :=
  let k := redBytes x
  (s.epAt w (s.team t) x 2 ((k * i : Nat) : Int) .read).bind fun s a =>
    (s.epAt w (s.team t) x 4 ((k * i : Nat) : Int) .update).bind fun s b =>
      (s.siteRead a.1 k).bind fun s bs =>
        let slice := l2Slice b.1.place
        .ok (s.modCmd t x.id fun y => { y with
          idx := i + 1, stall := none
          sent := y.sent ++ [{ slice, seq := y.nextSeq slice, elem := i, place := b.1.place, data := leNat bs, held := false, page := (b.1.base, b.1.size) }] }) ()

/-- Elements are issued in ascending index, `n` at most. A fault stops issue; the command ends when every element that
is in flight has been applied. -/
def State.redGo (s : State) (w : Who) (t c : Nat) : (n : Nat) → Eng Unit
  | 0 => .ok s ()
  | n + 1 =>
    match (s.team t).cmd? c with
    | none => .ok s ()
    | some x =>
      if redLength x ≤ x.idx then .ok (s.modCmd t c fun y => { y with issued := true, count := y.idx }) ()
      else if x.skip.contains x.idx then (s.modCmd t c fun y => { y with idx := y.idx + 1, stall := none }).redGo w t c n
      else (s.redSend w t x x.idx).bind fun s _ => s.redGo w t c n

/-- R310: a `REDCOPY` that issues nothing more and has nothing in flight has been applied. -/
def State.redCheck (s : State) (t c : Nat) : State :=
  match (s.team t).cmd? c with
  | some x => if x.issued && x.sent.isEmpty && x.st == .launched then s.applyCmd t c x.status x.cause x.idx else s
  | none => s

def execRedcopy (t c n : Nat) (s : State) : Host.Outcome State Fault Refusal :=
  match s.cmdAt t c 0 2 .launched with
  | none => .next s
  | some x =>
    if x.issued then .next s
    else
      let die := dieOfCore x.core
      let w := s.cmdWho t x die
      let r := s.redGo w t c (n + 1)
      .next ((s.settleCmd t c die ((((r.state.team t).cmd? c).map (·.idx)).getD 0) r fun s cause =>
        s.modCmd t c fun y => { y with issued := true, status := 0x03, cause }).redCheck t c)

/-- R311: the new element, for the operations that write memory. -/
def redValue (op fmt old b : Nat) : Nat :=
  match op with
  | 0 => AtomOp.add.apply fmt old b 0
  | 1 => AtomOp.min.apply fmt old b 0
  | _ => AtomOp.max.apply fmt old b 0

/-- R486: does an element stand at its slice's watermark? -/
def Cmd.next (x : Cmd) (y : Sent) : Bool := y.seq == (lookup y.slice x.marks).getD 0

/-- R486: an element at the watermark is applied, and the watermark advances; one that waits for a spill entry stays in
flight (R487). -/
def State.redApply (s : State) (w : Who) (t c : Nat) (x : Cmd) (y : Sent) : State :=
  let done (s : State) : State := s.modCmd t c fun z => { z with
    sent := z.sent.filter fun v => !(v.slice == y.slice && v.seq == y.seq)
    marks := (y.slice, y.seq + 1) :: z.marks.filter fun m => m.1 != y.slice }
  let hold (s : State) : State := s.modCmd t c fun z => { z with
    sent := z.sent.map fun v => if v.slice == y.slice && v.seq == y.seq then { v with held := true } else v }
  if redOp x = 3 then
    match s.exactRoom w.pf w.ctx [y.place] with
    | .ok s => done (s.exactAdd w.pf w.ctx t y.place y.data)
    | .error (.fault s c) => match if c = 0x37 then s.badSpill w.pf w.ctx [y.place] else none with
      | some p => s.badWord w.pf w.ctx p
      | none => hold s
    | .error (.wait s) => hold s
  else match s.badIn y.place (redBytes x) with
    | some p => s.badWord w.pf w.ctx p
    | none =>
      let v := redValue (redOp x) (redFmt x) (s.mem.nat y.place (redBytes x)) y.data
      done (s.siteWrite w { place := y.place, base := y.page.1, size := y.page.2 } (leBytes (redBytes x) v))

/-- Held elements of a slice whose gap has filled are applied in turn. -/
def State.redFill (s : State) (w : Who) (t c slice : Nat) : (fuel : Nat) → State
  | 0 => s
  | fuel + 1 =>
    match (s.team t).cmd? c with
    | none => s
    | some x =>
      match x.sent.find? fun y => y.slice == slice && y.held && x.next y with
      | none => s
      | some y =>
        let s' := s.redApply w t c x y
        if ((s'.team t).cmd? c).map (·.marks) = some x.marks then s' else s'.redFill w t c slice fuel

/-- R486: a delivery: below the watermark it is discarded, above it is held, at it it is applied. -/
def execRedcopyElement (t c slice seq elem : Nat) (s : State) : Host.Outcome State Fault Refusal :=
  match (s.team t).cmd? c with
  | none => .next s
  | some x =>
    let w := s.cmdWho t x (dieOfCore x.core)
    match x.sent.find? fun y => y.slice == slice && y.seq == seq && y.elem == elem with
    | none => .next s
    | some y =>
      if x.next y then .next (((s.redApply w t c x y).redFill w t c slice x.sent.length).redCheck t c)
      else .next (s.modCmd t c fun z => { z with
          sent := z.sent.map fun v => if v.slice == slice && v.seq == seq then { v with held := true } else v })

/-! ## PFL2 (R116, R313) -/

/-- R116, R313: a line that a `PFL2` requests: of a bound device page that permits a read and is not under claim; in split mode only
lines of the device's own die. -/
def State.prefetched (s : State) (w : Who) (va : Nat) : Bool :=
  if 2 ^ 56 ≤ va || va / 2 ^ 48 = 255 then false
  else match s.leaf w va with
    | .found _ en lvl =>
      if entryU en || entryM en || !entryRD en then false
      else match s.placeOf w.pf (entryAddr en / 2 ^ pageBits lvl * 2 ^ pageBits lvl + va % 2 ^ pageBits lvl) with
        | some p => isDram p && s.reaches w.die (homeDie p)
        | none => false
    | _ => false

/-- R313: the lines requested of a range. They change nothing that a program can observe (R116). -/
def State.prefetchLines (s : State) (w : Who) (va n : Nat) : Nat :=
  if n = 0 then 0
  else ((List.range ((va + n - 1) / 128 + 1 - va / 128)).filter fun i => s.prefetched w (128 * (va / 128 + i))).length

def execPfl2 (t c : Nat) (s : State) : Host.Outcome State Fault Refusal :=
  match s.cmdAt t c 0 3 .launched with
  | none => .next s
  | some x => .next (s.applyCmd t c 0 0 (s.prefetchLines (s.cmdWho t x (dieOfCore x.core)) (addrOf x.words 2) (x.word 4)))

end Sys2Proof.Machine
end

