-- ==== Sys2Proof/Machine/Spatial.lean ====
section
/-! DEFINITION. The coordinate engines: taking up, coordinate tables, voxel sampling, insertion and lookup, and rulebooks
(R316 to R325, R336). -/

namespace Sys2Proof.Machine

/-! ## Taking up (R316) -/

/-- The engine that a coordinate or Pergola command waits at. -/
def Cmd.engineNo (x : Cmd) : Nat := if x.kind = 1 then x.tgt else clusterOfCore x.core

/-- Does a command hold or await an engine before another one, and is it not complete? -/
def Cmd.before (x y : Cmd) : Bool :=
  x.kind == y.kind && x.engineNo == y.engineNo && x.st != .held && x.st != .complete && x.order < y.order

/-- R504: a command whose engine has lost its power completes with REFUSED. -/
def State.refuseCmd (s : State) (t c : Nat) : State := ((s.endCmd t c 0x01 0).runGraph t 1024).teamCheck t

/-- R378, R488: a command whose engine stands on a die that its core cannot reach waits, and then ends with FAULT. -/
def State.stallFar (s : State) (t : Nat) (x : Cmd) : State :=
  s.stallCmd t x.id (dieOfCore x.core) 2 noVa x.idx fun s cause => s.applyCmd t x.id 0x03 cause 0

def State.engineFar (s : State) (x : Cmd) : Bool := !s.reaches (dieOfCore x.core) x.engineDie

def execCommandTakeUp (t c : Nat) (s : State) : Host.Outcome State Fault Refusal :=
  let take (x : Cmd) : State :=
    if s.engineLost x then s.refuseCmd t c
    else if s.engineFar x then s.stallFar t x
    else if s.teams.any fun tm => tm.cmds.any fun y => y.before x then s
    else s.modCmd t c fun x => { x with st := .takenUp }
  match (s.team t).cmd? c with
  | none => .next s
  | some x =>
    .next (if x.st == .held then s.runGraph t 1024 else if (x.kind == 1 || x.kind == 2) && (s.cmdAt t c x.kind x.opc .launched).isSome then take x else s)

/-! ## Engine results -/

/-- A result for each member of a list, in order. -/
def eMap {α β : Type} (f : State → α → Eng β) : List α → State → Eng (List β)
  | [], s => .ok s []
  | a :: l, s => (f s a).bind fun s b => (eMap f l s).bind fun s r => .ok s (b :: r)

/-- A cause that the manual does not name, among those that an engine's access may have (R474, log entry 24). -/
def State.openCause (s : State) : State × Nat :=
  ({ s with free := s.free + 1 }, pickOf s.free [0x40, 0x41, 0x42, 0x43, 0x47, 0x48, 0x90])

/-- R318, R332: storage that must stand in device DRAM, one 16 KiB piece after the other. -/
def State.needDram (s : State) (w : Who) (k : Access) : (fuel va n : Nat) → Eng Unit
  | 0, _, _ => .ok s ()
  | fuel + 1, va, n =>
    if n = 0 then .ok s ()
    else (s.engineAt w va k).bind fun s x =>
      if isDram x.place then s.needDram w k fuel (va + min n (pieceRoom va)) (n - min n (pieceRoom va))
      else .fault s.openCause.1 s.openCause.2

/-! ## Engine caches (R320) -/

/-- The line of 64 bytes that an engine holds for an address. -/
def State.cached (s : State) (e : Nat) (w : Who) (va : Nat) : Option RoLine :=
  (s.caches.getD e []).find? fun x => x.pf == w.pf && x.ctx == w.ctx && x.line == va / 64

/-- Lines of a context leave an engine's cache. -/
def State.uncache (s : State) (e : Nat) (w : Who) (va n : Nat) : State :=
  { s with caches := modNth e (fun l => l.filter fun x =>
      !(x.pf == w.pf && x.ctx == w.ctx && va / 64 ≤ x.line && x.line * 64 < va + n)) s.caches }

/-- The private part of a table area is read through the cache of 4 MiB, line by line. -/
def State.areaRead (s : State) (e : Nat) (w : Who) : (fuel va n : Nat) → Eng (List Byte)
  | 0, _, _ => .ok s []
  | fuel + 1, va, n =>
    if n = 0 then .ok s []
    else
      let k := min n (64 - va % 64)
      let line : Eng (List Byte) := match s.cached e w va with
        | some x => .ok s x.data
        | none => (s.needDram w .read 1 va k).bind fun s _ => (s.eRead w (va / 64 * 64) 64).bind fun s bs =>
          let x : RoLine := { pf := w.pf, ctx := w.ctx, line := va / 64, data := bs }
          .ok { s with caches := modNth e (fun l => x :: makeRoom 65536 (s.free + va) l) s.caches } bs
      line.bind fun s bs => (s.areaRead e w fuel (va + k) (n - k)).bind fun s r => .ok s ((bs.drop (va % 64)).take k ++ r)

/-- It is written through (log entry 83). -/
def State.areaWrite (s : State) (e : Nat) (w : Who) (va : Nat) (bs : List Byte) : Eng Unit :=
  (s.needDram w .write (bs.length / 16384 + 2) va bs.length).bind fun s _ => (s.uncache e w va bs.length).eWrite w va bs

/-! ## Coordinate tables (R317 to R320) -/

/-- R317: the cells that a table holds at most; R321: the points that are read at most. -/
def maxCells : Nat := 2097152
def maxPoints : Nat := 4194304

/-- R318: a table header. -/
structure TableHead where
  setid : Nat
  cells : Nat
  valid : Bool
  owner : Nat
  keep : Bool
  policy : Nat
  dropped : Nat
  rejected : Nat
  deriving DecidableEq, Repr

def tableHead (bs : List Byte) : TableHead :=
  let n (i k : Nat) : Nat := leNat ((bs.drop i).take k)
  let cfg := n 12 4
  { setid := n 0 8, cells := min (n 8 4) maxCells, valid := cfg.testBit 31, owner := cfg / 16 % 16, keep := cfg.testBit 3
    policy := cfg / 2 % 4, dropped := n 16 4, rejected := n 20 4 }

def TableHead.bytes (h : TableHead) : List Byte :=
  leBytes 8 h.setid ++ leBytes 4 h.cells ++ leBytes 4 (bit h.valid * 2 ^ 31 + h.owner * 16 + bit h.keep * 8 + h.policy * 2)
    ++ leBytes 4 h.dropped ++ leBytes 4 h.rejected ++ leBytes 40 0

/-- Where the key of a row stands in the private part of the area (log entry 25). -/
def rowKey (base r : Nat) : Nat := base + 64 + 8 * r

/-- The words of `k` bytes in a list of bytes. -/
def wordsOf (k : Nat) : (n : Nat) → List Byte → List Nat
  | 0, _ => []
  | n + 1, bs => leNat (bs.take k) :: wordsOf k n (bs.drop k)

def State.readHead (s : State) (w : Who) (base : Nat) : Eng TableHead :=
  (s.needDram w .read 1 base 64).bind fun s _ => (s.eRead w base 64).bind fun s bs => .ok s (tableHead bs)

def State.readKeys (s : State) (w : Who) (e base : Nat) (h : TableHead) : Eng (List Nat) :=
  (s.areaRead e w (h.cells + 2) (rowKey base 0) (8 * h.cells)).bind fun s bs => .ok s (wordsOf 8 h.cells bs)

/-- R319: the status of a command that is no reset, or of a reset, against a header. -/
def headStatus (tgt : Nat) (reset : Bool) (h : TableHead) : Nat :=
  if h.valid then (if h.owner = tgt then 0 else 0x07) else if reset then 0 else 0x08

/-- R318: the engine issues a SETID. -/
def State.newSet (s : State) (e : Nat) : State × Nat :=
  ({ s with setCounter := modNth e (· + 1) s.setCounter }, e * 2 ^ 60 + s.setCounter.getD e 0 % 2 ^ 60)

/-- R317: the sweep field is cleared in cell mode. -/
def normKey (keep : Bool) (k : Nat) : Nat := if keep then k else k / 16 * 16

/-- The row of a key. -/
def rowOf (keys : List Nat) (k : Nat) : Option Nat := keys.findIdx? fun x => x == k

/-- R319: a reset, unless the command has made it already. -/
def State.resetTable (s : State) (w : Who) (t : Nat) (x : Cmd) (base : Nat) (keep : Bool) (policy : Nat) : Eng TableHead :=
  let (s, id) := s.newSet x.tgt
  let h : TableHead := { setid := id, cells := 0, valid := true, owner := x.tgt, keep, policy, dropped := 0, rejected := 0 }
  ((s.uncache x.tgt w base (2 ^ 26)).eWrite w base h.bytes).bind fun s _ => .ok (s.modCmd t x.id fun y => { y with idx := 1 }) h

/-- What a coordinate command comes to: it goes on with a value, or it ends with a status. -/
inductive Step1 (α : Type) where
  | go (x : α)
  | status (n : Nat)

/-- R319: the header of the table at the head of a command, checked, and reset or renamed as the command asks. -/
def State.openTable (s : State) (w : Who) (t : Nat) (x : Cmd) (reset : Bool) (keep : Bool) (policy : Nat) : Eng (Step1 TableHead) :=
  let base := addrOf x.words 2
  (s.readHead w base).bind fun s h =>
    if headStatus x.tgt reset h ≠ 0 then .ok s (.status (headStatus x.tgt reset h))
    else if x.idx ≠ 0 then .ok s (.go h)
    else if reset then (s.resetTable w t x base keep policy).bind fun s h => .ok s (.go h)
    else
      let (s, id) := s.newSet x.tgt
      (s.eWrite w base (leBytes 8 id)).bind fun s _ => .ok (s.modCmd t x.id fun y => { y with idx := 1 }) (.go { h with setid := id })

/-- The end of a coordinate command: its status and count, or what its accesses came to (R336). -/
def coordinate (opc t c : Nat) (s : State) (f : State → Who → Cmd → Eng (Nat × Nat)) : State :=
  match s.cmdAt t c 1 opc .takenUp with
  | none => s
  | some x =>
    let die := x.tgt / 4
    let w := s.cmdWho t x die
    if s.engineLost x then s.refuseCmd t c else if s.engineFar x then s.stallFar t x else
    let r := (f s w x).bind fun s v => .ok (s.applyCmd t c v.1 0 v.2) ()
    s.settleCmd t c die ((((r.state.team t).cmd? c).map (·.idx)).getD 0) r fun s cause => s.applyCmd t c 0x03 cause 0

/-! ## VOXEL (R321) -/

/-- The floor of a finite value. -/
def floorNum (x : Num) : Int :=
  match x with
  | .fin neg m e =>
    let v : Int := if neg then -(m : Int) else m
    if 0 ≤ e then v * 2 ^ e.toNat else v / 2 ^ (-e).toNat
  | _ => 0

def inS20 (v : Int) : Bool := -524288 ≤ v && v ≤ 524287
def s20 (v : Int) : Nat := (v % 2 ^ 20).toNat

/-- R317: a key. -/
def cellKey (x y z : Int) (sweep : Nat) : Nat := s20 x * 2 ^ 44 + s20 y * 2 ^ 24 + s20 z * 16 + sweep % 16

/-- R321: the coordinate of a point along one axis. -/
def voxelCoord (x o rc : Nat) : Option Int :=
  if finiteF32 x then some (floorNum (((f32Fmt.value x).add 0 (f32Fmt.value o).neg).mul (f32Fmt.value rc))) else none

/-- The key of a point of 16 bytes, none for one that is rejected. -/
def voxelKey (x : Cmd) (p : List Byte) : Option Nat :=
  let n (i : Nat) : Nat := leNat ((p.drop i).take 4)
  match voxelCoord (n 0) (x.word 11) (x.word 14), voxelCoord (n 4) (x.word 12) (x.word 14),
      voxelCoord (n 8) (x.word 13) (x.word 14) with
  | some a, some b, some c => if inS20 a && inS20 b && inS20 c then some (cellKey a b c 0) else none
  | _, _, _ => none

/-- A cell under construction. -/
structure Cell where
  key : Nat
  winner : Nat
  sweep : Nat
  deriving DecidableEq, Repr

/-- R321: does a point with `a` displace a winner with `b`? -/
def better (policy a b : Nat) : Bool := if policy = 0 then a < b else b < a

/-- The points of a frame so far: the cells, the key of each placed point, and the counts. -/
structure Voxels where
  cells : List Cell
  keys : List (Option Nat)
  dropped : Nat
  rejected : Nat
  deriving DecidableEq, Repr

def Voxels.point (v : Voxels) (x : Cmd) (i : Nat) (p : List Byte) : Voxels :=
  let sweep := leNat ((p.drop 12).take 4) % 16
  match voxelKey x p with
  | none => { v with keys := v.keys ++ [none], rejected := v.rejected + 1 }
  | some k =>
    match v.cells.find? fun c => c.key == k with
    | none =>
      if v.cells.length = maxCells then { v with keys := v.keys ++ [none], dropped := v.dropped + 1 }
      else { v with cells := v.cells ++ [{ key := k, winner := i, sweep }], keys := v.keys ++ [some k] }
    | some c =>
      let cells := if better (x.word 15 % 4) sweep c.sweep then
          modWhere (fun y => y.key == k) (fun y => { y with winner := i, sweep }) v.cells else v.cells
      { v with cells, keys := v.keys ++ [some k] }

def Voxels.points (x : Cmd) : (n i : Nat) → List Byte → Voxels → Voxels
  | 0, _, _, v => v
  | n + 1, i, bs, v => Voxels.points x n (i + 1) (bs.drop 16) (v.point x i (bs.take 16))

/-- Rows are numbered in ascending winner index. -/
def insertCell (c : Cell) : List Cell → List Cell
  | [] => [c]
  | d :: l => if c.winner < d.winner then c :: d :: l else d :: insertCell c l

def sortCells (l : List Cell) : List Cell := l.foldr insertCell []

def wordBytes (k : Nat) (l : List Nat) : List Byte := l.flatMap (leBytes k)

def execVoxel (t c : Nat) (s : State) : Host.Outcome State Fault Refusal :=
  .next (coordinate 0 t c s fun s w x =>
    let base := addrOf x.words 2
    (s.openTable w t x true false (x.word 15 % 4)).bind fun s h => match h with
      | .status n => .ok s (n, 0)
      | .go h =>
        let n := min (x.word 10) maxPoints
        (s.eRead w (addrOf x.words 4) (16 * n)).bind fun s bs =>
          let v := Voxels.points x n 0 bs { cells := [], keys := [], dropped := x.word 10 - n, rejected := 0 }
          let rows := sortCells v.cells
          let keys := rows.map (·.key)
          let prow := v.keys.map fun k => (k.bind (rowOf keys)).getD 0xFFFFFFFF
          (s.eWrite w (addrOf x.words 6) (wordBytes 4 (rows.map (·.winner)))).bind fun s _ =>
          (s.eWrite w (addrOf x.words 8) (if (x.word 15).testBit 2 then wordBytes 4 prow else [])).bind fun s _ =>
          (s.areaWrite x.tgt w (rowKey base 0) (wordBytes 8 keys)).bind fun s _ =>
          (s.eWrite w base ({ h with cells := rows.length, dropped := v.dropped, rejected := v.rejected : TableHead }).bytes).bind
            fun s _ => .ok s (if v.dropped = 0 then (0, 0) else (0x05, v.dropped)))

/-! ## HINS and HLOOK (R322) -/

/-- The keys of a list, one after the other: `ins` says that a new key makes a cell. Every cell that is made stands in
the table before the next key is taken. -/
def State.keysGo (s : State) (w : Who) (x : Cmd) (ins keep : Bool) : (n i : Nat) → (keys : List Nat) → (dropped : Nat) → Eng Nat
  | 0, _, _, dropped => .ok s dropped
  | n + 1, i, keys, dropped =>
    let base := addrOf x.words 2
    (s.eRead w (addrOf x.words 4 + 8 * i) 8).bind fun s bs =>
      let k := normKey keep (leNat bs)
      let put (s : State) (row : Nat) : Eng Unit := s.eWrite w (addrOf x.words 6 + 4 * i) (leBytes 4 row)
      match rowOf keys k with
      | some r => (put s r).bind fun s _ => s.keysGo w x ins keep n (i + 1) keys dropped
      | none =>
        if ins && keys.length < maxCells then
          (s.areaWrite x.tgt w (rowKey base keys.length) (leBytes 8 k)).bind fun s _ =>
          (s.eWrite w (base + 8) (leBytes 4 (keys.length + 1))).bind fun s _ =>
          (put s keys.length).bind fun s _ => s.keysGo w x ins keep n (i + 1) (keys ++ [k]) dropped
        else (put s 0xFFFFFFFF).bind fun s _ => s.keysGo w x ins keep n (i + 1) keys (dropped + 1)

def execHins (t c : Nat) (s : State) : Host.Outcome State Fault Refusal :=
  .next (coordinate 2 t c s fun s w x =>
    let reset := (x.word 9).testBit 0
    (s.openTable w t x reset ((x.word 9).testBit 1) 0).bind fun s h => match h with
      | .status n => .ok s (n, 0)
      | .go h => (s.readKeys w x.tgt (addrOf x.words 2) h).bind fun s keys =>
        (s.keysGo w x true h.keep (x.word 8) 0 keys 0).bind fun s d =>
        (s.eWrite w (addrOf x.words 2 + 16) (leBytes 4 d)).bind fun s _ => .ok s (if d = 0 then (0, 0) else (0x06, d)))

def execHlook (t c : Nat) (s : State) : Host.Outcome State Fault Refusal :=
  .next (coordinate 3 t c s fun s w x =>
    (s.readHead w (addrOf x.words 2)).bind fun s h =>
      if headStatus x.tgt false h ≠ 0 then .ok s (headStatus x.tgt false h, 0)
      else (s.readKeys w x.tgt (addrOf x.words 2) h).bind fun s keys =>
        (s.keysGo w x false h.keep (x.word 8) 0 keys 0).bind fun s _ => .ok s (0, 0))

/-! ## Rulebooks (R323 to R325) -/

/-- R323: the side of the cube of offsets, and their number. -/
def offSide (nset : Bool) : Nat := if nset then 5 else 3
def offCount (nset : Bool) : Nat := offSide nset ^ 3

/-- R324: where the pairs start. -/
def pairsAt (noff : Nat) : Nat := (64 + 8 * noff + 63) / 64 * 64

/-- The coordinate in a field of a key. -/
def keyCoord (k at_ : Nat) : Int := intVal 20 true (k / 2 ^ at_)

/-- R323: the neighbour key of an output key at an offset, none outside the range. -/
def neighbour (nset keep : Bool) (stride : Int) (k off : Nat) : Option Nat :=
  let n := offSide nset
  let h : Int := (n / 2 : Nat)
  let at_ (i : Nat) (d : Nat) : Int := stride * keyCoord k i + ((d : Int) - h)
  let x := at_ 44 (off / (n * n))
  let y := at_ 24 (off / n % n)
  let z := at_ 4 (off % n)
  if inS20 x && inS20 y && inS20 z then some (normKey keep (cellKey x y z (k % 16))) else none

/-- The pairs of one offset in rulebook order. -/
def offsetPairs (nset keep : Bool) (stride : Int) (inp out : List Nat) (off : Nat) : List (Nat × Nat) :=
  out.zipIdx.filterMap fun x => ((neighbour nset keep stride x.1 off).bind (rowOf inp)).map fun a => (a, x.2)

/-- R324: the directory of lists of pairs, the first index of each being the number of pairs before it. -/
def directory : (first : Nat) → List (List (Nat × Nat)) → List (Nat × Nat)
  | _, [] => []
  | first, l :: r => (first, l.length) :: directory (first + l.length) r

def pairBytes (l : List (Nat × Nat)) : List Byte := l.flatMap fun x => leBytes 4 x.1 ++ leBytes 4 x.2

def rulebookHead (x : Cmd) (hi ho : TableHead) (noff p : Nat) : List Byte :=
  leBytes 8 hi.setid ++ leBytes 8 ho.setid ++ leBytes 8 (addrOf x.words 2) ++ leBytes 8 (addrOf x.words 4)
    ++ leBytes 4 noff ++ leBytes 4 hi.cells ++ leBytes 4 ho.cells ++ leBytes 4 (2 ^ 31 + x.word 9) ++ leBytes 8 p ++ leBytes 8 0

def execRbbuild (t c : Nat) (s : State) : Host.Outcome State Fault Refusal :=
  .next (coordinate 1 t c s fun s w x =>
    let nset := (x.word 9).testBit 0
    let stride : Int := if (x.word 9).testBit 1 then 2 else 1
    let noff := offCount nset
    let rb := addrOf x.words 6
    if (s.ctx w.pf w.ctx).hostBooks then .ok s (0x01, 0)
    else (s.readHead w (addrOf x.words 2)).bind fun s hi => (s.readHead w (addrOf x.words 4)).bind fun s ho =>
      if headStatus x.tgt false hi ≠ 0 then .ok s (headStatus x.tgt false hi, 0)
      else if headStatus x.tgt false ho ≠ 0 then .ok s (headStatus x.tgt false ho, 0)
      else (s.eWrite w (rb + 44) (leBytes 4 0)).bind fun s _ =>
        (s.readKeys w x.tgt (addrOf x.words 2) hi).bind fun s inp => (s.readKeys w x.tgt (addrOf x.words 4) ho).bind fun s out =>
        let pairs := (List.range noff).map (offsetPairs nset hi.keep stride inp out)
        let p := (pairs.map (·.length)).sum
        if 64 * x.word 8 < pairsAt noff + 8 * p then .ok s (0x09, p)
        else (s.eWrite w (rb + 64) (pairBytes (directory 0 pairs))).bind fun s _ =>
          (s.eWrite w (rb + pairsAt noff) (pairBytes pairs.flatten)).bind fun s _ =>
          (s.eWrite w rb (rulebookHead x hi ho noff p)).bind fun s _ => .ok s (0, 0))

end Sys2Proof.Machine
end

