-- ==== Sys2Proof/Machine/Pergola.lean ====
section
/-! DEFINITION. The Pergola engines: sparse convolution through a rulebook or a list of triples (R326 to R329). -/

namespace Sys2Proof.Machine

/-- What `SPCONV` and `GMMS` have in common: their three bases, the format word and the pitches. -/
structure Conv where
  input : Nat
  weight : Nat
  output : Nat
  fmt : Nat
  ipitch : Nat
  wpitch : Nat
  opitch : Nat
  deriving DecidableEq, Repr

/-- R326: the layout whose bases start at word `i` and whose format word is word `j`. -/
def convOf (x : Cmd) (i j : Nat) : Conv :=
  { input := addrOf x.words i, weight := addrOf x.words (i + 2), output := addrOf x.words (i + 4), fmt := x.word j
    ipitch := x.word (j + 1), wpitch := x.word (j + 2), opitch := x.word (j + 3) }

/-- R326: the format word. -/
def Conv.afmt (v : Conv) : Nat := v.fmt % 32
def Conv.bfmt (v : Conv) : Nat := v.fmt / 2 ^ 5 % 32
def Conv.ofmt (v : Conv) : Nat := v.fmt / 2 ^ 10 % 32
def Conv.mode (v : Conv) : Nat := v.fmt / 2 ^ 15 % 8
def Conv.acc (v : Conv) : Bool := v.fmt.testBit 18
def Conv.cout (v : Conv) : Nat := 16 * (v.fmt / 2 ^ 20 % 64 + 1)
def Conv.cin (v : Conv) : Nat := 16 * (v.fmt / 2 ^ 26 + 1)

/-- An element of a feature or weight row (R288). -/
def convElem (fmt x : Nat) : Elem := if fmt = 0x04 then .int (intVal 8 true x) else .num ((fmtOf fmt).value x)

def convElems (fmt n : Nat) (bs : List Byte) : List Elem := (wordsOf (elemBytes fmt) n bs).map (convElem fmt)

/-- A row of features or weights. -/
def State.convRow (s : State) (w : Who) (fmt n va : Nat) : Eng (List Elem) :=
  (s.eRead w va (n * elemBytes fmt)).bind fun s bs => .ok s (convElems fmt n bs)

/-- R327, R328: one contribution: input row `a` through weight matrix `m`, folded into every channel. -/
def State.contribute (s : State) (w : Who) (v : Conv) (acc : List Nat) (a m : Nat) : Eng (List Nat) :=
  (s.convRow w v.afmt v.cin (v.input + a * v.ipitch)).bind fun s row =>
    eMap (fun s (x : Nat × Nat) =>
      (s.convRow w v.bfmt v.cin (v.weight + (m * v.cout + x.2) * v.wpitch)).bind fun s col =>
        .ok s (accumulate (v.afmt == 0x04) x.1 row col)) acc.zipIdx s

def State.contributeAll (s : State) (w : Who) (v : Conv) : List (Nat × Nat) → (acc : List Nat) → Eng (List Nat)
  | [], acc => .ok s acc
  | (a, m) :: l, acc => (s.contribute w v acc a m).bind fun s acc => s.contributeAll w v l acc

/-- R329: every page of a row is reached before any byte of it is written. -/
def State.probeVa (s : State) (w : Who) : (fuel va n : Nat) → Eng Unit
  | 0, _, _ => .ok s ()
  | fuel + 1, va, n =>
    if n = 0 then .ok s ()
    else
      let k := min n (pieceRoom va)
      (s.engineAt w va .write).bind fun s _ => s.probeVa w fuel (va + k) (n - k)

/-- R327 to R329: output row `b` from its contributions. It is rounded by the overflow table as that stands when the row is written, an
`OVLD` after the command's launch included, of which R162 does not speak (DESIGN CHOICE, log entry 105). -/
def State.convOut (s : State) (w : Who) (v : Conv) (b : Nat) (l : List (Nat × Nat)) : Eng Unit :=
  let va := v.output + b * v.opitch
  let k := elemBytes v.ofmt
  let first : Eng (List Nat) :=
    if v.acc then (s.eRead w va (k * v.cout)).bind fun s bs => .ok s ((wordsOf k v.cout bs).map (loadElem v.ofmt))
    else .ok s (List.replicate v.cout 0)
  first.bind fun s acc => (s.contributeAll w v l acc).bind fun s acc =>
    let ovtab := (s.ctx w.pf w.ctx).ovtab
    let bs := wordBytes k (acc.map (storeElem ovtab v.mode v.ofmt))
    (s.probeVa w (bs.length / 16384 + 2) va bs.length).bind fun s _ => s.eWrite w va bs

/-! ## SPCONV (R327) -/

def State.readRulebook (s : State) (w : Who) (va : Nat) : Eng Rulebook :=
  (s.eRead w va 64).bind fun s bs =>
    let n (i k : Nat) : Nat := leNat ((bs.drop i).take k)
    let noff := if n 32 4 = 27 then 27 else if n 32 4 = 125 then 125 else 0
    (s.eRead w (va + 64) (8 * noff)).bind fun s ds =>
      .ok s { sets := [(n 0 8, n 16 8), (n 8 8, n 24 8)], noff, nin := n 36 4, nout := n 40 4, flags := n 44 4, p := n 48 8
              spare := n 56 8, dir := (wordsOf 8 noff ds).map fun x => (x % 2 ^ 32, x / 2 ^ 32), pairs := [] }

/-- R327: does a directory tile the pairs? -/
def tiles (first : Nat) : List (Nat × Nat) → Option Nat
  | [] => some first
  | x :: l => if x.1 = first then tiles (first + x.2) l else none

/-- R324, R327: a header and a directory as R324 gives them. -/
def Rulebook.good (r : Rulebook) : Bool :=
  r.flags.testBit 31 && r.flags % 2 ^ 31 < 4 && r.spare == 0 && r.noff != 0 && r.noff == offCount (r.flags.testBit 0)
    && r.nin ≤ maxCells && r.nout ≤ maxCells && r.sets.all (fun x => x.2 < 2 ^ 56 && x.2 % 2 ^ 21 == 0)
    && tiles 0 r.dir == some r.p

/-- R327: is a table no longer the one of the record? -/
def staleSet (id : Nat) (h : TableHead) : Bool := h.setid != id || !h.valid

/-- R327: the checks of `SPCONV` at taking up, as a status. -/
def State.checkRulebook (s : State) (w : Who) (x : Cmd) : Eng (Nat × Rulebook) :=
  (s.readRulebook w (addrOf x.words 2)).bind fun s r =>
    if !r.good then .ok s (0x0B, r)
    else (eMap (fun s (y : Nat × Nat) => (s.eRead w y.2 64).bind fun s bs => .ok s (staleSet y.1 (tableHead bs))) r.sets s).bind fun s l =>
      .ok s (if l.any id then 0x0A else if r.nout < x.word 14 then 0x0B else 0, r)

/-- R327, R338: the rulebook that a command works from: with its pairs, read once, if it passed the checks. -/
def State.takeRulebook (s : State) (w : Who) (x : Cmd) : Eng (Nat × Rulebook) :=
  (s.checkRulebook w x).bind fun s y =>
    if y.1 ≠ 0 ∨ y.2.nout ≤ x.word 14 then .ok s y
    else (s.eRead w (addrOf x.words 2 + pairsAt y.2.noff) (8 * y.2.p)).bind fun s bs => .ok s (0, { y.2 with pairs := wordsOf 8 y.2.p bs })

/-- R327: the contributions to an output row, in ascending offset and rulebook order. -/
def rowPairs (r : Rulebook) (b : Nat) : List (Nat × Nat) :=
  r.dir.zipIdx.flatMap fun d => ((r.pairs.drop d.1.1).take d.1.2).filterMap fun x =>
    if x / 2 ^ 32 = b then some (x % 2 ^ 32, d.2) else none

/-- The rows from the command's index on, `n` at most. -/
def State.spconvGo (s : State) (w : Who) (t : Nat) (x : Cmd) (r : Rulebook) : (n b : Nat) → Nat × Eng Unit
  | 0, b => (b, .ok s ())
  | n + 1, b =>
    if r.nout ≤ b then (b, .ok s ())
    else match s.convOut w (convOf x 4 10) b (rowPairs r b) with
      | .ok s _ => s.spconvGo w t x r n (b + 1)
      | r => (b, r)

/-- R19, R289, R484: the products of a command's next rows go to a matrix engine of its cluster that has room and has not failed.
The manual gives no number of cycles for them (log entry 82). -/
def State.queueProducts (s : State) (t c : Nat) (x : Cmd) : State :=
  let engines := (List.range 4).map fun i => 4 * clusterOfCore x.core + i
  if engines.any fun k => (s.core k).matrix.any fun o => o.cmd == some c then s
  else match engines.filter fun k => !(s.core k).matFailed && (s.core k).matrix.length < s.limits.matrixQueue with
    | [] => s
    | k :: ks =>
      let op : MatrixOp := { id := s.fresh, team := t, acc := 0, elems := [], cycles := Config.pick (s.free + 1), cmd := some c }
      let s := s.modCore (pickOf s.free (k :: ks)) fun y => { y with matrix := y.matrix ++ [op] }
      { s with fresh := s.fresh + 1, free := s.free + 2 }

/-- What a Pergola command comes to at an index. -/
def State.settleRows (s₀ : State) (t c die i : Nat) (last : Bool) (r : Eng Unit) : State :=
  match r with
  | .ok s _ => if last then s.applyCmd t c 0 0 i else s.modCmd t c fun y => { y with idx := i, stall := none, paid := false }
  | r => s₀.settleCmd t c die i r fun s cause => s.applyCmd t c 0x03 cause i

/-- R327: as it is taken up a command reads the rulebook and checks its header and directory; then the matrix engines do the
products of `n` rows at most, and the rows are written. -/
def spconvHappening (t c n : Nat) (s : State) : State :=
  match s.cmdAt t c 2 0 .takenUp with
  | none => s
  | some x =>
    let die := dieOfCore x.core
    let w := s.cmdWho t x die
    match x.book with
    | none =>
      match s.takeRulebook w x with
      | .ok s (0, r) => s.modCmd t c fun y => { y with book := some r, idx := if y.issued then y.idx else y.word 14, issued := true, stall := none }
      | .ok s (n, _) => s.applyCmd t c n 0 0
      | r =>
        let i := if x.issued then x.idx else x.word 14
        s.settleCmd t c die i (r.bind fun s _ => .ok s ()) fun s cause => s.applyCmd t c 0x03 cause i
    | some book =>
      if x.idx < book.nout && !x.paid then s.queueProducts t c x
      else
        let (i, r) := s.spconvGo w t x book (n + 1) x.idx
        s.settleRows t c die i (book.nout ≤ i) r

def execSpconv (t c n : Nat) (s : State) : Host.Outcome State Fault Refusal := .next (spconvHappening t c n s)

/-! ## GMMS (R328) -/

/-- An entry of the list: input row, output row, weight matrix. -/
structure Triple where
  a : Nat
  b : Nat
  m : Nat
  deriving DecidableEq, Repr

def triplesOf : (n : Nat) → List Byte → List Triple
  | 0, _ => []
  | n + 1, bs =>
    { a := leNat (bs.take 4), b := leNat ((bs.drop 4).take 4), m := leNat ((bs.drop 8).take 4) } :: triplesOf n (bs.drop 12)

/-- The entries of the group that starts at the head of a list. -/
def groupOf (l : List Triple) : List Triple :=
  match l with
  | [] => []
  | x :: _ => l.takeWhile fun y => y.b == x.b

/-- The groups from entry `i` on, `n` at most: the index reached and what they came to, with the status that ends the
command. -/
def State.gmmsGo (s : State) (w : Who) (x : Cmd) (l : List Triple) : (n i : Nat) → Nat × Eng Nat
  | 0, i => (i, .ok s 0)
  | n + 1, i =>
    match groupOf (l.drop i) with
    | [] => (i, .ok s 0)
    | y :: g =>
      if ((l.take i).drop (x.word 5)).any fun z => z.b == y.b then (i, .ok s 0x0C)
      else match s.convOut w (convOf x 6 12) y.b ((y :: g).map fun z => (z.a, z.m)) with
        | .ok s _ => s.gmmsGo w x l n (i + (y :: g).length)
        | r => (i, r.bind fun s _ => .ok s 0)

def gmmsHappening (t c n : Nat) (s : State) : State :=
  match s.cmdAt t c 2 1 .takenUp with
  | none => s
  | some x =>
    let die := dieOfCore x.core
    let w := s.cmdWho t x die
    let i := if x.issued then x.idx else x.word 5
    if x.word 4 ≤ i then s.applyCmd t c 0 0 0
    else if !x.paid then s.queueProducts t c x
    else
      match s.eRead w (addrOf x.words 2) (12 * x.word 4) with
      | .ok s bs =>
        let s := s.modCmd t c fun y => { y with issued := true, idx := i }
        match s.gmmsGo w x (triplesOf (x.word 4) bs) (n + 1) i with
        | (i, .ok s 0) => s.settleRows t c die i (x.word 4 ≤ i) (.ok s ())
        | (i, .ok s st) => s.applyCmd t c st 0 i
        | (i, r) => s.settleRows t c die i false (r.bind fun s _ => .ok s ())
      | r => s.settleRows t c die i false (r.bind fun s _ => .ok s ())

def execGmms (t c n : Nat) (s : State) : Host.Outcome State Fault Refusal := .next (gmmsHappening t c n s)

end Sys2Proof.Machine
end

