-- ==== Sys2Proof/Machine/Maze.lean ====
section
/-! DEFINITION. The Maze engines: walk programs and walks (R330 to R335). -/

namespace Sys2Proof.Machine

/-! ## Walk operations (R331) -/

def wopOp (w : Word) : Nat := w.toNat / 2 ^ 28
def wopXd (w : Word) : Nat := w.toNat / 2 ^ 26 % 4
def wopXs (w : Word) : Nat := w.toNat / 2 ^ 24 % 4
def wopB8 (w : Word) : Nat := w.toNat / 2 ^ 16 % 256
def wopH16 (w : Word) : Nat := w.toNat % 2 ^ 16

/-- The bits of a word that its operation uses. -/
def wopUsed (op : Nat) : Nat :=
  match op with
  | 0x0 => 0xFCFF0003
  | 0x1 => 0xFFFF0003
  | 0x2 | 0xA => 0xFC00FFFF
  | 0x3 | 0x9 | 0xB => 0xFF000000
  | 0x4 => 0xFF000003
  | 0x5 => 0xFC03FFFF
  | 0x6 => 0xF003001F
  | 0x7 => 0xFFFF0000
  | 0x8 => 0xF3FF0000
  | 0xC => 0xFCBF0000
  | 0xD => 0xFC000000
  | 0xE => 0xF0FF007F
  | _ => 0xF0000000

/-- R332: a good word in a program of `n` operations. -/
def goodWop (n : Nat) (w : Word) : Bool :=
  (w.toNat &&& wopUsed (wopOp w)) == w.toNat &&
    match wopOp w with
    | 0x6 => wopB8 w != 3 && wopH16 w < n
    | 0x7 => 1 ≤ wopB8 w && wopB8 w ≤ 32
    | 0xE => wopH16 w ≤ 64
    | _ => true

/-- H16 extended by sign. -/
def wopImm (w : Word) : DWord := BitVec.ofInt 64 (intVal 16 true (wopH16 w))

/-- R331: the conditions. -/
def wopCond (c : Nat) (a b : DWord) : Bool :=
  match c with
  | 0 => a == b
  | 1 => a != b
  | 2 => a.toNat < b.toNat
  | _ => b.toNat ≤ a.toNat

/-- R331: `HASH`. -/
def walkHash (x : DWord) (b : Nat) : DWord := (((x ^^^ (x >>> 32)) * 0x9E3779B97F4A7C15#64) >>> (64 - b))

/-! ## WLOAD (R332) -/

/-- Is some Maze command of the context one of `p`? The walks of a team that is being saved are abandoned (R337), its
installs are not. -/
def State.earlier (s : State) (w : Who) (p : Cmd → Bool) : Bool :=
  s.teams.any fun tm =>
    let ln := s.launchOf tm.launch
    ln.pf == w.pf && (s.queue ln.pf ln.q).ctx == w.ctx &&
      tm.cmds.any fun y => y.kind == 3 && (tm.active || y.opc == 0) && p y

def wloadSlot (x : Cmd) : Nat := x.word 4 / 2 ^ 8 % 8
def walkSlot (x : Cmd) : Nat := x.word 6 % 8

def wloadHappening (t c : Nat) (s : State) : State :=
  match s.team? t with
  | none => s
  | some tm =>
    match tm.cmd? c with
    | none => s
    | some x =>
      if x.kind != 3 || x.opc != 0 || x.st != .launched then s
      else
        let die := dieOfCore x.core
        let w := s.cmdWho t x die
        let n := x.word 4 % 64
        let r := (s.needDram w .read 2 (addrOf x.words 2) (4 * n)).bind fun s _ => (s.eRead w (addrOf x.words 2) (4 * n)).bind fun s bs =>
          let ws := (wordsOf 4 n bs).map (BitVec.ofNat 32)
          match ws.findIdx? fun y => !goodWop n y with
          | some i => .ok (s.applyCmd t c 0x0D 0 i) ()
          | none =>
            let s := s.modCtx w.pf w.ctx fun z => { z with installs := z.installs ++ [(c, ws)] }
            .ok (s.modCmd t c fun y => { y with st := .takenUp, stall := none }) ()
        s.settleCmd t c die 0 r fun s cause => s.applyCmd t c 0x03 cause 0

def execWload (t c : Nat) (s : State) : Host.Outcome State Fault Refusal := .next (wloadHappening t c s)

/-- R332, R338: a walk that holds back the install: one in flight, or launched before it. -/
def Cmd.holdsSlot (x y : Cmd) : Bool :=
  y.opc == 1 && walkSlot y == wloadSlot x && (y.st == .takenUp || (y.st == .launched && y.order < x.order))

/-- An install that waits for an earlier one of the slot. -/
def Cmd.installs (x y : Cmd) : Bool :=
  y.opc == 0 && wloadSlot y == wloadSlot x && (y.st == .takenUp || y.st == .launched) && y.order < x.order

def execWloadInstall (t c : Nat) (s : State) : Host.Outcome State Fault Refusal :=
  match s.team? t with
  | none => .next s
  | some tm =>
    match tm.cmd? c with
    | none => .next s
    | some x =>
      let w := s.cmdWho t x (dieOfCore x.core)
      if x.kind != 3 || x.opc != 0 || x.st != .takenUp || s.earlier w (fun y => x.holdsSlot y || x.installs y) then .next s
      else
        let prog := (lookup c (s.ctx w.pf w.ctx).installs).getD []
        let s := s.modCtx w.pf w.ctx fun z => { z with
          slots := setNth (wloadSlot x) (some prog) z.slots, installs := z.installs.filter fun y => y.1 != c }
        let s := s.modLaunch tm.launch fun l => { l with slotsLoaded := insertNat (wloadSlot x) l.slotsLoaded }
        .next (s.applyCmd t c 0 0 0)

/-! ## WALK (R333 to R335) -/

/-- R334: a walk's access: an address on a host page or in the window region faults with a cause that is open (log
entry 24). -/
def State.walkAt (s : State) (w : Who) (va : Nat) : Eng Site :=
  if 2 ^ 56 ≤ va then .fault s 0x30
  else if va / 2 ^ 48 = 255 then .fault s.openCause.1 s.openCause.2
  else (s.engineAt w va .read).bind fun s x =>
    if isDram x.place then .ok s x else .fault s.openCause.1 s.openCause.2

/-- A load or a record of a walk: `n` bytes, at most 64. -/
def State.walkRead (s : State) (w : Who) (va n : Nat) (aligned : Bool) : Eng (List Byte) :=
  if n = 0 then .ok s []
  else (s.walkAt w va).bind fun s _ =>
    if aligned && va % n ≠ 0 then .fault s 0x32
    else (s.walkAt w (va + n - 1)).bind fun s _ => s.eRead w va n

/-- R335: the first result word. -/
def walkWord (wstat cause len steps : Nat) : Word := BitVec.ofNat 32 (2 ^ 28 * wstat + 2 ^ 20 * (cause % 256) + 2 ^ 13 * len + steps)

/-- R335: the record's words. -/
def walkRecord (rwords : Nat) (bs : List Byte) : List Word :=
  (List.range rwords).map fun i => BitVec.ofNat 32 (leNat ((bs.drop (4 * i)).take 4))

/-- R334, R335: a walk ends with its result words. -/
def State.walkEnd (s : State) (t : Nat) (x : Cmd) (wstat cause steps : Nat) (bs : List Byte) : State :=
  s.modCmd t x.id fun y => { y with
    st := .applied, stall := none, walk := none, count := steps
    results := walkWord wstat cause bs.length steps :: walkRecord (x.word 6 / 2 ^ 5 % 32) bs }

/-- R334: a fault ends the walk as its policy says. -/
def State.walkFault (s : State) (t : Nat) (x : Cmd) (cause steps : Nat) : State :=
  match x.word 6 / 8 % 4 with
  | 1 => s.walkEnd t x 5 cause steps []
  | 2 => (s.walkEnd t x 4 cause steps []).modCmd t x.id fun y => { y with status := 0x03, cause, fault79 := true }
  | _ => s.walkEnd t x 4 cause steps []

def Walk.reg (k : Walk) (i : Nat) : DWord := k.x.getD i 0
def Walk.set (k : Walk) (i : Nat) (v : DWord) : Walk := { k with x := setNth i v k.x }

/-- How one operation leaves a walk. -/
inductive Walked where
  | on (k : Walk)
  | done (wstat steps : Nat) (bs : List Byte)

def Eng.on (s : State) (k : Walk) : Eng Walked := .ok s (.on k)

/-- R333: a node visit: the walk goes to the engine that serves the node. -/
def State.visit (s : State) (w : Who) (k : Walk) (node : Nat) : Eng Walked :=
  (s.walkAt w node).bind fun s x =>
    let k := { k with node, ops := 0 }
    .on s (if mazeOf x.place = k.maze then k else { k with handoff := some (mazeOf x.place) })

/-- R331: one operation. -/
def State.walkOp (s : State) (w : Who) (x : Cmd) (k : Walk) (i : Word) : Eng Walked :=
  let d := wopXd i
  let a := k.reg d
  let b := k.reg (wopXs i)
  let next := { k with op := k.op + 1, ops := k.ops + 1 }
  let put (v : DWord) : Eng Walked := .on s (next.set d v)
  let flag (v : Bool) : Eng Walked := .on s { next with flag := v }
  let n := 2 ^ (wopH16 i % 4)
  let load (base : Nat) : Eng Walked :=
    (s.walkRead w ((base + wopB8 i) % 2 ^ 64) n true).bind fun s bs => .on s (next.set d (BitVec.ofNat 64 (leNat bs)))
  match wopOp i with
  | 0x0 => load k.node
  | 0x1 => load b.toNat
  | 0x2 => put (wopImm i)
  | 0x3 => put b
  | 0x4 => flag (wopCond (wopH16 i % 4) a b)
  | 0x5 => flag (wopCond (wopB8 i % 4) a (wopImm i))
  | 0x6 =>
    let taken := match wopB8 i % 4 with
      | 0 => true
      | 1 => k.flag
      | _ => !k.flag
    .on s (if taken then { next with op := wopH16 i % 32 } else next)
  | 0x7 => put (walkHash b (wopB8 i))
  | 0x8 =>
    if x.word 6 / 2 ^ 10 % 4096 < k.steps then .ok s (.done 2 k.steps [])
    else s.visit w { next with steps := k.steps + 1 } ((b.toNat + wopB8 i) % 2 ^ 64)
  | 0x9 => put (a + b)
  | 0xA => put (a + wopImm i)
  | 0xB => put (a &&& b)
  | 0xC => put (if (wopB8 i).testBit 7 then a >>> (wopB8 i % 64) else a <<< (wopB8 i % 64))
  | 0xD => put (BitVec.ofNat 64 k.node)
  | 0xE => (s.walkRead w ((k.node + wopB8 i) % 2 ^ 64) (wopH16 i % 128) false).bind fun s bs => .ok s (.done 0 k.steps bs)
  | _ => .ok s (.done 1 k.steps [])

/-- The step count that a fault at a node visit reports. -/
def Walk.stepsAt (k : Walk) : Nat :=
  match k.prog[k.op]? with
  | some i => if wopOp i = 0x8 then k.steps + 1 else k.steps
  | none => k.steps

/-- Operations of a walk, `n` at most, until it ends, waits or is handed off. -/
def State.walkGo (s : State) (w : Who) (t : Nat) (x : Cmd) : (n : Nat) → (k : Walk) → State
  | 0, k => s.modCmd t x.id fun y => { y with walk := some k, stall := none }
  | n + 1, k =>
    let s := s.modCmd t x.id fun y => { y with walk := some k }
    if k.handoff.isSome then s
    else match k.prog[k.op]? with
      | none => s.walkEnd t x 1 0 k.steps []
      | some i =>
        if k.ops = 256 then s.walkEnd t x 3 0 k.steps []
        else match s.walkOp w x k i with
          | .ok s (.on k) => s.walkGo w t x n k
          | .ok s (.done wstat steps bs) => s.walkEnd t x wstat 0 steps bs
          | r => s.settleCmd t x.id w.die x.idx (r.bind fun s _ => .ok s ()) fun s cause => s.walkFault t x cause k.stepsAt

/-- R316: the walks that a Maze engine holds, started there or handed off to it. -/
def State.walksAt (s : State) (maze : Nat) (started : Bool) : Nat :=
  ((s.teams.flatMap (·.cmds)).filter fun y => match y.walk with
    | some k => k.maze == maze && k.handed == !started
    | none => false).length

/-- R316, R333: a walk enters the engine `m` that serves its root, which starts 64 at most. -/
def State.walkEnter (s : State) (t : Nat) (x : Cmd) (prog : List Word) (m : Nat) : State :=
  if 64 ≤ s.walksAt m true then s
  else
    let key := BitVec.ofNat 64 (2 ^ 32 * x.word 3 + x.word 2)
    s.modCmd t x.id fun z => { z with
      st := .takenUp, idx := m, stall := none
      walk := some { maze := m, x := [key, 0, 0, 0], node := addrOf x.words 4, flag := false
                     op := 0, steps := 1, ops := 0, prog, handoff := none, handed := false } }

/-- R333: a walk whose slot holds `prog`, its root looked up with the answer `r`. -/
def State.walkRoot (s : State) (w : Who) (t : Nat) (x : Cmd) (prog : List Word) (r : Eng Site) : State :=
  match r with
  | .ok s y => s.walkEnter t x prog (mazeOf y.place)
  | r => s.settleCmd t x.id w.die x.idx (r.bind fun s _ => .ok s ()) fun s cause => s.walkFault t x cause 1

/-- R333: a walk starts, unless an install launched before it is still pending (R332). -/
def State.walkStart (s : State) (t : Nat) (x : Cmd) : State :=
  let w := s.cmdWho t x (dieOfCore x.core)
  let pending (y : Cmd) : Bool :=
    y.opc == 0 && wloadSlot y == walkSlot x && (y.st == .launched || y.st == .takenUp) && y.order < x.order
  if s.earlier w pending then s
  else match (s.ctx w.pf w.ctx).slots.getD (walkSlot x) none with
    | none => s.walkEnd t x 6 0 1 []
    | some prog => s.walkRoot w t x prog (s.walkAt w (addrOf x.words 4))

def execWalk (t c n : Nat) (s : State) : Host.Outcome State Fault Refusal :=
  match s.cmdAt t c 3 1 .launched, s.cmdAt t c 3 1 .takenUp with
  | some x, _ => .next (s.walkStart t x)
  | none, some x =>
    match x.walk with
    | some k => .next (s.walkGo (s.cmdWho t x (k.maze / 16)) t x (n + 1) k)
    | none => .next s
  | none, none => .next s

/-- R316, R333: the walk arrives at the engine that serves its node, which holds 64 such walks at most. -/
def execWalkHandoff (t c : Nat) (s : State) : Host.Outcome State Fault Refusal :=
  match s.cmdAt t c 3 1 .takenUp with
  | none => .next s
  | some x =>
    match x.walk with
    | none => .next s
    | some k =>
      match k.handoff with
      | none => .next s
      | some m =>
        if 64 ≤ s.walksAt m false then .next s
        else .next (s.modCmd t c fun y => { y with walk := some { k with maze := m, handoff := none, handed := true } })

end Sys2Proof.Machine
end

