-- ==== Sys2Proof/Machine/CoreEvents.lean ====
section
/-! DEFINITION. What comes about on cores besides the issue of instructions: traps taken and forwarded, returning
results, the Arbour, walks, waits that end, aborts, late stores and retiring matrix operations. A happening whose
conditions do not hold leaves the state as it is (log entry 4). -/

namespace Sys2Proof.Machine

/-- The fragment, if its team may act. -/
def State.actor (s : State) (t g : Nat) : Option Frag :=
  match s.team? t with
  | none => none
  | some tm => if tm.active && (s.launch? tm.launch).isSome then tm.frag? g else none

/-- The state in which a request of the device's own ended without a place. -/
def Denied.state : Denied → State
  | .fault s _ => s
  | .wait s => s

/-- R459: a fragment that waits for its warp's frame takes its trap when the frame is free, and one whose frame could not
be written yet (R108, R378) tries again. -/
def execTrapEntry (t g : Nat) (s : State) : Host.Outcome State Fault Refusal :=
  match s.actor t g with
  | none => .next s
  | some fr =>
    match fr.st, fr.trap with
    | .waiting .frame, some x =>
      let e := s.envAt t g
      .next (if fr.priv then s.secondTrap e x else if (e.tm.warp fr.warp).frame then s else s.enterTrap e x)
    | _, _ => .next s

/-- R456, R461: where HCMD stands in a frame header. -/
def hcmdAt : Nat := 112

/-- R461: the action of a value of HCMD. -/
def State.hcmd (s : State) (e : Env) (v : Nat) : State :=
  match v with
  | 1 => s.resumeFrame e.t e.g
  | 2 => (s.modFrag e.t e.g fun fr => { fr with st := .running, fromFrame := true }).haltLaunch e.ln.id
  | 3 => s.terminate e.pf (e.ctx s) 0x84
  | _ => s

/-- R461: a poll of HCMD, an acquire at `.sys`. A poll that cannot reach the frame is made again. -/
def execHcmdPoll (t g : Nat) (s : State) : Host.Outcome State Fault Refusal :=
  match s.actor t g with
  | none => .next s
  | some fr =>
    if fr.st != .waiting .host then .next s
    else
      let e := s.envAt t g
      let va := e.ln.headVa e.tm.num e.fr.warp + hcmdAt
      let s := s.dropL1 e.core
      match s.reachVa (.unit e.g) e.pf (e.ctx s) e.die va .read with
      | .error (.fault s c) => .next (if c = 0x37 then s.readFault e.pf (e.ctx s) e.die va 8 c else s)
      | .error (.wait s) => .next s
      | .ok (s, p) =>
        let v := s.mem.nat p 8
        if v = 0 then .next s
        else match s.deviceWrite (.unit e.g) e.pf (e.ctx s) e.die va (leBytes 8 0) with
          | .error x => .next x.state
          | .ok s => .next (s.hcmd e v)

/-- R85: result `i` of a fragment returns. Results of the matrix engine return as they retire (R289). -/
def execResultReturn (t g i : Nat) (s : State) : Host.Outcome State Fault Refusal :=
  let back (o : Outstanding) : Outstanding := if o.op.isNone then { o with returned := true } else o
  .next (s.modTeam t fun tm => (tm.modFrag g fun fr => ({ fr with out := modNth i back fr.out } : Frag).unpark).popWords)

/-- R83, R256: the threads that are left go on together with an empty window, which R49 says they keep (log entry 98). -/
def Frag.afterGather (fr : Frag) (pc : Nat) : Frag :=
  { fr with st := .running, pc, win := [], counted := false, walked := false, rep := none }

/-- R49, R256: a thread's gathered data returns, and the thread is filed at the instruction that follows, unless its group runs its
trap routine (R469). -/
def State.gatherBack (s : State) (t g tid : Nat) (f : Fields) (left : List Nat) : State :=
  let e := s.envAt t g
  let pc := e.next f
  let filed := if e.fr.priv || s.isClose (e.who s) pc then none else s.fileThread t tid pc
  let s := match filed with
    | some s => s.modTeam t fun tm => tm.shrink g [tid]
    | none => s
  let left := left.filter (· != tid)
  let s := if left.isEmpty then s.modWarp t e.fr.warp fun wp => wp.repeats e.fr 0 else s
  s.modFrag t g fun fr => if left.isEmpty then fr.afterGather pc else { fr with st := .waiting (.gather f left) }

def execRfGatherReturn (t g tid : Nat) (s : State) : Host.Outcome State Fault Refusal :=
  match s.actor t g with
  | none => .next s
  | some fr =>
    match fr.st with
    | .waiting (.gather f left) => .next (if left.contains tid then s.gatherBack t g tid f left else s)
    | _ => .next s

/-- R39: a fragment at its reconvergence point parks, after a late report (R453). -/
def execFragmentPark (t g : Nat) (s : State) : Host.Outcome State Fault Refusal :=
  if s.canIssue t g && (s.envAt t g).tm.atJoin (s.envAt t g).fr then
    let s := s.deliverFrag t g
    match (s.team t).late g with
    | some x => .next (s.raise (s.envAt t g) x)
    | none => .next (s.parkFrag t g)
  else .next s

/-! ## The Arbour (R50, R53, R58, R59) -/

/-- R50: has the oldest thread of a bin waited for the age timer, `limit` cycles? -/
def Bin.old (b : Bin) (limit now : Nat) : Bool :=
  match b.tids with
  | x :: _ => (limit : Int) ≤ now - x.2
  | [] => false

def execBinAgeExpiry (core bin : Nat) (s : State) : Host.Outcome State Fault Refusal :=
  .next (s.modCore core fun k =>
    { k with bins := modNth bin (fun b => b.map fun b => if b.old s.limits.ageTimer k.cycle then { b with aged := true } else b) k.bins })

/-- R50: a choice of threads of a bin: as many as a group takes, and none that shares a home lane while one with a lane of
its own is left. -/
def goodChoice (h : Header) (tm : Team) (all tids : List Nat) : Bool :=
  let homes (l : List Nat) : List Nat := (l.filter fun i => !(tm.thread i).child).map (homeLane h)
  let lanes := homes tids
  tids.length == min h.lanes all.length && dedup tids == tids && tids.all all.contains
    && (dedup lanes == lanes || (homes (all.filter fun i => !tids.contains i)).all lanes.contains)

/-- The bin without the threads of a drawn group. -/
def Bin.without (b : Bin) (tids : List Nat) (limit now : Nat) : Option Bin :=
  let b := { b with tids := b.tids.filter fun x => !tids.contains x.1 }
  if b.tids.isEmpty then none else some { b with aged := b.old limit now }

/-- R50, R53, R352: the Arbour draws a group from a drawable bin, at most one in a cycle. -/
def execGroupDraw (core bin : Nat) (tids : List Nat) (s : State) : Host.Outcome State Fault Refusal :=
  match (s.core core).bins.getD bin none with
  | none => .next s
  | some b =>
    match s.team? b.team with
    | none => .next s
    | some tm =>
      let h := (s.launchOf tm.launch).hdr
      let all := b.tids.map (·.1)
      if tm.active && !(s.core core).drew && (b.aged || h.lanes ≤ all.length) && goodChoice h tm all tids then
        let s := s.modCore core fun k => { k with drew := true, bins := modNth bin (fun _ => b.without tids s.limits.ageTimer k.cycle) k.bins }
        .next (s.drawGroup core b.team b.key tids)
      else .next s

/-- R59: the child contexts in use on a core. -/
def State.childrenOn (s : State) (core : Nat) : Nat :=
  ((s.teams.filter fun tm => tm.region.isSome).map fun tm =>
    ((List.range tm.threads.length).filter fun i =>
      let th := tm.thread i
      th.child && !th.queued && !th.exited && s.coreOf tm.id i == core).length).sum

/-- R59: the first child of a core's spawn queue whose team runs takes a child context and is filed by its entry. One that no bin
has room for stays in the queue, and those behind it wait (R59 is silent; log entry 84). -/
def execChildDequeue (core : Nat) (s : State) : Host.Outcome State Fault Refusal :=
  match (s.core core).spawn.find? fun x => (s.team x.1).active with
  | none => .next s
  | some (t, tid) =>
    if Config.childContexts ≤ s.childrenOn core then .next s
    else
      let s' := (s.modCore core fun k => { k with spawn := k.spawn.erase (t, tid) }).modTeam t fun tm => tm.modThread tid fun th => { th with queued := false }
      match s'.fileThread t tid ((s.team t).thread tid).resume with
      | some s' => .next s'
      | none => .next s

/-! ## Translation and the free pools (R101, R472, R473, R500) -/

/-- R101: the walk for a fragment: what it finds goes to the TLBs or to the fragment as it issues again. A page under claim
keeps it. -/
def execPageWalk (t g : Nat) (s : State) : Host.Outcome State Fault Refusal :=
  match s.actor t g with
  | none => .next s
  | some fr =>
    match fr.st with
    | .waiting (.walk va) =>
      let e := s.envAt t g
      let w := e.who s
      match s.leaf w va with
      | .bad p => .next (s.badWord e.pf (e.ctx s) p)
      | .found at_ en lvl =>
        if entryM en then .next s
        else .next ((if entryU en then s else s.tlbFill w va at_ en lvl).wake t g true)
      | _ => .next (s.wake t g true)
    | _ => .next s

def execFreePoolTimeout (t g : Nat) (s : State) : Host.Outcome State Fault Refusal :=
  match s.actor t g with
  | none => .next s
  | some fr =>
    match fr.st with
    | .waiting (.pool va deadline) =>
      .next (if deadline ≤ (s.die (s.envAt t g).die).time then s.timeOut t g va 0x47 else s)
    | _ => .next s

/-- R500: an access is checked again, and its instruction traps or its context ends; a phaser instruction ends it at once. -/
def execRemoteDieTimeout (t g : Nat) (s : State) : Host.Outcome State Fault Refusal :=
  match s.actor t g with
  | none => .next s
  | some fr =>
    match fr.st with
    | .waiting (.remote va deadline) =>
      let e := s.envAt t g
      .next (if (s.die e.die).time < deadline then s
        else if va = noVa then s.terminate e.pf (e.ctx s) 0x90
        else s.timeOut t g va 0x90)
    | _ => .next s

/-- Fragments that wait go on where `p` holds. -/
def State.wakeWhere (s : State) (p : Team → Frag → Bool) (walked : Bool) : State :=
  let go (tm : Team) (fr : Frag) : Frag := if p tm fr then { fr with st := .running, walked := fr.walked || walked } else fr
  { s with teams := s.teams.map fun tm => { tm with frags := tm.frags.map (go tm) } }

/-- R473: the host's answer reaches the request that the register names. -/
def State.placementReply (s : State) (pf die num : Nat) (ok : Bool) : State :=
  let pending := (s.contexts.filter fun c => c.pf == pf).flatMap (·.requests)
  match pending.find? fun r => r.die == die && r.num == num && r.answer.isNone with
  | none => s
  | some r =>
    let answered (x : Request) : Request := if x == r then { x with answer := some ok } else x
    let s := { s with contexts := s.contexts.map fun (c : Context) => { c with requests := c.requests.map answered } }
    s.wakeWhere (fun tm fr => tm.id == r.team && fr.id == r.by_ && (match fr.st with
      | .waiting (.placement _ _) => true
      | _ => false)) true

def execPlreply (pf : Nat) (v : Word) (s : State) : Host.Outcome State Fault Refusal :=
  match (s.devDies pf)[v.toNat / 2 ^ 24 % 4]? with
  | some die => .next (s.placementReply pf die (v.toNat % 2 ^ 9) (!v.getLsbD 31))
  | none => .next s

/-- R472: firmware puts frames of a die into its pools. A frame stands whole in the die's DRAM below the partition of the
spread pages (R368), and is in no pool. -/
def goodFrame (die size : Nat) (pool : List Nat) (fr : Nat) : Bool :=
  isDram fr && homeDie fr == die && fr % size == 0 && fr % 2 ^ 36 + size ≤ spreadBase && !pool.contains fr

/-- R472: has the pool that a fragment waits for a frame of one for it? -/
def State.frameFor (s : State) (tm : Team) (fr : Frag) (va : Nat) : Bool :=
  let e := s.envAt tm.id fr.id
  match s.leaf (e.who s) va with
  | .found _ _ lvl => !(if lvl = 2 then (s.die e.die).pool2m else (s.die e.die).pool64).isEmpty
  | _ => true

def execFreePoolRefill (die : Nat) (small large : List Nat) (s : State) : Host.Outcome State Fault Refusal :=
  let s := s.modDie die fun d => { d with
    pool64 := d.pool64 ++ (dedup small).filter (goodFrame die (2 ^ 16) d.pool64)
    pool2m := d.pool2m ++ (dedup large).filter (goodFrame die (2 ^ 21) d.pool2m) }
  .next (s.wakeWhere (fun tm fr => dieOfCore tm.core == die && (match fr.st with
    | .waiting (.pool va _) => s.frameFor tm fr va
    | _ => false)) true)

/-! ## Waits that end (R220, R230), aborts (R229), late stores (R115), collectors (R255) -/

def execTryWaitTimeout (t g : Nat) (s : State) : Host.Outcome State Fault Refusal :=
  match s.actor t g with
  | none => .next s
  | some fr =>
    match fr.st with
    | .waiting (.tryWait h _ deadline f) =>
      .next (if deadline ≤ (s.die (s.envAt t g).die).time then s.endTry t g (hScope h) f false else s)
    | _ => .next s

def execTilewaitTimeout (t g : Nat) (s : State) : Host.Outcome State Fault Refusal :=
  match s.actor t g with
  | none => .next s
  | some fr =>
    match fr.st with
    | .waiting (.tile _ deadline f) =>
      .next (if deadline ≤ (s.die (s.envAt t g).die).time then s.endTry t g 0 f false else s)
    | _ => .next s

def execTxAbort (t w : Nat) (s : State) : Host.Outcome State Fault Refusal :=
  .next (if (s.team t).active && ((s.team t).warp w).aborting then s.abortTx t w [] else s)

/-- R127, R253: must store `y` arrive before `x`, which was issued after it? So must one of the same thread, and one that the same
instruction makes for a lower rank to bytes that `x` stores to. -/
def FarStore.precedes (y x : FarStore) : Bool :=
  y.team == x.team && (y.tid == x.tid || (y.issue == x.issue && y.core == x.core && y.off < x.off + x.data.length && x.off < y.off + y.data.length))

/-- R115: of the far stores that store `i` must come after, the oldest arrives, and where there is none the store itself. -/
def execClusterStoreArrival (i : Nat) (s : State) : Host.Outcome State Fault Refusal :=
  match s.far[i]? with
  | none => .next s
  | some x =>
    let first := (s.far.take i).reverse.foldl (fun (first : FarStore) y => if y.precedes first then y else first) x
    .next ({ s with far := s.far.erase first }.arriveFar first)

def execCollectorWindowExpiry (core : Nat) (s : State) : Host.Outcome State Fault Refusal := .next (s.sendCollector core)

/-! ## Matrix engines (R289, R483, R484) -/

/-- R483: a mismatch with a spare left maps the column's work to it. -/
def State.useSpare (s : State) (core : Nat) : State :=
  let s := s.modCore core fun k => { k with spares := k.spares + 1 }
  let d := dieOfCore core
  s.systemEvent [d] d 0x22 0 ((s.core core).spares * 2 ^ 8 + core)

/-- R482, R484: a mismatch with no spare left ends the operation unwritten and terminates its context, with events 0x21 (its DETAIL:
log entry 57) and 0x23. The products of Pergola commands leave the engine; the commands queue them on another. -/
def State.matrixFail (s : State) (core : Nat) (op : MatrixOp) : State :=
  let ln := s.launchOf (s.team op.team).launch
  let d := dieOfCore core
  let s := s.modCore core fun k => { k with matFailed := true, matrix := k.matrix.filter fun o => o.id != op.id && o.cmd.isNone }
  ((s.terminate ln.pf (s.queue ln.pf ln.q).ctx 0x61).systemEvent [d] d 0x21 0x61 (chipDetail 0 core)).systemEvent [d] d 0x23 0x61 core

/-- The operation at the head retires after so many mismatches. -/
def State.retireChecked (s : State) (core : Nat) : (mismatches : Nat) → State
  | 0 => s.retireHead core
  | n + 1 =>
    if (s.core core).spares < 4 then (s.useSpare core).retireChecked core n
    else match (s.core core).matrix with
      | op :: _ => s.matrixFail core op
      | [] => s

def execMatrixOpRetire (core mismatches : Nat) (s : State) : Host.Outcome State Fault Refusal :=
  .next (if (s.core core).matrix.isEmpty then s else s.retireChecked core mismatches)

end Sys2Proof.Machine
end

