-- ==== Sys2Proof/Machine/Save.lean ====
section
/-! DEFINITION. The save of a team and of a grid: the bytes of a resume image (R87, R344 to R346). What the layouts have
no place for stands in the device's own record of the image (log entry 15). A saved bin holds the age of each thread in place of
the cycle that it was filed at. -/

namespace Sys2Proof.Machine

/-- Pieces moved on by an offset. -/
def Pieces.at_ (ps : Pieces) (off : Nat) : Pieces := ps.map fun x => (x.1 + off, x.2)

/-- The pieces of list elements at a fixed distance. -/
def each {α : Type} (size : Nat) (f : α → Pieces) (l : List α) : Pieces :=
  l.zipIdx.flatMap fun x => Pieces.at_ (f x.1) (size * x.2)

/-- A wide value in 8-byte pieces, none of which is written for a 0. -/
def wideMask (off n v : Nat) : Pieces :=
  (List.range n).filterMap fun i => if v / 2 ^ (64 * i) % 2 ^ 64 = 0 then none else some (piece (off + 8 * i) 8 (v / 2 ^ (64 * i)))

/-- R345: a phaser entry. -/
def phaserEntry (handle : Nat) (p : Phaser) : Pieces := [piece 0 2 handle, piece 2 2 p.p, piece 4 4 p.n, piece 8 4 p.a, piece 12 1 1]

/-- The index of an element that meets a test. -/
def indexBy {α : Type} (p : α → Bool) (l : List α) (none_ : Nat) : Nat := (l.findIdx? p).getD none_

/-! ## Fragments and split stacks (R346) -/

/-- R346, R213: a fragment whose trap the frame holds is in the state Trap, whether or not its routine runs. -/
def Frag.code (fr : Frag) : Nat :=
  if fr.priv || fr.fromFrame then 4
  else match fr.st with
    | .running => if fr.held then 3 else 0
    | .parked => 1
    | .switchParked => 2
    | .waiting _ => 3

/-- A fragment record; `ents` are the split-stack entries that its index counts. -/
def fragEntry (ents : List Split) (fr : Frag) : Pieces :=
  [piece 0 8 fr.pc, piece 8 8 (ranksOf fr.mem), piece 16 1 (match fr.ent with
    | some e => indexBy (fun x => x.id == e) ents 255
    | none => 255), piece 17 1 fr.code, piece 18 1 (bit fr.partial_)]

def winEntries (fr : Frag) : Pieces := (winCodes 0 (fr.win.take 8)).zipIdx.map fun y => piece (4 * y.2) 4 y.1

/-- A split-stack entry; `rank` gives the rank of a thread. -/
def splitEntry (rank : Nat → Nat) (ents : List Split) (x : Split) : Pieces :=
  [piece 0 8 x.reconv, piece 8 8 (maskOf (x.mem.map rank)), piece 16 8 (maskOf (x.arrived.map rank)), piece 24 1 (match x.parent with
    | some e => indexBy (fun y => y.id == e) ents 255
    | none => 255)]

/-! ## Team parts (R345) -/

def identityPart (tm : Team) : Pieces :=
  let kids := match tm.region with
    | some r => r.kids
    | none => 0
  [piece 0 4 tm.num, piece 4 1 (if tm.region.isSome then 2 else 1), piece 8 4 (if tm.region.isSome then tm.waiting else 0), piece 12 4 kids
   , piece 16 8 tm.rxwin.toNat]

def accPart (tm : Team) : Pieces :=
  each 8 (fun (d : DWord) => [piece 0 8 d.toNat]) tm.tiles ++
    (tm.accs.zipIdx.flatMap fun a => a.1.map fun x => piece (128 + 16384 * a.2 + 4 * x.1) 4 x.2.toNat)

def phaserPart (tm : Team) : Pieces :=
  tm.phasers.zipIdx.flatMap fun x => match x.1 with
    | some p => Pieces.at_ (phaserEntry (handleOf 2 0 x.2) p) (16 * x.2)
    | none => []

def NodeState.code : NodeState → Nat
  | .free => 0
  | .armed => 1
  | .launched => 2
  | .done => 3

def nodeEntry (tm : Team) (x : Node) : Pieces :=
  let cmd := match x.cmd with
    | some c => indexBy (fun (y : Cmd) => y.id == c) tm.cmds 0xFFFF
    | none => 0xFFFF
  [piece 0 1 x.st.code, piece 1 1 x.pred, piece 2 2 (x.k % 2 ^ 16).toNat, piece 4 4 (leNat ((x.succ.take 4).map (BitVec.ofNat 8)))
   , piece 8 1 ((maskOf ((List.range 4).filter fun i => x.valid.getD i false)) + x.pty * 16 + bit x.overflow * 64), piece 10 2 cmd
   , piece 12 2 (x.ph.getD 0), piece 14 1 (bit x.ph.isSome), piece 16 8 x.entry, piece 24 4 x.arg0.toNat, piece 28 4 x.arg1.toNat]

def wordPieces (off : Nat) (ws : List Word) : Pieces := ws.zipIdx.map fun x => piece (off + 4 * x.2) 4 x.1.toNat

def frameEntry (q : QueueReg) : Pieces :=
  match q.owner with
  | some w => [piece 0 1 q.words.length, piece 1 1 1, piece 2 2 w] ++ wordPieces 16 q.words
  | none => []

def cmdEntry (c : Cmd) : Pieces :=
  let st := match c.st with
    | .held => 1
    | .complete => 3
    | _ => 2
  wordPieces 0 c.words ++ [piece 64 1 c.q, piece 65 1 st, piece 68 4 c.sub, piece 72 8 c.idx, piece 80 4 c.results.length]
    ++ wordPieces 88 c.results

def queuePart (tm : Team) : Pieces := each 80 frameEntry tm.queues ++ Pieces.at_ (each 160 cmdEntry tm.cmds) 640

/-! ## The Arbour part (R345) -/

/-- The bins of a team, with the number of its core in the pair and the ages of their threads. -/
def State.binsOf (s : State) (tm : Team) : List (Nat × Bin) :=
  [0, 1].flatMap fun j =>
    let k := s.core (tm.core + j)
    k.bins.filterMap fun b => b.bind fun b =>
      if b.team == tm.id then some (j, { b with tids := b.tids.map fun x => (x.1, k.cycle - x.2) }) else none

def binEntry (b : Bin) : Pieces :=
  [piece 0 8 b.key, piece 8 4 b.tids.length, piece 12 4 ((b.tids.map (·.2)).headD (0 : Int)).toNat]
    ++ b.tids.zipIdx.map fun x => piece (16 + 4 * x.2) 4 x.1.1

/-- The live children of a team, and those in its spawn queue, in spawn order. -/
def Team.kidsBy (tm : Team) (queued : Bool) : List Nat :=
  (List.range tm.threads.length).filter fun i => let th := tm.thread i
    th.child && !th.exited && th.queued == queued

def spawnEntry (tm : Team) (base i : Nat) : Pieces :=
  let th := tm.thread i
  [piece 0 8 th.resume] ++ wordPieces 8 (th.v.take 2) ++ [piece 16 4 th.parent, piece 20 4 (i - base)]

/-- The fragment that holds a thread. -/
def Team.fragOf (tm : Team) (tid : Nat) : Option Frag := tm.frags.find? fun f => f.mem.any fun m => m.tid == tid

def childEntry (tm : Team) (bins : List (Nat × Bin)) (i : Nat) : Pieces :=
  let th := tm.thread i
  let pc := match tm.fragOf i with
    | some f => f.pc
    | none => ((bins.find? fun b => b.2.tids.any fun x => x.1 == i).map (·.2.key)).getD 0
  wordPieces 0 (th.v.take 16) ++ [piece 64 1 (maskOf ((List.range 7).filter fun r => th.p.getD r false))
   , piece 65 2 (maskOf (th.vx.filter (· < 16))), piece 67 1 (maskOf th.px), piece 68 4 i, piece 72 4 th.parent
   , piece 76 4 (pc % 2 ^ 32), piece 80 4 (pc / 2 ^ 32)]

/-- The groups of the region, by number. -/
def Team.groups (tm : Team) : List Nat := dedup (tm.frags.filterMap (·.grp))
def Team.groupFrags (tm : Team) (g : Nat) : List Frag := tm.frags.filter fun f => f.grp == some g
def Team.groupSplits (tm : Team) (g : Nat) : List Split := tm.splits.filter fun x => x.grp == some g

def threadEntry (tm : Team) (i : Nat) : Pieces :=
  let fr := tm.fragOf i
  let grp := (fr.bind (·.grp)).map fun g => indexBy (· == g) tm.groups 0xFFFFFFFF
  let m := (fr.bind fun f => f.mem.find? fun m => m.tid == i).map Member.code
  [piece 0 4 i, piece 4 4 (grp.getD 0xFFFFFFFF), piece 8 4 (m.getD 0)]

/-- The group records, with the numbers of the split-stack entries and fragments before them. -/
def groupEntries (tm : Team) : (ns nf : Nat) → List Nat → List Pieces
  | _, _, [] => []
  | ns, nf, g :: l =>
    let fs := tm.groupFrags g
    let ss := tm.groupSplits g
    ([piece 0 8 ((fs.map (·.key)).headD 0), piece 8 4 ((fs.map (·.mem.length)).sum), piece 12 4 ns, piece 16 4 ss.length
      , piece 20 4 nf, piece 24 4 fs.length, piece 28 4 (bit (fs.any (·.partial_)))] : Pieces)
      :: groupEntries tm (ns + ss.length) (nf + fs.length) l

def rankIn (fs : List Frag) (tid : Nat) : Nat :=
  ((fs.flatMap (·.mem)).find? fun m => m.tid == tid).map (·.rank) |>.getD 0

def groupSplitEntries (tm : Team) (g : Nat) : List Pieces :=
  (tm.groupSplits g).map (splitEntry (rankIn (tm.groupFrags g)) (tm.groupSplits g))

def groupFragEntries (tm : Team) (g : Nat) : List Pieces :=
  (tm.groupFrags g).map fun f => fragEntry (tm.groupSplits g) f ++ Pieces.at_ (winEntries f) 24

/-- The registers of a thread's live mask, ascending (R52). -/
def Thread.liveRegs (th : Thread) : List Nat := (List.range 256).filter fun r => th.live.toNat.testBit (r / 8)

def relocEntry (tm : Team) (m : Member) : Pieces :=
  let th := tm.thread m.tid
  let regs := th.liveRegs.take 64
  [piece 0 4 m.tid, piece 4 1 m.lane, piece 5 1 m.pass, piece 8 4 th.live.toNat
   , piece 16 1 (maskOf ((List.range 7).filter fun r => th.p.getD r false))
   , piece 24 8 (maskOf ((regs.zipIdx.filter fun x => th.vx.contains x.1).map (·.2)))]
    ++ wordPieces 32 (regs.map fun r => th.v.getD r 0)

def seq {α : Type} (size off : Nat) (f : α → Pieces) (l : List α) : Pieces := Pieces.at_ (each size f l) off

/-- The Arbour part of a team with its bins, of which the layout has room for 32. -/
def Team.arbourPart (tm : Team) (bins : List (Nat × Bin)) (t : Nat) : Pieces :=
  let kids := tm.kidsBy false
  let gs := tm.groups
  seq 272 0 (fun (b : Nat × Bin) => binEntry b.2) (bins.take 32)
    ++ seq 24 8704 (spawnEntry tm t) (tm.kidsBy true)
    ++ seq 96 107008 (childEntry tm bins) kids
    ++ seq 16 156160 (threadEntry tm) (List.range t ++ kids)
    ++ seq 32 (156160 + 16 * (t + 512)) (fun (x : Pieces) => x) (groupEntries tm 0 0 gs)
    ++ seq 32 (156160 + 48 * (t + 512)) (fun (x : Pieces) => x) (gs.flatMap (groupSplitEntries tm))
    ++ seq 56 (156160 + 80 * (t + 512)) (fun (x : Pieces) => x) (gs.flatMap (groupFragEntries tm))
    ++ seq 288 (156160 + 136 * (t + 512)) (relocEntry tm) ((tm.frags.flatMap (·.mem)).filter (·.reloc))

/-! ## Warp records (R346) -/

/-- The fragments and entries of a warp outside a region. -/
def Team.warpFrags (tm : Team) (w : Nat) : List Frag := tm.frags.filter fun f => f.warp == w && f.grp.isNone
def Team.warpSplits (tm : Team) (w : Nat) : List Split := tm.splits.filter fun x => x.warp == w && x.grp.isNone

/-- R57: the fragments of a warp that ended at `RFOPEN` are recorded as parked: the threads that have arrived at the join with
the address where they go on, and the others at 0 (log entry 15). -/
def Team.homeRecords (tm : Team) (w : Nat) : List Frag :=
  (tm.region.map (·.homes)).getD [] |>.flatMap fun x =>
    if x.warp != w then []
    else (partsBy (fun m => if (tm.thread m.tid).done then (tm.thread m.tid).resume else 0) (x.mem.filter fun m => !(tm.thread m.tid).exited)).map
      fun y => { (default : Frag) with warp := w, mem := y.2, pc := y.1, ent := x.ent, st := .parked }

/-- R63: the state of a warp. One that has a trapped fragment and a ready one is in the state Trap (R63 does not say which of the
two; log entry 85). -/
def warpState (h : Header) (tm : Team) (w : Nat) : Nat :=
  let fs := tm.warpFrags w
  if (tm.liveOf h w).isEmpty then 4
  else if fs.any fun f => f.code == 4 then 3
  else if fs.any fun f => f.code == 0 then 0
  else if fs.any fun f => f.code == 2 then 1
  else 2

def regPieces (h : Header) (tm : Team) (w : Nat) : Pieces :=
  let ts := warpThreads' h tm w
  (ts.flatMap fun x => (tm.thread x.2).v.zipIdx.map fun y => piece (4 * h.lanes * y.2 + 4 * x.1) 4 y.1.toNat)
    ++ wordPieces (32 * h.vgran * h.lanes) (tm.warp w).w
    ++ (List.range 7).map fun r => piece (32 * h.vgran * h.lanes + 32 * h.ugran + 8 * r) 8
        (maskOf ((ts.filter fun x => (tm.thread x.2).p.getD r false).map (·.1)))
where
  /-- The lanes of a warp that hold threads. -/
  warpThreads' (h : Header) (tm : Team) (w : Nat) : List (Nat × Nat) :=
    (List.range h.lanes).filterMap fun l =>
      match tm.threads[w * h.lanes + l]? with
      | some th => if th.child then none else some (l, w * h.lanes + l)
      | none => none

/-- R346, R235: the execution state. It has one address for a `CLAIM` in progress; of two fragments of the warp that a save finds
in one each, the first of the record is the one whose page stands there (log entry 107). -/
def execPieces (h : Header) (tm : Team) (w : Nat) : Pieces :=
  let wp := tm.warp w
  let routine := tm.frags.any fun f => f.warp == w && f.priv && f.st != .waiting .host && !f.fromFrame
  let fs := tm.warpFrags w
  [piece 0 1 (warpState h tm w), piece 2 1 (bit wp.frame), piece 3 1 (bit routine), piece 4 4 (tm.repeatsOf w)
   , piece 8 8 (((fs.map (·.claim)).filter (· != 0)).headD 0)]

/-- R216, R220: the pending flag of a repeated `PHAW` stays set until the `PHAW` succeeds (log entry 114). -/
def regEntry (r : Registration) : Pieces :=
  [piece 0 2 r.handle, piece 2 1 r.mode, piece 3 1 (bit (r.pending || r.again)), piece 4 2 r.phase]

/-- From the registration list to the expired masks of the register areas. -/
def controlPieces (h : Header) (tm : Team) (w : Nat) : Pieces :=
  let ents := tm.warpSplits w
  let fs := (tm.warpFrags w ++ tm.homeRecords w).take 33
  each 8 regEntry (tm.warp w).regs
    ++ seq 32 64 (splitEntry (· % h.lanes) ents) ents
    ++ seq 24 1088 (fragEntry ents) fs
    ++ seq 32 1880 winEntries fs
    ++ Pieces.at_ (regPieces.warpThreads' h tm w |>.flatMap fun x =>
        wideMask (32 * x.1) 4 (maskOf (tm.thread x.2).vx) ++ [piece (32 * h.lanes + 8 + x.1) 1 (maskOf (tm.thread x.2).px)]) 2936
    ++ [piece (2936 + 32 * h.lanes) 8 (maskOf (tm.warp w).wx)]

/-! ## Writing -/

/-- R345: the directory of a section. -/
def sectionDirectory (h : Header) (t : Nat) : Pieces :=
  (List.range 10).flatMap fun i => [piece (16 * i) 8 (h.partAt t i), piece (16 * i + 8) 8 (roundUp ((h.parts t).getD i 0) 256)]

/-- The parts of a section before the warps, with the directory: `scratch` is the content of the allocation, and the team
contributes to `live` accumulators. -/
def Team.sectionPieces (tm : Team) (h : Header) (t : Nat) (scratch : Pieces) (live : Nat) (bins : List (Nat × Bin)) : Pieces :=
  sectionDirectory h t ++ ([identityPart tm, scratch, wideMask 0 6 (maskOf tm.owned), accPart tm, phaserPart tm, each 48 (nodeEntry tm) tm.nodes
    , queuePart tm, [piece 0 8 live], tm.arbourPart bins t].zipIdx.flatMap fun x => Pieces.at_ x.1 (h.partAt t x.2))

/-- The content of a team's scratchpad. -/
def State.scratchPieces (s : State) (tm : Team) (h : Header) (t : Nat) : Pieces :=
  let base := placeScratch tm.core (1024 * tm.base)
  (s.mem.slice base (h.scratchSize t)).map fun c => (c.1 - base, [c.2])

/-- A range of the save area, cleared and written. -/
def State.saveRange (s : State) (ln : Launch) (die off n : Nat) (ps : Pieces) : Except Denied State :=
  s.savePieces (.unit ln.id) ln.pf (s.queue ln.pf ln.q).ctx die (ln.save + off) n ps (n / 16384 + 2)

/-- R346: the warp record, but for the frame that it holds. -/
def State.saveWarp (s : State) (ln : Launch) (tm : Team) (die w : Nat) : Except Denied State :=
  let h := ln.hdr
  let at_ := ln.recordAt tm.num w
  (s.saveRange ln die at_ h.areas (regPieces h tm w)).bind fun s =>
    (s.saveRange ln die (at_ + h.execAt) 16 (execPieces h tm w)).bind fun s =>
      (s.saveRange ln die (at_ + h.regsAt) (2936 + h.maskSet) (controlPieces h tm w)).bind fun s =>
        s.saveRange ln die (at_ + h.masksAt + 2 * h.maskSet) (h.recordSize - (h.masksAt + 2 * h.maskSet)) []

def State.saveWarps (s : State) (ln : Launch) (tm : Team) (die : Nat) : List Nat → Except Denied State
  | [] => .ok s
  | w :: l => (s.saveWarp ln tm die w).bind fun s => s.saveWarps ln tm die l

/-- R84: the slot of a transient result that a window still holds takes its value. -/
def Team.slots (tm : Team) : Team := tm.frags.foldl (fun tm fr => tm.materialize fr true) tm

/-- R345: a team section, with the scratchpad content and the bins given; what is left of the Warps part after its records is 0. -/
def State.saveSection (s : State) (ln : Launch) (tm : Team) (scratch : Pieces) (bins : List (Nat × Bin)) : Except Denied State :=
  let tm := tm.slots
  let die := dieOfCore tm.core
  let h := ln.hdr
  let live := (s.exacts.filter fun x => x.by_.contains tm.id).length
  let at_ := h.sectionAt ln.t tm.num
  let records := h.partAt ln.t 9 + tm.warps.length * h.recordSize
  (s.saveRange ln die at_ (h.partAt ln.t 9) (tm.sectionPieces h ln.t scratch live bins)).bind fun s =>
    (s.saveWarps ln tm die (List.range tm.warps.length)).bind fun s =>
      s.saveRange ln die (at_ + records) (h.sectionSize ln.t - records) []

def State.saveTeams (s : State) (ln : Launch) : List Team → Except Denied State
  | [] => .ok s
  | tm :: l => (s.saveSection ln tm (s.scratchPieces tm ln.hdr ln.t) (s.binsOf tm)).bind fun s => s.saveTeams ln l

/-- R213, R347: the teams of a halted grid that have not started are recorded as they start (R78). -/
def State.saveFresh (s : State) (ln : Launch) : List Team → Except Denied State
  | [] => .ok s
  | tm :: l => (s.saveSection ln tm [] []).bind fun s => s.saveFresh ln l

/-- A team that has completed has no state to record: its identity part holds no team state (log entry 15). -/
def State.saveGone (s : State) (ln : Launch) (die : Nat) : List Nat → Except Denied State
  | [] => .ok s
  | k :: l => (s.saveRange ln die (ln.hdr.sectionAt ln.t k) (ln.hdr.partAt ln.t 1) (sectionDirectory ln.hdr ln.t)).bind fun s => s.saveGone ln die l

/-- The phasers of die and device scope of a grid, with their handles. -/
def State.gridPhasers (s : State) (ln : Launch) : List (Nat × Phaser) :=
  ln.phasers.filterMap fun h => (lookup (hIndex h) (s.die (hDie h)).phasers).map fun p => (h, p)

/-- A Maze program slot: its program, and whether the grid has loaded it. -/
def slotEntry (loaded : Bool) (prog : Option (List Word)) : Pieces :=
  match prog with
  | some ws => [piece 0 4 (bit loaded * 2 ^ 31 + ws.length)] ++ wordPieces 16 ws
  | none => []

/-- R345: the grid section, of a grid with its phasers, its loaded slots and the programs of its context. -/
def gridPieces (gang : Bool) (ps : List (Nat × Phaser)) (loaded : List Nat) (progs : List (Option (List Word))) : Pieces :=
  [piece 0 4 (bit gang), piece 4 4 ps.length]
    ++ ((List.range 8).flatMap fun i => Pieces.at_ (slotEntry (loaded.contains i) (progs.getD i none)) (256 + 144 * i))
    ++ seq 16 1536 (fun (x : Nat × Phaser) => phaserEntry x.1 x.2) ps

def State.gridPieces (s : State) (ln : Launch) : Pieces :=
  Machine.gridPieces ln.hdr.gang (s.gridPhasers ln) ln.slotsLoaded (s.ctx ln.pf (s.queue ln.pf ln.q).ctx).slots

/-- R344: the header of a resume image. -/
def imageHeader (ln : Launch) : Pieces :=
  [piece 0 4 (2 * 2 ^ 24 + 2 ^ 16), piece 8 8 ln.entry] ++ ln.dims.zipIdx.map (fun x => piece (16 + 4 * x.2) 4 x.1)
    ++ [piece 28 4 ln.t] ++ wordPieces 32 ln.args ++ [piece 96 8 ln.save, piece 104 8 ln.saveSize, piece 112 8 256, piece 120 8 ln.nteam]

/-- R347: the sections of the teams that are saved, the grid section, and the header last. Where the grid halts, the teams
that have not started (`fresh`) and those that have completed (`gone`) have their sections too. -/
def State.saveImage (s : State) (ln : Launch) (ts fresh : List Team) (gone : List Nat) (die : Nat) : Except Denied State :=
  (s.saveTeams ln ts).bind fun s => (s.saveFresh ln fresh).bind fun s => (s.saveGone ln die gone).bind fun s =>
    (s.saveRange ln die 256 gridSection (s.gridPieces ln)).bind fun s => s.saveRange ln die 0 256 (imageHeader ln)

end Sys2Proof.Machine
end

