-- ==== Sys2Proof/Machine/Resume.lean ====
section
/-! DEFINITION. Reading a resume image (R344 to R347): the launch takes every team from the bytes of its section. A section
that the device's own record of the image stands for (log entry 15) gives the team as it was saved; of any other the parts are
read back, and a part whose values break its layout, so that it would not be written like that, refuses the launch. -/

namespace Sys2Proof.Machine

/-- `n` bytes at an offset, as a number. -/
def num (bs : List Byte) (i n : Nat) : Nat := leNat ((bs.drop i).take n)

/-- Records of one size. -/
def recs (size n : Nat) (bs : List Byte) : List (List Byte) := (List.range n).map fun i => (bs.drop (size * i)).take size

def wordsAt (bs : List Byte) (i n : Nat) : List Word := (List.range n).map fun k => BitVec.ofNat 32 (num bs (i + 4 * k) 4)

/-- Do bytes stand as pieces lay them out? A byte that no piece names is 0. -/
def standsAs (ps : Pieces) (bs : List Byte) : Bool :=
  bs.zipIdx.all fun b => b.1 == ((ps.find? fun x => x.1 ≤ b.2 && b.2 < x.1 + x.2.length).map fun x => x.2.getD (b.2 - x.1) 0).getD 0

/-- Bytes with the bits that a mask of each place leaves. -/
def keepBits (mask : Nat → Nat) (bs : List Byte) : List Byte := bs.zipIdx.map fun b => b.1 &&& BitVec.ofNat 8 (mask b.2)

/-- A byte of a mask. -/
def maskByte (m i : Nat) : Nat := m / 2 ^ (8 * i) % 256

/-- R79, R346: the fields of a tile descriptor and of a window entry. -/
def tileFields : Nat := 0x80FFFFFFFF03FFFF
def entryFields : Nat := 0xC71F00FF

/-- R9: the bits of a section that are not reserved. `sr.rxwin` (R117), the tile descriptors (R79) and the window entries have
reserved bits, and a warp record ends in reserved bytes; the device ignores what stands there. -/
def sectionMask (h : Header) (t i : Nat) : Nat :=
  let win := h.partAt t 0 + 16
  let tiles := h.partAt t 3
  let gfrags := h.partAt t 8 + 156160 + 80 * (t + 512)
  let warps := h.partAt t 9
  let j := (i - warps) % h.recordSize
  let k := (i - gfrags) % 56
  if win ≤ i ∧ i < win + 8 then maskByte (windowFields (BitVec.allOnes 64)).toNat (i - win)
  else if tiles ≤ i ∧ i < tiles + 128 then maskByte tileFields ((i - tiles) % 8)
  else if gfrags ≤ i ∧ i < gfrags + 56 * (t + 512) then if k < 24 then 255 else maskByte entryFields (k % 4)
  else if i < warps then 255
  else if h.winsAt ≤ j ∧ j < h.winsAt + 1056 then maskByte entryFields ((j - h.winsAt) % 4)
  else if j < h.masksAt + 2 * h.maskSet then 255
  else 0

/-- R9, R345: the bits of a grid section that are not reserved. -/
def gridMask (i : Nat) : Nat := if (8 ≤ i ∧ i < 256) ∨ (1408 ≤ i ∧ i < 1536) then 0 else 255

/-! ## Team parts (R345) -/

def readPhaser (bs : List Byte) : Option Phaser :=
  if num bs 12 1 = 1 then some { p := num bs 2 2, n := num bs 4 4, a := num bs 8 4 } else none

def NodeState.ofCode : Nat → NodeState
  | 0 => .free
  | 1 => .armed
  | 2 => .launched
  | _ => .done

/-- A node; `ids` are the command records' numbers. -/
def readNode (ids : List Nat) (bs : List Byte) : Node :=
  let v := num bs 8 1
  { st := NodeState.ofCode (num bs 0 1), pred := num bs 1 1, k := intVal 16 true (num bs 2 2), succ := (List.range 4).map fun i => num bs (4 + i) 1
    valid := (List.range 4).map fun i => v.testBit i, pty := v / 16 % 4, cmd := ids[num bs 10 2]?, overflow := v.testBit 6, failed := false
    ph := if num bs 14 1 = 1 then some (num bs 12 2) else none, slot := none, entry := num bs 16 8, arg0 := BitVec.ofNat 32 (num bs 24 4)
    arg1 := BitVec.ofNat 32 (num bs 28 4) }

/-- The frame record of a queue register, which has taken `subs` submissions. -/
def readOpen (subs : Nat) (bs : List Byte) : QueueReg :=
  { owner := if num bs 1 1 = 1 then some (num bs 2 2) else none, words := wordsAt bs 16 (num bs 0 1), subs }

/-- R334, R335: has a completed command ended as a walk of policy 2 that faulted, of whose words none has been popped? The pop of its
first word traps. -/
def walkFaulted (words results : List Word) : Bool :=
  results.length == 1 + wn words 6 / 2 ^ 5 % 32 + bit (ctlRw (wn words 1)) && cmdKind (wn words 0) == 3 && cmdOpc (wn words 0) == 1 && (words.getD 6 0).toNat / 8 % 4 == 2 && (results.getD 0 0).toNat / 2 ^ 28 == 4

/-- A command record; the tile descriptors are read again (R298). A Pergola command goes on at its index (R329); of a walk that
faulted the first result word gives the cause (R335). -/
def readCmd (tiles : List DWord) (id : Nat) (bs : List Byte) : Cmd :=
  let words := wordsAt bs 0 16
  let ts := cmdTiles tiles words
  let results := wordsAt bs 88 (num bs 80 4)
  let failed := num bs 65 1 == 3 && walkFaulted words results
  { (default : Cmd) with
    id, q := num bs 64 1, words, sub := num bs 68 4, idx := num bs 72 8, results, tiles := ts
    issued := cmdKind (wn words 0) == 2 && num bs 72 8 != 0, fault79 := failed, status := if failed then 0x03 else 0
    cause := if failed then (results.getD 0 0).toNat / 2 ^ 20 % 256 else 0
    grans := dedup (ts.flatMap fun x => tileGrans x.2)
    st := match num bs 65 1 with
      | 1 => .held
      | 3 => .complete
      | _ => .launched }

def readAcc (bs : List Byte) : List (Nat × Word) :=
  (List.range 4096).filterMap fun i => if num bs (4 * i) 4 = 0 then none else some (i, BitVec.ofNat 32 (num bs (4 * i) 4))

/-! ## Fragments and split stacks (R346) -/

/-- A window of eight entries. -/
def readWin (bs : List Byte) : List WindowEntry :=
  (List.range 8).map fun i => WindowEntry.ofCode (num bs (4 * i) 4)

/-- A split-stack entry of a warp or a group; `tids` gives the thread of a rank, `ids` are the entries' numbers. -/
def readSplit (w : Nat) (grp : Option Nat) (tids : Nat → List Nat) (ids : List Nat) (id : Nat) (bs : List Byte) : Split :=
  { id, warp := w, grp, reconv := num bs 0 8, mem := (bitsOf 64 (num bs 8 8)).flatMap tids, arrived := (bitsOf 64 (num bs 16 8)).flatMap tids
    parent := ids[num bs 24 1]? }

/-- A fragment record with its window. `routine` says that a trapped fragment runs its routine. No accumulator is outstanding: the
image has no place for a retired one (log entry 15). -/
def readFrag (w : Nat) (grp : Option Nat) (mem : Nat → List Member) (ids : List Nat) (routine : Bool) (id : Nat) (bs win : List Byte) : Frag :=
  let code := num bs 17 1
  { (default : Frag) with
    id, warp := w, grp, mem := (bitsOf 64 (num bs 8 8)).flatMap mem, pc := num bs 0 8, ent := ids[num bs 16 1]?, partial_ := num bs 18 1 = 1
    win := readWin win, held := code == 3, priv := code == 4 && routine, fromFrame := code == 4 && !routine
    st := match code with
      | 1 => .parked
      | 2 => .switchParked
      | _ => .running }

/-! ## Warps (R346) -/

/-- A warp's record without its frame areas, as they stand in `bs`. -/
def readWarp (h : Header) (bs : List Byte) : Warp :=
  { w := wordsAt bs (32 * h.vgran * h.lanes) (8 * h.ugran), wx := bitsOf 64 (num bs (h.masksAt + 32 * h.lanes) 8)
    regs := (recs 8 8 (bs.drop h.regsAt)).filterMap fun r => if num r 0 2 = 0 then none
      else some { handle := num r 0 2, mode := num r 2 1, pending := num r 3 1 == 1, phase := num r 4 2, again := num r 3 1 == 1 }
    mode := .normal, repcnt := num bs (h.execAt + 4) 4, frame := num bs (h.execAt + 2) 1 == 1, again := none, stored := [], logs := [] }

/-- The thread in lane `l`. -/
def readThread (h : Header) (bs : List Byte) (l : Nat) : Thread :=
  let p := 32 * h.vgran * h.lanes + 32 * h.ugran
  { (default : Thread) with
    v := (List.range (8 * h.vgran)).map fun r => BitVec.ofNat 32 (num bs (4 * h.lanes * r + 4 * l) 4)
    p := (List.range 7).map fun r => (num bs (p + 8 * r) 8).testBit l, vx := bitsOf 256 (num bs (h.masksAt + 32 * l) 32)
    px := bitsOf 7 (num bs (h.masksAt + 32 * h.lanes + 8 + l) 1) }

/-- The numbers of the records of a warp, or of a group, that are numbered from `n`: its entries', then its fragments'. -/
def entIds (n : Nat) : List Nat := (List.range 64).map (n + ·)
def fragIds (n : Nat) : List Nat := (List.range 64).map (n + 64 + ·)

/-- The split stack of warp `w` and its fragments. -/
def readStack (h : Header) (t n w : Nat) (bs : List Byte) : List Split × List Frag :=
  let mine (r : Nat) : List Nat := (warpThreads h t w).filter fun i => i % h.lanes == r
  let ents := ((recs 32 32 (bs.drop h.splitAt)).filter fun r => num r 8 8 != 0).zip (entIds n)
  let fs := ((recs 24 33 (bs.drop h.fragsAt)).zip (recs 32 33 (bs.drop h.winsAt))).filter fun r => num r.1 8 8 != 0
  let routine := num bs (h.execAt + 3) 1 == 1
  (ents.map fun r => readSplit w none mine (entIds n) r.2 r.1,
    (fs.zip (fragIds n)).map fun r => readFrag w none (fun k => (mine k).map (homeMember h)) (entIds n) routine r.2 r.1.1 r.1.2)

/-- R235, R183: a `CLAIM` and a repeat in progress go on, the one claim that the record has room for at the warp's first fragment
(log entry 107); `rep` is what stands before the instruction at a fragment's pc. -/
def resumeCounts (rep : Nat → Option Repeat) (count claim : Nat) : List Frag → List Frag
  | [] => []
  | f :: l =>
    let again := if count = 0 then none else (rep f.pc).map fun r => { r with left := count }
    { f with claim, rep := again } :: if again.isSome then l else resumeCounts rep count 0 l

/-! ## The Arbour part (R345) -/

def readBin (team : Nat) (bs : List Byte) : Bin :=
  { team, key := num bs 0 8, tids := (List.range (num bs 8 4)).map fun i => (num bs (16 + 4 * i) 4, (num bs 12 4 : Int)), aged := false }

/-- A queued child, with its number. -/
def readSpawn (base : Nat) (bs : List Byte) : Nat × Thread :=
  (base + num bs 20 4, { (default : Thread) with
    v := wordsAt bs 8 2 ++ List.replicate 14 0, p := List.replicate 7 false, child := true, queued := true, entered := true
    parent := num bs 16 4, resume := num bs 0 8 })

/-- A live child, with its number. -/
def readChild (bs : List Byte) : Nat × Thread :=
  (num bs 68 4, { (default : Thread) with
    v := wordsAt bs 0 16, p := (List.range 7).map fun r => (num bs 64 1).testBit r, vx := bitsOf 16 (num bs 65 2), px := bitsOf 7 (num bs 67 1)
    child := true, entered := true, parent := num bs 72 4 })

/-- The members of group `g`, of the threads' entries, at the ranks that its fragments name. -/
def readMembers (entries : List (List Byte)) (g : Nat) (ranks : List Nat) : List Member :=
  ((entries.filter fun e => num e 4 4 == g).zip ranks).map fun x =>
    let c := num x.1 8 4
    { rank := x.2, tid := num x.1 0 4, lane := c / 2 ^ 24 % 32, pass := c / 2 ^ 29 % 2, reloc := c.testBit 30 }

/-- Group number `g`, with its split stack and its fragments. `warp` is that of its first member, unless another's frame holds
the trap of one of its fragments (R56). -/
def readGroup (h : Header) (frames : List Nat) (routine : Nat → Bool) (n g : Nat) (entries : List (List Byte)) (group splits frags : List Byte) :
    List Split × List Frag :=
  let ss := recs 32 (num group 16 4) (splits.drop (32 * num group 12 4))
  let fs := recs 56 (num group 24 4) (frags.drop (56 * num group 20 4))
  let ms := readMembers entries g (bitsOf 64 (fs.foldl (fun m f => m ||| num f 8 8) 0))
  let at_ (r : Nat) : List Member := ms.filter fun m => m.rank == r
  let home := (ms.map fun m => m.tid / h.lanes).headD 0
  let warp := if (fs.any fun f => num f 17 1 == 4) && !frames.contains home then frames.headD home else home
  ((ss.zip (entIds n)).map fun r => readSplit warp (some n) (fun k => (at_ k).map (·.tid)) (entIds n) r.2 r.1,
    (fs.zip (fragIds n)).map fun r =>
      { readFrag warp (some n) at_ (entIds n) (routine warp) r.2 r.1 (r.1.drop 24) with key := num group 0 8 })

/-- A relocated thread's live mask. -/
def readReloc (tm : Team) (bs : List Byte) : Team :=
  if num bs 0 4 = 0 ∧ num bs 8 4 = 0 then tm
  else tm.modThread (num bs 0 4) fun th => { th with live := BitVec.ofNat 32 (num bs 8 4), reloc := true }

/-- R57: the fragments of a region's warps whose threads the join or the groups have are those that ended at `RFOPEN`. -/
def readRegion (kids : Nat) (away : Nat → Bool) (tm : Team) : Team :=
  let home (f : Frag) : Bool := f.grp.isNone && f.st == .parked && f.mem.all fun m => away m.tid || f.pc != 0 &&
    !(tm.splits.any fun x => some x.id == f.ent && x.arrived.contains m.tid)
  let hs := tm.frags.filter home
  let tm := hs.foldl (fun tm f => f.mem.foldl (fun tm m => tm.modThread m.tid fun th =>
    { th with entered := true, done := !away m.tid, resume := f.pc }) tm) { tm with frags := tm.frags.filter fun f => !home f }
  { tm with region := some { join := 0, kids, homes := hs.map fun f => { frag := f.id, warp := f.warp, ent := f.ent, mem := f.mem } } }

/-! ## A section -/

/-- The bytes of part `i` of a section. -/
def partOf (h : Header) (t : Nat) (bs : List Byte) (i : Nat) : List Byte := (bs.drop (h.partAt t i)).take ((h.parts t).getD i 0)

def warpRecords (h : Header) (t : Nat) (bs : List Byte) : List (List Byte) := recs h.recordSize (warpCount h t) (partOf h t bs 9)

/-- The threads of a team, exited but for those that a fragment or a home record names, and its children in their places. -/
def readThreads (h : Header) (t kids : Nat) (ws : List (List Byte)) (live : List Nat) (children : List (Nat × Thread)) : List Thread :=
  ((List.range t).map fun i => { readThread h (ws.getD (i / h.lanes) []) (i % h.lanes) with exited := !live.contains i }) ++
    (List.range kids).map fun k => (lookup (t + k) children).getD
      { (default : Thread) with v := List.replicate 16 0, p := List.replicate 7 false, child := true, exited := true, done := true }

/-- R84: the window of a fragment holds the values of its transient results again. -/
def Team.rearmed (tm : Team) (fr : Frag) : Team :=
  let val (c : RegClass) (i r : Nat) : Word := match c with
    | .vector => (tm.thread i).v.getD r 0
    | .predicate => BitVec.ofNat 32 (bit ((tm.thread i).p.getD r false))
    | _ => (tm.warp fr.warp).w.getD r 0
  let win := rearm val (fr.mem.map (·.tid)) [] fr.win
  (tm.expire fr.warp win).modFrag fr.id fun f => { f with win }

/-- R456, R458: what a fragment in its routine or at its frame needs of the frame header: whether the frame is whole. -/
def readWhole (h : Header) (ws : List (List Byte)) (fr : Frag) : Frag :=
  if fr.priv || fr.fromFrame then { fr with wholeAt := (num (ws.getD fr.warp []) (h.headAt + 8) 4).testBit 27 } else fr

/-- R345, R346: the team that a section holds, with its bins; its objects are numbered from `n` on. `rep` reads a prefix. -/
def readTeam (ln : Launch) (rep : Nat → Option Repeat) (n : Nat) (bs : List Byte) : Team × List (Nat × Bin) :=
  let h := ln.hdr
  let t := ln.t
  let part := partOf h t bs
  let who := part 0
  let arb := part 8
  let ws := warpRecords h t bs
  let kids := num who 12 4
  let tiles := (List.range 16).map fun i => BitVec.ofNat 64 (num (part 3) (8 * i) 8)
  let cmds := (((recs 160 h.queues ((part 6).drop 640)).filter fun r => num r 65 1 != 0).zipIdx).map fun r => readCmd tiles (n + r.2) r.1
  let frames := (List.range ws.length).filter fun w => num (ws.getD w []) (h.execAt + 2) 1 == 1
  let routine (w : Nat) : Bool := num (ws.getD w []) (h.execAt + 3) 1 == 1
  let pairs := ws.zipIdx.map fun w =>
    let x := readStack h t (n + 128 * w.2) w.2 w.1
    (x.1, resumeCounts rep (if frames.contains w.2 then 0 else num w.1 (h.execAt + 4) 4) (num w.1 (h.execAt + 8) 8) x.2)
  let repeats (w : Nat) : Nat := if frames.contains w || (pairs.getD w ([], [])).2.any (·.rep.isSome) then 0 else num (ws.getD w []) (h.execAt + 4) 4
  let entries := recs 16 (t + 512) (arb.drop 156160)
  let groups := (((recs 32 (t + 512) (arb.drop (156160 + 16 * (t + 512)))).filter fun g => num g 8 4 != 0).zipIdx).map fun g =>
    let x := readGroup h frames routine (n + 128 * (ws.length + g.2)) g.2 entries g.1 (arb.drop (156160 + 48 * (t + 512))) (arb.drop (156160 + 80 * (t + 512)))
    (x.1, resumeCounts rep (repeats ((x.2.map (·.warp)).headD 0)) 0 x.2)
  let children := ((recs 96 512 (arb.drop 107008)).filter fun r => num r 68 4 != 0).map readChild ++
    ((recs 24 4096 (arb.drop 8704)).filter fun r => r.any (· != 0)).map (readSpawn t)
  let bins := ((recs 272 32 arb).filter fun r => num r 8 4 != 0).map (readBin n)
  let drawn := groups.flatMap fun g => g.2.flatMap fun f => f.mem.map (·.tid)
  let filed := bins.flatMap fun b => b.tids.map (·.1)
  let live := pairs.flatMap fun x => x.2.flatMap fun f => f.mem.map (·.tid)
  let tm : Team := { (default : Team) with
    id := n, launch := ln.id, num := num who 0 4, st := .saved, threads := readThreads h t kids ws live children, warps := ws.map (readWarp h)
    frags := (pairs.flatMap (·.2) ++ groups.flatMap (·.2)).map (readWhole h ws), splits := pairs.flatMap (·.1) ++ groups.flatMap (·.1)
    tiles, accs := (recs 16384 h.accs ((part 3).drop 128)).map readAcc, phasers := (recs 16 64 (part 4)).map readPhaser
    queues := (recs 80 8 (part 6)).zipIdx.map fun r => readOpen (((cmds.filter fun c => c.q == r.2).map fun c => c.sub + 1).foldl max 0) r.1
    cmds, nodes := (recs 48 h.nodes (part 5)).map (readNode (cmds.map (·.id))), owned := bitsOf 384 (num (part 2) 0 48), rxwin := BitVec.ofNat 64 (num who 16 8) }
  let tm := drawn.foldl (fun tm i => tm.modThread i fun th => { th with drawn := true, entered := true, live := BitVec.allOnes 32 }) tm
  let tm := filed.foldl (fun tm i => tm.modThread i fun th => { th with entered := true, live := BitVec.allOnes 32 }) tm
  let tm := (recs 288 (min t 256) (arb.drop (156160 + 136 * (t + 512)))).foldl readReloc tm
  let tm := if num who 4 1 = 2 then readRegion kids (fun i => drawn.contains i || filed.contains i) tm else tm
  (tm.frags.foldl Team.rearmed tm, bins.map fun b =>
    ((b.tids.map fun x => warpCore h t 0 (if (tm.thread x.1).child then (tm.thread x.1).parent else x.1 / h.lanes)).headD 0, b))

/-- Does a section stand as a save of the team writes it? The scratchpad, the frames and their headers may hold any values. -/
def Team.standsIn (tm : Team) (ln : Launch) (bins : List (Nat × Bin)) (bs : List Byte) : Bool :=
  let h := ln.hdr
  let t := ln.t
  let tm := tm.slots
  let ps := tm.sectionPieces h t [] (Machine.num (partOf h t bs 7) 0 8) bins
  let one (i n : Nat) : Bool := standsAs ((ps.filter fun x => i ≤ x.1 && x.1 < i + n).map fun x => (x.1 - i, x.2)) ((bs.drop i).take n)
  one 0 (h.partAt t 1) && one (h.partAt t 2) (h.partAt t 9 - h.partAt t 2) && (warpRecords h t bs).zipIdx.all fun w =>
    standsAs (regPieces h tm w.2) (w.1.take h.areas) && standsAs (execPieces h tm w.2) ((w.1.drop h.execAt).take 16)
      && standsAs (controlPieces h tm w.2) ((w.1.drop h.regsAt).take (2936 + h.maskSet))

/-! ## An image -/

/-- R344: bytes that a launch reads, which must stand in device DRAM. -/
def State.dramRead (s : State) (own : Asker) (pf ctx die : Nat) : (fuel va n : Nat) → Except Denied (State × List Byte)
  | 0, _, _ => .ok (s, [])
  | fuel + 1, va, n =>
    if n = 0 then .ok (s, [])
    else
      let k := min n (pieceRoom va)
      match s.reachVa own pf ctx die va .read with
      | .error x => .error x
      | .ok (s, p) =>
        if !isDram p then .error (.fault s.openCause.1 s.openCause.2)
        else match s.badIn p k with
          | some _ => .error (.fault s 0x37)
          | none => (s.dramRead own pf ctx die fuel (va + k) (n - k)).map fun x => (x.1, s.mem.bytes p k ++ x.2)

/-- R183: the `REP` before the instruction at an address, where one can be read. -/
def State.repBefore (s : State) (own : Asker) (pf ctx die pc : Nat) : Option Repeat :=
  match s.dramRead own pf ctx die 2 (pc - 8) 8 with
  | .ok (_, bs) =>
    let ws := wordsAt bs 0 2
    match decode ws with
    | .ok (.rep r) => some { prefix0 := ws.getD 0 0, prefix1 := ws.getD 1 0, fields := r, left := 0 }
    | _ => none
  | .error _ => none

/-- R347: the teams of an image and their bins, from the sections of the teams `ks`; none where one breaks its layout. `old` is
what the device's record of the image holds. A section whose team has completed gives none. -/
def State.readTeams (s : State) (x : Queue) (ln : Launch) (old : SavedImage) : List Nat → Except Denied (State × Option (List Team × List (Nat × Bin)))
  | [] => .ok (s, some ([], []))
  | k :: ks =>
    let h := ln.hdr
    let size := h.sectionSize ln.t
    match s.dramRead (.queue x.num) x.pf x.ctx x.die (size / 16384 + 2) (ln.save + h.sectionAt ln.t k) size with
    | .error e => .error e
    | .ok (s, bs) =>
      let bs := keepBits (sectionMask h ln.t) bs
      let rest (s : State) (ts : List Team) (bins : List (Nat × Bin)) :=
        (s.readTeams x ln old ks).map fun y => (y.1, y.2.map fun z => (ts ++ z.1, bins ++ z.2))
      if standsAs (sectionDirectory h ln.t) (bs.take (h.partAt ln.t 1)) then rest s [] []
      else
        let own (tm : Team) : List (Nat × Bin) := old.bins.filter fun b => b.2.team == tm.id
        match old.teams.find? fun tm => tm.num == k && tm.standsIn ln (own tm) bs with
        | some tm => rest s [{ tm with launch := ln.id }] (own tm)
        | none =>
          let (tm, bins) := readTeam ln (s.repBefore (.queue x.num) x.pf x.ctx x.die) s.fresh bs
          if tm.num == k && tm.standsIn ln bins bs then
            rest { s with fresh := s.fresh + 128 * (tm.warps.length + tm.groups.length + 1) }
              [{ tm with frags := tm.frags.map Frag.unpark }] bins
          else .ok (s, none)

/-- R345: the grid section: its phasers, and the programs of the slots, with those that the grid has loaded. -/
def readGrid (bs : List Byte) : List (Nat × Phaser) × List Nat × List (Option (List Word)) :=
  let slots := recs 144 8 (bs.drop 256)
  ((recs 16 (num bs 4 4) (bs.drop 1536)).filterMap fun r => (readPhaser r).map fun p => (num r 0 2, p),
    (List.range 8).filter fun i => (num (slots.getD i []) 0 4).testBit 31,
    slots.map fun r => if num r 0 4 = 0 then none else some (wordsAt r 16 (num r 0 4 % 64)))

end Sys2Proof.Machine
end

