-- ==== Sys2Proof/Machine/HostQueues.lean ====
section
/-! DEFINITION. The host queues: doorbells, the commands of a ring and what they check before they run (R339 to R344, R354,
R358, R360, R361). -/

namespace Sys2Proof.Machine

/-! ## Doorbells (R339) -/

/-- R24: the PCIe port serves more than configuration and management only while D0's compute die runs. -/
def State.portServes (s : State) : Bool := s.hostUp && !(s.die 0).halted && !(s.die 0).off

def State.ringDoorbell (s : State) (pf q : Nat) (v : Word) : State :=
  if !s.portServes then s
  else match s.queue? pf q with
  | none => s
  | some x =>
    let n := 2 ^ x.log
    let ahead (i : Nat) : Nat := (i + n - x.head) % n
    if v.toNat < n ∧ ahead x.tail ≤ ahead v.toNat then s.modQueue pf q fun x => { x with tail := v.toNat }
    else s.queueEvent pf q 0 0x05 (2 ^ 32 + v.toNat)

def execDoorbell (pf q : Nat) (v : Word) (s : State) : Host.Outcome State Fault Refusal := .next (s.ringDoorbell pf q v)

/-! ## The next command of a queue (R340) -/

/-- R503: does a die's Pavilion read its queues? They stay in service while their die has power (R516; log entry 87). -/
def State.reads (s : State) (d : Nat) : Bool := !(s.die d).off

/-- R498, R503, R506: does a die take contexts and launches? -/
def State.serves (s : State) (d : Nat) : Bool := !(s.die d).off && !(s.die d).dout && !(s.die d).noContext

/-- R361: a queue whose host writes the run list is served as its die's list has it. -/
def State.listed (s : State) (x : Queue) : Option (Nat × Nat) :=
  if (s.ctx x.pf x.ctx).hostRuns then
    ((s.die x.die).runList.find? fun r => r.1 == x.pf && r.2.1 == x.num).map fun r => (r.2.2.1, r.2.2.2)
  else some (x.level, x.sliceUs)

def State.levelOf (s : State) (x : Queue) : Nat := ((s.listed x).map (·.1)).getD 4
def State.sliceOf (s : State) (x : Queue) : Nat := 1000 * ((s.listed x).map (·.2)).getD x.sliceUs

/-- R340: may the command in the next slot start? `ovl` says that it is a `LAUNCH` with OVL = 1. -/
def State.mayStart (s : State) (x : Queue) (ovl : Bool) : Bool :=
  x.runs.all fun r => match r.work with
    | .ended => true
    | .launch l => ovl && (s.launchOf l).started && (s.launchOf l).replay.isNone
    | .wait _ _ => false

/-- The words of the command that is next, where the queue is served and announces one. -/
def State.nextWords (s : State) (x : Queue) : Option (Except Denied (State × List Word)) :=
  if x.next = x.tail || x.suspended || !s.reads x.die || (s.listed x).isNone then none else some (s.slotWords x x.next)

/-- The command in the next slot starts as `work`. -/
def State.startSlot (s : State) (x : Queue) (ws : List Word) (work : QueueWork) : State :=
  s.modQueue x.pf x.num fun y => { y with
    runs := y.runs ++ [{ slot := x.next, word0 := ws.getD 0 0, words := ws, work }], next := (x.next + 1) % 2 ^ x.log }

/-- A command that starts and completes at once. -/
def State.oneShot (s : State) (x : Queue) (ws : List Word) (f : State → State × Nat × Nat) : State :=
  let (s, status, detail) := f (s.startSlot x ws (.wait none 0))
  s.endCommand x.pf x.num x.next status detail

def opcOf (ws : List Word) : Nat := wn ws 0 / 2 ^ 24
def ovlOf (ws : List Word) : Bool := (wn ws 0).testBit 23

/-- R340: the common layout of words 0 and 1. -/
def goodCommon (ws : List Word) : Bool := wn ws 0 / 2 ^ 16 % 64 == 0 && wn ws 1 == 0 && (opcOf ws == 1 || !ovlOf ws)

def zeroFrom (ws : List Word) (i : Nat) : Bool := (ws.drop i).all (· == 0)

/-- R341: an address in words `i` and `i + 1`, aligned. -/
def goodVa (ws : List Word) (i align : Nat) : Bool := wn ws (i + 1) < 2 ^ 24 && addrOf ws i % align == 0

/-- R341, R358: the selection words of a replay. -/
def goodSelect (ws : List Word) (npass : Nat) : Bool :=
  (List.range 6).all fun p => if p < npass then (List.range 4).all fun i => wn ws (10 + p) / 2 ^ (8 * i) % 256 < 0x14 else wn ws (10 + p) == 0

/-- R341: words 2 to 15 of a command. -/
def goodWords (ws : List Word) : Bool :=
  let size := if (wn ws 6).testBit 0 then 8 else 4
  match opcOf ws with
  | 0x01 => goodVa ws 2 256 && zeroFrom ws 4
  | 0x02 => goodVa ws 2 256 && goodVa ws 4 64 && goodVa ws 6 65536 && 1 ≤ wn ws 9 && wn ws 9 ≤ 8 && goodSelect ws (wn ws 9)
  | 0x03 => goodVa ws 2 size && wn ws 6 < 2 && zeroFrom ws 7
  | 0x04 => goodVa ws 2 size && wn ws 6 < 6 && zeroFrom ws 8
  | 0x05 => wn ws 2 < 8 && zeroFrom ws 3
  | _ => false

/-- Row `opc`: the next command of the queue starts if it is that command. A bad command completes (R340), a slot that
cannot be read suspends the queue (R493), and one whose translation waits is read again. -/
def queueRow (opc pf q : Nat) (s : State) (f : State → Queue → List Word → State) : State :=
  match s.queue? pf q with
  | none => s
  | some x =>
    match s.nextWords x with
    | none => s
    | some (.error (.fault s' c)) => if opc = 1 ∧ s.mayStart x true then s'.ringFault pf q false c else s
    | some (.error (.wait s')) => if opc = 1 ∧ s.mayStart x true then s' else s
    | some (.ok (s', ws)) =>
      let own := opcOf ws == opc || (opc == 1 && !(1 ≤ opcOf ws && opcOf ws ≤ 5))
      if !own || !s.mayStart x (opcOf ws == 1 && ovlOf ws) then s
      else if !goodCommon ws || !goodWords ws then s'.oneShot x ws fun s => (s, 0x05, x.next)
      else f s' x ws

/-! ## SIGNAL, WAITV and FLUSH (R342) -/

def valueOf (ws : List Word) : Nat := if (wn ws 6).testBit 0 then addrOf ws 4 else wn ws 4
def sizeOf_ (ws : List Word) : Nat := if (wn ws 6).testBit 0 then 8 else 4

/-- A store of the Pavilion at `.sys`. -/
def State.signalStore (s : State) (x : Queue) (va : Nat) (bs : List Byte) : Except Denied State :=
  (s.reachVa (.queue x.num) x.pf x.ctx x.die va .write).map fun y =>
    let s := if isDram y.2 then y.1.conflict y.2 true else y.1
    s.poke y.2 bs

def execSignal (pf q : Nat) (s : State) : Host.Outcome State Fault Refusal :=
  .next (queueRow 3 pf q s fun s x ws =>
    match s.signalStore x (addrOf ws 2) (leBytes (sizeOf_ ws) (valueOf ws)) with
    | .ok s => s.oneShot x ws fun s => (s, 0, 0)
    | .error (.fault s c) => s.oneShot x ws fun s => (s, 0x0A, c)
    | .error (.wait s) => s)

def execWaitv (pf q : Nat) (s : State) : Host.Outcome State Fault Refusal :=
  .next (queueRow 4 pf q s fun s x ws =>
    s.startSlot x ws (.wait (if wn ws 7 = 0 then none else some ((s.die x.die).time + 1000 * wn ws 7)) 0))

/-- R341, R342: the condition of a `WAITV`. -/
def waitHolds (cond v want : Nat) : Bool :=
  match cond with
  | 0 => v == want
  | 1 => want ≤ v
  | _ => v != want

/-- R342, R363: a `WAITV` whose value is not there yet, or not reached yet, has read `v` last; past its time-out it ends. -/
def State.waitOn (s : State) (x : Queue) (r : QueueRun) (deadline : Option Nat) (v : Nat) : State :=
  match deadline with
  | some d =>
    if d ≤ (s.die x.die).time then s.endCommand x.pf x.num r.slot 0x04 v
    else s.modQueue x.pf x.num fun y =>
      { y with runs := modWhere (fun z => z.slot == r.slot) (fun z => { z with work := .wait (some d) (BitVec.ofNat 64 v) }) y.runs }
  | none => s

/-- R342: a poll of the `WAITV` that a queue has started, its address reached as `found` says. -/
def pollWait (x : Queue) (r : QueueRun) (deadline : Option Nat) (last : DWord) (found : Except Denied (State × Nat)) : State :=
  match found with
  | .error (.fault s c) => s.endCommand x.pf x.num r.slot 0x0A c
  | .error (.wait s) => s.waitOn x r deadline last.toNat
  | .ok (s, p) =>
    let s := if isDram p then s.conflict p false else s
    let v := s.mem.nat p (sizeOf_ r.words)
    if waitHolds (wn r.words 6 / 2 % 4) v (valueOf r.words) then s.endCommand x.pf x.num r.slot 0 0 else s.waitOn x r deadline v

def execWaitvPoll (pf q : Nat) (s : State) : Host.Outcome State Fault Refusal :=
  match s.queue? pf q with
  | none => .next s
  | some x =>
    if x.suspended || !s.reads x.die then .next s
    else match x.runs.find? fun r => r.work != .ended with
      | some r => match r.work with
        | .wait d last => .next (pollWait x r d last (s.reachVa (.queue x.num) x.pf x.ctx x.die (addrOf r.words 2) .read))
        | _ => .next s
      | none => .next s

/-- R342: the three actions of a `FLUSH`, device-wide. -/
def State.flushTlb (s : State) (pf ctx : Nat) : State := s.dropTlbs fun x => x.pf == pf && x.ctx == ctx

def State.flushRo (s : State) (dies : List Nat) : State :=
  { s with cores := s.cores.map fun c => if dies.contains (dieOfCore c.1) then (c.1, { c.2 with ro := [] }) else c }

def State.cleanL2 (s : State) (dies : List Nat) : State := dies.foldl (fun s d => s.modDie d fun x => { x with dirty := [] }) s

/-- R342: has a team of a context accesses to perform that have been translated: elements of a `REDCOPY`, read-modify-writes of an
instruction, or what a warp keeps in its speculation buffer? -/
def State.translated (s : State) (pf ctx : Nat) : Bool :=
  s.teams.any fun tm => let ln := s.launchOf tm.launch
    ln.pf == pf && (s.queue pf ln.q).ctx == ctx && (tm.warps.any (fun w => !w.buf.isEmpty) || tm.cmds.any (fun c => !c.sent.isEmpty)
    || tm.frags.any fun fr => match fr.st with
      | .waiting (.rmws _ _ _) => true
      | _ => false)

/-- R342, R363: a `FLUSH` of translations that accesses have used is tried again until they are performed. -/
def execFlush (pf q : Nat) (s : State) : Host.Outcome State Fault Refusal :=
  .next (queueRow 5 pf q s fun s₀ x ws => if (wn ws 2).testBit 0 && s₀.translated pf x.ctx then s₀ else s₀.oneShot x ws fun s =>
    let dies := s.devDies pf
    let s := if (wn ws 2).testBit 0 then s.flushTlb pf x.ctx else s
    let s := if (wn ws 2).testBit 1 then s.flushRo dies else s
    let s := if (wn ws 2).testBit 2 then s.cleanL2 dies else s
    (s, 0, 0))

/-! ## Images and kernel headers (R88, R89, R344) -/

/-- R88, R89: the fields of a kernel header. -/
def headerOf (ws : List Word) : Header :=
  let n := wn ws
  { width := n 0 % 4, compat := (n 0).testBit 2, gang := (n 0).testBit 3, claim := (n 0).testBit 4
    accs := n 1 / 2 ^ 24 % 64, tiles := n 1 / 2 ^ 16 % 32, ugran := n 1 / 2 ^ 8 % 16, vgran := n 1 % 64
    priv := n 2 / 2 ^ 16 % 32, scratch := n 2 % 512, nodes := n 3 / 2 ^ 16 % 512, queues := n 3 / 2 ^ 8 % 64, shadow := n 3 % 64
    trap := addrOf ws 4 }

/-- R31, R88, R89: is a header accepted for teams of `t` threads? -/
def Header.accepted (h : Header) (t : Nat) : Bool :=
  h.width != 3 && (h.width == 0) == h.compat && h.accs ≤ 32 && h.tiles ≤ 16 && h.ugran ≤ 8 && 1 ≤ h.vgran && h.vgran ≤ 32
    && h.priv ≤ 16 && h.scratch ≤ 384 && h.nodes ≤ 256 && h.queues ≤ 64 && h.shadow ≤ 32 && h.trap % 4 == 0 && h.trap < 2 ^ 56
    && vectorsOn h t 0 ≤ Config.vectorRegisters && vectorsOn h t 1 ≤ Config.vectorRegisters && h.granules t ≤ Config.granules

/-- R344: an image header. -/
structure ImageHead where
  kind : Nat
  entry : Nat
  dims : List Nat
  t : Nat
  args : List Word
  save : Nat
  saveSize : Nat
  deriving DecidableEq, Repr

def imageOf (bs : List Byte) : ImageHead :=
  let n (i k : Nat) : Nat := leNat ((bs.drop i).take k)
  { kind := n 3 1, entry := n 8 8, dims := [n 16 4, n 20 4, n 24 4], t := n 28 4
    args := (List.range 16).map fun i => BitVec.ofNat 32 (n (32 + 4 * i) 4), save := n 96 8, saveSize := n 104 8 }

/-- R344: the layout of an image header. -/
def goodImage (bs : List Byte) : Bool :=
  let x := imageOf bs
  let zero (i k : Nat) : Bool := ((bs.drop i).take k).all (· == 0)
  let n := x.dims.foldl (· * ·) 1
  (x.kind == 1 || x.kind == 2) && leNat ((bs.drop 0).take 3) == 2 ^ 16 && zero 4 4 && zero 128 128 && (x.kind == 2 || zero 112 16)
    && x.dims.all (1 ≤ ·) && n ≤ 2 ^ 24 && 1 ≤ x.t && x.t ≤ 4096 && x.entry % 64 == 0 && x.save % 256 == 0

/-- R344, R360: why the range from `va` to `stop` does not translate to writable device DRAM. An unbacked page does. -/
def State.dramFault (s : State) (w : Who) (stop : Nat) : (fuel va : Nat) → Option Nat
  | 0, _ => none
  | fuel + 1, va =>
    if stop ≤ va then none
    else if va / 2 ^ 48 ≥ 255 then some 0x30
    else match s.leaf w va with
      | .fault c => some c
      | .remote => some 0x90
      | .bad _ => some 0x37
      | .found _ e lvl =>
        if !entryW e then some 0x42
        else
          let next := (va / 2 ^ pageBits lvl + 1) * 2 ^ pageBits lvl
          if entryU e then s.dramFault w stop fuel next
          else match s.placeOf w.pf (entryAddr e / 2 ^ pageBits lvl * 2 ^ pageBits lvl) with
            | none => some 0x43
            | some p => if isDram p then s.dramFault w stop fuel next else some s.openCause.2

def State.rangeFault (s : State) (pf ctx die va n : Nat) : Option Nat :=
  s.dramFault { pf, ctx, die, by_ := 0, team := 0, walks := true } (va + n) (n / 65536 + 2) va

/-- R343: the DETAIL of a refusal by a fault. -/
def faultDetail (c : Nat) : Nat := 2 ^ 63 + c

/-- R351, R494: the teams of a launch that fit on one core, or one pair, with nothing else there. -/
def Launch.perCore (ln : Launch) : Nat :=
  let h := ln.hdr
  let by_ (limit use : Nat) : Nat := if use = 0 then 64 else limit / use
  if isPair ln.t then 1
  else
    let slots := ((List.range 4).map fun k => by_ (Config.warpContexts / 4) (warpsOn k h ln.t 0)).foldl min 64
    [by_ Config.vectorRegisters (vectorsOn h ln.t 0), by_ Config.granules (h.granules ln.t), by_ 16 h.tiles, by_ 32 h.accs, by_ 64 h.queues
     , by_ 256 h.nodes, slots].foldl min 64

/-- R502: has trip 3 shut a die: it is halted, or its contexts are being saved? -/
def State.shut (s : State) (d : Nat) : Bool := (s.die d).halted || (s.die d).halting.isSome

/-- R484, R494, R502 to R506: may a launch place teams on a core at all? A gang may span the dies of its device (R351); any other
launch runs on the one die that places it (R349, R363; log entry 88). -/
def State.coreServes (s : State) (ln : Launch) (c : Nat) : Bool :=
  let d := dieOfCore c
  (s.devDies ln.pf).contains d && (ln.hdr.gang || ln.die == some d) && c < 192 && s.serves d && !s.shut d && !(s.die d).quadLost.contains (quadOfCore c % 4)
    && !(ln.hdr.accs != 0 && (s.core c).matFailed) && (!isPair ln.t || c % 2 == 0)

def State.gangFits (s : State) (ln : Launch) : Bool :=
  ln.nteam ≤ ln.perCore * ((List.range 192).filter (s.coreServes ln)).length

/-- R516: the die that places a launch of a queue: the queue's own, or another of the device while that one takes none. -/
def State.homeOf (s : State) (x : Queue) : Nat :=
  if s.serves x.die then x.die else ((s.devDies x.pf).find? s.serves).getD x.die

/-- What a `LAUNCH` or `REPLAY` checks before it runs: a launch to place, a refusal with its DETAIL, or a wait. -/
inductive Admitted where
  | ok (s : State) (ln : Launch)
  | refused (s : State) (detail : Nat)
  | waits (s : State)

/-- R343: what a request that ended without a place comes to. -/
def Denied.admitted : Denied → Admitted
  | .fault s c => .refused s (faultDetail c)
  | .wait s => .waits s

/-- R88, R89, R347: the launch that an image describes, with its kernel header; `resume` says that the image is of KIND 2. R31,
R89, R235: none where the header is not accepted. -/
def State.launchFrom (s : State) (x : Queue) (image : Nat) (h : ImageHead) (resume : Bool) (bs : List Byte) : Option Launch :=
  let hdr := headerOf ((wordsOf 4 16 bs).map (BitVec.ofNat 32))
  if !hdr.accepted h.t || (hdr.claim && !(s.ctx x.pf x.ctx).claim) then none
  else some { (default : Launch) with
    id := s.fresh, pf := x.pf, q := x.num, slot := x.next, die := some (s.homeOf x), image, resume, entry := h.entry, hdr, dims := h.dims
    t := h.t, args := h.args, save := h.save, saveSize := h.saveSize, nteam := h.dims.foldl (· * ·) 1, since := (s.die x.die).time }

/-- R31, R89, R235, R344, R351: the checks of a fresh image. -/
def State.acceptFresh (s : State) (x : Queue) (ln : Launch) : Admitted :=
  if ln.saveSize < ln.imageSize then .refused s ln.imageSize
  else match s.rangeFault x.pf x.ctx x.die ln.save ln.saveSize with
    | some c => .refused s (faultDetail c)
    | none => if ln.hdr.gang && !s.gangFits ln then .refused s 0 else .ok { s with fresh := s.fresh + 1, free := s.free + 1 } ln

/-- R345: the programs of the slots that a resumed grid has loaded. -/
def State.loadSlots (s : State) (pf ctx : Nat) (loaded : List Nat) (progs : List (Option (List Word))) : State :=
  s.modCtx pf ctx fun c => { c with slots := (List.range 8).map fun i => if loaded.contains i then progs.getD i none else c.slots.getD i none }

/-- R345 to R347: a resumed launch starts with the teams that its image records, and its image stands in its save area. -/
def State.acceptResume (s : State) (x : Queue) (ln : Launch) (sections offset : Nat) : Admitted :=
  let s := { s with fresh := s.fresh + 1, free := s.free + 1 }
  let old := (s.saved.find? fun i => i.pf == x.pf && i.ctx == x.ctx && i.save == ln.save && (s.launch? i.launch.id).isNone).getD
    { (default : SavedImage) with pf := x.pf, ctx := x.ctx, save := ln.save }
  if ln.image != ln.save || sections != ln.nteam || offset != 256 || ln.saveSize < ln.imageSize then .refused s 0
  else match s.rangeFault x.pf x.ctx x.die ln.save ln.saveSize with
    | some c => .refused s (faultDetail c)
    | none =>
      if ln.hdr.gang && !s.gangFits ln then .refused s 0
      else match s.dramRead (.queue x.num) x.pf x.ctx x.die 7 (ln.save + 256) gridSection with
        | .error e => e.admitted
        | .ok (s, grid) =>
        let grid := keepBits gridMask grid
          let (phasers, loaded, progs) := readGrid grid
          if !standsAs (Machine.gridPieces ln.hdr.gang phasers loaded progs) grid then .refused s 0
          else match s.readTeams x ln old (List.range ln.nteam) with
            | .error e => e.admitted
            | .ok (s, none) => .refused s 0
            | .ok (s, some (teams, bins)) =>
              let ln := { ln with nextTeam := ln.nteam, phasers := phasers.map (·.1), slotsLoaded := loaded }
              let img : SavedImage := { old with launch := ln, teams, bins, phasers }
              .ok { (s.loadSlots x.pf x.ctx loaded progs) with saved := img :: s.saved.filter fun j => j != old } ln

/-- R344: the checks of the image that a command names. `replay` takes fresh images only. -/
def State.acceptImage (s : State) (x : Queue) (image : Nat) (replay : Bool) : Admitted :=
  match s.dramRead (.queue x.num) x.pf x.ctx x.die 2 image 256 with
  | .error e => e.admitted
  | .ok (s, bs) =>
    let h := imageOf bs
    if !goodImage bs || (replay && h.kind != 1) then .refused s 0
    else match s.dramRead (.queue x.num) x.pf x.ctx x.die 2 ((h.entry + 2 ^ 64 - 64) % 2 ^ 64) 64 with
      | .error e => e.admitted
      | .ok (s, head) => match s.launchFrom x image h (h.kind == 2) head with
        | none => .refused s 0
        | some ln => if h.kind = 1 then s.acceptFresh x ln else s.acceptResume x ln (num bs 120 8) (num bs 112 8)

/-- R351: a gang's wait begins: its bound, and the cores that are drained for it (log entry 26). -/
def State.gangWait (s : State) (x : Queue) (ln : Launch) : Launch :=
  if ln.hdr.gang then
    { ln with gangBy := some ((s.die x.die).time + 1000000 * x.gangMs), drain := (List.range 192).filter (s.coreServes ln) }
  else ln

def State.addLaunch (s : State) (x : Queue) (ws : List Word) (ln : Launch) : State :=
  let s := s.startSlot x ws (.launch ln.id)
  { s with launches := s.launches ++ [s.gangWait x ln] }

def execLaunch (pf q : Nat) (s : State) : Host.Outcome State Fault Refusal :=
  .next (queueRow 1 pf q s fun s x ws =>
    match s.acceptImage x (addrOf ws 2) false with
    | .refused s d => { s.oneShot x ws fun s => (s, 0x01, d) with free := s.free + 1 }
    | .waits s => s
    | .ok s ln => s.addLaunch x ws ln)

/-! ## REPLAY (R354, R358, R360) -/

/-- R358: the counters of a device's cores at the start of a pass. -/
def State.setCounters (s : State) (pf : Nat) (sel : Word) : State :=
  let dies := s.devDies pf
  let codes := (List.range 4).map fun i => sel.toNat / 2 ^ (8 * i) % 256
  (List.range 192).foldl (fun s c => if dies.contains (dieOfCore c) then s.modCore c fun k => { k with sel := codes, pmc := [0, 0, 0, 0] } else s) s

/-- The selection word of a pass (R341). -/
def Replay.selOf (r : Replay) (p : Nat) : Word := r.sel.getD (if p < 6 then p else p - 6) 0

/-- R95: the die-scratchpad partitions of a context. -/
def State.partitions (s : State) (pf ctx : Nat) : List (Nat × Nat) :=
  let c := s.ctx pf ctx
  (s.devDies pf).map fun d => (placeDieScratch d (65536 * c.dspBase), 65536 * c.dsp)

/-- R447: where a range of addresses stands, in pieces that lie in one chunk of a spread page. -/
def State.standsAt (s : State) (w : Who) (stop : Nat) : (fuel va : Nat) → List (Nat × Nat)
  | 0, _ => []
  | fuel + 1, va =>
    if stop ≤ va then []
    else
      let n := min (stop - va) (16384 - va % 16384)
      let rest := s.standsAt w stop fuel (va + n)
      match s.leaf w va with
      | .found _ e lvl =>
        match s.placeOf w.pf (entryAddr e / 2 ^ pageBits lvl * 2 ^ pageBits lvl + va % 2 ^ pageBits lvl) with
        | some p => if entryU e then rest else (p, n) :: rest
        | none => rest
      | _ => rest

/-- R447: the capture area, the replay record, the image and the save area. -/
def State.untracked (s : State) (x : Queue) (ws : List Word) (ln : Launch) : List (Nat × Nat) :=
  let w : Who := { pf := x.pf, ctx := x.ctx, die := x.die, by_ := 0, team := 0, walks := true }
  let at_ (va n : Nat) : List (Nat × Nat) := s.standsAt w (va + n) (n / 16384 + 2) va
  at_ (addrOf ws 6) (wn ws 8 * 65536) ++ at_ (addrOf ws 4) (16 + 48 * wn ws 9) ++ at_ (addrOf ws 2) 256 ++ at_ ln.save ln.saveSize

/-- R354: a replay at the start of its pass 0, its capture area at the places of `area`. -/
def State.newReplay (s : State) (x : Queue) (ws : List Word) (ln : Launch) (area : List Nat) : Replay :=
  { record := addrOf ws 4, capture := addrOf ws 6, units := wn ws 8, npass := wn ws 9, sel := (ws.drop 10).take 6, pass := 0, sigs := []
    exempt := s.untracked x ws ln, area, pages := [], dsp := (s.partitions x.pf x.ctx).flatMap fun p => s.mem.slice p.1 p.2, bound := [], sum := 0
    startNs := (s.die x.die).time, overflow := false, abandoned := false }

/-- R360: the device translates a range before pass 0, a piece in one chunk of a spread page at a time; the pieces' places. -/
def State.reachAll (s : State) (x : Queue) (stop : Nat) : (fuel va : Nat) → Except Denied (State × List Nat)
  | 0, _ => .ok (s, [])
  | fuel + 1, va =>
    if stop ≤ va then .ok (s, [])
    else match s.reachVa (.queue x.num) x.pf x.ctx x.die va .write with
      | .error e => .error e
      | .ok (s, p) => (s.reachAll x stop fuel (va + pieceRoom va)).map fun y => (y.1, p :: y.2)

/-- R360: the replay record and the capture area translate to writable device DRAM. -/
def State.replayAreas (s : State) (x : Queue) (ws : List Word) : Except Denied (State × List Nat) :=
  let record := addrOf ws 4
  let capture := addrOf ws 6
  match (s.rangeFault x.pf x.ctx x.die record (16 + 48 * wn ws 9)).or (s.rangeFault x.pf x.ctx x.die capture (65536 * wn ws 8)) with
  | some c => .error (.fault s c)
  | none => (s.reachAll x (record + 16 + 48 * wn ws 9) 3 record).bind fun y =>
    y.1.reachAll x (capture + 65536 * wn ws 8) (4 * wn ws 8 + 1) capture

def execReplay (pf q : Nat) (s : State) : Host.Outcome State Fault Refusal :=
  .next (queueRow 2 pf q s fun s x ws =>
    let refuse (s : State) (d : Nat) : State := { s.oneShot x ws fun s => (s, 0x01, d) with free := s.free + 1 }
    match s.acceptImage x (addrOf ws 2) true with
    | .refused s d => refuse s d
    | .waits s => s
    | .ok s' ln => match s'.replayAreas x ws with
      | .error (.fault s c) => refuse s (faultDetail c)
      | .error (.wait s) => s
      | .ok (s, area) =>
        let r := s.newReplay x ws ln area
        (s.setCounters pf (r.selOf 0)).addLaunch x ws { ln with replay := some r })

end Sys2Proof.Machine
end

