-- ==== Sys2Proof/Machine/Pavilion.lean ====
section
/-! DEFINITION. The Pavilions: placement (R350, R351), pre-emption and its saves (R347, R348, R353, R372, R495), stealing
(R349), the passes of a replay (R354 to R360) and the host's run list (R496). -/

namespace Sys2Proof.Machine

def State.queueOf (s : State) (ln : Launch) : Queue := s.queue ln.pf ln.q
def State.launchLevel (s : State) (ln : Launch) : Nat := s.levelOf (s.queueOf ln)

/-- The teams of a launch that the device has saved. -/
def State.savedOf (s : State) (l : Nat) : List Team := (s.saved.filter fun i => i.launch.id == l).flatMap (·.teams)

/-- Does a launch wait for the placement of a team? -/
def State.wantsTeam (s : State) (ln : Launch) : Bool :=
  !ln.halting && (ln.nextTeam < ln.nteam || !(s.savedOf ln.id).isEmpty) && !(s.queueOf ln).suspended
    && !((s.teamsOfLaunch ln.id).any fun t => t.st == .saving) && (s.devDies ln.pf).all fun d => !s.shut d

/-- R351: is a core drained for a waiting gang of the same or a higher level? Of two such gangs of one level the earlier
goes first (log entry 26). -/
def State.drained (s : State) (ln : Launch) (c : Nat) : Bool :=
  s.launches.any fun g => g.id != ln.id && g.drain.contains c
    && (s.launchLevel g < s.launchLevel ln || (s.launchLevel g == s.launchLevel ln && (!ln.hdr.gang || g.id < ln.id)))

/-- R351: a gang waits again, after a pre-emption or for the next pass of a replay: cores are drained for it. The time-out is that
of a gang that has run nothing (log entry 26). -/
def State.regang (s : State) (l : Nat) : State :=
  let ln := s.launchOf l
  if ln.hdr.gang then s.modLaunch l fun x => { x with drain := (List.range 192).filter (s.coreServes ln) } else s

/-! ## Placing one team (R350) -/

/-- R106, R150: before the first team of a grid starts on a core, the core's L1 and its read-only cache are emptied; a team that resumes
there performs an acquire, which leaves the read-only cache as it is. -/
def State.freshCaches (s : State) (ln : Launch) (c : Nat) (resume : Bool) : State :=
  (if isPair ln.t then [c, c + 1] else [c]).foldl (fun s c => s.modCore c fun k =>
    if !k.grids.contains ln.id then { k with l1 := [], ro := [], grids := ln.id :: k.grids }
    else if resume then { k with l1 := [] } else k) s

/-- R348: a queue that starts to hold cores gets a time slice, and the other queues of the level come before it in the round, which
there is none of where the host runs the list (R361). -/
def State.beginSlice (s : State) (ln : Launch) : State :=
  let held := s.teams.any fun t => (s.launchOf t.launch).pf == ln.pf && (s.launchOf t.launch).q == ln.q
  if held then s
  else s.modQueue ln.pf ln.q fun x =>
    { x with
      sliceEnd := (s.die x.die).time + s.sliceOf x
      served := if (s.ctx ln.pf x.ctx).hostRuns then x.served else (s.queues.map (·.served)).foldl max 0 + 1 }

/-- A fresh team on a core that it fits on. -/
def State.startTeam (s : State) (ln : Launch) (c base : Nat) : State :=
  let tm := freshTeam ln s.fresh ln.nextTeam c base (s.fresh + 1)
  let s := (s.beginSlice ln).freshCaches ln c false
  let s := { s with
    mem := s.mem.clear (placeScratch c (1024 * base)) (ln.hdr.scratchSize ln.t)
    teams := s.teams ++ [tm], fresh := s.fresh + 1 + tm.frags.length }
  s.modLaunch ln.id fun x => { x with nextTeam := x.nextTeam + 1, started := true, gangBy := none, drain := [] }

/-- The bytes of a saved team's scratchpad return from its section. -/
def State.loadScratch (s : State) (ln : Launch) (die : Nat) : (fuel va dst n : Nat) → Except Denied State
  | 0, _, _, _ => .ok s
  | fuel + 1, va, dst, n =>
    if n = 0 then .ok s
    else
      let k := min n (pieceRoom va)
      match s.reachVa (.unit ln.id) ln.pf (s.queueOf ln).ctx die va .read with
      | .error x => .error x
      | .ok (s, p) => { s with mem := s.mem.copy p dst k }.loadScratch ln die fuel (va + k) (dst + k) (n - k)

/-- R303, R337: the commands of a resumed team are at their engines again, in the order in which they launched (R316); `all` are
the team's commands and their indices. -/
def relaunch (order : Nat) (all : List (Cmd × Nat)) (x : Cmd × Nat) : Cmd :=
  let before (y : Cmd × Nat) : Bool := y.1.order < x.1.order || (y.1.order == x.1.order && y.2 < x.2)
  if x.1.st == .launched then { x.1 with order := order + (all.filter before).length } else x.1

def relaunchCmds (order : Nat) (l : List Cmd) : List Cmd := l.zipIdx.map (relaunch order l.zipIdx)

/-- R81: `sr.repcnt` is 0 outside an interrupted `REP`, whatever the image of a team that is in none holds. -/
def Team.noRepeats (tm : Team) : Team :=
  let inRep (w : Nat) : Bool := tm.frags.any fun f => f.warp == w && !f.priv && f.rep.isSome
  { tm with warps := tm.warps.zipIdx.map fun x => if x.1.frame || inRep x.2 then x.1 else { x.1 with repcnt := 0 } }

/-- A saved team as it stands on a core. A read-only line that was loaded before is none of its own (R106, R149, log entry 111). -/
def Team.placedAt (tm : Team) (h : Header) (t c base order now : Nat) : Team :=
  { tm.noRepeats with
    core := c, base, st := if tm.region.isSome then .regionOpen else .resident, watchdog := now, roSince := order + 1
    frags := tm.frags.map fun f => { f with ready := 0, after := 0, slot := none }
    cmds := relaunchCmds order (tm.cmds.map fun x => { x with core := warpCore h t c x.warp }) }

/-- Bins go into free places of their cores. -/
def putBins (bins : List (Option Bin)) : List Bin → List (Option Bin)
  | [] => bins
  | b :: l => putBins (match bins.findIdx? (·.isNone) with
    | some i => setNth i (some b) bins
    | none => bins) l

/-- R68: the bins of a saved team, with the ages that they had, and its queued children. -/
def State.restoreArbour (s : State) (tm : Team) (bins : List (Nat × Bin)) (c : Nat) : State :=
  let s := [0, 1].foldl (fun s j =>
    let mine := (bins.filter fun b => b.1 == j && b.2.team == tm.id).map (·.2)
    if mine.isEmpty then s
    else s.modCore (c + j) fun k =>
      let aged (b : Bin) : Bin := { b with tids := b.tids.map fun x => (x.1, k.cycle - x.2) }
      { k with bins := putBins k.bins (mine.map aged) }) s
  (tm.kidsBy true).foldl (fun s i => s.modCore (s.coreOf tm.id i) fun k => { k with spawn := k.spawn ++ [(tm.id, i)] }) s

/-- What a saved team needs on a core besides R350: bins, spawn-queue entries and child contexts. -/
def State.arbourFits (s : State) (tm : Team) (bins : List (Nat × Bin)) (c : Nat) : Bool :=
  [0, 1].all fun j =>
    ((bins.filter fun b => b.1 == j && b.2.team == tm.id).length ≤ ((s.core (c + j)).bins.filter (·.isNone)).length)
      && (s.core (c + j)).spawn.length + (tm.kidsBy true).length ≤ Config.spawnEntries
      && s.childrenOn (c + j) + (tm.kidsBy false).length ≤ Config.childContexts

def State.phaserRoom (s : State) (tm : Team) (c : Nat) : Bool :=
  let used := ((s.teams.filter fun t => t.core == c).map fun t => (t.phasers.filter (·.isSome)).length).sum
  used + (tm.phasers.filter (·.isSome)).length ≤ 64

/-- R217, R345: the die-scope and device-scope phasers of a resumed grid are allocated again. -/
def State.restorePhasers (s : State) (i : SavedImage) : Option State :=
  if i.phasers.any fun x => ((s.die (hDie x.1)).phasers.any fun y => y.1 == hIndex x.1) then none
  else some (i.phasers.foldl (fun s x => s.modDie (hDie x.1) fun d => { d with phasers := d.phasers ++ [(hIndex x.1, x.2)] }) s)

/-- R347: a saved team, its scratchpad in place, goes on on a core. The launch stays at the head of its queue's entry until the last
of its saved teams has its place. -/
def State.putTeam (s : State) (ln : Launch) (i : SavedImage) (tm : Team) (c base : Nat) : State :=
  let tm' := tm.placedAt ln.hdr ln.t c base s.fresh (s.die (dieOfCore c)).time
  let drop (j : SavedImage) : SavedImage := if j.launch.id == ln.id then { j with teams := j.teams.filter fun x => x.id != tm.id, phasers := [] } else j
  let s := { s with teams := s.teams ++ [tm'], fresh := s.fresh + tm'.cmds.length + 1, saved := s.saved.map drop }
  let s := s.restoreArbour tm' i.bins c
  let s := s.modLaunch ln.id fun x => { x with started := true, requeue := x.requeue && !(s.savedOf ln.id).isEmpty, gangBy := none, drain := [] }
  s.teamCheck tm.id

/-- R347: a saved team on a core, with the phasers of its grid. While its section cannot be reached it stays where it is, and the
request waits (R108, R378); a gang starts none of its teams meanwhile (R351). -/
def State.restoreTeam (s₀ : State) (ln : Launch) (i : SavedImage) (tm : Team) (c base : Nat) : Option State :=
  let die := dieOfCore c
  let h := ln.hdr
  let dst := placeScratch c (1024 * base)
  let n := h.scratchSize ln.t
  let s := (s₀.beginSlice ln).freshCaches ln c true
  let from_ := ln.save + h.sectionAt ln.t tm.num + h.partAt ln.t 1
  match { s with mem := s.mem.clear dst n }.loadScratch ln die (n / 16384 + 2) from_ dst n with
  | .error (.fault s c) => some (s.readFault ln.pf (s.queueOf ln).ctx die from_ n c)
  | .error (.wait s) => if h.gang then none else some { s with queues := s₀.queues, cores := s₀.cores }
  | .ok s => (s.restorePhasers i).map fun s => s.putTeam ln i tm c base

/-- R350: the launch's next team is placed on a core: a saved one first, in ascending `sr.team`. -/
def State.placeOn (s : State) (l c : Nat) : Option State :=
  match s.launch? l with
  | none => none
  | some ln =>
    if !s.coreServes ln c || s.drained ln c then none
    else match s.fits ln c with
      | none => none
      | some base =>
        match s.saved.find? fun i => i.launch.id == l && !i.teams.isEmpty with
        | some i =>
          match i.teams with
          | tm :: _ =>
            if s.arbourFits tm i.bins c && s.phaserRoom tm c then s.restoreTeam ln i tm c base else none
          | [] => none
        | none => if ln.nextTeam < ln.nteam then some (s.startTeam ln c base) else none

/-- One team on each core of a list, in order. -/
def State.placeAll (s : State) (l : Nat) : List Nat → Option State
  | [] => some s
  | c :: cs => (s.placeOn l c).bind fun s => s.placeAll l cs

/-- R34, R350, R351: the unit of placement: one team, or every team of a gang. -/
def State.unitSize (s : State) (ln : Launch) : Nat := if ln.hdr.gang then ln.nteam - ln.nextTeam + (s.savedOf ln.id).length else 1

/-! ## The end of a replay (R358, R360) -/

/-- R358, R360: a `REPLAY` ends with its record. A record whose write faults is not written; where the write waits, `s₀` stands
on and the end is tried again. -/
def State.endReplay (s s₀ : State) (ln : Launch) (r : Replay) (status detail : Nat) : State :=
  match s.writeRecord ln r status with
  | .ok s => s.endLaunch ln.id status detail
  | .error (.fault s _) => s.endLaunch ln.id status detail
  | .error (.wait s) => { s₀ with waits := s.waits, free := s.free }

/-- R351, R360: a launch ends; a replay with its record. -/
def State.endAs (s : State) (ln : Launch) (status detail : Nat) : State :=
  match ln.replay with
  | some r => s.endReplay s ln r status detail
  | none => s.endLaunch ln.id status detail

/-- R494: a gang that no longer fits the dies that remain is refused. -/
def State.refuseGangs (s : State) : State :=
  s.launches.foldl (fun s g => if g.gangBy.isSome && !s.gangFits g then s.endAs g 0x01 0 else s) s

/-! ## Pre-emption (R348, R353) -/

/-- R34: the teams that stop with a team. -/
def State.withGang (s : State) (t : Nat) : List Nat :=
  let tm := s.team t
  if (s.launchOf tm.launch).hdr.gang then (s.teamsOfLaunch tm.launch).map (·.id) else [t]

def State.stopTeams (s : State) (ts : List Nat) : State :=
  (dedup (ts.flatMap s.withGang)).foldl (fun s t => if (s.team t).active then s.stopTeam t else s) s

/-- The state as it would stand without some teams. -/
def State.without (s : State) (ts : List Nat) : State := { s with teams := s.teams.filter fun t => !ts.contains t.id }

/-- Cores for the next unit of placement of a launch: each takes what fits, in ascending order. -/
def State.pickCores (s : State) (l : Nat) : (fuel n c : Nat) → List Nat
  | 0, _, _ => []
  | fuel + 1, n, c =>
    if n = 0 ∨ 192 ≤ c then []
    else match s.placeOn l c with
      | some s => c :: s.pickCores l fuel (n - 1) c
      | none => s.pickCores l fuel n (c + 1)

/-- R350, R351: cores for the next team of a launch, or for every team of a gang; fewer where there is no room. -/
def State.unitCores (s : State) (ln : Launch) : List Nat := s.pickCores ln.id (s.unitSize ln + 193) (s.unitSize ln) 0

/-- The cores for the next unit of a launch once some teams have gone, fewer where they do not suffice. -/
def State.coresWithout (s : State) (y : Launch) (vs : List Nat) : List Nat := (s.without (dedup (vs.flatMap s.withGang))).unitCores y

/-- R348, R354: the teams that may be stopped for a placement, of the launches that `p` names, the oldest launch's first. -/
def State.stoppable (s : State) (p : Launch → Bool) : List Nat :=
  s.launches.flatMap fun z => if p z && !z.halting && z.replay.isNone then ((s.teamsOfLaunch z.id).filter Team.active).map (·.id) else []

/-- R348: might a team of a younger launch be stopped in the place of team `v`, of the victims `vs`? -/
def State.youngerServes (s : State) (y : Launch) (vs rest : List Nat) (may : Launch → Bool) (v : Nat) : Bool :=
  (s.stoppable may).any fun u => !vs.contains u && (s.team v).launch < (s.team u).launch
    && (s.coresWithout y (u :: vs.filter (· != v) ++ rest)).length == s.unitSize y

/-- R348: are the victims the teams on the chosen cores that the placement needs, and no others, the youngest launch's first? The
teams of `rest` go in their own turn. -/
def State.goodVictims (s : State) (l : Nat) (cores victims : List Nat) (may : Launch → Bool) (rest : List Nat) : Bool :=
  let placed (vs : List Nat) : Bool := ((s.without (dedup ((vs ++ rest).flatMap s.withGang))).placeAll l cores).isSome
  !victims.isEmpty && !placed [] && placed victims && victims.all fun v =>
      let tm := s.team v
      (s.stoppable may).contains v && (cores.any fun c => tm.core == c || (isPair (s.launchOf tm.launch).t && tm.core + 1 == c))
        && !placed (victims.filter (· != v)) && !s.youngerServes (s.launchOf l) victims rest may v

/-- R348: does a launch come before another: one of a higher level, or of a queue of the level whose turn it is in the
round, which the Pavilion does not turn where the host runs the list (R361), or (R347) one that a pre-emption has put at the head of its queue's entry? -/
def State.comesFirst (s : State) (y ln : Launch) : Bool :=
  let a := s.queueOf y
  let b := s.queueOf ln
  s.launchLevel y < s.launchLevel ln
    || (s.launchLevel y == s.launchLevel ln && y.die == ln.die && !(a.pf == b.pf && a.num == b.num)
        && !(s.ctx y.pf a.ctx).hostRuns && !(s.ctx ln.pf b.ctx).hostRuns && a.served < b.served)
    || (a.pf == b.pf && a.num == b.num && y.requeue && !ln.requeue)

/-- R348: a launch that comes first waits for a core of the list. -/
def State.outranked (s : State) (ln : Launch) (cores : List Nat) : Bool :=
  s.launches.any fun y => y.id != ln.id && s.comesFirst y ln && !y.hdr.gang && s.wantsTeam y
    && cores.any fun c => (s.placeOn y.id c).isSome

def execTeamPlacement (l : Nat) (cores victims : List Nat) (s : State) : Host.Outcome State Fault Refusal :=
  match s.launch? l with
  | none => .next s
  | some ln =>
    if !s.wantsTeam ln || cores.length != s.unitSize ln || s.outranked ln cores then .next s
    else if victims.isEmpty then .next ((s.placeAll l cores).getD s)
    else if s.goodVictims l cores victims (fun y => s.launchLevel ln < s.launchLevel y) [] then .next (s.stopTeams victims)
    else .next s

def execGangTimeout (l : Nat) (s : State) : Host.Outcome State Fault Refusal :=
  match s.launch? l with
  | none => .next s
  | some ln => match ln.gangBy with
    | some d => .next (if d ≤ (s.die (s.queueOf ln).die).time then s.endAs ln 0x03 0 else s)
    | none => .next s

/-- R348: the teams of a queue, and those that the other queues of the level hold beside it, whose slices end in their turn. -/
def ofQueue (pf q : Nat) (z : Launch) : Bool := z.pf == pf && z.q == q

def State.beside (s : State) (x : Queue) (y : Launch) (z : Launch) : Bool :=
  !ofQueue x.pf x.num z && !ofQueue y.pf y.q z && s.launchLevel z == s.levelOf x

/-- R348: the teams of other queues that must go as well for a launch, where those of queue `x` alone do not suffice: a gang may
need cores of several queues. -/
def State.others (s : State) (x : Queue) (y : Launch) : List Nat :=
  if (s.coresWithout y (s.stoppable (ofQueue x.pf x.num))).length = s.unitSize y then [] else s.stoppable (s.beside x y)

/-- R348: a launch of another queue of the level that cannot be placed, and needs the teams of `x` to go: an entry of the run list
of a die that places a launch of `x` (R349). -/
def State.rival (s : State) (x : Queue) : Option Launch :=
  s.launches.find? fun y => !ofQueue x.pf x.num y && s.launchLevel y == s.levelOf x
    && (s.launches.any fun z => ofQueue x.pf x.num z && z.die == y.die) && s.wantsTeam y
    && (s.coresWithout y (s.others x y)).length != s.unitSize y
    && (s.coresWithout y (s.stoppable (ofQueue x.pf x.num) ++ s.others x y)).length == s.unitSize y

/-- R348: the end of a time slice. In the host's run-list mode the Pavilion does not rotate (R361). -/
def execTimeSliceExpiry (pf q : Nat) (victims : List Nat) (s : State) : Host.Outcome State Fault Refusal :=
  match s.queue? pf q with
  | none => .next s
  | some x =>
    let again (s : State) : State := s.modQueue pf q fun x => { x with sliceEnd := (s.die x.die).time + s.sliceOf x }
    let holds := s.teams.any fun t => (s.launchOf t.launch).pf == pf && (s.launchOf t.launch).q == q
    if !holds || (s.die x.die).time < x.sliceEnd then .next s
    else match s.rival x with
      | none => .next (again s)
      | some y =>
        if (s.ctx pf x.ctx).hostRuns then .next (again s)
        else if (s.coresWithout y (victims ++ s.others x y)).length = s.unitSize y
            && s.goodVictims y.id (s.coresWithout y (victims ++ s.others x y)) victims (ofQueue pf q) (s.others x y) then
          .next ((again (s.stopTeams victims)).modQueue pf q fun x =>
            { x with served := (s.queues.map (·.served)).foldl max 0 + 1 })
        else .next s

/-! ## The end of a save (R347, R353, R495) -/

/-- R293, R303, R337: has a team that is being saved come to rest? Of a `REDCOPY` only elements that wait for a spill entry (R487)
may be left; they have not been applied. -/
def Team.atRest (tm : Team) : Bool :=
  (!tm.frags.any Frag.midAtomic) && tm.cmds.all fun c => c.st != .applied && c.sent.all (·.held) && !(c.kind == 3 && c.opc == 0 && (c.st == .launched || c.st == .takenUp))

/-- R303: a stopped `REDCOPY` goes on from the lowest element that has not been applied, and meets a fault of a later one again. Where
that element waited for a spill entry, later ones of other slices may have been applied; they are not sent again (R312, log entry
121). -/
def Cmd.saved (c : Cmd) : Cmd :=
  let first := (c.sent.map (·.elem)).foldl min c.idx
  let done := (List.range (c.idx - first)).map (first + ·) |>.filter fun i => !(c.sent.any fun y => y.elem == i)
  let c := if c.sent.isEmpty then c else { c with idx := first, skip := done ++ c.skip, status := 0, cause := 0 }
  { c with marks := [], sent := [], issued := c.issued && c.kind == 2 }

/-- A team leaves its cores with what the device's record of the image holds. -/
def State.storeTeam (s : State) (i : SavedImage) (tm : Team) : State × SavedImage :=
  (s.dropTeam tm.id, { i with teams := i.teams ++ [{ tm with st := .saved, cmds := tm.cmds.map Cmd.saved }], bins := i.bins ++ s.binsOf tm })

def State.storeTeams (s : State) (i : SavedImage) : List Team → State × SavedImage
  | [] => (s, i)
  | tm :: l => let (s, i) := s.storeTeam i tm
    s.storeTeams i l

/-- Teams in ascending `sr.team`. -/
def insertTeam (t : Team) : List Team → List Team
  | [] => [t]
  | x :: l => if t.num < x.num then t :: x :: l else x :: insertTeam t l

/-- R213: the teams of a halted grid that have not started, as they are to start. -/
def State.unstarted (s : State) (ln : Launch) : List Team :=
  (List.range (ln.nteam - ln.nextTeam)).map fun i => { freshTeam ln (s.fresh + i) (ln.nextTeam + i) 0 0 0 with st := .saved }

/-- R347: the teams of a launch that have stopped are saved; a halt then completes the launch. -/
def State.finishSave (s : State) (ln : Launch) (ts : List Team) : State :=
  let ctx := (s.queueOf ln).ctx
  let old := (s.saved.find? fun i => i.launch.id == ln.id).getD { (default : SavedImage) with pf := ln.pf, ctx, save := ln.save }
  let fresh := if ln.halting then s.unstarted ln else []
  let gone := if ln.halting then (List.range ln.nextTeam).filter fun k => !((old.teams ++ ts).any fun tm => tm.num == k) else []
  match s.saveImage ln ts fresh gone (s.queueOf ln).die with
  | .error (.fault s c) => s.writeFault ln.pf ctx (s.queueOf ln).die ln.save ln.imageSize c
  | .error (.wait s) => s
  | .ok s =>
    let (s, i) := s.storeTeams old ts
    let s := { s with fresh := s.fresh + fresh.length }
    let i := { i with launch := s.launchOf ln.id, teams := (i.teams ++ fresh).foldr insertTeam [], phasers := if ln.halting then s.gridPhasers ln else [] }
    let s := { s with saved := i :: s.saved.filter fun j => j.launch.id != ln.id && !(j.pf == i.pf && j.ctx == ctx && j.save == i.save) }
    if ln.halting then s.endLaunch ln.id 0x02 ln.save
    else (s.modLaunch ln.id fun x => { x with requeue := true }).regang ln.id

/-! ## Replay passes (R354 to R360) -/

/-- What stands in a chunk of memory but for what R447 leaves out comes from the chunk `src` of the capture area. -/
def Memory.putBack (m : Memory) (exempt : List (Nat × Nat)) (src dst : Nat) : Memory :=
  exempt.foldl (fun (n : Memory) x =>
    let lo := max x.1 dst
    let hi := min (x.1 + x.2) (dst + 16384)
    if lo < hi then n.write lo (m.bytes lo (hi - lo)) else n) (m.copy src dst 16384)

/-- R354 step 1: a captured page is copied back. -/
def State.restorePage (s : State) (pf : Nat) (r : Replay) (p : Nat × Nat × Nat) : State :=
  (((s.chunks pf p.1 p.2.1).zip (r.area.drop p.2.2)).foldl (fun (s : State) x =>
    (({ s with mem := s.mem.putBack r.exempt x.2 x.1 }.touch x.1 16384).conflictRange x.1 16384 true).dropLines x.1 16384) s)

/-- R357, R447: fragments whose placement request found no room in the capture area make it again. -/
def State.retryRequests (s : State) (pf ctx : Nat) : State :=
  s.wakeWhere (fun tm fr =>
    let ln := s.launchOf tm.launch
    ln.pf == pf && (s.queueOf ln).ctx == ctx && (match fr.st with
      | .waiting (.placement _ _) => !((s.ctx pf ctx).requests.any fun r => r.by_ == fr.id)
      | _ => false)) true

/-- R354, R357: what a pass has changed is put back. -/
def State.restorePass (s : State) (ln : Launch) (r : Replay) : State :=
  let ctx := (s.queueOf ln).ctx
  let dies := s.devDies ln.pf
  let own (x : RoLine) : Bool := x.pf == ln.pf && x.ctx == ctx
  let s := r.pages.foldl (fun s p => s.restorePage ln.pf r p) s
  let s := (s.partitions ln.pf ctx).foldl (fun s p => { s with mem := s.mem.restore p.1 p.2 (r.dsp.slice p.1 p.2) }) s
  let s : State := { s with
    cores := s.cores.map fun (c : Nat × Core) => if dies.contains (dieOfCore c.1) then (c.1, { c.2 with l1 := [], ro := c.2.ro.filter fun x => !own x }) else c
    caches := s.caches.map fun (l : List RoLine) => l.filter fun x => !own x }
  let s := (s.cleanL2 dies).freePhasers ln.phasers
  let s := r.bound.foldl (fun s b => s.modDie b.1 fun d =>
    if b.2.1 = 2 then { d with pool2m := d.pool2m ++ [b.2.2] } else { d with pool64 := d.pool64 ++ [b.2.2] }) s
  let s := { s with exacts := s.exacts.filter fun x => !(x.pf == ln.pf && x.ctx == ctx) }
  ((s.retryRequests ln.pf ctx).flushTlb ln.pf ctx).modLaunch ln.id fun x =>
    { x with phasers := [], nextTeam := 0, halting := false, replay := x.replay.map fun r => { r with pages := [], bound := [] } }

/-- Teams of a pass end with nothing saved. -/
def State.killTeams (s : State) (l : Nat) : State := (s.teamsOfLaunch l).foldl (fun s t => (s.dropTeam t.id).leaveExacts t.id) s

/-- R358: the counts of a pass over the cores of the device. -/
def State.passCounts (s : State) (pf : Nat) : List Nat :=
  let dies := s.devDies pf
  (List.range 4).map fun i => ((s.cores.filter fun c => dies.contains (dieOfCore c.1)).map fun c => c.2.pmc.getD i 0).sum % 2 ^ 64

/-- A pass starts, or starts again. -/
def State.beginPass (s : State) (ln : Launch) (r : Replay) (abandoned : Bool) : State :=
  let now := (s.die (s.queueOf ln).die).time
  (s.setCounters ln.pf (r.selOf r.pass)).modLaunch ln.id fun x =>
    { x with replay := some { r with pages := [], bound := [], sum := 0, startNs := now, overflow := false, abandoned } }

/-- R355: a pass that has met an overflow ends the replay. -/
def State.endOverflow (s : State) (ln : Launch) (r : Replay) : State := ((s.killTeams ln.id).restorePass ln r).endReplay s ln r 0x07 0

/-- R356: a pass that is pre-empted is abandoned, and runs again when the launch resumes. -/
def State.abandonPass (s : State) (ln : Launch) (r : Replay) : State :=
  (((s.killTeams ln.id).restorePass ln r).beginPass ln r true).regang ln.id

/-- R354, R447: a pass ends; memory stands as the last one leaves it. -/
def State.passEnd (s : State) (ln : Launch) (r : Replay) : State :=
  if r.overflow then s.endOverflow ln r
  else if ln.nextTeam < ln.nteam || !(s.teamsOfLaunch ln.id).isEmpty then s
  else
    let ns := (s.die (s.queueOf ln).die).time - r.startNs
    let r := { r with sigs := r.sigs ++ [(r.sum, s.passCounts ln.pf, ns)] }
    if r.pass + 1 < r.npass then ((s.restorePass ln r).beginPass ln { r with pass := r.pass + 1 } false).regang ln.id
    else s.endReplay s ln r 0 0

def execReplayPassRestore (l : Nat) (s : State) : Host.Outcome State Fault Refusal :=
  match s.launch? l with
  | none => .next s
  | some ln => match ln.replay with
    | some r => .next (if ln.halting then s else s.passEnd ln r)
    | none => .next s

/-- R347, R354, R356: a save completes. A replay saves nothing: a halt ends it after the restore, and any other request
abandons the pass. -/
def execSaveComplete (l : Nat) (s : State) : Host.Outcome State Fault Refusal :=
  match s.launch? l with
  | none => .next s
  | some ln =>
    let ts := (s.teamsOfLaunch l).filter fun t => t.st == .saving
    if (ts.isEmpty && !ln.halting) || !ts.all (fun t => t.atRest && !s.waits.any (·.arrives t.id)) || ((ln.halting || ln.hdr.gang) && (s.teamsOfLaunch l).any Team.active) then .next s
    else match ln.replay with
      | some r =>
        .next (if ln.halting then ((s.killTeams l).restorePass ln r).endReplay s ln r 0x02 ln.save
          else if r.overflow then s.endOverflow ln r else s.abandonPass ln r)
      | none => .next (s.finishSave ln ts)

/-- R503, R508: is trip 4 of a die due at the present time? It governs where a stop watchdog of the die meets it. -/
def State.trip4Due (s : State) (d : Nat) : Bool :=
  (s.agenda.takeWhile fun x => match x with
    | .tick _ _ => false
    | _ => true).any fun x => match x with
    | .happen (.powerRemoved e temp) => e == d && 2160 ≤ temp
    | _ => false

/-- R495: a team that has not come to rest by its watchdog ends its context; a save that is not written yet has no bound (R353). -/
def execStopWatchdogExpiry (t : Nat) (s : State) : Host.Outcome State Fault Refusal :=
  match s.team? t with
  | none => .next s
  | some tm =>
    let ln := s.launchOf tm.launch
    if tm.st == .saving && !tm.atRest && tm.watchdog ≤ (s.die (dieOfCore tm.core)).time && !s.trip4Due (dieOfCore tm.core) then
      .next { (s.terminate ln.pf (s.queueOf ln).ctx 0x82) with pfail := true }
    else .next s

/-! ## Host requests (R372) and stealing (R349) -/

/-- R353, R356: every team of a launch stops; a launch with none has nothing to save. A replay's pass that has run some of its
teams, and none of which is on a core, is abandoned at once. -/
def State.preemptLaunch (s : State) (l : Nat) : State :=
  let ln := s.launchOf l
  match ln.replay with
  | some r =>
    if (s.teamsOfLaunch l).isEmpty && 0 < ln.nextTeam && ln.nextTeam < ln.nteam && !r.overflow then s.abandonPass ln r else s.stopLaunch l
  | none => s.stopLaunch l

/-- R353, R372: the teams of a queue's launches stop. -/
def State.stopQueue (s : State) (pf q : Nat) : State :=
  (s.launches.filter fun l => l.pf == pf && l.q == q).foldl (fun s l => s.preemptLaunch l.id) s

/-- R372. -/
def State.suspendQueue (s : State) (pf q : Nat) : State :=
  let s := { s with windows := modNth pf (fun w => { w with preempt := BitVec.ofNat 32 (2 ^ 16 + q % 256) }) s.windows }
  let s := s.modQueue pf q fun x => { x with suspended := true }
  s.stopQueue pf q

def execQueueSuspend (pf q : Nat) (s : State) : Host.Outcome State Fault Refusal :=
  .next (if s.hostUp then s.suspendQueue pf q else s)

/-- R372, R493: a queue is served again, and a head word that could not be written is tried again. -/
def State.resumeQueue (s : State) (pf q : Nat) : State :=
  let s := { s with windows := modNth pf (fun w => { w with preempt := BitVec.ofNat 32 (q % 256) }) s.windows }
  let due := (s.queue pf q).headDue
  let s := s.modQueue pf q fun x => { x with suspended := false, headDue := false }
  if due then s.writeHead pf q else s

def execQueueResume (pf q : Nat) (s : State) : Host.Outcome State Fault Refusal :=
  .next (if s.hostUp then s.resumeQueue pf q else s)

/-- R23: the ring order of the dies. -/
def ringNext (d : Nat) : Nat := [1, 3, 0, 2].getD d 0
def ringPrev (d : Nat) : Nat := [2, 0, 3, 1].getD d 0

/-- Lexicographic order. -/
def lexLt : List Nat → List Nat → Bool
  | a :: l, b :: m => a < b || (a == b && lexLt l m)
  | _, _ => false

/-- R349: the launch that a die gives up: unstarted, of one of its stealable queues, no gang and no replay; of the highest level,
there of the queue that it would serve next, and of that the next one. -/
def State.stealable (s : State) (thief die : Nat) : Option Launch :=
  let key (y : Launch) : List Nat := [s.launchLevel y, (s.queueOf y).served, y.pf, y.q, y.id]
  let l := s.launches.filter fun y => y.die == some die && (s.queueOf y).die == die && (s.queueOf y).stealable && !y.started && !y.hdr.gang && y.replay.isNone
    && s.wantsTeam y && (s.devDies y.pf).contains thief && !(s.ctx y.pf (s.queueOf y).ctx).hostRuns
  l.find? fun y => l.all fun z => !lexLt (key z) (key y)

/-- R349: a die with no resident team and no launch that it can place asks its next and then its previous die. A die that cannot be
reached has nothing to give (R500). -/
def execStealRequest (die : Nat) (s : State) : Host.Outcome State Fault Refusal :=
  let idle := s.serves die && !s.shut die && !(s.teams.any fun t => dieOfCore t.core == die)
    && !(s.launches.any fun y => y.die == some die && s.wantsTeam y && (s.unitCores y).length == s.unitSize y)
  let ask (d : Nat) : Option Launch := if s.reaches die d && s.serves d then s.stealable die d else none
  match (ask (ringNext die)).or (ask (ringPrev die)) with
  | some y => .next (if idle then s.modLaunch y.id fun x => { x with die := some die } else s)
  | none => .next s

/-- R361, R496: the host writes the run list of a die: queues with their levels and slices. -/
def State.goodRow (s : State) (die pf : Nat) (r : Nat × Nat × Nat) : Bool :=
  match s.queue? pf r.1 with
  | some x => x.die == die && r.2.1 < 4 && 100 ≤ r.2.2 && r.2.2 ≤ 100000
  | none => false

def execRunListWrite (die : Nat) (pf : Nat) (rows : List (Nat × Nat × Nat)) (s : State) : Host.Outcome State Fault Refusal :=
  let rows := rows.take 256
  let good := (rows.filter (s.goodRow die pf)).map fun r => (pf, r.1, r.2.1, r.2.2)
  let s := rows.zipIdx.foldl (fun s r => if s.goodRow die pf r.1 then s else s.queueEvent pf r.1.1 0 0x05 r.2) s
  .next (s.modDie die fun d => { d with runList := good ++ d.runList.filter fun r => r.1 != pf })

end Sys2Proof.Machine
end

