-- ==== Sys2Proof/Machine/Power.lean ====
section
/-! DEFINITION. Power and temperature: windows and the cap (R384, R385), operating points (R380, R381), ballast (R386, R387),
droops and their alarm (R382, R504), the thermal ladder (R501 to R503) and regulator faults (R504). What is measured comes
with the happening (log entry 14); a happening that the rules rule out changes nothing (log entry 4). -/

namespace Sys2Proof.Machine

def State.modPower (s : State) (f : Power → Power) : State := { s with power := f s.power }

/-! ## The package budget (R384, R385, R390) -/

def windowNs : Nat := 100000

/-- R384: the budget of the window in µJ, where `repay` µJ of the debit are repaid for each watt of the cap. -/
def Power.budget (p : Power) (repay : Nat) : Nat := p.cap * 100 - min p.debit (repay * p.cap)

/-- R385: the debit after a window of energy `e`. -/
def Power.nextDebit (p : Power) (repay e : Nat) : Nat := p.debit - min p.debit (repay * p.cap) + (e - p.budget repay)

/-- R381: a layer's point when no budget holds it down: 1 while its die's throttle is on. -/
def State.layerRest (s : State) (i : Nat) : Nat := bit (s.die (i / 4)).throttle

/-- Sets every layer's point by what holds it down. -/
def State.setLayers (s : State) : State :=
  s.modPower fun p => { p with layer := (List.range 16).map fun i => if p.spent then 1 else s.layerRest i }

/-- R384: D0's time counter stands at the end of the window, which is to end before anything else of the next one. -/
def State.windowDue (s : State) : Bool := (s.power.window + 1) * windowNs ≤ (s.die 0).time

/-- R384: the window's energy reaches the budget. -/
def Power.spend (p : Power) : Power := { p with spent := true, op := List.replicate 16 7 }

/-- R384: a window whose energy, as far as it is known, has reached the budget is spent. -/
def Power.checked (p : Power) (repay : Nat) : Power := if !p.spent && p.budget repay ≤ p.energy then p.spend else p

/-- R384, R385, R390: a window ends with its energy. A budget of 0 is reached as its window starts. -/
def State.endWindow (s : State) (energy : Nat) : State :=
  let r := s.limits.repay
  (s.modPower fun p =>
    ({ p with
      debit := p.nextDebit r energy, throttled := (p.throttled + bit (p.spent || p.budget r ≤ energy)) % 2 ^ 32
      doneSeq := p.window % 2 ^ 32, doneEnergy := energy, window := p.window + 1, cap := p.capNext, spent := false, energy := 0
      ballast := 0 } : Power).checked r).setLayers

/-- R384, R385: the least and the greatest energy that the window may end with: at least what it is known to have drawn, and
at least the budget exactly where it has reached it; at most the budget and the ballast drawn in it. -/
def Power.least (p : Power) (repay : Nat) : Nat := if p.spent then max p.energy (p.budget repay) else p.energy
def Power.most (p : Power) (repay : Nat) : Nat := if p.spent then p.budget repay + p.ballast else p.budget repay - 1

/-- The energy of a window whose end nothing outside reports: free within R384's bound (log entry 14). -/
def State.drawn (s : State) : Nat :=
  let lo := s.power.least s.limits.repay
  lo + Config.pick s.free % (s.power.most s.limits.repay - lo + 1)

/-- A window whose end is due ends first: what comes about now belongs to the next one (R392). -/
def State.endDue (s : State) : State := if s.windowDue then { s.endWindow s.drawn with free := s.free + 1 } else s

def execPowerWindowEnd (energy : Nat) (s : State) : Host.Outcome State Fault Refusal :=
  let r := s.limits.repay
  if !s.windowDue || energy < s.power.least r || s.power.most r < energy then .next s else .next (s.endWindow energy)

/-- R384: the window's energy, with the ballast drawn so far, has reached the budget. -/
def execBudgetReached (energy : Nat) (s : State) : Host.Outcome State Fault Refusal :=
  let s' := s.endDue
  let b := s'.power.budget s'.limits.repay
  if s'.power.spent || energy < max b s'.power.energy || b + s'.power.ballast < energy then .next s
  else .next (s'.modPower fun p => { p.spend with energy }).setLayers

/-! ## Operating points and ballast (R380, R386, R387, R391) -/

/-- R380: the point is the controller's choice, where neither the budget nor a throttle fixes it at 7. -/
def execOperatingPointChange (quad point : Nat) (s : State) : Host.Outcome State Fault Refusal :=
  if 16 ≤ quad || 8 ≤ point || ((s.power.spent || (s.die (quad / 4)).throttle) && point != 7) then .next s
  else .next (s.modPower fun p => { p with op := setNth quad point p.op })

/-- Has a quadrant of the package its supply (R503, R504)? -/
def State.quadUp (s : State) (quad : Nat) : Bool := quad < 16 && !(s.die (quad / 4)).off && !(s.die (quad / 4)).quadLost.contains (quad % 4)

/-- R384 to R387: a ramp counts and draws energy, which may reach the window's budget, and has no other effect. -/
def execBallastRamp (quad energy : Nat) (s : State) : Host.Outcome State Fault Refusal :=
  .next (if s.quadUp quad then
      (s.endDue.modPower fun p =>
        ({ p with ramps := modNth quad (fun n => (n + 1) % 2 ^ 8) p.ramps, ballast := p.ballast + energy, energy := p.energy + energy }
          : Power).checked s.limits.repay).setLayers
    else s)

/-! ## Droops (R382, R391, R491, R504) -/

/-- R491: at most one 0x30 or 0x50 record of a die in a millisecond. -/
def State.mayNotice (s : State) (d : Nat) : Bool := match (s.die d).noticeAt with
  | some t => t + 1000000 ≤ (s.die d).time
  | none => true

def State.noticed (s : State) (d : Nat) : State := s.modDie d fun x => { x with noticeAt := some x.time }

/-- R382: a droop stretches a cluster's clock from its next cycle on. The period that the cluster is in stays within twice the
nominal one (log entry 91). -/
def Power.stretch (p : Power) (cluster : Nat) : Power :=
  let held := (lookup cluster p.stretched).any (·.2)
  { p with stretched := (cluster, 65, held) :: p.stretched.filter fun x => x.1 != cluster }

/-- R382, R504: a droop counts, the clock of the cluster is stretched, and a cluster with more than 1,000 stretches in a millisecond
raises the alarm. -/
def execDroop (cluster : Nat) (s : State) : Host.Outcome State Fault Refusal :=
  let d := cluster / 12
  let quad := cluster / 3
  let now := (s.die d).time
  if 48 ≤ cluster || !s.quadUp quad then .next s
  else
    let old := s.power.droopTimes.filter fun x => x.1 / 12 != d || now < x.2 + 1000000
    let s := s.modPower fun p => { p.stretch cluster with
      droops := modNth quad (fun n => (n + 1) % 2 ^ 32) p.droops, droopTimes := (cluster, now) :: old }
    let n := (s.power.droopTimes.filter fun x => x.1 == cluster).length
    if 1000 < n && s.mayNotice d then .next ((s.systemEvent [d] d 0x50 0 (sysDetail d (quad % 4) (cluster % 3) n)).noticed d)
    else .next s

/-! ## What an unavailable die takes with it -/

/-- R493: launches that a die has stolen are lost with it. -/
def State.loseStolen (s : State) (d : Nat) : State :=
  let ls := s.launches.filter fun y => y.die == some d && (s.queueOf y).die != d
  ls.foldl (fun s y =>
    let s := (s.teamsOfLaunch y.id).foldl (fun s t => s.dropTeam t.id) s
    ({ s with saved := s.saved.filter fun i => i.launch.id != y.id }).endLaunch y.id 0x09 0x90) s

/-- R503: the contexts of a die end, its memories are lost and it is off until the package reset. -/
def State.removePower (s : State) (d cause : Nat) : State × Nat :=
  let s := s.loseStolen d
  let (s, n) := s.terminateAll [d] cause
  let m := ((s.mem.clear (placeDram d 0) (2 ^ 36)).clear (placeDieScratch d 0) (2 ^ 32)).clear (placeScratch (48 * d) 0) (48 * 2 ^ 19)
  let s := { s with mem := m, caches := s.caches.zipIdx.map (fun (x : List RoLine × Nat) => if x.2 / 4 = d then [] else x.1), bad := s.bad.filter fun w => homeDie (w * 64) != d, cores := s.cores.filter fun c => dieOfCore c.1 != d }
  (s.modDie d fun x => { x with off := true, halting := none, tlb := [], dirty := [], pool64 := [], pool2m := [] }, n)

/-- The number of a temperature as s16 (R491). -/
def temp16 (t : Int) : Nat := (t % 2 ^ 16).toNat

/-- 135 °C in units of 1/16 °C, and the other trips. -/
def celsius (n : Int) : Int := 16 * n

/-- R503: trip 4. -/
def execPowerRemoved (die : Nat) (temp : Int) (s : State) : Host.Outcome State Fault Refusal :=
  if 4 ≤ die || (s.die die).off || temp < celsius 135 then .next s
  else
    let (s, n) := s.removePower die 0xA0
    .next ((s.systemEvent [die] die 0x45 0xA0 (sysDetail die 0xFF (temp16 temp) n)).refuseGangs)

/-! ## Trips 1 to 3 (R501, R502) -/

/-- R501: trip 1. -/
def State.tripWarn (s : State) (d : Nat) (temp : Int) (sensor : Nat) : State :=
  if !(s.die d).warn && celsius 115 ≤ temp then
    (s.modDie d fun x => { x with warn := true }).systemEvent [d] d 0x40 0 (sysDetail d sensor (temp16 temp) 0)
  else if (s.die d).warn && temp < celsius 110 then s.modDie d fun x => { x with warn := false }
  else s

/-- R501: trip 2 takes the die's quadrants to OP 7 and its layers to point 1. -/
def State.tripThrottle (s : State) (d : Nat) (temp : Int) (sensor : Nat) : State :=
  if !(s.die d).throttle && celsius 120 ≤ temp then
    let s := s.modDie d fun x => { x with throttle := true }
    let s := (s.modPower fun p => { p with op := p.op.zipIdx.map fun x => if x.2 / 4 = d then 7 else x.1 }).setLayers
    s.systemEvent [d] d 0x41 0 (sysDetail d sensor (temp16 temp) 0)
  else if (s.die d).throttle && temp < celsius 115 then
    (s.modDie d fun x => { x with throttle := false }).setLayers.systemEvent [d] d 0x42 0 (sysDetail d sensor (temp16 temp) 0)
  else s

/-- R502: every launch of the contexts that hold the die is pre-empted, on all of their dies. -/
def State.preemptDie (s : State) (d : Nat) : State :=
  s.launches.foldl (fun s y => if (s.devDies y.pf).contains d then s.preemptLaunch y.id else s) s

/-- R502: a die of trip 3 halts as no team of its contexts is left to save: its dirty copies are written back, DHALT is set, and
event 0x43 is written. -/
def State.haltDue (s : State) (d : Nat) : State :=
  match (s.die d).halting with
  | none => s
  | some (temp, sensor) =>
    if s.launches.any fun y => (s.devDies y.pf).contains d && (y.halting || !(s.teamsOfLaunch y.id).isEmpty) then s
    else
      let n := (s.contexts.filter fun c => (s.devDies c.pf).contains d).length
      let s := s.modDie d fun x => { x with halting := none, halted := true, haltAt := x.time, dirty := [] }
      (s.systemEvent [d] d 0x43 0xA0 (sysDetail d sensor temp n)).refuseGangs

/-- R502: trip 3. The saves of the contexts come first, and from the trip on nothing of them is placed. -/
def State.tripHalt (s : State) (d : Nat) (temp : Int) (sensor : Nat) : State :=
  if !s.shut d && celsius 125 ≤ temp then
    ((s.preemptDie d).modDie d fun x => { x with halting := some (temp16 temp, sensor) }).haltDue d
  else if (s.die d).halted && temp < celsius 105 then
    let ns := min ((s.die d).time - (s.die d).haltAt) (2 ^ 32 - 1)
    (s.modDie d fun x => { x with halted := false }).systemEvent [d] d 0x44 0 (sysDetail d sensor (temp16 temp) ns)
  else s

/-- R501: a sample, which a die takes every 50 µs of its time. -/
def execThermalSample (die : Nat) (temp : Int) (sensor : Nat) (s : State) : Host.Outcome State Fault Refusal :=
  if 4 ≤ die || 8 ≤ sensor || (s.die die).off || (s.die die).time % 50000 != 0 then .next s
  else .next (((s.tripWarn die temp sensor).tripThrottle die temp sensor).tripHalt die temp sensor)

/-! ## Regulator faults (R504) -/

/-- The contexts with a team on a quadrant of a die. -/
def State.contextsOn (s : State) (d quad : Nat) : List Context :=
  s.contexts.filter fun c => (s.launchesOf c.pf c.num).any fun y => (s.teamsOfLaunch y.id).any fun t => quadOfCore t.core == 4 * d + quad

/-- Sensors 0 to 3 are the quadrants' supplies and 4 to 7 those of the DRAM layers. -/
def execRegulatorFault (die sensor : Nat) (s : State) : Host.Outcome State Fault Refusal :=
  if 4 ≤ die || 8 ≤ sensor || (s.die die).off then .next s
  else if sensor < 4 then
    let cs := s.contextsOn die sensor
    let s := cs.foldl (fun s c => s.terminate c.pf c.num 0xA1) s
    let s := s.modDie die fun x => { x with quadLost := insertNat sensor x.quadLost }
    .next ((s.systemEvent [die] die 0x51 0xA1 (sysDetail die sensor 0 cs.length)).refuseGangs)
  else
    let (s, n) := s.removePower die 0xA1
    .next ((s.systemEvent [die] die 0x51 0xA1 (sysDetail die sensor 0 n)).refuseGangs)

end Sys2Proof.Machine
end

