-- ==== Sys2Proof/Machine/HostWindow.lean ====
section
/-! DEFINITION. The register windows of the four functions (R365 to R374, R388 to R391, R400, R473, R492): contexts and
queues are created and destroyed, registers are written and read, and BAR4 reaches the DRAM. -/

namespace Sys2Proof.Machine

def State.window (s : State) (pf : Nat) : Window := s.windows.getD pf default
def State.modWindow (s : State) (pf : Nat) (f : Window → Window) : State := { s with windows := modNth pf f s.windows }

/-- R369: CTXSTAT after a command: the number created and the status. -/
def State.ctxStat (s : State) (pf num status : Nat) : State := s.modWindow pf fun w => { w with statNum := num, stat := status }

/-- R369, R396: CTXSTAT reads BUSY while the Lodge carries out a CTXCMD of the function, or loads the dies after a reset. -/
def State.ctxBusy (s : State) (pf : Nat) : Bool := (s.window pf).cmd.isSome || s.fw.loading

/-- R366: LIVE. -/
def State.live (s : State) : List Nat := (List.range 4).filter fun pf => s.contexts.any fun c => c.pf == pf

/-- R369: the 64 bytes of the descriptor at CTXADDR, none where it is misaligned or cannot be read. -/
def State.descriptor (s : State) (pf : Nat) : Option (List Byte) :=
  let a := (s.window pf).ctxAddr.toNat
  if a % 64 != 0 || 2 ^ 50 ≤ a || s.hostBad.any fun h => a ≤ h && h < a + 64 then none else some (s.mem.bytes (placeHost a) 64)

/-- Bytes `i .. i + n − 1` of a descriptor as a number. -/
def field (d : List Byte) (i n : Nat) : Nat := leNat ((d.drop i).take n)

/-! ## Contexts (R366, R370, R399, R505) -/

/-- R370: does a context descriptor keep its layout? -/
def goodContext (d : List Byte) : Bool :=
  field d 0 4 % 4 != 3 && field d 0 4 < 2 ^ 8 && field d 4 4 == 0 && field d 8 8 % 2048 == 0 && field d 8 8 < 2 ^ 52
    && field d 16 8 % 65536 == 0 && field d 28 4 ≤ 256 && field d 32 8 % 64 == 0
    && 4 ≤ field d 40 4 && field d 40 4 ≤ 15 && field d 44 8 == 0 && field d 52 8 == 0 && field d 60 4 == 0

/-- R370: the context of a descriptor. Its partition stands at its own number in each die's scratchpad (log entry 27). -/
def contextOf (d : List Byte) (pf num : Nat) : Context :=
  let on (i : Nat) : Bool := (field d 0 4).testBit i
  { pf, num, root := field d 8 8, spill := field d 16 8, spillUnits := field d 24 4, dsp := field d 28 4, dspBase := 256 * num
    claim := on 2, hostBooks := on 3, hostPlace := on 4, hostTraps := on 5, hostRuns := on 6, hostFw := on 7
    ring := { va := field d 32 8, log := field d 40 4, seq := 0 }, ovtab := 5, slots := List.replicate 8 none, installs := [], requests := [] }

/-- R95: the units of die scratchpad that the contexts of a function take. -/
def State.dspUsed (s : State) (pf : Nat) : Nat := ((s.contexts.filter fun c => c.pf == pf).map (·.dsp)).sum

/-- R366, R369: a creation, its status and the number. The number is the device's choice of those that are free. -/
def State.newContext (s : State) (pf : Nat) : State × Nat × Nat :=
  if s.fw.recovery then (s, 0, 6)
  else match s.descriptor pf with
    | none => (s, 0, 3)
    | some d =>
      let mode := field d 0 4 % 4
      if !goodContext d || ((field d 0 4).testBit 7 && Config.countersignHash.all (· == 0)) then (s, 0, 3)
      else if !s.live.isEmpty && mode != s.mode then (s, 0, 1)
      else
        let dies := deviceDies mode pf
        let used := (s.contexts.filter fun c => c.pf == pf).map (·.num)
        if dies.isEmpty then (s, 0, 4)
        else if 64 ≤ used.length || 256 < s.dspUsed pf + field d 28 4 || dies.any (fun x => !s.serves x) then (s, 0, 2)
        else
          let num := pickOf s.free ((List.range 256).filter fun i => !used.contains i)
          let c := contextOf d pf num
          let s := { s with mode, contexts := s.contexts ++ [c], free := s.free + 1 }
          let m := (s.partitions pf num).foldl (fun m p => m.clear p.1 p.2) s.mem
          ({ s with mem := m }, num, 0)

def execCreateContext (pf : Nat) (s : State) : Host.Outcome State Fault Refusal :=
  if !s.hostUp || s.ctxBusy pf then .next s
  else
    let (s, num, status) := s.newContext pf
    .next (s.ctxStat pf num status)

def State.dropContext (s : State) (pf num : Nat) : State :=
  match s.ctx? pf num with
  | none => s.ctxStat pf 0 5
  | some _ => (s.killContext pf num).ctxStat pf 0 0

def execDestroyContext (pf num : Nat) (s : State) : Host.Outcome State Fault Refusal :=
  .next (if s.hostUp && !s.ctxBusy pf then s.dropContext pf num else s)

/-! ## Queues (R367, R371) -/

/-- R371: does a queue descriptor keep its layout? Bits and bytes that the layout does not name must be 0 (log entry 108). -/
def goodQueue (d : List Byte) : Bool :=
  let w := field d 8 4
  field d 0 8 % 64 == 0 && 4 ≤ w % 32 && w % 32 ≤ 16 && w / 32 % 8 == 0 && w < 2 ^ 11 && 4 ≤ field d 24 4 && field d 24 4 ≤ 15
    && 100 ≤ field d 28 4 && field d 28 4 ≤ 100000 && 1 ≤ field d 32 4 && field d 32 4 ≤ 1000 && field d 40 8 % 8 == 0
    && field d 48 8 == 0 && field d 56 8 == 0

def queueFrom (d : List Byte) (pf num die : Nat) : Queue :=
  let w := field d 8 4
  { pf, num, die, ctx := field d 12 4, base := field d 0 8, log := w % 32, level := w / 2 ^ 8 % 4, stealable := w.testBit 10
    ring := { va := field d 16 8, log := field d 24 4, seq := 0 }, sliceUs := field d 28 4, gangMs := field d 32 4, vector := field d 36 4
    headVa := field d 40 8, head := 0, tail := 0, next := 0, completed := 0, suspended := false, headDue := false, sliceEnd := 0, served := 0, runs := [] }

/-- R367: the host queues of a device. -/
def queueCount (mode : Nat) : Nat := 64 * (deviceDies mode 0).length

/-- A creation, its status and the number: the lowest that is free. -/
def State.newQueue (s : State) (pf : Nat) : State × Nat × Nat :=
  if s.fw.recovery then (s, 0, 6)
  else if (s.devDies pf).isEmpty then (s, 0, 4)
  else match s.descriptor pf with
    | none => (s, 0, 3)
    | some d =>
      if !goodQueue d then (s, 0, 3)
      else if (s.ctx? pf (field d 12 4)).isNone then (s, 0, 5)
      else match (List.range (64 * (s.devDies pf).length)).find? fun i => (s.queue? pf i).isNone with
        | none => (s, 0, 2)
        | some num => ({ s with queues := s.queues ++ [queueFrom d pf num ((s.devDies pf).getD (num / 64) 0)] }, num, 0)

def execCreateQueue (pf : Nat) (s : State) : Host.Outcome State Fault Refusal :=
  if !s.hostUp || s.ctxBusy pf then .next s
  else
    let (s, num, status) := s.newQueue pf
    .next (s.ctxStat pf num status)

def State.dropQueue (s : State) (pf num : Nat) : State :=
  match s.queue? pf num with
  | none => s.ctxStat pf 0 5
  | some _ => (s.killQueue pf num 0x84).ctxStat pf 0 0

def execDestroyQueue (pf num : Nat) (s : State) : Host.Outcome State Fault Refusal :=
  .next (if s.hostUp && !s.ctxBusy pf then s.dropQueue pf num else s)

/-! ## PCAP and SYSSTAT (R389, R492) -/

/-- R384, R389: a cap in range takes effect at the next window. -/
def State.writeCap (s : State) (pf : Nat) (v : Word) : State :=
  let cap := v.toNat % 2 ^ 10
  if pf = 0 ∧ 150 ≤ cap ∧ cap ≤ 550 then s.endDue.modPower fun p => { p with capNext := cap } else s

def execPcap (pf : Nat) (v : Word) (s : State) : Host.Outcome State Fault Refusal :=
  .next (if s.hostUp then s.writeCap pf v else s)

/-- R492: writing 1 through PF0 clears a sticky bit. -/
def State.clearSticky (s : State) (pf : Nat) (v : Word) : State :=
  if pf = 0 then { s with evdrop := s.evdrop && !v.getLsbD 3, pfail := s.pfail && !v.getLsbD 2, hld := s.hld && !v.getLsbD 1 } else s

def execSysstat (pf : Nat) (v : Word) (s : State) : Host.Outcome State Fault Refusal :=
  .next (if s.hostUp then s.clearSticky pf v else s)

/-- R492. -/
def State.sysstat (s : State) : Nat :=
  let dies (p : Die → Bool) : Nat := maskOf ((List.range 4).filter fun d => p (s.die d))
  dies (·.off) * 2 ^ 28 + dies (·.halted) * 2 ^ 24 + maskOf ((List.range 4).filter fun k => (s.links.getD k default).failed) * 2 ^ 20
    + dies (·.dout) * 2 ^ 16 + dies (fun d => !d.quadLost.isEmpty) * 2 ^ 12 + bit s.evdrop * 8 + bit s.pfail * 4 + bit s.hld * 2

/-! ## Reading the registers (R366, R368, R369, R377, R388 to R391, R400, R492) -/

/-- R366: MODE. -/
def State.modeWord (s : State) : Nat := maskOf s.live * 2 ^ 4 + s.mode

/-- R372: BUSY reads 1 until every save of the function's launches has completed, whatever the last write to PREEMPT named. -/
def State.preemptBusy (s : State) (pf : Nat) : Bool :=
  s.launches.any fun l => l.pf == pf && (s.teamsOfLaunch l.id).any fun t => t.st == .saving

/-! ## The boot metadata (R393) -/

/-- CRC-32: the manual names no polynomial; that of IEEE 802.3 (log entry 90). -/
def crc32Bit (c : Nat) : Nat := if c % 2 = 1 then c / 2 ^^^ 0xEDB88320 else c / 2
def crc32Byte (c : Nat) (b : Byte) : Nat := (List.range 8).foldl (fun c _ => crc32Bit c) (c ^^^ b.toNat)
def crc32 (bs : List Byte) : Nat := bs.foldl crc32Byte 0xFFFFFFFF ^^^ 0xFFFFFFFF

/-- R393: where the metadata copies stand. -/
def metaPlace (copy : Bool) : Nat := placeBoot (if copy then 0x03FF8000 else 0x01FF8000)

/-- R393: the four words of a copy. -/
def Metadata.words (x : Metadata) : List Byte := leBytes 4 x.seq ++ leBytes 4 (bit x.active) ++ leBytes 4 x.cver ++ leBytes 4 x.tokcnt

/-- R393: what a copy holds, none where its CRC-32 does not hold. -/
def metaCopy (m : Memory) (copy : Bool) : Option Metadata :=
  let p := metaPlace copy
  if m.nat (p + 16) 4 = crc32 (m.bytes p 16) ∧ m.nat (p + 4) 4 < 2 then
    some { seq := m.nat p 4, active := m.nat (p + 4) 4 == 1, cver := m.nat (p + 8) 4, tokcnt := m.nat (p + 12) 4 }
  else none

/-- R393: the copy in force is the valid one with the higher SEQ. -/
def secondCopy (m : Memory) : Bool :=
  match metaCopy m false, metaCopy m true with
  | some a, some b => a.seq < b.seq
  | none, some _ => true
  | _, none => false

/-- R393: the metadata in force; where no copy is valid, that of log entry 20. -/
def bootMeta (m : Memory) : Metadata := (metaCopy m (secondCopy m)).getD Metadata.blank

/-! ## Reading the registers, continued -/

/-- R400: FWSTAT. -/
def Firmware.status (f : Firmware) (m : Memory) : Nat :=
  bit f.cmd.isSome * 2 ^ 31 + f.result * 2 ^ 16 + f.floor * 2 ^ 8 + bit f.fallback * 8 + bit (bootMeta m).active * 4 + bit f.running * 2 + bit f.pend.isSome

/-- The number of a quadrant or layer with index `i` in the window of a device (R388). -/
def State.domainOf (s : State) (pf i : Nat) : Option Nat := (s.devDies pf)[i / 4]?.map fun d => 4 * d + i % 4

/-- R369: the TIME registers of a device of `n` dies. -/
def timeRegisters (n : Nat) : List (Nat × Nat) := (List.range n).map fun i => (0x40 + 8 * i, 8)

/-- R369, R388, R400, R473, R492: the registers of a function's BAR0: offset and width in bytes. A function that leads no device
holds those that create one. -/
def bar0Registers (dies pf : Nat) : List (Nat × Nat) :=
  [(0x00, 4), (0x08, 8), (0x10, 8), (0x20, 8), (0x28, 4), (0x2C, 4), (0x30, 4)] ++ timeRegisters dies
    ++ (if dies ≠ 0 then [(0x60, 4), (0x70, 4), (0x100, 4), (0x108, 8), (0x110, 8)] ++ (List.range 16).map (fun i => (0x140 + 8 * i, 8))
        ++ (List.range 16).map (fun i => (0x1C0 + 4 * i, 4)) else [])
    ++ (if pf = 0 then [(0x200, 4), (0x208, 8), (0x210, 4)] else [])

/-- The value of a register of BAR0. A write-only register reads 0 (R8). -/
def State.bar0Value (s : State) (pf off : Nat) : Nat :=
  let p := s.power
  let w := s.window pf
  if off = 0x00 then s.modeWord
  else if off = 0x08 then spreadBase
  else if off = 0x10 then spreadSize
  else if off = 0x20 then w.ctxAddr.toNat
  else if off = 0x2C then bit (s.ctxBusy pf) * 2 ^ 31 + w.statNum * 2 ^ 16 + w.stat
  else if off = 0x30 then bit (s.preemptBusy pf) * 2 ^ 31 + w.preempt.toNat
  else if 0x40 ≤ off ∧ off < 0x60 then ((s.devDies pf)[(off - 0x40) / 8]?.map fun d => (s.die d).time % 2 ^ 64).getD 0
  else if off = 0x70 then s.sysstat
  else if off = 0x100 then p.capNext
  else if off = 0x108 then p.doneSeq % 2 ^ 32 * 2 ^ 32 + p.doneEnergy % 2 ^ 32
  else if off = 0x110 then p.throttled % 2 ^ 32 * 2 ^ 32 + p.debit % 2 ^ 32
  else if 0x140 ≤ off ∧ off < 0x1C0 then
    ((s.domainOf pf ((off - 0x140) / 8)).map fun i => p.droops.getD i 0 * 2 ^ 32 + p.ramps.getD i 0 * 2 ^ 24 + p.op.getD i 0).getD 0
  else if 0x1C0 ≤ off ∧ off < 0x200 then ((s.domainOf pf ((off - 0x1C0) / 4)).map fun i => p.layer.getD i 0).getD 0
  else if off = 0x200 then s.fw.status s.mem
  else if off = 0x208 then s.fw.addr.toNat
  else 0

/-- R369: the doorbells read 0, but all ones at a width that is not theirs; `has` says which exist. -/
def doorbellRead (has : Nat → Bool) (bar off width : Nat) : List Byte :=
  List.replicate width (if bar = 2 ∧ has (off / 4096) ∧ off % 4096 < 4 ∧ ¬ (off % 4096 = 0 ∧ width = 4) then 0xFF else 0)

/-- R369: what a host read of `width` bytes answers. -/
def State.registerRead (s : State) (pf bar off width : Nat) : List Byte :=
  let regs := bar0Registers (s.devDies pf).length pf
  if bar ≠ 0 then doorbellRead (fun i => (s.queue? pf i).isSome) bar off width
  else if regs.contains (off, width) then leBytes width (s.bar0Value pf off)
  else if regs.any fun r => r.1 < off + width && off < r.1 + r.2 then List.replicate width 0xFF
  else List.replicate width 0

/-! ## BAR4 (R24, R369, R374, R482) -/

/-- R24, R498, R503: does host traffic reach the DRAM of a die? -/
def State.hostReaches (s : State) (d : Nat) : Bool := s.portServes && s.reaches 0 d && !(s.die d).off

/-- R369: the place of a byte of the aperture, none outside the device's DRAM. -/
def State.bar4Place (s : State) (pf off : Nat) : Option Nat :=
  let d := off / 2 ^ 36
  if (s.devDies pf).contains d && off % 2 ^ 36 < dramBytes then some (placeDram d (off % 2 ^ 36)) else none

def State.bar4Bytes (s : State) (pf off n : Nat) : List Byte :=
  (List.range n).map fun i => match s.bar4Place pf (off + i) with
    | some p => s.mem.get p
    | none => 0xFF

/-- R480, R482: a word of the range is uncorrectable. -/
def State.bar4Bad (s : State) (pf off n : Nat) : Bool :=
  (List.range n).any fun i => match s.bar4Place pf (off + i) with
    | some p => s.isBad p
    | none => false

/-- R138: a write performs at `.sys`, byte by byte, where the device has storage; a word that it fills is good again. -/
def State.bar4Write (s : State) (pf off : Nat) (bs : List Byte) : State :=
  let m := bs.zipIdx.foldl (fun m x => match s.bar4Place pf (off + x.2) with
    | some p => m.set p x.1
    | none => m) s.mem
  match s.bar4Place pf off with
  | some p => ({ s with mem := m }.conflictRange p bs.length true).touch p bs.length
  | none => { s with mem := m }

/-- R374: the AtomicOps of 32 and 64 bits: the new value. -/
def atomicValue (op : HostOp) (n old : Nat) (bs : List Byte) : Nat :=
  match op with
  | .fetchAdd => (old + leNat bs) % 2 ^ (8 * n)
  | .swap => leNat bs
  | .cas => if old = leNat (bs.take n) then leNat (bs.drop n) else old
  | _ => old

def State.bar4Atomic (s : State) (pf off : Nat) (bs : List Byte) (op : HostOp) : State :=
  let n := if op = .cas then bs.length / 2 else bs.length
  if !(n == 4 || n == 8) || (op == .cas && bs.length != 2 * n) || off % n != 0 || (s.bar4Place pf off).isNone then s
  else if s.bar4Bad pf off n then { s with answers := s.answers ++ [.completerAbort] }
  else
    let old := s.bar4Bytes pf off n
    { s.bar4Write pf off (leBytes n (atomicValue op n (leNat old) bs)) with answers := s.answers ++ [.bytes old] }

def State.bar4 (s : State) (pf off : Nat) (bytes : List Byte) (op : HostOp) : State :=
  match s.bar4Place pf off with
  | some p =>
    if !s.hostReaches (homeDie p) then s
    else match op with
      | .read =>
        if s.bar4Bad pf off bytes.length then { s with answers := s.answers ++ [.completerAbort] }
        else { s.conflictRange p bytes.length false with answers := s.answers ++ [.bytes (s.bar4Bytes pf off bytes.length)] }
      | .write => s.bar4Write pf off bytes
      | _ => s.bar4Atomic pf off bytes op
  | none => if s.portServes ∧ op = .read then { s with answers := s.answers ++ [.bytes (s.bar4Bytes pf off bytes.length)] } else s

def execBar4Access (pf off : Nat) (bytes : List Byte) (op : HostOp) (s : State) : Host.Outcome State Fault Refusal :=
  .next (s.bar4 pf off bytes op)

/-- A host read of `width` bytes through a PF. -/
def State.hostRead (s : State) (pf bar off width : Nat) : State :=
  if bar = 4 then s.bar4 pf off (List.replicate width 0) .read
  else if s.hostUp then { s with answers := s.answers ++ [.bytes (s.registerRead pf bar off width)] } else s

/-! ## Virtual functions (R373) -/

/-- R373: a leading PF has up to 8 virtual functions, to which its driver assigns queues. -/
def State.vfAssign (s : State) (pf vf : Nat) (queues : List Nat) : State :=
  if (s.devDies pf).isEmpty ∨ 8 ≤ vf ∨ !s.hostUp then s
  else { s with vfs := (pf, vf, sortNat (dedup queues)) :: s.vfs.filter fun x => !(x.1 == pf && x.2.1 == vf) }

/-- The queue of the PF that doorbell `i` of a virtual function rings: its queues are renumbered 0 upwards. -/
def State.vfQueue (s : State) (pf vf i : Nat) : Option Nat :=
  (s.vfs.find? fun x => x.1 == pf && x.2.1 == vf).bind fun x => x.2.2[i]?

/-- A virtual function writes doorbells only. -/
def State.vfWrite (s : State) (pf vf bar off width : Nat) (v : DWord) : State :=
  if bar = 2 ∧ off % 4096 = 0 ∧ width = 4 ∧ s.hostUp then match s.vfQueue pf vf (off / 4096) with
    | some q => s.ringDoorbell pf q (v.setWidth 32)
    | none => s
  else s

/-- Its BAR0 holds MODE and TIME. -/
def vfRegisters (dies : Nat) : List (Nat × Nat) := (0x00, 4) :: timeRegisters dies

def State.vfRead (s : State) (pf vf bar off width : Nat) : State :=
  let regs := vfRegisters (s.devDies pf).length
  let value : List Byte :=
    if bar = 0 ∧ regs.contains (off, width) then leBytes width (s.bar0Value pf off)
    else if bar = 0 ∧ regs.any fun r => r.1 < off + width && off < r.1 + r.2 then List.replicate width 0xFF
    else doorbellRead (fun i => (s.vfQueue pf vf i).isSome) bar off width
  if s.hostUp ∧ vf < 8 then { s with answers := s.answers ++ [.bytes value] } else s

end Sys2Proof.Machine
end

