-- ==== Sys2Proof/Machine/Links.lean ====
section
/-! DEFINITION. The UCIe links (R497, R498), the host link (R499), scrubbing and corrected errors (R480 to R482). -/

namespace Sys2Proof.Machine

def State.link (s : State) (k : Nat) : Link := s.links.getD k default
def State.modLink (s : State) (k : Nat) (f : Link → Link) : State := { s with links := modNth k f s.links }

/-- R491: the dies of link 0 to 3, in ascending order. -/
def linkEnds (k : Nat) : List Nat := [[0, 1], [1, 3], [2, 3], [0, 2]].getD k []

/-- R490: an event of a link reaches the contexts of either die. Each context's is written by the lower of the link's dies
that its device holds (log entry 28). `dies` restricts who writes. -/
def State.linkEvent (s : State) (k code status detail : Nat) (writes : Nat → Bool) : State :=
  s.contexts.foldl (fun s c => match (linkEnds k).find? fun d => (s.devDies c.pf).contains d with
    | some d => if writes d then let w := s.writerFor c.pf d
      s.ctxEvent c.pf c.num w 2 code w status detail
      else s
    | none => s) s

/-- R22, R498: does a route join two dies, whatever their power? -/
def State.routed (s : State) (a b : Nat) : Bool :=
  if a = b then true
  else if (linkOf a b).isSome then s.linkUp a b
  else ([0, 1, 2, 3].filter fun d => d != a && d != b).any fun d => s.linkUp a d && s.linkUp d b

def diePairs : List (Nat × Nat) := [(0, 1), (0, 2), (0, 3), (1, 2), (1, 3), (2, 3)]

/-- R498: a link fails: the contexts of the pairs that lose their route end, and so do those of a die that loses the host. -/
def State.failLink (s : State) (k : Nat) : State :=
  let t := s.modLink k fun x => { x with failed := true, retraining := false }
  let lost := diePairs.filter fun p => s.routed p.1 p.2 && !t.routed p.1 p.2
  let cut := [1, 2, 3].filter fun d => s.routed 0 d && !t.routed 0 d
  let t := t.contexts.foldl (fun t c =>
    let ds := t.devDies c.pf
    if (lost.any fun p => ds.contains p.1 && ds.contains p.2) || cut.any ds.contains then t.terminate c.pf c.num 0x91 else t) t
  let t := cut.foldl (fun t d => t.modDie d fun x => { x with noContext := true }) t
  (t.linkEvent k 0x31 0x91 (sysDetail k 0xFF 0 0) fun _ => true).refuseGangs

/-- R497: a flit is replayed; `again` says that it is the flit of the last replay. -/
def execFlitReplay (link : Nat) (again : Bool) (s : State) : Host.Outcome State Fault Refusal :=
  if (s.link link).failed || (s.link link).retraining || 8 ≤ (s.link link).replays then .next s
  else .next (s.modLink link fun x => { x with replays := if again then x.replays + 1 else 1, retried := x.retried + 1 })

/-- R497: the eighth replay of a flit starts a retrain; a third retrain within one second fails the link. -/
def execLinkRetrain (link : Nat) (s : State) : Host.Outcome State Fault Refusal :=
  let x := s.link link
  if x.failed || x.retraining || x.replays < 8 then .next s
  else
    let now := (s.die ((linkEnds link).getD 0 0)).time
    let recent := now :: x.recent.filter fun t => now < t + 1000000000
    let s := s.modLink link fun x => { x with retraining := true, replays := 0, retrains := x.retrains + 1, recent }
    .next (if 3 ≤ recent.length then s.failLink link else s)

/-- R491, R497: the record of a retrain, where its die may write one. -/
def State.retrained (s : State) (k : Nat) : State :=
  let x := s.link k
  let ds := (linkEnds k).filter fun d => s.mayNotice d && s.contexts.any fun c => ((linkEnds k).find? fun e => (s.devDies c.pf).contains e) == some d
  if ds.isEmpty then s
  else
    let s := s.linkEvent k 0x30 0 (sysDetail k 0xFF (min x.retried 0xFFFF) x.retrains) ds.contains
    (ds.foldl (fun s d => s.noticed d) s).modLink k fun x => { x with retried := 0 }

def execLinkRetrainEnd (link : Nat) (ok : Bool) (s : State) : Host.Outcome State Fault Refusal :=
  if !(s.link link).retraining then .next s
  else if ok then .next ((s.modLink link fun x => { x with retraining := false }).retrained link)
  else .next (s.failLink link)

/-- R499: every context ends with 0x92 and is destroyed, and no event record is written. -/
def execHostLinkDown (s : State) : Host.Outcome State Fault Refusal :=
  if !s.hostUp then .next s
  else
    let s := { s with hostUp := false, hld := true }
    .next (s.contexts.foldl (fun s c => (s.terminate c.pf c.num 0x92).killContext c.pf c.num) s)

def execHostLinkUp (s : State) : Host.Outcome State Fault Refusal := .next { s with hostUp := true }

/-! ## Data errors that no request finds (R480 to R482) -/

/-- How many records each context has had, and how many wait. -/
def State.recorded (s : State) : List Nat × Nat := (s.contexts.map (·.ring.seq), s.outbox.length)

/-- R481: an error is corrected: it counts, and a record is due once in the interval. DETAIL[47:32] holds the count, which goes on
where no context gets the record. -/
def State.noteCorrected (s : State) (d n detail : Nat) : State :=
  let s := s.modDie d fun x => { x with corrected := x.corrected + n }
  let x := s.die d
  let due : Bool := match x.correctedAt with
    | some t => t + s.limits.correctedInterval ≤ x.time
    | none => true
  if due then
    let dt := detail / 2 ^ 48 * 2 ^ 48 + min x.corrected 0xFFFF * 2 ^ 32 + detail % 2 ^ 32
    let s' := s.systemEvent [d] d 0x20 0 dt
    if s'.recorded = s.recorded then s' else s'.modDie d fun x => { x with corrected := 0, correctedAt := some x.time }
  else s

/-- R482: nobody's request found the error: every context whose device holds the die ends, with event 0x21. -/
def State.dieDataError (s : State) (d detail : Nat) : State :=
  (s.terminateAll [d] 0x37).1.systemEvent [d] d 0x21 0x37 detail

/-- R480: the scrubber reads the DRAM word of number `word` (of 64 bytes) of the die, with the symbols that it corrects. -/
def execPatrolScrub (die word corrected : Nat) (s : State) : Host.Outcome State Fault Refusal :=
  let place := placeDram die (64 * word)
  if 4 ≤ die || dramBytes ≤ 64 * word || (s.die die).off then .next s
  else if s.isBad place then .next (s.dieDataError die place)
  else if corrected = 0 then .next s
  else .next (s.noteCorrected die corrected place)

end Sys2Proof.Machine
end

