-- ==== Sys2Proof/Machine/Firmware.lean ====
section
/-! DEFINITION. The boot store and its images, the firmware commands and the package reset (R393 to R400, R405 to R407, R505,
R506), and writes of registers (R369). Hashes and signatures are uninterpreted (log entry 12). -/

namespace Sys2Proof.Machine

/-! ## Images (R393 to R395) -/

/-- R393. -/
def bankBytes : Nat := 0x01FF8000
def bankPlace (b : Bool) : Nat := placeBoot (if b then 0x02000000 else 0)

/-- R394: the signed body, and its digest. -/
def signedBody (m : Memory) (p : Nat) : List Byte := m.bytes p 544
def manifestDigest (m : Memory) (p : Nat) : List Byte := Config.sha384 (signedBody m p)
def imageSvn (m : Memory) (p : Nat) : Nat := m.nat (p + 8) 4
def imageVer (m : Memory) (p : Nat) : Nat := m.nat (p + 12) 4

/-- R393: where the scheduler firmware stands in a bank. -/
def firmwareAt (m : Memory) (p : Nat) : Nat := (0x4000 + m.nat (p + 16) 4 + 4095) / 4096 * 4096

/-- R394: magic, layout version, SVN, lengths and reserved bytes. An image whose reserved bytes are not 0 is no image (log entry 108). -/
def goodManifest (m : Memory) (p : Nat) : Bool :=
  m.nat p 4 == 0x4D584649 && m.nat (p + 6) 2 == 1 && imageSvn m p ≤ 64 && firmwareAt m p + m.nat (p + 20) 4 ≤ bankBytes && m.nat (p + 120) 8 == 0

/-- R395: the key hash and both signatures. -/
def goodSignatures (m : Memory) (p : Nat) : Bool :=
  Config.sha384 (m.bytes (p + 128) 416) == Config.keyHash
    && Config.rsaVerify (m.bytes (p + 128) 384) (m.bytes (p + 544) 384) (signedBody m p)
    && Config.slhVerify (m.bytes (p + 512) 32) (m.bytes (p + 928) 7856) (signedBody m p)

/-- R395: both image hashes. -/
def goodHashes (m : Memory) (p : Nat) : Bool :=
  Config.sha384 (m.bytes (p + 0x4000) (m.nat (p + 16) 4)) == m.bytes (p + 24) 48
    && Config.sha384 (m.bytes (p + firmwareAt m p) (m.nat (p + 20) 4)) == m.bytes (p + 72) 48

/-- R395, R400: the RESULT of checking an image under every condition but the IMGVER; 0 where it passes. Of several breaches
the first of this order is reported (log entry 29). -/
def checkImage (m : Memory) (p floor : Nat) : Nat :=
  if !goodManifest m p then 5
  else if m.nat (p + 4) 2 != 0x200 then 6
  else if !goodSignatures m p then 1
  else if imageSvn m p < floor then 2
  else if !goodHashes m p then 5
  else 0

/-- R395: a valid image. -/
def Firmware.valid (f : Firmware) (m : Memory) (b : Bool) : Bool :=
  checkImage m (bankPlace b) f.floor == 0 && (bootMeta m).cver ≤ imageVer m (bankPlace b)

/-! ## Metadata (R393) -/

/-- The other copy is written with SEQ + 1, modulo 2^32 as SEQ is an n32. -/
def Memory.putMeta (m : Memory) (x : Metadata) : Memory :=
  let w := { x with seq := ((bootMeta m).seq + 1) % 2 ^ 32 }.words
  m.write (metaPlace !secondCopy m) (w ++ leBytes 4 (crc32 w))

/-- A write that a loss of power cuts leaves the other copy with a CRC-32 that does not hold. -/
def Memory.cutMeta (m : Memory) : Memory := m.clear (metaPlace !secondCopy m) 20

/-! ## Commands (R397 to R400) -/

def State.modFw (s : State) (f : Firmware → Firmware) : State := { s with fw := f s.fw }
def State.fwResult (s : State) (r : Nat) : State := s.modFw fun f => { f with result := r }

/-- R400: FWADDR names an offset in D0's DRAM. -/
def State.fwSource (s : State) (n : Nat) : Option Nat :=
  let a := s.fw.addr.toNat
  if a % 4096 = 0 ∧ a + n ≤ dramBytes then some (placeDram 0 a) else none

/-- The result of an update of the boot store and the firmware's state. -/
def State.putFw (s : State) (m : Memory) (f : Firmware) : State := { s with mem := m, fw := f }

/-- R400, R505: the bank that `STAGE` writes: that which is not running; in recovery either, as the device chooses. -/
def State.stageBank (s : State) : Bool := if s.fw.recovery then Config.pick s.free % 2 == 1 else !s.fw.running

/-- R400: the RESULT of checking what `STAGE` finds at FWADDR, and where it stands. -/
def State.stageFrom (s : State) : Nat × Nat :=
  match s.fwSource bankBytes with
  | none => (9, 0)
  | some src => (checkImage s.mem src s.fw.floor, src)

/-- R400: `STAGE`. What the device writes reads back as written, so the second check finds what the first did. -/
def State.stage (s : State) : State :=
  let (r, src) := s.stageFrom
  let s' := if s.fw.recovery then { s with free := s.free + 1 } else s
  if r ≠ 0 then s'.fwResult r
  else { s' with
    mem := s.mem.copy src (bankPlace s.stageBank) bankBytes
    fw := { s.fw with lost := s.fw.lost.filter (· != s.stageBank) } }.fwResult 0

/-- A row for a firmware command, which FWSTAT.BUSY and a lost host link keep out (R400). -/
def State.fwRow (s : State) (f : State → State) : State := if s.hostUp && s.fw.cmd.isNone then f s else s

def execStage (s : State) : Host.Outcome State Fault Refusal := .next (s.fwRow State.stage)

/-- R398: the rollback token at FWADDR for bank `b`: the RESULT, 0 where it is accepted. -/
def State.checkToken (s : State) (b : Bool) : Nat :=
  match s.fwSource 8308 with
  | none => 3
  | some t =>
    let m := s.mem
    let run := bankPlace s.fw.running
    if m.nat t 4 != 0x4D585254 then 3
    else if s.fw.loaded && m.bytes (t + 4) 8 == Config.uniqueId && m.nat (t + 12) 4 == imageVer m (bankPlace b)
        && m.nat (t + 16) 4 == (bootMeta m).tokcnt && m.bytes (t + 20) 48 == manifestDigest m (bankPlace b)
        && Config.rsaVerify (m.bytes (run + 128) 384) (m.bytes (t + 68) 384) (m.bytes t 68)
        && Config.slhVerify (m.bytes (run + 512) 32) (m.bytes (t + 452) 7856) (m.bytes t 68) then 0
    else 4

/-- R398, R400: is a rollback token presented at FWADDR? -/
def State.presents (s : State) : Bool :=
  match s.fwSource 8308 with
  | none => false
  | some t => s.mem.nat t 4 == 0x4D585254

/-- R398: what a token that is accepted for bank `b` names. -/
def State.accepted (s : State) (b : Bool) : Accepted :=
  { ver := imageVer s.mem (bankPlace b), tokcnt := (bootMeta s.mem).tokcnt, digest := manifestDigest s.mem (bankPlace b) }

/-- R398: ACTIVE, and with a token TOKCNT and CVER, in one metadata write. -/
def State.setActive (s : State) (b : Bool) (token : Option Accepted) : State :=
  let x := bootMeta s.mem
  s.putFw (s.mem.putMeta (match token with
    | some a => { x with active := b, cver := a.ver, tokcnt := (x.tokcnt + 1) % 2 ^ 32 }
    | none => { x with active := b })) { s.fw with pend := none, result := 0 }

/-- R398: does `ACTIVATE` of a bank judge a token: it needs one, or one is presented (log entry 92)? -/
def State.judgesToken (s : State) (b : Bool) : Bool := imageVer s.mem (bankPlace b) < (bootMeta s.mem).cver || s.presents

/-- R398, R399: `ACTIVATE`. -/
def State.activate (s : State) (b : Bool) : State :=
  let r := checkImage s.mem (bankPlace b) s.fw.floor
  let judged := s.judgesToken b
  let r := if r = 0 ∧ judged then s.checkToken b else r
  let token := if judged then some (s.accepted b) else none
  if r ≠ 0 then s.fwResult r
  else if s.contexts.any (·.hostFw) then s.modFw fun f => { f with pend := some (b, token), result := 7 }
  else s.setActive b token

def execActivate (bank : Bool) (s : State) : Host.Outcome State Fault Refusal := .next (s.fwRow (·.activate bank))

/-- R397: may `COMMIT` run? -/
def State.mayCommit (s : State) : Bool := s.fw.loaded && !s.fw.recovery && s.fw.running == (bootMeta s.mem).active && !s.fw.fallback

/-- R397: the floor rises to the running SVN, one fuse after another, of which `n` are blown. -/
def Firmware.blow (f : Firmware) (n : Nat) : Firmware := { f with floor := min (f.floor + n) (max f.floor f.runSvn) }
def State.newCver (s : State) : Memory := s.mem.putMeta { bootMeta s.mem with cver := s.fw.runVer }

def State.commitFw (s : State) : State :=
  if s.mayCommit then s.putFw s.newCver { s.fw.blow 64 with result := 0 } else s.fwResult 9

def execCommit (s : State) : Host.Outcome State Fault Refusal := .next (s.fwRow State.commitFw)

/-- R398, R399: the RESULT of checking the bank of a pending activation again: a `STAGE` or a `COMMIT` may have come since. The token
is still the bank's where what it names is unchanged; an image below CVER needs one. -/
def State.pendResult (s : State) (b : Bool) (token : Option Accepted) : Nat :=
  let r := checkImage s.mem (bankPlace b) s.fw.floor
  if r ≠ 0 then r
  else match token with
    | some a => if a = s.accepted b then 0 else 4
    | none => if imageVer s.mem (bankPlace b) < (bootMeta s.mem).cver then 3 else 0

/-- R399: `COUNTERSIGN`. A failed one ends the pending activation (log entry 29). -/
def State.countersign (s : State) : State :=
  match s.fw.pend with
  | none => s.fwResult 9
  | some (b, token) =>
    match s.fwSource 768 with
    | none => s.modFw fun f => { f with pend := none, result := 8 }
    | some t =>
      let modulus := s.mem.bytes t 384
      if Config.sha384 modulus == Config.countersignHash
          && Config.rsaVerify modulus (s.mem.bytes (t + 384) 384) (manifestDigest s.mem (bankPlace b)) then
        if s.pendResult b token = 0 then s.setActive b token
        else s.modFw fun f => { f with pend := none, result := s.pendResult b token }
      else s.modFw fun f => { f with pend := none, result := 8 }

def execCountersign (s : State) : Host.Outcome State Fault Refusal := .next (s.fwRow State.countersign)

/-! ## Reset and loss of power (R366, R377, R396, R407, R505) -/

/-- R396, R505: the bank that boots: ACTIVE if it is valid, else the other; none where no bank is valid. `lost` names the banks
whose copies to the other dies fail three times. -/
def Firmware.bootBank (f : Firmware) (m : Memory) (lost : List Bool) : Option Bool :=
  [(bootMeta m).active, !(bootMeta m).active].find? fun b => f.valid m b && !lost.contains b

/-- R396, R505: the bank boots and its load is in progress, or the device is in recovery. -/
def Firmware.boot (f : Firmware) (m : Memory) (lost : List Bool) : Firmware :=
  let f := { f with pend := none, lost, cmd := none, loading := false, result := 0, addr := 0, running := false, runVer := 0, runSvn := 0, loaded := false, recovery := true, fallback := false }
  match f.bootBank m lost with
  | none => f
  | some b => { f with running := b, runVer := imageVer m (bankPlace b), runSvn := imageSvn m (bankPlace b), loaded := true, loading := true, recovery := false, fallback := b != (bootMeta m).active }

/-- R406: the bounded parameters as the image of a bank sets them. -/
def bootLimits (m : Memory) : Option Bool → Config.Limits
  | none => Config.Limits.reset
  | some b => (Config.imageLimits (m.bytes (bankPlace b) bankBytes)).clamp

/-- The package boots: boot store, host memory and fuses as given, what has gone out to the host, the host's own state and the
model's counters remain; every other memory is lost, and with it every table and rulebook (R318, log entry 30). -/
def State.rebooted (s : State) (m : Memory) (f : Firmware) (lost : List Bool) : State :=
  { State.reset with
    mem := m.filter fun c => isHost c.1 || 2 ^ 54 ≤ c.1, fw := f.boot m lost, limits := bootLimits m (f.bootBank m lost)
    hostUp := s.hostUp, msix := s.msix, answers := s.answers, hostBad := s.hostBad, agenda := s.agenda, free := s.free, fresh := s.fresh }

/-- R400, R407: the boot store once a `STAGE` that is under way and writing has been cut. -/
def State.cutStage (s : State) : Memory :=
  if s.fw.cmd = some 1 ∧ s.stageFrom.1 = 0 then s.mem.clear (bankPlace s.stageBank) bankBytes else s.mem

/-- R396, R407: a reset, which may cut a `STAGE` that is writing. -/
def execPackageReset (cut : Bool) (lost : List Bool) (s : State) : Host.Outcome State Fault Refusal :=
  .next (s.rebooted (if cut then s.cutStage else s.mem) s.fw lost)

/-- The value of FWCMD that asks for an update. -/
def updateWord : FwUpdate → Nat
  | .activate b => 2 + 256 * bit b
  | .commit => 3

/-- R407: what a cut update leaves: old or new metadata, and the fuses that are blown. Only an update that is under way is cut. -/
def State.cutUpdate (s : State) (during : Option FwUpdate) (blown : Nat) (done : Bool) : State :=
  match during.filter fun u => s.fw.cmd == some (updateWord u) with
  | none => s
  | some (.activate b) =>
    let m := (s.activate b).mem
    if m = s.mem then s else s.putFw (if done then m else s.mem.cutMeta) s.fw
  | some .commit => if s.mayCommit then s.putFw (if done then s.newCver else s.mem.cutMeta) (s.fw.blow blown) else s

/-- R407: power is lost, with everything but the boot store and the fuses, and the package boots when it is back, with the
copies failing that failed at its last boot (log entry 112). -/
def execPackagePowerLoss (during : Option FwUpdate) (blown : Nat) (done : Bool) (s : State) : Host.Outcome State Fault Refusal :=
  let s' := s.cutUpdate during blown done
  .next (s'.rebooted s'.cutStage s'.fw s'.fw.lost)

/-! ## Pavilion faults (R493, R506) -/

def dayNs : Nat := 86400000000000

/-- R506: the contexts of the die end and the Lodge reloads it; a third fault in a day takes it out of service. -/
def State.pavilionFault (s : State) (d cause : Nat) : State :=
  if 4 ≤ d || (s.die d).off || (s.die d).dout || !s.fw.loaded then s
  else
    let s := ((s.loseStolen d).terminateAll [d] cause).1
    let now := (s.die d).time
    let fs := now :: (s.die d).faults.filter fun t => now < t + dayNs
    (s.modDie d fun x => { x with faults := fs, dout := 3 ≤ fs.length }).refuseGangs

def execSchedulerFirmwareFault (die : Nat) (s : State) : Host.Outcome State Fault Refusal := .next (s.pavilionFault die 0xB0)

def execBitstreamIntegrityFault (die : Nat) (s : State) : Host.Outcome State Fault Refusal := .next (s.pavilionFault die 0xB1)

/-! ## Writes of registers (R9, R369, R400) -/

/-- R369: what a value of CTXCMD asks for. -/
def State.writeCtxCmd (s : State) (pf v : Nat) : State :=
  let num := v / 2 ^ 16
  if v % 2 ^ 16 = 1 ∧ num = 0 then let (s, n, st) := s.newContext pf
    s.ctxStat pf n st
  else if v % 2 ^ 16 = 2 then s.dropContext pf num
  else if v % 2 ^ 16 = 3 ∧ num = 0 then let (s, n, st) := s.newQueue pf
    s.ctxStat pf n st
  else if v % 2 ^ 16 = 4 then s.dropQueue pf num
  else s.ctxStat pf (s.window pf).statNum 7

/-- R400: what a value of FWCMD asks for. -/
def State.writeFwCmd (s : State) (v : Nat) : State :=
  if v = 1 then s.stage
  else if v % 2 ^ 8 = 2 ∧ v / 2 ^ 8 < 2 then s.activate (v.testBit 8)
  else if v = 3 then s.commitFw
  else if v = 4 then s.countersign
  else s.fwResult 9

/-- R369, R396, R400: the Lodge ends what it is carrying out: for no function the load after a reset, else the command of
FWCMD; for a function that of CTXCMD, which waits for the load. Until then BUSY reads 1. -/
def State.lodge (s : State) : Option Nat → State
  | none =>
    if s.fw.loading then s.modFw fun f => { f with loading := false }
    else match s.fw.cmd with
      | none => s
      | some v => (s.modFw fun f => { f with cmd := none }).writeFwCmd v
  | some pf =>
    match s.fw.loading, (s.window pf).cmd with
    | false, some v => (s.modWindow pf fun x => { x with cmd := none }).writeCtxCmd pf v
    | _, _ => s

/-- R369, R400: a write of the register of BAR0 at an offset; BUSY drops those of the command registers. -/
def State.writeBar0 (s : State) (pf off : Nat) (v : DWord) : State :=
  let w := v.setWidth 32
  if off = 0x20 then if s.ctxBusy pf then s else s.modWindow pf fun x => { x with ctxAddr := v }
  else if off = 0x28 then if s.ctxBusy pf then s else s.modWindow pf fun x => { x with cmd := some w.toNat }
  else if off = 0x30 then if w.getLsbD 16 then s.suspendQueue pf (w.toNat % 256) else s.resumeQueue pf (w.toNat % 256)
  else if off = 0x60 then match (s.devDies pf)[w.toNat / 2 ^ 24 % 4]? with
    | some die => s.placementReply pf die (w.toNat % 2 ^ 9) (!w.getLsbD 31)
    | none => s
  else if off = 0x70 then s.clearSticky pf w
  else if off = 0x100 then s.writeCap pf w
  else if off = 0x208 then if s.fw.cmd.isSome then s else s.modFw fun f => { f with addr := v }
  else if off = 0x210 then if s.fw.cmd.isSome then s else s.modFw fun f => { f with cmd := some w.toNat }
  else s

/-- R369: a write of `width` bytes: one of the register's width reaches it, any other is dropped. -/
def State.writeRegister (s : State) (pf bar off width : Nat) (v : DWord) : State :=
  if bar = 0 then if (bar0Registers (s.devDies pf).length pf).contains (off, width) then s.writeBar0 pf off v else s
  else if bar = 2 then if off % 4096 = 0 ∧ width = 4 then s.ringDoorbell pf (off / 4096) (v.setWidth 32) else s
  else if bar = 4 then s.bar4 pf off (leBytes width v.toNat) .write
  else s

def execRegisterWrite (pf bar off width : Nat) (v : DWord) (s : State) : Host.Outcome State Fault Refusal :=
  .next (if s.hostUp then s.writeRegister pf bar off width v else s)

end Sys2Proof.Machine
end

