-- ==== Sys2Proof/Machine/Management.lean ====
section
/-! DEFINITION. The management endpoint: SPDM (R401 to R403, R507), PLDM and MCTP control (R376). Each row appends its answer
to `State.answers`. Signatures and the bytes that other standards fix are uninterpreted (log entry 12). -/

namespace Sys2Proof.Machine

def State.answer (s : State) (a : Answer) : State := { s with answers := s.answers ++ [a] }

def spdmVersion : Nat := 0x13

/-- R396, R507: no request is served while firmware is loading. -/
def State.ready (s : State) (f : State → State) : State := if s.fw.loading then s.answer (.error "Busy") else f s

/-- R401, R507: a request of version 1.3 in its place in the sequence; `need` are the sessions that it may come in. After a choice of
no algorithm no request is. -/
def State.spdm (s : State) (version : Nat) (need : List Session) (f : State → State) : State :=
  s.ready fun s =>
    if s.session = .none_ then s.answer (.error "UnexpectedRequest")
    else if version ≠ spdmVersion then s.answer (.error "VersionMismatch")
    else if !need.contains s.session then s.answer (.error "UnexpectedRequest")
    else f s

/-- `GET_VERSION` starts the sequence; after a choice of no algorithm every request is out of place. -/
def execGetVersion (s : State) : Host.Outcome State Fault Refusal :=
  .next (s.ready fun s => if s.session = .none_ then s.answer (.error "UnexpectedRequest") else { s with session := .versioned }.answer (.version spdmVersion))

/-- R401: CERT_CAP, CHAL_CAP, MEAS_CAP with signature, MEAS_FRESH_CAP and CTExponent 22. -/
def execGetCapabilities (version : Nat) (s : State) : Host.Outcome State Fault Refusal :=
  .next (s.spdm version [.versioned, .capable] fun s => { s with session := .capable }.answer (.capabilities true true true true 22))

/-- R401: in each of the four lists of what the requester offers, 0 is the one that the device has; it selects each of its own
that is offered. -/
def execNegotiateAlgorithms (version : Nat) (asym hash : List Nat) (meas : MeasurementOffer) (s : State) : Host.Outcome State Fault Refusal :=
  .next (s.spdm version [.capable] fun s =>
    let some_ := asym.contains 0 || hash.contains 0 || meas.hashes.contains 0 || meas.specs.contains 0
    { s with session := if some_ then .selected else .none_ }.answer (.algorithms (asym.contains 0) (hash.contains 0) (meas.hashes.contains 0) (meas.specs.contains 0)))

def execGetDigests (version : Nat) (s : State) : Host.Outcome State Fault Refusal :=
  .next (s.spdm version [.selected] fun s => s.answer (.digests (Config.sha384 Config.certificateChain)))

/-- R401: slot 0 only. -/
def execGetCertificate (version slot offset length : Nat) (s : State) : Host.Outcome State Fault Refusal :=
  .next (s.spdm version [.selected] fun s =>
    let chain := Config.certificateChain
    if slot ≠ 0 ∨ chain.length ≤ offset then s.answer (.error "InvalidRequest")
    else s.answer (.certificate ((chain.drop offset).take length) (chain.length - (offset + length))))

/-- R402: the part of a transcript before OpaqueLength: the response's header fields, by its code, and what it carries. -/
def transcript (code : Nat) (body : List Byte) : List Byte := Config.spdmHeader code ++ body

/-- R402: the co-signature over a transcript, as the one element of OpaqueData. -/
def coSigned (body : List Byte) : OpaqueElement := { vendor := 0x1D9E, kind := 1, coSignature := Config.slhSign body }

/-- R402: the bytes that the RSA signature covers: the whole response, with OpaqueLength and OpaqueData. -/
def OpaqueElement.cover (x : OpaqueElement) (before : List Byte) : List Byte :=
  let data := Config.opaqueData x.vendor x.kind x.coSignature
  before ++ leBytes 2 data.length ++ data

/-- R402, R507: an answer with its co-signature and, where it is signed, its RSA signature; one that the Lodge's own check
fails is not sent. -/
def State.respond (s : State) (signed : Bool) (before : List Byte) (f : OpaqueElement → List Byte → Answer) : State :=
  let co := coSigned before
  let sig := if signed then Config.rsaSign (co.cover before) else []
  if Config.slhVerify Config.slhKey co.coSignature before && (!signed || Config.rsaVerify Config.leafKey sig (co.cover before)) then s.answer (f co sig)
  else s.answer (.error "Unspecified")

/-- R402: `CHALLENGE`. The transcript is the nonce and the digest of the chain (log entry 12). -/
def execChallenge (version slot : Nat) (nonce : List Byte) (s : State) : Host.Outcome State Fault Refusal :=
  .next (s.spdm version [.selected] fun s =>
    if slot ≠ 0 then s.answer (.error "InvalidRequest")
    else s.respond true (transcript 0x03 (nonce ++ Config.sha384 Config.certificateChain)) .challengeAuth)

/-- R403, R505: the digest of a bank; one whose copies failed at the boot is invalid. -/
def State.bankDigest (s : State) (b : Bool) : List Byte :=
  if s.fw.valid s.mem b && !s.fw.lost.contains b then manifestDigest s.mem (bankPlace b) else List.replicate 48 0

/-- R403: the measurements: DMTF type and value, by index. -/
def State.measurement (s : State) : Nat → Option (Nat × List Byte)
  | 1 => some (0x00, Config.sha384 Config.lodgeRom)
  | 2 => some (0x01, s.bankDigest false)
  | 3 => some (0x01, s.bankDigest true)
  | 4 =>
    let p := bankPlace s.fw.running
    some (0x01, if s.fw.loaded then Config.sha384 (s.mem.bytes (p + 0x4000) (s.mem.nat (p + 16) 4)) else List.replicate 48 0)
  | 5 => some (0x02, leBytes 4 0x200)
  | 6 => some (0x02, Config.sha384 (leBytes 4 s.fw.floor ++ Config.keyHash ++ Config.countersignHash ++ Config.uniqueId))
  | 7 => some (0x03, leBytes 4 s.modeWord)
  | _ => none

/-- The blocks of the measurements of a list. -/
def State.measurements (s : State) (l : List Nat) : List (Nat × Nat × List Byte) :=
  l.filterMap fun i => (s.measurement i).map fun m => (i, m.1, m.2)

/-- A block in a transcript: its index, DMTF type, length and value (log entry 12). -/
def blockBytes (b : Nat × Nat × List Byte) : List Byte := leBytes 1 b.1 ++ leBytes 1 b.2.1 ++ leBytes 2 b.2.2.length ++ b.2.2

/-- R402, R403: index 0xFF asks for every measurement. -/
def execGetMeasurements (version index : Nat) (signed : Bool) (nonce : List Byte) (s : State) : Host.Outcome State Fault Refusal :=
  .next (s.spdm version [.selected] fun s =>
    let blocks := s.measurements (if index = 0xFF then [1, 2, 3, 4, 5, 6, 7] else [index])
    if blocks.isEmpty && index != 0 then s.answer (.error "InvalidRequest")
    else s.respond signed (transcript 0x60 (nonce ++ blocks.flatMap blockBytes)) (.measurements blocks))

/-- R401, R507: any other request. -/
def execSpdmUnsupportedRequest (version _code : Nat) (malformed : Bool) (s : State) : Host.Outcome State Fault Refusal :=
  .next (s.ready fun s =>
    if s.session = .none_ then s.answer (.error "UnexpectedRequest")
    else if version ≠ spdmVersion then s.answer (.error "VersionMismatch")
    else if malformed then s.answer (.error "InvalidRequest")
    else s.answer (.error "UnsupportedRequest"))

/-- R376, R391: sensors 0 to 15 are the quadrants and 16 to 31 the DRAM layers, and 32 is package power. -/
def execPldmRequest (sensor : Nat) (temp : Int) (s : State) : Host.Outcome State Fault Refusal :=
  .next (if sensor < 32 then s.answer (.sensor temp) else if sensor = 32 then s.answer (.sensor s.power.doneEnergy) else s.answer (.error "InvalidSensor"))

def execMctpControl (msg : List Byte) (s : State) : Host.Outcome State Fault Refusal := .next (s.answer (.control (Config.mctpReply msg)))

end Sys2Proof.Machine
end

