-- ==== Sys2Proof/Machine/Rounds.lean ====
section
/-! DEFINITION. The device's own schedule (log entry 3). Where the agenda holds nothing, a round goes on it: in each issue slot
one fragment in the order of R352, then every happening that may be due, then a cycle. A happening of the list whose
conditions do not hold as its turn comes changes nothing. What the host and the physics bring about comes by the agenda only. -/

namespace Sys2Proof.Machine

/-! ## Issue (R352) -/

/-- The members of a list with the least keys, one for each label. -/
def leastOf {α : Type} (label : α → List Nat) (key : α → List Nat) (l : List α) : List α :=
  l.filter fun x => l.all fun y => label y != label x || !lexLt (key y) (key x)

/-- R352: one that has been ready for 2,048 cycles first (log entry 100), then by level, launch, team, warp and age. -/
def State.issueKey (s : State) (tm : Team) (fr : Frag) : List Nat :=
  let ln := s.launchOf tm.launch
  if 2048 ≤ fr.ready then [0, 2 ^ 64 - fr.ready, tm.id, fr.id]
  else [1, s.launchLevel ln, ln.since, ln.id, tm.num, fr.warp, fr.id]

/-- R352: the core and the issue slot of a fragment. -/
def State.issueSlot (s : State) (tm : Team) (fr : Frag) : List Nat :=
  let ln := s.launchOf tm.launch
  [warpCore ln.hdr ln.t tm.core fr.warp, fr.slotIn ln.hdr ln.t]

def State.roundIssues (s : State) : List Turn :=
  let all := s.teams.flatMap fun tm => (tm.frags.filter fun fr => s.canIssue tm.id fr.id).map fun fr => (tm, fr)
  (leastOf (fun (x : Team × Frag) => s.issueSlot x.1 x.2) (fun (x : Team × Frag) => s.issueKey x.1 x.2) all).map fun x => .issue x.1.id x.2.id

/-- R253: the read-modify-writes that are to come. -/
def State.roundRmws (s : State) : List Turn :=
  s.teams.flatMap fun tm => tm.frags.flatMap fun fr => match fr.st with
    | .waiting (.rmws _ left _) => left.map fun _ => .rmw tm.id fr.id
    | _ => []

/-! ## What may be due in a team -/

def fragHappenings (t : Nat) (fr : Frag) : List Instr :=
  ((List.range fr.out.length).map fun i => Instr.resultReturn t fr.id i) ++ match fr.st with
    | .waiting .frame => [.trapEntry t fr.id]
    | .waiting .host => [.hcmdPoll t fr.id]
    | .waiting (.gather _ left) => left.map fun i => .rfGatherReturn t fr.id i
    | .waiting (.walk _) => [.pageWalk t fr.id]
    | .waiting (.pool _ _) => [.freePoolTimeout t fr.id]
    | .waiting (.remote _ _) => [.remoteDieTimeout t fr.id]
    | .waiting (.tryWait _ _ _ _) => [.tryWaitTimeout t fr.id]
    | .waiting (.tile _ _ _) => [.tilewaitTimeout t fr.id]
    | .waiting (.claim _ _) => [.claimPage t fr.id]
    | _ => []

/-- The bound on a command's work in one turn, in its own units. -/
def turnWork : Nat := 64

def cmdHappenings (t : Nat) (c : Cmd) : List Instr :=
  let work : List Instr := match c.kind, c.opc with
    | 0, 0 => [.copy t c.id turnWork]
    | 0, 1 => [.copynd t c.id turnWork]
    | 0, 2 => [.redcopy t c.id turnWork]
    | 0, _ => [.pfl2 t c.id]
    | 1, _ => [.commandTakeUp t c.id, .voxel t c.id, .rbbuild t c.id, .hins t c.id, .hlook t c.id]
    | 2, _ => [.commandTakeUp t c.id, .spconv t c.id turnWork, .gmms t c.id turnWork]
    | _, _ => [.wload t c.id, .walk t c.id turnWork, .wloadInstall t c.id, .walkHandoff t c.id]
  if c.st == .complete then []
  else if c.st == .held then [.commandTakeUp t c.id]
  else work ++ (c.sent.map fun x => Instr.redcopyElement t c.id x.slice x.seq x.elem) ++ [.commandCompletion t c.id]

def teamHappenings (tm : Team) : List Instr :=
  tm.frags.flatMap (fragHappenings tm.id) ++ ((List.range tm.warps.length).map fun w => Instr.txAbort tm.id w)
    ++ tm.cmds.flatMap (cmdHappenings tm.id) ++ [.stopWatchdogExpiry tm.id]

/-! ## What may be due on a core -/

/-- R50: the oldest threads with home lanes of their own, then the oldest that are left. -/
def chooseGroup (h : Header) (tm : Team) (all : List Nat) : List Nat :=
  let first := all.foldl (fun (acc : List Nat) i =>
    if (tm.thread i).child || !(acc.any fun j => !(tm.thread j).child && homeLane h j == homeLane h i) then acc ++ [i] else acc) []
  (first ++ all.filter fun i => !first.contains i).take h.lanes

/-- R352: the bin that the Arbour draws from in a cycle: of those that are drawable, of teams that run (R68), that whose oldest thread has been filed
longest, the lowest numbered among equals. -/
def State.drawnBin (s : State) (k : Core) : Option (Bin × Nat) :=
  let key (x : Bin × Nat) : Int := ((x.1.tids.map (·.2)).head?).getD 0
  let may := k.bins.zipIdx.filterMap fun (x : Option Bin × Nat) => match x.1 with
    | some b =>
      if !(s.team b.team).active then none else if b.old s.limits.ageTimer k.cycle || (s.launchOf (s.team b.team).launch).hdr.lanes ≤ b.tids.length then some (b, x.2) else none
    | none => none
  may.find? fun x => may.all fun y => key x ≤ key y

def State.coreHappenings (s : State) (c : Nat) (k : Core) : List Instr :=
  let draw : List Instr := match s.drawnBin k with
    | some (b, i) =>
      let tm := s.team b.team
      [.binAgeExpiry c i, .groupDraw c i (chooseGroup (s.launchOf tm.launch).hdr tm (b.tids.map (·.1)))]
    | none => []
  draw ++ (if k.spawn.isEmpty then [] else [.childDequeue c])
    ++ (if k.collector.isEmpty then [] else [.collectorWindowExpiry c]) ++ if k.matrix.isEmpty then [] else [.matrixOpRetire c 0]

/-! ## What may be due in the Pavilions -/

/-- R348: cores for a launch that waits and the teams to stop for it, beside those of `rest`: of those that it may displace as few as
suffice, the youngest launch's. -/
def State.displace (s : State) (y : Launch) (may : Launch → Bool) (rest : List Nat) : Option (List Nat × List Nat) :=
  let n := s.unitSize y
  let vs := s.stoppable may
  if vs.isEmpty || (s.coresWithout y (vs ++ rest)).length ≠ n then none
  else
    let keep := vs.foldl (fun (keep : List Nat) v =>
      let fewer := keep.filter (· != v)
      if (s.coresWithout y (fewer ++ rest)).length = n then fewer else keep) vs
    some (s.coresWithout y (keep ++ rest), keep)

def State.placements (s : State) (ln : Launch) : List Instr :=
  if !s.wantsTeam ln then []
  else
    let cores := s.unitCores ln
    if cores.length = s.unitSize ln then [.teamPlacement ln.id cores []]
    else match s.displace ln (fun y => s.launchLevel ln < s.launchLevel y) [] with
      | some (cores, victims) => [.teamPlacement ln.id cores victims]
      | none => []

def State.launchHappenings (s : State) (ln : Launch) : List Instr :=
  s.placements ln ++ [.gangTimeout ln.id, .saveComplete ln.id, .replayPassRestore ln.id]

def State.queueHappenings (s : State) (x : Queue) : List Instr :=
  let victims : List Nat := match s.rival x with
    | some y => ((s.displace y (ofQueue x.pf x.num) (s.others x y)).map (·.2)).getD []
    | none => []
  [.launch x.pf x.num, .replay x.pf x.num, .signal x.pf x.num, .waitv x.pf x.num, .waitvPoll x.pf x.num, .flush x.pf x.num
   , .timeSliceExpiry x.pf x.num victims]

def State.roundHappenings (s : State) : List Instr :=
  s.teams.flatMap teamHappenings ++ (s.cores.flatMap fun c => s.coreHappenings c.1 c.2)
    ++ ((List.range s.far.length).map fun _ => Instr.clusterStoreArrival 0) ++ s.queues.flatMap s.queueHappenings
    ++ s.launches.flatMap s.launchHappenings ++ if s.launches.isEmpty then [] else [0, 1, 2, 3].map .stealRequest

/-! ## The round -/

/-- R377: the reference inputs rise every 15 beats of 1.5 GHz; the model's schedule has them rise together (log entry 3). -/
def State.edges (s : State) : List Nat := if s.beat % 15 = 0 then [0, 1, 2, 3] else []

/-- R380: does a quadrant's clock at an operating point give a cycle in a beat of 1.5 GHz: 10 - `op` of every ten? -/
def clockIn (op beat : Nat) : Bool := beat * (10 - op) / 10 != (beat + 1) * (10 - op) / 10

/-- R380: has a cluster a cycle in a beat at its operating point? -/
def State.nominal (s : State) (k : Nat) : Bool := clockIn (s.power.op.getD (k / 3) 0) s.beat

/-- R382: does a stretched cluster miss a nominal cycle? The first after a droop it does; while it returns to the nominal period
it may, and it never misses two in a row (log entry 91). -/
def State.misses (s : State) (x : Nat × Nat × Bool) : Bool := !x.2.2 && (x.2.1 == 65 || (Config.pick s.free).testBit x.1)

/-- R380, R382: the clusters that a beat gives a cycle. -/
def State.clocked (s : State) : List Nat :=
  (List.range 48).filter fun k => s.nominal k && !(s.power.stretched.any fun x => x.1 == k && s.misses x)

/-- R382: the stretched clusters after a beat, each until it has completed 64 cycles. -/
def State.restretched (s : State) : List (Nat × Nat × Bool) :=
  s.power.stretched.filterMap fun x =>
    if !s.nominal x.1 then some x
    else if s.misses x then some (x.1, min x.2.1 64, true)
    else if x.2.1 ≤ 1 then none
    else some (x.1, if x.2.1 = 65 then 65 else x.2.1 - 1, false)

/-- What the Lodges are carrying out. -/
def State.lodgeTurns (s : State) : List Turn :=
  (if s.fw.loading || s.fw.cmd.isSome then [.lodge none] else [])
    ++ ([0, 1, 2, 3].filter fun pf => (s.window pf).cmd.isSome).map fun pf => .lodge (some pf)

/-- The turns of a round before its cycle. -/
def State.round (s : State) : List Turn :=
  s.lodgeTurns ++ (if s.outbox.isEmpty then [] else [.resend]) ++ s.roundRmws ++ s.roundIssues ++ s.roundHappenings.map .happen

end Sys2Proof.Machine
end

