-- ==== Sys2Proof/Machine/Turns.lean ====
section
/-! DEFINITION. What happens next (log entry 3): the turn at the head of the agenda, or the first of a new round, and what
the turns do that are neither an issue nor a row of the opcode table. -/

namespace Sys2Proof.Machine

/-- R358: event 0x02 counts a cycle of a core that holds a team of a replayed grid, and 0x03 its slots with a ready warp of
the grid that have not issued in the cycle. -/
def State.countCycle (s : State) (c : Nat) : State :=
  let on := s.teams.filter fun tm =>
    let ln := s.launchOf tm.launch
    tm.active && ln.replay.isSome && (tm.core == c || (isPair ln.t && tm.core + 1 == c))
  match on with
  | [] => s
  | x :: _ =>
    let idle := dedup (on.flatMap fun tm =>
      let ln := s.launchOf tm.launch
      (tm.frags.filter fun fr => s.canIssue tm.id fr.id && warpCore ln.hdr ln.t tm.core fr.warp == c).map fun fr => fr.slotIn ln.hdr ln.t)
    (s.count x.launch c 0x02 1).count x.launch c 0x03 idle.length

/-- R70, R352: a cycle more for which a fragment has been Ready (log entry 100). -/
def Frag.aged (fr : Frag) : Frag := { fr with ready := if fr.st == .running then fr.ready + 1 else 0 }

/-- R2, R4, R377, R380, R383: the reference inputs of some dies rise, and the cores of some clusters, with the teams that they
hold, complete a cycle. A power window whose end is due ends before D0's time moves on (R384, R392), and a die of trip 3 whose saves
are over halts (R502). An arrival that waits for another die is tried again (R500). -/
def State.tick (s : State) (edges clusters : List Nat) : State :=
  let s := if edges.contains 0 then s.endDue else s
  let s := (s.cores.filter fun c => clusters.contains (clusterOfCore c.1)).foldl (fun s c => s.countCycle c.1) s
  let s : State := { s with
    dies := s.dies.zipIdx.map fun (d : Die × Nat) => if edges.contains d.2 then { d.1 with time := (d.1.time + 10) % 2 ^ 64 } else d.1
    cores := s.cores.map fun (c : Nat × Core) =>
      if clusters.contains (clusterOfCore c.1) then (c.1, { c.2 with cycle := c.2.cycle + 1, issued := [], drew := false }) else c
    teams := s.teams.map fun t => if t.active && clusters.contains (clusterOfCore t.core) then { t with cycles := t.cycles + 1, frags := t.frags.map Frag.aged } else t }
  [0, 1, 2, 3].foldl (fun s d => s.haltDue d) s.retryArrivals

/-- R479, R480, R482: an uncorrectable error of an on-chip structure. In a team's own structure, or met by a request of a
team, it ends that team's context; in one of the die's that no request met, every context of the die; in a speculation
buffer it rolls the warp back or aborts its transaction. A clean line of the L2 is only read again; so is one of an engine cache, which
`Turn.evictEngine` drops (R480), and the engine cache's structure 9 is the error of a line that holds what is read nowhere else. -/
def State.chipError (s : State) (die struct unit team : Nat) : State :=
  let detail := chipDetail struct unit
  if struct = 11 then if (s.team team).active then (s.rollback team unit).abortTx team unit [{ code := 0x0A, cause := 0, user := 0 }] else s
  else if struct = 0 ∨ 11 < struct ∨ (struct = 5 ∧ !(s.die die).dirty.any fun l => l2Slice (128 * l) == unit) then s
  else match s.team? team with
    | some tm =>
      let ln := s.launchOf tm.launch
      let ctx := (s.queueOf ln).ctx
      let own := unit == tm.core || (isPair ln.t && unit == tm.core + 1)
      if (struct < 5 || struct == 10) && !own then s else
      (s.terminate ln.pf ctx 0x37).systemEvent [die] die 0x21 0x37 detail
    | none => if struct < 5 ∨ struct = 10 then s else s.dieDataError die detail

/-- R361: the host driver sets the five choices of a context anew, while it has no started launch. Bits 0 to 4 stand as bits
7:3 of R370's descriptor do (log entry 70). -/
def State.choose (s : State) (pf ctx bits : Nat) : State :=
  let on (i : Nat) : Bool := bits.testBit i
  if (s.launchesOf pf ctx).any fun y => y.started then s
  else s.modCtx pf ctx fun c =>
    { c with hostBooks := on 0, hostPlace := on 1, hostTraps := on 2, hostRuns := on 3, hostFw := on 4 }

/-- R104, R480: a line leaves a core's L1: evicted where its set is full, else invalidated, as after an error, to be fetched again. The
tag of a line that a speculator has read goes with an eviction alone (R147, R435). -/
def State.evictLine (s : State) (core line : Nat) : State :=
  if ((s.core core).l1Set line).length < 8 then s.modCore core fun k => { k with l1 := k.l1.filter fun x => x.1 / 4 != line }
  else s.dropLine core line

/-- A turn that is neither an issue nor a row of the opcode table. -/
def State.pass (s : State) : Turn → State
  | .issue _ _ => s
  | .issueSome _ _ _ => s
  | .happen _ => s
  | .rmw t g => s.rmwTurn t g
  | .tick e n => s.tick e n
  | .hostWrite a bs => if a + bs.length ≤ 2 ^ 50 then { s with mem := s.mem.write (placeHost a) bs } else s
  | .evict c k => s.evictLine c (k / 4)
  | .evictRo c i => s.modCore c fun x => { x with ro := x.ro.eraseIdx i }
  | .evictTlb d i => s.modDie d fun x => { x with tlb := x.tlb.eraseIdx i }
  | .evictCoreTlb c i => s.modCore c fun x => { x with tlb := x.tlb.eraseIdx i }
  | .evictEngine e i => { s with caches := modNth e (fun l => l.eraseIdx i) s.caches }
  | .evictL2 d i => s.modDie d fun x => { x with dirty := x.dirty.eraseIdx i }
  | .upset w => { s with bad := insertNat w s.bad }
  | .chipError d st u t => s.chipError d st u t
  | .corrected d detail => s.noteCorrected d 1 detail
  | .hostError a => { s with hostBad := insertNat a s.hostBad }
  | .hostRead pf bar off width => s.hostRead pf bar off width
  | .vfAssign pf vf qs => s.vfAssign pf vf qs
  | .vfWrite pf vf bar off width v => s.vfWrite pf vf bar off width v
  | .vfRead pf vf bar off width => s.vfRead pf vf bar off width
  | .choose pf ctx bits => s.choose pf ctx bits
  | .stopQueue pf q => s.stopQueue pf q
  | .lodge pf => s.lodge pf
  | .resend => s.resend

/-- A round's own passing of time. -/
def State.ownTick (s : State) : Turn := .tick s.edges s.clocked

/-- The next turn, and the state without it. A round that starts ends with a beat, which moves the stretched clocks on (R382). -/
def State.nextTurn (s : State) : Turn × State :=
  match s.agenda with
  | x :: rest => (x, { s with agenda := rest })
  | [] =>
    let s' := if s.power.stretched.isEmpty then s else { s.modPower fun p => { p with stretched := s.restretched } with free := s.free + 1 }
    match s.round with
    | x :: rest => (x, { s' with agenda := rest ++ [s.ownTick], beat := s.beat + 1 })
    | [] => (s.ownTick, { s' with beat := s.beat + 1 })

/-- The rows of the opcode table that are happenings. -/
def isHappening (i : Instr) : Bool :=
  match i with
  | .rep _ => false
  | .illegalEncoding _ => false
  | .unimplementedEncoding _ => false
  | _ => i.fields?.isNone

end Sys2Proof.Machine
end

