-- ==== Sys2Proof/Machine/Dispatch.lean ====
section
/-! DEFINITION. The dispatch: one arm for each constructor of `Instr`. -/

namespace Sys2Proof.Machine

def exec (i : Instr) (s : State) : Host.Outcome State Fault Refusal :=
  match i with
  | .nop f => Sys2Proof.Machine.execNop f s
  | .bra f => Sys2Proof.Machine.execBra f s
  | .braC f => Sys2Proof.Machine.execBraC f s
  | .brx f => Sys2Proof.Machine.execBrx f s
  | .callx f => Sys2Proof.Machine.execCallx f s
  | .call f => Sys2Proof.Machine.execCall f s
  | .ret f => Sys2Proof.Machine.execRet f s
  | .exit f => Sys2Proof.Machine.execExit f s
  | .rep r => Sys2Proof.Machine.execRep r s
  | .yield f => Sys2Proof.Machine.execYield f s
  | .rfopen f => Sys2Proof.Machine.execRfopen f s
  | .rfclose f => Sys2Proof.Machine.execRfclose f s
  | .reform f => Sys2Proof.Machine.execReform f s
  | .spawn f => Sys2Proof.Machine.execSpawn f s
  | .trap f => Sys2Proof.Machine.execTrap f s
  | .bkpt f => Sys2Proof.Machine.execBkpt f s
  | .eret f => Sys2Proof.Machine.execEret f s
  | .halt f => Sys2Proof.Machine.execHalt f s
  | .phinit f => Sys2Proof.Machine.execPhinit f s
  | .phreg f => Sys2Proof.Machine.execPhreg f s
  | .phdrop f => Sys2Proof.Machine.execPhdrop f s
  | .pharv f => Sys2Proof.Machine.execPharv f s
  | .phwait f => Sys2Proof.Machine.execPhwait f s
  | .phaw f => Sys2Proof.Machine.execPhaw f s
  | .bars f => Sys2Proof.Machine.execBars f s
  | .txbeg f => Sys2Proof.Machine.execTxbeg f s
  | .txend f => Sys2Proof.Machine.execTxend f s
  | .txabt f => Sys2Proof.Machine.execTxabt f s
  | .tilewait f => Sys2Proof.Machine.execTilewait f s
  | .fence f => Sys2Proof.Machine.execFence f s
  | .csrr f => Sys2Proof.Machine.execCsrr f s
  | .csrw f => Sys2Proof.Machine.execCsrw f s
  | .ovld f => Sys2Proof.Machine.execOvld f s
  | .claim f => Sys2Proof.Machine.execClaim f s
  | .cctlRo f => Sys2Proof.Machine.execCctlRo f s
  | .iadd f => Sys2Proof.Machine.execIadd f s
  | .isub f => Sys2Proof.Machine.execIsub f s
  | .iaddc f => Sys2Proof.Machine.execIaddc f s
  | .ineg f => Sys2Proof.Machine.execIneg f s
  | .iabs f => Sys2Proof.Machine.execIabs f s
  | .imul f => Sys2Proof.Machine.execImul f s
  | .imulhi f => Sys2Proof.Machine.execImulhi f s
  | .imad f => Sys2Proof.Machine.execImad f s
  | .imadw f => Sys2Proof.Machine.execImadw f s
  | .idot4 f => Sys2Proof.Machine.execIdot4 f s
  | .imin f => Sys2Proof.Machine.execImin f s
  | .imax f => Sys2Proof.Machine.execImax f s
  | .and f => Sys2Proof.Machine.execAnd f s
  | .or f => Sys2Proof.Machine.execOr f s
  | .xor f => Sys2Proof.Machine.execXor f s
  | .not f => Sys2Proof.Machine.execNot f s
  | .andn f => Sys2Proof.Machine.execAndn f s
  | .bool3 f => Sys2Proof.Machine.execBool3 f s
  | .shl f => Sys2Proof.Machine.execShl f s
  | .shr f => Sys2Proof.Machine.execShr f s
  | .sar f => Sys2Proof.Machine.execSar f s
  | .rol f => Sys2Proof.Machine.execRol f s
  | .fshl f => Sys2Proof.Machine.execFshl f s
  | .bfe f => Sys2Proof.Machine.execBfe f s
  | .bfi f => Sys2Proof.Machine.execBfi f s
  | .bmsk f => Sys2Proof.Machine.execBmsk f s
  | .popc f => Sys2Proof.Machine.execPopc f s
  | .clz f => Sys2Proof.Machine.execClz f s
  | .ctz f => Sys2Proof.Machine.execCtz f s
  | .brev f => Sys2Proof.Machine.execBrev f s
  | .bsel f => Sys2Proof.Machine.execBsel f s
  | .iset f => Sys2Proof.Machine.execIset f s
  | .sel f => Sys2Proof.Machine.execSel f s
  | .mov f => Sys2Proof.Machine.execMov f s
  | .movi f => Sys2Proof.Machine.execMovi f s
  | .lea f => Sys2Proof.Machine.execLea f s
  | .pand f => Sys2Proof.Machine.execPand f s
  | .por f => Sys2Proof.Machine.execPor f s
  | .pxor f => Sys2Proof.Machine.execPxor f s
  | .pnot f => Sys2Proof.Machine.execPnot f s
  | .pmov f => Sys2Proof.Machine.execPmov f s
  | .xlaneAt f => Sys2Proof.Machine.execXlaneAt f s
  | .xlaneBack f => Sys2Proof.Machine.execXlaneBack f s
  | .xlaneFwd f => Sys2Proof.Machine.execXlaneFwd f s
  | .xlaneSwap f => Sys2Proof.Machine.execXlaneSwap f s
  | .xlaneOne f => Sys2Proof.Machine.execXlaneOne f s
  | .pcolSome f => Sys2Proof.Machine.execPcolSome f s
  | .pcolEvery f => Sys2Proof.Machine.execPcolEvery f s
  | .pcolBits f => Sys2Proof.Machine.execPcolBits f s
  | .pcolSame f => Sys2Proof.Machine.execPcolSame f s
  | .eqset f => Sys2Proof.Machine.execEqset f s
  | .lredAdd f => Sys2Proof.Machine.execLredAdd f s
  | .lredMin f => Sys2Proof.Machine.execLredMin f s
  | .lredMax f => Sys2Proof.Machine.execLredMax f s
  | .lredAnd f => Sys2Proof.Machine.execLredAnd f s
  | .lredOr f => Sys2Proof.Machine.execLredOr f s
  | .lredXor f => Sys2Proof.Machine.execLredXor f s
  | .rank f => Sys2Proof.Machine.execRank f s
  | .ld f => Sys2Proof.Machine.execLd f s
  | .ldRf f => Sys2Proof.Machine.execLdRf f s
  | .st f => Sys2Proof.Machine.execSt f s
  | .ldro f => Sys2Proof.Machine.execLdro f s
  | .atomAdd f => Sys2Proof.Machine.execAtomAdd f s
  | .atomAnd f => Sys2Proof.Machine.execAtomAnd f s
  | .atomOr f => Sys2Proof.Machine.execAtomOr f s
  | .atomXor f => Sys2Proof.Machine.execAtomXor f s
  | .atomMin f => Sys2Proof.Machine.execAtomMin f s
  | .atomMax f => Sys2Proof.Machine.execAtomMax f s
  | .atomXchg f => Sys2Proof.Machine.execAtomXchg f s
  | .atomCas f => Sys2Proof.Machine.execAtomCas f s
  | .atomInc f => Sys2Proof.Machine.execAtomInc f s
  | .atomDec f => Sys2Proof.Machine.execAtomDec f s
  | .redAdd f => Sys2Proof.Machine.execRedAdd f s
  | .redAnd f => Sys2Proof.Machine.execRedAnd f s
  | .redOr f => Sys2Proof.Machine.execRedOr f s
  | .redXor f => Sys2Proof.Machine.execRedXor f s
  | .redMin f => Sys2Proof.Machine.execRedMin f s
  | .redMax f => Sys2Proof.Machine.execRedMax f s
  | .redInc f => Sys2Proof.Machine.execRedInc f s
  | .redDec f => Sys2Proof.Machine.execRedDec f s
  | .redx f => Sys2Proof.Machine.execRedx f s
  | .redxf f => Sys2Proof.Machine.execRedxf f s
  | .prefl f => Sys2Proof.Machine.execPrefl f s
  | .fadd f => Sys2Proof.Machine.execFadd f s
  | .fsub f => Sys2Proof.Machine.execFsub f s
  | .fmul f => Sys2Proof.Machine.execFmul f s
  | .ffma f => Sys2Proof.Machine.execFfma f s
  | .fmin f => Sys2Proof.Machine.execFmin f s
  | .fmax f => Sys2Proof.Machine.execFmax f s
  | .fset f => Sys2Proof.Machine.execFset f s
  | .fclass f => Sys2Proof.Machine.execFclass f s
  | .frnd f => Sys2Proof.Machine.execFrnd f s
  | .fcvt f => Sys2Proof.Machine.execFcvt f s
  | .icvt f => Sys2Proof.Machine.execIcvt f s
  | .ex2 f => Sys2Proof.Machine.execEx2 f s
  | .lg2 f => Sys2Proof.Machine.execLg2 f s
  | .rcp f => Sys2Proof.Machine.execRcp f s
  | .rsq f => Sys2Proof.Machine.execRsq f s
  | .sqrt f => Sys2Proof.Machine.execSqrt f s
  | .sinpi f => Sys2Proof.Machine.execSinpi f s
  | .cospi f => Sys2Proof.Machine.execCospi f s
  | .ex2s f => Sys2Proof.Machine.execEx2s f s
  | .fscale f => Sys2Proof.Machine.execFscale f s
  | .fgetexp f => Sys2Proof.Machine.execFgetexp f s
  | .fmaxe f => Sys2Proof.Machine.execFmaxe f s
  | .tbind f => Sys2Proof.Machine.execTbind f s
  | .trel f => Sys2Proof.Machine.execTrel f s
  | .mma f => Sys2Proof.Machine.execMma f s
  | .mmabs f => Sys2Proof.Machine.execMmabs f s
  | .azero f => Sys2Proof.Machine.execAzero f s
  | .amov f => Sys2Proof.Machine.execAmov f s
  | .ald f => Sys2Proof.Machine.execAld f s
  | .ast f => Sys2Proof.Machine.execAst f s
  | .movToQueue f => Sys2Proof.Machine.execMovToQueue f s
  | .moviToQueue f => Sys2Proof.Machine.execMoviToQueue f s
  | .movFromQueue f => Sys2Proof.Machine.execMovFromQueue f s
  | .unimplementedEncoding x => Sys2Proof.Machine.execUnimplementedEncoding x s
  | .illegalEncoding x => Sys2Proof.Machine.execIllegalEncoding x s
  | .trapEntry t g => Sys2Proof.Machine.execTrapEntry t g s
  | .hcmdPoll t g => Sys2Proof.Machine.execHcmdPoll t g s
  | .resultReturn t g k => Sys2Proof.Machine.execResultReturn t g k s
  | .rfGatherReturn t g tid => Sys2Proof.Machine.execRfGatherReturn t g tid s
  | .fragmentPark t g => Sys2Proof.Machine.execFragmentPark t g s
  | .binAgeExpiry core bin => Sys2Proof.Machine.execBinAgeExpiry core bin s
  | .groupDraw core bin tids => Sys2Proof.Machine.execGroupDraw core bin tids s
  | .childDequeue core => Sys2Proof.Machine.execChildDequeue core s
  | .pageWalk t g => Sys2Proof.Machine.execPageWalk t g s
  | .freePoolTimeout t g => Sys2Proof.Machine.execFreePoolTimeout t g s
  | .plreply pf v => Sys2Proof.Machine.execPlreply pf v s
  | .claimPage t g => Sys2Proof.Machine.execClaimPage t g s
  | .tryWaitTimeout t g => Sys2Proof.Machine.execTryWaitTimeout t g s
  | .tilewaitTimeout t g => Sys2Proof.Machine.execTilewaitTimeout t g s
  | .txAbort t w => Sys2Proof.Machine.execTxAbort t w s
  | .clusterStoreArrival k => Sys2Proof.Machine.execClusterStoreArrival k s
  | .collectorWindowExpiry core => Sys2Proof.Machine.execCollectorWindowExpiry core s
  | .matrixOpRetire core mismatches => Sys2Proof.Machine.execMatrixOpRetire core mismatches s
  | .copy t c n => Sys2Proof.Machine.execCopy t c n s
  | .copynd t c n => Sys2Proof.Machine.execCopynd t c n s
  | .redcopy t c n => Sys2Proof.Machine.execRedcopy t c n s
  | .pfl2 t c => Sys2Proof.Machine.execPfl2 t c s
  | .gnode t w ws => Sys2Proof.Machine.execGnode t w ws s
  | .garm t w ws => Sys2Proof.Machine.execGarm t w ws s
  | .voxel t c => Sys2Proof.Machine.execVoxel t c s
  | .rbbuild t c => Sys2Proof.Machine.execRbbuild t c s
  | .hins t c => Sys2Proof.Machine.execHins t c s
  | .hlook t c => Sys2Proof.Machine.execHlook t c s
  | .spconv t c n => Sys2Proof.Machine.execSpconv t c n s
  | .gmms t c n => Sys2Proof.Machine.execGmms t c n s
  | .wload t c => Sys2Proof.Machine.execWload t c s
  | .walk t c n => Sys2Proof.Machine.execWalk t c n s
  | .commandTakeUp t c => Sys2Proof.Machine.execCommandTakeUp t c s
  | .wloadInstall t c => Sys2Proof.Machine.execWloadInstall t c s
  | .walkHandoff t c => Sys2Proof.Machine.execWalkHandoff t c s
  | .redcopyElement t c slice seq elem => Sys2Proof.Machine.execRedcopyElement t c slice seq elem s
  | .commandCompletion t c => Sys2Proof.Machine.execCommandCompletion t c s
  | .remoteDieTimeout t g => Sys2Proof.Machine.execRemoteDieTimeout t g s
  | .doorbell pf q v => Sys2Proof.Machine.execDoorbell pf q v s
  | .launch pf q => Sys2Proof.Machine.execLaunch pf q s
  | .replay pf q => Sys2Proof.Machine.execReplay pf q s
  | .signal pf q => Sys2Proof.Machine.execSignal pf q s
  | .waitv pf q => Sys2Proof.Machine.execWaitv pf q s
  | .waitvPoll pf q => Sys2Proof.Machine.execWaitvPoll pf q s
  | .flush pf q => Sys2Proof.Machine.execFlush pf q s
  | .teamPlacement l cores victims => Sys2Proof.Machine.execTeamPlacement l cores victims s
  | .gangTimeout l => Sys2Proof.Machine.execGangTimeout l s
  | .timeSliceExpiry pf q victims => Sys2Proof.Machine.execTimeSliceExpiry pf q victims s
  | .saveComplete l => Sys2Proof.Machine.execSaveComplete l s
  | .stopWatchdogExpiry t => Sys2Proof.Machine.execStopWatchdogExpiry t s
  | .stealRequest die => Sys2Proof.Machine.execStealRequest die s
  | .replayPassRestore l => Sys2Proof.Machine.execReplayPassRestore l s
  | .createContext pf => Sys2Proof.Machine.execCreateContext pf s
  | .destroyContext pf num => Sys2Proof.Machine.execDestroyContext pf num s
  | .createQueue pf => Sys2Proof.Machine.execCreateQueue pf s
  | .destroyQueue pf num => Sys2Proof.Machine.execDestroyQueue pf num s
  | .queueSuspend pf q => Sys2Proof.Machine.execQueueSuspend pf q s
  | .queueResume pf q => Sys2Proof.Machine.execQueueResume pf q s
  | .pcap pf v => Sys2Proof.Machine.execPcap pf v s
  | .sysstat pf v => Sys2Proof.Machine.execSysstat pf v s
  | .bar4Access pf off bytes op => Sys2Proof.Machine.execBar4Access pf off bytes op s
  | .registerWrite pf bar off width v => Sys2Proof.Machine.execRegisterWrite pf bar off width v s
  | .stage => Sys2Proof.Machine.execStage s
  | .activate bank => Sys2Proof.Machine.execActivate bank s
  | .commit => Sys2Proof.Machine.execCommit s
  | .countersign => Sys2Proof.Machine.execCountersign s
  | .powerWindowEnd energy => Sys2Proof.Machine.execPowerWindowEnd energy s
  | .budgetReached energy => Sys2Proof.Machine.execBudgetReached energy s
  | .droop cluster => Sys2Proof.Machine.execDroop cluster s
  | .thermalSample die temp sensor => Sys2Proof.Machine.execThermalSample die temp sensor s
  | .powerRemoved die temp => Sys2Proof.Machine.execPowerRemoved die temp s
  | .regulatorFault die sensor => Sys2Proof.Machine.execRegulatorFault die sensor s
  | .flitReplay link again => Sys2Proof.Machine.execFlitReplay link again s
  | .linkRetrain link => Sys2Proof.Machine.execLinkRetrain link s
  | .hostLinkDown => Sys2Proof.Machine.execHostLinkDown s
  | .patrolScrub die word corrected => Sys2Proof.Machine.execPatrolScrub die word corrected s
  | .packageReset cut lost => Sys2Proof.Machine.execPackageReset cut lost s
  | .schedulerFirmwareFault die => Sys2Proof.Machine.execSchedulerFirmwareFault die s
  | .bitstreamIntegrityFault die => Sys2Proof.Machine.execBitstreamIntegrityFault die s
  | .getVersion => Sys2Proof.Machine.execGetVersion s
  | .getCapabilities version => Sys2Proof.Machine.execGetCapabilities version s
  | .negotiateAlgorithms version asym hash meas => Sys2Proof.Machine.execNegotiateAlgorithms version asym hash meas s
  | .getDigests version => Sys2Proof.Machine.execGetDigests version s
  | .getCertificate version slot offset length => Sys2Proof.Machine.execGetCertificate version slot offset length s
  | .challenge version slot nonce => Sys2Proof.Machine.execChallenge version slot nonce s
  | .getMeasurements version index signed nonce => Sys2Proof.Machine.execGetMeasurements version index signed nonce s
  | .spdmUnsupportedRequest version code malformed => Sys2Proof.Machine.execSpdmUnsupportedRequest version code malformed s
  | .pldmRequest sensor temp => Sys2Proof.Machine.execPldmRequest sensor temp s
  | .mctpControl msg => Sys2Proof.Machine.execMctpControl msg s
  | .freePoolRefill die small large => Sys2Proof.Machine.execFreePoolRefill die small large s
  | .hostLinkUp => Sys2Proof.Machine.execHostLinkUp s
  | .linkRetrainEnd link ok => Sys2Proof.Machine.execLinkRetrainEnd link ok s
  | .ballastRamp quad energy => Sys2Proof.Machine.execBallastRamp quad energy s
  | .operatingPointChange quad point => Sys2Proof.Machine.execOperatingPointChange quad point s
  | .packagePowerLoss during blown done => Sys2Proof.Machine.execPackagePowerLoss during blown done s
  | .runListWrite die pf rows => Sys2Proof.Machine.execRunListWrite die pf rows s

end Sys2Proof.Machine
end

