-- ==== Sys2Proof/Machine/Step.lean ====
section
/-! DEFINITION. The step of the machine, and the placing of an instruction word for the host. -/

namespace Sys2Proof.Machine

/-- One step: the next turn. A fragment's turn fetches, decodes and executes one instruction. -/
def step (s : State) : Host.Outcome State Fault Refusal :=
  match s.nextTurn with
  | (.issue t g, s) =>
    match s.fetchTurn t g with
    | .done s => .next s
    | .run s i => exec i s
  | (.issueSome t g n, s) =>
    match s.fetchTurn t g with
    | .done s => .next s
    | .run s i => exec i { s with cur := { s.cur with pace := some n } }
  | (.happen i, s) => if isHappening i then exec i s else .next s
  | (x, s) => .next (s.pass x)

/-- A machine in which one fragment of one thread stands at the words of an opcode-table row (log entry 2). -/
def State.withFetchWord (s : State) (nbits w : Nat) : State := sampleState s (tableWords nbits w)

end Sys2Proof.Machine
end

