-- ==== Sys2Proof/Safety.lean ====
section
/-! DEFINITION. What a claim may call a safe run: the machine stops with no fault, and memory keeps its canonical form. -/

namespace Sys2Proof.Safety

open Sys2Proof.Machine

/-- The form that every step keeps: equal memories are equal data. -/
def Inv (s : State) : Prop := s.mem.wf = true

/-- The step answers a state. -/
def Runs (s : State) : Prop := ∃ t, step s = .next t

end Sys2Proof.Safety
end

