-- ==== Sys2Proof/Certificates/Slice0/Obligations.lean ====
section
/-! DEFINITION. The statements for the provers. Those that follow first say where each instruction of rows 0 to 152
completes and with what: the instruction is in issue, it passes the checks of R186, its guard is true in some thread and its
warp's execution state lets it act (`Ready`). -/

namespace Sys2Proof.Claims
open Sys2Proof.Machine

/-- The instruction that `c` makes of fields `f` is in issue as `e`, passes the checks of R186, has a thread whose guard is
true (R197), and acts in its warp's execution state (R146, R224, R229). -/
structure Ready (c : Fields → Instr) (f : Fields) (s : State) (e : Env) : Prop where
  env : s.env? = some e
  pass : e.checks (c f) f = none
  acts : e.T f ≠ []
  go : gate e.wp.mode (c f) f = .go

/-- The instruction completes at `pc` with a result, and what else it does is in `s'`. -/
def Ends (c : Fields → Instr) (f : Fields) (s : State) (e : Env) (s' : State) (res : Res) (pc : Nat) : Prop :=
  exec (c f) s = .next (s'.retire e (retOf (c f) f e.hdr.lanes) res pc)

/-- It completes, goes on to the next instruction, and does nothing else. -/
def Gives (c : Fields → Instr) (f : Fields) (s : State) (e : Env) (res : Res) : Prop := Ends c f s e s res (e.next f)

/-- R240: the exact value of an operand of the format, and an exact result narrowed to it. -/
def val (f : Fields) (x : Nat) : Int := intVal (intWidth f.typ.toNat) (isSigned f.typ.toNat) x
def narrow (f : Fields) (x : Int) : List Word :=
  wordsN (intWidth f.typ.toNat) (fitInt (intWidth f.typ.toNat) (isSigned f.typ.toNat) f.sat x)

/-- R238: an exact result for each thread of T, or one for a uniform destination. -/
def exactly (e : Env) (f : Fields) (op : Int → Int → Int → Int) : Res :=
  e.results f fun t => narrow f (op (val f (e.aN f t)) (val f (e.bN f t)) (val f (e.cN f t)))

/-- R238: a result of the format's width from the bits of the sources. -/
def bitwise (e : Env) (f : Fields) (op : Nat → Nat → Nat → Nat) : Res :=
  e.results f fun t => wordsN (intWidth f.typ.toNat) (op (e.aN f t) (e.bN f t) (e.cN f t))

/-- R242, R244: the same where source B is a control of 32 bits. -/
def shifted (e : Env) (f : Fields) (op : Nat → Nat → Nat → Nat) : Res :=
  e.results f fun t => wordsN (intWidth f.typ.toNat) (op (e.aN f t) (e.b f t).toNat (e.cN f t) % 2 ^ intWidth f.typ.toNat)

/-- R242: a result of one register from the bits of source A, the lowest first. -/
def counted (e : Env) (f : Fields) (op : List Bool → Nat) : Res :=
  e.results f fun t => [BitVec.ofNat 32 (op ((List.range (intWidth f.typ.toNat)).map fun i => (e.aN f t).testBit i))]

/-- R270: a 32-bit result from the words of A, B and C, element by element of the format. -/
def elementwise (e : Env) (f : Fields) (op : Fmt → Nat → Nat → Nat → Nat) : Res :=
  e.results f fun t => [perElement f.typ.toNat (op (fmtOf f.typ.toNat)) (e.a f t) (e.b f t) (e.c f t)]

end Sys2Proof.Claims

open Sys2Proof Sys2Proof.Machine Sys2Proof.Claims

/-! ## Integer, logic, moves and predicates -/

/-- R240: the integer instructions compute the exact result and narrow it. -/
def Obligations.IntegerResults : Prop := ∀ (f : Fields) (s : State) (e : Env),
  (Ready .iadd f s e → Gives .iadd f s e (exactly e f fun a b _ => a + b)) ∧
  (Ready .isub f s e → Gives .isub f s e (exactly e f fun a b _ => a - b)) ∧
  (Ready .ineg f s e → Gives .ineg f s e (exactly e f fun _ b _ => -b)) ∧
  (Ready .iabs f s e → Gives .iabs f s e (exactly e f fun _ b _ => max b (-b))) ∧
  (Ready .imul f s e → Gives .imul f s e (exactly e f fun a b _ => a * b)) ∧
  (Ready .imulhi f s e → Gives .imulhi f s e (exactly e f fun a b _ => a * b / 2 ^ 32)) ∧
  (Ready .imad f s e → Gives .imad f s e (exactly e f fun a b c => a * b + c)) ∧
  (Ready .imin f s e → Gives .imin f s e (exactly e f fun a b _ => min a b)) ∧
  (Ready .imax f s e → Gives .imax f s e (exactly e f fun a b _ => max a b)) ∧
  (Ready .imadw f s e → Gives .imadw f s e (e.results f fun t =>
    let sg := isSigned f.typ.toNat
    wordsN 64 (fitInt 64 sg f.sat (intVal 32 sg (e.aN f t) * intVal 32 sg (e.bN f t) + intVal 64 sg (e.c2 f t).toNat)))) ∧
  (Ready .idot4 f s e → Gives .idot4 f s e (e.results f fun t =>
    let sg := isSigned f.typ.toNat
    let byte (w : Word) (i : Nat) : Int := intVal 8 sg (w.toNat / 2 ^ (8 * i))
    wordsN 32 (fitInt 32 sg f.sat (intVal 32 sg (e.c f t).toNat
      + (byte (e.a f t) 0 * byte (e.b f t) 0 + byte (e.a f t) 1 * byte (e.b f t) 1
        + byte (e.a f t) 2 * byte (e.b f t) 2 + byte (e.a f t) 3 * byte (e.b f t) 3)))))
/-- R241: IADDC adds with the carry of its predicate, which a uniform one takes from the lowest-ranked thread of T, and writes
the carry out to that predicate for each thread of T. p7 reads as true and takes no write. -/
def Obligations.CarryAdd : Prop :=
  (∀ (f : Fields) (s : State) (e : Env), Ready .iaddc f s e →
    let of (t : Nat) : Nat := if Fields.du f then (((e.T f).map (·.tid)).getD 0 0) else t
    let sum (t : Nat) : Nat := (e.a f t).toNat + (e.b f t).toNat + if e.p t (f.sc.toNat % 8) = f.sc.getLsbD 7 then 0 else 1
    Ends .iaddc f s e
      (s.putBeside e (f.sc.toNat % 8) ((e.T f).map fun m => (m.tid, decide (2 ^ 32 ≤ sum (of m.tid)))))
      (if Fields.du f then .w [BitVec.ofNat 32 (sum (of 0))]
        else .v ((e.T f).map fun m => (m.tid, [BitVec.ofNat 32 (sum m.tid)]))) (e.next f)) ∧
  (∀ (e : Env) (t : Nat) (tm : Team) (b : Bool), e.p t 7 = true ∧ tm.putP false t 7 b = tm)

/-- R242 to R245: logic, shifts, counts and bit fields. -/
def Obligations.LogicResults : Prop := ∀ (f : Fields) (s : State) (e : Env),
  let n := intWidth f.typ.toNat
  (Ready .and f s e → Gives .and f s e (bitwise e f fun a b _ => a &&& b)) ∧
  (Ready .or f s e → Gives .or f s e (bitwise e f fun a b _ => a ||| b)) ∧
  (Ready .xor f s e → Gives .xor f s e (bitwise e f fun a b _ => a ^^^ b)) ∧
  (Ready .not f s e → Gives .not f s e (bitwise e f fun _ b _ => 2 ^ n - 1 - b)) ∧
  (Ready .andn f s e → Gives .andn f s e (bitwise e f fun a b _ => a &&& (2 ^ n - 1 - b))) ∧
  (Ready .bool3 f s e → Gives .bool3 f s e (e.results f fun t =>
    let b := if is64 f.typ.toNat then (e.reg2 (Fields.bu f) t f.sb.toNat).toNat else (e.reg (Fields.bu f) t f.sb.toNat).toNat
    wordsN n (maskOf ((List.range n).filter fun i =>
      f.imm32.toNat.testBit (4 * bit ((e.aN f t).testBit i) + 2 * bit (b.testBit i) + bit ((e.cN f t).testBit i)))))) ∧
  (Ready .shl f s e → Gives .shl f s e (shifted e f fun a k _ => if k < n then a * 2 ^ k else 0)) ∧
  (Ready .shr f s e → Gives .shr f s e (shifted e f fun a k _ => if k < n then a / 2 ^ k else 0)) ∧
  (Ready .sar f s e → Gives .sar f s e (shifted e f fun a k _ =>
    ((intVal n true a / 2 ^ min k (n - 1)) % (2 ^ n : Int)).toNat)) ∧
  (Ready .rol f s e → Gives .rol f s e (shifted e f fun a k _ => a * 2 ^ (k % n) + a / 2 ^ (n - k % n))) ∧
  (Ready .fshl f s e → Gives .fshl f s e (shifted e f fun a k c => a * 2 ^ (k % n) + c / 2 ^ (n - k % n))) ∧
  (Ready .bfe f s e → Gives .bfe f s e (shifted e f fun a k _ => bitField n (isSigned f.typ.toNat) a k)) ∧
  (Ready .bfi f s e → Gives .bfi f s e (shifted e f fun a k c =>
    (c &&& (2 ^ n - 1 - ctlMask n k)) ||| (a * 2 ^ ctlPos k &&& ctlMask n k))) ∧
  (Ready .bmsk f s e → Gives .bmsk f s e (shifted e f fun _ k _ => (2 ^ ctlLen k - 1) * 2 ^ ctlPos k)) ∧
  (Ready .popc f s e → Gives .popc f s e (counted e f fun bs => bs.count true)) ∧
  (Ready .clz f s e → Gives .clz f s e (counted e f fun bs => zeroRun bs.reverse)) ∧
  (Ready .ctz f s e → Gives .ctz f s e (counted e f zeroRun)) ∧
  (Ready .brev f s e → Gives .brev f s e (bitwise e f fun a _ _ =>
    maskOf ((List.range n).filter fun i => a.testBit (n - 1 - i)))) ∧
  (Ready .bsel f s e → Gives .bsel f s e (bitwise e f fun a b c => byteSelect a b c))

/-- R246 to R248: compares, selections, moves, addresses and predicates. That a `SEL` with a uniform destination takes the predicate of
the elected thread is the model's choice (log entry 21, DEDUCED): R247 does not say whose predicate it takes. -/
def Obligations.MoveResults : Prop := ∀ (f : Fields) (s : State) (e : Env),
  let n := intWidth f.typ.toNat
  (Ready .iset f s e → Gives .iset f s e (e.preds f fun t =>
    intCond (f.mod.toNat / 2 % 4) (val f (e.aN f t)) (val f (e.bN f t)) && e.psrc t f.sc)) ∧
  (Ready .sel f s e → Gives .sel f s e (e.results f fun t => wordsN n (if e.psrc t f.sc then e.aN f t else e.bN f t))) ∧
  (Ready .mov f s e → Gives .mov f s e (bitwise e f fun a _ _ => a)) ∧
  (Ready .movi f s e → Gives .movi f s e (e.results f fun _ => wordsN n (if f.len = .four then f.imm.toNat else immN f))) ∧
  (Ready .lea f s e → Gives .lea f s e (e.results f fun t =>
    let x := (e.a2 f t).toNat + intVal 32 (isSigned f.typ.toNat) (e.b f t).toNat * 2 ^ (f.mod.toNat / 2 % 4)
    wordsN 64 (x % (2 ^ 64 : Int)).toNat)) ∧
  (Ready .pand f s e → Gives .pand f s e (e.preds f fun t => e.psrc t f.sa && e.psrc t f.sb)) ∧
  (Ready .por f s e → Gives .por f s e (e.preds f fun t => e.psrc t f.sa || e.psrc t f.sb)) ∧
  (Ready .pxor f s e → Gives .pxor f s e (e.preds f fun t => e.psrc t f.sa != e.psrc t f.sb)) ∧
  (Ready .pnot f s e → Gives .pnot f s e (e.preds f fun t => !e.psrc t f.sa)) ∧
  (Ready .pmov f s e → Gives .pmov f s e (e.preds f fun t => e.psrc t f.sa))

/-! ## Cross-lane -/

namespace Sys2Proof.Claims
open Sys2Proof.Machine

/-- R264: what an `XLANE` gives a thread: the value of the rank that it names, or its own where R263 leaves it out. -/
def lanes (e : Env) (f : Fields) (from_ : Int → Nat → Int) : Res :=
  .v ((e.T f).map fun m => (m.tid, wordsN (intWidth f.typ.toNat) (e.xlane f from_ m)))

/-- R267: the result of an `LRED`, the same for each thread of T. -/
def folded (e : Env) (f : Fields) (op : Fold) : Res := e.results f fun _ => wordsN (intWidth f.typ.toNat) (e.lred op f)

/-- R265: a `PCOL` also sets `sr.partial` of the group. -/
def Collects (c : Fields → Instr) (f : Fields) (s : State) (e : Env) (res : List Member → Res) : Prop :=
  Ends c f s e (s.setPartial e (e.mask true f)) (res (e.contributors f (e.mask true f))) (e.next f)

end Sys2Proof.Claims

/-- R264 to R268: the cross-lane instructions. -/
def Obligations.CrossLaneResults : Prop := ∀ (f : Fields) (s : State) (e : Env),
  (Ready .xlaneAt f s e → Gives .xlaneAt f s e (lanes e f fun _ b => b)) ∧
  (Ready .xlaneBack f s e → Gives .xlaneBack f s e (lanes e f fun r b => r - b)) ∧
  (Ready .xlaneFwd f s e → Gives .xlaneFwd f s e (lanes e f fun r b => r + b)) ∧
  (Ready .xlaneSwap f s e → Gives .xlaneSwap f s e (lanes e f fun r b => ((r.toNat ^^^ b : Nat) : Int))) ∧
  (Ready .xlaneOne f s e → Gives .xlaneOne f s e (lanes e f fun _ b => b)) ∧
  (Ready .pcolSome f s e → Collects .pcolSome f s e fun c => e.preds f fun _ => c.any fun m => e.psrc m.tid f.sa) ∧
  (Ready .pcolEvery f s e → Collects .pcolEvery f s e fun c => e.preds f fun _ => c.all fun m => e.psrc m.tid f.sa) ∧
  (Ready .pcolBits f s e → Collects .pcolBits f s e fun c => e.results f fun _ =>
    wordsN (intWidth f.typ.toNat) (maskOf ((c.filter fun m => e.psrc m.tid f.sa).map (·.rank)))) ∧
  (Ready .pcolSame f s e → Collects .pcolSame f s e fun c =>
    e.preds f fun _ => c.all fun m => c.all fun n => e.aN f m.tid == e.aN f n.tid) ∧
  (Ready .eqset f s e → !Fields.du f → Gives .eqset f s e (.v ((e.T f).map fun m =>
    (m.tid, wordsN (if e.hdr.lanes = 64 then 64 else 32) (e.equalRanks f (e.contributors f (e.mask true f)) m))))) ∧
  (Ready .eqset f s e → Fields.du f → Gives .eqset f s e (.w (wordsN (if e.hdr.lanes = 64 then 64 else 32)
    (match (e.contributors f (e.mask true f)).find? fun m => m.rank == 0 with
      | some m => e.equalRanks f (e.contributors f (e.mask true f)) m
      | none => 0)))) ∧
  (Ready .lredAdd f s e → Gives .lredAdd f s e (folded e f .add)) ∧
  (Ready .lredMin f s e → Gives .lredMin f s e (folded e f .min)) ∧
  (Ready .lredMax f s e → Gives .lredMax f s e (folded e f .max)) ∧
  (Ready .lredAnd f s e → Gives .lredAnd f s e (folded e f .and)) ∧
  (Ready .lredOr f s e → Gives .lredOr f s e (folded e f .or)) ∧
  (Ready .lredXor f s e → Gives .lredXor f s e (folded e f .xor)) ∧
  (Ready .rank f s e → Gives .rank f s e (.v ((e.T f).map fun m =>
    (m.tid, [BitVec.ofNat 32 m.rank, e.vlane m.tid, BitVec.ofNat 32 e.fr.mem.length]))))

/-! ## Floating point -/

/-- R272 to R276, R281: floating-point arithmetic, compares and exponent arithmetic. -/
def Obligations.FloatResults : Prop := ∀ (f : Fields) (s : State) (e : Env),
  let word (x : Nat) : Word := BitVec.ofNat 32 x
  (Ready .fadd f s e → Gives .fadd f s e (elementwise e f fun g a b _ => g.add f.rmode f.ftz a b)) ∧
  (Ready .fsub f s e → Gives .fsub f s e (elementwise e f fun g a b _ => g.sub f.rmode f.ftz a b)) ∧
  (Ready .fmul f s e → Gives .fmul f s e (elementwise e f fun g a b _ => g.mul f.rmode f.ftz a b)) ∧
  (Ready .ffma f s e → Gives .ffma f s e (elementwise e f fun g a b c => g.fma f.rmode f.ftz a b c)) ∧
  (Ready .fmin f s e → Gives .fmin f s e (elementwise e f fun g a b _ => g.extreme true f.ftz a b)) ∧
  (Ready .fmax f s e → Gives .fmax f s e (elementwise e f fun g a b _ => g.extreme false f.ftz a b)) ∧
  (Ready .frnd f s e → Gives .frnd f s e (elementwise e f fun g a _ _ => g.integral f.rmode (g.flush f.ftz a))) ∧
  (Ready .fclass f s e → Gives .fclass f s e (elementwise e f fun g a _ _ => 2 ^ g.classBit a)) ∧
  (Ready .fset f s e → Gives .fset f s e (e.preds f fun t =>
    let g := fmtOf f.typ.toNat
    let v (x : Word) := g.value (g.flush f.ftz (x.toNat % 2 ^ g.width))
    floatCond (f.sc.toNat / 8 % 16) ((v (e.a f t)).cmp (v (e.b f t))) && (e.p t (f.sc.toNat % 8) != f.sc.getLsbD 7))) ∧
  (Ready .fscale f s e → Gives .fscale f s e (e.results f fun t => [word (fscale f.rmode f.ftz (e.a f t).toNat (e.b f t))])) ∧
  (Ready .fgetexp f s e → Gives .fgetexp f s e (e.results f fun t => [word (fgetexp f.ftz (e.b f t).toNat)])) ∧
  (Ready .fmaxe f s e → Gives .fmaxe f s e (e.results f fun t => [word (fmaxe f.ftz (e.a f t) (e.b f t).toNat)]))

/-- R277 to R280: conversions and special functions. A special function counts event 0x13, once for each instruction that acts, which
is the model's choice (log entry 45, DEDUCED); the values of the special functions are those of log entry 11 (PRESUMED). -/
def Obligations.ConversionResults : Prop := ∀ (f : Fields) (s : State) (e : Env),
  let src := f.sc.toNat % 32
  let word (x : Nat) : Word := BitVec.ofNat 32 x
  let hit := s.count e.ln.id e.core 0x13 1
  let of (op : Machine.Num → Machine.Num) : Res := e.results f fun t => [word (specialOf op f.ftz (e.a f t).toNat)]
  (Ready .fcvt f s e → Gives .fcvt f s e (e.results f fun t =>
    convertFloat (s.ctx e.pf (e.ctx s)).ovtab f.rmode f.ftz f.typ.toNat src (e.aGroup f (cvtSrcSpan f.typ.toNat src).1 t))) ∧
  (Ready .icvt f s e → Gives .icvt f s e (e.results f fun t =>
    convertInt f.rmode f.ftz (f.sb.getLsbD 0) f.typ.toNat src (e.aGroup f (cvtSrcSpan f.typ.toNat src).1 t))) ∧
  (Ready .ex2 f s e → Ends .ex2 f s e hit (of ex2) (e.next f)) ∧
  (Ready .lg2 f s e → Ends .lg2 f s e hit (of lg2) (e.next f)) ∧
  (Ready .rcp f s e → Ends .rcp f s e hit (of rcp) (e.next f)) ∧
  (Ready .rsq f s e → Ends .rsq f s e hit (of rsq) (e.next f)) ∧
  (Ready .sqrt f s e → Ends .sqrt f s e hit (of sqrtOf) (e.next f)) ∧
  (Ready .sinpi f s e → Ends .sinpi f s e hit (of sinpi) (e.next f)) ∧
  (Ready .cospi f s e → Ends .cospi f s e hit (of cospi) (e.next f)) ∧
  (Ready .ex2s f s e → Ends .ex2s f s e hit
    (e.results f fun t => [word (specialOf (ex2s · (e.b f t).toInt) f.ftz (e.a f t).toNat)]) (e.next f))

/-! ## Control -/

namespace Sys2Proof.Claims
open Sys2Proof.Machine

/-- R84: the outstanding results have returned, and no late report takes their place (R453). -/
def settledOf (s : State) (e : Env) : State := s.settle e.t e.g
def Quiet (s : State) (e : Env) : Prop := ((settledOf s e).team e.t).late e.g = none

/-- R38, R203, R204: the fragment splits: it retires, ends, and one fragment runs at each selected pc. -/
def Splits (c : Fields → Instr) (f : Fields) (s : State) (e : Env) (s' : State) (res : Res) (parts : List (Nat × List Member))
    (rcv : Nat) : Prop :=
  exec (c f) s = .next ((((settledOf s' e).retire e (retOf (c f) f e.hdr.lanes) res e.pc).split e.t e.g parts rcv).count
    e.ln.id e.core 0x04 1)

/-- R180: pc + 4 · offset, in 64 bits. -/
def targetOf (e : Env) (off : Word) : Nat := (((e.pc : Int) + 4 * off.toInt) % (2 ^ 64 : Int)).toNat

end Sys2Proof.Claims

/-- R201 to R206, R208: a whole fragment goes to the target; `CALL` also writes the return address. `YIELD` keeps its fragment
from issuing in the next cycle. A branch that is
guarded, and every `BRA.C` and `RET`, takes path terms (R359). A whole-fragment branch whose guard diverges, or a `RET` whose
addresses do, traps with cause 0x22, and a `RET` to an address that is no multiple of 4 traps with cause 0x05. -/
def Obligations.BranchResults : Prop := ∀ (f : Fields) (s : State) (e : Env),
  let tgt := targetOf e f.imm32
  let plain := f.gneg = false ∧ f.gp = 7#3
  let terms := e.branchTerms s fun _ => tgt
  let trap (cause : Nat) := s.raise e (e.info cause (((e.T f).map (·.rank)).headD 0) (ranksOf (e.T f)) 0)
  (Ready .nop f s e → Gives .nop f s e .none) ∧
  (Ready .yield f s e → Ends .yield f s e (s.modFrag e.t e.g fun fr => { fr with after := (s.core e.core).cycle + 2 }) .none (e.next f)) ∧
  (Ready .bra f s e → e.F f = [] → plain → Ends .bra f s e s .none tgt) ∧
  (Ready .bra f s e → e.F f = [] → ¬ plain → Ends .bra f s e terms .none tgt) ∧
  (Ready .call f s e → e.F f = [] → plain → Ends .call f s e s (e.results f fun _ => wordsN 64 (e.next f)) tgt) ∧
  (Ready .call f s e → e.F f = [] → ¬ plain → Ends .call f s e terms (e.results f fun _ => wordsN 64 (e.next f)) tgt) ∧
  (Ready .braC f s e → e.F f = [] →
    Ends .braC f s e (e.branchTerms s fun t => if e.guard f t then tgt else e.next f) .none tgt) ∧
  (∀ a, Ready .ret f s e → e.F f = [] → (∀ m ∈ e.T f, (e.a2 f m.tid).toNat = a) → a % 4 = 0 →
    Ends .ret f s e (e.branchTerms s fun _ => a) .none a) ∧
  (Ready .bra f s e → e.F f ≠ [] → exec (.bra f) s = .next (trap 0x22)) ∧
  (Ready .call f s e → e.F f ≠ [] → exec (.call f) s = .next (trap 0x22)) ∧
  (Ready .ret f s e → (e.F f ≠ [] ∨ ∃ m ∈ e.T f, ∃ n ∈ e.T f, (e.a2 f m.tid).toNat ≠ (e.a2 f n.tid).toNat) →
    exec (.ret f) s = .next (trap 0x22)) ∧
  (∀ a, Ready .ret f s e → e.F f = [] → (∀ m ∈ e.T f, (e.a2 f m.tid).toNat = a) → a % 4 ≠ 0 →
    exec (.ret f) s = .next (trap 0x05))

/-- R38, R203, R204: a divergent `BRA.C` splits into the threads of T at the target and the others at the next instruction, and
moves its fragment as one where the two are the same; an
indirect branch goes where its threads' table entries say, as a whole or split. A full split stack traps with 0x23. -/
def Obligations.SplittingBranches : Prop := ∀ (f : Fields) (s s₁ : State) (e : Env) (xs : List (Nat × Nat)) (rcv : Nat),
  let tgt := targetOf e f.imm32
  let room := (e.tm.splitsOf e.fr).length < 32
  let s' := e.branchTerms s fun t => if e.guard f t then tgt else e.next f
  let next (t : Nat) : Nat := (lookup t xs).getD (e.next f)
  let s₂ := e.branchTerms s₁ next
  let parts := partsBy (fun m => next m.tid) e.active
  let link := e.results f fun _ => wordsN 64 (e.next f)
  let full := e.info 0x23 (((e.T f).map (·.rank)).headD 0) (ranksOf (e.T f)) 0
  (Ready .braC f s e → tgt = e.next f → Ends .braC f s e s' .none tgt) ∧
  (Ready .braC f s e → e.F f ≠ [] → tgt ≠ e.next f → room → Quiet s' e →
    Splits .braC f s e s' .none [(tgt, e.T f), (e.next f, e.F f)] (targetOf e f.imm32b)) ∧
  (Ready .braC f s e → e.F f ≠ [] → tgt ≠ e.next f → ¬ room → exec (.braC f) s = .next (s.raise e full)) ∧
  (∀ pc ms, Ready .brx f s e → e.readTable s f = (.ok s₁ xs, rcv) → parts = [(pc, ms)] → Ends .brx f s e s₂ .none pc) ∧
  (∀ pc ms, Ready .callx f s e → e.readTable s f = (.ok s₁ xs, rcv) → parts = [(pc, ms)] → Ends .callx f s e s₂ link pc) ∧
  (Ready .brx f s e → e.readTable s f = (.ok s₁ xs, rcv) → 2 ≤ parts.length → room → Quiet s₂ e →
    Splits .brx f s e s₂ .none parts rcv) ∧
  (Ready .callx f s e → e.readTable s f = (.ok s₁ xs, rcv) → 2 ≤ parts.length → room → Quiet s₂ e →
    Splits .callx f s e s₂ link parts rcv) ∧
  (Ready .brx f s e → e.readTable s f = (.ok s₁ xs, rcv) → 2 ≤ parts.length → ¬ room → exec (.brx f) s = .next (s₁.raise e full)) ∧
  (Ready .callx f s e → e.readTable s f = (.ok s₁ xs, rcv) → 2 ≤ parts.length → ¬ room → exec (.callx f) s = .next (s₁.raise e full))

/-- R207, R209, R210: threads exit, enter, leave and are filed in a reform region, and queue children. A `REFORM`, an `RFCLOSE` or a
`SPAWN` by threads that have not entered traps. That an `RFCLOSE` without a child in T completes without settling what its group has
outstanding is the model's choice (log entry 104, DEDUCED). -/
def Obligations.RegionInstructions : Prop := ∀ (f : Fields) (s : State) (e : Env),
  let retired (c : Fields → Instr) (s : State) : State := s.retire e (retOf (c f) f e.hdr.lanes) .none (e.next f)
  let entered := (e.T f).filter fun m => (e.tm.thread m.tid).entered
  let outside := (e.T f).filter fun m => !(e.tm.thread m.tid).entered
  let tids := (e.T f).map (·.tid)
  let kids := ∃ t ∈ tids, (e.tm.thread t).child = true
  (Ready .exit f s e → Quiet s e → exec (.exit f) s = .next ((retired .exit (settledOf s e)).exitThreads e.t e.g tids)) ∧
  (Ready .rfopen f s e → entered = [] → Quiet s e →
    exec (.rfopen f) s = .next ((retired .rfopen (settledOf s e)).openRegion e f)) ∧
  (Ready .rfclose f s e → outside = [] → ¬ kids →
    exec (.rfclose f) s = .next ((retired .rfclose s).joinThreads e.t e.g tids (e.next f))) ∧
  (Ready .rfclose f s e → outside = [] → kids → Quiet s e →
    exec (.rfclose f) s = .next ((retired .rfclose (settledOf s e)).joinThreads e.t e.g tids (e.next f))) ∧
  (Ready .reform f s e → e.tm.region = none → Gives .reform f s e .none) ∧
  (Ready .reform f s e → e.tm.region ≠ none → outside = [] → e.fr.ent ≠ none → Gives .reform f s e .none) ∧
  (Ready .reform f s e → e.tm.region ≠ none → outside = [] → e.fr.ent = none → Quiet s e →
    exec (.reform f) s = .next (((retired .reform (settledOf s e)).modTeam e.t fun tm => tm.setLive tids f.imm32).refile e
      (e.next f) tids)) ∧
  (Ready .spawn f s e → outside = [] → Ends .spawn f s e (e.spawnAll s f (e.T f)).1 (.p (e.spawnAll s f (e.T f)).2) (e.next f)) ∧
  (Ready .rfopen f s e → entered ≠ [] → exec (.rfopen f) s = .next (s.raise e (e.threadTrap 0x50 entered))) ∧
  (Ready .reform f s e → e.tm.region ≠ none → outside ≠ [] → exec (.reform f) s = .next (s.raise e (e.threadTrap 0x51 outside))) ∧
  (Ready .rfclose f s e → outside ≠ [] → exec (.rfclose f) s = .next (s.raise e (e.threadTrap 0x51 outside))) ∧
  (Ready .spawn f s e → outside ≠ [] → exec (.spawn f) s = .next (s.raise e (e.threadTrap 0x51 outside)))

/-- R211, R185, R187, R212, R213: the instructions whose effect is a trap, the return from one, and the halt of the grid.
`TRAP` and `BKPT` count as issued, and their frame's pc is their own address. That an `ERET` whose guard holds for only some threads
returns the whole fragment is the model's choice (log entry 106, DEDUCED). -/
def Obligations.TrapsAndHalts : Prop := ∀ (f : Fields) (x : RawWords) (s : State) (e : Env),
  let soft (c : Fields → Instr) (cause : Nat) (code : Word) : State :=
    let s := (settledOf s e).retire e (retOf (c f) f e.hdr.lanes) .none e.pc
    s.takeTrap { s.envAt e.t e.g with pc := e.pc, words := e.words }
      { e.info cause (((e.T f).map (·.rank)).headD 0) (ranksOf (e.T f)) 0 with tcode := code }
  (Ready .trap f s e → e.wp.mode = .normal → Quiet s e → exec (.trap f) s = .next (soft .trap 0x08 f.imm32)) ∧
  (Ready .bkpt f s e → e.wp.mode = .normal → Quiet s e → exec (.bkpt f) s = .next (soft .bkpt 0x09 0)) ∧
  (s.env? = some e → exec (.illegalEncoding x) s = .next (s.raise e (e.infoAll 0x01 0))) ∧
  (s.env? = some e → exec (.unimplementedEncoding x) s = .next (s.raise e (e.infoAll 0x02 0))) ∧
  (Ready .eret f s e → exec (.eret f) s = .next (((s.deliverFrag e.t e.g).count e.ln.id e.core 0x01 1).resumeFrame e.t e.g)) ∧
  (Ready .halt f s e →
    exec (.halt f) s = .next (((s.modFrag e.t e.g fun fr => { fr with fromFrame := true }).count e.ln.id e.core 0x01 1).haltLaunch
      e.ln.id))

/-- R182, R183: a `REP` issues once, counts, and starts n repeats of the instruction behind it, whose words have been
fetched; one that may not be repeated is an illegal encoding. -/
def Obligations.RepeatBegins : Prop := ∀ (r : RepFields) (s s' : State) (e : Env) (w : Word) (ws : List Word),
  s.env? = some e → ({ e with pc := e.pc + 8 } : Env).fetch s = .words s' (w :: ws) →
  let n := r.cnt.toNat + 1
  let rep : Repeat := { prefix0 := e.words.getD 0 0, prefix1 := e.words.getD 1 0, fields := r, left := n }
  let s'' := s'.modFrag e.t e.g fun fr => { fr with rep := some rep }
  (notRepeated w = false →
    exec (.rep r) s = .next (s''.retire e { (default : Ret) with isRep := true } .none (e.pc + 8))) ∧
  (notRepeated w = true → exec (.rep r) s = .next (s'.raise e (e.infoAll 0x01 0)))

/-! ## Phasers, speculation and transactions -/

namespace Sys2Proof.Claims
open Sys2Proof.Machine

/-- R221: the handle in source A names phaser `p`, whose die answers. -/
structure Names (f : Fields) (s : State) (e : Env) (h : Nat) (p : Phaser) : Prop where
  handle : h = (e.a f 0).toNat % 2 ^ 16
  good : s.badHandle e.pf e.t e.die h = false
  reach : hScope h ≠ 5 ∨ s.reaches e.die (hDie h) = true
  found : s.phaser? e.t h = some p

/-- R216: the warp is registered on it, in one of the modes of a list. -/
def Registered (e : Env) (h : Nat) (r : Registration) (modes : List Nat) : Prop := e.wp.reg? h = some r ∧ r.mode ∈ modes

/-- R198: one predicate for every thread of the active set. -/
def everyPred (e : Env) (b : Bool) : Res := .p (e.active.map fun m => (m.tid, b))

end Sys2Proof.Claims

/-- R217 to R219: phasers are allocated, registered on, dropped and arrived on. An arrival is a release, which is held while the team
has read-modify-writes to come (R105, R127). -/
def Obligations.PhaserInstructions : Prop := ∀ (f : Fields) (s : State) (e : Env) (h : Nat) (p : Phaser) (r : Registration),
  let mode := f.mod.toNat % 4
  let alloc := e.allocPhaser s (f.mod.toNat % 8) (e.b f 0).toNat
  (Ready .phinit f s e → (e.b f 0).toNat < 2 ^ 16 →
    Ends .phinit f s e alloc.1 (.w [BitVec.ofNat 32 alloc.2]) (e.next f)) ∧
  (Ready .phreg f s e → Names f s e h p → e.wp.reg? h = none → e.wp.regs.length < 8 → (mode = 2 ∨ p.n < 65535) →
    Ends .phreg f s e
      ((s.modWarp e.t e.fr.warp fun wp =>
          { wp with regs := wp.regs ++ [{ handle := h, mode, pending := false, phase := 0 }] }).putPhaser e.t h
        { p with n := p.n + if mode = 2 then 0 else 1 }.test) .none (e.next f)) ∧
  (Ready .phdrop f s e → Names f s e h p → Registered e h r [1, 2, 3] →
    Ends .phdrop f s e
      ((s.modWarp e.t e.fr.warp fun wp => { wp with regs := wp.regs.filter fun x => x.handle != h }).putPhaser e.t h
        { p with n := p.n - if r.mode = 2 then 0 else 1 }.test) .none (e.next f)) ∧
  (Ready .pharv f s e → Names f s e h p → Registered e h r [1, 3] → r.waits p = false → e.storesDue s = true →
    exec (.pharv f) s = .next (s.park e.t e.g .release)) ∧
  (Ready .pharv f s e → Names f s e h p → Registered e h r [1, 3] → r.waits p = false → e.storesDue s = false →
    Ends .pharv f s e ((e.release s).arrive e.t e.fr.warp h) (.w [BitVec.ofNat 32 p.p]) (e.next f)) ∧
  (Ready .pharv f s e → Names f s e h p → Registered e h r [1, 3] → r.waits p = true →
    exec (.pharv f) s = .next (s.suspend e (retOf (.pharv f) f e.hdr.lanes) (.arrival h)))

/-- R220, R222: a try-wait ends at once with true where the phase is done, as an acquire, and with false where its hint is 0; else
the fragment waits until the phase is done or the hint has elapsed. A `PHAW` repeated after it has ended with false makes no second
arrival, and succeeds at once where its phase has completed since: R216 would have it arrive anew then, and R222 decides (log entry
114, DEDUCED). -/
def Obligations.TryWaits : Prop := ∀ (f : Fields) (s : State) (e : Env) (h : Nat) (p q : Phaser) (r : Registration),
  let phase := (e.c f 0).toNat % 2 ^ 16
  let until_ := (s.die e.die).time + (e.b f 0).toNat
  let marked (s : State) (t : Nat) (b : Bool) : State := s.setAgain e.t e.fr.warp h t b
  let arrived := marked ((e.release s).arrive e.t e.fr.warp h) p.p true
  let old := marked s r.phase true
  let repeats := r.again = true ∨ r.waits p = true
  let first := r.again = false ∧ r.waits p = false ∧ e.storesDue s = false
  (Ready .phwait f s e → Names f s e h p → Registered e h r [2, 3] → p.done phase = true →
    Ends .phwait f s e (e.acquire (marked s phase false) (hScope h)) (everyPred e true) (e.next f)) ∧
  (Ready .phwait f s e → Names f s e h p → Registered e h r [2, 3] → p.done phase = false → e.b f 0 = 0 →
    Gives .phwait f s e (everyPred e false)) ∧
  (Ready .phwait f s e → Names f s e h p → Registered e h r [2, 3] → p.done phase = false → e.b f 0 ≠ 0 →
    exec (.phwait f) s = .next (s.suspend e (retOf (.phwait f) f e.hdr.lanes) (.tryWait h phase until_ f))) ∧
  (Ready .phaw f s e → Names f s e h p → Registered e h r [3] → first → arrived.phaser? e.t h = some q →
    q.done p.p = true → Ends .phaw f s e (e.acquire (marked arrived p.p false) (hScope h)) (everyPred e true) (e.next f)) ∧
  (Ready .phaw f s e → Names f s e h p → Registered e h r [3] → first → arrived.phaser? e.t h = some q →
    q.done p.p = false → e.b f 0 = 0 → Ends .phaw f s e arrived (everyPred e false) (e.next f)) ∧
  (Ready .phaw f s e → Names f s e h p → Registered e h r [3] → first → arrived.phaser? e.t h = some q →
    q.done p.p = false → e.b f 0 ≠ 0 →
    exec (.phaw f) s = .next (arrived.suspend e (retOf (.phaw f) f e.hdr.lanes)
      (.tryWait h p.p ((arrived.die e.die).time + (e.b f 0).toNat) f))) ∧
  (Ready .phaw f s e → Names f s e h p → Registered e h r [3] → repeats → p.done r.phase = true →
    Ends .phaw f s e (e.acquire (marked old r.phase false) (hScope h)) (everyPred e true) (e.next f)) ∧
  (Ready .phaw f s e → Names f s e h p → Registered e h r [3] → repeats → p.done r.phase = false →
    if e.b f 0 = 0 then Ends .phaw f s e old (everyPred e false) (e.next f)
    else exec (.phaw f) s = .next (old.suspend e (retOf (.phaw f) f e.hdr.lanes) (.tryWait h r.phase until_ f)))

/-- R223, R226 to R228: a speculative barrier that finds its phase open checkpoints and speculates, and one that finds it
done goes on; a transaction begins, commits, and aborts with the user's code; `TXABT` outside one does nothing. -/
def Obligations.SpeculationAndTransactions : Prop := ∀ (f : Fields) (s : State) (e : Env) (h : Nat) (p q : Phaser) (r : Registration)
    (x : Tx),
  let s₁ := (settledOf s e).emptyWindow e.t e.g
  let b := e.barsArrive s₁ h p r
  let mayArrive := e.wp.again = none → r.waits p = false → e.storesDue s = false
  (Ready .bars f s e → hScope h = 2 → Names f s e h p → e.hdr.vgran ≤ e.hdr.shadow → Registered e h r [1, 3] → Quiet s e →
    mayArrive → b.1.phaser? e.t h = some q → q.done b.2 = true → Ends .bars f s e (b.1.acquireTeam e.t e.fr.warp) .none (e.next f)) ∧
  (Ready .bars f s e → hScope h = 2 → Names f s e h p → e.hdr.vgran ≤ e.hdr.shadow → Registered e h r [1, 3] → Quiet s e →
    mayArrive → b.1.phaser? e.t h = some q → q.done b.2 = false →
    Ends .bars f s e ((b.1.acquireTeam e.t e.fr.warp).modWarp e.t e.fr.warp fun wp =>
      wp.speculate h b.2 (b.1.shadowOf e)) .none (e.next f)) ∧
  (Ready .txbeg f s e → e.hdr.vgran ≤ e.hdr.shadow → Quiet s e →
    Ends .txbeg f s e ((e.acquire s₁ 5).modWarp e.t e.fr.warp fun wp =>
      wp.transact f.dst.toNat (s₁.shadowOf e)) (.w [0]) (e.next f)) ∧
  (Ready .txend f s e → e.wp.mode = .transactional x → e.storesDue s = false → Quiet s e →
    Ends .txend f s e ((e.release (settledOf s e)).commitTx e.t e.fr.warp) .none (e.next f)) ∧
  (Ready .txend f s e → (∀ x, e.wp.mode ≠ .transactional x) → exec (.txend f) s = .next (s.raise e (e.onceTrap f 0x59))) ∧
  (Ready .txabt f s e → e.wp.mode = .transactional x →
    exec (.txabt f) s = .next (s.abortTx e.t e.fr.warp [{ code := 0x08, cause := 0, user := (e.b f 0).toNat % 2 ^ 16 }])) ∧
  (Ready .txabt f s e → (∀ x, e.wp.mode ≠ .transactional x) → Gives .txabt f s e .none)

/-! ## Waits on tiles, fences, special registers, claims -/

/-- R230 to R236, R357: the system instructions. A `TILEWAIT` that ends with true is an acquire at `.sys`, whose scope R230 does not
give (log entry 51, DEDUCED). A fence that releases is held while its team has read-modify-writes to come (R105, R127). -/
def Obligations.SystemInstructions : Prop := ∀ (f : Fields) (s s₁ : State) (e : Env),
  let until_ := (s.die e.die).time + (e.b f 0).toNat
  let width := if csr64 f.csr then 64 else 32
  let start := (e.a2 f 0).toNat
  let len := (e.reg2 true 0 f.sb.toNat).toNat
  let stop := start + len
  let next := if e.fr.claim = 0 then start else e.fr.claim
  (Ready .tilewait f s e → e.tm.tileFree f.sa.toNat = true → Ends .tilewait f s e (e.acquire s 5) (everyPred e true) (e.next f)) ∧
  (Ready .tilewait f s e → e.tm.tileFree f.sa.toNat = false → e.b f 0 = 0 → Gives .tilewait f s e (everyPred e false)) ∧
  (Ready .tilewait f s e → e.tm.tileFree f.sa.toNat = false → e.b f 0 ≠ 0 →
    exec (.tilewait f) s = .next (s.suspend e (retOf (.tilewait f) f e.hdr.lanes) (.tile f.sa.toNat until_ f))) ∧
  (Ready .fence f s e → e.held s f = true → exec (.fence f) s = .next (s.park e.t e.g .release)) ∧
  (Ready .fence f s e → e.held s f = false → Ends .fence f s e (e.order s f) .none (e.next f)) ∧
  (Ready .cctlRo f s e → Ends .cctlRo f s e (s.modCore e.core fun k => { k with ro := [] }) .none (e.next f)) ∧
  (Ready .csrr f s e → Fields.du f = false →
    Gives .csrr f s e (.v ((e.T f).map fun m => (m.tid, wordsN width (e.csr s f.csr m))))) ∧
  (∀ m l, Ready .csrr f s e → Fields.du f = true → e.T f = m :: l →
    Gives .csrr f s e (.w (wordsN width (e.csr s f.csr m)))) ∧
  (Ready .csrw f s e → badWindow (e.c2 f 0) = false → e.contributes s = false →
    Ends .csrw f s e (s.modTeam e.t fun tm => { tm with rxwin := e.c2 f 0 &&& 0x8FFFFFFFFFFFFF00#64 }) .none (e.next f)) ∧
  (Ready .csrw f s e → (badWindow (e.c2 f 0) = true ∨ e.contributes s = true) →
    exec (.csrw f) s = .next (s.raise e (e.onceTrap f 0x18))) ∧
  (Ready .ovld f s e → badOverflow (e.a f 0) = false →
    Ends .ovld f s e (s.modCtx e.pf (e.ctx s) fun c => { c with ovtab := e.a f 0 }) .none (e.next f)) ∧
  (Ready .claim f s e → badClaim start len = true → exec (.claim f) s = .next (s.raise e (e.onceTrap f 0x19))) ∧
  (Ready .claim f s e → badClaim start len = false → next < stop → e.hdr.claim = false →
    exec (.claim f) s = .next (s.raise e { e.onceTrap f 0x46 with addr := s.pageBase (e.who s) start })) ∧
  (Ready .claim f s e → badClaim start len = false → stop ≤ next →
    Ends .claim f s e (s.modFrag e.t e.g fun fr => { fr with claim := 0 }) .none (e.next f)) ∧
  (Ready .claim f s e → e.hdr.claim = true → badClaim start len = false → next < stop → e.claimAnswer s = (s₁, none) →
    e.claimChecks s₁ stop (len / 65536) next = .ok → e.ln.replay.isSome = true → Ends .claim f s e s₁ .none (e.next f)) ∧
  (Ready .claim f s e → e.hdr.claim = true → badClaim start len = false → next < stop → e.claimAnswer s = (s₁, none) →
    e.claimChecks s₁ stop (len / 65536) next = .ok → e.ln.replay.isSome = false →
    exec (.claim f) s = .next (s₁.suspend e (retOf (.claim f) f e.hdr.lanes) (.claim next stop))) ∧
  (∀ va, Ready .claim f s e → e.hdr.claim = true → badClaim start len = false → next < stop → e.claimAnswer s = (s₁, some va) →
    exec (.claim f) s = .next (s₁.raise e { e.onceTrap f 0x48 with addr := s₁.pageBase (e.who s₁) va }))

/-! ## Memory -/

namespace Sys2Proof.Claims
open Sys2Proof.Machine

/-- R250, R251: every check of every access of `ms` passes: each address is formed, translated, permitted and aligned, no page
is absent, and `xs` says where each lands. The walks that this makes are in `s'`. -/
def Reaches (e : Env) (f : Fields) (s : State) (n : Need) (space : Nat) (ms : List Member) (s' : State) (xs : List (Member × Spot)) :
    Prop :=
  ms ≠ [] ∧ e.locateAll s n space (e.baseOf f) (offsetOf f) ms = { s := s', spots := xs, faults := [], wait := none, bad := none }

/-- R146, R261, R477: the warp's execution state lets the accesses perform: it is the normal state, or they are such as a
speculator or a transaction makes. -/
def Open_ (e : Env) (s : State) (write read : Bool) (xs : List (Member × Spot)) : Prop :=
  ∀ k, e.inMode s write read xs k = k

/-- R252: a load reads bytes of the format at each place and extends them. -/
def loaded (f : Fields) (vs : List (Nat × List Byte)) : List (Nat × List Word) :=
  vs.map fun v => (v.1, extendLoad f.typ.toNat v.2)

/-- The lane requests that go through the collector. -/
def requests (xs : List (Member × Spot)) : List Nat := (xs.filter fun x => x.2.page).map fun x => x.2.place

/-- R105, R128, R255: the order that the annotation gives, after the fragment's own far stores, and the collector. -/
def readyToLoad (e : Env) (f : Fields) (s : State) (xs : List (Member × Spot)) : State :=
  (e.order (e.ownFar s) f).collect e.core e.t (requests xs)

/-- R255: the accesses may perform, and the collector has room for their requests. -/
def Reads (e : Env) (s : State) (xs : List (Member × Spot)) : Prop :=
  Open_ e s false true xs ∧ s.collects e.core (requests xs).length = true

def need (write load host exact : Bool) (n : Nat) : Need := { write, load, host, exact, size := n }

end Sys2Proof.Claims

/-- R252, R254, R256, R260: a load gives each thread the bytes at its place, extended to the format; a gather in a region
binds its data and waits for each thread's return; a store writes the low bytes of source B; a prefetch completes. -/
def Obligations.LoadsAndStores : Prop := ∀ (f : Fields) (s s₁ s₂ : State) (e : Env) (xs : List (Member × Spot)) (vs : List (Nat × List Byte)),
  let n := accessSize f.typ.toNat
  let rd := need false true true false n
  let plain := e.region = false ∨ e.fr.ent ≠ none
  let all := (xs.map fun x => x.2).all fun x => match x with
    | .far _ _ => true
    | _ => false
  (Ready .ld f s e → Reaches e f s rd f.space (e.actors f) s₁ xs → Reads e s₁ xs →
    e.loadAll (readyToLoad e f s₁ xs) n false xs = .ok (s₂, vs) → Ends .ld f s e s₂ (resOf f (loaded f vs)) (e.next f)) ∧
  (Ready .ldro f s e → Reaches e f s rd f.space (e.actors f) s₁ xs → Reads e s₁ xs →
    e.loadAll (readyToLoad e f s₁ xs) n true xs = .ok (s₂, vs) → Ends .ldro f s e s₂ (resOf f (loaded f vs)) (e.next f)) ∧
  (Ready .ldRf f s e → plain → Reaches e f s rd f.space (e.actors f) s₁ xs → Reads e s₁ xs →
    e.loadAll (readyToLoad e f s₁ xs) n false xs = .ok (s₂, vs) → Ends .ldRf f s e s₂ (resOf f (loaded f vs)) (e.next f)) ∧
  (Ready .ldRf f s e → ¬ plain → Quiet s e → Reaches e f (settledOf s e) rd f.space (e.actors f) s₁ xs →
    Reads e s₁ xs → e.loadAll (readyToLoad e f s₁ xs) n false xs = .ok (s₂, vs) →
    exec (.ldRf f) s = .next ((s₂.modTeam e.t fun tm => tm.gatherData e f.trans f.dst.toNat (loaded f vs)).suspend e
      (retOf (.ldRf f) f e.hdr.lanes) (.gather f (vs.map (·.1))))) ∧
  (Ready .st f s e → Reaches e f s (need true false true false n) f.space (e.T f) s₁ xs → Open_ e s₁ true false xs → e.held s₁ f = false →
    let s₃ := e.order s₁ f
    Ends .st f s e (e.storeAll (if all then s₃ else e.ownFar s₃) (xs.map fun x => (x.1, x.2, leBytes n (e.dataB f x.1.tid))))
      .none (e.next f)) ∧
  (Ready .prefl f s e → ∃ s', Ends .prefl f s e s' .none (e.next f) ∧ s'.mem = s.mem ∧ s'.teams.map (fun tm => (tm.id, tm.threads, tm.frags)) = s.teams.map fun tm => (tm.id, tm.threads, tm.frags))

namespace Sys2Proof.Claims
open Sys2Proof.Machine

/-- R253, R257: an atomic that returns the old values, or a reduction that returns nothing. `new` is the new value from the old
one, source B and the replacement value of cas; `host` says whether a host page serves it (R139). Where only the first `k` of the
read-modify-writes come with the issue (log entry 94), the fragment keeps the others, and each turn of its own brings the next; an
acquire is made again after the last (R129). -/
def Atomic (c : Fields → Instr) (ret : Bool) (host : Fields → Bool) (new : Fields → Nat → Nat → Nat → Nat) : Prop :=
  ∀ (f : Fields) (s s₁ s₂ : State) (e : Env) (xs : List (Member × Spot)) (vs : List (Nat × Nat)),
    let n := accessSize f.typ.toNat
    let terms := if Fields.du f then (e.T f).map fun m => (m.tid, (vs.map (·.2)).headD 0) else vs
    let data (e : Env) (m : Member) (old : Nat) : Nat := new f old (e.dataB f m.tid) (e.dataNew f m.tid)
    let before := e.countAtomics (e.order (e.ownFar s₁) f) xs
    let k := e.pacing before xs
    (Ready c f s e → Reaches e f s (need true true (host f) false n) f.space (e.actors f) s₁ xs → Open_ e s₁ true true xs → e.held s₁ f = false →
      e.rmwAll before n (data e) (xs.take k) = .ok (s₂, vs) →
      if k < xs.length then exec (c f) s = .next (s₂.suspend e (retOf (c f) f e.hdr.lanes) (.rmws (c f) (xs.drop k) vs))
      else if ret then Ends c f s e (s₂.pathTerms e.t terms) (resOf f (vs.map fun v => (v.1, wordsN (intWidth f.typ.toNat) v.2))) (e.next f)
      else Ends c f s e s₂ .none (e.next f)) ∧
    ∀ (t g old : Nat) (x : Member × Spot) (left : List (Member × Spot)) (rest : List Turn),
      let s₀ := { s with agenda := rest }
      let e₀ := s₀.envAt t g
      let done := vs ++ [(x.1.tid, old)]
      s.agenda = .rmw t g :: rest → ((s.team t).frag g).st = .waiting (.rmws (c f) (x :: left) vs) →
      (s.launch? (s.team t).launch).isSome = true → s.overflowed (s.team t).launch = false → (s.team t).st ≠ .saving →
      e₀.rmw1 s₀ x.1 x.2 n (data e₀ x.1) = .ok (s₂, old) →
      step s = .next (if left = [] then (e₀.conclude f (retOf (c f) f e₀.hdr.lanes) (e₀.atomicEnd (e₀.acquireLast s₂ f) f ret done)).modTeam e₀.t Team.wakeQueue
        else s₂.modFrag e₀.t e₀.g fun fr => { fr with st := .waiting (.rmws (c f) left done) })

/-- The operations of R257. -/
def addOf (f : Fields) (old b _new : Nat) : Nat :=
  if f.typ = 0x0E then f32Fmt.add 0 false old b else (old + b) % 2 ^ intWidth f.typ.toNat
def leastOf (f : Fields) (old b _new : Nat) : Nat := if val f old ≤ val f b then old else b
def mostOf (f : Fields) (old b _new : Nat) : Nat := if val f b ≤ val f old then old else b
def incOf (_f : Fields) (old b _new : Nat) : Nat := if b ≤ old then 0 else old + 1
def decOf (_f : Fields) (old b _new : Nat) : Nat := if old = 0 ∨ b < old then b else old - 1

end Sys2Proof.Claims

/-- R253, R257: the atomics and the reductions. Only the atomic integer add, xchg and cas reach a host page (R139). That only the first
of an instruction's read-modify-writes may come with its issue, and each of the others with a turn of its own, is the model's choice
(log entry 94, DESIGN CHOICE): the manual does not say how far they stand apart. -/
def Obligations.AtomicResults : Prop :=
  Atomic .atomAdd true (fun f => f.typ != 0x0E) addOf ∧ Atomic .redAdd false (fun _ => false) addOf ∧
  Atomic .atomAnd true (fun _ => false) (fun _ old b _ => old &&& b) ∧ Atomic .redAnd false (fun _ => false) (fun _ old b _ => old &&& b) ∧
  Atomic .atomOr true (fun _ => false) (fun _ old b _ => old ||| b) ∧ Atomic .redOr false (fun _ => false) (fun _ old b _ => old ||| b) ∧
  Atomic .atomXor true (fun _ => false) (fun _ old b _ => old ^^^ b) ∧ Atomic .redXor false (fun _ => false) (fun _ old b _ => old ^^^ b) ∧
  Atomic .atomMin true (fun _ => false) leastOf ∧ Atomic .redMin false (fun _ => false) leastOf ∧
  Atomic .atomMax true (fun _ => false) mostOf ∧ Atomic .redMax false (fun _ => false) mostOf ∧
  Atomic .atomInc true (fun _ => false) incOf ∧ Atomic .redInc false (fun _ => false) incOf ∧
  Atomic .atomDec true (fun _ => false) decOf ∧ Atomic .redDec false (fun _ => false) decOf ∧
  Atomic .atomXchg true (fun _ => true) (fun _ _ b _ => b) ∧
  Atomic .atomCas true (fun _ => true) (fun _ old b new => if old = b then new else old)

/-- R258, R259: a `REDX` adds each thread's value to the exact accumulator of its element; a `REDXF` gives the totals of
its elements, rounded once. -/
def Obligations.ExactInstructions : Prop := ∀ (f : Fields) (s s₁ s₂ s₃ : State) (e : Env) (xs : List (Member × Spot)) (vs : List (Nat × Nat)),
  let places := xs.map fun x => x.2.place
  let s' := e.order (e.ownFar s₂) f
  let terms := if Fields.du f then (e.T f).map fun m => (m.tid, (vs.map (·.2)).headD 0) else vs
  (Ready .redx f s e → Reaches e f s (need true false false true 4) 0 (e.T f) s₁ xs → e.held s₁ f = false →
    s₁.exactRoom e.pf (e.ctx s₁) places = .ok s₂ →
    Ends .redx f s e (xs.foldl (fun s x => s.exactAdd e.pf (e.ctx s) e.t x.2.place (e.dataB f x.1.tid))
      (s'.count e.ln.id e.core 0x0A xs.length)) .none (e.next f)) ∧
  (Ready .redxf f s e → Reaches e f s (need true true false true 4) 0 (e.actors f) s₁ xs → e.held s₁ f = false →
    s₁.exactRoom e.pf (e.ctx s₁) (places.filter fun p => (s₁.exact? e.pf (e.ctx s₁) p).isSome) = .ok s₂ →
    e.finishAll s' (f.sb.toNat % 8) xs = .ok (s₃, vs) →
    Ends .redxf f s e (s₃.pathTerms e.t terms) (resOf f (vs.map fun v => (v.1, [BitVec.ofNat 32 v.2]))) (e.next f))

/-! ## Matrix -/

namespace Sys2Proof.Claims
open Sys2Proof.Machine

/-- R289: an operation joins the queue of the anchor core, and the accumulator's result is outstanding until it retires. -/
def Queues (c : Fields → Instr) (f : Fields) (s : State) (e : Env) (s' : State) (cycles : Nat) (elems : AccElems) : Prop :=
  let op : MatrixOp := { id := s'.fresh, team := e.t, acc := f.dst.toNat, elems, cycles, cmd := none }
  exec (c f) s = .next
    ({ (s'.modCore e.tm.core fun k => { k with matrix := k.matrix ++ [op] }) with fresh := s'.fresh + 1 }.retire e
      { retOf (c f) f e.hdr.lanes with op := some op.id } .none (e.next f))

def QueueOpen (s : State) (e : Env) : Prop := (s.core e.tm.core).matrix.length < s.limits.matrixQueue

/-- R292: every check of the 16 KiB (or 8 KiB) block passes. -/
def BlockReaches (e : Env) (f : Fields) (s : State) (n : Need) (s' : State) (xs : List (Member × Spot)) : Prop :=
  e.T f ≠ [] ∧ e.blockChecks s n f = { s := s', spots := xs, faults := [], wait := none, bad := none }

end Sys2Proof.Claims

/-- R282 to R292: tiles are bound and released; matrix operations and moves of accumulators queue in order. That an `ALD` waits for room
in that queue (log entry 127, DEDUCED), and which of several granules an engine owns gives the trap's ADDR (`granTrap`, log entry 117),
are the model's choices. -/
def Obligations.MatrixInstructions : Prop := ∀ (f : Fields) (s s₁ s₂ : State) (e : Env) (k : Nat) (xs : List (Member × Spot))
    (vs : List (Nat × List Byte)),
  let x := e.w f.sc.toNat
  let y := e.w (f.sc.toNat + 1)
  let dA := e.tm.tiles.getD f.sa.toNat 0
  let dB := e.tm.tiles.getD f.sb.toNat 0
  let free := ∀ g ∈ tileGrans dA ++ tileGrans dB, g ∉ e.tm.owned
  let s' := e.ownFar s
  let product := s'.mmaElems e.tm (paramsOf x y) k dA dB (s'.accView e.tm f.dst.toNat)
  let late := e.order (e.ownFar s₁) f
  (Ready .tbind f s e → badTileWindow e.hdr.scratch (e.a f 0) (e.b f 0) = false →
    Ends .tbind f s e (s.putTile e.t f.dst.toNat (tileDesc f.typ.toNat (e.a f 0) (e.b f 0))) .none (e.next f)) ∧
  (Ready .tbind f s e → badTileWindow e.hdr.scratch (e.a f 0) (e.b f 0) = true →
    exec (.tbind f) s = .next (s.raise e (e.onceTrap f 0x17))) ∧
  (Ready .trel f s e → Ends .trel f s e
    (s.putTile e.t f.dst.toNat (e.tm.tiles.getD f.dst.toNat 0 &&& 0x7FFFFFFFFFFFFFFF#64)) .none (e.next f)) ∧
  (Ready .mma f s e → goodParams false x y dA dB = some k → free → QueueOpen s' e →
    Queues .mma f s e s' (paramsOf x y).cycles product) ∧
  (Ready .mmabs f s e → goodParams true x y dA dB = some k → free → QueueOpen s' e →
    Queues .mmabs f s e s' (paramsOf x y).cycles product) ∧
  (Ready .mma f s e → goodParams false x y dA dB = none → exec (.mma f) s = .next (s.raise e (e.onceTrap f 0x60))) ∧
  (Ready .mma f s e → goodParams false x y dA dB = some k → ¬ free →
    exec (.mma f) s = .next (s.raise e (e.granTrap f (tileGrans dA ++ tileGrans dB)))) ∧
  (Ready .azero f s e → QueueOpen s e → Queues .azero f s e s 0 []) ∧
  (Ready .amov f s e → QueueOpen s e → Queues .amov f s e s 0 (s.accView e.tm f.sa.toNat)) ∧
  (Ready .ald f s e → BlockReaches e f s (need false true true false 16) s₁ xs → QueueOpen s₁ e →
    e.loadAll late 8 false xs = .ok (s₂, vs) → QueueOpen s₂ e →
    Queues .ald f s e s₂ 0 (accFrom fun n =>
      loadElem f.typ.toNat (blockElem (cellsFrom 0 (vs.flatMap (·.2))) (accBytes f.typ.toNat) n))) ∧
  (Ready .ast f s e → BlockReaches e f s (need true false true false 16) s₁ xs → Open_ e s₁ true false xs → e.held s₁ f = false →
    Ends .ast f s e (e.storeAll late (xs.zipIdx.map fun x => (x.1.1, x.1.2,
      storeBytes (late.ctx e.pf (e.ctx late)).ovtab f.rmode f.typ.toNat (late.accView e.tm f.sb.toNat) x.2))) .none (e.next f))

/-! ## Queue registers -/

namespace Sys2Proof.Claims
open Sys2Proof.Machine

/-- R297: what a push of `v` does where it completes: it opens a frame, adds a word to one, or submits the command. -/
def Pushes (c : Fields → Instr) (v : Fields → Env → Word) : Prop := ∀ (f : Fields) (s : State) (e : Env),
  let q := f.dst.toNat
  let reg := e.tm.queues.getD q default
  let w := v f e
  let ws := reg.words ++ [w]
  let word0 (ws : List Word) : Nat := (ws.headD 0).toNat
  let cmd := e.newCmd s q reg.subs ws
  let s₁ := e.release s
  let s₂ := ({ s₁ with fresh := s₁.fresh + 1 }.closeFrame e.t q).modTeam e.t fun tm => { tm with cmds := tm.cmds ++ [cmd] }
  (Ready c f s e → reg.owner = none → goodHeader (s.devDies e.pf) w.toNat = true →
    (cmdKind w.toNat = 4 ∨ e.tm.entries < e.hdr.queues) →
    Ends c f s e (s.modTeam e.t fun tm => tm.modQueue q fun x => { x with owner := some e.fr.warp, words := [w] }) .none (e.next f)) ∧
  (Ready c f s e → reg.owner = some e.fr.warp → ws.length ≤ cmdLen (word0 ws) →
    Ends c f s e (s.modTeam e.t fun tm => tm.modQueue q fun x => { x with words := ws }) .none (e.next f)) ∧
  (Ready c f s e → reg.owner = some e.fr.warp → cmdLen (word0 ws) < ws.length → cmdKind (word0 ws) ≠ 4 →
    e.submitFault s ws = none → ctlGn (wn ws 1) = false → e.storesDue s = false →
    s.buffered e.t ((cmdTiles e.tm.tiles ws).flatMap fun x => tileGrans x.2) = false →
    Ends c f s e ((s₂.launchCmd e.t cmd.id).runGraph e.t 1024) .none (e.next f)) ∧
  (Ready c f s e → reg.owner = none → goodHeader (s.devDies e.pf) w.toNat = false →
    exec (c f) s = .next (s.raise e (e.onceTrap f 0x70))) ∧
  (∀ o, Ready c f s e → reg.owner = some o → o ≠ e.fr.warp → exec (c f) s = .next (s.raise e (e.onceTrap f 0x72)))

end Sys2Proof.Claims

/-- R294 to R298: pushes and pops of queue registers. -/
def Obligations.QueueInstructions : Prop :=
  Pushes .movToQueue (fun f e => e.a f (((e.T f).map (·.tid)).getD 0 0)) ∧
  Pushes .moviToQueue (fun f _ => f.imm32) ∧
  (∀ (f : Fields) (s : State) (e : Env) (c : Cmd), Ready .movFromQueue f s e → firstOwing f.sa.toNat e.tm.cmds = some c →
    (c.st = .complete → c.fault79 = false →
      exec (.movFromQueue f) s = .next
        (((e.acquire s (ctlScope (c.word 1))).modTeam e.t fun tm => tm.modCmd c.id fun x => { x with taken := x.taken + 1 }).retire e
          { retOf (.movFromQueue f) f e.hdr.lanes with pop := some c.id } (e.results f fun _ => [c.results.getD c.taken 0]) (e.next f))) ∧
    (c.st ≠ .complete →
      exec (.movFromQueue f) s = .next (s.suspend e (retOf (.movFromQueue f) f e.hdr.lanes) (.queue f.sa.toNat)))) ∧
  (∀ (f : Fields) (s : State) (e : Env), Ready .movFromQueue f s e → firstOwing f.sa.toNat e.tm.cmds = none →
    exec (.movFromQueue f) s = .next (s.raise e (e.onceTrap f 0x74)))

/-! ## Happenings on cores

A row of the table that is no encoding completes where its conditions hold; in every other state it changes nothing (log
entry 4). -/

namespace Sys2Proof.Claims
open Sys2Proof.Machine

/-- The fragment of an acting team stands so. -/
abbrev Stands (s : State) (t g : Nat) (fr : Frag) (w : Wait) : Prop := s.actor t g = some fr ∧ fr.st = .waiting w

/-- The time of the die on which a fragment runs. -/
def nowOf (s : State) (t g : Nat) : Nat := (s.die (s.envAt t g).die).time

end Sys2Proof.Claims

/-- R459, R461, R85, R256, R39: a trap enters as its warp's frame falls free; the host answers a forwarded trap; results and
gathered data return; a fragment parks at its reconvergence point. -/
def Obligations.FragmentHappenings : Prop := ∀ (t g i tid : Nat) (s s₁ s₂ : State) (fr : Frag) (x : TrapInfo) (f : Fields)
    (left : List Nat) (p v : Nat),
  let e := s.envAt t g
  let va := e.ln.headVa e.tm.num e.fr.warp + 112
  (Stands s t g fr .frame → fr.trap = some x → fr.priv = false → (e.tm.warp fr.warp).frame = false →
    exec (.trapEntry t g) s = .next (s.enterTrap e x)) ∧
  (Stands s t g fr .frame → fr.trap = some x → fr.priv = true → exec (.trapEntry t g) s = .next (s.secondTrap e x)) ∧
  (Stands s t g fr .host → (s.dropL1 e.core).reachVa (.unit e.g) e.pf (e.ctx (s.dropL1 e.core)) e.die va .read = .ok (s₁, p) →
    s₁.mem.nat p 8 = v → v ≠ 0 → s₁.deviceWrite (.unit e.g) e.pf (e.ctx s₁) e.die va (leBytes 8 0) = .ok s₂ →
    (v = 1 → exec (.hcmdPoll t g) s = .next (s₂.resumeFrame e.t e.g)) ∧
    (v = 2 → exec (.hcmdPoll t g) s = .next ((s₂.modFrag e.t e.g fun fr => { fr with st := .running, fromFrame := true }).haltLaunch e.ln.id)) ∧
    (v = 3 → exec (.hcmdPoll t g) s = .next (s₂.terminate e.pf (e.ctx s₂) 0x84))) ∧
  (exec (.resultReturn t g i) s = .next (s.modTeam t fun tm => (tm.modFrag g fun fr =>
    ({ fr with out := modNth i (fun (o : Outstanding) => if o.op.isNone then { o with returned := true } else o) fr.out } : Frag).unpark).popWords)) ∧
  (Stands s t g fr (.gather f left) → tid ∈ left → exec (.rfGatherReturn t g tid) s = .next (s.gatherBack t g tid f left)) ∧
  (s.canIssue t g = true → e.tm.atJoin e.fr = true → ((s.deliverFrag t g).team t).late g = none →
    exec (.fragmentPark t g) s = .next ((s.deliverFrag t g).parkFrag t g))

/-- R50, R53, R59, R352: a bin ages; a group is drawn from a drawable bin, at most one in a cycle, its threads chosen as R50 says; of
the queued children whose teams run the first takes a context and is filed by its entry. That the children of a team that does not
run are passed over, where R59 takes children in queue order, is the model's choice (log entry 84, DESIGN CHOICE, after R71). -/
def Obligations.ArbourHappenings : Prop := ∀ (c i t tid : Nat) (tids : List Nat) (s s₁ : State) (b : Bin) (tm : Team) (held rest : List (Nat × Nat)),
  let k := s.core c
  let h := (s.launchOf tm.launch).hdr
  (exec (.binAgeExpiry c i) s = .next (s.modCore c fun k =>
    { k with bins := modNth i (fun b => b.map fun b => if b.old s.limits.ageTimer k.cycle then { b with aged := true } else b) k.bins })) ∧
  (k.bins.getD i none = some b → s.team? b.team = some tm → tm.active = true → k.drew = false → (b.aged = true ∨ h.lanes ≤ b.tids.length) →
    goodChoice h tm (b.tids.map (·.1)) tids = true →
    exec (.groupDraw c i tids) s = .next ((s.modCore c fun k =>
      { k with drew := true, bins := modNth i (fun _ => b.without tids s.limits.ageTimer k.cycle) k.bins }).drawGroup c b.team b.key tids)) ∧
  (k.spawn = held ++ (t, tid) :: rest → (∀ x ∈ held, (s.team x.1).active = false) → (s.team t).active = true →
    s.childrenOn c < Config.childContexts →
    ((s.modCore c fun k => { k with spawn := held ++ rest }).modTeam t fun tm => tm.modThread tid fun th => { th with queued := false }).fileThread
      t tid ((s.team t).thread tid).resume = some s₁ →
    exec (.childDequeue c) s = .next s₁)

/-- R101, R111, R472, R473, R500: walks complete; waits for a frame, for the host or for another die end; firmware refills the
pools; a page of a claim is re-homed. After a wait that has timed out the instruction issues again, and its check of that page, or of that
16 KiB chunk of a spread page (R96), then fails with the cause, so that the lowest-ranked thread that fails decides (R251); a phaser instruction ends its context (R500). -/
def Obligations.TranslationHappenings : Prop := ∀ (t g pf die : Nat) (v : Word) (small large : List Nat) (s s₁ : State) (fr : Frag)
    (va d at_ lvl next stop n : Nat) (en : DWord),
  let e := s.envAt t g
  let e' := s.envFetched t g
  let filled := s.modDie die fun d => { d with
    pool64 := d.pool64 ++ (dedup small).filter (goodFrame die (2 ^ 16) d.pool64)
    pool2m := d.pool2m ++ (dedup large).filter (goodFrame die (2 ^ 21) d.pool2m) }
  let late (cause size : Nat) : State := s.modFrag t g fun fr => { fr with
    st := .running, walked := true, bounds := (va / size, cause, 0) :: fr.bounds.filter fun x => x.1 != va / size || x.2.1 != cause }
  (Stands s t g fr (.walk va) → s.leaf (e.who s) va = .found at_ en lvl → entryM en = false → entryU en = false →
    exec (.pageWalk t g) s = .next ((s.tlbFill (e.who s) va at_ en lvl).wake t g true)) ∧
  (Stands s t g fr (.walk va) → s.leaf (e.who s) va = .found at_ en lvl → entryM en = false → entryU en = true →
    exec (.pageWalk t g) s = .next (s.wake t g true)) ∧
  (Stands s t g fr (.pool va d) → d ≤ nowOf s t g → exec (.freePoolTimeout t g) s = .next (late 0x47 65536)) ∧
  (Stands s t g fr (.remote va d) → va ≠ noVa → d ≤ nowOf s t g → exec (.remoteDieTimeout t g) s = .next (late 0x90 16384)) ∧
  (Stands s t g fr (.remote noVa d) → d ≤ nowOf s t g →
    exec (.remoteDieTimeout t g) s = .next (s.terminate e.pf (e.ctx s) 0x90)) ∧
  ((s.devDies pf)[v.toNat / 2 ^ 24 % 4]? = some die →
    exec (.plreply pf v) s = .next (s.placementReply pf die (v.toNat % 2 ^ 9) (!v.getLsbD 31))) ∧
  (Stands s t g fr (.claim next stop) → e'.claimPage s next = .ok s₁ n →
    exec (.claimPage t g) s = .next (s₁.claimTo t g n stop)) ∧
  (exec (.freePoolRefill die small large) s = .next (filled.wakeWhere
    (fun tm fr => dieOfCore tm.core == die && (match fr.st with
      | .waiting (.pool va _) => filled.frameFor tm fr va
      | _ => false)) true))

/-- R220, R229, R230, R115, R127, R253, R255, R289: try-waits end with false as their hint elapses; a signalled abort is taken; of the
far stores of a thread, and of those that one instruction makes to the same bytes, the earliest arrives first; a collector sends; the
head of a matrix queue retires. -/
def Obligations.EndingWaits : Prop := ∀ (t g w c i j hd p q d : Nat) (f : Fields) (s : State) (fr : Frag) (x y : FarStore)
    (op : MatrixOp) (rest : List MatrixOp),
  let before (y x : FarStore) : Bool := y.team == x.team && (y.tid == x.tid ||
    (y.issue == x.issue && y.core == x.core && y.off < x.off + x.data.length && x.off < y.off + y.data.length))
  (Stands s t g fr (.tryWait hd p d f) → d ≤ nowOf s t g →
    exec (.tryWaitTimeout t g) s = .next (s.endTry t g (hScope hd) f false)) ∧
  (Stands s t g fr (.tile q d f) → d ≤ nowOf s t g → exec (.tilewaitTimeout t g) s = .next (s.endTry t g 0 f false)) ∧
  ((s.team t).active = true → ((s.team t).warp w).aborting = true → exec (.txAbort t w) s = .next (s.abortTx t w [])) ∧
  (s.far[i]? = some x → (∀ z ∈ s.far.take i, before z x = false) →
    exec (.clusterStoreArrival i) s = .next ({ s with far := s.far.erase x }.arriveFar x)) ∧
  (s.far[i]? = some x → s.far[j]? = some y → j < i → before y x = true → (∀ z ∈ (s.far.take i).drop (j + 1), before z x = false) →
    (∀ z ∈ s.far.take j, before z y = false) →
    exec (.clusterStoreArrival i) s = .next ({ s with far := s.far.erase y }.arriveFar y)) ∧
  (exec (.collectorWindowExpiry c) s = .next (s.sendCollector c)) ∧
  ((s.core c).matrix = op :: rest → exec (.matrixOpRetire c 0) s = .next (s.retireHead c))

/-! ## Engine commands -/

namespace Sys2Proof.Claims
open Sys2Proof.Machine

/-- Command `c` of team `t` is of a kind and opcode, in a state, and its team and die let it act. -/
def Runs (s : State) (t c kind opc : Nat) (st : CmdState) (x : Cmd) : Prop := s.cmdAt t c kind opc st = some x

/-- The context and the die in whose name a command acts. -/
def actsFor (s : State) (t : Nat) (x : Cmd) : Who := s.cmdWho t x (dieOfCore x.core)

end Sys2Proof.Claims

/-- R308 to R313, R486: copies move elements from their index on, a reduction issues elements and applies each at its home
slice in the order of the watermark (`Cmd.next`), a prefetch is applied with the number of lines that it requested. `COPY`, `COPYND`,
`REDCOPY`, `PFL2` and the delivery of an element each complete so. -/
def Obligations.CopyEngine : Prop := ∀ (t c n i sl sq el : Nat) (s s₁ : State) (x : Cmd) (y : Sent),
  let w := actsFor s t x
  (s.cmdAt t c 0 0 .launched = some x → s.copyGo w t x n n x.idx = (i, .ok s₁ ()) → copyLength x ≤ i →
    exec (.copy t c n) s = .next (s₁.applyCmd t c 0 0 i)) ∧
  (s.cmdAt t c 0 0 .launched = some x → s.copyGo w t x n n x.idx = (i, .ok s₁ ()) → i < copyLength x →
    exec (.copy t c n) s = .next (s₁.modCmd t c fun y => { y with idx := i, stall := none })) ∧
  (s.cmdAt t c 0 1 .launched = some x → s.copyGo w t x n n x.idx = (i, .ok s₁ ()) → copyLength x ≤ i →
    exec (.copynd t c n) s = .next (s₁.applyCmd t c 0 0 i)) ∧
  (s.cmdAt t c 0 1 .launched = some x → s.copyGo w t x n n x.idx = (i, .ok s₁ ()) → i < copyLength x →
    exec (.copynd t c n) s = .next (s₁.modCmd t c fun y => { y with idx := i, stall := none })) ∧
  (s.cmdAt t c 0 2 .launched = some x → x.issued = false → s.redGo w t c (n + 1) = .ok s₁ () →
    exec (.redcopy t c n) s = .next (s₁.redCheck t c)) ∧
  (s.cmdAt t c 0 3 .launched = some x →
    exec (.pfl2 t c) s = .next (s.applyCmd t c 0 0 (s.prefetchLines w (addrOf x.words 2) (x.word 4)))) ∧
  ((s.team t).cmd? c = some x → (x.sent.find? fun y => y.slice == sl && y.seq == sq && y.elem == el) = some y →
    x.next y = true → exec (.redcopyElement t c sl sq el) s = .next (((s.redApply w t c x y).redFill w t c sl x.sent.length).redCheck t c)) ∧
  ((s.team t).cmd? c = some x → (x.sent.find? fun y => y.slice == sl && y.seq == sq && y.elem == el) = some y →
    x.next y = false →
    exec (.redcopyElement t c sl sq el) s = .next (s.modCmd t c fun z => { z with
      sent := z.sent.map fun v => if v.slice == sl && v.seq == sq then { v with held := true } else v }))

/-- R298, R301, R304 to R306, R316: a graph command that is accepted defines or re-arms its node; a command completes; a
coordinate or Pergola command is taken up once none before it at its engine is left, and refused where the engine has no power (R504). It waits
while its engine's die cannot be reached (R378, R488). -/
def Obligations.CommandsAndGraphs : Prop := ∀ (t w c : Nat) (ws : List Word) (s s₁ : State) (tm : Team) (x : Cmd),
  let framed (opc : Nat) : Prop := s.team? t = some tm ∧ goodHeader [] (wn ws 0) = true ∧ cmdKind (wn ws 0) = 4 ∧
    cmdOpc (wn ws 0) = opc ∧ ws.length = cmdLen (wn ws 0) + 1 ∧ s.acceptGraph t ws = .ok s₁
  (framed 0 → exec (.gnode t w ws) s = .next s₁) ∧
  (framed 1 → exec (.garm t w ws) s = .next s₁) ∧
  ((s.team t).cmd? c = some x → x.st = .applied → exec (.commandCompletion t c) s = .next (s.completeCmd t c)) ∧
  ((s.team t).cmd? c = some x → x.st = .held → exec (.commandTakeUp t c) s = .next (s.runGraph t 1024)) ∧
  ((s.team t).cmd? c = some x → x.st ≠ .held → (x.kind = 1 ∨ x.kind = 2) → Runs s t c x.kind x.opc .launched x →
    s.engineLost x = false → s.engineFar x = false → (∀ tm ∈ s.teams, ∀ y ∈ tm.cmds, y.before x = false) →
    exec (.commandTakeUp t c) s = .next (s.modCmd t c fun x => { x with st := .takenUp })) ∧
  ((s.team t).cmd? c = some x → (x.kind = 1 ∨ x.kind = 2) → Runs s t c x.kind x.opc .launched x → s.engineLost x = false →
    s.engineFar x = true → exec (.commandTakeUp t c) s = .next (s.stallFar t x)) ∧
  ((s.team t).cmd? c = some x → (x.kind = 1 ∨ x.kind = 2) → Runs s t c x.kind x.opc .launched x → s.engineLost x = true →
    exec (.commandTakeUp t c) s = .next (s.refuseCmd t c))

namespace Sys2Proof.Claims
open Sys2Proof.Machine

/-- A list of writes of an engine, in order, all of which are performed. -/
def Writes (w : Who) : State → List (Nat × List Byte) → State → Prop
  | s, [], s' => s = s'
  | s, (va, bs) :: l, s' => ∃ s₁, s.eWrite w va bs = .ok s₁ () ∧ Writes w s₁ l s'

end Sys2Proof.Claims

/-- R319 to R323: a coordinate command whose table opens and whose accesses are performed ends with OK, or with the status
that says how many keys had no room; `HLOOK` and `RBBUILD` need a valid table of the engine (R324, R325), and in the host's rulebook mode
`RBBUILD` is refused (R361). Where the key of a row stands is the model's choice (`rowKey`, log entry 25), as R318 gives the device's
own area no layout. A command at an engine without power is refused (R503, R504). -/
def Obligations.CoordinateEngine : Prop := ∀ (t c d : Nat) (s s₁ s₂ s₃ s₄ s₅ : State) (x : Cmd) (h hi ho : TableHead) (bs : List Byte)
    (keys inp out : List Nat),
  let w := s.cmdWho t x (x.tgt / 4)
  let acts (opc : Nat) : Prop := Runs s t c 1 opc .takenUp x ∧ s.engineLost x = false ∧ s.engineFar x = false
  let lost (opc : Nat) : Prop := Runs s t c 1 opc .takenUp x ∧ s.engineLost x = true
  let base := addrOf x.words 2
  let n := min (x.word 10) maxPoints
  let vx := Voxels.points x n 0 bs { cells := [], keys := [], dropped := x.word 10 - n, rejected := 0 }
  let rows := sortCells vx.cells
  let ks := rows.map (·.key)
  let prow := vx.keys.map fun k => (k.bind (rowOf ks)).getD 0xFFFFFFFF
  let nset := (x.word 9).testBit 0
  let pairs := (List.range (offCount nset)).map
    (offsetPairs nset hi.keep (if (x.word 9).testBit 1 then 2 else 1) inp out)
  let p := (pairs.map (·.length)).sum
  let rb := addrOf x.words 6
  (acts 0 → s.openTable w t x true false (x.word 15 % 4) = .ok s₁ (.go h) →
    s₁.eRead w (addrOf x.words 4) (16 * n) = .ok s₂ bs →
    Writes w s₂ [(addrOf x.words 6, wordBytes 4 (rows.map (·.winner))),
      (addrOf x.words 8, if (x.word 15).testBit 2 then wordBytes 4 prow else [])] s₃ →
    s₃.areaWrite x.tgt w (rowKey base 0) (wordBytes 8 ks) = .ok s₄ () →
    s₄.eWrite w base ({ h with cells := rows.length, dropped := vx.dropped, rejected := vx.rejected } : TableHead).bytes = .ok s₅ () →
    exec (.voxel t c) s = .next (s₅.applyCmd t c (if vx.dropped = 0 then 0 else 0x05) 0 vx.dropped)) ∧
  (acts 2 → s.openTable w t x ((x.word 9).testBit 0) ((x.word 9).testBit 1) 0 = .ok s₁ (.go h) →
    s₁.readKeys w x.tgt base h = .ok s₂ keys → s₂.keysGo w x true h.keep (x.word 8) 0 keys 0 = .ok s₃ d →
    s₃.eWrite w (base + 16) (leBytes 4 d) = .ok s₄ () →
    exec (.hins t c) s = .next (s₄.applyCmd t c (if d = 0 then 0 else 0x06) 0 d)) ∧
  (acts 3 → s.readHead w base = .ok s₁ h → headStatus x.tgt false h = 0 → s₁.readKeys w x.tgt base h = .ok s₂ keys →
    s₂.keysGo w x false h.keep (x.word 8) 0 keys 0 = .ok s₃ d → exec (.hlook t c) s = .next (s₃.applyCmd t c 0 0 0)) ∧
  (acts 3 → s.readHead w base = .ok s₁ h → headStatus x.tgt false h ≠ 0 →
    exec (.hlook t c) s = .next (s₁.applyCmd t c (headStatus x.tgt false h) 0 0)) ∧
  (acts 1 → (s.ctx w.pf w.ctx).hostBooks = true → exec (.rbbuild t c) s = .next (s.applyCmd t c 0x01 0 0)) ∧
  (∀ s₆ s₇, acts 1 → (s.ctx w.pf w.ctx).hostBooks = false → s.readHead w base = .ok s₁ hi →
    s₁.readHead w (addrOf x.words 4) = .ok s₂ ho → headStatus x.tgt false hi = 0 → headStatus x.tgt false ho = 0 →
    s₂.eWrite w (rb + 44) (leBytes 4 0) = .ok s₃ () → s₃.readKeys w x.tgt base hi = .ok s₄ inp →
    s₄.readKeys w x.tgt (addrOf x.words 4) ho = .ok s₅ out → pairsAt (offCount nset) + 8 * p ≤ 64 * x.word 8 →
    Writes w s₅ [(rb + 64, pairBytes (directory 0 pairs)), (rb + pairsAt (offCount nset), pairBytes pairs.flatten),
      (rb, rulebookHead x hi ho (offCount nset) p)] s₆ → s₇ = s₆.applyCmd t c 0 0 0 →
    exec (.rbbuild t c) s = .next s₇) ∧
  (lost 0 → exec (.voxel t c) s = .next (s.refuseCmd t c)) ∧ (lost 1 → exec (.rbbuild t c) s = .next (s.refuseCmd t c)) ∧
  (lost 2 → exec (.hins t c) s = .next (s.refuseCmd t c)) ∧ (lost 3 → exec (.hlook t c) s = .next (s.refuseCmd t c))

/-- R19, R327, R328: a sparse convolution reads and checks its rulebook as it is taken up; its rows' products are done by a
matrix engine of the cluster, and then it makes its output rows in ascending order; a gather-multiply-scatter makes its groups in
the order of its list. Either ends with OK at its last row. The cycles that the products take at the matrix engine, and that the rows wait
for them, are the model's choice (`queueProducts`, `paid`, log entry 82). -/
def Obligations.PergolaEngine : Prop := ∀ (t c n i st : Nat) (s s₁ s₂ : State) (x : Cmd) (r : Rulebook) (bs : List Byte),
  let w := actsFor s t x
  let k := if x.issued then x.idx else x.word 5
  let list := addrOf x.words 2
  let s' := s₁.modCmd t c fun y => { y with issued := true, idx := k }
  (Runs s t c 2 0 .takenUp x → x.book = none → s.takeRulebook w x = .ok s₁ (0, r) →
    exec (.spconv t c n) s = .next (s₁.modCmd t c fun y =>
      { y with book := some r, idx := if y.issued then y.idx else y.word 14, issued := true, stall := none })) ∧
  (Runs s t c 2 0 .takenUp x → x.book = none → s.takeRulebook w x = .ok s₁ (st, r) → st ≠ 0 →
    exec (.spconv t c n) s = .next (s₁.applyCmd t c st 0 0)) ∧
  (s.checkRulebook w x = .ok s₁ (0, r) → x.word 14 < r.nout →
    s₁.eRead w (list + pairsAt r.noff) (8 * r.p) = .ok s₂ bs → s.takeRulebook w x = .ok s₂ (0, { r with pairs := wordsOf 8 r.p bs })) ∧
  (Runs s t c 2 0 .takenUp x → x.book = some r → x.idx < r.nout → x.paid = false →
    exec (.spconv t c n) s = .next (s.queueProducts t c x)) ∧
  (Runs s t c 2 0 .takenUp x → x.book = some r → (x.paid = true ∨ r.nout ≤ x.idx) →
    s.spconvGo w t x r (n + 1) x.idx = (i, .ok s₁ ()) →
    exec (.spconv t c n) s = .next (if r.nout ≤ i then s₁.applyCmd t c 0 0 i
      else s₁.modCmd t c fun y => { y with idx := i, stall := none, paid := false })) ∧
  (Runs s t c 2 1 .takenUp x → x.word 4 ≤ k → exec (.gmms t c n) s = .next (s.applyCmd t c 0 0 0)) ∧
  (Runs s t c 2 1 .takenUp x → k < x.word 4 → x.paid = false → exec (.gmms t c n) s = .next (s.queueProducts t c x)) ∧
  (Runs s t c 2 1 .takenUp x → k < x.word 4 → x.paid = true → s.eRead w list (12 * x.word 4) = .ok s₁ bs →
    s'.gmmsGo w x (triplesOf (x.word 4) bs) (n + 1) k = (i, .ok s₂ 0) →
    exec (.gmms t c n) s = .next (if x.word 4 ≤ i then s₂.applyCmd t c 0 0 i
      else s₂.modCmd t c fun y => { y with idx := i, stall := none, paid := false })) ∧
  (Runs s t c 2 1 .takenUp x → k < x.word 4 → x.paid = true → s.eRead w list (12 * x.word 4) = .ok s₁ bs →
    s'.gmmsGo w x (triplesOf (x.word 4) bs) (n + 1) k = (i, .ok s₂ st) → st ≠ 0 →
    exec (.gmms t c n) s = .next (s₂.applyCmd t c st 0 i))

/-- R330 to R334: a program is read and checked, then installed once no walk of its slot is in flight; a walk starts at the
engine that serves its root, makes operations, and is handed off. -/
def Obligations.MazeEngine : Prop := ∀ (t c n i : Nat) (s s₁ s₂ : State) (x : Cmd) (bs : List Byte) (prog : List Word) (k : Walk) (y : Site)
    (m : Nat),
  let w := actsFor s t x
  let len := x.word 4 % 64
  let ws := (wordsOf 4 len bs).map (BitVec.ofNat 32)
  let root := addrOf x.words 4
  let loads := (s.team? t).bind (fun tm => tm.cmd? c) = some x ∧ x.kind = 3 ∧ x.opc = 0 ∧ x.st = .launched ∧
    s.needDram w .read 2 (addrOf x.words 2) (4 * len) = .ok s₁ () ∧ s₁.eRead w (addrOf x.words 2) (4 * len) = .ok s₂ bs
  (loads → (ws.findIdx? fun y => !goodWop len y) = none →
    exec (.wload t c) s = .next ((s₂.modCtx w.pf w.ctx fun z => { z with installs := z.installs ++ [(c, ws)] }).modCmd t c fun y =>
      { y with st := .takenUp, stall := none })) ∧
  (loads → (ws.findIdx? fun y => !goodWop len y) = some i → exec (.wload t c) s = .next (s₂.applyCmd t c 0x0D 0 i)) ∧
  (∀ tm, s.team? t = some tm → tm.cmd? c = some x → x.kind = 3 → x.opc = 0 → x.st = .takenUp →
    s.earlier w (fun y => x.holdsSlot y || x.installs y) = false →
    exec (.wloadInstall t c) s = .next
      (((s.modCtx w.pf w.ctx fun z => { z with
          slots := setNth (wloadSlot x) (some ((lookup c (s.ctx w.pf w.ctx).installs).getD [])) z.slots
          installs := z.installs.filter fun y => y.1 != c }).modLaunch tm.launch fun l =>
        { l with slotsLoaded := insertNat (wloadSlot x) l.slotsLoaded }).applyCmd t c 0 0 0)) ∧
  (Runs s t c 3 1 .launched x →
    s.earlier w (fun y => y.opc == 0 && wloadSlot y == walkSlot x && (y.st == .launched || y.st == .takenUp) && y.order < x.order) = false →
    (s.ctx w.pf w.ctx).slots.getD (walkSlot x) none = some prog → s.walkAt w root = .ok s₁ y →
    s₁.walksAt (mazeOf y.place) true < 64 →
    exec (.walk t c n) s = .next (s₁.modCmd t x.id fun z => { z with
      st := .takenUp, idx := mazeOf y.place, stall := none
      walk := some { maze := mazeOf y.place, x := [BitVec.ofNat 64 (x.word 3 * 2 ^ 32 + x.word 2), 0, 0, 0], node := root, flag := false
                     op := 0, steps := 1, ops := 0, prog, handoff := none, handed := false } })) ∧
  (Runs s t c 3 1 .takenUp x → s.cmdAt t c 3 1 .launched = none → x.walk = some k →
    exec (.walk t c n) s = .next (s.walkGo (s.cmdWho t x (k.maze / 16)) t x (n + 1) k)) ∧
  (Runs s t c 3 1 .takenUp x → x.walk = some k → k.handoff = some m → s.walksAt m false < 64 →
    exec (.walkHandoff t c) s = .next (s.modCmd t c fun y => { y with walk := some { k with maze := m, handoff := none, handed := true } }))

/-! ## Host queues -/

namespace Sys2Proof.Claims
open Sys2Proof.Machine

/-- R340, R341: the next command of a queue that is served, read with the accesses that lead to `s'`, is one of opcode `opc`, it
may start, and its layout is good. -/
structure NextCommand (s : State) (pf q opc : Nat) (x : Queue) (s' : State) (ws : List Word) : Prop where
  queue : s.queue? pf q = some x
  words : s.nextWords x = some (.ok (s', ws))
  code : opcOf ws = opc
  start : s.mayStart x (opcOf ws == 1 && ovlOf ws) = true
  common : goodCommon ws = true
  layout : goodWords ws = true

/-- It starts and completes at once, with a status and a DETAIL (R343). -/
def ended (s' : State) (x : Queue) (ws : List Word) (status detail : Nat) : State :=
  (s'.startSlot x ws (.wait none 0)).endCommand x.pf x.num x.next status detail

/-- It starts and is refused. -/
def refused (s' : State) (x : Queue) (ws : List Word) (detail : Nat) : State := { ended s' x ws 0x01 detail with free := s'.free + 1 }

end Sys2Proof.Claims

/-- R339 to R342: queue commands. A `SIGNAL` writes its value; a `WAITV` starts, and its polls end it when the condition
holds or the time is over; a `FLUSH` makes the actions that its bits select, of the TLBs once the accesses that have used them are
performed (R363). That a `SIGNAL` whose store waits for its translation, or for another die, stays the queue's next command and is
tried again is the model's choice (log entry 89, DEDUCED from R108, R110 and R378). -/
def Obligations.QueueCommands : Prop := ∀ (pf q p c d : Nat) (s s₀ s₁ : State) (x : Queue) (ws : List Word) (r : QueueRun) (dl : Option Nat)
    (last : DWord),
  let size := if (wn ws 6).testBit 0 then 8 else 4
  let value := if (wn ws 6).testBit 0 then addrOf ws 4 else wn ws 4
  let store := s₀.signalStore x (addrOf ws 2) (leBytes size value)
  let polls := s.queue? pf q = some x ∧ x.suspended = false ∧ s.reads x.die = true ∧
    (x.runs.find? fun r => r.work != .ended) = some r ∧ r.work = .wait dl last ∧
    s.reachVa (.queue x.num) x.pf x.ctx x.die (addrOf r.words 2) .read = .ok (s₁, p)
  let s₂ := if isDram p then s₁.conflict p false else s₁
  let v := s₂.mem.nat p (if (wn r.words 6).testBit 0 then 8 else 4)
  let holds := waitHolds (wn r.words 6 / 2 % 4) v (valueOf r.words)
  let dies := s₀.devDies pf
  let f₀ := s₀.startSlot x ws (.wait none 0)
  let f₁ := if (wn ws 2).testBit 0 then f₀.flushTlb pf x.ctx else f₀
  let f₂ := if (wn ws 2).testBit 1 then f₁.flushRo dies else f₁
  let f₃ := if (wn ws 2).testBit 2 then f₂.cleanL2 dies else f₂
  (NextCommand s pf q 3 x s₀ ws → store = .ok s₁ → exec (.signal pf q) s = .next (ended s₁ x ws 0 0)) ∧
  (NextCommand s pf q 3 x s₀ ws → store = .error (.fault s₁ c) → exec (.signal pf q) s = .next (ended s₁ x ws 0x0A c)) ∧
  (NextCommand s pf q 3 x s₀ ws → store = .error (.wait s₁) → exec (.signal pf q) s = .next s₁) ∧
  (NextCommand s pf q 4 x s₀ ws → exec (.waitv pf q) s = .next (s₀.startSlot x ws
    (.wait (if wn ws 7 = 0 then none else some ((s₀.die x.die).time + 1000 * wn ws 7)) 0))) ∧
  (polls → holds = true → exec (.waitvPoll pf q) s = .next (s₂.endCommand x.pf x.num r.slot 0 0)) ∧
  (polls → holds = false → dl = some d → d ≤ (s₂.die x.die).time →
    exec (.waitvPoll pf q) s = .next (s₂.endCommand x.pf x.num r.slot 0x04 v)) ∧
  (NextCommand s pf q 5 x s₀ ws → (wn ws 2).testBit 0 = false ∨ s₀.translated pf x.ctx = false →
    exec (.flush pf q) s = .next (f₃.endCommand x.pf x.num x.next 0 0)) ∧
  (NextCommand s pf q 5 x s₀ ws → (wn ws 2).testBit 0 = true → s₀.translated pf x.ctx = true → exec (.flush pf q) s = .next s₀)

/-- R344, R347, R354: a `LAUNCH` or a `REPLAY` whose image is accepted starts a launch, a replay with its record at the start
of pass 0 and its counters set; one that is refused completes with REFUSED and its DETAIL. -/
def Obligations.LaunchCommands : Prop := ∀ (pf q c : Nat) (s s₀ s₁ s₂ : State) (x : Queue) (ws : List Word) (ln : Launch) (area : List Nat),
  let rep := s₂.newReplay x ws ln area
  (NextCommand s pf q 1 x s₀ ws → s₀.acceptImage x (addrOf ws 2) false = .ok s₁ ln →
    exec (.launch pf q) s = .next (s₁.addLaunch x ws ln)) ∧
  (NextCommand s pf q 1 x s₀ ws → s₀.acceptImage x (addrOf ws 2) false = .refused s₁ c →
    exec (.launch pf q) s = .next (refused s₁ x ws c)) ∧
  (NextCommand s pf q 2 x s₀ ws → s₀.acceptImage x (addrOf ws 2) true = .ok s₁ ln → s₁.replayAreas x ws = .ok (s₂, area) →
    exec (.replay pf q) s = .next ((s₂.setCounters pf (rep.selOf 0)).addLaunch x ws { ln with replay := some rep })) ∧
  (NextCommand s pf q 2 x s₀ ws → s₀.acceptImage x (addrOf ws 2) true = .ok s₁ ln → s₁.replayAreas x ws = .error (.fault s₂ c) →
    exec (.replay pf q) s = .next (refused s₂ x ws (faultDetail c)))

/-! ## The Pavilion -/

namespace Sys2Proof.Claims
open Sys2Proof.Machine

/-- R348: a queue that holds cores is at the end of its slice. -/
structure SliceOver (s : State) (pf q : Nat) (x : Queue) : Prop where
  queue : s.queue? pf q = some x
  holds : (s.teams.any fun t => (s.launchOf t.launch).pf == pf && (s.launchOf t.launch).q == q) = true
  elapsed : x.sliceEnd ≤ (s.die x.die).time

def sliceAgain (s : State) (pf q : Nat) : State :=
  s.modQueue pf q fun x => { x with sliceEnd := (s.die x.die).time + s.sliceOf x }

/-- The teams of a launch that are being saved. -/
def stopping (s : State) (l : Nat) : List Team := (s.teamsOfLaunch l).filter fun t => t.st == .saving

/-- R353: the teams that are being saved have come to rest, no arrival of their commands waits for another die, and those of a gang or of a halt have all stopped. -/
abbrev AtRest (s : State) (ln : Launch) : Prop :=
  (stopping s ln.id ≠ [] ∨ ln.halting = true) ∧ (∀ tm ∈ stopping s ln.id, tm.atRest = true ∧ s.waits.any (·.arrives tm.id) = false) ∧
    ((ln.halting = true ∨ ln.hdr.gang = true) → ∀ tm ∈ s.teamsOfLaunch ln.id, tm.active = false)

end Sys2Proof.Claims

/-- R348, R350, R351: a launch's next team, or a gang as a whole, is placed on cores that it fits on; a launch of a higher level
displaces teams of lower ones from the cores chosen; a gang whose bound is over ends; a slice starts again, or the teams
that a waiting launch of the level needs are stopped. How the round of the queues of a level is kept (`served`) is the model's choice
(log entry 31). -/
def Obligations.Placement : Prop := ∀ (l pf q d : Nat) (cores victims : List Nat) (s s₁ : State) (ln y : Launch) (x : Queue),
  let ready := s.launch? l = some ln ∧ s.wantsTeam ln = true ∧ cores.length = s.unitSize ln ∧ s.outranked ln cores = false
  (ready → s.placeAll l cores = some s₁ → exec (.teamPlacement l cores []) s = .next s₁) ∧
  (ready → victims ≠ [] → s.goodVictims l cores victims (fun y => s.launchLevel ln < s.launchLevel y) [] = true →
    exec (.teamPlacement l cores victims) s = .next (s.stopTeams victims)) ∧
  (s.launch? l = some ln → ln.gangBy = some d → d ≤ (s.die (s.queueOf ln).die).time →
    exec (.gangTimeout l) s = .next (s.endAs ln 0x03 0)) ∧
  (SliceOver s pf q x → s.rival x = none → exec (.timeSliceExpiry pf q victims) s = .next (sliceAgain s pf q)) ∧
  (SliceOver s pf q x → s.rival x = some y → (s.ctx pf x.ctx).hostRuns = false →
    (s.coresWithout y (victims ++ s.others x y)).length = s.unitSize y →
    s.goodVictims y.id (s.coresWithout y (victims ++ s.others x y)) victims (ofQueue pf q) (s.others x y) = true →
    exec (.timeSliceExpiry pf q victims) s = .next ((sliceAgain (s.stopTeams victims) pf q).modQueue pf q fun x =>
      { x with served := (s.queues.map (·.served)).foldl max 0 + 1 }))

/-- R347, R349, R353 to R356, R495, R496: saves complete; a team that does not stop ends its context with cause 0x82; a replay's
pass ends, with CAPTURE OVERFLOW where its area was full; an idle die takes a launch from its ring neighbours; the host writes a run
list. That the event of a halted replay has SAVE for its DETAIL is the model's choice (log entry 56, DEDUCED). -/
def Obligations.PavilionHappenings : Prop := ∀ (l t die pf : Nat) (rows : List (Nat × Nat × Nat)) (s : State) (ln y : Launch) (tm : Team)
    (r : Replay),
  let ask (d : Nat) : Option Launch := if s.reaches die d && s.serves d then s.stealable die d else none
  let idle := s.serves die = true ∧ s.shut die = false ∧ (∀ t ∈ s.teams, dieOfCore t.core ≠ die) ∧
    (∀ y ∈ s.launches, y.die = some die → s.wantsTeam y = true → (s.unitCores y).length ≠ s.unitSize y)
  let owner := s.launchOf tm.launch
  let listed := rows.take 256
  let told := listed.zipIdx.foldl (fun s r => if s.goodRow die pf r.1 then s else s.queueEvent pf r.1.1 0 0x05 r.2) s
  (s.launch? l = some ln → ln.id = l → ln.replay = none → AtRest s ln → exec (.saveComplete l) s = .next (s.finishSave ln (stopping s l))) ∧
  (s.launch? l = some ln → ln.id = l → ln.replay = some r → AtRest s ln → ln.halting = false →
    r.overflow = false → exec (.saveComplete l) s = .next (s.abandonPass ln r)) ∧
  (s.launch? l = some ln → ln.id = l → ln.replay = some r → AtRest s ln → ln.halting = true →
    exec (.saveComplete l) s = .next (((s.killTeams l).restorePass ln r).endReplay s ln r 0x02 ln.save)) ∧
  (s.launch? l = some ln → ln.id = l → ln.replay = some r → AtRest s ln → ln.halting = false → r.overflow = true →
    exec (.saveComplete l) s = .next (((s.killTeams l).restorePass ln r).endReplay s ln r 0x07 0)) ∧
  (s.launch? l = some ln → ln.id = l → ln.replay = some r → ln.halting = false → r.overflow = true →
    exec (.replayPassRestore l) s = .next (((s.killTeams l).restorePass ln r).endReplay s ln r 0x07 0)) ∧
  (s.team? t = some tm → tm.st = .saving → tm.atRest = false → tm.watchdog ≤ (s.die (dieOfCore tm.core)).time →
    s.trip4Due (dieOfCore tm.core) = false → exec (.stopWatchdogExpiry t) s = .next { (s.terminate owner.pf (s.queueOf owner).ctx 0x82) with pfail := true }) ∧
  (s.launch? l = some ln → ln.replay = some r → ln.halting = false → exec (.replayPassRestore l) s = .next (s.passEnd ln r)) ∧
  (idle → (ask (ringNext die)).or (ask (ringPrev die)) = some y →
    exec (.stealRequest die) s = .next (s.modLaunch y.id fun x => { x with die := some die })) ∧
  (exec (.runListWrite die pf rows) s = .next (told.modDie die fun d =>
    { d with runList := (listed.filter (s.goodRow die pf)).map (fun r => (pf, r.1, r.2.1, r.2.2)) ++ d.runList.filter fun r => r.1 != pf }))

/-! ## The register windows of the host -/

namespace Sys2Proof.Claims
open Sys2Proof.Machine

/-- R366, R369, R370, R399: a context can be created from the descriptor of a function. -/
structure Creatable (s : State) (pf : Nat) (d : List Byte) : Prop where
  up : s.hostUp = true
  idle : s.ctxBusy pf = false
  firmware : s.fw.recovery = false
  read : s.descriptor pf = some d
  layout : goodContext d = true
  signed : ¬ ((field d 0 4).testBit 7 = true ∧ Config.countersignHash.all (· == 0) = true)
  mode : s.live = [] ∨ field d 0 4 % 4 = s.mode
  leads : deviceDies (field d 0 4 % 4) pf ≠ []
  room : (s.contexts.filter fun c => c.pf == pf).length < 64 ∧ s.dspUsed pf + field d 28 4 ≤ 256
  serves : ∀ x ∈ deviceDies (field d 0 4 % 4) pf, s.serves x = true

/-- The numbers that a function may give its next context. -/
def freeNumbers (s : State) (pf : Nat) : List Nat :=
  (List.range 256).filter fun i => !((s.contexts.filter fun c => c.pf == pf).map (·.num)).contains i

end Sys2Proof.Claims

/-- R370 to R372: contexts and queues are created and destroyed, with CTXSTAT as R369 says, and a queue is suspended and
returned to the run list. Which of the free numbers a context takes is the device's choice (log entry 27). A head word that could not
be written (R493) is tried again as its queue resumes, which is the model's choice (log entry 71, DEDUCED). -/
def Obligations.ContextCommands : Prop := ∀ (pf num q i : Nat) (d : List Byte) (s : State) (c : Context) (x : Queue),
  let n := pickOf s.free (freeNumbers s pf)
  let s₁ := { s with mode := field d 0 4 % 4, contexts := s.contexts ++ [contextOf d pf n], free := s.free + 1 }
  let s₂ := { s₁ with mem := (s₁.partitions pf n).foldl (fun m (p : Nat × Nat) => m.clear p.1 p.2) s.mem }
  let dies := s.devDies pf
  (Creatable s pf d → exec (.createContext pf) s = .next (s₂.ctxStat pf n 0)) ∧
  (s.hostUp = true → s.ctxBusy pf = false → s.ctx? pf num = some c →
    exec (.destroyContext pf num) s = .next ((s.killContext pf num).ctxStat pf 0 0)) ∧
  (s.hostUp = true → s.ctxBusy pf = false → s.ctx? pf num = none → exec (.destroyContext pf num) s = .next (s.ctxStat pf 0 5)) ∧
  (s.hostUp = true → s.ctxBusy pf = false → s.fw.recovery = false → dies ≠ [] → s.descriptor pf = some d → goodQueue d = true →
    s.ctx? pf (field d 12 4) = some c →
    ((List.range (64 * dies.length)).find? fun i => (s.queue? pf i).isNone) = some i →
    exec (.createQueue pf) s = .next ({ s with queues := s.queues ++ [queueFrom d pf i (dies.getD (i / 64) 0)] }.ctxStat pf i 0)) ∧
  (s.hostUp = true → s.ctxBusy pf = false → s.queue? pf q = some x →
    exec (.destroyQueue pf q) s = .next ((s.killQueue pf q 0x84).ctxStat pf 0 0)) ∧
  (s.hostUp = true → s.ctxBusy pf = false → s.queue? pf q = none → exec (.destroyQueue pf q) s = .next (s.ctxStat pf 0 5)) ∧
  (s.hostUp = true →
    let word := { s with windows := modNth pf (fun w => { w with preempt := BitVec.ofNat 32 (2 ^ 16 + q % 256) }) s.windows }
    let off := word.modQueue pf q fun x => { x with suspended := true }
    exec (.queueSuspend pf q) s = .next
      ((off.launches.filter fun l => l.pf == pf && l.q == q).foldl (fun s l => s.preemptLaunch l.id) off)) ∧
  (s.hostUp = true →
    let word := { s with windows := modNth pf (fun w => { w with preempt := BitVec.ofNat 32 (q % 256) }) s.windows }
    exec (.queueResume pf q) s = .next (let on := word.modQueue pf q fun x => { x with suspended := false, headDue := false }
      if (s.queue pf q).headDue then on.writeHead pf q else on))

/-- R374, R369, R389, R392, R492: the cap, the sticky bits, the aperture and writes of registers. While CTXSTAT reads BUSY, writes of
CTXADDR and CTXCMD are dropped. A write of a width that is not the register's changes nothing. R339: a doorbell moves the tail forward; a value that is no slot, or that would take slots back,
writes a BAD COMMAND event; while D0's compute die does not run (R24) it does nothing. That a command stays in the register until the Lodge ends it is log entry 96, that a due power window ends
first is log entry 14, and that a read of an uncorrectable word of the aperture (R482) answers with a Completer Abort is log entry 65:
they are the model's choices. -/
def Obligations.RegisterWindows : Prop := ∀ (pf off p width q : Nat) (v : Word) (w : DWord) (bs : List Byte) (s : State),
  let cap := v.toNat % 2 ^ 10
  let n := bs.length
  let hits := s.bar4Place pf off = some p ∧ s.hostReaches (homeDie p) = true
  (s.hostUp = true → 150 ≤ cap → cap ≤ 550 →
    exec (.pcap 0 v) s = .next (s.endDue.modPower fun p => { p with capNext := cap })) ∧
  (cap < 150 ∨ 550 < cap → exec (.pcap pf v) s = .next s) ∧
  (s.hostUp = true → exec (.sysstat 0 v) s = .next
    { s with evdrop := s.evdrop && !v.getLsbD 3, pfail := s.pfail && !v.getLsbD 2, hld := s.hld && !v.getLsbD 1 }) ∧
  (pf ≠ 0 → exec (.sysstat pf v) s = .next s) ∧
  (hits → s.bar4Bad pf off n = false → exec (.bar4Access pf off bs .read) s =
    .next { s.conflictRange p n false with answers := s.answers ++ [.bytes (s.bar4Bytes pf off n)] }) ∧
  (hits → s.bar4Bad pf off n = true → exec (.bar4Access pf off bs .read) s = .next { s with answers := s.answers ++ [.completerAbort] }) ∧
  (hits → exec (.bar4Access pf off bs .write) s = .next (s.bar4Write pf off bs)) ∧
  (hits → exec (.bar4Access pf off bs .swap) s = .next (s.bar4Atomic pf off bs .swap)) ∧
  (s.hostUp = true → s.ctxBusy pf = false →
    exec (.registerWrite pf 0 0x20 8 w) s = .next (s.modWindow pf fun x => { x with ctxAddr := w }) ∧
    exec (.registerWrite pf 0 0x28 4 w) s = .next (s.modWindow pf fun x => { x with cmd := some (w.toNat % 2 ^ 32) })) ∧
  (s.ctxBusy pf = true → exec (.registerWrite pf 0 0x20 8 w) s = .next s ∧ exec (.registerWrite pf 0 0x28 4 w) s = .next s) ∧
  ((∀ x ∈ bar0Registers (s.devDies pf).length pf, x ≠ (off, width)) →
    exec (.registerWrite pf 0 off width w) s = .next s) ∧
  (s.portServes = false → exec (.doorbell pf q v) s = .next s) ∧
  (∀ x, s.portServes = true → s.queue? pf q = some x →
    let n := 2 ^ x.log
    let ahead (i : Nat) : Nat := (i + n - x.head) % n
    (v.toNat < n → ahead x.tail ≤ ahead v.toNat →
      exec (.doorbell pf q v) s = .next (s.modQueue pf q fun x => { x with tail := v.toNat })) ∧
    ((n ≤ v.toNat ∨ ahead v.toNat < ahead x.tail) →
      exec (.doorbell pf q v) s = .next (s.queueEvent pf q 0 0x05 (2 ^ 32 + v.toNat))))

/-! ## Firmware, power, links and management -/

namespace Sys2Proof.Claims
open Sys2Proof.Machine

/-- An image passes every check of R395 but that of IMGVER. -/
def Checked (s : State) (p : Nat) : Prop := checkImage s.mem p s.fw.floor = 0

end Sys2Proof.Claims

/-- R397 to R400: the firmware commands, which act while no other is under way. In recovery the device chooses the bank that
`STAGE` writes. That a token is judged wherever one is presented is log entry 92, and that a `COUNTERSIGN` checks the bank and its token
again, and ends the pending activation where it fails, is log entry 29: they are the model's choices. -/
def Obligations.FirmwareCommands : Prop := ∀ (b : Bool) (src t r : Nat) (token : Option Accepted) (s : State),
  let bank := bankPlace b
  let modulus := s.mem.bytes t 384
  let good := Config.sha384 modulus = Config.countersignHash ∧
    Config.rsaVerify modulus (s.mem.bytes (t + 384) 384) (manifestDigest s.mem bank) = true
  let signs := s.contexts.any (·.hostFw)
  let named : Accepted := { ver := imageVer s.mem bank, tokcnt := (bootMeta s.mem).tokcnt, digest := manifestDigest s.mem bank }
  let now := { (bootMeta s.mem) with active := b }
  let judged := imageVer s.mem bank < (bootMeta s.mem).cver ∨ s.presents = true
  s.hostUp = true → s.fw.cmd = none →
  (s.fw.recovery = false → s.fwSource bankBytes = some src → Checked s src →
    exec .stage s = .next ({ s with
      mem := s.mem.copy src (bankPlace !s.fw.running) bankBytes
      fw := { s.fw with lost := s.fw.lost.filter (· != !s.fw.running) } }.fwResult 0)) ∧
  (s.fw.recovery = true → s.fwSource bankBytes = some src → Checked s src → exec .stage s = .next
    ({ s with
      free := s.free + 1, mem := s.mem.copy src (bankPlace (Config.pick s.free % 2 == 1)) bankBytes
      fw := { s.fw with lost := s.fw.lost.filter (· != (Config.pick s.free % 2 == 1)) } }.fwResult 0)) ∧
  (s.fwSource bankBytes = some src → r = checkImage s.mem src s.fw.floor → r ≠ 0 → s.fw.recovery = false →
    exec .stage s = .next (s.fwResult r)) ∧
  (Checked s bank → ¬ judged → signs = false → exec (.activate b) s = .next (s.setActive b none)) ∧
  (Checked s bank → ¬ judged → signs = true →
    exec (.activate b) s = .next (s.modFw fun f => { f with pend := some (b, none), result := 7 })) ∧
  (Checked s bank → judged → s.checkToken b = 0 → signs = false → exec (.activate b) s = .next (s.setActive b (some named))) ∧
  (Checked s bank → judged → s.checkToken b = 0 → signs = true →
    exec (.activate b) s = .next (s.modFw fun f => { f with pend := some (b, some named), result := 7 })) ∧
  (Checked s bank → judged → s.checkToken b = r → r ≠ 0 → exec (.activate b) s = .next (s.fwResult r)) ∧
  (s.setActive b token).fw = { s.fw with pend := none, result := 0 } ∧ (s.setActive b none).mem = s.mem.putMeta now ∧
  (s.setActive b (some named)).mem = s.mem.putMeta { now with cver := imageVer s.mem bank, tokcnt := (now.tokcnt + 1) % 2 ^ 32 } ∧
  (s.mayCommit = true → s.fw.runSvn ≤ 64 → exec .commit s = .next
    { s with
      fw := { s.fw with floor := max s.fw.floor s.fw.runSvn, result := 0 }
      mem := s.mem.putMeta { bootMeta s.mem with cver := s.fw.runVer } }) ∧
  (s.mayCommit = false → exec .commit s = .next (s.fwResult 9)) ∧
  (s.fw.pend = some (b, token) → s.fwSource 768 = some t → good → s.pendResult b token = 0 →
    exec .countersign s = .next (s.setActive b token)) ∧
  (s.fw.pend = some (b, token) → s.fwSource 768 = some t → good → s.pendResult b token = r → r ≠ 0 →
    exec .countersign s = .next (s.modFw fun f => { f with pend := none, result := r })) ∧
  (s.fw.pend = some (b, token) → s.fwSource 768 = some t → ¬ good →
    exec .countersign s = .next (s.modFw fun f => { f with pend := none, result := 8 })) ∧
  (s.fw.pend = none → exec .countersign s = .next (s.fwResult 9))

/-- R396, R407, R505, R506: a reset or a loss of power boots the ACTIVE bank if it is valid, else the other, else nothing, with a
load in progress; a loss of power during a COMMIT leaves old or new metadata, and `blown` fuses more; a Pavilion's fault ends the
contexts of its die, and the third in a day takes it out of service. What a reset keeps is the model's choice (log entry 30), as are
that the copies that failed fail again at a loss of power (log entry 112), and that a Pavilion's fault loses the launches that its die
has stolen (R493) and writes no record of its own (log entry 67). -/
def Obligations.Resets : Prop := ∀ (d blown : Nat) (done : Bool) (s : State),
  let valid (b : Bool) : Bool := s.fw.valid s.mem b
  let a := (bootMeta s.mem).active
  let up := s.fw.boot s.mem []
  let s₁ (cause : Nat) : State := ((s.loseStolen d).terminateAll [d] cause).1
  let faults (s : State) : List Nat := (s.die d).time :: (s.die d).faults.filter fun t => (s.die d).time < t + 86400000000000
  let reload (s : State) : State := (s.modDie d fun x => { x with faults := faults s, dout := 3 ≤ (faults s).length }).refuseGangs
  (exec (.packageReset false []) s = .next (s.rebooted s.mem s.fw [])) ∧
  ((s.rebooted s.mem s.fw []).fw = up ∧ ∀ p, (p < placeHost 0 ∨ (2 ^ 52 ≤ p ∧ p < 2 ^ 54)) → (s.rebooted s.mem s.fw []).mem.get p = 0) ∧
  (valid a = true → up.loaded = true ∧ up.loading = true ∧ up.running = a ∧ up.fallback = false) ∧
  (valid a = false → valid (!a) = true → up.loaded = true ∧ up.loading = true ∧ up.running = !a ∧ up.fallback = true) ∧
  (valid a = false → valid (!a) = false → up.loaded = false ∧ up.loading = false ∧ up.recovery = true) ∧
  (s.fw.cmd ≠ some 1 → exec (.packagePowerLoss none blown done) s = .next (s.rebooted s.mem s.fw s.fw.lost)) ∧
  (s.fw.cmd = some 3 → s.mayCommit = true →
    let m := if done then s.mem.putMeta { bootMeta s.mem with cver := s.fw.runVer } else s.mem.cutMeta
    exec (.packagePowerLoss (some .commit) blown done) s =
      .next (s.rebooted m { s.fw with floor := min (s.fw.floor + blown) (max s.fw.floor s.fw.runSvn) } s.fw.lost)) ∧
  (d < 4 → (s.die d).off = false → (s.die d).dout = false → s.fw.loaded = true →
    exec (.schedulerFirmwareFault d) s = .next (reload (s₁ 0xB0)) ∧
    exec (.bitstreamIntegrityFault d) s = .next (reload (s₁ 0xB1)))

/-- R380, R382 to R387, R390 to R392, R491, R504: the power controller, its counters and the droop alarm. A window that is due ends
before anything of the next one. What the energy of a window may be, and what it is where nothing outside reports it, is the model's
choice within R384's bound (log entry 14), as are how often the alarm is written (log entry 66) and how long a droop stretches a
clock (log entry 91). -/
def Obligations.PowerControl : Prop := ∀ (energy cluster quad point : Nat) (q : Power) (s : State),
  let p := s.power
  let r := s.limits.repay
  let budget (p : Power) : Nat := p.cap * 100 - min p.debit (r * p.cap)
  let lo := if p.spent then max p.energy (budget p) else p.energy
  let hi := if p.spent then budget p + p.ballast else budget p - 1
  let s₀ := s.endDue
  let b₀ := budget s₀.power
  let d := cluster / 12
  let now := (s.die d).time
  let times := (cluster, now) :: p.droopTimes.filter fun x => x.1 / 12 != d || now < x.2 + 1000000
  let n := (times.filter fun x => x.1 == cluster).length
  let s₁ := s.modPower fun p => { p with
    droops := modNth (cluster / 3) (fun n => (n + 1) % 2 ^ 32) p.droops, droopTimes := times
    stretched := (cluster, 65, (lookup cluster p.stretched).any (·.2)) :: p.stretched.filter fun x => x.1 != cluster }
  ((p.window + 1) * 100000 ≤ (s.die 0).time → lo ≤ energy → energy ≤ hi →
    exec (.powerWindowEnd energy) s = .next (s.modPower fun p =>
      ({ p with
        debit := p.debit - min p.debit (r * p.cap) + (energy - budget p)
        throttled := (p.throttled + bit (p.spent || decide (budget p ≤ energy))) % 2 ^ 32
        doneSeq := p.window % 2 ^ 32, doneEnergy := energy, window := p.window + 1, cap := p.capNext, spent := false, energy := 0
        ballast := 0 } : Power).checked r).setLayers) ∧
  (q.spent = false → budget q ≤ q.energy → q.checked r = { q with spent := true, op := List.replicate 16 7 }) ∧
  (q.spent = true ∨ q.energy < budget q → q.checked r = q) ∧
  ((s.die 0).time < (p.window + 1) * 100000 → s₀ = s) ∧
  ((p.window + 1) * 100000 ≤ (s.die 0).time → s₀.power.window = p.window + 1 ∧ s₀.power.cap = p.capNext ∧
    lo ≤ s₀.power.doneEnergy ∧ (lo ≤ hi → s₀.power.doneEnergy ≤ hi)) ∧
  (s₀.power.spent = false → max b₀ s₀.power.energy ≤ energy → energy ≤ b₀ + s₀.power.ballast → exec (.budgetReached energy) s =
    .next (s₀.modPower fun p => { p with spent := true, op := List.replicate 16 7, energy }).setLayers) ∧
  (quad < 16 → point < 8 → (p.spent = true ∨ (s.die (quad / 4)).throttle = true → point = 7) →
    exec (.operatingPointChange quad point) s = .next (s.modPower fun p => { p with op := setNth quad point p.op })) ∧
  (s.quadUp quad = true → exec (.ballastRamp quad energy) s = .next (s₀.modPower fun p =>
    ({ p with
      ramps := modNth quad (fun n => (n + 1) % 2 ^ 8) p.ramps, ballast := p.ballast + energy, energy := p.energy + energy
      } : Power).checked r).setLayers) ∧
  (s.quadUp quad = false → exec (.ballastRamp quad energy) s = .next s) ∧
  (cluster < 48 → s.quadUp (cluster / 3) = true →
    (n ≤ 1000 → exec (.droop cluster) s = .next s₁) ∧
    (1000 < n → s.mayNotice d = true → exec (.droop cluster) s =
      .next ((s₁.systemEvent [d] d 0x50 0 (sysDetail d (cluster / 3 % 4) (cluster % 3) n)).noticed d)))

/-- R501 to R504: a sample passes the three trips in turn; trip 4 removes the die's power; a regulator's fault takes a
quadrant, or with a layer's supply the whole die. That a layer's supply takes event 0x51 with 0xA1, and no 0x45, is log entry 67, and
when the halt of trip 3 is complete is log entry 58: they are the model's choices. -/
def Obligations.ThermalLadder : Prop := ∀ (d sensor : Nat) (temp : Int) (s : State),
  let s₁ (cause : Nat) : State := (s.removePower d cause).1
  let n (cause : Nat) : Nat := (s.removePower d cause).2
  let hit := s.contextsOn d sensor
  let lost := (hit.foldl (fun s c => s.terminate c.pf c.num 0xA1) s).modDie d fun x =>
    { x with quadLost := insertNat sensor x.quadLost }
  d < 4 → (s.die d).off = false →
  (sensor < 8 → (s.die d).time % 50000 = 0 →
    exec (.thermalSample d temp sensor) s = .next (((s.tripWarn d temp sensor).tripThrottle d temp sensor).tripHalt d temp sensor)) ∧
  (celsius 135 ≤ temp → exec (.powerRemoved d temp) s =
    .next (((s₁ 0xA0).systemEvent [d] d 0x45 0xA0 (sysDetail d 0xFF (temp16 temp) (n 0xA0))).refuseGangs)) ∧
  (sensor < 4 → exec (.regulatorFault d sensor) s =
    .next ((lost.systemEvent [d] d 0x51 0xA1 (sysDetail d sensor 0 hit.length)).refuseGangs)) ∧
  (4 ≤ sensor → sensor < 8 → exec (.regulatorFault d sensor) s =
    .next (((s₁ 0xA1).systemEvent [d] d 0x51 0xA1 (sysDetail d sensor 0 (n 0xA1))).refuseGangs))

/-- R480, R497 to R499: the links and the scrubber. -/
def Obligations.LinksAndScrub : Prop := ∀ (k d word n : Nat) (again : Bool) (s : State),
  let x := s.link k
  let recent := (s.die ((linkEnds k).getD 0 0)).time :: x.recent.filter fun t =>
    (s.die ((linkEnds k).getD 0 0)).time < t + 1000000000
  let s₁ := s.modLink k fun x => { x with retraining := true, replays := 0, retrains := x.retrains + 1, recent }
  let place := placeDram d (64 * word)
  let down := { s with hostUp := false, hld := true }
  (x.failed = false → x.retraining = false → x.replays < 8 →
    exec (.flitReplay k again) s =
      .next (s.modLink k fun x => { x with replays := if again then x.replays + 1 else 1, retried := x.retried + 1 })) ∧
  (x.failed = false → x.retraining = false → 8 ≤ x.replays → recent.length < 3 → exec (.linkRetrain k) s = .next s₁) ∧
  (x.failed = false → x.retraining = false → 8 ≤ x.replays → 3 ≤ recent.length → exec (.linkRetrain k) s = .next (s₁.failLink k)) ∧
  (x.retraining = true → exec (.linkRetrainEnd k true) s =
    .next ((s.modLink k fun x => { x with retraining := false }).retrained k)) ∧
  (x.retraining = true → exec (.linkRetrainEnd k false) s = .next (s.failLink k)) ∧
  (s.hostUp = true → exec .hostLinkDown s =
    .next (s.contexts.foldl (fun s c => (s.terminate c.pf c.num 0x92).killContext c.pf c.num) down)) ∧
  (exec .hostLinkUp s = .next { s with hostUp := true }) ∧
  (d < 4 → 64 * word < dramBytes → (s.die d).off = false →
    (s.isBad place = true → exec (.patrolScrub d word n) s = .next (s.dieDataError d place)) ∧
    (s.isBad place = false → n = 0 → exec (.patrolScrub d word n) s = .next s) ∧
    (s.isBad place = false → n ≠ 0 → exec (.patrolScrub d word n) s = .next (s.noteCorrected d n place)))

/-- R376, R396, R401 to R403, R507: the management endpoint answers. No SPDM request is served while firmware loads. An answer is
co-signed, and sent where the device's own check of its signatures holds. The bytes of a transcript, which other standards fix, are
log entry 12 (PRESUMED), and the order of the sessions' checks is log entry 18 (DEDUCED). -/
def Obligations.ManagementAnswers : Prop := ∀ (v slot offset length index sensor : Nat) (asym hash : List Nat) (meas : MeasurementOffer)
    (nonce msg : List Byte) (temp : Int) (code : Nat) (bad sign : Bool) (s : State),
  let chain := Config.certificateChain
  let busy := s.answer (.error "Busy")
  let unexpected := s.answer (.error "UnexpectedRequest")
  let offered := asym.contains 0 || hash.contains 0 || meas.hashes.contains 0 || meas.specs.contains 0
  let blocks := s.measurements (if index = 0xFF then [1, 2, 3, 4, 5, 6, 7] else [index])
  let proof (body : List Byte) : OpaqueElement := { vendor := 0x1D9E, kind := 1, coSignature := Config.slhSign body }
  let whole (body : List Byte) : List Byte :=
    let data := Config.opaqueData 0x1D9E 1 (Config.slhSign body)
    body ++ leBytes 2 data.length ++ data
  let sound (body : List Byte) : Prop := Config.slhVerify Config.slhKey (Config.slhSign body) body = true ∧
    Config.rsaVerify Config.leafKey (Config.rsaSign (whole body)) (whole body) = true
  let challenge := Config.spdmHeader 0x03 ++ (nonce ++ Config.sha384 chain)
  let measured := Config.spdmHeader 0x60 ++ (nonce ++ blocks.flatMap fun b => leBytes 1 b.1 ++ leBytes 1 b.2.1 ++ leBytes 2 b.2.2.length ++ b.2.2)
  (s.fw.loading = true → exec .getVersion s = .next busy ∧ exec (.getCapabilities v) s = .next busy ∧
    exec (.negotiateAlgorithms v asym hash meas) s = .next busy ∧ exec (.getDigests v) s = .next busy ∧
    exec (.getCertificate v slot offset length) s = .next busy ∧ exec (.challenge v slot nonce) s = .next busy ∧
    exec (.getMeasurements v index sign nonce) s = .next busy ∧ exec (.spdmUnsupportedRequest v code bad) s = .next busy) ∧
  (s.fw.loading = false → s.session ≠ .none_ → exec .getVersion s = .next ({ s with session := .versioned }.answer (.version 0x13))) ∧
  (s.fw.loading = false → s.session = .versioned → exec (.getCapabilities 0x13) s =
    .next ({ s with session := .capable }.answer (.capabilities true true true true 22))) ∧
  (s.fw.loading = false → s.session = .capable → exec (.negotiateAlgorithms 0x13 asym hash meas) s =
    .next ({ s with session := if offered then .selected else .none_ }.answer
      (.algorithms (asym.contains 0) (hash.contains 0) (meas.hashes.contains 0) (meas.specs.contains 0)))) ∧
  (s.fw.loading = false → s.session = .selected → exec (.getDigests 0x13) s = .next (s.answer (.digests (Config.sha384 chain)))) ∧
  (s.fw.loading = false → s.session = .selected → offset < chain.length → exec (.getCertificate 0x13 0 offset length) s =
    .next (s.answer (.certificate ((chain.drop offset).take length) (chain.length - (offset + length))))) ∧
  (s.fw.loading = false → s.session = .selected → slot ≠ 0 →
    exec (.getCertificate 0x13 slot offset length) s = .next (s.answer (.error "InvalidRequest")) ∧
    exec (.challenge 0x13 slot nonce) s = .next (s.answer (.error "InvalidRequest"))) ∧
  (s.fw.loading = false → s.session = .selected → sound challenge → exec (.challenge 0x13 0 nonce) s =
    .next (s.answer (.challengeAuth (proof challenge) (Config.rsaSign (whole challenge))))) ∧
  (s.fw.loading = false → s.session = .selected → ¬ sound challenge →
    exec (.challenge 0x13 0 nonce) s = .next (s.answer (.error "Unspecified"))) ∧
  (s.fw.loading = false → s.session = .selected → blocks ≠ [] → sound measured → exec (.getMeasurements 0x13 index sign nonce) s =
    .next (s.answer (.measurements blocks (proof measured) (if sign then Config.rsaSign (whole measured) else [])))) ∧
  (s.fw.loading = false → s.session ≠ .none_ → v ≠ 0x13 → exec (.getCapabilities v) s = .next (s.answer (.error "VersionMismatch")) ∧
    exec (.challenge v slot nonce) s = .next (s.answer (.error "VersionMismatch")) ∧
    exec (.spdmUnsupportedRequest v code bad) s = .next (s.answer (.error "VersionMismatch"))) ∧
  (s.fw.loading = false → s.session = .none_ → exec .getVersion s = .next unexpected ∧ exec (.getCapabilities v) s = .next unexpected ∧
    exec (.negotiateAlgorithms v asym hash meas) s = .next unexpected ∧ exec (.getDigests v) s = .next unexpected ∧
    exec (.getCertificate v slot offset length) s = .next unexpected ∧ exec (.challenge v slot nonce) s = .next unexpected ∧
    exec (.getMeasurements v index sign nonce) s = .next unexpected ∧ exec (.spdmUnsupportedRequest v code bad) s = .next unexpected) ∧
  (s.fw.loading = false → s.session ≠ .none_ →
    exec (.spdmUnsupportedRequest 0x13 code false) s = .next (s.answer (.error "UnsupportedRequest"))) ∧
  (s.fw.loading = false → s.session ≠ .none_ → exec (.spdmUnsupportedRequest 0x13 code true) s = .next (s.answer (.error "InvalidRequest"))) ∧
  (sensor < 32 → exec (.pldmRequest sensor temp) s = .next (s.answer (.sensor temp))) ∧
  (exec (.pldmRequest 32 temp) s = .next (s.answer (.sensor s.power.doneEnergy))) ∧
  (exec (.mctpControl msg) s = .next (s.answer (.control (Config.mctpReply msg))))

/-! ## Guards and privilege -/

namespace Sys2Proof.Claims
open Sys2Proof.Machine

/-- R359: what an instruction that acts for no thread does: a guarded branch, and each branch of the other kinds, takes path
terms. -/
def untaken (s : State) (e : Env) (i : Instr) (f : Fields) : State :=
  let terms := e.branchTerms s fun _ => e.next f
  match i with
  | .bra _ | .call _ => if f.gneg = false ∧ f.gp = 7#3 then s else terms
  | .braC _ | .brx _ | .callx _ | .ret _ => terms
  | _ => s

/-- The instruction completes and goes on to the next one without an effect. -/
def NoEffect (i : Instr) (f : Fields) (s : State) (e : Env) : Prop :=
  exec i s = .next ((untaken s e i f).retire e { retOf i f e.hdr.lanes with var := false } .none (e.next f))

end Sys2Proof.Claims

/-- R197, R198: an instruction whose guard is false in every lane has no effect beyond the checks of R186 steps 1 to 6. -/
def Obligations.NotTaken : Prop := ∀ (i : Instr) (f : Fields) (s : State) (e : Env), i.fields? = some f → s.env? = some e →
  e.checks i f = none → e.T f = [] → NoEffect i f s e

/-- R76: p7 reads as true and takes no write, and a guard of `?!p7` is false in every lane, so that the instruction has no
effect once its checks are passed. -/
def Obligations.PredicateSeven : Prop := ∀ (i : Instr) (f : Fields) (s : State) (e : Env) (tm : Team) (t : Nat) (k b : Bool),
  e.p t 7 = true ∧ tm.putP k t 7 b = tm ∧
  (f.gp = 7#3 → f.gneg = true → e.T f = [] ∧
    (i.fields? = some f → s.env? = some e → e.checks i f = none → NoEffect i f s e))

/-- R199: `ERET`, `OVLD` and `HALT` outside the privileged state trap at decode with cause 0x04, whatever the guard. No
check of another instruction depends on privilege. -/
def Obligations.Privilege : Prop := ∀ (i : Instr) (f : Fields) (s : State) (e : Env) (b : Bool),
  (s.env? = some e → e.fr.priv = false →
    exec (.eret f) s = .next (s.raise e (e.infoAll 0x04 0)) ∧
    exec (.ovld f) s = .next (s.raise e (e.infoAll 0x04 0)) ∧
    exec (.halt f) s = .next (s.raise e (e.infoAll 0x04 0))) ∧
  ((∀ g, i ≠ .eret g ∧ i ≠ .ovld g ∧ i ≠ .halt g) →
    ({ e with fr := { e.fr with priv := b } } : Env).checks i f = e.checks i f)

/-! ## Frames -/

namespace Sys2Proof.Claims
open Sys2Proof.Machine

/-- The instructions that touch registers only: rows of the integer, logic, move, predicate, cross-lane and floating-point families. -/
def registerOnly : List (Fields → Instr) :=
  [.nop, .yield, .iadd, .isub, .iaddc, .ineg, .iabs, .imul, .imulhi, .imad, .imadw, .idot4, .imin, .imax, .and, .or, .xor, .not,
   .andn, .bool3, .shl, .shr, .sar, .rol, .fshl, .bfe, .bfi, .bmsk, .popc, .clz, .ctz, .brev, .bsel, .iset, .sel, .mov, .movi]
  ++ [.lea, .pand, .por, .pxor, .pnot, .pmov, .xlaneAt, .xlaneBack, .xlaneFwd, .xlaneSwap, .xlaneOne, .pcolSome, .pcolEvery,
   .pcolBits, .pcolSame, .eqset, .lredAdd, .lredMin, .lredMax, .lredAnd, .lredOr, .lredXor, .rank, .fadd, .fsub, .fmul, .ffma]
  ++ [.fmin, .fmax, .fset, .fclass, .frnd, .fcvt, .icvt, .ex2, .lg2, .rcp, .rsq, .sqrt, .sinpi, .cospi, .ex2s, .fscale, .fgetexp, .fmaxe]

/-- Register `r` of thread `i` is one that the destination of class `c` names. -/
def Dest (x : Ret) (c : RegClass) (r : Nat) : Prop := x.cls = some c ∧ x.reg ≤ r ∧ r < x.reg + x.nreg

/-- R241: the predicate that `IADDC` writes beside its destination. -/
def carries (i : Instr) (r : Nat) : Prop := match i with
  | .iaddc f => r = f.sc.toNat % 8
  | _ => False

/-- R238: what a thread of the issuing team keeps: everything but the registers that DST names, in the threads of T, and the
carry. `vx` and `px` are the expired registers (R83), and `fresh` those that the group has written (R55). -/
structure KeepsThread (c : Fields → Instr) (f : Fields) (e : Env) (i : Nat) (a b : Thread) : Prop where
  rest : b = { a with v := b.v, p := b.p, vx := b.vx, px := b.px, fresh := b.fresh }
  vector : ∀ r, ¬ ((∃ m ∈ e.T f, m.tid = i) ∧ Dest (retOf (c f) f e.hdr.lanes) .vector r) → b.v[r]? = a.v[r]? ∧ (r ∈ b.vx ↔ r ∈ a.vx)
  predicate : ∀ r, ¬ ((∃ m ∈ e.T f, m.tid = i) ∧ (Dest (retOf (c f) f e.hdr.lanes) .predicate r ∨ carries (c f) r)) →
    b.p[r]? = a.p[r]? ∧ (r ∈ b.px ↔ r ∈ a.px)

/-- R238: what a warp keeps; `repcnt` is `sr.repcnt` (R183). -/
structure KeepsWarp (c : Fields → Instr) (f : Fields) (e : Env) (w : Nat) (a b : Warp) : Prop where
  rest : b = { a with w := b.w, wx := b.wx, repcnt := b.repcnt }
  other : w ≠ e.fr.warp → b = a
  uniform : ∀ r, ¬ Dest (retOf (c f) f e.hdr.lanes) .uniform r → b.w[r]? = a.w[r]? ∧ (r ∈ b.wx ↔ r ∈ a.wx)

/-- The frame of a register-only instruction: no memory, no other team, no accumulator, tile, phaser, queue register, command or
special register changes, and of its own team only what `KeepsThread` and `KeepsWarp` leave out, and its own fragment's
progress (R82, R85); of the transient uniforms that its trap has left it (`keptW`, R458) only one that it writes goes. Counters (R358) and the model's counter of choices may. -/
structure Framed (c : Fields → Instr) (f : Fields) (s : State) (e : Env) (s' : State) : Prop where
  package : s' = { s with teams := s'.teams, cores := s'.cores, free := s'.free }
  caches : ∀ k, s'.core k = { s.core k with pmc := (s'.core k).pmc }
  teams : ∀ t, t ≠ e.t → s'.team? t = s.team? t
  team : s'.team e.t = { e.tm with threads := (s'.team e.t).threads, warps := (s'.team e.t).warps, frags := (s'.team e.t).frags }
  threads : ∀ i, KeepsThread c f e i (e.tm.thread i) ((s'.team e.t).thread i)
  warps : ∀ w, KeepsWarp c f e w (e.tm.warp w) ((s'.team e.t).warp w)
  frags : ∀ g, g ≠ e.g → (s'.team e.t).frag? g = e.tm.frag? g
  frag : ∃ win out st pc rep p counted walked bounds after keptW, (s'.team e.t).frag e.g =
    { e.fr with
      win := win, out := out, st := st, pc := pc, rep := rep, partial_ := p, counted := counted, walked := walked, bounds := bounds
      after := after, keptW := keptW } ∧
    ((∀ g, c f ≠ .yield g) → after = e.fr.after) ∧ (∀ y ∈ keptW, y ∈ e.fr.keptW) ∧
    ∀ y ∈ e.fr.keptW, y ∈ keptW ∨ Dest (retOf (c f) f e.hdr.lanes) .uniform y.reg

end Sys2Proof.Claims

/-- R238: the frame of the integer, logic, move, predicate, cross-lane and floating-point instructions. -/
def Obligations.RegisterFrame : Prop := ∀ c ∈ registerOnly, ∀ (f : Fields) (s : State) (e : Env), Ready c f s e →
  ∃ s', exec (c f) s = .next s' ∧ Framed c f s e s'

namespace Sys2Proof.Claims
open Sys2Proof.Machine

/-- Byte `a` is none of the `n` bytes at the places that an instruction stores to, none of those of a store to another core that is
still on its way (R94, R115), and in no replay's capture area (R354). -/
def Outside (s : State) (n : Nat) (xs : List (Member × Spot)) (a : Nat) : Prop :=
  (∀ x ∈ xs, a < x.2.place ∨ x.2.place + n ≤ a) ∧
  (∀ y ∈ s.far, ∀ p, s.peer (s.launchOf (s.team y.team).launch).id y.core = some p →
    let at_ := placeScratch y.core (1024 * p.base + y.off % scratchBytes)
    a < at_ ∨ at_ + y.data.length ≤ a) ∧
  (∀ ln ∈ s.launches, ∀ r, ln.replay = some r → ∀ p ∈ r.area, a < p ∨ p + 16384 ≤ a)

/-- The frame of an instruction that stores: where its accesses land, which `Reaches` computes, is where memory changes. `n` is what it
needs of a place, but for the size. -/
def StoresOnly (c : Fields → Instr) (n : Fields → Need) (ms : Env → Fields → List Member) : Prop :=
  ∀ (f : Fields) (s s₁ : State) (e : Env) (xs : List (Member × Spot)),
    let size := accessSize f.typ.toNat
    Ready c f s e → Reaches e f s { n f with size } f.space (ms e f) s₁ xs → Open_ e s₁ (n f).write (n f).load xs → e.held s₁ f = false →
    (∀ x ∈ xs, s₁.isBad x.2.place = false) →
    ∃ s', exec (c f) s = .next s' ∧ ∀ a, Outside s₁ size xs a → s'.mem.get a = s₁.mem.get a

/-- A load leaves all of memory: `s₀` is the state that its walks start from. -/
def LoadsOnly (c : Fields → Instr) (f : Fields) (s s₀ : State) (e : Env) : Prop :=
  ∀ (s₁ : State) (xs : List (Member × Spot)),
    Reaches e f s₀ (need false true true false (accessSize f.typ.toNat)) f.space (e.actors f) s₁ xs → Open_ e s₁ false true xs →
    (∀ x ∈ xs, s₁.isBad x.2.place = false) → s₁.far = [] → ∃ s', exec (c f) s = .next s' ∧ s'.mem = s₁.mem

end Sys2Proof.Claims

/-- R253, R257 to R259, R292: a store, an atomic, a reduction, a `REDXF` or an `AST` leaves every byte of memory that it does not store
to, and a `REDX` whose accumulators stand in their slices leaves every byte. `s₁` is the state after the walks that the access makes
(R102), and `s₂` that with the accumulators at hand (R118). A plain load, and an `LD.rf`, store nothing. -/
def Obligations.StoreFrame : Prop :=
  StoresOnly .st (fun _ => need true false true false 0) (fun e f => e.T f) ∧
  (∀ c ∈ [Instr.atomAnd, .atomOr, .atomXor, .atomMin, .atomMax, .atomInc, .atomDec, .redAdd, .redAnd, .redOr, .redXor, .redMin, .redMax,
      .redInc, .redDec], StoresOnly c (fun _ => need true true false false 0) Env.actors) ∧
  (∀ c ∈ [Instr.atomXchg, .atomCas], StoresOnly c (fun _ => need true true true false 0) Env.actors) ∧
  StoresOnly .atomAdd (fun f => need true true (f.typ != 0x0E) false 0) Env.actors ∧
  (∀ (f : Fields) (s : State) (e : Env), Ready .ld f s e → LoadsOnly .ld f s s e) ∧
  (∀ (f : Fields) (s : State) (e : Env), Ready .ldRf f s e → (e.region = false ∨ e.fr.ent ≠ none) → LoadsOnly .ldRf f s s e) ∧
  (∀ (f : Fields) (s : State) (e : Env), Ready .ldRf f s e → ¬ (e.region = false ∨ e.fr.ent ≠ none) → Quiet s e →
    LoadsOnly .ldRf f s (settledOf s e) e) ∧
  (∀ (f : Fields) (s s₁ s₂ : State) (e : Env) (xs : List (Member × Spot)), Ready .redx f s e →
    Reaches e f s (need true false false true 4) 0 (e.T f) s₁ xs → e.held s₁ f = false →
    s₁.exactRoom e.pf (e.ctx s₁) (xs.map fun x => x.2.place) = .ok s₂ →
    (∀ x ∈ xs, ∀ y, s₂.exact? e.pf (e.ctx s₂) x.2.place = some y → y.spill = none) →
    ∃ s', exec (.redx f) s = .next s' ∧ ∀ a, Outside s₂ 0 [] a → s'.mem.get a = s₂.mem.get a) ∧
  (∀ (f : Fields) (s s₁ s₂ : State) (e : Env) (xs : List (Member × Spot)), Ready .redxf f s e →
    Reaches e f s (need true true false true 4) 0 (e.actors f) s₁ xs → e.held s₁ f = false →
    s₁.exactRoom e.pf (e.ctx s₁) ((xs.map fun x => x.2.place).filter fun p => (s₁.exact? e.pf (e.ctx s₁) p).isSome) = .ok s₂ →
    (∀ x ∈ xs, s₂.isBad x.2.place = false) →
    ∃ s', exec (.redxf f) s = .next s' ∧ ∀ a, Outside s₂ 4 xs a → s'.mem.get a = s₂.mem.get a) ∧
  (∀ (f : Fields) (s s₁ : State) (e : Env) (xs : List (Member × Spot)), Ready .ast f s e →
    BlockReaches e f s (need true false true false 16) s₁ xs → Open_ e s₁ true false xs → e.held s₁ f = false →
    ∃ s', exec (.ast f) s = .next s' ∧ ∀ a, Outside s₁ 8 xs a → s'.mem.get a = s₁.mem.get a)

/-! ## Memory -/

/-- R7: the least significant byte stands at the lowest address, in memory and in an instruction's words, and a write leaves
every other byte. -/
def Obligations.LittleEndian : Prop :=
  (∀ (m : Memory) (a n v i : Nat), m.wf = true → i < n → (m.write a (leBytes n v)).get (a + i) = BitVec.ofNat 8 (v / 256 ^ i)) ∧
  (∀ (m : Memory) (a b : Nat) (bs : List Byte), (b < a ∨ a + bs.length ≤ b) → (m.write a bs).get b = m.get b) ∧
  (∀ (m : Memory) (a n i : Nat), i < n → m.nat a n / 256 ^ i % 256 = (m.get (a + i)).toNat) ∧
  (∀ (s : State) (place pc i : Nat) (w : Word), (s.blockWords place pc).1[i]? = some w →
    w = BitVec.ofNat 32 (s.mem.nat (place + 4 * i) 4)) ∧
  (∀ (nbits w i : Nat), i < 4 → (tableWords nbits w)[i]? = some (BitVec.ofNat 32 (w % 2 ^ nbits / 2 ^ (32 * i))))

/-! ## Encodings -/

/-- R174, R177, R182: decoding the words of a well-formed instruction gives it back, with every field at every value that its
encoding admits. -/
def Obligations.DecodeEncode : Prop := ∀ i : Instr, i.wf = true → decode (encode i) = .ok i

/-- R171, R179: words that decode to an instruction are, as many as it is long, the words that encode it: each encoding has one
meaning, and no bit of it is dropped. -/
def Obligations.EncodeDecode : Prop := ∀ (ws : List Word) (i : Instr), decode ws = .ok i →
  i.wf = true ∧ encode i = ws.take (encode i).length ∧ decode (encode i) = .ok i

namespace Sys2Proof.Claims

/-- The fields of an unguarded instruction of a length with every operand field 0. -/
def bare (len : Len) : Fields :=
  { len, mark := false, trans := false, gp := 7, gneg := false, dst := 0, sa := 0, sb := 0, sc := 0, typ := 0, cls := 0, mod := 0, imm := 0 }

end Sys2Proof.Claims

/-- The words that the spec writes out in the examples that follow R179, R195, R206, R222, R241, R268, R279 and R512, and two words of
which R171, R185 and R187 say that they are none: an illegal and an unimplemented one. -/
def Obligations.DecodeWords : Prop :=
  let f := bare
  decode [0x040A40AD, 0x246E0605] = .ok (.ffma { f .two with
    mark := true, trans := true, gneg := true, gp := 2, dst := 10, sa := 4, sb := 5, sc := 6, typ := 0x0E, mod := 2, cls := 4 }) ∧
  decode [0x02088072, 0x00020D00, 0x00000010] = .ok (.ld { f .three with dst := 8, sa := 2, sc := 0x0D, typ := 2, imm := 16 }) ∧
  decode [0x01032072, 0x10060000, 0xFFFFFFFB] = .ok (.iadd { f .three with dst := 3, sa := 1, typ := 6, mod := 1, imm := 0xFFFFFFFB }) ∧
  decode [0x00000113, 0x00200000, 0x00000020, 0x00000030] = .ok (.braC { f .four with gp := 1, imm := 0x0000003000000020 }) ∧
  decode [0x04011376, 0x02200000, 0x000007D0] = .ok (.phaw { f .three with mark := true, dst := 1, sa := 4, cls := 2, imm := 2000 }) ∧
  decode [0x04057072, 0x08420200, 0x00000002] = .ok (.xlaneFwd { f .three with dst := 5, sa := 4, sc := 2, typ := 2, cls := 8, imm := 2 }) ∧
  decode [0x08144571, 0x00180E00] = .ok (.fcvt { f .two with dst := 20, sa := 8, sc := 0x0E, typ := 0x18 }) ∧
  decode [0x00000471, 0x00000000] = .ok (.exit (f .two)) ∧
  decode [0x00000971, 0x00200000] = .ok (.eret (f .two)) ∧
  decode [0x00000000, 0x00000000] = .error .shortLength ∧ decode [0x0000C071, 0x00000000] = .error .unimplemented

/-! ## The step -/

namespace Sys2Proof.Claims
open Sys2Proof.Machine

/-- The fragment whose turn has come may issue, has no abort to take and no frame to resume from, and is at no reconvergence
point. -/
structure Turns (s : State) (t g : Nat) : Prop where
  can : s.canIssue t g = true
  runs : (s.envAt t g).fr.grp.isSome = true ∨ (s.envAt t g).wp.aborting = false
  resumed : (s.envAt t g).fr.fromFrame = false
  on : (s.envAt t g).tm.atJoin (s.envAt t g).fr = false

/-- R172, R173: its pc translates to words of device memory that end in their fetch block. -/
structure Fetches (s : State) (t g : Nat) (s₁ : State) (ws : List Word) : Prop where
  low : (s.envAt t g).pc < 2 ^ 56 ∧ (s.envAt t g).pc / 2 ^ 48 ≠ 255
  found : ∃ place ord base size, (s.envAt t g).translate s (s.envAt t g).pc .fetch = .ok s₁ place ord base size ∧
    isHost place = false ∧ s₁.isBad place = false ∧ s₁.blockWords place (s.envAt t g).pc = (ws, true)

end Sys2Proof.Claims

/-- The step of a fragment's turn runs the instruction that its words decode to, at the repeat in progress with the fields
stepped (R183); words that are no instruction run the row of their fate (R185). Before a marked instruction,
in a repeat before the last one, the fragment's far stores arrive (R453). In a turn that makes only the first `n` read-modify-writes of an atomic (`issueSome`) the same
instruction runs, which is the model's choice (log entry 94): the manual does not say how far an atomic's accesses stand apart. -/
def Obligations.StepRunsDecoded : Prop := ∀ (s s₁ : State) (t g : Nat) (rest : List Turn) (ws ws' : List Word) (i : Instr) (r : Repeat) (x : Reject),
  let s₀ := { s with agenda := rest }
  let pc := (s₀.envAt t g).pc
  let rep := (s₀.envAt t g).fr.rep
  let go (s : State) : State := { s.noteIssue (s₀.envAt t g) t g with cur := { team := t, frag := g, pc, words := ws } }
  s.agenda = .issue t g :: rest → Turns s₀ t g → Fetches s₀ t g s₁ ws →
  (rep = none → decode ws = .ok i → (∀ f, i.fields? = some f → f.mark = false) → step s = exec i (go s₁)) ∧
  (∀ f, rep = none → decode ws = .ok i → i.fields? = some f → f.mark = true → ((s₁.deliverFrag t g).team t).late g = none →
    step s = exec i (go (s₁.deliverFrag t g))) ∧
  (rep = some r → stepWords r.fields (r.fields.cnt.toNat + 1 - r.left) ws = some ws' → decode ws' = .ok i →
    (1 < r.left ∨ ∀ f, i.fields? = some f → f.mark = false) → step s = exec i (go s₁)) ∧
  (∀ f, rep = some r → stepWords r.fields (r.fields.cnt.toNat + 1 - r.left) ws = some ws' → decode ws' = .ok i → r.left ≤ 1 →
    i.fields? = some f → f.mark = true → ((s₁.deliverFrag t g).team t).late g = none → step s = exec i (go (s₁.deliverFrag t g))) ∧
  (rep = some r → stepWords r.fields (r.fields.cnt.toNat + 1 - r.left) ws = none → step s = exec (.illegalEncoding ⟨ws⟩) (go s₁)) ∧
  (rep = none → decode ws = .error x → x ≠ .unimplemented → step s = exec (.illegalEncoding ⟨ws⟩) (go s₁)) ∧
  (rep = none → decode ws = .error .unimplemented → step s = exec (.unimplementedEncoding ⟨ws⟩) (go s₁)) ∧
  ∀ n, step { s with agenda := .issueSome t g n :: rest } = match s₀.fetchTurn t g with
    | .done s => .next s
    | .run s i => exec i { s with cur := { s.cur with pace := some n } }

/-! ## Phasers -/

/-- R215: the completion test, and which phases a waiter finds complete: those that the phaser has passed by at most 32,767. -/
def Obligations.PhaserCompletion : Prop := ∀ (p : Phaser) (t k : Nat),
  (max p.n 1 ≤ p.a → p.test = { p with p := (p.p + 1) % 2 ^ 16, a := 0 }) ∧ (p.a < max p.n 1 → p.test = p) ∧
  p.arrive = ({ p with a := p.a + 1 } : Phaser).test ∧
  (p.done t = true ↔ 0 < (BitVec.ofNat 16 (p.p + 2 ^ 16 - t % 2 ^ 16)).toInt) ∧
  (k < 2 ^ 16 → p.p = (t + k) % 2 ^ 16 → (p.done t = true ↔ 1 ≤ k ∧ k ≤ 32767))

/-! ## Registers of the host's window -/

/-- R389: the cap reads 320 after reset; a write through the window sets it where it is in 150..550 and is dropped elsewhere. That a
power window that is due ends before the write (`endDue`, R384) is the model's choice (log entry 14). -/
def Obligations.PowerCap : Prop :=
  State.reset.registerRead 0 0 0x100 4 = leBytes 4 320 ∧
  ∀ (s : State) (v : DWord), s.hostUp = true → s.devDies 0 ≠ [] →
    let cap := v.toNat % 2 ^ 10
    s.registerRead 0 0 0x100 4 = leBytes 4 s.power.capNext ∧
    (150 ≤ cap → cap ≤ 550 →
      exec (.registerWrite 0 0 0x100 4 v) s = .next (s.endDue.modPower fun p => { p with capNext := cap })) ∧
    (cap < 150 ∨ 550 < cap → exec (.registerWrite 0 0 0x100 4 v) s = .next s)

/-- R492: the bits of SYSSTAT of a function that leads a device, its reset value 0, and who clears them. -/
def Obligations.SystemStatus : Prop :=
  State.reset.sysstat = 0 ∧
  ∀ (s : State) (v : DWord) (pf d k : Nat), d < 4 →
    (s.devDies pf ≠ [] → s.registerRead pf 0 0x70 4 = leBytes 4 s.sysstat) ∧ s.sysstat < 2 ^ 32 ∧
    s.sysstat.testBit (28 + d) = (s.die d).off ∧ s.sysstat.testBit (24 + d) = (s.die d).halted ∧
    s.sysstat.testBit (20 + d) = (s.link d).failed ∧ s.sysstat.testBit (16 + d) = (s.die d).dout ∧
    s.sysstat.testBit (12 + d) = !(s.die d).quadLost.isEmpty ∧
    s.sysstat.testBit 3 = s.evdrop ∧ s.sysstat.testBit 2 = s.pfail ∧ s.sysstat.testBit 1 = s.hld ∧
    (k = 0 ∨ (4 ≤ k ∧ k < 12) → s.sysstat.testBit k = false) ∧
    (s.hostUp = true → s.devDies 0 ≠ [] → exec (.registerWrite 0 0 0x70 4 v) s = .next
      { s with evdrop := s.evdrop && !v.getLsbD 3, pfail := s.pfail && !v.getLsbD 2, hld := s.hld && !v.getLsbD 1 }) ∧
    (pf ≠ 0 → exec (.registerWrite pf 0 0x70 4 v) s = .next s) ∧ (k ≠ 4 → exec (.registerWrite pf 0 0x70 k v) s = .next s)

/-! ## Traps -/

/-- R454, R457, R199: a trap of any cause, met at its own instruction, in a kernel with a trap routine. The instruction has taken no
position (R82). Once its frame is written, the fragment is privileged, stands at TRAP with an empty window and nothing outstanding,
and v0 to v2 of its threads hold the frame header's address and the cause word; the other vector registers and the predicates of a
thread with nothing forwarded stand. -/
def Obligations.TrapRoutineEntry : Prop := ∀ (info : TrapInfo) (s s₁ : State) (e : Env),
  let va := e.ln.headVa e.tm.num e.fr.warp
  let e₀ := { e with fr := e.fr.uncount }
  let s₀ := settledOf (s.modFrag e.t e.g Frag.uncount) e
  info.late = false → s.far = [] → s.env? = some e → e.wp.mode = .normal → e.fr.priv = false → e.wp.frame = false →
  e.tm.late e.g = none → e.fr.warp < e.tm.warps.length → (∀ y ∈ e.fr.win, y.fwd = []) →
  (s₀.ctx e.pf (e.ctx s₀)).hostTraps = false → e.hdr.trap ≠ 0 → s₀.writeFrame e₀ info false = .ok s₁ →
  s₁.team? e.t = some (e.tm.modFrag e.g Frag.uncount) →
    let s' := s.raise e info
      let tm := s'.team e.t
      let fr := tm.frag e.g
      fr.priv = true ∧ fr.pc = e.hdr.trap ∧ fr.win = [] ∧ fr.out = [] ∧ fr.rep = none ∧ fr.mem = e.fr.mem ∧
      (tm.warp e.fr.warp).frame = true ∧
      ∀ m ∈ e.fr.mem, m.tid < e.tm.threads.length → 3 ≤ (e.tm.thread m.tid).v.length →
        (tm.thread m.tid).v[0]? = some (BitVec.ofNat 32 va) ∧ (tm.thread m.tid).v[1]? = some (BitVec.ofNat 32 (va / 2 ^ 32)) ∧
        (tm.thread m.tid).v[2]? = some (BitVec.ofNat 32 (causeWord info e.fr.rep.isSome e.whole e.region false)) ∧
        (∀ r, 3 ≤ r → (tm.thread m.tid).v[r]? = (e.tm.thread m.tid).v[r]?) ∧ (tm.thread m.tid).p = (e.tm.thread m.tid).p

namespace Sys2Proof.Claims
open Sys2Proof.Machine

/-- A warp but for the aborts that its transaction has been told of. -/
def unsignalled (wp : Warp) : Warp := match wp.mode with
  | .transactional x => { wp with mode := .transactional { x with aborts := [] } }
  | _ => wp

def withWarps (f : Warp → Warp) (tm : Team) : Team := { tm with warps := tm.warps.map f }

/-- What checks that ended without a wait have left: of the package only what walks mark, bind and drop may differ, of a core its L1
TLB and the L1 lines of frames that were bound, of a team the aborts of transactions that had read a table's line (R148); no register, no fragment, no store on its way and no accumulator does. Checks of
an on-chip space leave nothing. -/
structure WalksOnly (s s₁ : State) (space : Nat) : Prop where
  package : s₁ = { s with
    mem := s₁.mem, dies := s₁.dies, cores := s₁.cores, contexts := s₁.contexts, launches := s₁.launches, bad := s₁.bad, free := s₁.free
    teams := s₁.teams }
  caches : ∀ k, s₁.core k = { s.core k with tlb := (s₁.core k).tlb, l1 := (s₁.core k).l1 }
  teams : s₁.teams.map (withWarps unsignalled) = s.teams.map (withWarps unsignalled)
  chip : 2 ≤ space → s₁ = s

end Sys2Proof.Claims

/-- R251, R453: where any thread's check fails, no access is performed: the instruction traps with the lowest-ranked failing
thread's cause (the members of a fragment stand in the order of their ranks), and `s₁` holds only what the walks of its threads have marked (R102, R108). Where a store, an atomic, a reduction or
an `AST` has met a die that does not answer, the context ends instead (R500). -/
def Obligations.FaultsFindNoAccess : Prop := ∀ (f : Fields) (s s₁ : State) (e : Env) (xs : List (Member × Spot)) (rank cause a : Nat)
    (fs : List (Nat × Nat × Nat)),
  let n := accessSize f.typ.toNat
  let failed : Checks := { s := s₁, spots := xs, faults := (rank, cause, a) :: fs, wait := none, bad := none }
  let found (s : State) (n : Need) (space : Nat) (ms : List Member) : Prop := e.locateAll s n space (e.baseOf f) (offsetOf f) ms = failed
  let trap := s₁.raise e (e.info cause rank (maskOf (rank :: fs.map (·.1))) a)
  let after := if cause = 0x90 then s₁.terminate e.pf (e.ctx s₁) 0x90 else trap
  let load := need false true true false n
  let plain := e.region = false ∨ e.fr.ent ≠ none
  (∀ c ∈ [Instr.ld, .ldro], Ready c f s e → found s load f.space (e.actors f) → exec (c f) s = .next trap) ∧
  (Ready .ldRf f s e → plain → found s load f.space (e.actors f) → exec (.ldRf f) s = .next trap) ∧
  (Ready .ldRf f s e → ¬ plain → Quiet s e → found (settledOf s e) load f.space (e.actors f) → exec (.ldRf f) s = .next trap) ∧
  (Ready .st f s e → found s (need true false true false n) f.space (e.T f) → exec (.st f) s = .next after) ∧
  (∀ c ∈ [Instr.atomAnd, .atomOr, .atomXor, .atomMin, .atomMax, .atomInc, .atomDec, .redAdd, .redAnd, .redOr, .redXor, .redMin, .redMax,
      .redInc, .redDec], Ready c f s e → found s (need true true false false n) f.space (e.actors f) → exec (c f) s = .next after) ∧
  (∀ c ∈ [Instr.atomXchg, .atomCas], Ready c f s e → found s (need true true true false n) f.space (e.actors f) →
    exec (c f) s = .next after) ∧
  (Ready .atomAdd f s e → found s (need true true (f.typ != 0x0E) false n) f.space (e.actors f) → exec (.atomAdd f) s = .next after) ∧
  (Ready .redx f s e → found s (need true false false true 4) 0 (e.T f) → exec (.redx f) s = .next after) ∧
  (Ready .redxf f s e → found s (need true true false true 4) 0 (e.actors f) → exec (.redxf f) s = .next after) ∧
  (Ready .ald f s e → e.blockChecks s (need false true true false 16) f = failed → exec (.ald f) s = .next trap) ∧
  (Ready .ast f s e → e.blockChecks s (need true false true false 16) f = failed → exec (.ast f) s = .next after) ∧
  (∀ s n space ms, found s n space ms → WalksOnly s s₁ space) ∧
  (∀ s n space, e.fr.mem.Pairwise (fun a b => a.rank < b.rank) → found s n space (e.actors f) ∨ found s n space (e.T f) →
    ∀ x ∈ fs, rank < x.1) ∧
  (∀ n, e.blockChecks s n f = failed → WalksOnly s s₁ f.space)

/-! ## What every step keeps -/

/-- Reset memory is in the canonical form, in which equal memories are equal data. -/
def Obligations.ResetMemory : Prop := Sys2Proof.Safety.Inv State.reset

/-- Every step keeps memory in its canonical form. -/
def Obligations.MemoryInvariant : Prop := ∀ s s' : State, Sys2Proof.Safety.Inv s → step s = .next s' → Sys2Proof.Safety.Inv s'

/-- R397: the floor never decreases, whatever happens. -/
def Obligations.FloorNeverFalls : Prop := ∀ s s' : State, step s = .next s' → s.fw.floor ≤ s'.fw.floor
end

