-- ==== Sys2Proof/Laws/Access.lean ====
section
/-! SUPPORT. What loads and stores can do to the state: R104 to R106, R146, R148, R252, R253. A load touches read sets and
caches alone. -/

namespace Sys2Proof.Machine

/-- Nothing but the teams and the private state of the cores differs. -/
def OnlyUnits (s s' : State) : Prop := s' = { s with teams := s'.teams, cores := s'.cores }

theorem OnlyUnits.refl (s : State) : OnlyUnits s s := rfl
theorem OnlyUnits.trans {a b c : State} (h : OnlyUnits a b) (h' : OnlyUnits b c) : OnlyUnits a c := by
  unfold OnlyUnits at *; rw [h', h]
theorem OnlyUnits.mem {s s' : State} (h : OnlyUnits s s') : s'.mem = s.mem := by unfold OnlyUnits at h; rw [h]
theorem OnlyUnits.bad {s s' : State} (h : OnlyUnits s s') : s'.bad = s.bad := by unfold OnlyUnits at h; rw [h]

theorem modTeam_units (s : State) (t : Nat) (f : Team → Team) : OnlyUnits s (s.modTeam t f) := rfl
theorem modWarp_units (s : State) (t w : Nat) (f : Warp → Warp) : OnlyUnits s (s.modWarp t w f) := rfl
theorem modFrag_units (s : State) (t g : Nat) (f : Frag → Frag) : OnlyUnits s (s.modFrag t g f) := rfl
theorem modCore_units (s : State) (c : Nat) (f : Core → Core) : OnlyUnits s (s.modCore c f) := rfl
theorem conflict_units (s : State) (p : Nat) (w : Bool) : OnlyUnits s (s.conflict p w) := rfl

/-- R358: counting touches a core's counters alone. -/
theorem count_units (s : State) (l c ev n : Nat) : OnlyUnits s (s.count l c ev n) := by
  unfold State.count; split
  · exact modCore_units _ _ _
  · exact .refl _

theorem untag_units (s : State) (c : Nat) (p : Nat → Bool) : OnlyUnits s (s.untag c p) := rfl
theorem refresh_units (s : State) (c p n : Nat) : OnlyUnits s (s.refresh c p n) := modCore_units _ _ _

theorem dropSector_units (s : State) (c p : Nat) : OnlyUnits s (s.dropSector c p) := modCore_units _ _ _

theorem dropLine_units (s : State) (c k : Nat) : OnlyUnits s (s.dropLine c k) := (modCore_units _ _ _).trans (untag_units _ _ _)

theorem l1Fill_units (s : State) (c p : Nat) : OnlyUnits s (s.l1Fill c p) := by
  unfold State.l1Fill; dsimp only
  refine .trans ?_ (modCore_units _ _ _)
  unfold State.l1Room; dsimp only; split
  · exact .refl _
  · exact dropLine_units _ _ _

theorem l1Load_units (s : State) (l c p n : Nat) : OnlyUnits s (s.l1Load l c p n).1 := by
  unfold State.l1Load; split
  · exact .refl _
  · exact (count_units _ _ _ _ _).trans (l1Fill_units _ _ _)

theorem roLoad_units (s : State) (l c since pf ctx p va n : Nat) : OnlyUnits s (s.roLoad l c since pf ctx p va n).1 := by
  unfold State.roLoad; split
  · exact .refl _
  · dsimp only; exact (count_units _ _ _ _ _).trans (modCore_units _ _ _)

theorem lineBad_none {s : State} (h : ∀ p, s.isBad p = false) (c since pf ctx p va : Nat) : s.lineBad c since pf ctx p va = none := by
  simp [State.lineBad, h]

/-- A load that meets no uncorrectable word answers, and changes units alone. -/
theorem load1_ok (e : Env) (s : State) (x : Spot) (n : Nat) (ro : Bool) (h : s.bad = []) :
    ∃ s' bs, e.load1 s x n ro = .ok (s', bs) ∧ OnlyUnits s s' := by
  have hb : ∀ s' p, OnlyUnits s s' → s'.isBad p = false := fun s' p h' => by simp [State.isBad, h'.bad, h]
  cases x with
  | host p => exact ⟨_, _, rfl, .refl _⟩
  | chip sp p => exact ⟨_, _, rfl, modWarp_units _ _ _ _⟩
  | far c o => exact ⟨_, _, rfl, .refl _⟩
  | dram p ord a b va =>
    simp only [Env.load1]
    have hw : OnlyUnits s ((s.conflict p false).modWarp e.t e.fr.warp fun wp => wp.noteRead p) :=
      (conflict_units _ _ _).trans (modWarp_units _ _ _ _)
    replace hw : OnlyUnits s (if e.readsPast ((s.team e.t).warp e.fr.warp).mode
        then ((s.conflict p false).modWarp e.t e.fr.warp fun wp => wp.noteRead p).dropSector e.core p
        else (s.conflict p false).modWarp e.t e.fr.warp fun wp => wp.noteRead p) := by
      split
      · exact hw.trans (dropSector_units _ _ _)
      · exact hw
    split
    · rw [hb _ _ (.refl _)]
      exact ⟨_, _, rfl, ((modWarp_units _ _ _ _).trans (refresh_units _ _ _ _)).trans (count_units _ _ _ _ _)⟩
    · rw [lineBad_none (hb _ · hw), hb _ _ hw]
      simp only [Bool.and_false, Bool.false_eq_true, if_false]
      split
      · exact ⟨_, _, rfl, (hw.trans (refresh_units _ _ _ _)).trans (count_units _ _ _ _ _)⟩
      · split
        · exact ⟨_, _, rfl, hw.trans (roLoad_units _ _ _ _ _ _ _ _ _)⟩
        · exact ⟨_, _, rfl, hw.trans (l1Load_units _ _ _ _ _)⟩

theorem loadEach_ok (e : Env) (n : Nat) (ro : Bool) (l : List (Member × Spot)) : ∀ s : State, s.bad = [] →
    ∃ s' vs, e.loadEach s n ro l = .ok (s', vs) ∧ OnlyUnits s s' := by
  induction l with
  | nil => exact fun s _ => ⟨_, _, rfl, .refl _⟩
  | cons y l ih =>
    intro s h
    obtain ⟨s', bs, h1, h2⟩ := load1_ok e s y.2 n ro h
    obtain ⟨s'', vs, h3, h4⟩ := ih s' (h2.bad.trans h)
    exact ⟨s'', (y.1.tid, bs) :: vs, by simp [Env.loadEach, h1, h3], h2.trans h4⟩

theorem countSectors_units (e : Env) (s : State) (ro : Bool) (l : List (Member × Spot)) : OnlyUnits s (e.countSectors s ro l) := by
  unfold Env.countSectors; dsimp only; split
  · split
    · exact .refl _
    · exact (count_units _ _ _ _ _).trans (count_units _ _ _ _ _)
  · split
    · exact .refl _
    · exact (count_units _ _ _ _ _).trans (count_units _ _ _ _ _)
  · split
    · exact .refl _
    · exact (count_units _ _ _ _ _).trans (count_units _ _ _ _ _)

/-- R252: with no uncorrectable word in the package, the loads of an instruction answer. -/
theorem loadAll_ok (e : Env) (s : State) (n : Nat) (ro : Bool) (l : List (Member × Spot)) (h : s.bad = []) :
    ∃ s' vs, e.loadAll s n ro l = .ok (s', vs) ∧ OnlyUnits s s' := by
  have hc := countSectors_units e s ro l
  obtain ⟨s', vs, h1, h2⟩ := loadEach_ok e n ro l _ (hc.bad.trans h)
  exact ⟨s', vs, h1, hc.trans h2⟩

end Sys2Proof.Machine
end

