-- ==== Sys2Proof/Laws/State.lean ====
section
/-! SUPPORT. What each change of a unit leaves of State: one lemma for each field and change, and what a reader of the unit
then finds. No proof unfolds a record update. -/

namespace Sys2Proof.Machine

/-! ## modTeam: teams -/

@[simp] theorem State.modTeam_mem (s : State) (t : Nat) (f : Team → Team) : (s.modTeam t f).mem = s.mem := rfl
@[simp] theorem State.modTeam_cores (s : State) (t : Nat) (f : Team → Team) : (s.modTeam t f).cores = s.cores := rfl
@[simp] theorem State.modTeam_dies (s : State) (t : Nat) (f : Team → Team) : (s.modTeam t f).dies = s.dies := rfl
@[simp] theorem State.modTeam_teams (s : State) (t : Nat) (f : Team → Team) : (s.modTeam t f).teams = modWhere (fun x => x.id == t) f s.teams := rfl
@[simp] theorem State.modTeam_launches (s : State) (t : Nat) (f : Team → Team) : (s.modTeam t f).launches = s.launches := rfl
@[simp] theorem State.modTeam_contexts (s : State) (t : Nat) (f : Team → Team) : (s.modTeam t f).contexts = s.contexts := rfl
@[simp] theorem State.modTeam_queues (s : State) (t : Nat) (f : Team → Team) : (s.modTeam t f).queues = s.queues := rfl
@[simp] theorem State.modTeam_exacts (s : State) (t : Nat) (f : Team → Team) : (s.modTeam t f).exacts = s.exacts := rfl
@[simp] theorem State.modTeam_setCounter (s : State) (t : Nat) (f : Team → Team) : (s.modTeam t f).setCounter = s.setCounter := rfl
@[simp] theorem State.modTeam_caches (s : State) (t : Nat) (f : Team → Team) : (s.modTeam t f).caches = s.caches := rfl
@[simp] theorem State.modTeam_far (s : State) (t : Nat) (f : Team → Team) : (s.modTeam t f).far = s.far := rfl
@[simp] theorem State.modTeam_saved (s : State) (t : Nat) (f : Team → Team) : (s.modTeam t f).saved = s.saved := rfl
@[simp] theorem State.modTeam_mode (s : State) (t : Nat) (f : Team → Team) : (s.modTeam t f).mode = s.mode := rfl
@[simp] theorem State.modTeam_windows (s : State) (t : Nat) (f : Team → Team) : (s.modTeam t f).windows = s.windows := rfl
@[simp] theorem State.modTeam_vfs (s : State) (t : Nat) (f : Team → Team) : (s.modTeam t f).vfs = s.vfs := rfl
@[simp] theorem State.modTeam_links (s : State) (t : Nat) (f : Team → Team) : (s.modTeam t f).links = s.links := rfl
@[simp] theorem State.modTeam_hostUp (s : State) (t : Nat) (f : Team → Team) : (s.modTeam t f).hostUp = s.hostUp := rfl
@[simp] theorem State.modTeam_evdrop (s : State) (t : Nat) (f : Team → Team) : (s.modTeam t f).evdrop = s.evdrop := rfl
@[simp] theorem State.modTeam_pfail (s : State) (t : Nat) (f : Team → Team) : (s.modTeam t f).pfail = s.pfail := rfl
@[simp] theorem State.modTeam_hld (s : State) (t : Nat) (f : Team → Team) : (s.modTeam t f).hld = s.hld := rfl
@[simp] theorem State.modTeam_power (s : State) (t : Nat) (f : Team → Team) : (s.modTeam t f).power = s.power := rfl
@[simp] theorem State.modTeam_fw (s : State) (t : Nat) (f : Team → Team) : (s.modTeam t f).fw = s.fw := rfl
@[simp] theorem State.modTeam_msix (s : State) (t : Nat) (f : Team → Team) : (s.modTeam t f).msix = s.msix := rfl
@[simp] theorem State.modTeam_session (s : State) (t : Nat) (f : Team → Team) : (s.modTeam t f).session = s.session := rfl
@[simp] theorem State.modTeam_answers (s : State) (t : Nat) (f : Team → Team) : (s.modTeam t f).answers = s.answers := rfl
@[simp] theorem State.modTeam_bad (s : State) (t : Nat) (f : Team → Team) : (s.modTeam t f).bad = s.bad := rfl
@[simp] theorem State.modTeam_hostBad (s : State) (t : Nat) (f : Team → Team) : (s.modTeam t f).hostBad = s.hostBad := rfl
@[simp] theorem State.modTeam_cur (s : State) (t : Nat) (f : Team → Team) : (s.modTeam t f).cur = s.cur := rfl
@[simp] theorem State.modTeam_agenda (s : State) (t : Nat) (f : Team → Team) : (s.modTeam t f).agenda = s.agenda := rfl
@[simp] theorem State.modTeam_limits (s : State) (t : Nat) (f : Team → Team) : (s.modTeam t f).limits = s.limits := rfl
@[simp] theorem State.modTeam_waits (s : State) (t : Nat) (f : Team → Team) : (s.modTeam t f).waits = s.waits := rfl
@[simp] theorem State.modTeam_outbox (s : State) (t : Nat) (f : Team → Team) : (s.modTeam t f).outbox = s.outbox := rfl
@[simp] theorem State.modTeam_beat (s : State) (t : Nat) (f : Team → Team) : (s.modTeam t f).beat = s.beat := rfl
@[simp] theorem State.modTeam_free (s : State) (t : Nat) (f : Team → Team) : (s.modTeam t f).free = s.free := rfl
@[simp] theorem State.modTeam_fresh (s : State) (t : Nat) (f : Team → Team) : (s.modTeam t f).fresh = s.fresh := rfl

/-! ## modFrag: fragments -/

@[simp] theorem State.modFrag_mem (s : State) (t g : Nat) (f : Frag → Frag) : (s.modFrag t g f).mem = s.mem := rfl
@[simp] theorem State.modFrag_cores (s : State) (t g : Nat) (f : Frag → Frag) : (s.modFrag t g f).cores = s.cores := rfl
@[simp] theorem State.modFrag_dies (s : State) (t g : Nat) (f : Frag → Frag) : (s.modFrag t g f).dies = s.dies := rfl
@[simp] theorem State.modFrag_teams (s : State) (t g : Nat) (f : Frag → Frag) : (s.modFrag t g f).teams = modWhere (fun x => x.id == t) (fun tm => tm.modFrag g f) s.teams := rfl
@[simp] theorem State.modFrag_launches (s : State) (t g : Nat) (f : Frag → Frag) : (s.modFrag t g f).launches = s.launches := rfl
@[simp] theorem State.modFrag_contexts (s : State) (t g : Nat) (f : Frag → Frag) : (s.modFrag t g f).contexts = s.contexts := rfl
@[simp] theorem State.modFrag_queues (s : State) (t g : Nat) (f : Frag → Frag) : (s.modFrag t g f).queues = s.queues := rfl
@[simp] theorem State.modFrag_exacts (s : State) (t g : Nat) (f : Frag → Frag) : (s.modFrag t g f).exacts = s.exacts := rfl
@[simp] theorem State.modFrag_setCounter (s : State) (t g : Nat) (f : Frag → Frag) : (s.modFrag t g f).setCounter = s.setCounter := rfl
@[simp] theorem State.modFrag_caches (s : State) (t g : Nat) (f : Frag → Frag) : (s.modFrag t g f).caches = s.caches := rfl
@[simp] theorem State.modFrag_far (s : State) (t g : Nat) (f : Frag → Frag) : (s.modFrag t g f).far = s.far := rfl
@[simp] theorem State.modFrag_saved (s : State) (t g : Nat) (f : Frag → Frag) : (s.modFrag t g f).saved = s.saved := rfl
@[simp] theorem State.modFrag_mode (s : State) (t g : Nat) (f : Frag → Frag) : (s.modFrag t g f).mode = s.mode := rfl
@[simp] theorem State.modFrag_windows (s : State) (t g : Nat) (f : Frag → Frag) : (s.modFrag t g f).windows = s.windows := rfl
@[simp] theorem State.modFrag_vfs (s : State) (t g : Nat) (f : Frag → Frag) : (s.modFrag t g f).vfs = s.vfs := rfl
@[simp] theorem State.modFrag_links (s : State) (t g : Nat) (f : Frag → Frag) : (s.modFrag t g f).links = s.links := rfl
@[simp] theorem State.modFrag_hostUp (s : State) (t g : Nat) (f : Frag → Frag) : (s.modFrag t g f).hostUp = s.hostUp := rfl
@[simp] theorem State.modFrag_evdrop (s : State) (t g : Nat) (f : Frag → Frag) : (s.modFrag t g f).evdrop = s.evdrop := rfl
@[simp] theorem State.modFrag_pfail (s : State) (t g : Nat) (f : Frag → Frag) : (s.modFrag t g f).pfail = s.pfail := rfl
@[simp] theorem State.modFrag_hld (s : State) (t g : Nat) (f : Frag → Frag) : (s.modFrag t g f).hld = s.hld := rfl
@[simp] theorem State.modFrag_power (s : State) (t g : Nat) (f : Frag → Frag) : (s.modFrag t g f).power = s.power := rfl
@[simp] theorem State.modFrag_fw (s : State) (t g : Nat) (f : Frag → Frag) : (s.modFrag t g f).fw = s.fw := rfl
@[simp] theorem State.modFrag_msix (s : State) (t g : Nat) (f : Frag → Frag) : (s.modFrag t g f).msix = s.msix := rfl
@[simp] theorem State.modFrag_session (s : State) (t g : Nat) (f : Frag → Frag) : (s.modFrag t g f).session = s.session := rfl
@[simp] theorem State.modFrag_answers (s : State) (t g : Nat) (f : Frag → Frag) : (s.modFrag t g f).answers = s.answers := rfl
@[simp] theorem State.modFrag_bad (s : State) (t g : Nat) (f : Frag → Frag) : (s.modFrag t g f).bad = s.bad := rfl
@[simp] theorem State.modFrag_hostBad (s : State) (t g : Nat) (f : Frag → Frag) : (s.modFrag t g f).hostBad = s.hostBad := rfl
@[simp] theorem State.modFrag_cur (s : State) (t g : Nat) (f : Frag → Frag) : (s.modFrag t g f).cur = s.cur := rfl
@[simp] theorem State.modFrag_agenda (s : State) (t g : Nat) (f : Frag → Frag) : (s.modFrag t g f).agenda = s.agenda := rfl
@[simp] theorem State.modFrag_limits (s : State) (t g : Nat) (f : Frag → Frag) : (s.modFrag t g f).limits = s.limits := rfl
@[simp] theorem State.modFrag_waits (s : State) (t g : Nat) (f : Frag → Frag) : (s.modFrag t g f).waits = s.waits := rfl
@[simp] theorem State.modFrag_outbox (s : State) (t g : Nat) (f : Frag → Frag) : (s.modFrag t g f).outbox = s.outbox := rfl
@[simp] theorem State.modFrag_beat (s : State) (t g : Nat) (f : Frag → Frag) : (s.modFrag t g f).beat = s.beat := rfl
@[simp] theorem State.modFrag_free (s : State) (t g : Nat) (f : Frag → Frag) : (s.modFrag t g f).free = s.free := rfl
@[simp] theorem State.modFrag_fresh (s : State) (t g : Nat) (f : Frag → Frag) : (s.modFrag t g f).fresh = s.fresh := rfl

/-! ## modWarp: warps -/

@[simp] theorem State.modWarp_mem (s : State) (t w : Nat) (f : Warp → Warp) : (s.modWarp t w f).mem = s.mem := rfl
@[simp] theorem State.modWarp_cores (s : State) (t w : Nat) (f : Warp → Warp) : (s.modWarp t w f).cores = s.cores := rfl
@[simp] theorem State.modWarp_dies (s : State) (t w : Nat) (f : Warp → Warp) : (s.modWarp t w f).dies = s.dies := rfl
@[simp] theorem State.modWarp_teams (s : State) (t w : Nat) (f : Warp → Warp) : (s.modWarp t w f).teams = modWhere (fun x => x.id == t) (fun tm => tm.modWarp w f) s.teams := rfl
@[simp] theorem State.modWarp_launches (s : State) (t w : Nat) (f : Warp → Warp) : (s.modWarp t w f).launches = s.launches := rfl
@[simp] theorem State.modWarp_contexts (s : State) (t w : Nat) (f : Warp → Warp) : (s.modWarp t w f).contexts = s.contexts := rfl
@[simp] theorem State.modWarp_queues (s : State) (t w : Nat) (f : Warp → Warp) : (s.modWarp t w f).queues = s.queues := rfl
@[simp] theorem State.modWarp_exacts (s : State) (t w : Nat) (f : Warp → Warp) : (s.modWarp t w f).exacts = s.exacts := rfl
@[simp] theorem State.modWarp_setCounter (s : State) (t w : Nat) (f : Warp → Warp) : (s.modWarp t w f).setCounter = s.setCounter := rfl
@[simp] theorem State.modWarp_caches (s : State) (t w : Nat) (f : Warp → Warp) : (s.modWarp t w f).caches = s.caches := rfl
@[simp] theorem State.modWarp_far (s : State) (t w : Nat) (f : Warp → Warp) : (s.modWarp t w f).far = s.far := rfl
@[simp] theorem State.modWarp_saved (s : State) (t w : Nat) (f : Warp → Warp) : (s.modWarp t w f).saved = s.saved := rfl
@[simp] theorem State.modWarp_mode (s : State) (t w : Nat) (f : Warp → Warp) : (s.modWarp t w f).mode = s.mode := rfl
@[simp] theorem State.modWarp_windows (s : State) (t w : Nat) (f : Warp → Warp) : (s.modWarp t w f).windows = s.windows := rfl
@[simp] theorem State.modWarp_vfs (s : State) (t w : Nat) (f : Warp → Warp) : (s.modWarp t w f).vfs = s.vfs := rfl
@[simp] theorem State.modWarp_links (s : State) (t w : Nat) (f : Warp → Warp) : (s.modWarp t w f).links = s.links := rfl
@[simp] theorem State.modWarp_hostUp (s : State) (t w : Nat) (f : Warp → Warp) : (s.modWarp t w f).hostUp = s.hostUp := rfl
@[simp] theorem State.modWarp_evdrop (s : State) (t w : Nat) (f : Warp → Warp) : (s.modWarp t w f).evdrop = s.evdrop := rfl
@[simp] theorem State.modWarp_pfail (s : State) (t w : Nat) (f : Warp → Warp) : (s.modWarp t w f).pfail = s.pfail := rfl
@[simp] theorem State.modWarp_hld (s : State) (t w : Nat) (f : Warp → Warp) : (s.modWarp t w f).hld = s.hld := rfl
@[simp] theorem State.modWarp_power (s : State) (t w : Nat) (f : Warp → Warp) : (s.modWarp t w f).power = s.power := rfl
@[simp] theorem State.modWarp_fw (s : State) (t w : Nat) (f : Warp → Warp) : (s.modWarp t w f).fw = s.fw := rfl
@[simp] theorem State.modWarp_msix (s : State) (t w : Nat) (f : Warp → Warp) : (s.modWarp t w f).msix = s.msix := rfl
@[simp] theorem State.modWarp_session (s : State) (t w : Nat) (f : Warp → Warp) : (s.modWarp t w f).session = s.session := rfl
@[simp] theorem State.modWarp_answers (s : State) (t w : Nat) (f : Warp → Warp) : (s.modWarp t w f).answers = s.answers := rfl
@[simp] theorem State.modWarp_bad (s : State) (t w : Nat) (f : Warp → Warp) : (s.modWarp t w f).bad = s.bad := rfl
@[simp] theorem State.modWarp_hostBad (s : State) (t w : Nat) (f : Warp → Warp) : (s.modWarp t w f).hostBad = s.hostBad := rfl
@[simp] theorem State.modWarp_cur (s : State) (t w : Nat) (f : Warp → Warp) : (s.modWarp t w f).cur = s.cur := rfl
@[simp] theorem State.modWarp_agenda (s : State) (t w : Nat) (f : Warp → Warp) : (s.modWarp t w f).agenda = s.agenda := rfl
@[simp] theorem State.modWarp_limits (s : State) (t w : Nat) (f : Warp → Warp) : (s.modWarp t w f).limits = s.limits := rfl
@[simp] theorem State.modWarp_waits (s : State) (t w : Nat) (f : Warp → Warp) : (s.modWarp t w f).waits = s.waits := rfl
@[simp] theorem State.modWarp_outbox (s : State) (t w : Nat) (f : Warp → Warp) : (s.modWarp t w f).outbox = s.outbox := rfl
@[simp] theorem State.modWarp_beat (s : State) (t w : Nat) (f : Warp → Warp) : (s.modWarp t w f).beat = s.beat := rfl
@[simp] theorem State.modWarp_free (s : State) (t w : Nat) (f : Warp → Warp) : (s.modWarp t w f).free = s.free := rfl
@[simp] theorem State.modWarp_fresh (s : State) (t w : Nat) (f : Warp → Warp) : (s.modWarp t w f).fresh = s.fresh := rfl

/-! ## modLaunch: launches -/

@[simp] theorem State.modLaunch_mem (s : State) (l : Nat) (f : Launch → Launch) : (s.modLaunch l f).mem = s.mem := rfl
@[simp] theorem State.modLaunch_cores (s : State) (l : Nat) (f : Launch → Launch) : (s.modLaunch l f).cores = s.cores := rfl
@[simp] theorem State.modLaunch_dies (s : State) (l : Nat) (f : Launch → Launch) : (s.modLaunch l f).dies = s.dies := rfl
@[simp] theorem State.modLaunch_teams (s : State) (l : Nat) (f : Launch → Launch) : (s.modLaunch l f).teams = s.teams := rfl
@[simp] theorem State.modLaunch_launches (s : State) (l : Nat) (f : Launch → Launch) : (s.modLaunch l f).launches = modWhere (fun x => x.id == l) f s.launches := rfl
@[simp] theorem State.modLaunch_contexts (s : State) (l : Nat) (f : Launch → Launch) : (s.modLaunch l f).contexts = s.contexts := rfl
@[simp] theorem State.modLaunch_queues (s : State) (l : Nat) (f : Launch → Launch) : (s.modLaunch l f).queues = s.queues := rfl
@[simp] theorem State.modLaunch_exacts (s : State) (l : Nat) (f : Launch → Launch) : (s.modLaunch l f).exacts = s.exacts := rfl
@[simp] theorem State.modLaunch_setCounter (s : State) (l : Nat) (f : Launch → Launch) : (s.modLaunch l f).setCounter = s.setCounter := rfl
@[simp] theorem State.modLaunch_caches (s : State) (l : Nat) (f : Launch → Launch) : (s.modLaunch l f).caches = s.caches := rfl
@[simp] theorem State.modLaunch_far (s : State) (l : Nat) (f : Launch → Launch) : (s.modLaunch l f).far = s.far := rfl
@[simp] theorem State.modLaunch_saved (s : State) (l : Nat) (f : Launch → Launch) : (s.modLaunch l f).saved = s.saved := rfl
@[simp] theorem State.modLaunch_mode (s : State) (l : Nat) (f : Launch → Launch) : (s.modLaunch l f).mode = s.mode := rfl
@[simp] theorem State.modLaunch_windows (s : State) (l : Nat) (f : Launch → Launch) : (s.modLaunch l f).windows = s.windows := rfl
@[simp] theorem State.modLaunch_vfs (s : State) (l : Nat) (f : Launch → Launch) : (s.modLaunch l f).vfs = s.vfs := rfl
@[simp] theorem State.modLaunch_links (s : State) (l : Nat) (f : Launch → Launch) : (s.modLaunch l f).links = s.links := rfl
@[simp] theorem State.modLaunch_hostUp (s : State) (l : Nat) (f : Launch → Launch) : (s.modLaunch l f).hostUp = s.hostUp := rfl
@[simp] theorem State.modLaunch_evdrop (s : State) (l : Nat) (f : Launch → Launch) : (s.modLaunch l f).evdrop = s.evdrop := rfl
@[simp] theorem State.modLaunch_pfail (s : State) (l : Nat) (f : Launch → Launch) : (s.modLaunch l f).pfail = s.pfail := rfl
@[simp] theorem State.modLaunch_hld (s : State) (l : Nat) (f : Launch → Launch) : (s.modLaunch l f).hld = s.hld := rfl
@[simp] theorem State.modLaunch_power (s : State) (l : Nat) (f : Launch → Launch) : (s.modLaunch l f).power = s.power := rfl
@[simp] theorem State.modLaunch_fw (s : State) (l : Nat) (f : Launch → Launch) : (s.modLaunch l f).fw = s.fw := rfl
@[simp] theorem State.modLaunch_msix (s : State) (l : Nat) (f : Launch → Launch) : (s.modLaunch l f).msix = s.msix := rfl
@[simp] theorem State.modLaunch_session (s : State) (l : Nat) (f : Launch → Launch) : (s.modLaunch l f).session = s.session := rfl
@[simp] theorem State.modLaunch_answers (s : State) (l : Nat) (f : Launch → Launch) : (s.modLaunch l f).answers = s.answers := rfl
@[simp] theorem State.modLaunch_bad (s : State) (l : Nat) (f : Launch → Launch) : (s.modLaunch l f).bad = s.bad := rfl
@[simp] theorem State.modLaunch_hostBad (s : State) (l : Nat) (f : Launch → Launch) : (s.modLaunch l f).hostBad = s.hostBad := rfl
@[simp] theorem State.modLaunch_cur (s : State) (l : Nat) (f : Launch → Launch) : (s.modLaunch l f).cur = s.cur := rfl
@[simp] theorem State.modLaunch_agenda (s : State) (l : Nat) (f : Launch → Launch) : (s.modLaunch l f).agenda = s.agenda := rfl
@[simp] theorem State.modLaunch_limits (s : State) (l : Nat) (f : Launch → Launch) : (s.modLaunch l f).limits = s.limits := rfl
@[simp] theorem State.modLaunch_waits (s : State) (l : Nat) (f : Launch → Launch) : (s.modLaunch l f).waits = s.waits := rfl
@[simp] theorem State.modLaunch_outbox (s : State) (l : Nat) (f : Launch → Launch) : (s.modLaunch l f).outbox = s.outbox := rfl
@[simp] theorem State.modLaunch_beat (s : State) (l : Nat) (f : Launch → Launch) : (s.modLaunch l f).beat = s.beat := rfl
@[simp] theorem State.modLaunch_free (s : State) (l : Nat) (f : Launch → Launch) : (s.modLaunch l f).free = s.free := rfl
@[simp] theorem State.modLaunch_fresh (s : State) (l : Nat) (f : Launch → Launch) : (s.modLaunch l f).fresh = s.fresh := rfl

/-! ## modCtx: contexts -/

@[simp] theorem State.modCtx_mem (s : State) (pf num : Nat) (f : Context → Context) : (s.modCtx pf num f).mem = s.mem := rfl
@[simp] theorem State.modCtx_cores (s : State) (pf num : Nat) (f : Context → Context) : (s.modCtx pf num f).cores = s.cores := rfl
@[simp] theorem State.modCtx_dies (s : State) (pf num : Nat) (f : Context → Context) : (s.modCtx pf num f).dies = s.dies := rfl
@[simp] theorem State.modCtx_teams (s : State) (pf num : Nat) (f : Context → Context) : (s.modCtx pf num f).teams = s.teams := rfl
@[simp] theorem State.modCtx_launches (s : State) (pf num : Nat) (f : Context → Context) : (s.modCtx pf num f).launches = s.launches := rfl
@[simp] theorem State.modCtx_contexts (s : State) (pf num : Nat) (f : Context → Context) : (s.modCtx pf num f).contexts = modWhere (fun x => x.pf == pf && x.num == num) f s.contexts := rfl
@[simp] theorem State.modCtx_queues (s : State) (pf num : Nat) (f : Context → Context) : (s.modCtx pf num f).queues = s.queues := rfl
@[simp] theorem State.modCtx_exacts (s : State) (pf num : Nat) (f : Context → Context) : (s.modCtx pf num f).exacts = s.exacts := rfl
@[simp] theorem State.modCtx_setCounter (s : State) (pf num : Nat) (f : Context → Context) : (s.modCtx pf num f).setCounter = s.setCounter := rfl
@[simp] theorem State.modCtx_caches (s : State) (pf num : Nat) (f : Context → Context) : (s.modCtx pf num f).caches = s.caches := rfl
@[simp] theorem State.modCtx_far (s : State) (pf num : Nat) (f : Context → Context) : (s.modCtx pf num f).far = s.far := rfl
@[simp] theorem State.modCtx_saved (s : State) (pf num : Nat) (f : Context → Context) : (s.modCtx pf num f).saved = s.saved := rfl
@[simp] theorem State.modCtx_mode (s : State) (pf num : Nat) (f : Context → Context) : (s.modCtx pf num f).mode = s.mode := rfl
@[simp] theorem State.modCtx_windows (s : State) (pf num : Nat) (f : Context → Context) : (s.modCtx pf num f).windows = s.windows := rfl
@[simp] theorem State.modCtx_vfs (s : State) (pf num : Nat) (f : Context → Context) : (s.modCtx pf num f).vfs = s.vfs := rfl
@[simp] theorem State.modCtx_links (s : State) (pf num : Nat) (f : Context → Context) : (s.modCtx pf num f).links = s.links := rfl
@[simp] theorem State.modCtx_hostUp (s : State) (pf num : Nat) (f : Context → Context) : (s.modCtx pf num f).hostUp = s.hostUp := rfl
@[simp] theorem State.modCtx_evdrop (s : State) (pf num : Nat) (f : Context → Context) : (s.modCtx pf num f).evdrop = s.evdrop := rfl
@[simp] theorem State.modCtx_pfail (s : State) (pf num : Nat) (f : Context → Context) : (s.modCtx pf num f).pfail = s.pfail := rfl
@[simp] theorem State.modCtx_hld (s : State) (pf num : Nat) (f : Context → Context) : (s.modCtx pf num f).hld = s.hld := rfl
@[simp] theorem State.modCtx_power (s : State) (pf num : Nat) (f : Context → Context) : (s.modCtx pf num f).power = s.power := rfl
@[simp] theorem State.modCtx_fw (s : State) (pf num : Nat) (f : Context → Context) : (s.modCtx pf num f).fw = s.fw := rfl
@[simp] theorem State.modCtx_msix (s : State) (pf num : Nat) (f : Context → Context) : (s.modCtx pf num f).msix = s.msix := rfl
@[simp] theorem State.modCtx_session (s : State) (pf num : Nat) (f : Context → Context) : (s.modCtx pf num f).session = s.session := rfl
@[simp] theorem State.modCtx_answers (s : State) (pf num : Nat) (f : Context → Context) : (s.modCtx pf num f).answers = s.answers := rfl
@[simp] theorem State.modCtx_bad (s : State) (pf num : Nat) (f : Context → Context) : (s.modCtx pf num f).bad = s.bad := rfl
@[simp] theorem State.modCtx_hostBad (s : State) (pf num : Nat) (f : Context → Context) : (s.modCtx pf num f).hostBad = s.hostBad := rfl
@[simp] theorem State.modCtx_cur (s : State) (pf num : Nat) (f : Context → Context) : (s.modCtx pf num f).cur = s.cur := rfl
@[simp] theorem State.modCtx_agenda (s : State) (pf num : Nat) (f : Context → Context) : (s.modCtx pf num f).agenda = s.agenda := rfl
@[simp] theorem State.modCtx_limits (s : State) (pf num : Nat) (f : Context → Context) : (s.modCtx pf num f).limits = s.limits := rfl
@[simp] theorem State.modCtx_waits (s : State) (pf num : Nat) (f : Context → Context) : (s.modCtx pf num f).waits = s.waits := rfl
@[simp] theorem State.modCtx_outbox (s : State) (pf num : Nat) (f : Context → Context) : (s.modCtx pf num f).outbox = s.outbox := rfl
@[simp] theorem State.modCtx_beat (s : State) (pf num : Nat) (f : Context → Context) : (s.modCtx pf num f).beat = s.beat := rfl
@[simp] theorem State.modCtx_free (s : State) (pf num : Nat) (f : Context → Context) : (s.modCtx pf num f).free = s.free := rfl
@[simp] theorem State.modCtx_fresh (s : State) (pf num : Nat) (f : Context → Context) : (s.modCtx pf num f).fresh = s.fresh := rfl

/-! ## modQueue: host queues -/

@[simp] theorem State.modQueue_mem (s : State) (pf q : Nat) (f : Queue → Queue) : (s.modQueue pf q f).mem = s.mem := rfl
@[simp] theorem State.modQueue_cores (s : State) (pf q : Nat) (f : Queue → Queue) : (s.modQueue pf q f).cores = s.cores := rfl
@[simp] theorem State.modQueue_dies (s : State) (pf q : Nat) (f : Queue → Queue) : (s.modQueue pf q f).dies = s.dies := rfl
@[simp] theorem State.modQueue_teams (s : State) (pf q : Nat) (f : Queue → Queue) : (s.modQueue pf q f).teams = s.teams := rfl
@[simp] theorem State.modQueue_launches (s : State) (pf q : Nat) (f : Queue → Queue) : (s.modQueue pf q f).launches = s.launches := rfl
@[simp] theorem State.modQueue_contexts (s : State) (pf q : Nat) (f : Queue → Queue) : (s.modQueue pf q f).contexts = s.contexts := rfl
@[simp] theorem State.modQueue_queues (s : State) (pf q : Nat) (f : Queue → Queue) : (s.modQueue pf q f).queues = modWhere (fun x => x.pf == pf && x.num == q) f s.queues := rfl
@[simp] theorem State.modQueue_exacts (s : State) (pf q : Nat) (f : Queue → Queue) : (s.modQueue pf q f).exacts = s.exacts := rfl
@[simp] theorem State.modQueue_setCounter (s : State) (pf q : Nat) (f : Queue → Queue) : (s.modQueue pf q f).setCounter = s.setCounter := rfl
@[simp] theorem State.modQueue_caches (s : State) (pf q : Nat) (f : Queue → Queue) : (s.modQueue pf q f).caches = s.caches := rfl
@[simp] theorem State.modQueue_far (s : State) (pf q : Nat) (f : Queue → Queue) : (s.modQueue pf q f).far = s.far := rfl
@[simp] theorem State.modQueue_saved (s : State) (pf q : Nat) (f : Queue → Queue) : (s.modQueue pf q f).saved = s.saved := rfl
@[simp] theorem State.modQueue_mode (s : State) (pf q : Nat) (f : Queue → Queue) : (s.modQueue pf q f).mode = s.mode := rfl
@[simp] theorem State.modQueue_windows (s : State) (pf q : Nat) (f : Queue → Queue) : (s.modQueue pf q f).windows = s.windows := rfl
@[simp] theorem State.modQueue_vfs (s : State) (pf q : Nat) (f : Queue → Queue) : (s.modQueue pf q f).vfs = s.vfs := rfl
@[simp] theorem State.modQueue_links (s : State) (pf q : Nat) (f : Queue → Queue) : (s.modQueue pf q f).links = s.links := rfl
@[simp] theorem State.modQueue_hostUp (s : State) (pf q : Nat) (f : Queue → Queue) : (s.modQueue pf q f).hostUp = s.hostUp := rfl
@[simp] theorem State.modQueue_evdrop (s : State) (pf q : Nat) (f : Queue → Queue) : (s.modQueue pf q f).evdrop = s.evdrop := rfl
@[simp] theorem State.modQueue_pfail (s : State) (pf q : Nat) (f : Queue → Queue) : (s.modQueue pf q f).pfail = s.pfail := rfl
@[simp] theorem State.modQueue_hld (s : State) (pf q : Nat) (f : Queue → Queue) : (s.modQueue pf q f).hld = s.hld := rfl
@[simp] theorem State.modQueue_power (s : State) (pf q : Nat) (f : Queue → Queue) : (s.modQueue pf q f).power = s.power := rfl
@[simp] theorem State.modQueue_fw (s : State) (pf q : Nat) (f : Queue → Queue) : (s.modQueue pf q f).fw = s.fw := rfl
@[simp] theorem State.modQueue_msix (s : State) (pf q : Nat) (f : Queue → Queue) : (s.modQueue pf q f).msix = s.msix := rfl
@[simp] theorem State.modQueue_session (s : State) (pf q : Nat) (f : Queue → Queue) : (s.modQueue pf q f).session = s.session := rfl
@[simp] theorem State.modQueue_answers (s : State) (pf q : Nat) (f : Queue → Queue) : (s.modQueue pf q f).answers = s.answers := rfl
@[simp] theorem State.modQueue_bad (s : State) (pf q : Nat) (f : Queue → Queue) : (s.modQueue pf q f).bad = s.bad := rfl
@[simp] theorem State.modQueue_hostBad (s : State) (pf q : Nat) (f : Queue → Queue) : (s.modQueue pf q f).hostBad = s.hostBad := rfl
@[simp] theorem State.modQueue_cur (s : State) (pf q : Nat) (f : Queue → Queue) : (s.modQueue pf q f).cur = s.cur := rfl
@[simp] theorem State.modQueue_agenda (s : State) (pf q : Nat) (f : Queue → Queue) : (s.modQueue pf q f).agenda = s.agenda := rfl
@[simp] theorem State.modQueue_limits (s : State) (pf q : Nat) (f : Queue → Queue) : (s.modQueue pf q f).limits = s.limits := rfl
@[simp] theorem State.modQueue_waits (s : State) (pf q : Nat) (f : Queue → Queue) : (s.modQueue pf q f).waits = s.waits := rfl
@[simp] theorem State.modQueue_outbox (s : State) (pf q : Nat) (f : Queue → Queue) : (s.modQueue pf q f).outbox = s.outbox := rfl
@[simp] theorem State.modQueue_beat (s : State) (pf q : Nat) (f : Queue → Queue) : (s.modQueue pf q f).beat = s.beat := rfl
@[simp] theorem State.modQueue_free (s : State) (pf q : Nat) (f : Queue → Queue) : (s.modQueue pf q f).free = s.free := rfl
@[simp] theorem State.modQueue_fresh (s : State) (pf q : Nat) (f : Queue → Queue) : (s.modQueue pf q f).fresh = s.fresh := rfl

/-! ## modCore: cores -/

@[simp] theorem State.modCore_mem (s : State) (c : Nat) (f : Core → Core) : (s.modCore c f).mem = s.mem := rfl
@[simp] theorem State.modCore_cores (s : State) (c : Nat) (f : Core → Core) : (s.modCore c f).cores = putCore c (f (s.core c)) s.cores := rfl
@[simp] theorem State.modCore_dies (s : State) (c : Nat) (f : Core → Core) : (s.modCore c f).dies = s.dies := rfl
@[simp] theorem State.modCore_teams (s : State) (c : Nat) (f : Core → Core) : (s.modCore c f).teams = s.teams := rfl
@[simp] theorem State.modCore_launches (s : State) (c : Nat) (f : Core → Core) : (s.modCore c f).launches = s.launches := rfl
@[simp] theorem State.modCore_contexts (s : State) (c : Nat) (f : Core → Core) : (s.modCore c f).contexts = s.contexts := rfl
@[simp] theorem State.modCore_queues (s : State) (c : Nat) (f : Core → Core) : (s.modCore c f).queues = s.queues := rfl
@[simp] theorem State.modCore_exacts (s : State) (c : Nat) (f : Core → Core) : (s.modCore c f).exacts = s.exacts := rfl
@[simp] theorem State.modCore_setCounter (s : State) (c : Nat) (f : Core → Core) : (s.modCore c f).setCounter = s.setCounter := rfl
@[simp] theorem State.modCore_caches (s : State) (c : Nat) (f : Core → Core) : (s.modCore c f).caches = s.caches := rfl
@[simp] theorem State.modCore_far (s : State) (c : Nat) (f : Core → Core) : (s.modCore c f).far = s.far := rfl
@[simp] theorem State.modCore_saved (s : State) (c : Nat) (f : Core → Core) : (s.modCore c f).saved = s.saved := rfl
@[simp] theorem State.modCore_mode (s : State) (c : Nat) (f : Core → Core) : (s.modCore c f).mode = s.mode := rfl
@[simp] theorem State.modCore_windows (s : State) (c : Nat) (f : Core → Core) : (s.modCore c f).windows = s.windows := rfl
@[simp] theorem State.modCore_vfs (s : State) (c : Nat) (f : Core → Core) : (s.modCore c f).vfs = s.vfs := rfl
@[simp] theorem State.modCore_links (s : State) (c : Nat) (f : Core → Core) : (s.modCore c f).links = s.links := rfl
@[simp] theorem State.modCore_hostUp (s : State) (c : Nat) (f : Core → Core) : (s.modCore c f).hostUp = s.hostUp := rfl
@[simp] theorem State.modCore_evdrop (s : State) (c : Nat) (f : Core → Core) : (s.modCore c f).evdrop = s.evdrop := rfl
@[simp] theorem State.modCore_pfail (s : State) (c : Nat) (f : Core → Core) : (s.modCore c f).pfail = s.pfail := rfl
@[simp] theorem State.modCore_hld (s : State) (c : Nat) (f : Core → Core) : (s.modCore c f).hld = s.hld := rfl
@[simp] theorem State.modCore_power (s : State) (c : Nat) (f : Core → Core) : (s.modCore c f).power = s.power := rfl
@[simp] theorem State.modCore_fw (s : State) (c : Nat) (f : Core → Core) : (s.modCore c f).fw = s.fw := rfl
@[simp] theorem State.modCore_msix (s : State) (c : Nat) (f : Core → Core) : (s.modCore c f).msix = s.msix := rfl
@[simp] theorem State.modCore_session (s : State) (c : Nat) (f : Core → Core) : (s.modCore c f).session = s.session := rfl
@[simp] theorem State.modCore_answers (s : State) (c : Nat) (f : Core → Core) : (s.modCore c f).answers = s.answers := rfl
@[simp] theorem State.modCore_bad (s : State) (c : Nat) (f : Core → Core) : (s.modCore c f).bad = s.bad := rfl
@[simp] theorem State.modCore_hostBad (s : State) (c : Nat) (f : Core → Core) : (s.modCore c f).hostBad = s.hostBad := rfl
@[simp] theorem State.modCore_cur (s : State) (c : Nat) (f : Core → Core) : (s.modCore c f).cur = s.cur := rfl
@[simp] theorem State.modCore_agenda (s : State) (c : Nat) (f : Core → Core) : (s.modCore c f).agenda = s.agenda := rfl
@[simp] theorem State.modCore_limits (s : State) (c : Nat) (f : Core → Core) : (s.modCore c f).limits = s.limits := rfl
@[simp] theorem State.modCore_waits (s : State) (c : Nat) (f : Core → Core) : (s.modCore c f).waits = s.waits := rfl
@[simp] theorem State.modCore_outbox (s : State) (c : Nat) (f : Core → Core) : (s.modCore c f).outbox = s.outbox := rfl
@[simp] theorem State.modCore_beat (s : State) (c : Nat) (f : Core → Core) : (s.modCore c f).beat = s.beat := rfl
@[simp] theorem State.modCore_free (s : State) (c : Nat) (f : Core → Core) : (s.modCore c f).free = s.free := rfl
@[simp] theorem State.modCore_fresh (s : State) (c : Nat) (f : Core → Core) : (s.modCore c f).fresh = s.fresh := rfl

/-! ## modDie: dies -/

@[simp] theorem State.modDie_mem (s : State) (d : Nat) (f : Die → Die) : (s.modDie d f).mem = s.mem := rfl
@[simp] theorem State.modDie_cores (s : State) (d : Nat) (f : Die → Die) : (s.modDie d f).cores = s.cores := rfl
@[simp] theorem State.modDie_dies (s : State) (d : Nat) (f : Die → Die) : (s.modDie d f).dies = modNth d f s.dies := rfl
@[simp] theorem State.modDie_teams (s : State) (d : Nat) (f : Die → Die) : (s.modDie d f).teams = s.teams := rfl
@[simp] theorem State.modDie_launches (s : State) (d : Nat) (f : Die → Die) : (s.modDie d f).launches = s.launches := rfl
@[simp] theorem State.modDie_contexts (s : State) (d : Nat) (f : Die → Die) : (s.modDie d f).contexts = s.contexts := rfl
@[simp] theorem State.modDie_queues (s : State) (d : Nat) (f : Die → Die) : (s.modDie d f).queues = s.queues := rfl
@[simp] theorem State.modDie_exacts (s : State) (d : Nat) (f : Die → Die) : (s.modDie d f).exacts = s.exacts := rfl
@[simp] theorem State.modDie_setCounter (s : State) (d : Nat) (f : Die → Die) : (s.modDie d f).setCounter = s.setCounter := rfl
@[simp] theorem State.modDie_caches (s : State) (d : Nat) (f : Die → Die) : (s.modDie d f).caches = s.caches := rfl
@[simp] theorem State.modDie_far (s : State) (d : Nat) (f : Die → Die) : (s.modDie d f).far = s.far := rfl
@[simp] theorem State.modDie_saved (s : State) (d : Nat) (f : Die → Die) : (s.modDie d f).saved = s.saved := rfl
@[simp] theorem State.modDie_mode (s : State) (d : Nat) (f : Die → Die) : (s.modDie d f).mode = s.mode := rfl
@[simp] theorem State.modDie_windows (s : State) (d : Nat) (f : Die → Die) : (s.modDie d f).windows = s.windows := rfl
@[simp] theorem State.modDie_vfs (s : State) (d : Nat) (f : Die → Die) : (s.modDie d f).vfs = s.vfs := rfl
@[simp] theorem State.modDie_links (s : State) (d : Nat) (f : Die → Die) : (s.modDie d f).links = s.links := rfl
@[simp] theorem State.modDie_hostUp (s : State) (d : Nat) (f : Die → Die) : (s.modDie d f).hostUp = s.hostUp := rfl
@[simp] theorem State.modDie_evdrop (s : State) (d : Nat) (f : Die → Die) : (s.modDie d f).evdrop = s.evdrop := rfl
@[simp] theorem State.modDie_pfail (s : State) (d : Nat) (f : Die → Die) : (s.modDie d f).pfail = s.pfail := rfl
@[simp] theorem State.modDie_hld (s : State) (d : Nat) (f : Die → Die) : (s.modDie d f).hld = s.hld := rfl
@[simp] theorem State.modDie_power (s : State) (d : Nat) (f : Die → Die) : (s.modDie d f).power = s.power := rfl
@[simp] theorem State.modDie_fw (s : State) (d : Nat) (f : Die → Die) : (s.modDie d f).fw = s.fw := rfl
@[simp] theorem State.modDie_msix (s : State) (d : Nat) (f : Die → Die) : (s.modDie d f).msix = s.msix := rfl
@[simp] theorem State.modDie_session (s : State) (d : Nat) (f : Die → Die) : (s.modDie d f).session = s.session := rfl
@[simp] theorem State.modDie_answers (s : State) (d : Nat) (f : Die → Die) : (s.modDie d f).answers = s.answers := rfl
@[simp] theorem State.modDie_bad (s : State) (d : Nat) (f : Die → Die) : (s.modDie d f).bad = s.bad := rfl
@[simp] theorem State.modDie_hostBad (s : State) (d : Nat) (f : Die → Die) : (s.modDie d f).hostBad = s.hostBad := rfl
@[simp] theorem State.modDie_cur (s : State) (d : Nat) (f : Die → Die) : (s.modDie d f).cur = s.cur := rfl
@[simp] theorem State.modDie_agenda (s : State) (d : Nat) (f : Die → Die) : (s.modDie d f).agenda = s.agenda := rfl
@[simp] theorem State.modDie_limits (s : State) (d : Nat) (f : Die → Die) : (s.modDie d f).limits = s.limits := rfl
@[simp] theorem State.modDie_waits (s : State) (d : Nat) (f : Die → Die) : (s.modDie d f).waits = s.waits := rfl
@[simp] theorem State.modDie_outbox (s : State) (d : Nat) (f : Die → Die) : (s.modDie d f).outbox = s.outbox := rfl
@[simp] theorem State.modDie_beat (s : State) (d : Nat) (f : Die → Die) : (s.modDie d f).beat = s.beat := rfl
@[simp] theorem State.modDie_free (s : State) (d : Nat) (f : Die → Die) : (s.modDie d f).free = s.free := rfl
@[simp] theorem State.modDie_fresh (s : State) (d : Nat) (f : Die → Die) : (s.modDie d f).fresh = s.fresh := rfl

/-! ## modLink: links -/

@[simp] theorem State.modLink_mem (s : State) (k : Nat) (f : Link → Link) : (s.modLink k f).mem = s.mem := rfl
@[simp] theorem State.modLink_cores (s : State) (k : Nat) (f : Link → Link) : (s.modLink k f).cores = s.cores := rfl
@[simp] theorem State.modLink_dies (s : State) (k : Nat) (f : Link → Link) : (s.modLink k f).dies = s.dies := rfl
@[simp] theorem State.modLink_teams (s : State) (k : Nat) (f : Link → Link) : (s.modLink k f).teams = s.teams := rfl
@[simp] theorem State.modLink_launches (s : State) (k : Nat) (f : Link → Link) : (s.modLink k f).launches = s.launches := rfl
@[simp] theorem State.modLink_contexts (s : State) (k : Nat) (f : Link → Link) : (s.modLink k f).contexts = s.contexts := rfl
@[simp] theorem State.modLink_queues (s : State) (k : Nat) (f : Link → Link) : (s.modLink k f).queues = s.queues := rfl
@[simp] theorem State.modLink_exacts (s : State) (k : Nat) (f : Link → Link) : (s.modLink k f).exacts = s.exacts := rfl
@[simp] theorem State.modLink_setCounter (s : State) (k : Nat) (f : Link → Link) : (s.modLink k f).setCounter = s.setCounter := rfl
@[simp] theorem State.modLink_caches (s : State) (k : Nat) (f : Link → Link) : (s.modLink k f).caches = s.caches := rfl
@[simp] theorem State.modLink_far (s : State) (k : Nat) (f : Link → Link) : (s.modLink k f).far = s.far := rfl
@[simp] theorem State.modLink_saved (s : State) (k : Nat) (f : Link → Link) : (s.modLink k f).saved = s.saved := rfl
@[simp] theorem State.modLink_mode (s : State) (k : Nat) (f : Link → Link) : (s.modLink k f).mode = s.mode := rfl
@[simp] theorem State.modLink_windows (s : State) (k : Nat) (f : Link → Link) : (s.modLink k f).windows = s.windows := rfl
@[simp] theorem State.modLink_vfs (s : State) (k : Nat) (f : Link → Link) : (s.modLink k f).vfs = s.vfs := rfl
@[simp] theorem State.modLink_links (s : State) (k : Nat) (f : Link → Link) : (s.modLink k f).links = modNth k f s.links := rfl
@[simp] theorem State.modLink_hostUp (s : State) (k : Nat) (f : Link → Link) : (s.modLink k f).hostUp = s.hostUp := rfl
@[simp] theorem State.modLink_evdrop (s : State) (k : Nat) (f : Link → Link) : (s.modLink k f).evdrop = s.evdrop := rfl
@[simp] theorem State.modLink_pfail (s : State) (k : Nat) (f : Link → Link) : (s.modLink k f).pfail = s.pfail := rfl
@[simp] theorem State.modLink_hld (s : State) (k : Nat) (f : Link → Link) : (s.modLink k f).hld = s.hld := rfl
@[simp] theorem State.modLink_power (s : State) (k : Nat) (f : Link → Link) : (s.modLink k f).power = s.power := rfl
@[simp] theorem State.modLink_fw (s : State) (k : Nat) (f : Link → Link) : (s.modLink k f).fw = s.fw := rfl
@[simp] theorem State.modLink_msix (s : State) (k : Nat) (f : Link → Link) : (s.modLink k f).msix = s.msix := rfl
@[simp] theorem State.modLink_session (s : State) (k : Nat) (f : Link → Link) : (s.modLink k f).session = s.session := rfl
@[simp] theorem State.modLink_answers (s : State) (k : Nat) (f : Link → Link) : (s.modLink k f).answers = s.answers := rfl
@[simp] theorem State.modLink_bad (s : State) (k : Nat) (f : Link → Link) : (s.modLink k f).bad = s.bad := rfl
@[simp] theorem State.modLink_hostBad (s : State) (k : Nat) (f : Link → Link) : (s.modLink k f).hostBad = s.hostBad := rfl
@[simp] theorem State.modLink_cur (s : State) (k : Nat) (f : Link → Link) : (s.modLink k f).cur = s.cur := rfl
@[simp] theorem State.modLink_agenda (s : State) (k : Nat) (f : Link → Link) : (s.modLink k f).agenda = s.agenda := rfl
@[simp] theorem State.modLink_limits (s : State) (k : Nat) (f : Link → Link) : (s.modLink k f).limits = s.limits := rfl
@[simp] theorem State.modLink_waits (s : State) (k : Nat) (f : Link → Link) : (s.modLink k f).waits = s.waits := rfl
@[simp] theorem State.modLink_outbox (s : State) (k : Nat) (f : Link → Link) : (s.modLink k f).outbox = s.outbox := rfl
@[simp] theorem State.modLink_beat (s : State) (k : Nat) (f : Link → Link) : (s.modLink k f).beat = s.beat := rfl
@[simp] theorem State.modLink_free (s : State) (k : Nat) (f : Link → Link) : (s.modLink k f).free = s.free := rfl
@[simp] theorem State.modLink_fresh (s : State) (k : Nat) (f : Link → Link) : (s.modLink k f).fresh = s.fresh := rfl

/-! ## modWindow: register windows -/

@[simp] theorem State.modWindow_mem (s : State) (pf : Nat) (f : Window → Window) : (s.modWindow pf f).mem = s.mem := rfl
@[simp] theorem State.modWindow_cores (s : State) (pf : Nat) (f : Window → Window) : (s.modWindow pf f).cores = s.cores := rfl
@[simp] theorem State.modWindow_dies (s : State) (pf : Nat) (f : Window → Window) : (s.modWindow pf f).dies = s.dies := rfl
@[simp] theorem State.modWindow_teams (s : State) (pf : Nat) (f : Window → Window) : (s.modWindow pf f).teams = s.teams := rfl
@[simp] theorem State.modWindow_launches (s : State) (pf : Nat) (f : Window → Window) : (s.modWindow pf f).launches = s.launches := rfl
@[simp] theorem State.modWindow_contexts (s : State) (pf : Nat) (f : Window → Window) : (s.modWindow pf f).contexts = s.contexts := rfl
@[simp] theorem State.modWindow_queues (s : State) (pf : Nat) (f : Window → Window) : (s.modWindow pf f).queues = s.queues := rfl
@[simp] theorem State.modWindow_exacts (s : State) (pf : Nat) (f : Window → Window) : (s.modWindow pf f).exacts = s.exacts := rfl
@[simp] theorem State.modWindow_setCounter (s : State) (pf : Nat) (f : Window → Window) : (s.modWindow pf f).setCounter = s.setCounter := rfl
@[simp] theorem State.modWindow_caches (s : State) (pf : Nat) (f : Window → Window) : (s.modWindow pf f).caches = s.caches := rfl
@[simp] theorem State.modWindow_far (s : State) (pf : Nat) (f : Window → Window) : (s.modWindow pf f).far = s.far := rfl
@[simp] theorem State.modWindow_saved (s : State) (pf : Nat) (f : Window → Window) : (s.modWindow pf f).saved = s.saved := rfl
@[simp] theorem State.modWindow_mode (s : State) (pf : Nat) (f : Window → Window) : (s.modWindow pf f).mode = s.mode := rfl
@[simp] theorem State.modWindow_windows (s : State) (pf : Nat) (f : Window → Window) : (s.modWindow pf f).windows = modNth pf f s.windows := rfl
@[simp] theorem State.modWindow_vfs (s : State) (pf : Nat) (f : Window → Window) : (s.modWindow pf f).vfs = s.vfs := rfl
@[simp] theorem State.modWindow_links (s : State) (pf : Nat) (f : Window → Window) : (s.modWindow pf f).links = s.links := rfl
@[simp] theorem State.modWindow_hostUp (s : State) (pf : Nat) (f : Window → Window) : (s.modWindow pf f).hostUp = s.hostUp := rfl
@[simp] theorem State.modWindow_evdrop (s : State) (pf : Nat) (f : Window → Window) : (s.modWindow pf f).evdrop = s.evdrop := rfl
@[simp] theorem State.modWindow_pfail (s : State) (pf : Nat) (f : Window → Window) : (s.modWindow pf f).pfail = s.pfail := rfl
@[simp] theorem State.modWindow_hld (s : State) (pf : Nat) (f : Window → Window) : (s.modWindow pf f).hld = s.hld := rfl
@[simp] theorem State.modWindow_power (s : State) (pf : Nat) (f : Window → Window) : (s.modWindow pf f).power = s.power := rfl
@[simp] theorem State.modWindow_fw (s : State) (pf : Nat) (f : Window → Window) : (s.modWindow pf f).fw = s.fw := rfl
@[simp] theorem State.modWindow_msix (s : State) (pf : Nat) (f : Window → Window) : (s.modWindow pf f).msix = s.msix := rfl
@[simp] theorem State.modWindow_session (s : State) (pf : Nat) (f : Window → Window) : (s.modWindow pf f).session = s.session := rfl
@[simp] theorem State.modWindow_answers (s : State) (pf : Nat) (f : Window → Window) : (s.modWindow pf f).answers = s.answers := rfl
@[simp] theorem State.modWindow_bad (s : State) (pf : Nat) (f : Window → Window) : (s.modWindow pf f).bad = s.bad := rfl
@[simp] theorem State.modWindow_hostBad (s : State) (pf : Nat) (f : Window → Window) : (s.modWindow pf f).hostBad = s.hostBad := rfl
@[simp] theorem State.modWindow_cur (s : State) (pf : Nat) (f : Window → Window) : (s.modWindow pf f).cur = s.cur := rfl
@[simp] theorem State.modWindow_agenda (s : State) (pf : Nat) (f : Window → Window) : (s.modWindow pf f).agenda = s.agenda := rfl
@[simp] theorem State.modWindow_limits (s : State) (pf : Nat) (f : Window → Window) : (s.modWindow pf f).limits = s.limits := rfl
@[simp] theorem State.modWindow_waits (s : State) (pf : Nat) (f : Window → Window) : (s.modWindow pf f).waits = s.waits := rfl
@[simp] theorem State.modWindow_outbox (s : State) (pf : Nat) (f : Window → Window) : (s.modWindow pf f).outbox = s.outbox := rfl
@[simp] theorem State.modWindow_beat (s : State) (pf : Nat) (f : Window → Window) : (s.modWindow pf f).beat = s.beat := rfl
@[simp] theorem State.modWindow_free (s : State) (pf : Nat) (f : Window → Window) : (s.modWindow pf f).free = s.free := rfl
@[simp] theorem State.modWindow_fresh (s : State) (pf : Nat) (f : Window → Window) : (s.modWindow pf f).fresh = s.fresh := rfl

/-! ## modPower: power -/

@[simp] theorem State.modPower_mem (s : State) (f : Power → Power) : (s.modPower f).mem = s.mem := rfl
@[simp] theorem State.modPower_cores (s : State) (f : Power → Power) : (s.modPower f).cores = s.cores := rfl
@[simp] theorem State.modPower_dies (s : State) (f : Power → Power) : (s.modPower f).dies = s.dies := rfl
@[simp] theorem State.modPower_teams (s : State) (f : Power → Power) : (s.modPower f).teams = s.teams := rfl
@[simp] theorem State.modPower_launches (s : State) (f : Power → Power) : (s.modPower f).launches = s.launches := rfl
@[simp] theorem State.modPower_contexts (s : State) (f : Power → Power) : (s.modPower f).contexts = s.contexts := rfl
@[simp] theorem State.modPower_queues (s : State) (f : Power → Power) : (s.modPower f).queues = s.queues := rfl
@[simp] theorem State.modPower_exacts (s : State) (f : Power → Power) : (s.modPower f).exacts = s.exacts := rfl
@[simp] theorem State.modPower_setCounter (s : State) (f : Power → Power) : (s.modPower f).setCounter = s.setCounter := rfl
@[simp] theorem State.modPower_caches (s : State) (f : Power → Power) : (s.modPower f).caches = s.caches := rfl
@[simp] theorem State.modPower_far (s : State) (f : Power → Power) : (s.modPower f).far = s.far := rfl
@[simp] theorem State.modPower_saved (s : State) (f : Power → Power) : (s.modPower f).saved = s.saved := rfl
@[simp] theorem State.modPower_mode (s : State) (f : Power → Power) : (s.modPower f).mode = s.mode := rfl
@[simp] theorem State.modPower_windows (s : State) (f : Power → Power) : (s.modPower f).windows = s.windows := rfl
@[simp] theorem State.modPower_vfs (s : State) (f : Power → Power) : (s.modPower f).vfs = s.vfs := rfl
@[simp] theorem State.modPower_links (s : State) (f : Power → Power) : (s.modPower f).links = s.links := rfl
@[simp] theorem State.modPower_hostUp (s : State) (f : Power → Power) : (s.modPower f).hostUp = s.hostUp := rfl
@[simp] theorem State.modPower_evdrop (s : State) (f : Power → Power) : (s.modPower f).evdrop = s.evdrop := rfl
@[simp] theorem State.modPower_pfail (s : State) (f : Power → Power) : (s.modPower f).pfail = s.pfail := rfl
@[simp] theorem State.modPower_hld (s : State) (f : Power → Power) : (s.modPower f).hld = s.hld := rfl
@[simp] theorem State.modPower_power (s : State) (f : Power → Power) : (s.modPower f).power = f s.power := rfl
@[simp] theorem State.modPower_fw (s : State) (f : Power → Power) : (s.modPower f).fw = s.fw := rfl
@[simp] theorem State.modPower_msix (s : State) (f : Power → Power) : (s.modPower f).msix = s.msix := rfl
@[simp] theorem State.modPower_session (s : State) (f : Power → Power) : (s.modPower f).session = s.session := rfl
@[simp] theorem State.modPower_answers (s : State) (f : Power → Power) : (s.modPower f).answers = s.answers := rfl
@[simp] theorem State.modPower_bad (s : State) (f : Power → Power) : (s.modPower f).bad = s.bad := rfl
@[simp] theorem State.modPower_hostBad (s : State) (f : Power → Power) : (s.modPower f).hostBad = s.hostBad := rfl
@[simp] theorem State.modPower_cur (s : State) (f : Power → Power) : (s.modPower f).cur = s.cur := rfl
@[simp] theorem State.modPower_agenda (s : State) (f : Power → Power) : (s.modPower f).agenda = s.agenda := rfl
@[simp] theorem State.modPower_limits (s : State) (f : Power → Power) : (s.modPower f).limits = s.limits := rfl
@[simp] theorem State.modPower_waits (s : State) (f : Power → Power) : (s.modPower f).waits = s.waits := rfl
@[simp] theorem State.modPower_outbox (s : State) (f : Power → Power) : (s.modPower f).outbox = s.outbox := rfl
@[simp] theorem State.modPower_beat (s : State) (f : Power → Power) : (s.modPower f).beat = s.beat := rfl
@[simp] theorem State.modPower_free (s : State) (f : Power → Power) : (s.modPower f).free = s.free := rfl
@[simp] theorem State.modPower_fresh (s : State) (f : Power → Power) : (s.modPower f).fresh = s.fresh := rfl

/-! ## modFw: firmware -/

@[simp] theorem State.modFw_mem (s : State) (f : Firmware → Firmware) : (s.modFw f).mem = s.mem := rfl
@[simp] theorem State.modFw_cores (s : State) (f : Firmware → Firmware) : (s.modFw f).cores = s.cores := rfl
@[simp] theorem State.modFw_dies (s : State) (f : Firmware → Firmware) : (s.modFw f).dies = s.dies := rfl
@[simp] theorem State.modFw_teams (s : State) (f : Firmware → Firmware) : (s.modFw f).teams = s.teams := rfl
@[simp] theorem State.modFw_launches (s : State) (f : Firmware → Firmware) : (s.modFw f).launches = s.launches := rfl
@[simp] theorem State.modFw_contexts (s : State) (f : Firmware → Firmware) : (s.modFw f).contexts = s.contexts := rfl
@[simp] theorem State.modFw_queues (s : State) (f : Firmware → Firmware) : (s.modFw f).queues = s.queues := rfl
@[simp] theorem State.modFw_exacts (s : State) (f : Firmware → Firmware) : (s.modFw f).exacts = s.exacts := rfl
@[simp] theorem State.modFw_setCounter (s : State) (f : Firmware → Firmware) : (s.modFw f).setCounter = s.setCounter := rfl
@[simp] theorem State.modFw_caches (s : State) (f : Firmware → Firmware) : (s.modFw f).caches = s.caches := rfl
@[simp] theorem State.modFw_far (s : State) (f : Firmware → Firmware) : (s.modFw f).far = s.far := rfl
@[simp] theorem State.modFw_saved (s : State) (f : Firmware → Firmware) : (s.modFw f).saved = s.saved := rfl
@[simp] theorem State.modFw_mode (s : State) (f : Firmware → Firmware) : (s.modFw f).mode = s.mode := rfl
@[simp] theorem State.modFw_windows (s : State) (f : Firmware → Firmware) : (s.modFw f).windows = s.windows := rfl
@[simp] theorem State.modFw_vfs (s : State) (f : Firmware → Firmware) : (s.modFw f).vfs = s.vfs := rfl
@[simp] theorem State.modFw_links (s : State) (f : Firmware → Firmware) : (s.modFw f).links = s.links := rfl
@[simp] theorem State.modFw_hostUp (s : State) (f : Firmware → Firmware) : (s.modFw f).hostUp = s.hostUp := rfl
@[simp] theorem State.modFw_evdrop (s : State) (f : Firmware → Firmware) : (s.modFw f).evdrop = s.evdrop := rfl
@[simp] theorem State.modFw_pfail (s : State) (f : Firmware → Firmware) : (s.modFw f).pfail = s.pfail := rfl
@[simp] theorem State.modFw_hld (s : State) (f : Firmware → Firmware) : (s.modFw f).hld = s.hld := rfl
@[simp] theorem State.modFw_power (s : State) (f : Firmware → Firmware) : (s.modFw f).power = s.power := rfl
@[simp] theorem State.modFw_fw (s : State) (f : Firmware → Firmware) : (s.modFw f).fw = f s.fw := rfl
@[simp] theorem State.modFw_msix (s : State) (f : Firmware → Firmware) : (s.modFw f).msix = s.msix := rfl
@[simp] theorem State.modFw_session (s : State) (f : Firmware → Firmware) : (s.modFw f).session = s.session := rfl
@[simp] theorem State.modFw_answers (s : State) (f : Firmware → Firmware) : (s.modFw f).answers = s.answers := rfl
@[simp] theorem State.modFw_bad (s : State) (f : Firmware → Firmware) : (s.modFw f).bad = s.bad := rfl
@[simp] theorem State.modFw_hostBad (s : State) (f : Firmware → Firmware) : (s.modFw f).hostBad = s.hostBad := rfl
@[simp] theorem State.modFw_cur (s : State) (f : Firmware → Firmware) : (s.modFw f).cur = s.cur := rfl
@[simp] theorem State.modFw_agenda (s : State) (f : Firmware → Firmware) : (s.modFw f).agenda = s.agenda := rfl
@[simp] theorem State.modFw_limits (s : State) (f : Firmware → Firmware) : (s.modFw f).limits = s.limits := rfl
@[simp] theorem State.modFw_waits (s : State) (f : Firmware → Firmware) : (s.modFw f).waits = s.waits := rfl
@[simp] theorem State.modFw_outbox (s : State) (f : Firmware → Firmware) : (s.modFw f).outbox = s.outbox := rfl
@[simp] theorem State.modFw_beat (s : State) (f : Firmware → Firmware) : (s.modFw f).beat = s.beat := rfl
@[simp] theorem State.modFw_free (s : State) (f : Firmware → Firmware) : (s.modFw f).free = s.free := rfl
@[simp] theorem State.modFw_fresh (s : State) (f : Firmware → Firmware) : (s.modFw f).fresh = s.fresh := rfl

/-! ## answer: answers of the management endpoint -/

@[simp] theorem State.answer_mem (s : State) (a : Answer) : (s.answer a).mem = s.mem := rfl
@[simp] theorem State.answer_cores (s : State) (a : Answer) : (s.answer a).cores = s.cores := rfl
@[simp] theorem State.answer_dies (s : State) (a : Answer) : (s.answer a).dies = s.dies := rfl
@[simp] theorem State.answer_teams (s : State) (a : Answer) : (s.answer a).teams = s.teams := rfl
@[simp] theorem State.answer_launches (s : State) (a : Answer) : (s.answer a).launches = s.launches := rfl
@[simp] theorem State.answer_contexts (s : State) (a : Answer) : (s.answer a).contexts = s.contexts := rfl
@[simp] theorem State.answer_queues (s : State) (a : Answer) : (s.answer a).queues = s.queues := rfl
@[simp] theorem State.answer_exacts (s : State) (a : Answer) : (s.answer a).exacts = s.exacts := rfl
@[simp] theorem State.answer_setCounter (s : State) (a : Answer) : (s.answer a).setCounter = s.setCounter := rfl
@[simp] theorem State.answer_caches (s : State) (a : Answer) : (s.answer a).caches = s.caches := rfl
@[simp] theorem State.answer_far (s : State) (a : Answer) : (s.answer a).far = s.far := rfl
@[simp] theorem State.answer_saved (s : State) (a : Answer) : (s.answer a).saved = s.saved := rfl
@[simp] theorem State.answer_mode (s : State) (a : Answer) : (s.answer a).mode = s.mode := rfl
@[simp] theorem State.answer_windows (s : State) (a : Answer) : (s.answer a).windows = s.windows := rfl
@[simp] theorem State.answer_vfs (s : State) (a : Answer) : (s.answer a).vfs = s.vfs := rfl
@[simp] theorem State.answer_links (s : State) (a : Answer) : (s.answer a).links = s.links := rfl
@[simp] theorem State.answer_hostUp (s : State) (a : Answer) : (s.answer a).hostUp = s.hostUp := rfl
@[simp] theorem State.answer_evdrop (s : State) (a : Answer) : (s.answer a).evdrop = s.evdrop := rfl
@[simp] theorem State.answer_pfail (s : State) (a : Answer) : (s.answer a).pfail = s.pfail := rfl
@[simp] theorem State.answer_hld (s : State) (a : Answer) : (s.answer a).hld = s.hld := rfl
@[simp] theorem State.answer_power (s : State) (a : Answer) : (s.answer a).power = s.power := rfl
@[simp] theorem State.answer_fw (s : State) (a : Answer) : (s.answer a).fw = s.fw := rfl
@[simp] theorem State.answer_msix (s : State) (a : Answer) : (s.answer a).msix = s.msix := rfl
@[simp] theorem State.answer_session (s : State) (a : Answer) : (s.answer a).session = s.session := rfl
@[simp] theorem State.answer_answers (s : State) (a : Answer) : (s.answer a).answers = s.answers ++ [a] := rfl
@[simp] theorem State.answer_bad (s : State) (a : Answer) : (s.answer a).bad = s.bad := rfl
@[simp] theorem State.answer_hostBad (s : State) (a : Answer) : (s.answer a).hostBad = s.hostBad := rfl
@[simp] theorem State.answer_cur (s : State) (a : Answer) : (s.answer a).cur = s.cur := rfl
@[simp] theorem State.answer_agenda (s : State) (a : Answer) : (s.answer a).agenda = s.agenda := rfl
@[simp] theorem State.answer_limits (s : State) (a : Answer) : (s.answer a).limits = s.limits := rfl
@[simp] theorem State.answer_waits (s : State) (a : Answer) : (s.answer a).waits = s.waits := rfl
@[simp] theorem State.answer_outbox (s : State) (a : Answer) : (s.answer a).outbox = s.outbox := rfl
@[simp] theorem State.answer_beat (s : State) (a : Answer) : (s.answer a).beat = s.beat := rfl
@[simp] theorem State.answer_free (s : State) (a : Answer) : (s.answer a).free = s.free := rfl
@[simp] theorem State.answer_fresh (s : State) (a : Answer) : (s.answer a).fresh = s.fresh := rfl

/-! ## What a reader finds after a change -/

theorem find_modWhere_same {α : Type} {p : α → Bool} {f : α → α} (h : ∀ x, p x = true → p (f x) = true) (l : List α) :
    (modWhere p f l).find? p = (l.find? p).map f := by
  induction l with
  | nil => rfl
  | cons x l ih =>
    cases hx : p x
    · simp [modWhere, hx]; simpa [modWhere] using ih
    · simp [modWhere, hx, h x hx]

theorem find_modWhere_other {α : Type} {p q : α → Bool} {f : α → α} (h : ∀ x, p x = true → q x = false ∧ q (f x) = false)
    (l : List α) : (modWhere p f l).find? q = l.find? q := by
  induction l with
  | nil => rfl
  | cons x l ih =>
    cases hx : p x
    · simp only [modWhere, List.map_cons, hx, Bool.false_eq_true, if_false, List.find?_cons]; split
      · rfl
      · simpa [modWhere] using ih
    · obtain ⟨h1, h2⟩ := h x hx
      simp [modWhere, hx, h1, h2]; simpa [modWhere] using ih

theorem State.team?_modTeam (s : State) (t : Nat) (f : Team → Team) (h : ∀ x, (f x).id = x.id) :
    (s.modTeam t f).team? t = (s.team? t).map f :=
  find_modWhere_same (fun x hx => by simpa [h x] using hx) _

theorem State.team?_modTeam_other (s : State) {t u : Nat} (f : Team → Team) (h : ∀ x, (f x).id = x.id) (hu : u ≠ t) :
    (s.modTeam t f).team? u = s.team? u :=
  find_modWhere_other (fun x hx => by have hx : x.id = t := by simpa using hx
                                      have : ¬ t = u := fun hc => hu hc.symm
                                      simp [h x, hx, this]) _

theorem State.launch?_modLaunch (s : State) (l : Nat) (f : Launch → Launch) (h : ∀ x, (f x).id = x.id) :
    (s.modLaunch l f).launch? l = (s.launch? l).map f :=
  find_modWhere_same (fun x hx => by simpa [h x] using hx) _

theorem State.ctx?_modCtx (s : State) (pf num : Nat) (f : Context → Context) (h : ∀ x, (f x).pf = x.pf ∧ (f x).num = x.num) :
    (s.modCtx pf num f).ctx? pf num = (s.ctx? pf num).map f :=
  find_modWhere_same (fun x hx => by simpa [h x] using hx) _

theorem State.queue?_modQueue (s : State) (pf q : Nat) (f : Queue → Queue) (h : ∀ x, (f x).pf = x.pf ∧ (f x).num = x.num) :
    (s.modQueue pf q f).queue? pf q = (s.queue? pf q).map f :=
  find_modWhere_same (fun x hx => by simpa [h x] using hx) _

theorem Team.frag?_modFrag (tm : Team) (g : Nat) (f : Frag → Frag) (h : ∀ x, (f x).id = x.id) :
    (tm.modFrag g f).frag? g = (tm.frag? g).map f :=
  find_modWhere_same (fun x hx => by simpa [h x] using hx) _

theorem find_putCore (c : Nat) (k : Core) (l : List (Nat × Core)) :
    (putCore c k l).find? (fun x => x.1 == c) = some (c, k) := by
  induction l with
  | nil => simp [putCore]
  | cons x l ih =>
    obtain ⟨d, y⟩ := x
    simp only [putCore]; split
    · simp
    · split
      · simp
      · have : (d == c) = false := by simp; omega
        simp [this, ih]

theorem find_putCore_other {c d : Nat} (k : Core) (l : List (Nat × Core)) (h : d ≠ c) :
    (putCore c k l).find? (fun x => x.1 == d) = l.find? (fun x => x.1 == d) := by
  have hc : (c == d) = false := by simp; omega
  induction l with
  | nil => simp [putCore, hc]
  | cons x l ih =>
    obtain ⟨b, y⟩ := x
    simp only [putCore]; split
    · simp [List.find?_cons, hc]
    · split
      · rename_i h1; simp [hc, ← h1]
      · simp only [List.find?_cons, ih]

@[simp] theorem State.core_modCore (s : State) (c : Nat) (f : Core → Core) : (s.modCore c f).core c = f (s.core c) := by
  simp [State.core, State.modCore, find_putCore]

theorem State.core_modCore_other (s : State) {c d : Nat} (f : Core → Core) (h : d ≠ c) : (s.modCore c f).core d = s.core d := by
  simp [State.core, State.modCore, find_putCore_other _ _ h]

theorem getD_modNth {α : Type} (n k : Nat) (f : α → α) (l : List α) (a : α) :
    (modNth n f l).getD k a = if k = n ∧ n < l.length then f (l.getD k a) else l.getD k a := by
  induction l generalizing n k with
  | nil => simp [modNth]
  | cons x l ih => cases n <;> cases k <;> simp [modNth]; simpa using ih _ _

@[simp] theorem length_modNth {α : Type} (n : Nat) (f : α → α) (l : List α) : (modNth n f l).length = l.length := by
  induction l generalizing n with
  | nil => simp [modNth]
  | cons x l ih => cases n <;> simp [modNth, ih]

theorem State.die_modDie (s : State) (d e : Nat) (f : Die → Die) :
    (s.modDie d f).die e = if e = d ∧ d < s.dies.length then f (s.die e) else s.die e := getD_modNth _ _ _ _ _

theorem State.link_modLink (s : State) (k j : Nat) (f : Link → Link) :
    (s.modLink k f).link j = if j = k ∧ k < s.links.length then f (s.link j) else s.link j := getD_modNth _ _ _ _ _

theorem State.window_modWindow (s : State) (p q : Nat) (f : Window → Window) :
    (s.modWindow p f).window q = if q = p ∧ p < s.windows.length then f (s.window q) else s.window q := getD_modNth _ _ _ _ _

theorem Team.thread_modThread (tm : Team) (i j : Nat) (f : Thread → Thread) :
    (tm.modThread i f).thread j = if j = i ∧ i < tm.threads.length then f (tm.thread j) else tm.thread j := getD_modNth _ _ _ _ _

theorem Team.warp_modWarp (tm : Team) (i j : Nat) (f : Warp → Warp) :
    (tm.modWarp i f).warp j = if j = i ∧ i < tm.warps.length then f (tm.warp j) else tm.warp j := getD_modNth _ _ _ _ _

/-! ## Writes of memory and the fragment's own turn -/

@[simp] theorem State.touch_mem (s : State) (p n : Nat) : (s.touch p n).mem = s.mem := by
  unfold State.touch; split
  · dsimp only; split <;> rfl
  · rfl
@[simp] theorem State.touch_teams (s : State) (p n : Nat) : (s.touch p n).teams = s.teams := by
  unfold State.touch; split
  · dsimp only; split <;> rfl
  · rfl
@[simp] theorem State.touch_cores (s : State) (p n : Nat) : (s.touch p n).cores = s.cores := by
  unfold State.touch; split
  · dsimp only; split <;> rfl
  · rfl

/-- R7: a write of the device changes memory as `Memory.write` does, and no team and no core. -/
@[simp] theorem State.poke_mem (s : State) (p : Nat) (bs : List Byte) : (s.poke p bs).mem = s.mem.write p bs := by
  simp [State.poke]
@[simp] theorem State.poke_teams (s : State) (p : Nat) (bs : List Byte) : (s.poke p bs).teams = s.teams := by simp [State.poke]
@[simp] theorem State.poke_cores (s : State) (p : Nat) (bs : List Byte) : (s.poke p bs).cores = s.cores := by simp [State.poke]

@[simp] theorem State.count_mem (s : State) (l c ev n : Nat) : (s.count l c ev n).mem = s.mem := by
  unfold State.count; split <;> rfl
@[simp] theorem State.count_teams (s : State) (l c ev n : Nat) : (s.count l c ev n).teams = s.teams := by
  unfold State.count; split <;> rfl
@[simp] theorem State.pathTerms_mem (s : State) (t : Nat) (xs : List (Nat × Nat)) : (s.pathTerms t xs).mem = s.mem := rfl
@[simp] theorem State.park_mem (s : State) (t g : Nat) (w : Wait) : (s.park t g w).mem = s.mem := rfl
@[simp] theorem State.wake_mem (s : State) (t g : Nat) (b : Bool) : (s.wake t g b).mem = s.mem := rfl
@[simp] theorem State.release_mem (s : State) (t g : Nat) : (s.release t g).mem = s.mem := rfl

end Sys2Proof.Machine
end

