-- ==== Sys2Proof/Laws/Issue.lean ====
section
/-! SUPPORT. What the issue of an instruction can do, said once: every core instruction is `issueWith` or `branchWith` of its
effect, and these lemmas give the outcome in each case. -/

namespace Sys2Proof.Machine

variable {i : Instr} {f : Fields} {s : State} {e : Env} {b n : Env → Effect}

/-! ## The outcomes of an issue (R36, R37, R41, R243, R454) -/

/-- The fragment whose turn it is acts, its checks pass, some thread takes part and no mode of its warp holds it. -/
theorem issue_ready (h1 : s.env? = some e) (h2 : e.checks i f = none) (h3 : e.T f ≠ []) (h4 : gate e.wp.mode i f = .go) :
    issueWith i f s b = .next (e.conclude f (retOf i f e.hdr.lanes) (b e)) := by
  have h5 : (e.T f).isEmpty = false := by
    cases h : e.T f with
    | nil => exact absurd h h3
    | cons m l => rfl
  simp [issueWith, h1, Env.issue, h2, h5, h4]

theorem branch_ready (h1 : s.env? = some e) (h2 : e.checks i f = none) (h3 : e.T f ≠ []) (h4 : gate e.wp.mode i f = .go) :
    branchWith i f s n b = .next (e.conclude f (retOf i f e.hdr.lanes) (b e)) := by
  have h5 : (e.T f).isEmpty = false := by
    cases h : e.T f with
    | nil => exact absurd h h3
    | cons m l => rfl
  simp [branchWith, h1, Env.issue, h2, h5, h4]

/-- No thread takes part: nothing but the program counter and the window moves. -/
theorem issue_skip (h1 : s.env? = some e) (h2 : e.checks i f = none) (h3 : e.T f = []) :
    issueWith i f s b = .next (s.retire e { retOf i f e.hdr.lanes with var := false } .none (e.next f)) := by
  simp [issueWith, h1, Env.issue, h2, h3, Env.conclude]

theorem branch_skip (h1 : s.env? = some e) (h2 : e.checks i f = none) (h3 : e.T f = []) :
    branchWith i f s n b = .next (e.conclude f { retOf i f e.hdr.lanes with var := false } (n e)) := by
  simp [branchWith, h1, Env.issue, h2, h3]

/-- A check fails: the trap is raised. -/
theorem issue_trap {x : TrapInfo} (h1 : s.env? = some e) (h2 : e.checks i f = some x) : issueWith i f s b = .next (s.raise e x) := by
  simp [issueWith, h1, Env.issue, h2]

theorem branch_trap {x : TrapInfo} (h1 : s.env? = some e) (h2 : e.checks i f = some x) : branchWith i f s n b = .next (s.raise e x) := by
  simp [branchWith, h1, Env.issue, h2]

/-- A speculative warp pauses before the instruction. -/
theorem issue_pause (h1 : s.env? = some e) (h2 : e.checks i f = none) (h3 : e.T f ≠ []) (h4 : gate e.wp.mode i f = .pause) :
    issueWith i f s b = .next (s.park e.t e.g .pause) := by
  have h5 : (e.T f).isEmpty = false := by
    cases h : e.T f with
    | nil => exact absurd h h3
    | cons m l => rfl
  simp [issueWith, h1, Env.issue, h2, h5, h4]

/-- A transaction aborts at the instruction. -/
theorem issue_abort {c : Nat} (h1 : s.env? = some e) (h2 : e.checks i f = none) (h3 : e.T f ≠ [])
    (h4 : gate e.wp.mode i f = .abort c) :
    issueWith i f s b = .next (s.abortTx e.t e.fr.warp [{ code := c, cause := 0, user := 0 }]) := by
  have h5 : (e.T f).isEmpty = false := by
    cases h : e.T f with
    | nil => exact absurd h h3
    | cons m l => rfl
  simp [issueWith, h1, Env.issue, h2, h5, h4]

theorem issue_noIssuer (h1 : s.env? = none) : issueWith i f s b = .fault .noIssuer := by simp [issueWith, h1]
theorem branch_noIssuer (h1 : s.env? = none) : branchWith i f s n b = .fault .noIssuer := by simp [branchWith, h1]

/-- The issue of an instruction that refuses nothing: a fault only where no fragment has the turn. -/
theorem issue_next (h1 : s.env? = some e) : issueWith i f s b = .next (e.issue s i f (fun _ => .done s .none) b) := by
  simp [issueWith, h1]
theorem branch_next (h1 : s.env? = some e) : branchWith i f s n b = .next (e.issue s i f n b) := by simp [branchWith, h1]

/-! ## What retiring leaves alone (R243) -/

@[simp] theorem State.count_dies (s : State) (l c ev n : Nat) : (s.count l c ev n).dies = s.dies := by
  unfold State.count; split <;> rfl
@[simp] theorem State.count_launches (s : State) (l c ev n : Nat) : (s.count l c ev n).launches = s.launches := by
  unfold State.count; split <;> rfl
@[simp] theorem State.count_contexts (s : State) (l c ev n : Nat) : (s.count l c ev n).contexts = s.contexts := by
  unfold State.count; split <;> rfl
@[simp] theorem State.count_queues (s : State) (l c ev n : Nat) : (s.count l c ev n).queues = s.queues := by
  unfold State.count; split <;> rfl
@[simp] theorem State.count_exacts (s : State) (l c ev n : Nat) : (s.count l c ev n).exacts = s.exacts := by
  unfold State.count; split <;> rfl
@[simp] theorem State.count_setCounter (s : State) (l c ev n : Nat) : (s.count l c ev n).setCounter = s.setCounter := by
  unfold State.count; split <;> rfl
@[simp] theorem State.count_far (s : State) (l c ev n : Nat) : (s.count l c ev n).far = s.far := by
  unfold State.count; split <;> rfl
@[simp] theorem State.count_saved (s : State) (l c ev n : Nat) : (s.count l c ev n).saved = s.saved := by
  unfold State.count; split <;> rfl
@[simp] theorem State.count_mode (s : State) (l c ev n : Nat) : (s.count l c ev n).mode = s.mode := by
  unfold State.count; split <;> rfl
@[simp] theorem State.count_windows (s : State) (l c ev n : Nat) : (s.count l c ev n).windows = s.windows := by
  unfold State.count; split <;> rfl
@[simp] theorem State.count_vfs (s : State) (l c ev n : Nat) : (s.count l c ev n).vfs = s.vfs := by
  unfold State.count; split <;> rfl
@[simp] theorem State.count_links (s : State) (l c ev n : Nat) : (s.count l c ev n).links = s.links := by
  unfold State.count; split <;> rfl
@[simp] theorem State.count_hostUp (s : State) (l c ev n : Nat) : (s.count l c ev n).hostUp = s.hostUp := by
  unfold State.count; split <;> rfl
@[simp] theorem State.count_evdrop (s : State) (l c ev n : Nat) : (s.count l c ev n).evdrop = s.evdrop := by
  unfold State.count; split <;> rfl
@[simp] theorem State.count_pfail (s : State) (l c ev n : Nat) : (s.count l c ev n).pfail = s.pfail := by
  unfold State.count; split <;> rfl
@[simp] theorem State.count_hld (s : State) (l c ev n : Nat) : (s.count l c ev n).hld = s.hld := by
  unfold State.count; split <;> rfl
@[simp] theorem State.count_power (s : State) (l c ev n : Nat) : (s.count l c ev n).power = s.power := by
  unfold State.count; split <;> rfl
@[simp] theorem State.count_fw (s : State) (l c ev n : Nat) : (s.count l c ev n).fw = s.fw := by
  unfold State.count; split <;> rfl
@[simp] theorem State.count_msix (s : State) (l c ev n : Nat) : (s.count l c ev n).msix = s.msix := by
  unfold State.count; split <;> rfl
@[simp] theorem State.count_session (s : State) (l c ev n : Nat) : (s.count l c ev n).session = s.session := by
  unfold State.count; split <;> rfl
@[simp] theorem State.count_answers (s : State) (l c ev n : Nat) : (s.count l c ev n).answers = s.answers := by
  unfold State.count; split <;> rfl
@[simp] theorem State.count_bad (s : State) (l c ev n : Nat) : (s.count l c ev n).bad = s.bad := by
  unfold State.count; split <;> rfl
@[simp] theorem State.count_hostBad (s : State) (l c ev n : Nat) : (s.count l c ev n).hostBad = s.hostBad := by
  unfold State.count; split <;> rfl
@[simp] theorem State.count_agenda (s : State) (l c ev n : Nat) : (s.count l c ev n).agenda = s.agenda := by
  unfold State.count; split <;> rfl
@[simp] theorem State.count_cur (s : State) (l c ev n : Nat) : (s.count l c ev n).cur = s.cur := by
  unfold State.count; split <;> rfl
@[simp] theorem State.count_fresh (s : State) (l c ev n : Nat) : (s.count l c ev n).fresh = s.fresh := by
  unfold State.count; split <;> rfl

section retire
variable {t : State} {r : Ret} {res : Res} {pc : Nat}

@[simp] theorem State.retire_dies : (t.retire e r res pc).dies = t.dies := by
  unfold State.retire; dsimp only; split <;> split <;> simp
@[simp] theorem State.retire_launches : (t.retire e r res pc).launches = t.launches := by
  unfold State.retire; dsimp only; split <;> split <;> simp
@[simp] theorem State.retire_contexts : (t.retire e r res pc).contexts = t.contexts := by
  unfold State.retire; dsimp only; split <;> split <;> simp
@[simp] theorem State.retire_queues : (t.retire e r res pc).queues = t.queues := by
  unfold State.retire; dsimp only; split <;> split <;> simp
@[simp] theorem State.retire_exacts : (t.retire e r res pc).exacts = t.exacts := by
  unfold State.retire; dsimp only; split <;> split <;> simp
@[simp] theorem State.retire_setCounter : (t.retire e r res pc).setCounter = t.setCounter := by
  unfold State.retire; dsimp only; split <;> split <;> simp
@[simp] theorem State.retire_far : (t.retire e r res pc).far = t.far := by
  unfold State.retire; dsimp only; split <;> split <;> simp
@[simp] theorem State.retire_saved : (t.retire e r res pc).saved = t.saved := by
  unfold State.retire; dsimp only; split <;> split <;> simp
@[simp] theorem State.retire_mode : (t.retire e r res pc).mode = t.mode := by
  unfold State.retire; dsimp only; split <;> split <;> simp
@[simp] theorem State.retire_windows : (t.retire e r res pc).windows = t.windows := by
  unfold State.retire; dsimp only; split <;> split <;> simp
@[simp] theorem State.retire_vfs : (t.retire e r res pc).vfs = t.vfs := by
  unfold State.retire; dsimp only; split <;> split <;> simp
@[simp] theorem State.retire_links : (t.retire e r res pc).links = t.links := by
  unfold State.retire; dsimp only; split <;> split <;> simp
@[simp] theorem State.retire_hostUp : (t.retire e r res pc).hostUp = t.hostUp := by
  unfold State.retire; dsimp only; split <;> split <;> simp
@[simp] theorem State.retire_evdrop : (t.retire e r res pc).evdrop = t.evdrop := by
  unfold State.retire; dsimp only; split <;> split <;> simp
@[simp] theorem State.retire_pfail : (t.retire e r res pc).pfail = t.pfail := by
  unfold State.retire; dsimp only; split <;> split <;> simp
@[simp] theorem State.retire_hld : (t.retire e r res pc).hld = t.hld := by
  unfold State.retire; dsimp only; split <;> split <;> simp
@[simp] theorem State.retire_power : (t.retire e r res pc).power = t.power := by
  unfold State.retire; dsimp only; split <;> split <;> simp
@[simp] theorem State.retire_fw : (t.retire e r res pc).fw = t.fw := by
  unfold State.retire; dsimp only; split <;> split <;> simp
@[simp] theorem State.retire_msix : (t.retire e r res pc).msix = t.msix := by
  unfold State.retire; dsimp only; split <;> split <;> simp
@[simp] theorem State.retire_session : (t.retire e r res pc).session = t.session := by
  unfold State.retire; dsimp only; split <;> split <;> simp
@[simp] theorem State.retire_answers : (t.retire e r res pc).answers = t.answers := by
  unfold State.retire; dsimp only; split <;> split <;> simp
@[simp] theorem State.retire_bad : (t.retire e r res pc).bad = t.bad := by
  unfold State.retire; dsimp only; split <;> split <;> simp
@[simp] theorem State.retire_hostBad : (t.retire e r res pc).hostBad = t.hostBad := by
  unfold State.retire; dsimp only; split <;> split <;> simp
@[simp] theorem State.retire_agenda : (t.retire e r res pc).agenda = t.agenda := by
  unfold State.retire; dsimp only; split <;> split <;> simp
@[simp] theorem State.retire_cur : (t.retire e r res pc).cur = t.cur := by
  unfold State.retire; dsimp only; split <;> split <;> simp
@[simp] theorem State.retire_fresh : (t.retire e r res pc).fresh = t.fresh := by
  unfold State.retire; dsimp only; split <;> split <;> simp
@[simp] theorem State.retire_mem : (t.retire e r res pc).mem = t.mem := by
  unfold State.retire; dsimp only; split <;> split <;> simp

end retire

end Sys2Proof.Machine
end

