-- ==== Sys2Proof/Laws/Memory.lean ====
section
/-! SUPPORT. Memory: what reads give after writes, and that every operation keeps the canonical form. -/

namespace Sys2Proof.Machine

/-! ## Reading -/

theorem Memory.get_of_wfFrom {m : Memory} {lo a : Nat} (h : Memory.wfFrom lo m = true) (ha : a < lo) :
    m.get a = Memory.blank := by
  induction m generalizing lo with
  | nil => rfl
  | cons c m ih =>
    simp only [Memory.wfFrom, Bool.and_eq_true, decide_eq_true_eq] at h
    rw [Memory.get, if_neg (by omega)]
    exact ih h.2 (by omega)

/-- A write leaves every other byte. -/
theorem Memory.get_set_ne (m : Memory) {a b : Nat} (x : Byte) (h : b ≠ a) : (m.set a x).get b = m.get b := by
  induction m with
  | nil => simp only [Memory.set]; split <;> simp [Memory.get, h.symm]
  | cons c m ih =>
    obtain ⟨k, c⟩ := c
    simp only [Memory.set]
    split
    · split <;> simp [Memory.get, h.symm]
    · split
      · subst k; split <;> simp [Memory.get, h.symm]
      · simp only [Memory.get, ih]

/-- A byte reads as it was written. -/
theorem Memory.get_set_self {m : Memory} {lo : Nat} (h : Memory.wfFrom lo m = true) (a : Nat) (x : Byte) :
    (m.set a x).get a = x := by
  induction m generalizing lo with
  | nil => simp only [Memory.set]; split <;> simp_all [Memory.get]
  | cons c m ih =>
    obtain ⟨k, c⟩ := c
    simp only [Memory.wfFrom, Bool.and_eq_true, decide_eq_true_eq] at h
    have above (hk : a ≤ k) : Memory.get m a = Memory.blank := Memory.get_of_wfFrom h.2 (by omega)
    simp only [Memory.set]
    split
    · have hk : k ≠ a := by omega
      split
      · rw [Memory.get, if_neg hk, above (by omega)]; exact (‹x = _›).symm
      · simp [Memory.get]
    · split
      · split <;> simp_all [Memory.get]
      · rename_i h2
        rw [Memory.get, if_neg (Ne.symm h2)]
        exact ih h.2

/-! ## The canonical form -/

theorem Memory.wfFrom_mono {m : Memory} {a b : Nat} (h : Memory.wfFrom b m = true) (hab : a ≤ b) : Memory.wfFrom a m = true := by
  cases m with
  | nil => rfl
  | cons c m =>
    simp only [Memory.wfFrom, Bool.and_eq_true, decide_eq_true_eq] at h ⊢
    exact ⟨⟨by omega, h.1.2⟩, h.2⟩

theorem Memory.wfFrom_set {m : Memory} {lo a : Nat} (x : Byte) (h : Memory.wfFrom lo m = true) (ha : lo ≤ a) :
    Memory.wfFrom lo (m.set a x) = true := by
  induction m generalizing lo with
  | nil => simp only [Memory.set]; split <;> simp_all [Memory.wfFrom]
  | cons c m ih =>
    obtain ⟨k, c⟩ := c
    have h' := h
    simp only [Memory.wfFrom, Bool.and_eq_true, decide_eq_true_eq] at h
    simp only [Memory.set]
    split
    · split
      · exact h'
      · simp_all [Memory.wfFrom]
    · split
      · split
        · exact Memory.wfFrom_mono h.2 (by omega)
        · subst k; simp_all [Memory.wfFrom]
      · simp only [Memory.wfFrom, Bool.and_eq_true, decide_eq_true_eq]
        exact ⟨h.1, ih h.2 (by omega)⟩

theorem Memory.wfFrom_filter {m : Memory} {lo : Nat} (p : Host.Cell → Bool) (h : Memory.wfFrom lo m = true) :
    Memory.wfFrom lo (m.filter p) = true := by
  induction m generalizing lo with
  | nil => rfl
  | cons c m ih =>
    have h' := h
    simp only [Memory.wfFrom, Bool.and_eq_true, decide_eq_true_eq] at h
    rw [List.filter_cons]
    split
    · simp only [Memory.wfFrom, Bool.and_eq_true, decide_eq_true_eq]
      exact ⟨h.1, ih h.2⟩
    · exact Memory.wfFrom_mono (ih h.2) (by omega)

@[simp] theorem Memory.wf_nil : Memory.wf [] = true := rfl

@[simp] theorem Memory.wf_set {m : Memory} (a : Nat) (x : Byte) (h : m.wf = true) : (m.set a x).wf = true :=
  Memory.wfFrom_set x h (Nat.zero_le a)

@[simp] theorem Memory.wf_filter {m : Memory} (p : Host.Cell → Bool) (h : m.wf = true) : Memory.wf (m.filter p) = true :=
  Memory.wfFrom_filter p h

@[simp] theorem Memory.wf_write {m : Memory} (a : Nat) (bs : List Byte) (h : m.wf = true) : (m.write a bs).wf = true := by
  induction bs generalizing m a with
  | nil => exact h
  | cons b bs ih => exact ih (a + 1) (Memory.wf_set a b h)

@[simp] theorem Memory.wf_clear {m : Memory} (a n : Nat) (h : m.wf = true) : (m.clear a n).wf = true := Memory.wf_filter _ h

@[simp] theorem Memory.wf_slice {m : Memory} (a n : Nat) (h : m.wf = true) : (m.slice a n).wf = true := Memory.wf_filter _ h

theorem Memory.wf_foldl {α : Type} {f : Memory → α → Memory} (hf : ∀ m x, m.wf = true → (f m x).wf = true) (l : List α)
    {m : Memory} (h : m.wf = true) : (l.foldl f m).wf = true := by
  induction l generalizing m with
  | nil => exact h
  | cons x l ih => exact ih (hf m x h)

@[simp] theorem Memory.wf_restore {m : Memory} (a n : Nat) (cells : Memory) (h : m.wf = true) : (m.restore a n cells).wf = true :=
  Memory.wf_foldl (fun _ _ => Memory.wf_set _ _) cells (Memory.wf_clear a n h)

@[simp] theorem Memory.wf_copy {m : Memory} (src dst n : Nat) (h : m.wf = true) : (m.copy src dst n).wf = true :=
  Memory.wf_foldl (fun _ _ => Memory.wf_set _ _) _ (Memory.wf_clear dst n h)

/-! ## Reading after a write of several bytes -/

theorem Memory.get_write_out (m : Memory) {a b : Nat} (bs : List Byte) (h : b < a ∨ a + bs.length ≤ b) :
    (m.write a bs).get b = m.get b := by
  induction bs generalizing m a with
  | nil => rfl
  | cons x bs ih =>
    simp only [List.length_cons] at h
    rw [Memory.write, ih _ (by omega), Memory.get_set_ne _ _ (by omega)]

theorem Memory.get_write_in {m : Memory} (a i : Nat) (bs : List Byte) (hm : m.wf = true) (h : i < bs.length) :
    (m.write a bs).get (a + i) = bs[i] := by
  induction bs generalizing m a i with
  | nil => exact absurd h (by simp)
  | cons x bs ih =>
    rw [Memory.write]
    cases i with
    | zero => rw [Memory.get_write_out _ _ (by omega)]; exact Memory.get_set_self hm a x
    | succ i =>
      have := ih (a := a + 1) i (m := m.set a x) (Memory.wf_set a x hm) (by simpa using h)
      rw [show a + (i + 1) = a + 1 + i by omega, this]; rfl

theorem Memory.bytes_length (m : Memory) (a n : Nat) : (m.bytes a n).length = n := by
  induction n generalizing a with
  | zero => rfl
  | succ n ih => simp [Memory.bytes, ih]

theorem leBytes_length (n v : Nat) : (leBytes n v).length = n := by
  induction n generalizing v with
  | zero => rfl
  | succ n ih => simp [leBytes, ih]

end Sys2Proof.Machine
end

