-- ==== Sys2Proof/Laws/Keep.lean ====
section
/-! SUPPORT. What every operation keeps: the canonical form of memory, and the anti-rollback floor of R397, which no
operation lowers. `Held c n s` says both of a state, `T.Held` of each kind of answer that carries states. -/

namespace Sys2Proof.Machine

/-- What every step keeps: the canonical form of memory (if `c`), and a floor of at least `n` (R397). -/
def Cells (c : Bool) (n : Nat) (m : Memory) (f : Firmware) : Prop := (c = true → m.wf = true) ∧ n ≤ f.floor
def Held (c : Bool) (n : Nat) (s : State) : Prop := Cells c n s.mem s.fw
variable {c₀ : Bool} {n₀ : Nat} {s : State} {m : Memory} {f : Firmware}

@[simp] theorem Memory.wf_putBack {m : Memory} (l : List (Nat × Nat)) (src dst : Nat) (h : m.wf = true) :
    (m.putBack l src dst).wf = true := by
  refine Memory.wf_foldl (fun n x hn => ?_) l (Memory.wf_copy _ _ _ h)
  dsimp only
  split
  · exact Memory.wf_write _ _ hn
  · exact hn

theorem Held.cells (h : Held c₀ n₀ s) : Cells c₀ n₀ s.mem s.fw := h
theorem Cells.write (h : Cells c₀ n₀ m f) (a : Nat) (bs : List Byte) : Cells c₀ n₀ (m.write a bs) f := ⟨fun hc => Memory.wf_write _ _ (h.1 hc), h.2⟩
theorem Cells.set (h : Cells c₀ n₀ m f) (a : Nat) (x : Byte) : Cells c₀ n₀ (m.set a x) f := ⟨fun hc => Memory.wf_set _ _ (h.1 hc), h.2⟩
theorem Cells.clear (h : Cells c₀ n₀ m f) (a n : Nat) : Cells c₀ n₀ (m.clear a n) f := ⟨fun hc => Memory.wf_clear _ _ (h.1 hc), h.2⟩
theorem Cells.copy (h : Cells c₀ n₀ m f) (a b n : Nat) : Cells c₀ n₀ (m.copy a b n) f := ⟨fun hc => Memory.wf_copy _ _ _ (h.1 hc), h.2⟩
theorem Cells.restore (h : Cells c₀ n₀ m f) (a n : Nat) (x : Memory) : Cells c₀ n₀ (m.restore a n x) f :=
  ⟨fun hc => Memory.wf_restore _ _ _ (h.1 hc), h.2⟩
theorem Cells.putBack (h : Cells c₀ n₀ m f) (l : List (Nat × Nat)) (a b : Nat) : Cells c₀ n₀ (m.putBack l a b) f :=
  ⟨fun hc => Memory.wf_putBack _ _ _ (h.1 hc), h.2⟩
theorem Cells.filter (h : Cells c₀ n₀ m f) (p : Host.Cell → Bool) : Cells c₀ n₀ (m.filter p) f := ⟨fun hc => Memory.wf_filter _ (h.1 hc), h.2⟩
theorem Cells.fold {α : Type} {g : Memory → α → Memory} (h : Cells c₀ n₀ m f) (hg : ∀ m x, Cells c₀ n₀ m f → Cells c₀ n₀ (g m x) f)
    (l : List α) : Cells c₀ n₀ (l.foldl g m) f := by
  induction l generalizing m with
  | nil => exact h
  | cons x l ih => exact ih (hg m x h)

theorem Held.of_cells (h : Cells c₀ n₀ s.mem s.fw) : Held c₀ n₀ s := h

theorem foldl_held {α : Type} {g : State → α → State} (hg : ∀ s x, Held c₀ n₀ s → Held c₀ n₀ (g s x)) (l : List α)
    (h : Held c₀ n₀ s) : Held c₀ n₀ (l.foldl g s) := by
  induction l generalizing s with
  | nil => exact h
  | cons x l ih => exact ih (hg s x h)

def Xlate.Held (c : Bool) (n : Nat) : Xlate → Prop
  | .ok s _ _ _ _ => Machine.Held c n s
  | .fault s _ => Machine.Held c n s
  | .pool s => Machine.Held c n s
  | .asked s _ => Machine.Held c n s
  | _ => True

theorem Xlate.Held.ok {p o b z : Nat} (h : Machine.Held c₀ n₀ s) : (Xlate.ok s p o b z).Held c₀ n₀ := h
theorem Xlate.Held.fault {a : Nat} (h : Machine.Held c₀ n₀ s) : (Xlate.fault s a).Held c₀ n₀ := h
theorem Xlate.Held.pool (h : Machine.Held c₀ n₀ s) : (Xlate.pool s).Held c₀ n₀ := h
theorem Xlate.Held.asked {a : Nat} (h : Machine.Held c₀ n₀ s) : (Xlate.asked s a).Held c₀ n₀ := h

def Found.Held (c : Bool) (n : Nat) : Found → Prop
  | .ok s _ => Machine.Held c n s
  | .fault s _ _ => Machine.Held c n s
  | .wait s _ _ _ => Machine.Held c n s
  | .bad _ => True
theorem Found.Held.ok {x : Spot} (h : Machine.Held c₀ n₀ s) : (Found.ok s x).Held c₀ n₀ := h
theorem Found.Held.fault {a b : Nat} (h : Machine.Held c₀ n₀ s) : (Found.fault s a b).Held c₀ n₀ := h
theorem Found.Held.wait {a b d : Nat} (h : Machine.Held c₀ n₀ s) : (Found.wait s a b d).Held c₀ n₀ := h

def Looked.Held (c : Bool) (n : Nat) : Looked → Prop
  | .ok s _ => Machine.Held c n s
  | .fault s _ _ => Machine.Held c n s
  | .wait s _ _ _ => Machine.Held c n s
  | .abort s _ => Machine.Held c n s
  | .bad _ => True
theorem Looked.Held.ok {x : Nat} (h : Machine.Held c₀ n₀ s) : (Looked.ok s x).Held c₀ n₀ := h
theorem Looked.Held.fault {a b : Nat} (h : Machine.Held c₀ n₀ s) : (Looked.fault s a b).Held c₀ n₀ := h
theorem Looked.Held.wait {a b d : Nat} (h : Machine.Held c₀ n₀ s) : (Looked.wait s a b d).Held c₀ n₀ := h
theorem Looked.Held.abort {a : Nat} (h : Machine.Held c₀ n₀ s) : (Looked.abort s a).Held c₀ n₀ := h

def Effect.Held (c : Bool) (n : Nat) : Effect → Prop
  | .done s _ => Machine.Held c n s
  | .jump s _ _ => Machine.Held c n s
  | .trap s _ => Machine.Held c n s
  | .wait s _ => Machine.Held c n s
  | .hold s _ => Machine.Held c n s
  | .abort s _ _ => Machine.Held c n s
  | .placed s => Machine.Held c n s
theorem Effect.Held.done {r : Res} (h : Machine.Held c₀ n₀ s) : (Effect.done s r).Held c₀ n₀ := h
theorem Effect.Held.jump {r : Res} {a : Nat} (h : Machine.Held c₀ n₀ s) : (Effect.jump s r a).Held c₀ n₀ := h
theorem Effect.Held.trap {x : TrapInfo} (h : Machine.Held c₀ n₀ s) : (Effect.trap s x).Held c₀ n₀ := h
theorem Effect.Held.wait {x : Wait} (h : Machine.Held c₀ n₀ s) : (Effect.wait s x).Held c₀ n₀ := h
theorem Effect.Held.hold {x : Wait} (h : Machine.Held c₀ n₀ s) : (Effect.hold s x).Held c₀ n₀ := h
theorem Effect.Held.abort {a b : Nat} (h : Machine.Held c₀ n₀ s) : (Effect.abort s a b).Held c₀ n₀ := h
theorem Effect.Held.placed (h : Machine.Held c₀ n₀ s) : (Effect.placed s).Held c₀ n₀ := h

def FetchResult.Held (c : Bool) (n : Nat) : FetchResult → Prop
  | .words s _ => Machine.Held c n s
  | .trap s _ => Machine.Held c n s
  | .wait s _ => Machine.Held c n s
  | .bad _ => True
theorem FetchResult.Held.words {x : List Word} (h : Machine.Held c₀ n₀ s) : (FetchResult.words s x).Held c₀ n₀ := h
theorem FetchResult.Held.trap {x : TrapInfo} (h : Machine.Held c₀ n₀ s) : (FetchResult.trap s x).Held c₀ n₀ := h
theorem FetchResult.Held.wait {x : Wait} (h : Machine.Held c₀ n₀ s) : (FetchResult.wait s x).Held c₀ n₀ := h

def Fetched.Held (c : Bool) (n : Nat) : Fetched → Prop
  | .done s => Machine.Held c n s
  | .run s _ => Machine.Held c n s
theorem Fetched.Held.done (h : Machine.Held c₀ n₀ s) : (Fetched.done s).Held c₀ n₀ := h
theorem Fetched.Held.run {i : Instr} (h : Machine.Held c₀ n₀ s) : (Fetched.run s i).Held c₀ n₀ := h

def Targets.Held (c : Bool) (n : Nat) : Targets → Prop
  | .ok s _ => Machine.Held c n s
  | .faults s _ => Machine.Held c n s
  | .wait s _ => Machine.Held c n s
  | .abort s _ => Machine.Held c n s
  | .bad _ => True
theorem Targets.Held.ok {x : List (Nat × Nat)} (h : Machine.Held c₀ n₀ s) : (Targets.ok s x).Held c₀ n₀ := h
theorem Targets.Held.faults {x : List (Nat × Nat × Nat)} (h : Machine.Held c₀ n₀ s) : (Targets.faults s x).Held c₀ n₀ := h
theorem Targets.Held.wait {x : Nat × Nat × Nat} (h : Machine.Held c₀ n₀ s) : (Targets.wait s x).Held c₀ n₀ := h
theorem Targets.Held.abort {a : Nat} (h : Machine.Held c₀ n₀ s) : (Targets.abort s a).Held c₀ n₀ := h

def Claimed.Held (c : Bool) (n : Nat) : Claimed → Prop
  | .ok s _ => Machine.Held c n s
  | .fault s _ => Machine.Held c n s
  | .wait s _ => Machine.Held c n s
  | .busy | .bad _ => True
theorem Claimed.Held.ok {a : Nat} (h : Machine.Held c₀ n₀ s) : (Claimed.ok s a).Held c₀ n₀ := h
theorem Claimed.Held.fault {a : Nat} (h : Machine.Held c₀ n₀ s) : (Claimed.fault s a).Held c₀ n₀ := h
theorem Claimed.Held.wait {a : Wait} (h : Machine.Held c₀ n₀ s) : (Claimed.wait s a).Held c₀ n₀ := h

def Admitted.Held (c : Bool) (n : Nat) : Admitted → Prop
  | .ok s _ => Machine.Held c n s
  | .refused s _ => Machine.Held c n s
  | .waits s => Machine.Held c n s
theorem Admitted.Held.ok {a : Launch} (h : Machine.Held c₀ n₀ s) : (Admitted.ok s a).Held c₀ n₀ := h
theorem Admitted.Held.refused {a : Nat} (h : Machine.Held c₀ n₀ s) : (Admitted.refused s a).Held c₀ n₀ := h
theorem Admitted.Held.waits (h : Machine.Held c₀ n₀ s) : (Admitted.waits s).Held c₀ n₀ := h

def Ringed.Held (c : Bool) (n : Nat) : Ringed → Prop
  | .written s _ => Machine.Held c n s
  | .dropped s => Machine.Held c n s
  | .waits s => Machine.Held c n s
theorem Ringed.Held.written {r : Ring} (h : Machine.Held c₀ n₀ s) : (Ringed.written s r).Held c₀ n₀ := h
theorem Ringed.Held.dropped (h : Machine.Held c₀ n₀ s) : (Ringed.dropped s).Held c₀ n₀ := h
theorem Ringed.Held.waits (h : Machine.Held c₀ n₀ s) : (Ringed.waits s).Held c₀ n₀ := h

def Denied.Held (c : Bool) (n : Nat) : Denied → Prop
  | .fault s _ => Machine.Held c n s
  | .wait s => Machine.Held c n s
theorem Denied.Held.fault {k : Nat} (h : Machine.Held c₀ n₀ s) : (Denied.fault s k).Held c₀ n₀ := h
theorem Denied.Held.wait (h : Machine.Held c₀ n₀ s) : (Denied.wait s).Held c₀ n₀ := h

/-- An answer of the device's own request: a result that `p` holds of, or a stop whose state keeps it. -/
def Ans {α : Type} (c : Bool) (n : Nat) (p : α → Prop) : Except Denied α → Prop
  | .ok a => p a
  | .error d => d.Held c n
theorem Ans.ok {α : Type} {p : α → Prop} {a : α} (h : p a) : Ans c₀ n₀ p (.ok a) := h
theorem Ans.error {α : Type} {p : α → Prop} {d : Denied} (h : d.Held c₀ n₀) : Ans c₀ n₀ p (.error d) := h
theorem Ans.of_ok {α : Type} {p : α → Prop} {x : Except Denied α} {a : α} (h : Ans c₀ n₀ p x) (eq₀ : x = .ok a) : p a := by
  rw [eq₀] at h; exact h
theorem Ans.of_error {α : Type} {p : α → Prop} {x : Except Denied α} {d : Denied} (h : Ans c₀ n₀ p x) (eq₀ : x = .error d) :
    d.Held c₀ n₀ := by
  rw [eq₀] at h; exact h
theorem Ans.of_fault {α : Type} {p : α → Prop} {x : Except Denied α} {k : Nat} (h : Ans c₀ n₀ p x)
    (eq₀ : x = .error (.fault s k)) : Machine.Held c₀ n₀ s := by
  rw [eq₀] at h; exact h
theorem Ans.of_wait {α : Type} {p : α → Prop} {x : Except Denied α} (h : Ans c₀ n₀ p x) (eq₀ : x = .error (.wait s)) :
    Machine.Held c₀ n₀ s := by
  rw [eq₀] at h; exact h
theorem Ans.bind {α β : Type} {p : α → Prop} {q : β → Prop} {x : Except Denied α} {f : α → Except Denied β}
    (h : Ans c₀ n₀ p x) (hf : ∀ a, p a → Ans c₀ n₀ q (f a)) : Ans c₀ n₀ q (x.bind f) := by
  cases x with
  | error d => exact h
  | ok a => exact hf a h
theorem Denied.Held.state {d : Denied} (h : d.Held c₀ n₀) : Machine.Held c₀ n₀ d.state := by
  cases d <;> exact h
/-- Its result is a state that keeps it. -/
abbrev AnsS (c : Bool) (n : Nat) (x : Except Denied State) : Prop := Ans c n (Held c n) x
/-- Its result carries a state that keeps it. -/
abbrev AnsP {α : Type} (c : Bool) (n : Nat) (x : Except Denied (State × α)) : Prop := Ans c n (fun y => Held c n y.1) x
/-- Its result carries no state. -/
abbrev AnsN {α : Type} (c : Bool) (n : Nat) (x : Except Denied α) : Prop := Ans c n (fun _ => True) x

/-- The same of an outcome that is a next state. -/
def Out (c : Bool) (n : Nat) : Host.Outcome State Fault Refusal → Prop
  | .next s => Held c n s
  | _ => True
theorem Out.next (h : Held c₀ n₀ s) : Out c₀ n₀ (.next s) := h

def Eng.Held {α : Type} (c : Bool) (n : Nat) : Eng α → Prop
  | .ok s _ => Machine.Held c n s
  | .fault s _ => Machine.Held c n s
  | .stay s _ _ => Machine.Held c n s
  | .bad s _ => Machine.Held c n s
theorem Eng.Held.ok {α : Type} {x : α} (h : Machine.Held c₀ n₀ s) : (Eng.ok s x).Held c₀ n₀ := h
theorem Eng.Held.fault {α : Type} {a : Nat} (h : Machine.Held c₀ n₀ s) : (Eng.fault s a : Eng α).Held c₀ n₀ := h
theorem Eng.Held.stay {α : Type} {a b : Nat} (h : Machine.Held c₀ n₀ s) : (Eng.stay s a b : Eng α).Held c₀ n₀ := h
theorem Eng.Held.bad {α : Type} {a : Nat} (h : Machine.Held c₀ n₀ s) : (Eng.bad s a : Eng α).Held c₀ n₀ := h
theorem Eng.bind_held {α β : Type} {x : Eng α} {f : State → α → Eng β} (hx : x.Held c₀ n₀)
    (hf : ∀ s a, Machine.Held c₀ n₀ s → (f s a).Held c₀ n₀) : (x.bind f).Held c₀ n₀ := by
  cases x <;> first | exact hf _ _ hx | exact hx

theorem Xlate.Held.of_ok {x₀ : Xlate} {p o b z : Nat} (h : x₀.Held c₀ n₀) (eq₀ : x₀ = .ok s p o b z) : Machine.Held c₀ n₀ s := by
  rw [eq₀] at h; exact h
theorem Xlate.Held.of_fault {x₀ : Xlate} {a : Nat} (h : x₀.Held c₀ n₀) (eq₀ : x₀ = .fault s a) : Machine.Held c₀ n₀ s := by
  rw [eq₀] at h; exact h
theorem Xlate.Held.of_pool {x₀ : Xlate}  (h : x₀.Held c₀ n₀) (eq₀ : x₀ = .pool s ) : Machine.Held c₀ n₀ s := by
  rw [eq₀] at h; exact h
theorem Xlate.Held.of_asked {x₀ : Xlate} {a : Nat} (h : x₀.Held c₀ n₀) (eq₀ : x₀ = .asked s a) : Machine.Held c₀ n₀ s := by
  rw [eq₀] at h; exact h
theorem Found.Held.of_ok {x₀ : Found} {x : Spot} (h : x₀.Held c₀ n₀) (eq₀ : x₀ = .ok s x) : Machine.Held c₀ n₀ s := by
  rw [eq₀] at h; exact h
theorem Found.Held.of_fault {x₀ : Found} {a b : Nat} (h : x₀.Held c₀ n₀) (eq₀ : x₀ = .fault s a b) : Machine.Held c₀ n₀ s := by
  rw [eq₀] at h; exact h
theorem Found.Held.of_wait {x₀ : Found} {a b d : Nat} (h : x₀.Held c₀ n₀) (eq₀ : x₀ = .wait s a b d) : Machine.Held c₀ n₀ s := by
  rw [eq₀] at h; exact h
theorem Looked.Held.of_ok {x₀ : Looked} {x : Nat} (h : x₀.Held c₀ n₀) (eq₀ : x₀ = .ok s x) : Machine.Held c₀ n₀ s := by
  rw [eq₀] at h; exact h
theorem Looked.Held.of_fault {x₀ : Looked} {a b : Nat} (h : x₀.Held c₀ n₀) (eq₀ : x₀ = .fault s a b) : Machine.Held c₀ n₀ s := by
  rw [eq₀] at h; exact h
theorem Looked.Held.of_wait {x₀ : Looked} {a b d : Nat} (h : x₀.Held c₀ n₀) (eq₀ : x₀ = .wait s a b d) : Machine.Held c₀ n₀ s := by
  rw [eq₀] at h; exact h
theorem Looked.Held.of_abort {x₀ : Looked} {a : Nat} (h : x₀.Held c₀ n₀) (eq₀ : x₀ = .abort s a) : Machine.Held c₀ n₀ s := by
  rw [eq₀] at h; exact h
theorem Targets.Held.of_ok {x₀ : Targets} {x : List (Nat × Nat)} (h : x₀.Held c₀ n₀) (eq₀ : x₀ = .ok s x) : Machine.Held c₀ n₀ s := by
  rw [eq₀] at h; exact h
theorem Targets.Held.of_faults {x₀ : Targets} {x : List (Nat × Nat × Nat)} (h : x₀.Held c₀ n₀) (eq₀ : x₀ = .faults s x) :
    Machine.Held c₀ n₀ s := by
  rw [eq₀] at h; exact h
theorem Targets.Held.of_wait {x₀ : Targets} {x : Nat × Nat × Nat} (h : x₀.Held c₀ n₀) (eq₀ : x₀ = .wait s x) :
    Machine.Held c₀ n₀ s := by
  rw [eq₀] at h; exact h
theorem Targets.Held.of_abort {x₀ : Targets} {a : Nat} (h : x₀.Held c₀ n₀) (eq₀ : x₀ = .abort s a) : Machine.Held c₀ n₀ s := by
  rw [eq₀] at h; exact h
theorem FetchResult.Held.of_words {x₀ : FetchResult} {x : List Word} (h : x₀.Held c₀ n₀) (eq₀ : x₀ = .words s x) : Machine.Held c₀ n₀ s := by
  rw [eq₀] at h; exact h
theorem FetchResult.Held.of_trap {x₀ : FetchResult} {x : TrapInfo} (h : x₀.Held c₀ n₀) (eq₀ : x₀ = .trap s x) : Machine.Held c₀ n₀ s := by
  rw [eq₀] at h; exact h
theorem FetchResult.Held.of_wait {x₀ : FetchResult} {x : Wait} (h : x₀.Held c₀ n₀) (eq₀ : x₀ = .wait s x) : Machine.Held c₀ n₀ s := by
  rw [eq₀] at h; exact h
theorem Fetched.Held.of_done {x₀ : Fetched}  (h : x₀.Held c₀ n₀) (eq₀ : x₀ = .done s ) : Machine.Held c₀ n₀ s := by
  rw [eq₀] at h; exact h
theorem Fetched.Held.of_run {x₀ : Fetched} {i : Instr} (h : x₀.Held c₀ n₀) (eq₀ : x₀ = .run s i) : Machine.Held c₀ n₀ s := by
  rw [eq₀] at h; exact h
theorem Claimed.Held.of_ok {x₀ : Claimed} {a : Nat} (h : x₀.Held c₀ n₀) (eq₀ : x₀ = .ok s a) : Machine.Held c₀ n₀ s := by
  rw [eq₀] at h; exact h
theorem Claimed.Held.of_fault {x₀ : Claimed} {a : Nat} (h : x₀.Held c₀ n₀) (eq₀ : x₀ = .fault s a) : Machine.Held c₀ n₀ s := by
  rw [eq₀] at h; exact h
theorem Claimed.Held.of_wait {x₀ : Claimed} {a : Wait} (h : x₀.Held c₀ n₀) (eq₀ : x₀ = .wait s a) : Machine.Held c₀ n₀ s := by
  rw [eq₀] at h; exact h
theorem Admitted.Held.of_ok {x₀ : Admitted} {a : Launch} (h : x₀.Held c₀ n₀) (eq₀ : x₀ = .ok s a) : Machine.Held c₀ n₀ s := by
  rw [eq₀] at h; exact h
theorem Admitted.Held.of_refused {x₀ : Admitted} {a : Nat} (h : x₀.Held c₀ n₀) (eq₀ : x₀ = .refused s a) : Machine.Held c₀ n₀ s := by
  rw [eq₀] at h; exact h
theorem Admitted.Held.of_waits {x₀ : Admitted} (h : x₀.Held c₀ n₀) (eq₀ : x₀ = .waits s) : Machine.Held c₀ n₀ s := by
  rw [eq₀] at h; exact h
theorem Ringed.Held.of_written {x₀ : Ringed} {r : Ring} (h : x₀.Held c₀ n₀) (eq₀ : x₀ = .written s r) : Machine.Held c₀ n₀ s := by
  rw [eq₀] at h; exact h
theorem Ringed.Held.of_dropped {x₀ : Ringed} (h : x₀.Held c₀ n₀) (eq₀ : x₀ = .dropped s) : Machine.Held c₀ n₀ s := by
  rw [eq₀] at h; exact h
theorem Ringed.Held.of_waits {x₀ : Ringed} (h : x₀.Held c₀ n₀) (eq₀ : x₀ = .waits s) : Machine.Held c₀ n₀ s := by
  rw [eq₀] at h; exact h
theorem Eng.Held.of_ok {α : Type} {x₀ : Eng α} {a : α} (h : x₀.Held c₀ n₀) (eq₀ : x₀ = .ok s a) : Machine.Held c₀ n₀ s := by
  rw [eq₀] at h; exact h
theorem Eng.Held.of_fault {α : Type} {x₀ : Eng α} {a : Nat} (h : x₀.Held c₀ n₀) (eq₀ : x₀ = .fault s a) : Machine.Held c₀ n₀ s := by
  rw [eq₀] at h; exact h
theorem Eng.Held.of_stay {α : Type} {x₀ : Eng α} {a b : Nat} (h : x₀.Held c₀ n₀) (eq₀ : x₀ = .stay s a b) : Machine.Held c₀ n₀ s := by
  rw [eq₀] at h; exact h
theorem Eng.Held.of_bad {α : Type} {x₀ : Eng α} {a : Nat} (h : x₀.Held c₀ n₀) (eq₀ : x₀ = .bad s a) : Machine.Held c₀ n₀ s := by
  rw [eq₀] at h; exact h

theorem AnsS.of_ok {x : Except Denied State} (h : AnsS c₀ n₀ x) (eq₀ : x = .ok s) : Held c₀ n₀ s := Ans.of_ok h eq₀
theorem AnsP.of_ok {α : Type} {x : Except Denied (State × α)} {a : α} (h : AnsP c₀ n₀ x) (eq₀ : x = .ok (s, a)) : Held c₀ n₀ s :=
  Ans.of_ok (p := fun y : State × α => Held c₀ n₀ y.1) h eq₀
theorem AnsP.of_pair {α : Type} {x : Except Denied (State × α)} {y : State × α} (h : AnsP c₀ n₀ x) (eq₀ : x = .ok y) :
    Held c₀ n₀ y.1 :=
  Ans.of_ok (p := fun y : State × α => Held c₀ n₀ y.1) h eq₀
theorem AnsS.of_error {x : Except Denied State} {d : Denied} (h : AnsS c₀ n₀ x) (eq₀ : x = .error d) : d.Held c₀ n₀ := Ans.of_error h eq₀
theorem AnsS.of_fault {x : Except Denied State} {k : Nat} (h : AnsS c₀ n₀ x) (eq₀ : x = .error (.fault s k)) : Held c₀ n₀ s :=
  Ans.of_fault h eq₀
theorem AnsS.of_wait {x : Except Denied State} (h : AnsS c₀ n₀ x) (eq₀ : x = .error (.wait s)) : Held c₀ n₀ s := Ans.of_wait h eq₀
theorem AnsP.of_error {α : Type} {x : Except Denied (State × α)} {d : Denied} (h : AnsP c₀ n₀ x) (eq₀ : x = .error d) : d.Held c₀ n₀ := Ans.of_error h eq₀
theorem AnsP.of_fault {α : Type} {x : Except Denied (State × α)} {k : Nat} (h : AnsP c₀ n₀ x) (eq₀ : x = .error (.fault s k)) : Held c₀ n₀ s :=
  Ans.of_fault h eq₀
theorem AnsP.of_wait {α : Type} {x : Except Denied (State × α)} (h : AnsP c₀ n₀ x) (eq₀ : x = .error (.wait s)) : Held c₀ n₀ s := Ans.of_wait h eq₀
theorem AnsN.of_error {α : Type} {x : Except Denied α} {d : Denied} (h : AnsN c₀ n₀ x) (eq₀ : x = .error d) : d.Held c₀ n₀ := Ans.of_error h eq₀
theorem AnsN.of_fault {α : Type} {x : Except Denied α} {k : Nat} (h : AnsN c₀ n₀ x) (eq₀ : x = .error (.fault s k)) : Held c₀ n₀ s :=
  Ans.of_fault h eq₀
theorem AnsN.of_wait {α : Type} {x : Except Denied α} (h : AnsN c₀ n₀ x) (eq₀ : x = .error (.wait s)) : Held c₀ n₀ s := Ans.of_wait h eq₀
theorem AnsP.map {α β : Type} {x : Except Denied (State × α)} {f : State × α → State × β} (h : AnsP c₀ n₀ x)
    (hf : ∀ y, Held c₀ n₀ y.1 → Held c₀ n₀ (f y).1) : AnsP c₀ n₀ (x.map f) := by
  cases x with
  | error d => exact h
  | ok y => exact hf y h
theorem AnsS.bind {β : Type} {p : β → Prop} {x : Except Denied State} {f : State → Except Denied β} (h : AnsS c₀ n₀ x)
    (hf : ∀ s, Held c₀ n₀ s → Ans c₀ n₀ p (f s)) : Ans c₀ n₀ p (x.bind f) := Ans.bind h hf
theorem AnsP.bind {α β : Type} {p : β → Prop} {x : Except Denied (State × α)} {f : State × α → Except Denied β} (h : AnsP c₀ n₀ x)
    (hf : ∀ y, Held c₀ n₀ y.1 → Ans c₀ n₀ p (f y)) : Ans c₀ n₀ p (x.bind f) := Ans.bind h hf
/-- The same in the `do` form. -/
theorem AnsN.bind {α β : Type} {x : Except Denied α} {f : α → Except Denied β} (h : AnsN c₀ n₀ x)
    (hf : ∀ a, AnsN c₀ n₀ (f a)) : AnsN c₀ n₀ (x >>= f) := Ans.bind h fun a _ => hf a
theorem AnsN.pure {α : Type} {a : α} : AnsN c₀ n₀ (pure a) := trivial
theorem AnsS.map {x : Except Denied State} {f : State → State} (h : AnsS c₀ n₀ x) (hf : ∀ s, Held c₀ n₀ s → Held c₀ n₀ (f s)) :
    AnsS c₀ n₀ (x.map f) := by
  cases x with
  | error d => exact h
  | ok s => exact hf s h
theorem AnsN.map {α β : Type} {x : Except Denied α} {f : α → β} (h : AnsN c₀ n₀ x) : AnsN c₀ n₀ (x.map f) := by
  cases x with
  | error d => exact h
  | ok a => exact trivial
theorem AnsN.then {α β : Type} {p : β → Prop} {x : Except Denied α} {f : α → Except Denied β} (h : AnsN c₀ n₀ x)
    (hf : ∀ a, Ans c₀ n₀ p (f a)) : Ans c₀ n₀ p (x.bind f) := Ans.bind h fun a _ => hf a
theorem AnsS.ok (h : Held c₀ n₀ s) : AnsS c₀ n₀ (.ok s) := h
theorem AnsP.ok {α : Type} {a : α} (h : Held c₀ n₀ s) : AnsP c₀ n₀ (.ok (s, a)) := h
theorem AnsN.ok {α : Type} {a : α} : AnsN c₀ n₀ (.ok a) := trivial
theorem Denied.Held.of_fault {d : Denied} {k : Nat} (h : d.Held c₀ n₀) (eq₀ : d = .fault s k) : Machine.Held c₀ n₀ s := by
  rw [eq₀] at h; exact h
theorem Denied.Held.of_wait {d : Denied} (h : d.Held c₀ n₀) (eq₀ : d = .wait s) : Machine.Held c₀ n₀ s := by
  rw [eq₀] at h; exact h

/-- A way to send a request's event that keeps it. -/
abbrev Sends (c : Bool) (n : Nat) (send : State → Nat → State) : Prop := ∀ s k, Held c n s → Held c n (send s k)

end Sys2Proof.Machine
end

