-- ==== Sys2Proof/Laws/KeepShared.lean ====
section
/-! SUPPORT. The shared operations keep the canonical form of memory and never lower the floor: translation, events, completion, accesses,
fragments, traps, operands and fetch. -/

namespace Sys2Proof.Machine

variable {c₀ : Bool} {n₀ : Nat} {s : State}

/-! ### Units -/

theorem State.modTeam_held {t : Nat} {f : Team → Team} (hk : Held c₀ n₀ s) : Held c₀ n₀ (s.modTeam t f) := hk

theorem State.modFrag_held {t g : Nat} {f : Frag → Frag} (hk : Held c₀ n₀ s) : Held c₀ n₀ (s.modFrag t g f) := hk

theorem State.modWarp_held {t w : Nat} {f : Warp → Warp} (hk : Held c₀ n₀ s) : Held c₀ n₀ (s.modWarp t w f) := hk

theorem State.modLaunch_held {l : Nat} {f : Launch → Launch} (hk : Held c₀ n₀ s) : Held c₀ n₀ (s.modLaunch l f) := hk

theorem State.modCtx_held {p c : Nat} {f : Context → Context} (hk : Held c₀ n₀ s) : Held c₀ n₀ (s.modCtx p c f) := hk

theorem State.modQueue_held {p q : Nat} {f : Queue → Queue} (hk : Held c₀ n₀ s) : Held c₀ n₀ (s.modQueue p q f) := hk

theorem State.modCore_held {c : Nat} {f : Core → Core} (hk : Held c₀ n₀ s) : Held c₀ n₀ (s.modCore c f) := hk

theorem State.modDie_held {d : Nat} {f : Die → Die} (hk : Held c₀ n₀ s) : Held c₀ n₀ (s.modDie d f) := hk

theorem State.wakeOn_held {core : Nat} {w : Wait} (hk : Held c₀ n₀ s) : Held c₀ n₀ (State.wakeOn s core w) := by
  unfold State.wakeOn
  repeat' first
    | with_reducible assumption
    | with_reducible refine Held.cells ?_
    | (refine Held.of_cells ?_; dsimp only)

theorem State.wakeSpill_held (hk : Held c₀ n₀ s) : Held c₀ n₀ (State.wakeSpill s) := by
  unfold State.wakeSpill
  repeat' first
    | with_reducible assumption
    | with_reducible refine Held.cells ?_
    | (refine Held.of_cells ?_; dsimp only)

/-! ### Translate -/

theorem State.conflictRange_held {place : Nat} {n : Nat} {write : Bool} (hk : Held c₀ n₀ s) :
    Held c₀ n₀ (State.conflictRange s place n write) := by
  unfold State.conflictRange
  repeat' first
    | with_reducible assumption
    | with_reducible refine Held.cells ?_
    | (refine Held.of_cells ?_; dsimp only)

theorem State.conflict_held {place : Nat} {write : Bool} (hk : Held c₀ n₀ s) : Held c₀ n₀ (State.conflict s place write) := by
  unfold State.conflict
  repeat' first
    | with_reducible assumption
    | with_reducible apply State.conflictRange_held

theorem State.capturePage_held {l : Launch} {r : Replay} {pa : Nat} {size : Nat} {place : Nat} {n : Nat} (hk : Held c₀ n₀ s)
    {r_ : State × Bool} (eq₀ : (State.capturePage s l r pa size place n) = r_) : Held c₀ n₀ r_.1 := by
  subst eq₀
  unfold State.capturePage
  repeat' first
    | with_reducible assumption
    | with_reducible apply State.modLaunch_held
    | with_reducible refine Held.cells ?_
    | with_reducible apply Cells.copy
    | (with_reducible refine Cells.fold ?_ (fun _ _ _ => ?_) _)
    | (with_reducible refine foldl_held (fun _ _ _ => ?_) _ ?_)
    | (refine Held.of_cells ?_; dsimp only)
    | with_reducible intro _
    | split

theorem State.capture_held {pf ctx pa size place n : Nat} (hk : Held c₀ n₀ s) {r_ : State × Bool}
    (eq₀ : s.capture pf ctx pa size place n = r_) : Held c₀ n₀ r_.1 := by
  subst eq₀
  unfold State.capture
  refine List.foldlRecOn s.launches _ (motive := fun x : State × Bool => Held c₀ n₀ x.1) hk fun x hx l _ => ?_
  split
  · split
    · show Held c₀ n₀ (x.1.capturePage l _ pa size place n).1
      exact State.capturePage_held hx rfl
    · exact hx
  · exact hx

theorem State.touch_held {place : Nat} {n : Nat} (hk : Held c₀ n₀ s) : Held c₀ n₀ (State.touch s place n) := by
  unfold State.touch
  repeat' first
    | with_reducible assumption
    | with_reducible apply State.modDie_held
    | with_reducible refine Held.cells ?_
    | (with_reducible refine foldl_held (fun _ _ _ => ?_) _ ?_)
    | (refine Held.of_cells ?_; dsimp only)
    | with_reducible intro _
    | split

theorem State.poke_held {place : Nat} {bs : List Byte} (hk : Held c₀ n₀ s) : Held c₀ n₀ (State.poke s place bs) := by
  unfold State.poke
  repeat' first
    | with_reducible assumption
    | with_reducible apply State.touch_held
    | with_reducible refine Held.cells ?_
    | with_reducible apply Cells.write
    | (refine Held.of_cells ?_; dsimp only)

theorem State.pokeOver_held {place : Nat} {bs : List Byte} (hk : Held c₀ n₀ s) : Held c₀ n₀ (State.pokeOver s place bs) := by
  unfold State.pokeOver
  repeat' first
    | with_reducible assumption
    | with_reducible apply State.conflictRange_held
    | with_reducible apply State.poke_held
    | split

theorem State.captureEntry_held {w : Who} {pa : Nat} (hk : Held c₀ n₀ s) {r_ : State × Bool} (eq₀ :
    (State.captureEntry s w pa) = r_) : Held c₀ n₀ r_.1 := by
  subst eq₀
  unfold State.captureEntry
  repeat' first
    | with_reducible assumption
    | with_reducible refine State.capture_held ?_ ‹_›
    | with_reducible refine State.capture_held ?_ rfl

theorem State.pokeEntry_held {w : Who} {pa : Nat} {e : DWord} (hk : Held c₀ n₀ s) : Held c₀ n₀ (State.pokeEntry s w pa e) := by
  unfold State.pokeEntry
  repeat' first
    | with_reducible assumption
    | with_reducible apply State.pokeOver_held
    | with_reducible refine State.captureEntry_held ?_ ‹_›
    | with_reducible refine State.captureEntry_held ?_ rfl
    | split
    | dsimp only

theorem State.dropLines_held {base : Nat} {size : Nat} (hk : Held c₀ n₀ s) : Held c₀ n₀ (State.dropLines s base size) := by
  unfold State.dropLines
  repeat' first
    | with_reducible assumption
    | with_reducible refine Held.cells ?_
    | (refine Held.of_cells ?_; dsimp only)

theorem State.takeFrame_held {die lvl : Nat} (hk : Held c₀ n₀ s) {r_ : State × Nat} (eq₀ : s.takeFrame die lvl = some r_) :
    Held c₀ n₀ r_.1 := by
  unfold State.takeFrame at eq₀
  dsimp only at eq₀; split at eq₀
  · cases eq₀
  · cases eq₀; exact Cells.clear hk _ _

theorem State.noteBound_held {w : Who} {lvl fr : Nat} (hk : Held c₀ n₀ s) : Held c₀ n₀ (s.noteBound w lvl fr) := hk

theorem State.tlbFill_held {w : Who} {va : Nat} {at_ : Nat} {e : DWord} {lvl : Nat} (hk : Held c₀ n₀ s) :
    Held c₀ n₀ (State.tlbFill s w va at_ e lvl) := by
  unfold State.tlbFill
  repeat' first
    | with_reducible assumption
    | with_reducible apply State.modCore_held
    | with_reducible apply State.modDie_held
    | with_reducible refine Held.cells ?_
    | (refine Held.of_cells ?_; dsimp only)
    | with_reducible intro _
    | split

theorem State.dropTlbs_held {p : Translation → Bool} (hk : Held c₀ n₀ s) : Held c₀ n₀ (State.dropTlbs s p) := by
  unfold State.dropTlbs
  repeat' first
    | with_reducible assumption
    | with_reducible refine Held.cells ?_
    | (refine Held.of_cells ?_; dsimp only)

theorem State.useLeaf_held {w : Who} {va : Nat} {k : Access} {at_ : Nat} {e : DWord} {lvl : Nat} (hk : Held c₀ n₀ s) :
    (s.useLeaf w va k at_ e lvl).Held c₀ n₀ := by
  unfold State.useLeaf
  dsimp only
  repeat' first
    | with_reducible assumption | split | with_reducible apply Xlate.Held.ok | with_reducible apply Xlate.Held.fault
    | with_reducible apply State.tlbFill_held | with_reducible apply State.pokeEntry_held | exact True.intro

theorem State.askHost_held {w : Who} {va at_ : Nat} {send : State → Nat → State} (hs : Sends c₀ n₀ send) (hk : Held c₀ n₀ s) :
    (s.askHost w va at_ send).Held c₀ n₀ := by
  unfold State.askHost
  dsimp only
  repeat' first
    | with_reducible assumption | with_reducible refine State.captureEntry_held ?_ ‹_› | split | with_reducible apply Xlate.Held.fault
    | with_reducible apply Xlate.Held.asked | with_reducible apply State.modCtx_held | (with_reducible refine hs _ _ ?_)
    | (refine Held.of_cells ?_; dsimp only; with_reducible refine Held.cells ?_) | exact True.intro

theorem State.walkFor_held {w : Who} {va : Nat} {k : Access} {send : State → Nat → State} (hs : Sends c₀ n₀ send)
    (hk : Held c₀ n₀ s) : (s.walkFor w va k send).Held c₀ n₀ := by
  have hd : ∀ o : Option Request, Held c₀ n₀ (match o with
    | some r => s.modCtx w.pf w.ctx fun c => { c with requests := c.requests.filter fun x => x != r }
    | none => s) := fun o => by cases o <;> exact hk
  unfold State.walkFor
  dsimp only
  repeat' first
    | trivial | exact hk | exact hd _ | exact State.askHost_held hs hk | exact State.useLeaf_held (hd _)
    | exact State.useLeaf_held (State.pokeEntry_held (State.noteBound_held (State.takeFrame_held hk ‹_›)))
    | split

theorem State.translate_held {w : Who} {va : Nat} {k : Access} {send : State → Nat → State} (hs : Sends c₀ n₀ send)
    (hk : Held c₀ n₀ s) : (s.translate w va k send).Held c₀ n₀ := by
  unfold State.translate
  repeat' first | trivial | exact State.useLeaf_held hk | exact State.walkFor_held hs hk | split

theorem State.dropWaits_held {p : Waiting → Bool} (hk : Held c₀ n₀ s) : Held c₀ n₀ (State.dropWaits s p) := by
  unfold State.dropWaits
  repeat' first
    | with_reducible assumption
    | with_reducible refine Held.cells ?_
    | (refine Held.of_cells ?_; dsimp only)

theorem State.waitOwn_held {own : Asker} {pf : Nat} {ctx : Nat} {die : Nat} {va : Nat} {remote : Bool} {bound : Nat}
    {cause : Nat} (hk : Held c₀ n₀ s) : Denied.Held c₀ n₀ (State.waitOwn s own pf ctx die va remote bound cause) := by
  unfold State.waitOwn
  repeat' first
    | with_reducible assumption
    | with_reducible refine Held.cells ?_
    | (refine Held.of_cells ?_; dsimp only)
    | with_reducible intro _
    | split
    | with_reducible apply Denied.Held.fault
    | with_reducible apply Denied.Held.wait
    | exact True.intro
    | dsimp only

theorem State.reachWith_held {own : Asker} {pf : Nat} {ctx : Nat} {die : Nat} {va : Nat} {k : Access}
    {send : State → Nat → State} (hk : Held c₀ n₀ s) (h_send : ∀ (a0 : State) (a1 : Nat), Held c₀ n₀ a0 → Held c₀ n₀
    (send a0 a1)) : AnsP c₀ n₀ (State.reachWith s own pf ctx die va k send) := by
  unfold State.reachWith
  repeat' first
    | with_reducible assumption
    | with_reducible apply h_send
    | with_reducible apply State.walkFor_held
    | with_reducible apply State.waitOwn_held
    | with_reducible refine Denied.Held.of_fault ?_ ‹_›
    | with_reducible refine Denied.Held.of_wait ?_ ‹_›
    | with_reducible refine Xlate.Held.of_ok ?_ ‹_›
    | with_reducible refine Xlate.Held.of_fault ?_ ‹_›
    | with_reducible refine Xlate.Held.of_pool ?_ ‹_›
    | with_reducible refine Xlate.Held.of_asked ?_ ‹_›
    | with_reducible refine Held.cells ?_
    | (refine Held.of_cells ?_; dsimp only)
    | with_reducible intro _
    | split
    | with_reducible apply AnsP.ok
    | with_reducible apply Ans.error
    | with_reducible apply Denied.Held.fault
    | with_reducible apply Denied.Held.wait
    | exact True.intro
    | dsimp only

/-! ### Events -/

theorem State.writeWith_held {own : Asker} {pf : Nat} {ctx : Nat} {die : Nat} {va : Nat} {bs : List Byte}
    {send : State → Nat → State} (hk : Held c₀ n₀ s) (h_send : ∀ (a0 : State) (a1 : Nat), Held c₀ n₀ a0 → Held c₀ n₀
    (send a0 a1)) : AnsS c₀ n₀ (State.writeWith s own pf ctx die va bs send) := by
  unfold State.writeWith
  repeat' first
    | with_reducible assumption
    | with_reducible apply h_send
    | with_reducible apply State.pokeOver_held
    | with_reducible apply State.reachWith_held
    | with_reducible refine Denied.Held.of_fault ?_ ‹_›
    | with_reducible refine Denied.Held.of_wait ?_ ‹_›
    | with_reducible refine AnsP.of_ok ?_ ‹_›
    | with_reducible refine AnsP.of_pair ?_ ‹_›
    | with_reducible refine AnsP.of_error ?_ ‹_›
    | with_reducible refine AnsP.of_fault ?_ ‹_›
    | with_reducible refine AnsP.of_wait ?_ ‹_›
    | with_reducible refine Held.cells ?_
    | with_reducible apply Cells.write
    | with_reducible apply Cells.clear
    | with_reducible apply Cells.copy
    | with_reducible apply Cells.restore
    | with_reducible apply Cells.putBack
    | with_reducible apply Cells.set
    | with_reducible apply Cells.filter
    | (with_reducible refine AnsP.map ?_ (fun _ _ => ?_))
    | (with_reducible refine AnsS.bind ?_ (fun _ _ => ?_))
    | (with_reducible refine AnsP.bind ?_ (fun _ _ => ?_))
    | (with_reducible refine AnsS.map ?_ (fun _ _ => ?_))
    | (with_reducible refine AnsN.then ?_ (fun _ => ?_))
    | (with_reducible apply AnsN.map)
    | (with_reducible refine AnsN.bind ?_ (fun _ => ?_))
    | exact AnsN.pure
    | (with_reducible refine Eng.bind_held ?_ (fun _ _ _ => ?_))
    | (with_reducible refine Cells.fold ?_ (fun _ _ _ => ?_) _)
    | (with_reducible refine foldl_held (fun _ _ _ => ?_) _ ?_)
    | with_reducible intro _
    | split
    | with_reducible apply AnsS.ok
    | with_reducible apply Ans.error
    | with_reducible apply Denied.Held.fault

theorem State.ringWrite_held {q : Option Nat} {pf : Nat} {ctx : Nat} {die : Nat} {r : Ring} {bs : List Byte}
    {send : State → Nat → State} (hk : Held c₀ n₀ s) (h_send : ∀ (a0 : State) (a1 : Nat), Held c₀ n₀ a0 → Held c₀ n₀
    (send a0 a1)) : Ringed.Held c₀ n₀ (State.ringWrite s q pf ctx die r bs send) := by
  unfold State.ringWrite
  repeat' first
    | with_reducible assumption
    | with_reducible apply h_send
    | with_reducible apply State.writeWith_held
    | with_reducible refine Denied.Held.of_fault ?_ ‹_›
    | with_reducible refine Denied.Held.of_wait ?_ ‹_›
    | with_reducible refine AnsS.of_ok ?_ ‹_›
    | with_reducible refine AnsS.of_error ?_ ‹_›
    | with_reducible refine AnsS.of_fault ?_ ‹_›
    | with_reducible refine AnsS.of_wait ?_ ‹_›
    | with_reducible refine Held.cells ?_
    | with_reducible apply Cells.write
    | with_reducible apply Cells.clear
    | with_reducible apply Cells.copy
    | with_reducible apply Cells.restore
    | with_reducible apply Cells.putBack
    | with_reducible apply Cells.set
    | with_reducible apply Cells.filter
    | (with_reducible refine AnsP.map ?_ (fun _ _ => ?_))
    | (with_reducible refine AnsS.bind ?_ (fun _ _ => ?_))
    | (with_reducible refine AnsP.bind ?_ (fun _ _ => ?_))
    | (with_reducible refine AnsS.map ?_ (fun _ _ => ?_))
    | (with_reducible refine AnsN.then ?_ (fun _ => ?_))
    | (with_reducible apply AnsN.map)
    | (with_reducible refine AnsN.bind ?_ (fun _ => ?_))
    | exact AnsN.pure
    | (with_reducible refine Eng.bind_held ?_ (fun _ _ _ => ?_))
    | (with_reducible refine Cells.fold ?_ (fun _ _ _ => ?_) _)
    | (with_reducible refine foldl_held (fun _ _ _ => ?_) _ ?_)
    | (refine Held.of_cells ?_; dsimp only)
    | with_reducible intro _
    | split
    | with_reducible apply Ringed.Held.written
    | with_reducible apply Ringed.Held.dropped
    | with_reducible apply Ringed.Held.waits

theorem State.ctxEvent_held {pf : Nat} {ctx : Nat} {die : Nat} {src : Nat} {code : Nat} {num : Nat} {status : Nat}
    {detail : Nat} (hk : Held c₀ n₀ s) : Held c₀ n₀ (State.ctxEvent s pf ctx die src code num status detail) := by
  unfold State.ctxEvent
  repeat' first
    | with_reducible assumption
    | with_reducible apply State.modCtx_held
    | with_reducible apply State.ringWrite_held
    | with_reducible refine Ringed.Held.of_written ?_ ‹_›
    | with_reducible refine Ringed.Held.of_dropped ?_ ‹_›
    | with_reducible refine Ringed.Held.of_waits ?_ ‹_›
    | with_reducible refine Held.cells ?_
    | (refine Held.of_cells ?_; dsimp only)
    | with_reducible intro _
    | split

theorem placementEvent_held {pf : Nat} {ctx : Nat} {die : Nat} {va : Nat} {n : Nat} (hk : Held c₀ n₀ s) :
    Held c₀ n₀ (placementEvent pf ctx die va s n) := by
  unfold placementEvent
  repeat' first
    | with_reducible assumption
    | with_reducible apply State.ctxEvent_held

theorem State.reachVa_held {own : Asker} {pf : Nat} {ctx : Nat} {die : Nat} {va : Nat} {k : Access} (hk : Held c₀ n₀ s) :
    AnsP c₀ n₀ (State.reachVa s own pf ctx die va k) := by
  unfold State.reachVa
  repeat' first
    | with_reducible assumption
    | with_reducible apply State.reachWith_held
    | with_reducible apply placementEvent_held
    | with_reducible refine Denied.Held.of_fault ?_ ‹_›
    | with_reducible refine Denied.Held.of_wait ?_ ‹_›
    | with_reducible refine AnsP.of_ok ?_ ‹_›
    | with_reducible refine AnsP.of_pair ?_ ‹_›
    | with_reducible refine AnsP.of_error ?_ ‹_›
    | with_reducible refine AnsP.of_fault ?_ ‹_›
    | with_reducible refine AnsP.of_wait ?_ ‹_›
    | with_reducible refine Held.cells ?_
    | with_reducible apply Cells.write
    | with_reducible apply Cells.clear
    | with_reducible apply Cells.copy
    | with_reducible apply Cells.restore
    | with_reducible apply Cells.putBack
    | with_reducible apply Cells.set
    | with_reducible apply Cells.filter
    | (with_reducible refine AnsP.map ?_ (fun _ _ => ?_))
    | (with_reducible refine AnsS.bind ?_ (fun _ _ => ?_))
    | (with_reducible refine AnsP.bind ?_ (fun _ _ => ?_))
    | (with_reducible refine AnsS.map ?_ (fun _ _ => ?_))
    | (with_reducible refine AnsN.then ?_ (fun _ => ?_))
    | (with_reducible apply AnsN.map)
    | (with_reducible refine AnsN.bind ?_ (fun _ => ?_))
    | exact AnsN.pure
    | (with_reducible refine Eng.bind_held ?_ (fun _ _ _ => ?_))
    | (with_reducible refine Cells.fold ?_ (fun _ _ _ => ?_) _)
    | (with_reducible refine foldl_held (fun _ _ _ => ?_) _ ?_)
    | with_reducible intro _

theorem State.deviceWrite_held {own : Asker} {pf : Nat} {ctx : Nat} {die : Nat} {va : Nat} {bs : List Byte}
    (hk : Held c₀ n₀ s) : AnsS c₀ n₀ (State.deviceWrite s own pf ctx die va bs) := by
  unfold State.deviceWrite
  repeat' first
    | with_reducible assumption
    | with_reducible apply State.writeWith_held
    | with_reducible apply placementEvent_held
    | with_reducible refine Denied.Held.of_fault ?_ ‹_›
    | with_reducible refine Denied.Held.of_wait ?_ ‹_›
    | with_reducible refine AnsS.of_ok ?_ ‹_›
    | with_reducible refine AnsS.of_error ?_ ‹_›
    | with_reducible refine AnsS.of_fault ?_ ‹_›
    | with_reducible refine AnsS.of_wait ?_ ‹_›
    | with_reducible refine Held.cells ?_
    | with_reducible apply Cells.write
    | with_reducible apply Cells.clear
    | with_reducible apply Cells.copy
    | with_reducible apply Cells.restore
    | with_reducible apply Cells.putBack
    | with_reducible apply Cells.set
    | with_reducible apply Cells.filter
    | (with_reducible refine AnsP.map ?_ (fun _ _ => ?_))
    | (with_reducible refine AnsS.bind ?_ (fun _ _ => ?_))
    | (with_reducible refine AnsP.bind ?_ (fun _ _ => ?_))
    | (with_reducible refine AnsS.map ?_ (fun _ _ => ?_))
    | (with_reducible refine AnsN.then ?_ (fun _ => ?_))
    | (with_reducible apply AnsN.map)
    | (with_reducible refine AnsN.bind ?_ (fun _ => ?_))
    | exact AnsN.pure
    | (with_reducible refine Eng.bind_held ?_ (fun _ _ _ => ?_))
    | (with_reducible refine Cells.fold ?_ (fun _ _ _ => ?_) _)
    | (with_reducible refine foldl_held (fun _ _ _ => ?_) _ ?_)
    | with_reducible intro _

theorem State.systemEvent_held {dies : List Nat} {die : Nat} {code : Nat} {status : Nat} {detail : Nat} (hk : Held c₀ n₀ s) :
    Held c₀ n₀ (State.systemEvent s dies die code status detail) := by
  unfold State.systemEvent
  repeat' first
    | with_reducible assumption
    | with_reducible apply State.ctxEvent_held
    | (with_reducible refine foldl_held (fun _ _ _ => ?_) _ ?_)
    | with_reducible intro _
    | split

theorem State.queueEvent_held {pf : Nat} {q : Nat} {tag : Nat} {status : Nat} {detail : Nat} (hk : Held c₀ n₀ s) :
    Held c₀ n₀ (State.queueEvent s pf q tag status detail) := by
  unfold State.queueEvent
  repeat' first
    | with_reducible assumption
    | with_reducible apply State.modQueue_held
    | with_reducible apply State.ringWrite_held
    | with_reducible apply placementEvent_held
    | with_reducible refine Ringed.Held.of_written ?_ ‹_›
    | with_reducible refine Ringed.Held.of_dropped ?_ ‹_›
    | with_reducible refine Ringed.Held.of_waits ?_ ‹_›
    | with_reducible refine Held.cells ?_
    | (refine Held.of_cells ?_; dsimp only)
    | with_reducible intro _
    | split

theorem unlessError_held {n : Nat} {x : State × Nat} (hk : Held c₀ n₀ x.1) : AnsP c₀ n₀ (unlessError n x) := by
  unfold unlessError; split
  · exact hk
  · exact hk

theorem State.slotWords_held {x : Queue} {slot : Nat} (hk : Held c₀ n₀ s) : AnsP c₀ n₀ (State.slotWords s x slot) := by
  unfold State.slotWords
  repeat' first
    | with_reducible assumption
    | with_reducible apply State.reachVa_held
    | with_reducible apply unlessError_held
    | with_reducible refine Denied.Held.of_fault ?_ ‹_›
    | with_reducible refine Denied.Held.of_wait ?_ ‹_›
    | with_reducible refine AnsP.of_ok ?_ ‹_›
    | with_reducible refine AnsP.of_pair ?_ ‹_›
    | with_reducible refine AnsP.of_error ?_ ‹_›
    | with_reducible refine AnsP.of_fault ?_ ‹_›
    | with_reducible refine AnsP.of_wait ?_ ‹_›
    | with_reducible refine Eng.Held.of_ok ?_ ‹_›
    | with_reducible refine Eng.Held.of_fault ?_ ‹_›
    | with_reducible refine Eng.Held.of_stay ?_ ‹_›
    | with_reducible refine Eng.Held.of_bad ?_ ‹_›
    | with_reducible refine Held.cells ?_
    | (with_reducible refine AnsP.map ?_ (fun _ _ => ?_))
    | (with_reducible refine AnsS.bind ?_ (fun _ _ => ?_))
    | (with_reducible refine AnsP.bind ?_ (fun _ _ => ?_))

theorem State.ringFault_held {pf : Nat} {q : Nat} {head : Bool} {cause : Nat} (hk : Held c₀ n₀ s) :
    Held c₀ n₀ (State.ringFault s pf q head cause) := by
  unfold State.ringFault
  repeat' first
    | with_reducible assumption
    | with_reducible apply State.modQueue_held
    | with_reducible apply State.queueEvent_held
    | with_reducible refine Held.cells ?_
    | (refine Held.of_cells ?_; dsimp only)

theorem State.holdHead_held {pf : Nat} {q : Nat} (hk : Held c₀ n₀ s) : Held c₀ n₀ (State.holdHead s pf q) := by
  unfold State.holdHead
  repeat' first
    | with_reducible assumption
    | with_reducible refine Held.cells ?_
    | (refine Held.of_cells ?_; dsimp only)

theorem State.writeHead_held {pf : Nat} {q : Nat} (hk : Held c₀ n₀ s) : Held c₀ n₀ (State.writeHead s pf q) := by
  unfold State.writeHead
  repeat' first
    | with_reducible assumption
    | with_reducible apply State.pokeOver_held
    | with_reducible apply State.reachVa_held
    | with_reducible apply unlessError_held
    | with_reducible apply State.ringFault_held
    | with_reducible apply State.holdHead_held
    | with_reducible refine Denied.Held.of_fault ?_ ‹_›
    | with_reducible refine Denied.Held.of_wait ?_ ‹_›
    | with_reducible refine AnsP.of_ok ?_ ‹_›
    | with_reducible refine AnsP.of_pair ?_ ‹_›
    | with_reducible refine AnsP.of_error ?_ ‹_›
    | with_reducible refine AnsP.of_fault ?_ ‹_›
    | with_reducible refine AnsP.of_wait ?_ ‹_›
    | with_reducible refine Eng.Held.of_ok ?_ ‹_›
    | with_reducible refine Eng.Held.of_fault ?_ ‹_›
    | with_reducible refine Eng.Held.of_stay ?_ ‹_›
    | with_reducible refine Eng.Held.of_bad ?_ ‹_›
    | with_reducible refine Held.cells ?_
    | with_reducible apply Cells.write
    | with_reducible apply Cells.clear
    | with_reducible apply Cells.copy
    | with_reducible apply Cells.restore
    | with_reducible apply Cells.putBack
    | with_reducible apply Cells.set
    | with_reducible apply Cells.filter
    | (with_reducible refine AnsP.map ?_ (fun _ _ => ?_))
    | (with_reducible refine AnsS.bind ?_ (fun _ _ => ?_))
    | (with_reducible refine AnsP.bind ?_ (fun _ _ => ?_))
    | (with_reducible refine AnsS.map ?_ (fun _ _ => ?_))
    | (with_reducible refine AnsN.then ?_ (fun _ => ?_))
    | (with_reducible apply AnsN.map)
    | (with_reducible refine AnsN.bind ?_ (fun _ => ?_))
    | exact AnsN.pure
    | (with_reducible refine Eng.bind_held ?_ (fun _ _ _ => ?_))
    | (with_reducible refine Cells.fold ?_ (fun _ _ _ => ?_) _)
    | (with_reducible refine foldl_held (fun _ _ _ => ?_) _ ?_)
    | with_reducible intro _
    | split

theorem State.sendAgain_held {l : Outgoing} (hk : Held c₀ n₀ s) : Held c₀ n₀ (State.sendAgain s l) := by
  unfold State.sendAgain
  repeat' first
    | with_reducible assumption
    | with_reducible apply State.ctxEvent_held
    | with_reducible apply State.queueEvent_held
    | with_reducible apply State.writeHead_held
    | with_reducible refine Held.cells ?_
    | with_reducible apply Cells.write
    | with_reducible apply Cells.clear
    | with_reducible apply Cells.copy
    | with_reducible apply Cells.restore
    | with_reducible apply Cells.putBack
    | with_reducible apply Cells.set
    | with_reducible apply Cells.filter
    | (with_reducible refine AnsP.map ?_ (fun _ _ => ?_))
    | (with_reducible refine AnsS.bind ?_ (fun _ _ => ?_))
    | (with_reducible refine AnsP.bind ?_ (fun _ _ => ?_))
    | (with_reducible refine AnsS.map ?_ (fun _ _ => ?_))
    | (with_reducible refine AnsN.then ?_ (fun _ => ?_))
    | (with_reducible apply AnsN.map)
    | (with_reducible refine AnsN.bind ?_ (fun _ => ?_))
    | exact AnsN.pure
    | (with_reducible refine Eng.bind_held ?_ (fun _ _ _ => ?_))
    | (with_reducible refine Cells.fold ?_ (fun _ _ _ => ?_) _)
    | (with_reducible refine foldl_held (fun _ _ _ => ?_) _ ?_)
    | with_reducible intro _
    | split

theorem State.resend_held (hk : Held c₀ n₀ s) : Held c₀ n₀ (State.resend s) := by
  unfold State.resend
  repeat' first
    | with_reducible assumption
    | with_reducible apply State.sendAgain_held
    | with_reducible refine Held.cells ?_
    | (with_reducible refine foldl_held (fun _ _ _ => ?_) _ ?_)
    | (refine Held.of_cells ?_; dsimp only)

theorem State.endCommand_held {pf : Nat} {q : Nat} {slot : Nat} {status : Nat} {detail : Nat} (hk : Held c₀ n₀ s) :
    Held c₀ n₀ (State.endCommand s pf q slot status detail) := by
  unfold State.endCommand
  repeat' first
    | with_reducible assumption
    | with_reducible apply State.modQueue_held
    | with_reducible apply State.dropWaits_held
    | with_reducible apply State.queueEvent_held
    | with_reducible apply State.writeHead_held
    | with_reducible refine Held.cells ?_
    | (refine Held.of_cells ?_; dsimp only)
    | with_reducible intro _
    | split

/-! ### Complete -/

theorem State.leaveExacts_held {t : Nat} (hk : Held c₀ n₀ s) : Held c₀ n₀ (State.leaveExacts s t) := by
  unfold State.leaveExacts
  repeat' first
    | with_reducible assumption
    | with_reducible apply State.wakeSpill_held
    | with_reducible refine Held.cells ?_
    | (refine Held.of_cells ?_; dsimp only)
    | with_reducible intro _
    | split

theorem State.dropTeam_held {t : Nat} (hk : Held c₀ n₀ s) : Held c₀ n₀ (State.dropTeam s t) := by
  unfold State.dropTeam
  repeat' first
    | with_reducible assumption
    | with_reducible apply State.wakeOn_held
    | with_reducible apply State.dropWaits_held
    | with_reducible refine Held.cells ?_
    | (refine Held.of_cells ?_; dsimp only)

theorem State.freePhasers_held {handles : List Nat} (hk : Held c₀ n₀ s) : Held c₀ n₀ (State.freePhasers s handles) := by
  unfold State.freePhasers
  repeat' first
    | with_reducible assumption
    | with_reducible apply State.modDie_held
    | with_reducible refine Held.cells ?_
    | (with_reducible refine foldl_held (fun _ _ _ => ?_) _ ?_)

theorem State.clearCounters_held {pf : Nat} (hk : Held c₀ n₀ s) : Held c₀ n₀ (State.clearCounters s pf) := by
  unfold State.clearCounters
  repeat' first
    | with_reducible assumption
    | with_reducible refine Held.cells ?_
    | (refine Held.of_cells ?_; dsimp only)

theorem State.addTerms_held {l : Nat} {ths : List Thread} (hk : Held c₀ n₀ s) : Held c₀ n₀ (State.addTerms s l ths) := by
  unfold State.addTerms
  repeat' first
    | with_reducible assumption
    | with_reducible apply State.modLaunch_held

theorem State.dropLaunch_held {l : Nat} (hk : Held c₀ n₀ s) : Held c₀ n₀ (State.dropLaunch s l) := by
  unfold State.dropLaunch
  repeat' first
    | with_reducible assumption
    | with_reducible apply State.dropWaits_held
    | with_reducible apply State.freePhasers_held
    | with_reducible apply State.clearCounters_held
    | with_reducible refine Held.cells ?_
    | (refine Held.of_cells ?_; dsimp only)
    | with_reducible intro _
    | split

theorem State.endLaunch_held {l : Nat} {status : Nat} {detail : Nat} (hk : Held c₀ n₀ s) :
    Held c₀ n₀ (State.endLaunch s l status detail) := by
  unfold State.endLaunch
  repeat' first
    | with_reducible assumption
    | with_reducible apply State.endCommand_held
    | with_reducible apply State.dropLaunch_held

theorem State.gridCheck_held {l : Nat} (hk : Held c₀ n₀ s) : Held c₀ n₀ (State.gridCheck s l) := by
  unfold State.gridCheck
  repeat' first
    | with_reducible assumption
    | with_reducible apply State.endLaunch_held
    | with_reducible refine Held.cells ?_
    | with_reducible intro _
    | split

theorem State.teamCheck_held {t : Nat} (hk : Held c₀ n₀ s) : Held c₀ n₀ (State.teamCheck s t) := by
  unfold State.teamCheck
  repeat' first
    | with_reducible assumption
    | with_reducible apply State.leaveExacts_held
    | with_reducible apply State.dropTeam_held
    | with_reducible apply State.addTerms_held
    | with_reducible apply State.gridCheck_held
    | with_reducible refine Held.cells ?_
    | split

theorem State.endAnnounced_held {pf : Nat} {q : Nat} {status : Nat} {detail : Nat} {fuel : Nat} (hk : Held c₀ n₀ s) :
    Held c₀ n₀ (State.endAnnounced s pf q status detail fuel) := by
  induction fuel generalizing s pf q status detail with
  | zero =>
    unfold State.endAnnounced
    repeat' first
      | with_reducible assumption
  | succ fuel ih =>
    unfold State.endAnnounced
    repeat' first
      | with_reducible assumption
      | with_reducible apply ih
      | with_reducible apply State.modQueue_held
      | with_reducible apply State.slotWords_held
      | with_reducible apply State.endCommand_held
      | with_reducible refine Denied.Held.of_fault ?_ ‹_›
      | with_reducible refine Denied.Held.of_wait ?_ ‹_›
      | with_reducible refine AnsP.of_ok ?_ ‹_›
      | with_reducible refine AnsP.of_pair ?_ ‹_›
      | with_reducible refine AnsP.of_error ?_ ‹_›
      | with_reducible refine AnsP.of_fault ?_ ‹_›
      | with_reducible refine AnsP.of_wait ?_ ‹_›
      | with_reducible refine Held.cells ?_
      | (refine Held.of_cells ?_; dsimp only)
      | with_reducible intro _
      | split

theorem State.endQueue_held {pf : Nat} {q : Nat} {detail : Nat} (hk : Held c₀ n₀ s) :
    Held c₀ n₀ (State.endQueue s pf q detail) := by
  unfold State.endQueue
  repeat' first
    | with_reducible assumption
    | with_reducible apply State.endCommand_held
    | with_reducible apply State.endAnnounced_held
    | with_reducible refine Held.cells ?_
    | (with_reducible refine foldl_held (fun _ _ _ => ?_) _ ?_)
    | (refine Held.of_cells ?_; dsimp only)
    | with_reducible intro _
    | split

theorem State.writeParts_held {own : Asker} {pf : Nat} {ctx : Nat} {die : Nat} {fuel : Nat} {va : Nat} {l1 : List Byte}
    (hk : Held c₀ n₀ s) : AnsS c₀ n₀ (State.writeParts s own pf ctx die fuel va l1) := by
  induction fuel generalizing s own pf ctx die va l1 with
  | zero =>
    unfold State.writeParts
    repeat' first
      | with_reducible assumption
      | with_reducible apply ih
      | with_reducible apply State.deviceWrite_held
      | with_reducible refine Denied.Held.of_fault ?_ ‹_›
      | with_reducible refine Denied.Held.of_wait ?_ ‹_›
      | with_reducible refine AnsS.of_ok ?_ ‹_›
      | with_reducible refine AnsS.of_error ?_ ‹_›
      | with_reducible refine AnsS.of_fault ?_ ‹_›
      | with_reducible refine AnsS.of_wait ?_ ‹_›
      | with_reducible refine Held.cells ?_
      | with_reducible intro _
      | split
      | with_reducible apply AnsS.ok
  | succ fuel ih =>
    unfold State.writeParts
    repeat' first
      | with_reducible assumption
      | with_reducible apply ih
      | with_reducible apply State.deviceWrite_held
      | with_reducible refine Denied.Held.of_fault ?_ ‹_›
      | with_reducible refine Denied.Held.of_wait ?_ ‹_›
      | with_reducible refine AnsS.of_ok ?_ ‹_›
      | with_reducible refine AnsS.of_error ?_ ‹_›
      | with_reducible refine AnsS.of_fault ?_ ‹_›
      | with_reducible refine AnsS.of_wait ?_ ‹_›
      | with_reducible refine Held.cells ?_
      | with_reducible intro _
      | split
      | with_reducible apply AnsS.ok
      | with_reducible apply Ans.error
      | exact True.intro
      | dsimp only

theorem State.writeRecord_held {ln : Launch} {r : Replay} {status : Nat} (hk : Held c₀ n₀ s) :
    AnsS c₀ n₀ (State.writeRecord s ln r status) := by
  unfold State.writeRecord
  repeat' first
    | with_reducible assumption
    | with_reducible apply State.writeParts_held

theorem State.lastRecord_held {l : Nat} (hk : Held c₀ n₀ s) : Held c₀ n₀ (State.lastRecord s l) := by
  unfold State.lastRecord
  repeat' first
    | with_reducible assumption
    | with_reducible apply State.writeRecord_held
    | with_reducible refine Denied.Held.of_fault ?_ ‹_›
    | with_reducible refine Denied.Held.of_wait ?_ ‹_›
    | with_reducible refine AnsS.of_ok ?_ ‹_›
    | with_reducible refine AnsS.of_error ?_ ‹_›
    | with_reducible refine AnsS.of_fault ?_ ‹_›
    | with_reducible refine AnsS.of_wait ?_ ‹_›
    | with_reducible refine Held.cells ?_
    | (refine Held.of_cells ?_; dsimp only)
    | split

theorem State.killLaunches_held {ls : List Nat} (hk : Held c₀ n₀ s) : Held c₀ n₀ (State.killLaunches s ls) := by
  unfold State.killLaunches
  repeat' first
    | with_reducible assumption
    | with_reducible apply State.leaveExacts_held
    | with_reducible apply State.dropTeam_held
    | with_reducible apply State.dropLaunch_held
    | with_reducible apply State.lastRecord_held
    | with_reducible refine Held.cells ?_
    | (with_reducible refine foldl_held (fun _ _ _ => ?_) _ ?_)
    | (refine Held.of_cells ?_; dsimp only)

theorem State.terminate_held {pf : Nat} {ctx : Nat} {cause : Nat} (hk : Held c₀ n₀ s) :
    Held c₀ n₀ (State.terminate s pf ctx cause) := by
  unfold State.terminate
  repeat' first
    | with_reducible assumption
    | with_reducible apply State.modCtx_held
    | with_reducible apply State.endQueue_held
    | with_reducible apply State.killLaunches_held
    | with_reducible refine Held.cells ?_
    | (with_reducible refine foldl_held (fun _ _ _ => ?_) _ ?_)
    | (refine Held.of_cells ?_; dsimp only)
    | with_reducible intro _
    | split

theorem State.terminateAll_held {dies : List Nat} {cause : Nat} (hk : Held c₀ n₀ s) {r_ : State × Nat} (eq₀ :
    (State.terminateAll s dies cause) = r_) : Held c₀ n₀ r_.1 := by
  subst eq₀
  unfold State.terminateAll
  repeat' first
    | with_reducible assumption
    | with_reducible apply State.terminate_held
    | (with_reducible refine foldl_held (fun _ _ _ => ?_) _ ?_)

theorem State.killQueue_held {pf : Nat} {q : Nat} {detail : Nat} (hk : Held c₀ n₀ s) :
    Held c₀ n₀ (State.killQueue s pf q detail) := by
  unfold State.killQueue
  repeat' first
    | with_reducible assumption
    | with_reducible apply State.dropWaits_held
    | with_reducible apply State.endQueue_held
    | with_reducible apply State.killLaunches_held
    | with_reducible refine Held.cells ?_
    | (refine Held.of_cells ?_; dsimp only)

theorem State.killContext_held {pf : Nat} {num : Nat} (hk : Held c₀ n₀ s) : Held c₀ n₀ (State.killContext s pf num) := by
  unfold State.killContext
  repeat' first
    | with_reducible assumption
    | with_reducible apply State.dropTlbs_held
    | with_reducible apply State.killQueue_held
    | with_reducible refine Held.cells ?_
    | (with_reducible refine foldl_held (fun _ _ _ => ?_) _ ?_)
    | (refine Held.of_cells ?_; dsimp only)
    | with_reducible intro _
    | split

theorem State.badWord_held {pf : Nat} {ctx : Nat} {place : Nat} (hk : Held c₀ n₀ s) :
    Held c₀ n₀ (State.badWord s pf ctx place) := by
  unfold State.badWord
  repeat' first
    | with_reducible assumption
    | with_reducible apply State.systemEvent_held
    | with_reducible apply State.terminate_held

/-! ### Access -/

theorem Env.translate_held {e : Env} {va : Nat} {k : Access} (hk : Held c₀ n₀ s) :
    Xlate.Held c₀ n₀ (Env.translate e s va k) := by
  unfold Env.translate
  repeat' first
    | with_reducible assumption
    | with_reducible apply State.translate_held
    | with_reducible apply placementEvent_held
    | with_reducible refine Xlate.Held.of_ok ?_ ‹_›
    | with_reducible refine Xlate.Held.of_fault ?_ ‹_›
    | with_reducible refine Xlate.Held.of_pool ?_ ‹_›
    | with_reducible refine Xlate.Held.of_asked ?_ ‹_›
    | with_reducible refine Held.cells ?_
    | with_reducible apply Cells.write
    | with_reducible apply Cells.clear
    | with_reducible apply Cells.copy
    | with_reducible apply Cells.restore
    | with_reducible apply Cells.putBack
    | with_reducible apply Cells.set
    | with_reducible apply Cells.filter
    | (with_reducible refine AnsP.map ?_ (fun _ _ => ?_))
    | (with_reducible refine AnsS.bind ?_ (fun _ _ => ?_))
    | (with_reducible refine AnsP.bind ?_ (fun _ _ => ?_))
    | (with_reducible refine AnsS.map ?_ (fun _ _ => ?_))
    | (with_reducible refine AnsN.then ?_ (fun _ => ?_))
    | (with_reducible apply AnsN.map)
    | (with_reducible refine AnsN.bind ?_ (fun _ => ?_))
    | exact AnsN.pure
    | (with_reducible refine Eng.bind_held ?_ (fun _ _ _ => ?_))
    | (with_reducible refine Cells.fold ?_ (fun _ _ _ => ?_) _)
    | (with_reducible refine foldl_held (fun _ _ _ => ?_) _ ?_)
    | with_reducible intro _
    | split
    | with_reducible apply Xlate.Held.ok
    | with_reducible apply Xlate.Held.fault
    | with_reducible apply Xlate.Held.pool
    | with_reducible apply Xlate.Held.asked
    | exact True.intro

theorem State.count_held {l : Nat} {core : Nat} {ev : Nat} {n : Nat} (hk : Held c₀ n₀ s) :
    Held c₀ n₀ (State.count s l core ev n) := by
  unfold State.count
  repeat' first
    | with_reducible assumption
    | with_reducible apply State.modCore_held
    | with_reducible refine Held.cells ?_
    | with_reducible intro _
    | split

theorem Env.locateOff_held {e : Env} {n : Need} {tid : Nat} {space : Nat} {o : Nat} (hk : Held c₀ n₀ s) :
    Found.Held c₀ n₀ (Env.locateOff e s n tid space o) := by
  unfold Env.locateOff
  repeat' first
    | with_reducible assumption
    | with_reducible refine Held.cells ?_
    | split
    | with_reducible apply Found.Held.ok
    | with_reducible apply Found.Held.fault
    | exact True.intro
    | dsimp only

theorem Env.locate_held {e : Env} {n : Need} {space : Nat} {tid : Nat} {base : Nat} {off : Int} (hk : Held c₀ n₀ s) :
    Found.Held c₀ n₀ (Env.locate e s n space tid base off) := by
  unfold Env.locate
  repeat' first
    | with_reducible assumption
    | with_reducible apply State.translate_held
    | with_reducible apply Env.translate_held
    | with_reducible apply Env.locateOff_held
    | with_reducible refine Found.Held.of_ok ?_ ‹_›
    | with_reducible refine Found.Held.of_fault ?_ ‹_›
    | with_reducible refine Found.Held.of_wait ?_ ‹_›
    | with_reducible refine Xlate.Held.of_ok ?_ ‹_›
    | with_reducible refine Xlate.Held.of_fault ?_ ‹_›
    | with_reducible refine Xlate.Held.of_pool ?_ ‹_›
    | with_reducible refine Xlate.Held.of_asked ?_ ‹_›
    | with_reducible refine Held.cells ?_
    | split
    | with_reducible apply Found.Held.ok
    | with_reducible apply Found.Held.fault
    | with_reducible apply Found.Held.wait
    | exact True.intro

theorem Env.locateAll_held {e : Env} {n : Need} {space : Nat} {base : Member → Nat} {off : Int} {l : List Member}
    (hk : Held c₀ n₀ s) : Held c₀ n₀ (Env.locateAll e s n space base off l).s := by
  induction l generalizing s e n space base off with
  | nil =>
    unfold Env.locateAll
    repeat' first
      | with_reducible assumption
  | cons x l ih =>
    unfold Env.locateAll
    repeat' first
      | with_reducible assumption
      | with_reducible apply ih
      | with_reducible apply Env.locate_held
      | with_reducible refine Found.Held.of_ok ?_ ‹_›
      | with_reducible refine Found.Held.of_fault ?_ ‹_›
      | with_reducible refine Found.Held.of_wait ?_ ‹_›
      | with_reducible refine Held.cells ?_
      | (refine Held.of_cells ?_; dsimp only)
      | with_reducible intro _
      | split

theorem State.untag_held {core : Nat} {p : Nat → Bool} (hk : Held c₀ n₀ s) : Held c₀ n₀ (State.untag s core p) := by
  unfold State.untag
  repeat' first
    | with_reducible assumption
    | with_reducible refine Held.cells ?_
    | (refine Held.of_cells ?_; dsimp only)

theorem State.dropL1_held {core : Nat} (hk : Held c₀ n₀ s) : Held c₀ n₀ (State.dropL1 s core) := by
  unfold State.dropL1
  repeat' first
    | with_reducible assumption
    | with_reducible apply State.modCore_held
    | with_reducible apply State.untag_held

theorem State.dropLine_held {core : Nat} {line : Nat} (hk : Held c₀ n₀ s) : Held c₀ n₀ (State.dropLine s core line) := by
  unfold State.dropLine
  repeat' first
    | with_reducible assumption
    | with_reducible apply State.modCore_held
    | with_reducible apply State.untag_held

theorem State.l1Room_held {core : Nat} {line : Nat} (hk : Held c₀ n₀ s) : Held c₀ n₀ (State.l1Room s core line) := by
  unfold State.l1Room
  repeat' first
    | with_reducible assumption
    | with_reducible apply State.dropLine_held
    | split
    | dsimp only

theorem State.l1Fill_held {core : Nat} {place : Nat} (hk : Held c₀ n₀ s) : Held c₀ n₀ (State.l1Fill s core place) := by
  unfold State.l1Fill
  repeat' first
    | with_reducible assumption
    | with_reducible apply State.modCore_held
    | with_reducible apply State.l1Room_held

theorem State.l1Load_held {l : Nat} {core : Nat} {place : Nat} {n : Nat} (hk : Held c₀ n₀ s) {r_ : State × List Byte} (eq₀ :
    (State.l1Load s l core place n) = r_) : Held c₀ n₀ r_.1 := by
  subst eq₀
  unfold State.l1Load
  repeat' first
    | with_reducible assumption
    | with_reducible apply State.count_held
    | with_reducible apply State.l1Fill_held
    | with_reducible refine Held.cells ?_
    | split

theorem State.roLoad_held {l : Nat} {core : Nat} {since : Nat} {pf : Nat} {ctx : Nat} {place : Nat} {va : Nat} {n : Nat}
    (hk : Held c₀ n₀ s) {r_ : State × List Byte} (eq₀ : (State.roLoad s l core since pf ctx place va n) = r_) :
    Held c₀ n₀ r_.1 := by
  subst eq₀
  unfold State.roLoad
  repeat' first
    | with_reducible assumption
    | with_reducible apply State.modCore_held
    | with_reducible apply State.count_held
    | with_reducible refine Held.cells ?_
    | with_reducible apply Cells.filter
    | (refine Held.of_cells ?_; dsimp only)
    | with_reducible intro _
    | split

theorem State.sendCollector_held {core : Nat} (hk : Held c₀ n₀ s) : Held c₀ n₀ (State.sendCollector s core) := by
  unfold State.sendCollector
  repeat' first
    | with_reducible assumption
    | with_reducible apply State.modCore_held
    | with_reducible apply State.wakeOn_held
    | with_reducible apply State.count_held
    | with_reducible refine Held.cells ?_
    | (with_reducible refine foldl_held (fun _ _ _ => ?_) _ ?_)

theorem State.collect_held {core : Nat} {t : Nat} {places : List Nat} (hk : Held c₀ n₀ s) :
    Held c₀ n₀ (State.collect s core t places) := by
  unfold State.collect
  repeat' first
    | with_reducible assumption
    | with_reducible apply State.modCore_held

theorem State.refuse_held {x : FarStore} {cause : Nat} (hk : Held c₀ n₀ s) : Held c₀ n₀ (State.refuse s x cause) := by
  unfold State.refuse
  repeat' first
    | with_reducible assumption
    | with_reducible apply State.modTeam_held

theorem State.arriveFar_held {x : FarStore} (hk : Held c₀ n₀ s) : Held c₀ n₀ (State.arriveFar s x) := by
  unfold State.arriveFar
  repeat' first
    | with_reducible assumption
    | with_reducible apply State.modWarp_held
    | with_reducible apply State.poke_held
    | with_reducible apply State.refuse_held
    | with_reducible refine Held.cells ?_
    | (refine Held.of_cells ?_; dsimp only)
    | with_reducible intro _
    | split

theorem State.deliver_held {p : FarStore → Bool} (hk : Held c₀ n₀ s) : Held c₀ n₀ (State.deliver s p) := by
  unfold State.deliver
  repeat' first
    | with_reducible assumption
    | with_reducible apply State.arriveFar_held
    | with_reducible refine Held.cells ?_
    | (with_reducible refine foldl_held (fun _ _ _ => ?_) _ ?_)
    | (refine Held.of_cells ?_; dsimp only)

theorem State.deliverFrag_held {t : Nat} {g : Nat} (hk : Held c₀ n₀ s) : Held c₀ n₀ (State.deliverFrag s t g) := by
  unfold State.deliverFrag
  repeat' first
    | with_reducible assumption
    | with_reducible apply State.deliver_held
    | with_reducible refine Held.cells ?_
    | with_reducible intro _
    | split

theorem State.performStore_held {pf : Nat} {ctx : Nat} {l : Nat} {core : Nat} {t : Nat} {w : Nat} {x : Spot} {bs : List Byte}
    (hk : Held c₀ n₀ s) : Held c₀ n₀ (State.performStore s pf ctx l core t w x bs) := by
  unfold State.performStore
  repeat' first
    | with_reducible assumption
    | with_reducible apply State.modWarp_held
    | with_reducible apply State.modCore_held
    | with_reducible apply State.conflict_held
    | with_reducible refine State.capture_held ?_ ‹_›
    | with_reducible refine State.capture_held ?_ rfl
    | with_reducible apply State.poke_held
    | with_reducible refine Held.cells ?_
    | with_reducible apply Cells.write
    | with_reducible apply Cells.clear
    | with_reducible apply Cells.copy
    | with_reducible apply Cells.restore
    | with_reducible apply Cells.putBack
    | with_reducible apply Cells.set
    | with_reducible apply Cells.filter
    | (with_reducible refine AnsP.map ?_ (fun _ _ => ?_))
    | (with_reducible refine AnsS.bind ?_ (fun _ _ => ?_))
    | (with_reducible refine AnsP.bind ?_ (fun _ _ => ?_))
    | (with_reducible refine AnsS.map ?_ (fun _ _ => ?_))
    | (with_reducible refine AnsN.then ?_ (fun _ => ?_))
    | (with_reducible apply AnsN.map)
    | (with_reducible refine AnsN.bind ?_ (fun _ => ?_))
    | exact AnsN.pure
    | (with_reducible refine Eng.bind_held ?_ (fun _ _ _ => ?_))
    | (with_reducible refine Cells.fold ?_ (fun _ _ _ => ?_) _)
    | (with_reducible refine foldl_held (fun _ _ _ => ?_) _ ?_)
    | (refine Held.of_cells ?_; dsimp only)
    | with_reducible intro _
    | split

theorem Env.countSectors_held {e : Env} {ro : Bool} {l : List (Member × Spot)} (hk : Held c₀ n₀ s) :
    Held c₀ n₀ (Env.countSectors e s ro l) := by
  unfold Env.countSectors
  repeat' first
    | with_reducible assumption
    | with_reducible apply State.count_held
    | with_reducible refine Held.cells ?_
    | (refine Held.of_cells ?_; dsimp only)
    | with_reducible intro _
    | split

theorem State.refresh_held {core : Nat} {place : Nat} {n : Nat} (hk : Held c₀ n₀ s) :
    Held c₀ n₀ (State.refresh s core place n) := by
  unfold State.refresh
  repeat' first
    | with_reducible assumption
    | with_reducible apply State.modCore_held

theorem State.dropSector_held {core : Nat} {place : Nat} (hk : Held c₀ n₀ s) : Held c₀ n₀ (State.dropSector s core place) := by
  unfold State.dropSector
  repeat' first
    | with_reducible assumption
    | with_reducible apply State.modCore_held

theorem Env.load1_held {e : Env} {x : Spot} {n : Nat} {ro : Bool} (hk : Held c₀ n₀ s) {r_ : State × List Byte} (eq₀ :
    (Env.load1 e s x n ro) = .ok r_) : Held c₀ n₀ r_.1 := by
  unfold Env.load1 at eq₀
  repeat' first | (split at eq₀) | (dsimp only at eq₀) | cases eq₀ | done
  all_goals try dsimp only
  repeat' first
    | with_reducible assumption
    | with_reducible apply State.modWarp_held
    | with_reducible apply State.conflict_held
    | with_reducible apply State.count_held
    | with_reducible refine State.l1Load_held ?_ ‹_›
    | with_reducible refine State.l1Load_held ?_ rfl
    | with_reducible refine State.roLoad_held ?_ ‹_›
    | with_reducible refine State.roLoad_held ?_ rfl
    | with_reducible apply State.refresh_held
    | with_reducible apply State.dropSector_held

theorem Env.loadEach_held {e : Env} {n : Nat} {ro : Bool} {l : List (Member × Spot)} (hk : Held c₀ n₀ s) {r_ : State × List
    (Nat × List Byte)} (eq₀ : (Env.loadEach e s n ro l) = .ok r_) : Held c₀ n₀ r_.1 := by
  induction l generalizing s e n ro r_ with
  | nil =>
    unfold Env.loadEach at eq₀
    repeat' first | (split at eq₀) | (dsimp only at eq₀) | cases eq₀
    all_goals try dsimp only
    repeat' first
      | with_reducible assumption
  | cons x l ih =>
    unfold Env.loadEach at eq₀
    repeat' first | (split at eq₀) | (dsimp only at eq₀) | cases eq₀
    all_goals try dsimp only
    repeat' first
      | with_reducible assumption
      | with_reducible refine ih ?_ ‹_›
      | with_reducible refine Env.load1_held ?_ ‹_›

theorem Env.loadAll_held {e : Env} {n : Nat} {ro : Bool} {l : List (Member × Spot)} (hk : Held c₀ n₀ s) {r_ : State × List
    (Nat × List Byte)} (eq₀ : (Env.loadAll e s n ro l) = .ok r_) : Held c₀ n₀ r_.1 := by
  unfold Env.loadAll at eq₀
  repeat' first
    | with_reducible assumption
    | with_reducible apply Env.countSectors_held
    | with_reducible refine Env.loadEach_held ?_ ‹_›

theorem Env.store1_held {e : Env} {m : Member} {x : Spot} {bs : List Byte} (hk : Held c₀ n₀ s) :
    Held c₀ n₀ (Env.store1 e s m x bs) := by
  unfold Env.store1
  repeat' first
    | with_reducible assumption
    | with_reducible apply State.modWarp_held
    | with_reducible apply State.count_held
    | with_reducible apply State.performStore_held
    | with_reducible refine Held.cells ?_
    | (refine Held.of_cells ?_; dsimp only)
    | with_reducible intro _
    | split

theorem Env.storeAll_held {e : Env} {l : List (Member × Spot × List Byte)} (hk : Held c₀ n₀ s) :
    Held c₀ n₀ (Env.storeAll e s l) := by
  unfold Env.storeAll
  repeat' first
    | with_reducible assumption
    | with_reducible apply Env.store1_held
    | (with_reducible refine foldl_held (fun _ _ _ => ?_) _ ?_)

theorem Env.rmw1_held {e : Env} {m : Member} {x : Spot} {n : Nat} {f : Nat → Nat} (hk : Held c₀ n₀ s) {r_ : State × Nat} (eq₀ :
    (Env.rmw1 e s m x n f) = .ok r_) : Held c₀ n₀ r_.1 := by
  unfold Env.rmw1 at eq₀
  repeat' first | (split at eq₀) | (dsimp only at eq₀) | cases eq₀ | done
  all_goals try dsimp only
  repeat' first
    | with_reducible assumption
    | with_reducible apply State.modWarp_held
    | with_reducible apply State.conflict_held
    | with_reducible apply State.count_held
    | with_reducible apply State.performStore_held

theorem Env.rmwAll_held {e : Env} {n : Nat} {f : Member → Nat → Nat} {l : List (Member × Spot)} (hk : Held c₀ n₀ s)
    {r_ : State × List (Nat × Nat)} (eq₀ : (Env.rmwAll e s n f l) = .ok r_) : Held c₀ n₀ r_.1 := by
  induction l generalizing s e n f r_ with
  | nil =>
    unfold Env.rmwAll at eq₀
    repeat' first | (split at eq₀) | (dsimp only at eq₀) | cases eq₀
    all_goals try dsimp only
    repeat' first
      | with_reducible assumption
  | cons x l ih =>
    unfold Env.rmwAll at eq₀
    repeat' first | (split at eq₀) | (dsimp only at eq₀) | cases eq₀
    all_goals try dsimp only
    repeat' first
      | with_reducible assumption
      | with_reducible refine ih ?_ ‹_›
      | with_reducible refine Env.rmw1_held ?_ ‹_›

theorem Env.acquire_held {e : Env} {scope : Nat} (hk : Held c₀ n₀ s) : Held c₀ n₀ (Env.acquire e s scope) := by
  unfold Env.acquire
  repeat' first
    | with_reducible assumption
    | with_reducible apply State.dropL1_held
    | split

theorem Env.release_held {e : Env} (hk : Held c₀ n₀ s) : Held c₀ n₀ (Env.release e s) := by
  unfold Env.release
  repeat' first
    | with_reducible assumption
    | with_reducible apply State.deliver_held

/-! ### Image -/

theorem State.savePieces_held {own : Asker} {pf : Nat} {ctx : Nat} {die : Nat} {va : Nat} {n : Nat} {ps : Pieces} {fuel : Nat}
    (hk : Held c₀ n₀ s) : AnsS c₀ n₀ (State.savePieces s own pf ctx die va n ps fuel) := by
  induction fuel generalizing s own pf ctx die va n ps with
  | zero =>
    unfold State.savePieces
    repeat' first
      | with_reducible assumption
      | with_reducible apply ih
      | with_reducible apply State.conflictRange_held
      | with_reducible apply State.touch_held
      | with_reducible apply State.reachVa_held
      | with_reducible refine Denied.Held.of_fault ?_ ‹_›
      | with_reducible refine Denied.Held.of_wait ?_ ‹_›
      | with_reducible refine AnsP.of_ok ?_ ‹_›
      | with_reducible refine AnsP.of_pair ?_ ‹_›
      | with_reducible refine AnsP.of_error ?_ ‹_›
      | with_reducible refine AnsP.of_fault ?_ ‹_›
      | with_reducible refine AnsP.of_wait ?_ ‹_›
      | with_reducible refine Held.cells ?_
      | with_reducible apply Cells.write
      | with_reducible apply Cells.clear
      | with_reducible apply Cells.copy
      | with_reducible apply Cells.restore
      | with_reducible apply Cells.putBack
      | with_reducible apply Cells.set
      | with_reducible apply Cells.filter
      | (with_reducible refine AnsP.map ?_ (fun _ _ => ?_))
      | (with_reducible refine AnsS.bind ?_ (fun _ _ => ?_))
      | (with_reducible refine AnsP.bind ?_ (fun _ _ => ?_))
      | (with_reducible refine AnsS.map ?_ (fun _ _ => ?_))
      | (with_reducible refine AnsN.then ?_ (fun _ => ?_))
      | (with_reducible apply AnsN.map)
      | (with_reducible refine AnsN.bind ?_ (fun _ => ?_))
      | exact AnsN.pure
      | (with_reducible refine Eng.bind_held ?_ (fun _ _ _ => ?_))
      | (with_reducible refine Cells.fold ?_ (fun _ _ _ => ?_) _)
      | (with_reducible refine foldl_held (fun _ _ _ => ?_) _ ?_)
      | with_reducible intro _
      | split
      | with_reducible apply AnsS.ok
  | succ fuel ih =>
    unfold State.savePieces
    repeat' first
      | with_reducible assumption
      | with_reducible apply ih
      | with_reducible apply State.conflictRange_held
      | with_reducible apply State.touch_held
      | with_reducible apply State.reachVa_held
      | with_reducible refine Denied.Held.of_fault ?_ ‹_›
      | with_reducible refine Denied.Held.of_wait ?_ ‹_›
      | with_reducible refine AnsP.of_ok ?_ ‹_›
      | with_reducible refine AnsP.of_pair ?_ ‹_›
      | with_reducible refine AnsP.of_error ?_ ‹_›
      | with_reducible refine AnsP.of_fault ?_ ‹_›
      | with_reducible refine AnsP.of_wait ?_ ‹_›
      | with_reducible refine Held.cells ?_
      | with_reducible apply Cells.write
      | with_reducible apply Cells.clear
      | with_reducible apply Cells.copy
      | with_reducible apply Cells.restore
      | with_reducible apply Cells.putBack
      | with_reducible apply Cells.set
      | with_reducible apply Cells.filter
      | (with_reducible refine AnsP.map ?_ (fun _ _ => ?_))
      | (with_reducible refine AnsS.bind ?_ (fun _ _ => ?_))
      | (with_reducible refine AnsP.bind ?_ (fun _ _ => ?_))
      | (with_reducible refine AnsS.map ?_ (fun _ _ => ?_))
      | (with_reducible refine AnsN.then ?_ (fun _ => ?_))
      | (with_reducible apply AnsN.map)
      | (with_reducible refine AnsN.bind ?_ (fun _ => ?_))
      | exact AnsN.pure
      | (with_reducible refine Eng.bind_held ?_ (fun _ _ _ => ?_))
      | (with_reducible refine Cells.fold ?_ (fun _ _ _ => ?_) _)
      | (with_reducible refine foldl_held (fun _ _ _ => ?_) _ ?_)
      | (refine Held.of_cells ?_; dsimp only)
      | with_reducible intro _
      | split
      | with_reducible apply AnsS.ok
      | with_reducible apply Ans.error

theorem State.saveNat_held {own : Asker} {pf : Nat} {ctx : Nat} {die : Nat} {va : Nat} {n : Nat} (hk : Held c₀ n₀ s) :
    AnsN c₀ n₀ (State.saveNat s own pf ctx die va n) := by
  unfold State.saveNat
  repeat' first
    | with_reducible assumption
    | with_reducible apply State.reachVa_held
    | with_reducible refine Denied.Held.of_fault ?_ ‹_›
    | with_reducible refine Denied.Held.of_wait ?_ ‹_›
    | with_reducible refine AnsP.of_ok ?_ ‹_›
    | with_reducible refine AnsP.of_pair ?_ ‹_›
    | with_reducible refine AnsP.of_error ?_ ‹_›
    | with_reducible refine AnsP.of_fault ?_ ‹_›
    | with_reducible refine AnsP.of_wait ?_ ‹_›
    | with_reducible refine Held.cells ?_
    | split
    | with_reducible apply AnsN.ok
    | with_reducible apply Ans.error

/-! ### Fragments -/

theorem State.retire_held {e : Env} {r : Ret} {res : Res} {pc : Nat} (hk : Held c₀ n₀ s) :
    Held c₀ n₀ (State.retire s e r res pc) := by
  unfold State.retire
  repeat' first
    | with_reducible assumption
    | with_reducible apply State.modTeam_held
    | with_reducible apply State.modFrag_held
    | with_reducible apply State.modWarp_held
    | with_reducible apply State.count_held
    | with_reducible refine Held.cells ?_
    | (refine Held.of_cells ?_; dsimp only)
    | with_reducible intro _
    | split

theorem State.suspend_held {e : Env} {r : Ret} {w : Wait} (hk : Held c₀ n₀ s) : Held c₀ n₀ (State.suspend s e r w) := by
  unfold State.suspend
  repeat' first
    | with_reducible assumption
    | with_reducible apply State.modFrag_held
    | with_reducible apply State.count_held
    | with_reducible refine Held.cells ?_
    | with_reducible intro _
    | split

theorem State.park_held {t : Nat} {g : Nat} {w : Wait} (hk : Held c₀ n₀ s) : Held c₀ n₀ (State.park s t g w) := by
  unfold State.park
  repeat' first
    | with_reducible assumption
    | with_reducible apply State.modFrag_held

theorem State.timeOut_held {t : Nat} {g : Nat} {va : Nat} {cause : Nat} (hk : Held c₀ n₀ s) :
    Held c₀ n₀ (State.timeOut s t g va cause) := by
  unfold State.timeOut
  repeat' first
    | with_reducible assumption
    | with_reducible apply State.modFrag_held

theorem State.wake_held {t : Nat} {g : Nat} {walked : Bool} (hk : Held c₀ n₀ s) : Held c₀ n₀ (State.wake s t g walked) := by
  unfold State.wake
  repeat' first
    | with_reducible assumption
    | with_reducible apply State.modFrag_held

theorem State.release_held {t : Nat} {g : Nat} (hk : Held c₀ n₀ s) : Held c₀ n₀ (State.release s t g) := by
  unfold State.release
  repeat' first
    | with_reducible assumption
    | with_reducible apply State.modTeam_held

theorem State.retireHead_held {core : Nat} (hk : Held c₀ n₀ s) : Held c₀ n₀ (State.retireHead s core) := by
  unfold State.retireHead
  repeat' first
    | with_reducible assumption
    | with_reducible apply State.modTeam_held
    | with_reducible apply State.modCore_held
    | with_reducible apply State.wakeOn_held
    | with_reducible apply State.count_held
    | with_reducible refine Held.cells ?_
    | (refine Held.of_cells ?_; dsimp only)
    | with_reducible intro _
    | split

theorem State.drainMatrix_held {t : Nat} {g : Nat} {fuel : Nat} (hk : Held c₀ n₀ s) :
    Held c₀ n₀ (State.drainMatrix s t g fuel) := by
  induction fuel generalizing s t g with
  | zero =>
    unfold State.drainMatrix
    repeat' first
      | with_reducible assumption
  | succ fuel ih =>
    unfold State.drainMatrix
    repeat' first
      | with_reducible assumption
      | with_reducible apply ih
      | with_reducible apply State.retireHead_held
      | with_reducible intro _
      | split

theorem State.settle_held {t : Nat} {g : Nat} (hk : Held c₀ n₀ s) : Held c₀ n₀ (State.settle s t g) := by
  unfold State.settle
  repeat' first
    | with_reducible assumption
    | with_reducible apply State.deliverFrag_held
    | with_reducible apply Env.release_held
    | with_reducible apply State.release_held
    | with_reducible apply State.drainMatrix_held

theorem State.split_held {t : Nat} {g : Nat} {parts : List (Nat × List Member)} {rcv : Nat} (hk : Held c₀ n₀ s) :
    Held c₀ n₀ (State.split s t g parts rcv) := by
  unfold State.split
  repeat' first
    | with_reducible assumption
    | with_reducible apply State.modTeam_held
    | with_reducible refine Held.cells ?_
    | with_reducible apply Cells.filter
    | (refine Held.of_cells ?_; dsimp only)

theorem State.popTest_held {t : Nat} {ent : Nat} (hk : Held c₀ n₀ s) : Held c₀ n₀ (State.popTest s t ent) := by
  unfold State.popTest
  repeat' first
    | with_reducible assumption
    | with_reducible apply State.modTeam_held
    | with_reducible apply State.count_held
    | with_reducible refine Held.cells ?_
    | with_reducible apply Cells.filter
    | (refine Held.of_cells ?_; dsimp only)
    | with_reducible intro _
    | split

theorem State.popTests_held {t : Nat} {ents : List Nat} (hk : Held c₀ n₀ s) : Held c₀ n₀ (State.popTests s t ents) := by
  unfold State.popTests
  repeat' first
    | with_reducible assumption
    | with_reducible apply State.popTest_held
    | (with_reducible refine foldl_held (fun _ _ _ => ?_) _ ?_)

theorem State.parkFrag_held {t : Nat} {g : Nat} (hk : Held c₀ n₀ s) : Held c₀ n₀ (State.parkFrag s t g) := by
  unfold State.parkFrag
  repeat' first
    | with_reducible assumption
    | with_reducible apply State.modTeam_held
    | with_reducible apply State.modFrag_held
    | with_reducible apply State.settle_held
    | with_reducible apply State.popTest_held
    | with_reducible refine Held.cells ?_
    | with_reducible apply Cells.set
    | (refine Held.of_cells ?_; dsimp only)
    | with_reducible intro _
    | split

theorem State.closeTest_held {t : Nat} (hk : Held c₀ n₀ s) : Held c₀ n₀ (State.closeTest s t) := by
  unfold State.closeTest
  repeat' first
    | with_reducible assumption
    | with_reducible apply State.modTeam_held
    | with_reducible apply State.addTerms_held
    | with_reducible apply State.popTests_held
    | with_reducible refine Held.cells ?_
    | (refine Held.of_cells ?_; dsimp only)
    | with_reducible intro _
    | split

theorem State.exitThreads_held {t : Nat} {g : Nat} {tids : List Nat} (hk : Held c₀ n₀ s) :
    Held c₀ n₀ (State.exitThreads s t g tids) := by
  unfold State.exitThreads
  repeat' first
    | with_reducible assumption
    | with_reducible apply State.modTeam_held
    | with_reducible apply State.teamCheck_held
    | with_reducible apply State.popTests_held
    | with_reducible apply State.closeTest_held

theorem State.joinThreads_held {t : Nat} {g : Nat} {tids : List Nat} {resume : Nat} (hk : Held c₀ n₀ s) :
    Held c₀ n₀ (State.joinThreads s t g tids resume) := by
  unfold State.joinThreads
  repeat' first
    | with_reducible assumption
    | with_reducible apply State.modTeam_held
    | with_reducible apply State.teamCheck_held
    | with_reducible apply State.popTests_held
    | with_reducible apply State.closeTest_held

theorem State.fileThread_held {t : Nat} {tid : Nat} {key : Nat} (hk : Held c₀ n₀ s) {r_ : State} (eq₀ :
    (State.fileThread s t tid key) = some r_) : Held c₀ n₀ r_ := by
  unfold State.fileThread at eq₀
  repeat' first | (split at eq₀) | (dsimp only at eq₀) | cases eq₀ | done
  repeat' first
    | with_reducible assumption
    | with_reducible apply State.modTeam_held
    | with_reducible apply State.modCore_held

theorem State.fileThreads_held {t : Nat} {key : Nat} {l : List Nat} (hk : Held c₀ n₀ s) {r_ : State × List Nat} (eq₀ :
    (State.fileThreads s t key l) = r_) : Held c₀ n₀ r_.1 := by
  induction l generalizing s t key r_ with
  | nil =>
    subst eq₀
    unfold State.fileThreads
    all_goals try dsimp only
    repeat' first
      | with_reducible assumption
  | cons x l ih =>
    subst eq₀
    unfold State.fileThreads
    all_goals try dsimp only
    repeat' first
      | with_reducible assumption
      | with_reducible refine ih ?_ ‹_›
      | with_reducible refine ih ?_ rfl
      | with_reducible refine State.fileThread_held ?_ ‹_›
      | with_reducible refine Held.cells ?_
      | (refine Held.of_cells ?_; dsimp only)
      | with_reducible intro _
      | split

theorem State.drawGroup_held {core : Nat} {t : Nat} {key : Nat} {tids : List Nat} (hk : Held c₀ n₀ s) :
    Held c₀ n₀ (State.drawGroup s core t key tids) := by
  unfold State.drawGroup
  repeat' first
    | with_reducible assumption
    | with_reducible apply State.modTeam_held
    | with_reducible apply State.count_held
    | with_reducible refine Held.cells ?_
    | with_reducible apply Cells.filter
    | (with_reducible refine Cells.fold ?_ (fun _ _ _ => ?_) _)
    | (with_reducible refine foldl_held (fun _ _ _ => ?_) _ ?_)
    | (refine Held.of_cells ?_; dsimp only)

/-! ### Sync -/

theorem State.setPhaser_held {t : Nat} {h : Nat} {p : Phaser} (hk : Held c₀ n₀ s) : Held c₀ n₀ (State.setPhaser s t h p) := by
  unfold State.setPhaser
  repeat' first
    | with_reducible assumption
    | with_reducible apply State.modTeam_held
    | with_reducible apply State.modDie_held
    | with_reducible refine Held.cells ?_
    | with_reducible intro _
    | split

theorem State.setAgain_held {t : Nat} {w : Nat} {h : Nat} {phase : Nat} {b : Bool} (hk : Held c₀ n₀ s) :
    Held c₀ n₀ (State.setAgain s t w h phase b) := by
  unfold State.setAgain
  repeat' first
    | with_reducible assumption
    | with_reducible apply State.modWarp_held

theorem State.endTry_held {t : Nat} {g : Nat} {scope : Nat} {f : Fields} {ok : Bool} (hk : Held c₀ n₀ s) :
    Held c₀ n₀ (State.endTry s t g scope f ok) := by
  unfold State.endTry
  repeat' first
    | with_reducible assumption
    | with_reducible apply Env.acquire_held
    | with_reducible apply State.retire_held
    | with_reducible intro _
    | split

theorem State.restoreWarp_held {t : Nat} {w : Nat} {x : Shadow} {pc : Nat} (hk : Held c₀ n₀ s) :
    Held c₀ n₀ (State.restoreWarp s t w x pc) := by
  unfold State.restoreWarp
  repeat' first
    | with_reducible assumption
    | with_reducible apply State.modTeam_held
    | with_reducible apply State.modWarp_held
    | with_reducible refine Held.cells ?_
    | with_reducible apply Cells.filter
    | (with_reducible refine Cells.fold ?_ (fun _ _ _ => ?_) _)
    | (with_reducible refine foldl_held (fun _ _ _ => ?_) _ ?_)
    | (refine Held.of_cells ?_; dsimp only)

theorem State.flushBuf_held {t : Nat} {w : Nat} {buf : List Host.Cell} {pages : List (Nat × Nat)} (hk : Held c₀ n₀ s) :
    Held c₀ n₀ (State.flushBuf s t w buf pages) := by
  unfold State.flushBuf
  repeat' first
    | with_reducible assumption
    | with_reducible apply State.count_held
    | with_reducible apply State.performStore_held
    | (with_reducible refine foldl_held (fun _ _ _ => ?_) _ ?_)

theorem State.wakePaused_held {t : Nat} {w : Nat} (hk : Held c₀ n₀ s) : Held c₀ n₀ (State.wakePaused s t w) := by
  unfold State.wakePaused
  repeat' first
    | with_reducible assumption
    | with_reducible apply State.modTeam_held

theorem State.acquireTeam_held {t : Nat} {w : Nat} (hk : Held c₀ n₀ s) : Held c₀ n₀ (State.acquireTeam s t w) := by
  unfold State.acquireTeam
  repeat' first
    | with_reducible assumption
    | with_reducible apply State.dropL1_held
    | split
    | dsimp only

theorem State.commitSpec_held {t : Nat} {w : Nat} (hk : Held c₀ n₀ s) : Held c₀ n₀ (State.commitSpec s t w) := by
  unfold State.commitSpec
  repeat' first
    | with_reducible assumption
    | with_reducible apply State.modTeam_held
    | with_reducible apply State.modWarp_held
    | with_reducible apply State.flushBuf_held
    | with_reducible apply State.wakePaused_held
    | with_reducible apply State.acquireTeam_held
    | with_reducible refine Held.cells ?_
    | (refine Held.of_cells ?_; dsimp only)
    | with_reducible intro _
    | split

theorem State.rollback_held {t : Nat} {w : Nat} (hk : Held c₀ n₀ s) : Held c₀ n₀ (State.rollback s t w) := by
  unfold State.rollback
  repeat' first
    | with_reducible assumption
    | with_reducible apply State.modTeam_held
    | with_reducible apply State.modWarp_held
    | with_reducible apply State.count_held
    | with_reducible apply State.restoreWarp_held
    | with_reducible refine Held.cells ?_
    | (refine Held.of_cells ?_; dsimp only)
    | with_reducible intro _
    | split

theorem State.checkSpecs_held {t : Nat} {w : Nat} {lines : List Nat} (hk : Held c₀ n₀ s) :
    Held c₀ n₀ (State.checkSpecs s t w lines) := by
  unfold State.checkSpecs
  repeat' first
    | with_reducible assumption
    | with_reducible apply State.rollback_held
    | with_reducible refine Held.cells ?_
    | (with_reducible refine foldl_held (fun _ _ _ => ?_) _ ?_)
    | with_reducible intro _
    | split

theorem State.endSpecs_held {t : Nat} {h : Nat} {p : Phaser} (hk : Held c₀ n₀ s) : Held c₀ n₀ (State.endSpecs s t h p) := by
  unfold State.endSpecs
  repeat' first
    | with_reducible assumption
    | with_reducible apply State.commitSpec_held
    | with_reducible apply State.rollback_held
    | (with_reducible refine foldl_held (fun _ _ _ => ?_) _ ?_)
    | with_reducible intro _
    | split

theorem State.notify_held {t : Nat} {h : Nat} {p : Phaser} {fr : Frag} (hk : Held c₀ n₀ s) :
    Held c₀ n₀ (State.notify s t h p fr) := by
  unfold State.notify
  repeat' first
    | with_reducible assumption
    | with_reducible apply State.wake_held
    | with_reducible apply State.setAgain_held
    | with_reducible apply State.endTry_held
    | with_reducible refine Held.cells ?_
    | split

theorem State.putPhaser_held {t : Nat} {h : Nat} {p : Phaser} (hk : Held c₀ n₀ s) : Held c₀ n₀ (State.putPhaser s t h p) := by
  unfold State.putPhaser
  repeat' first
    | with_reducible assumption
    | with_reducible apply State.setPhaser_held
    | with_reducible apply State.endSpecs_held
    | with_reducible apply State.notify_held
    | with_reducible refine Held.cells ?_
    | (with_reducible refine foldl_held (fun _ _ _ => ?_) _ ?_)
    | (refine Held.of_cells ?_; dsimp only)
    | with_reducible intro _
    | split

theorem State.arrive_held {t : Nat} {w : Nat} {h : Nat} (hk : Held c₀ n₀ s) : Held c₀ n₀ (State.arrive s t w h) := by
  unfold State.arrive
  repeat' first
    | with_reducible assumption
    | with_reducible apply State.modWarp_held
    | with_reducible apply State.checkSpecs_held
    | with_reducible apply State.putPhaser_held
    | with_reducible refine Held.cells ?_
    | (refine Held.of_cells ?_; dsimp only)
    | with_reducible intro _
    | split

theorem State.arriveEngine_held {t : Nat} {h : Nat} (hk : Held c₀ n₀ s) : Held c₀ n₀ (State.arriveEngine s t h) := by
  unfold State.arriveEngine
  repeat' first
    | with_reducible assumption
    | with_reducible apply State.putPhaser_held
    | with_reducible apply State.arrive_held
    | with_reducible refine Held.cells ?_
    | split

theorem State.sendArrival_held {t : Nat} {die : Nat} {h : Nat} (hk : Held c₀ n₀ s) :
    Held c₀ n₀ (State.sendArrival s t die h) := by
  unfold State.sendArrival
  repeat' first
    | with_reducible assumption
    | with_reducible apply State.arriveEngine_held
    | with_reducible refine Held.cells ?_
    | (refine Held.of_cells ?_; dsimp only)
    | split

theorem State.retryArrival_held {x : Waiting} (hk : Held c₀ n₀ s) : Held c₀ n₀ (State.retryArrival s x) := by
  unfold State.retryArrival
  repeat' first
    | with_reducible assumption
    | with_reducible apply State.teamCheck_held
    | with_reducible apply State.terminate_held
    | with_reducible apply State.arriveEngine_held
    | with_reducible refine Held.cells ?_
    | (refine Held.of_cells ?_; dsimp only)
    | split

theorem State.retryArrivals_held (hk : Held c₀ n₀ s) : Held c₀ n₀ (State.retryArrivals s) := by
  unfold State.retryArrivals
  repeat' first
    | with_reducible assumption
    | with_reducible apply State.retryArrival_held
    | (with_reducible refine foldl_held (fun _ _ _ => ?_) _ ?_)

theorem State.abortTx_held {t : Nat} {w : Nat} {more : List Abort} (hk : Held c₀ n₀ s) :
    Held c₀ n₀ (State.abortTx s t w more) := by
  unfold State.abortTx
  repeat' first
    | with_reducible assumption
    | with_reducible apply State.modWarp_held
    | with_reducible apply State.count_held
    | with_reducible apply State.restoreWarp_held
    | with_reducible refine Held.cells ?_
    | (refine Held.of_cells ?_; dsimp only)
    | with_reducible intro _
    | split

theorem State.commitTx_held {t : Nat} {w : Nat} (hk : Held c₀ n₀ s) : Held c₀ n₀ (State.commitTx s t w) := by
  unfold State.commitTx
  repeat' first
    | with_reducible assumption
    | with_reducible apply State.modWarp_held
    | with_reducible apply State.flushBuf_held
    | with_reducible refine Held.cells ?_
    | (refine Held.of_cells ?_; dsimp only)
    | with_reducible intro _
    | split

/-! ### Ops -/

theorem State.dropProducts_held {t : Nat} (hk : Held c₀ n₀ s) : Held c₀ n₀ (State.dropProducts s t) := by
  unfold State.dropProducts
  repeat' first
    | with_reducible assumption
    | with_reducible apply State.modCore_held
    | with_reducible apply State.wakeOn_held
    | with_reducible refine Held.cells ?_
    | (with_reducible refine foldl_held (fun _ _ _ => ?_) _ ?_)

theorem State.drainTeam_held {t : Nat} {fuel : Nat} (hk : Held c₀ n₀ s) : Held c₀ n₀ (State.drainTeam s t fuel) := by
  induction fuel generalizing s t with
  | zero =>
    unfold State.drainTeam
    repeat' first
      | with_reducible assumption
  | succ fuel ih =>
    unfold State.drainTeam
    repeat' first
      | with_reducible assumption
      | with_reducible apply ih
      | with_reducible apply State.retireHead_held
      | with_reducible intro _
      | split
      | dsimp only

theorem State.stopTeam_held {t : Nat} (hk : Held c₀ n₀ s) : Held c₀ n₀ (State.stopTeam s t) := by
  unfold State.stopTeam
  repeat' first
    | with_reducible assumption
    | with_reducible apply State.modTeam_held
    | with_reducible apply State.modCtx_held
    | with_reducible apply State.deliver_held
    | with_reducible apply State.rollback_held
    | with_reducible apply State.abortTx_held
    | with_reducible apply State.dropProducts_held
    | with_reducible apply State.drainTeam_held
    | with_reducible refine Held.cells ?_
    | (with_reducible refine foldl_held (fun _ _ _ => ?_) _ ?_)

theorem State.stopLaunch_held {l : Nat} (hk : Held c₀ n₀ s) : Held c₀ n₀ (State.stopLaunch s l) := by
  unfold State.stopLaunch
  repeat' first
    | with_reducible assumption
    | with_reducible apply State.stopTeam_held
    | (with_reducible refine foldl_held (fun _ _ _ => ?_) _ ?_)
    | with_reducible intro _
    | split

theorem State.haltLaunch_held {l : Nat} (hk : Held c₀ n₀ s) : Held c₀ n₀ (State.haltLaunch s l) := by
  unfold State.haltLaunch
  repeat' first
    | with_reducible assumption
    | with_reducible apply State.modLaunch_held
    | with_reducible apply State.stopLaunch_held

theorem State.writeFrame_held {e : Env} {x : TrapInfo} {fwd : Bool} (hk : Held c₀ n₀ s) :
    AnsS c₀ n₀ (State.writeFrame s e x fwd) := by
  unfold State.writeFrame
  repeat' first
    | with_reducible assumption
    | with_reducible apply State.savePieces_held
    | with_reducible refine Denied.Held.of_fault ?_ ‹_›
    | with_reducible refine Denied.Held.of_wait ?_ ‹_›
    | with_reducible refine AnsS.of_ok ?_ ‹_›
    | with_reducible refine AnsS.of_error ?_ ‹_›
    | with_reducible refine AnsS.of_fault ?_ ‹_›
    | with_reducible refine AnsS.of_wait ?_ ‹_›
    | with_reducible refine Eng.Held.of_ok ?_ ‹_›
    | with_reducible refine Eng.Held.of_fault ?_ ‹_›
    | with_reducible refine Eng.Held.of_stay ?_ ‹_›
    | with_reducible refine Eng.Held.of_bad ?_ ‹_›
    | (with_reducible refine AnsP.map ?_ (fun _ _ => ?_))
    | (with_reducible refine AnsS.bind ?_ (fun _ _ => ?_))

theorem State.saveFault_held {pf : Nat} {ctx : Nat} (hk : Held c₀ n₀ s) : Held c₀ n₀ (State.saveFault s pf ctx) := by
  unfold State.saveFault
  repeat' first
    | with_reducible assumption
    | with_reducible apply State.terminate_held
    | with_reducible refine Held.cells ?_
    | (refine Held.of_cells ?_; dsimp only)

theorem State.areaFault_held {data : Bool} {pf : Nat} {ctx : Nat} {die : Nat} {va : Nat} {n : Nat} {cause : Nat}
    (hk : Held c₀ n₀ s) : Held c₀ n₀ (State.areaFault s data pf ctx die va n cause) := by
  unfold State.areaFault
  repeat' first
    | with_reducible assumption
    | with_reducible apply State.badWord_held
    | with_reducible apply State.saveFault_held
    | with_reducible refine Held.cells ?_
    | split

theorem State.readFault_held {pf : Nat} {ctx : Nat} {die : Nat} {va : Nat} {n : Nat} {cause : Nat} (hk : Held c₀ n₀ s) :
    Held c₀ n₀ (State.readFault s pf ctx die va n cause) := by
  unfold State.readFault
  repeat' first
    | with_reducible assumption
    | with_reducible apply State.areaFault_held

theorem State.writeFault_held {pf : Nat} {ctx : Nat} {die : Nat} {va : Nat} {n : Nat} {cause : Nat} (hk : Held c₀ n₀ s) :
    Held c₀ n₀ (State.writeFault s pf ctx die va n cause) := by
  unfold State.writeFault
  repeat' first
    | with_reducible assumption
    | with_reducible apply State.areaFault_held

theorem State.afterSave_held {e : Env} {r : Except Denied State} {hold : State → State} {go : State → State} 
    (h_r : AnsS c₀ n₀ r) (h_hold : ∀ (a0 : State), Held c₀ n₀ a0 → Held c₀ n₀ (hold a0)) (h_go : ∀
    (a0 : State), Held c₀ n₀ a0 → Held c₀ n₀ (go a0)) : Held c₀ n₀ (State.afterSave e r hold go) := by
  unfold State.afterSave
  repeat' first
    | with_reducible assumption
    | with_reducible apply h_r
    | with_reducible apply h_hold
    | with_reducible apply h_go
    | with_reducible apply State.writeFault_held
    | with_reducible refine Denied.Held.of_fault ?_ ‹_›
    | with_reducible refine Denied.Held.of_wait ?_ ‹_›
    | with_reducible refine AnsS.of_ok ?_ ‹_›
    | with_reducible refine AnsS.of_error ?_ ‹_›
    | with_reducible refine AnsS.of_fault ?_ ‹_›
    | with_reducible refine AnsS.of_wait ?_ ‹_›
    | with_reducible refine Held.cells ?_
    | with_reducible apply Cells.write
    | with_reducible apply Cells.clear
    | with_reducible apply Cells.copy
    | with_reducible apply Cells.restore
    | with_reducible apply Cells.putBack
    | with_reducible apply Cells.set
    | with_reducible apply Cells.filter
    | (with_reducible refine AnsP.map ?_ (fun _ _ => ?_))
    | (with_reducible refine AnsS.bind ?_ (fun _ _ => ?_))
    | (with_reducible refine AnsP.bind ?_ (fun _ _ => ?_))
    | (with_reducible refine AnsS.map ?_ (fun _ _ => ?_))
    | (with_reducible refine AnsN.then ?_ (fun _ => ?_))
    | (with_reducible apply AnsN.map)
    | (with_reducible refine AnsN.bind ?_ (fun _ => ?_))
    | exact AnsN.pure
    | (with_reducible refine Eng.bind_held ?_ (fun _ _ _ => ?_))
    | (with_reducible refine Cells.fold ?_ (fun _ _ _ => ?_) _)
    | (with_reducible refine foldl_held (fun _ _ _ => ?_) _ ?_)
    | with_reducible intro _
    | split
    | exact h_r

theorem State.holdTrap_held {e : Env} {x : TrapInfo} (hk : Held c₀ n₀ s) : Held c₀ n₀ (State.holdTrap s e x) := by
  unfold State.holdTrap
  repeat' first
    | with_reducible assumption
    | with_reducible apply State.modFrag_held

theorem State.enterTrap_held {e : Env} {x : TrapInfo} (hk : Held c₀ n₀ s) : Held c₀ n₀ (State.enterTrap s e x) := by
  unfold State.enterTrap
  repeat' first
    | with_reducible assumption
    | with_reducible apply State.modTeam_held
    | with_reducible apply State.modFrag_held
    | with_reducible apply State.modWarp_held
    | with_reducible apply State.ctxEvent_held
    | with_reducible apply State.dropL1_held
    | with_reducible apply State.settle_held
    | with_reducible apply State.haltLaunch_held
    | with_reducible apply State.writeFrame_held
    | with_reducible apply State.afterSave_held
    | with_reducible apply State.holdTrap_held
    | with_reducible refine Denied.Held.of_fault ?_ ‹_›
    | with_reducible refine Denied.Held.of_wait ?_ ‹_›
    | with_reducible refine AnsS.of_ok ?_ ‹_›
    | with_reducible refine AnsS.of_error ?_ ‹_›
    | with_reducible refine AnsS.of_fault ?_ ‹_›
    | with_reducible refine AnsS.of_wait ?_ ‹_›
    | with_reducible refine Held.cells ?_
    | with_reducible apply Cells.write
    | with_reducible apply Cells.clear
    | with_reducible apply Cells.copy
    | with_reducible apply Cells.restore
    | with_reducible apply Cells.putBack
    | with_reducible apply Cells.set
    | with_reducible apply Cells.filter
    | (with_reducible refine AnsP.map ?_ (fun _ _ => ?_))
    | (with_reducible refine AnsS.bind ?_ (fun _ _ => ?_))
    | (with_reducible refine AnsP.bind ?_ (fun _ _ => ?_))
    | (with_reducible refine AnsS.map ?_ (fun _ _ => ?_))
    | (with_reducible refine AnsN.then ?_ (fun _ => ?_))
    | (with_reducible apply AnsN.map)
    | (with_reducible refine AnsN.bind ?_ (fun _ => ?_))
    | exact AnsN.pure
    | (with_reducible refine Eng.bind_held ?_ (fun _ _ _ => ?_))
    | (with_reducible refine Cells.fold ?_ (fun _ _ _ => ?_) _)
    | (with_reducible refine foldl_held (fun _ _ _ => ?_) _ ?_)
    | (refine Held.of_cells ?_; dsimp only)
    | with_reducible intro _
    | split

theorem State.secondTrap_held {e : Env} {x : TrapInfo} (hk : Held c₀ n₀ s) : Held c₀ n₀ (State.secondTrap s e x) := by
  unfold State.secondTrap
  repeat' first
    | with_reducible assumption
    | with_reducible apply State.modFrag_held
    | with_reducible apply State.ctxEvent_held
    | with_reducible apply State.deviceWrite_held
    | with_reducible apply State.haltLaunch_held
    | with_reducible apply State.afterSave_held
    | with_reducible apply State.holdTrap_held
    | with_reducible refine Denied.Held.of_fault ?_ ‹_›
    | with_reducible refine Denied.Held.of_wait ?_ ‹_›
    | with_reducible refine AnsS.of_ok ?_ ‹_›
    | with_reducible refine AnsS.of_error ?_ ‹_›
    | with_reducible refine AnsS.of_fault ?_ ‹_›
    | with_reducible refine AnsS.of_wait ?_ ‹_›
    | with_reducible refine Held.cells ?_
    | with_reducible intro _

theorem State.takeTrap_held {e : Env} {x : TrapInfo} (hk : Held c₀ n₀ s) : Held c₀ n₀ (State.takeTrap s e x) := by
  unfold State.takeTrap
  repeat' first
    | with_reducible assumption
    | with_reducible apply State.modFrag_held
    | with_reducible apply State.deliverFrag_held
    | with_reducible apply State.holdTrap_held
    | with_reducible apply State.enterTrap_held
    | with_reducible apply State.secondTrap_held
    | with_reducible refine Held.cells ?_
    | with_reducible apply Cells.write
    | with_reducible apply Cells.clear
    | with_reducible apply Cells.copy
    | with_reducible apply Cells.restore
    | with_reducible apply Cells.putBack
    | with_reducible apply Cells.set
    | with_reducible apply Cells.filter
    | (with_reducible refine AnsP.map ?_ (fun _ _ => ?_))
    | (with_reducible refine AnsS.bind ?_ (fun _ _ => ?_))
    | (with_reducible refine AnsP.bind ?_ (fun _ _ => ?_))
    | (with_reducible refine AnsS.map ?_ (fun _ _ => ?_))
    | (with_reducible refine AnsN.then ?_ (fun _ => ?_))
    | (with_reducible apply AnsN.map)
    | (with_reducible refine AnsN.bind ?_ (fun _ => ?_))
    | exact AnsN.pure
    | (with_reducible refine Eng.bind_held ?_ (fun _ _ _ => ?_))
    | (with_reducible refine Cells.fold ?_ (fun _ _ _ => ?_) _)
    | (with_reducible refine foldl_held (fun _ _ _ => ?_) _ ?_)
    | (refine Held.of_cells ?_; dsimp only)
    | with_reducible intro _
    | split

theorem State.raise_held {e : Env} {x : TrapInfo} (hk : Held c₀ n₀ s) : Held c₀ n₀ (State.raise s e x) := by
  unfold State.raise
  repeat' first
    | with_reducible assumption
    | with_reducible apply State.park_held
    | with_reducible apply State.abortTx_held
    | with_reducible apply State.takeTrap_held
    | with_reducible refine Held.cells ?_
    | split

theorem State.saveWords_held {own : Asker} {pf : Nat} {ctx : Nat} {die : Nat} {l : List Nat} (hk : Held c₀ n₀ s) :
    AnsN c₀ n₀ (State.saveWords s own pf ctx die l) := by
  induction l generalizing s own pf ctx die with
  | nil =>
    unfold State.saveWords
    repeat' first
      | with_reducible assumption
      | with_reducible apply ih
      | with_reducible apply State.saveNat_held
      | with_reducible refine Denied.Held.of_fault ?_ ‹_›
      | with_reducible refine Denied.Held.of_wait ?_ ‹_›
      | with_reducible refine AnsN.of_error ?_ ‹_›
      | with_reducible refine AnsN.of_fault ?_ ‹_›
      | with_reducible refine AnsN.of_wait ?_ ‹_›
      | with_reducible refine Held.cells ?_
      | with_reducible intro _
      | split
      | with_reducible apply AnsN.ok
  | cons x l ih =>
    unfold State.saveWords
    repeat' first
      | with_reducible assumption
      | with_reducible apply ih
      | with_reducible apply State.saveNat_held
      | with_reducible refine Denied.Held.of_fault ?_ ‹_›
      | with_reducible refine Denied.Held.of_wait ?_ ‹_›
      | with_reducible refine AnsN.of_error ?_ ‹_›
      | with_reducible refine AnsN.of_fault ?_ ‹_›
      | with_reducible refine AnsN.of_wait ?_ ‹_›
      | with_reducible refine Held.cells ?_
      | with_reducible intro _
      | split
      | with_reducible apply AnsN.ok
      | with_reducible apply Ans.error

theorem State.saveDoubles_held {own : Asker} {pf : Nat} {ctx : Nat} {die : Nat} {l : List Nat} (hk : Held c₀ n₀ s) :
    AnsN c₀ n₀ (State.saveDoubles s own pf ctx die l) := by
  induction l generalizing s own pf ctx die with
  | nil =>
    unfold State.saveDoubles
    repeat' first
      | with_reducible assumption
      | with_reducible apply ih
      | with_reducible apply State.saveNat_held
      | with_reducible refine Denied.Held.of_fault ?_ ‹_›
      | with_reducible refine Denied.Held.of_wait ?_ ‹_›
      | with_reducible refine AnsN.of_error ?_ ‹_›
      | with_reducible refine AnsN.of_fault ?_ ‹_›
      | with_reducible refine AnsN.of_wait ?_ ‹_›
      | with_reducible refine Held.cells ?_
      | with_reducible intro _
      | split
      | with_reducible apply AnsN.ok
  | cons x l ih =>
    unfold State.saveDoubles
    repeat' first
      | with_reducible assumption
      | with_reducible apply ih
      | with_reducible apply State.saveNat_held
      | with_reducible refine Denied.Held.of_fault ?_ ‹_›
      | with_reducible refine Denied.Held.of_wait ?_ ‹_›
      | with_reducible refine AnsN.of_error ?_ ‹_›
      | with_reducible refine AnsN.of_fault ?_ ‹_›
      | with_reducible refine AnsN.of_wait ?_ ‹_›
      | with_reducible refine Held.cells ?_
      | with_reducible intro _
      | split
      | with_reducible apply AnsN.ok
      | with_reducible apply Ans.error

theorem State.readRank_held {e : Env} {base : Nat} {m : Member} (hk : Held c₀ n₀ s) :
    AnsN c₀ n₀ (State.readRank s e base m) := by
  unfold State.readRank
  repeat' first
    | with_reducible assumption
    | with_reducible apply State.saveWords_held
    | with_reducible apply State.saveDoubles_held
    | with_reducible refine Denied.Held.of_fault ?_ ‹_›
    | with_reducible refine Denied.Held.of_wait ?_ ‹_›
    | with_reducible refine AnsN.of_error ?_ ‹_›
    | with_reducible refine AnsN.of_fault ?_ ‹_›
    | with_reducible refine AnsN.of_wait ?_ ‹_›
    | with_reducible refine Held.cells ?_
    | (with_reducible refine AnsP.map ?_ (fun _ _ => ?_))
    | (with_reducible refine AnsS.map ?_ (fun _ _ => ?_))
    | (with_reducible apply AnsN.map)
    | with_reducible intro _
    | split
    | with_reducible apply AnsN.ok
    | with_reducible apply Ans.error
    | exact True.intro
    | dsimp only

theorem State.readRanks_held {e : Env} {base : Nat} {l : List Member} (hk : Held c₀ n₀ s) :
    AnsN c₀ n₀ (State.readRanks s e base l) := by
  induction l generalizing s e base with
  | nil =>
    unfold State.readRanks
    repeat' first
      | with_reducible assumption
      | with_reducible apply ih
      | with_reducible apply State.readRank_held
      | with_reducible refine Denied.Held.of_fault ?_ ‹_›
      | with_reducible refine Denied.Held.of_wait ?_ ‹_›
      | with_reducible refine AnsN.of_error ?_ ‹_›
      | with_reducible refine AnsN.of_fault ?_ ‹_›
      | with_reducible refine AnsN.of_wait ?_ ‹_›
      | with_reducible refine Held.cells ?_
      | with_reducible intro _
      | split
      | with_reducible apply AnsN.ok
  | cons x l ih =>
    unfold State.readRanks
    repeat' first
      | with_reducible assumption
      | with_reducible apply ih
      | with_reducible apply State.readRank_held
      | with_reducible refine Denied.Held.of_fault ?_ ‹_›
      | with_reducible refine Denied.Held.of_wait ?_ ‹_›
      | with_reducible refine AnsN.of_error ?_ ‹_›
      | with_reducible refine AnsN.of_fault ?_ ‹_›
      | with_reducible refine AnsN.of_wait ?_ ‹_›
      | with_reducible refine Held.cells ?_
      | with_reducible intro _
      | split
      | with_reducible apply AnsN.ok
      | with_reducible apply Ans.error

theorem State.readPredX_held {e : Env} {base : Nat} {l : List Member} (hk : Held c₀ n₀ s) :
    AnsN c₀ n₀ (State.readPredX s e base l) := by
  induction l generalizing s e base with
  | nil =>
    unfold State.readPredX
    repeat' first
      | with_reducible assumption
      | with_reducible apply ih
      | with_reducible apply State.saveNat_held
      | with_reducible refine Denied.Held.of_fault ?_ ‹_›
      | with_reducible refine Denied.Held.of_wait ?_ ‹_›
      | with_reducible refine AnsN.of_error ?_ ‹_›
      | with_reducible refine AnsN.of_fault ?_ ‹_›
      | with_reducible refine AnsN.of_wait ?_ ‹_›
      | with_reducible refine Held.cells ?_
      | with_reducible intro _
      | split
      | with_reducible apply AnsN.ok
  | cons x l ih =>
    unfold State.readPredX
    repeat' first
      | with_reducible assumption
      | with_reducible apply ih
      | with_reducible apply State.saveNat_held
      | with_reducible refine Denied.Held.of_fault ?_ ‹_›
      | with_reducible refine Denied.Held.of_wait ?_ ‹_›
      | with_reducible refine AnsN.of_error ?_ ‹_›
      | with_reducible refine AnsN.of_fault ?_ ‹_›
      | with_reducible refine AnsN.of_wait ?_ ‹_›
      | with_reducible refine Held.cells ?_
      | with_reducible intro _
      | split
      | with_reducible apply AnsN.ok
      | with_reducible apply Ans.error

theorem State.readFrame_held {e : Env} (hk : Held c₀ n₀ s) : AnsN c₀ n₀ (State.readFrame s e) := by
  unfold State.readFrame
  repeat' first
    | with_reducible assumption
    | with_reducible apply State.saveNat_held
    | with_reducible apply State.saveWords_held
    | with_reducible apply State.saveDoubles_held
    | with_reducible apply State.readRanks_held
    | with_reducible apply State.readPredX_held
    | with_reducible refine Denied.Held.of_fault ?_ ‹_›
    | with_reducible refine Denied.Held.of_wait ?_ ‹_›
    | with_reducible refine AnsN.of_error ?_ ‹_›
    | with_reducible refine AnsN.of_fault ?_ ‹_›
    | with_reducible refine AnsN.of_wait ?_ ‹_›
    | (with_reducible refine AnsP.map ?_ (fun _ _ => ?_))
    | (with_reducible refine AnsS.map ?_ (fun _ _ => ?_))
    | (with_reducible apply AnsN.map)
    | (with_reducible refine AnsN.bind ?_ (fun _ => ?_))
    | exact AnsN.pure

theorem Env.fetch_held {e : Env} (hk : Held c₀ n₀ s) : FetchResult.Held c₀ n₀ (Env.fetch e s) := by
  unfold Env.fetch
  repeat' first
    | with_reducible assumption
    | with_reducible apply State.translate_held
    | with_reducible apply Env.translate_held
    | with_reducible refine Xlate.Held.of_ok ?_ ‹_›
    | with_reducible refine Xlate.Held.of_fault ?_ ‹_›
    | with_reducible refine Xlate.Held.of_pool ?_ ‹_›
    | with_reducible refine Xlate.Held.of_asked ?_ ‹_›
    | with_reducible refine Held.cells ?_
    | split
    | with_reducible apply FetchResult.Held.words
    | with_reducible apply FetchResult.Held.trap
    | with_reducible apply FetchResult.Held.wait
    | exact True.intro
    | dsimp only

theorem State.repeatedAt_held {e : Env} {rep : Bool} {pc cnt : Nat} (hk : Held c₀ n₀ s) :
    match s.repeatedAt e rep pc cnt with
    | .error s' => Held c₀ n₀ s'
    | .ok r => Held c₀ n₀ r.1 := by
  have hf := Env.fetch_held (e := { e with pc }) hk
  unfold State.repeatedAt
  cases rep with
  | false => exact hk
  | true =>
    dsimp only [Bool.not_true, Bool.false_eq_true, ↓reduceIte]
    generalize Env.fetch _ s = x at hf ⊢
    cases x with
    | words s ws =>
      cases ws with
      | nil => exact hf
      | cons w ws =>
        dsimp only [FetchResult.first?, List.head?]
        cases notRepeated w
        · exact hf
        · exact State.secondTrap_held hf
    | trap s x =>
      cases h : (FetchResult.trap s x).first? with
      | some w =>
        dsimp only
        cases notRepeated w
        · exact hf
        · exact State.secondTrap_held hf
      | none =>
        dsimp only
        by_cases hc : cnt = 0
        · rw [if_pos hc]; exact State.secondTrap_held hf
        · rw [if_neg hc]; exact hf
    | wait s w => exact State.modFrag_held hf
    | bad p => exact State.badWord_held hk

theorem State.resumeWith_held {t g : Nat} {e : Env} {frame : Except Denied FrameRead} (hk : Held c₀ n₀ s)
    (h_frame : AnsN c₀ n₀ frame) : Held c₀ n₀ (s.resumeWith t g e frame) := by
  unfold State.resumeWith
  split
  · exact State.readFault_held h_frame
  · exact State.modFrag_held h_frame
  · rename_i f
    split
    · exact State.secondTrap_held hk
    · have h := fun n => State.repeatedAt_held (e := e) (rep := f.rep) (pc := f.pc) (cnt := n) hk
      have ok {c : Nat} {r : State × Nat} (eq : s.repeatedAt e f.rep f.pc c = .ok r) : Held c₀ n₀ r.1 := by
        have := h c; rwa [eq] at this
      have error {c : Nat} {s' : State} (eq : s.repeatedAt e f.rep f.pc c = .error s') : Held c₀ n₀ s' := by
        have := h c; rwa [eq] at this
      dsimp only
      repeat' first
        | with_reducible exact State.secondTrap_held hk
        | with_reducible exact error ‹_›
        | with_reducible exact State.modTeam_held (ok ‹_›)
        | with_reducible exact State.exitThreads_held (State.modTeam_held (ok ‹_›))
        | split

theorem State.resumeFrame_held {t : Nat} {g : Nat} (hk : Held c₀ n₀ s) : Held c₀ n₀ (State.resumeFrame s t g) := by
  unfold State.resumeFrame
  repeat' first
    | with_reducible assumption
    | with_reducible apply State.readFrame_held
    | with_reducible apply State.resumeWith_held

theorem Env.settled_held {e : Env} {k : State → Effect} (hk : Held c₀ n₀ s) (h_k : ∀
    (a0 : State), Held c₀ n₀ a0 → Effect.Held c₀ n₀ (k a0)) : Effect.Held c₀ n₀ (Env.settled e s k) := by
  unfold Env.settled
  repeat' first
    | with_reducible assumption
    | with_reducible apply h_k
    | with_reducible apply State.settle_held
    | with_reducible refine Held.cells ?_
    | with_reducible intro _
    | split
    | with_reducible apply Effect.Held.trap
    | exact True.intro
    | dsimp only

theorem Env.onRelease_held {e : Env} {f : Fields} {k : Effect} (hk : Held c₀ n₀ s) (h_k : Effect.Held c₀ n₀ k) :
    Effect.Held c₀ n₀ (Env.onRelease e s f k) := by
  unfold Env.onRelease
  repeat' first
    | with_reducible assumption
    | with_reducible apply h_k
    | with_reducible apply Env.release_held
    | with_reducible apply State.release_held
    | with_reducible intro _
    | split
    | with_reducible apply Effect.Held.hold

theorem Env.conclude_held {e : Env} {f : Fields} {r : Ret} {x : Effect} (hx : x.Held c₀ n₀) :
    Held c₀ n₀ (e.conclude f r x) := by
  cases x with
  | done s x => exact State.retire_held hx
  | jump s x pc => exact State.retire_held hx
  | trap s x => exact State.raise_held hx
  | wait s w => exact State.suspend_held hx
  | hold s w => exact State.park_held hx
  | abort s code user => exact State.abortTx_held hx
  | placed s => exact hx

/-! ### Operands -/

theorem Env.issue_held {e : Env} {i : Instr} {f : Fields} {none_ : Env → Effect} {body : Env → Effect} (hk : Held c₀ n₀ s)
    (h_none_ : ∀ (a0 : Env),  Effect.Held c₀ n₀ (none_ a0)) (h_body : ∀ (a0 : Env),  Effect.Held c₀ n₀ (body a0)) :
    Held c₀ n₀ (Env.issue e s i f none_ body) := by
  unfold Env.issue
  repeat' first
    | with_reducible assumption
    | with_reducible apply h_none_
    | with_reducible apply h_body
    | with_reducible apply State.park_held
    | with_reducible apply State.abortTx_held
    | with_reducible apply State.raise_held
    | with_reducible apply Env.conclude_held
    | with_reducible refine Held.cells ?_
    | (refine Held.of_cells ?_; dsimp only)
    | with_reducible intro _
    | split

theorem issueWith_held {i : Instr} {f : Fields} {body : Env → Effect} (hk : Held c₀ n₀ s) (h_body : ∀
    (a0 : Env),  Effect.Held c₀ n₀ (body a0)) : Out c₀ n₀ (issueWith i f s body) := by
  unfold issueWith
  repeat' first
    | with_reducible assumption
    | with_reducible apply h_body
    | with_reducible apply Env.issue_held
    | with_reducible refine Held.cells ?_
    | with_reducible intro _
    | split
    | with_reducible apply Out.next
    | with_reducible apply Effect.Held.done
    | exact True.intro

theorem branchWith_held {i : Instr} {f : Fields} {none_ : Env → Effect} {body : Env → Effect} (hk : Held c₀ n₀ s) (h_none_ : ∀
    (a0 : Env),  Effect.Held c₀ n₀ (none_ a0)) (h_body : ∀ (a0 : Env),  Effect.Held c₀ n₀ (body a0)) :
    Out c₀ n₀ (branchWith i f s none_ body) := by
  unfold branchWith
  repeat' first
    | with_reducible assumption
    | with_reducible apply h_none_
    | with_reducible apply h_body
    | with_reducible apply Env.issue_held
    | with_reducible refine Held.cells ?_
    | with_reducible intro _
    | split
    | with_reducible apply Out.next
    | exact True.intro

/-! ### Fetch -/

theorem State.noteIssue_held {e : Env} {t : Nat} {g : Nat} (hk : Held c₀ n₀ s) : Held c₀ n₀ (State.noteIssue s e t g) := by
  unfold State.noteIssue
  repeat' first
    | with_reducible assumption
    | with_reducible apply State.modFrag_held
    | with_reducible apply State.modCore_held

theorem State.fetchTurn_held {t : Nat} {g : Nat} (hk : Held c₀ n₀ s) : Fetched.Held c₀ n₀ (State.fetchTurn s t g) := by
  unfold State.fetchTurn
  repeat' first
    | with_reducible assumption
    | with_reducible apply State.badWord_held
    | with_reducible apply State.deliverFrag_held
    | with_reducible apply State.park_held
    | with_reducible apply State.parkFrag_held
    | with_reducible apply State.abortTx_held
    | with_reducible apply State.raise_held
    | with_reducible apply Env.fetch_held
    | with_reducible apply State.resumeFrame_held
    | with_reducible apply State.noteIssue_held
    | with_reducible refine FetchResult.Held.of_words ?_ ‹_›
    | with_reducible refine FetchResult.Held.of_trap ?_ ‹_›
    | with_reducible refine FetchResult.Held.of_wait ?_ ‹_›
    | with_reducible refine Held.cells ?_
    | with_reducible apply Cells.write
    | with_reducible apply Cells.clear
    | with_reducible apply Cells.copy
    | with_reducible apply Cells.restore
    | with_reducible apply Cells.putBack
    | with_reducible apply Cells.set
    | with_reducible apply Cells.filter
    | (with_reducible refine AnsP.map ?_ (fun _ _ => ?_))
    | (with_reducible refine AnsS.bind ?_ (fun _ _ => ?_))
    | (with_reducible refine AnsP.bind ?_ (fun _ _ => ?_))
    | (with_reducible refine AnsS.map ?_ (fun _ _ => ?_))
    | (with_reducible refine AnsN.then ?_ (fun _ => ?_))
    | (with_reducible apply AnsN.map)
    | (with_reducible refine AnsN.bind ?_ (fun _ => ?_))
    | exact AnsN.pure
    | (with_reducible refine Eng.bind_held ?_ (fun _ _ _ => ?_))
    | (with_reducible refine Cells.fold ?_ (fun _ _ _ => ?_) _)
    | (with_reducible refine foldl_held (fun _ _ _ => ?_) _ ?_)
    | (refine Held.of_cells ?_; dsimp only)
    | with_reducible intro _
    | split
    | with_reducible apply Fetched.Held.done
    | with_reducible apply Fetched.Held.run
    | exact True.intro
    | dsimp only

/-! ### Teams -/



end Sys2Proof.Machine
end

