-- ==== Sys2Proof/Laws/KeepInstr.lean ====
section
/-! SUPPORT. The instructions of the cores keep the canonical form of memory and never lower the floor: one lemma a meaning. -/

namespace Sys2Proof.Machine

variable {c₀ : Bool} {n₀ : Nat} {s : State}

/-! ### Integer -/

theorem execOn_held {i : Instr} {f : Fields} {op : Nat → Nat → Nat → Nat} (hk : Held c₀ n₀ s) :
    Out c₀ n₀ (execOn i f s op) := by
  unfold execOn
  repeat' first
    | with_reducible assumption
    | with_reducible apply issueWith_held
    | with_reducible intro _
    | split
    | with_reducible apply Out.next
    | with_reducible apply Effect.Held.done

theorem execFit_held {i : Instr} {f : Fields} {op : Int → Int → Int → Int} (hk : Held c₀ n₀ s) :
    Out c₀ n₀ (execFit i f s op) := by
  unfold execFit
  repeat' first
    | with_reducible assumption
    | with_reducible apply execOn_held

theorem execIadd_held {f : Fields} (hk : Held c₀ n₀ s) : Out c₀ n₀ (execIadd f s) := by
  unfold execIadd
  repeat' first
    | with_reducible assumption
    | with_reducible apply execFit_held

theorem execIsub_held {f : Fields} (hk : Held c₀ n₀ s) : Out c₀ n₀ (execIsub f s) := by
  unfold execIsub
  repeat' first
    | with_reducible assumption
    | with_reducible apply execFit_held

theorem execIneg_held {f : Fields} (hk : Held c₀ n₀ s) : Out c₀ n₀ (execIneg f s) := by
  unfold execIneg
  repeat' first
    | with_reducible assumption
    | with_reducible apply execFit_held

theorem execIabs_held {f : Fields} (hk : Held c₀ n₀ s) : Out c₀ n₀ (execIabs f s) := by
  unfold execIabs
  repeat' first
    | with_reducible assumption
    | with_reducible apply execFit_held

theorem execImul_held {f : Fields} (hk : Held c₀ n₀ s) : Out c₀ n₀ (execImul f s) := by
  unfold execImul
  repeat' first
    | with_reducible assumption
    | with_reducible apply execFit_held

theorem execImulhi_held {f : Fields} (hk : Held c₀ n₀ s) : Out c₀ n₀ (execImulhi f s) := by
  unfold execImulhi
  repeat' first
    | with_reducible assumption
    | with_reducible apply execFit_held

theorem execImad_held {f : Fields} (hk : Held c₀ n₀ s) : Out c₀ n₀ (execImad f s) := by
  unfold execImad
  repeat' first
    | with_reducible assumption
    | with_reducible apply execFit_held

theorem execImin_held {f : Fields} (hk : Held c₀ n₀ s) : Out c₀ n₀ (execImin f s) := by
  unfold execImin
  repeat' first
    | with_reducible assumption
    | with_reducible apply execFit_held

theorem execImax_held {f : Fields} (hk : Held c₀ n₀ s) : Out c₀ n₀ (execImax f s) := by
  unfold execImax
  repeat' first
    | with_reducible assumption
    | with_reducible apply execFit_held

theorem execImadw_held {f : Fields} (hk : Held c₀ n₀ s) : Out c₀ n₀ (execImadw f s) := by
  unfold execImadw
  repeat' first
    | with_reducible assumption
    | with_reducible apply issueWith_held
    | with_reducible intro _
    | split
    | with_reducible apply Out.next
    | with_reducible apply Effect.Held.done

theorem execIdot4_held {f : Fields} (hk : Held c₀ n₀ s) : Out c₀ n₀ (execIdot4 f s) := by
  unfold execIdot4
  repeat' first
    | with_reducible assumption
    | with_reducible apply issueWith_held
    | with_reducible intro _
    | split
    | with_reducible apply Out.next
    | with_reducible apply Effect.Held.done

theorem State.putBeside_held {e : Env} {r : Nat} {xs : List (Nat × Bool)} (hk : Held c₀ n₀ s) :
    Held c₀ n₀ (State.putBeside s e r xs) := by
  unfold State.putBeside
  repeat' first
    | with_reducible assumption
    | with_reducible apply State.modTeam_held

theorem execIaddc_held {f : Fields} (hk : Held c₀ n₀ s) : Out c₀ n₀ (execIaddc f s) := by
  unfold execIaddc
  repeat' first
    | with_reducible assumption
    | with_reducible apply issueWith_held
    | with_reducible apply State.putBeside_held
    | with_reducible intro _
    | split
    | with_reducible apply Out.next
    | with_reducible apply Effect.Held.done

/-! ### Logic -/

theorem execAnd_held {f : Fields} (hk : Held c₀ n₀ s) : Out c₀ n₀ (execAnd f s) := by
  unfold execAnd
  repeat' first
    | with_reducible assumption
    | with_reducible apply execOn_held

theorem execOr_held {f : Fields} (hk : Held c₀ n₀ s) : Out c₀ n₀ (execOr f s) := by
  unfold execOr
  repeat' first
    | with_reducible assumption
    | with_reducible apply execOn_held

theorem execXor_held {f : Fields} (hk : Held c₀ n₀ s) : Out c₀ n₀ (execXor f s) := by
  unfold execXor
  repeat' first
    | with_reducible assumption
    | with_reducible apply execOn_held

theorem execNot_held {f : Fields} (hk : Held c₀ n₀ s) : Out c₀ n₀ (execNot f s) := by
  unfold execNot
  repeat' first
    | with_reducible assumption
    | with_reducible apply execOn_held

theorem execAndn_held {f : Fields} (hk : Held c₀ n₀ s) : Out c₀ n₀ (execAndn f s) := by
  unfold execAndn
  repeat' first
    | with_reducible assumption
    | with_reducible apply execOn_held

theorem execBool3_held {f : Fields} (hk : Held c₀ n₀ s) : Out c₀ n₀ (execBool3 f s) := by
  unfold execBool3
  repeat' first
    | with_reducible assumption
    | with_reducible apply issueWith_held
    | with_reducible intro _
    | split
    | with_reducible apply Out.next
    | with_reducible apply Effect.Held.done

theorem execShift_held {i : Instr} {f : Fields} {op : Nat → Nat → Nat → Nat} (hk : Held c₀ n₀ s) :
    Out c₀ n₀ (execShift i f s op) := by
  unfold execShift
  repeat' first
    | with_reducible assumption
    | with_reducible apply issueWith_held
    | with_reducible intro _
    | split
    | with_reducible apply Out.next
    | with_reducible apply Effect.Held.done

theorem execShl_held {f : Fields} (hk : Held c₀ n₀ s) : Out c₀ n₀ (execShl f s) := by
  unfold execShl
  repeat' first
    | with_reducible assumption
    | with_reducible apply execShift_held

theorem execShr_held {f : Fields} (hk : Held c₀ n₀ s) : Out c₀ n₀ (execShr f s) := by
  unfold execShr
  repeat' first
    | with_reducible assumption
    | with_reducible apply execShift_held

theorem execSar_held {f : Fields} (hk : Held c₀ n₀ s) : Out c₀ n₀ (execSar f s) := by
  unfold execSar
  repeat' first
    | with_reducible assumption
    | with_reducible apply execShift_held

theorem execRol_held {f : Fields} (hk : Held c₀ n₀ s) : Out c₀ n₀ (execRol f s) := by
  unfold execRol
  repeat' first
    | with_reducible assumption
    | with_reducible apply execShift_held

theorem execFshl_held {f : Fields} (hk : Held c₀ n₀ s) : Out c₀ n₀ (execFshl f s) := by
  unfold execFshl
  repeat' first
    | with_reducible assumption
    | with_reducible apply execShift_held

theorem execBfe_held {f : Fields} (hk : Held c₀ n₀ s) : Out c₀ n₀ (execBfe f s) := by
  unfold execBfe
  repeat' first
    | with_reducible assumption
    | with_reducible apply execShift_held

theorem execBfi_held {f : Fields} (hk : Held c₀ n₀ s) : Out c₀ n₀ (execBfi f s) := by
  unfold execBfi
  repeat' first
    | with_reducible assumption
    | with_reducible apply execShift_held

theorem execBmsk_held {f : Fields} (hk : Held c₀ n₀ s) : Out c₀ n₀ (execBmsk f s) := by
  unfold execBmsk
  repeat' first
    | with_reducible assumption
    | with_reducible apply execShift_held

theorem execCount_held {i : Instr} {f : Fields} {op : List Bool → Nat} (hk : Held c₀ n₀ s) :
    Out c₀ n₀ (execCount i f s op) := by
  unfold execCount
  repeat' first
    | with_reducible assumption
    | with_reducible apply issueWith_held
    | with_reducible intro _
    | split
    | with_reducible apply Out.next
    | with_reducible apply Effect.Held.done

theorem execPopc_held {f : Fields} (hk : Held c₀ n₀ s) : Out c₀ n₀ (execPopc f s) := by
  unfold execPopc
  repeat' first
    | with_reducible assumption
    | with_reducible apply State.count_held
    | with_reducible apply execCount_held

theorem execClz_held {f : Fields} (hk : Held c₀ n₀ s) : Out c₀ n₀ (execClz f s) := by
  unfold execClz
  repeat' first
    | with_reducible assumption
    | with_reducible apply execCount_held

theorem execCtz_held {f : Fields} (hk : Held c₀ n₀ s) : Out c₀ n₀ (execCtz f s) := by
  unfold execCtz
  repeat' first
    | with_reducible assumption
    | with_reducible apply execCount_held

theorem execBrev_held {f : Fields} (hk : Held c₀ n₀ s) : Out c₀ n₀ (execBrev f s) := by
  unfold execBrev
  repeat' first
    | with_reducible assumption
    | with_reducible apply execOn_held

theorem execBsel_held {f : Fields} (hk : Held c₀ n₀ s) : Out c₀ n₀ (execBsel f s) := by
  unfold execBsel
  repeat' first
    | with_reducible assumption
    | with_reducible apply execOn_held

/-! ### Move -/

theorem execIset_held {f : Fields} (hk : Held c₀ n₀ s) : Out c₀ n₀ (execIset f s) := by
  unfold execIset
  repeat' first
    | with_reducible assumption
    | with_reducible apply issueWith_held
    | with_reducible intro _
    | split
    | with_reducible apply Out.next
    | with_reducible apply Effect.Held.done

theorem execSel_held {f : Fields} (hk : Held c₀ n₀ s) : Out c₀ n₀ (execSel f s) := by
  unfold execSel
  repeat' first
    | with_reducible assumption
    | with_reducible apply issueWith_held
    | with_reducible intro _
    | split
    | with_reducible apply Out.next
    | with_reducible apply Effect.Held.done

theorem execMov_held {f : Fields} (hk : Held c₀ n₀ s) : Out c₀ n₀ (execMov f s) := by
  unfold execMov
  repeat' first
    | with_reducible assumption
    | with_reducible apply execOn_held

theorem execMovi_held {f : Fields} (hk : Held c₀ n₀ s) : Out c₀ n₀ (execMovi f s) := by
  unfold execMovi
  repeat' first
    | with_reducible assumption
    | with_reducible apply issueWith_held
    | with_reducible intro _
    | split
    | with_reducible apply Out.next
    | with_reducible apply Effect.Held.done

theorem execLea_held {f : Fields} (hk : Held c₀ n₀ s) : Out c₀ n₀ (execLea f s) := by
  unfold execLea
  repeat' first
    | with_reducible assumption
    | with_reducible apply issueWith_held
    | with_reducible intro _
    | split
    | with_reducible apply Out.next
    | with_reducible apply Effect.Held.done

theorem execPred_held {i : Instr} {f : Fields} {op : Bool → Bool → Bool} (hk : Held c₀ n₀ s) :
    Out c₀ n₀ (execPred i f s op) := by
  unfold execPred
  repeat' first
    | with_reducible assumption
    | with_reducible apply issueWith_held
    | with_reducible intro _
    | split
    | with_reducible apply Out.next
    | with_reducible apply Effect.Held.done

theorem execPand_held {f : Fields} (hk : Held c₀ n₀ s) : Out c₀ n₀ (execPand f s) := by
  unfold execPand
  repeat' first
    | with_reducible assumption
    | with_reducible apply execPred_held

theorem execPor_held {f : Fields} (hk : Held c₀ n₀ s) : Out c₀ n₀ (execPor f s) := by
  unfold execPor
  repeat' first
    | with_reducible assumption
    | with_reducible apply execPred_held

theorem execPxor_held {f : Fields} (hk : Held c₀ n₀ s) : Out c₀ n₀ (execPxor f s) := by
  unfold execPxor
  repeat' first
    | with_reducible assumption
    | with_reducible apply execPred_held

theorem execPnot_held {f : Fields} (hk : Held c₀ n₀ s) : Out c₀ n₀ (execPnot f s) := by
  unfold execPnot
  repeat' first
    | with_reducible assumption
    | with_reducible apply execPred_held

theorem execPmov_held {f : Fields} (hk : Held c₀ n₀ s) : Out c₀ n₀ (execPmov f s) := by
  unfold execPmov
  repeat' first
    | with_reducible assumption
    | with_reducible apply execPred_held

/-! ### CrossLane -/

theorem execXlane_held {i : Instr} {f : Fields} {from_ : Int → Nat → Int} (hk : Held c₀ n₀ s) :
    Out c₀ n₀ (execXlane i f s from_) := by
  unfold execXlane
  repeat' first
    | with_reducible assumption
    | with_reducible apply issueWith_held
    | with_reducible intro _
    | split
    | with_reducible apply Out.next
    | with_reducible apply Effect.Held.done

theorem execXlaneAt_held {f : Fields} (hk : Held c₀ n₀ s) : Out c₀ n₀ (execXlaneAt f s) := by
  unfold execXlaneAt
  repeat' first
    | with_reducible assumption
    | with_reducible apply execXlane_held

theorem execXlaneBack_held {f : Fields} (hk : Held c₀ n₀ s) : Out c₀ n₀ (execXlaneBack f s) := by
  unfold execXlaneBack
  repeat' first
    | with_reducible assumption
    | with_reducible apply execXlane_held

theorem execXlaneFwd_held {f : Fields} (hk : Held c₀ n₀ s) : Out c₀ n₀ (execXlaneFwd f s) := by
  unfold execXlaneFwd
  repeat' first
    | with_reducible assumption
    | with_reducible apply execXlane_held

theorem execXlaneSwap_held {f : Fields} (hk : Held c₀ n₀ s) : Out c₀ n₀ (execXlaneSwap f s) := by
  unfold execXlaneSwap
  repeat' first
    | with_reducible assumption
    | with_reducible apply execXlane_held

theorem execXlaneOne_held {f : Fields} (hk : Held c₀ n₀ s) : Out c₀ n₀ (execXlaneOne f s) := by
  unfold execXlaneOne
  repeat' first
    | with_reducible assumption
    | with_reducible apply execXlane_held

theorem State.setPartial_held {e : Env} {mask : Nat} (hk : Held c₀ n₀ s) : Held c₀ n₀ (State.setPartial s e mask) := by
  unfold State.setPartial
  repeat' first
    | with_reducible assumption
    | with_reducible apply State.modFrag_held

theorem execPcol_held {i : Instr} {f : Fields} {res : Env → List Member → Res} (hk : Held c₀ n₀ s) :
    Out c₀ n₀ (execPcol i f s res) := by
  unfold execPcol
  repeat' first
    | with_reducible assumption
    | with_reducible apply issueWith_held
    | with_reducible apply State.setPartial_held
    | with_reducible intro _
    | split
    | with_reducible apply Out.next
    | with_reducible apply Effect.Held.done

theorem execPcolSome_held {f : Fields} (hk : Held c₀ n₀ s) : Out c₀ n₀ (execPcolSome f s) := by
  unfold execPcolSome
  repeat' first
    | with_reducible assumption
    | with_reducible apply execPcol_held

theorem execPcolEvery_held {f : Fields} (hk : Held c₀ n₀ s) : Out c₀ n₀ (execPcolEvery f s) := by
  unfold execPcolEvery
  repeat' first
    | with_reducible assumption
    | with_reducible apply execPcol_held

theorem execPcolBits_held {f : Fields} (hk : Held c₀ n₀ s) : Out c₀ n₀ (execPcolBits f s) := by
  unfold execPcolBits
  repeat' first
    | with_reducible assumption
    | with_reducible apply execPcol_held

theorem execPcolSame_held {f : Fields} (hk : Held c₀ n₀ s) : Out c₀ n₀ (execPcolSame f s) := by
  unfold execPcolSame
  repeat' first
    | with_reducible assumption
    | with_reducible apply execPcol_held

theorem execEqset_held {f : Fields} (hk : Held c₀ n₀ s) : Out c₀ n₀ (execEqset f s) := by
  unfold execEqset
  repeat' first
    | with_reducible assumption
    | with_reducible apply issueWith_held
    | with_reducible refine Held.cells ?_
    | with_reducible intro _
    | split
    | with_reducible apply Out.next
    | with_reducible apply Effect.Held.done

theorem execLred_held {i : Instr} {op : Fold} {f : Fields} (hk : Held c₀ n₀ s) : Out c₀ n₀ (execLred i op f s) := by
  unfold execLred
  repeat' first
    | with_reducible assumption
    | with_reducible apply issueWith_held
    | with_reducible intro _
    | split
    | with_reducible apply Out.next
    | with_reducible apply Effect.Held.done

theorem execLredAdd_held {f : Fields} (hk : Held c₀ n₀ s) : Out c₀ n₀ (execLredAdd f s) := by
  unfold execLredAdd
  repeat' first
    | with_reducible assumption
    | with_reducible apply execLred_held

theorem execLredMin_held {f : Fields} (hk : Held c₀ n₀ s) : Out c₀ n₀ (execLredMin f s) := by
  unfold execLredMin
  repeat' first
    | with_reducible assumption
    | with_reducible apply execLred_held

theorem execLredMax_held {f : Fields} (hk : Held c₀ n₀ s) : Out c₀ n₀ (execLredMax f s) := by
  unfold execLredMax
  repeat' first
    | with_reducible assumption
    | with_reducible apply execLred_held

theorem execLredAnd_held {f : Fields} (hk : Held c₀ n₀ s) : Out c₀ n₀ (execLredAnd f s) := by
  unfold execLredAnd
  repeat' first
    | with_reducible assumption
    | with_reducible apply execLred_held

theorem execLredOr_held {f : Fields} (hk : Held c₀ n₀ s) : Out c₀ n₀ (execLredOr f s) := by
  unfold execLredOr
  repeat' first
    | with_reducible assumption
    | with_reducible apply execLred_held

theorem execLredXor_held {f : Fields} (hk : Held c₀ n₀ s) : Out c₀ n₀ (execLredXor f s) := by
  unfold execLredXor
  repeat' first
    | with_reducible assumption
    | with_reducible apply execLred_held

theorem execRank_held {f : Fields} (hk : Held c₀ n₀ s) : Out c₀ n₀ (execRank f s) := by
  unfold execRank
  repeat' first
    | with_reducible assumption
    | with_reducible apply issueWith_held
    | with_reducible intro _
    | split
    | with_reducible apply Out.next
    | with_reducible apply Effect.Held.done

/-! ### FloatOps -/

theorem execWord_held {i : Instr} {f : Fields} {op : Word → Word → Word → Word} (hk : Held c₀ n₀ s) :
    Out c₀ n₀ (execWord i f s op) := by
  unfold execWord
  repeat' first
    | with_reducible assumption
    | with_reducible apply issueWith_held
    | with_reducible intro _
    | split
    | with_reducible apply Out.next
    | with_reducible apply Effect.Held.done

theorem execFloat_held {i : Instr} {f : Fields} {op : Fmt → Nat → Nat → Nat → Nat} (hk : Held c₀ n₀ s) :
    Out c₀ n₀ (execFloat i f s op) := by
  unfold execFloat
  repeat' first
    | with_reducible assumption
    | with_reducible apply execWord_held

theorem execFadd_held {f : Fields} (hk : Held c₀ n₀ s) : Out c₀ n₀ (execFadd f s) := by
  unfold execFadd
  repeat' first
    | with_reducible assumption
    | with_reducible apply execFloat_held

theorem execFsub_held {f : Fields} (hk : Held c₀ n₀ s) : Out c₀ n₀ (execFsub f s) := by
  unfold execFsub
  repeat' first
    | with_reducible assumption
    | with_reducible apply execFloat_held

theorem execFmul_held {f : Fields} (hk : Held c₀ n₀ s) : Out c₀ n₀ (execFmul f s) := by
  unfold execFmul
  repeat' first
    | with_reducible assumption
    | with_reducible apply execFloat_held

theorem execFfma_held {f : Fields} (hk : Held c₀ n₀ s) : Out c₀ n₀ (execFfma f s) := by
  unfold execFfma
  repeat' first
    | with_reducible assumption
    | with_reducible apply execFloat_held

theorem execFmin_held {f : Fields} (hk : Held c₀ n₀ s) : Out c₀ n₀ (execFmin f s) := by
  unfold execFmin
  repeat' first
    | with_reducible assumption
    | with_reducible apply execFloat_held

theorem execFmax_held {f : Fields} (hk : Held c₀ n₀ s) : Out c₀ n₀ (execFmax f s) := by
  unfold execFmax
  repeat' first
    | with_reducible assumption
    | with_reducible apply execFloat_held

theorem execFrnd_held {f : Fields} (hk : Held c₀ n₀ s) : Out c₀ n₀ (execFrnd f s) := by
  unfold execFrnd
  repeat' first
    | with_reducible assumption
    | with_reducible apply execFloat_held

theorem execFclass_held {f : Fields} (hk : Held c₀ n₀ s) : Out c₀ n₀ (execFclass f s) := by
  unfold execFclass
  repeat' first
    | with_reducible assumption
    | with_reducible apply execFloat_held

theorem execFset_held {f : Fields} (hk : Held c₀ n₀ s) : Out c₀ n₀ (execFset f s) := by
  unfold execFset
  repeat' first
    | with_reducible assumption
    | with_reducible apply issueWith_held
    | with_reducible intro _
    | split
    | with_reducible apply Out.next
    | with_reducible apply Effect.Held.done

theorem execFcvt_held {f : Fields} (hk : Held c₀ n₀ s) : Out c₀ n₀ (execFcvt f s) := by
  unfold execFcvt
  repeat' first
    | with_reducible assumption
    | with_reducible apply issueWith_held
    | with_reducible intro _
    | split
    | with_reducible apply Out.next
    | with_reducible apply Effect.Held.done

theorem execIcvt_held {f : Fields} (hk : Held c₀ n₀ s) : Out c₀ n₀ (execIcvt f s) := by
  unfold execIcvt
  repeat' first
    | with_reducible assumption
    | with_reducible apply issueWith_held
    | with_reducible intro _
    | split
    | with_reducible apply Out.next
    | with_reducible apply Effect.Held.done

theorem execSpecial_held {i : Instr} {f : Fields} {op : Word → Word → Nat} (hk : Held c₀ n₀ s) :
    Out c₀ n₀ (execSpecial i f s op) := by
  unfold execSpecial
  repeat' first
    | with_reducible assumption
    | with_reducible apply State.count_held
    | with_reducible apply issueWith_held
    | with_reducible intro _
    | split
    | with_reducible apply Out.next
    | with_reducible apply Effect.Held.done

theorem execEx2_held {f : Fields} (hk : Held c₀ n₀ s) : Out c₀ n₀ (execEx2 f s) := by
  unfold execEx2
  repeat' first
    | with_reducible assumption
    | with_reducible apply execSpecial_held

theorem execLg2_held {f : Fields} (hk : Held c₀ n₀ s) : Out c₀ n₀ (execLg2 f s) := by
  unfold execLg2
  repeat' first
    | with_reducible assumption
    | with_reducible apply execSpecial_held

theorem execRcp_held {f : Fields} (hk : Held c₀ n₀ s) : Out c₀ n₀ (execRcp f s) := by
  unfold execRcp
  repeat' first
    | with_reducible assumption
    | with_reducible apply execSpecial_held

theorem execRsq_held {f : Fields} (hk : Held c₀ n₀ s) : Out c₀ n₀ (execRsq f s) := by
  unfold execRsq
  repeat' first
    | with_reducible assumption
    | with_reducible apply execSpecial_held

theorem execSqrt_held {f : Fields} (hk : Held c₀ n₀ s) : Out c₀ n₀ (execSqrt f s) := by
  unfold execSqrt
  repeat' first
    | with_reducible assumption
    | with_reducible apply execSpecial_held

theorem execSinpi_held {f : Fields} (hk : Held c₀ n₀ s) : Out c₀ n₀ (execSinpi f s) := by
  unfold execSinpi
  repeat' first
    | with_reducible assumption
    | with_reducible apply execSpecial_held

theorem execCospi_held {f : Fields} (hk : Held c₀ n₀ s) : Out c₀ n₀ (execCospi f s) := by
  unfold execCospi
  repeat' first
    | with_reducible assumption
    | with_reducible apply execSpecial_held

theorem execEx2s_held {f : Fields} (hk : Held c₀ n₀ s) : Out c₀ n₀ (execEx2s f s) := by
  unfold execEx2s
  repeat' first
    | with_reducible assumption
    | with_reducible apply execSpecial_held

theorem execFscale_held {f : Fields} (hk : Held c₀ n₀ s) : Out c₀ n₀ (execFscale f s) := by
  unfold execFscale
  repeat' first
    | with_reducible assumption
    | with_reducible apply execWord_held

theorem execFgetexp_held {f : Fields} (hk : Held c₀ n₀ s) : Out c₀ n₀ (execFgetexp f s) := by
  unfold execFgetexp
  repeat' first
    | with_reducible assumption
    | with_reducible apply execWord_held

theorem execFmaxe_held {f : Fields} (hk : Held c₀ n₀ s) : Out c₀ n₀ (execFmaxe f s) := by
  unfold execFmaxe
  repeat' first
    | with_reducible assumption
    | with_reducible apply execWord_held

/-! ### Memory -/

theorem State.pathTerms_held {t : Nat} {xs : List (Nat × Nat)} (hk : Held c₀ n₀ s) : Held c₀ n₀ (State.pathTerms s t xs) := by
  unfold State.pathTerms
  repeat' first
    | with_reducible assumption
    | with_reducible apply State.modTeam_held

theorem Env.failed_held {e : Env} {fs : List (Nat × Nat × Nat)} {store : Bool} (hk : Held c₀ n₀ s) :
    Effect.Held c₀ n₀ (Env.failed e s fs store) := by
  unfold Env.failed
  repeat' first
    | with_reducible assumption
    | with_reducible apply State.terminate_held
    | split
    | with_reducible apply Effect.Held.trap
    | with_reducible apply Effect.Held.placed

theorem Env.checked_held {e : Env} {ms : List Member} {c : Checks} {store : Bool}
 {k : State → List (Member × Spot) → Effect} (hc : Held c₀ n₀ c.s) (h_k : ∀ s xs, Held c₀ n₀ s → (k s xs).Held c₀ n₀) :
    (e.checked ms c store k).Held c₀ n₀ := by
  unfold Env.checked
  repeat' first
    | with_reducible assumption | split
    | with_reducible apply Env.failed_held
    | with_reducible apply Effect.Held.done | with_reducible apply Effect.Held.trap | with_reducible apply Effect.Held.hold | with_reducible apply Effect.Held.placed
    | with_reducible apply State.badWord_held
    | with_reducible apply h_k

theorem Env.inMode_held {e : Env} {write : Bool} {read : Bool} {xs : List (Member × Spot)} {k : Effect} (hk : Held c₀ n₀ s)
    (h_k : Effect.Held c₀ n₀ k) : Effect.Held c₀ n₀ (Env.inMode e s write read xs k) := by
  unfold Env.inMode
  repeat' first
    | with_reducible assumption
    | with_reducible apply h_k
    | with_reducible refine Held.cells ?_
    | with_reducible intro _
    | split
    | with_reducible apply Effect.Held.hold
    | with_reducible apply Effect.Held.abort
    | exact True.intro
    | dsimp only

theorem Env.order_held {e : Env} {f : Fields} (hk : Held c₀ n₀ s) : Held c₀ n₀ (Env.order e s f) := by
  unfold Env.order
  repeat' first
    | with_reducible assumption
    | with_reducible apply Env.acquire_held
    | with_reducible apply Env.release_held
    | with_reducible apply State.release_held
    | with_reducible refine Held.cells ?_
    | (refine Held.of_cells ?_; dsimp only)
    | split

theorem Env.ownFar_held {e : Env} (hk : Held c₀ n₀ s) : Held c₀ n₀ (Env.ownFar e s) := by
  unfold Env.ownFar
  repeat' first
    | with_reducible assumption
    | with_reducible apply State.deliverFrag_held

theorem Env.doLoad_held {e : Env} {f : Fields} {ro : Bool} {k : State → List (Nat × List Word) → Effect} (hk : Held c₀ n₀ s)
    (h_k : ∀ (a0 : State) (a1 : List (Nat × List Word)), Held c₀ n₀ a0 → Effect.Held c₀ n₀ (k a0 a1)) :
    Effect.Held c₀ n₀ (Env.doLoad e s f ro k) := by
  unfold Env.doLoad
  repeat' first
    | with_reducible assumption
    | with_reducible apply h_k
    | with_reducible apply State.badWord_held
    | with_reducible apply Env.locateAll_held
    | with_reducible apply State.collect_held
    | with_reducible refine Env.loadAll_held ?_ ‹_›
    | with_reducible apply Env.checked_held
    | with_reducible apply Env.inMode_held
    | with_reducible apply Env.order_held
    | with_reducible apply Env.ownFar_held
    | with_reducible refine Held.cells ?_
    | with_reducible intro _
    | split
    | with_reducible apply Effect.Held.hold
    | with_reducible apply Effect.Held.placed
    | exact True.intro
    | dsimp only

theorem execLd_held {f : Fields} (hk : Held c₀ n₀ s) : Out c₀ n₀ (execLd f s) := by
  unfold execLd
  repeat' first
    | with_reducible assumption
    | with_reducible apply issueWith_held
    | with_reducible apply Env.doLoad_held
    | with_reducible intro _
    | split
    | with_reducible apply Out.next
    | with_reducible apply Effect.Held.done

theorem execLdro_held {f : Fields} (hk : Held c₀ n₀ s) : Out c₀ n₀ (execLdro f s) := by
  unfold execLdro
  repeat' first
    | with_reducible assumption
    | with_reducible apply issueWith_held
    | with_reducible apply Env.doLoad_held
    | with_reducible intro _
    | split
    | with_reducible apply Out.next
    | with_reducible apply Effect.Held.done

theorem execLdRf_held {f : Fields} (hk : Held c₀ n₀ s) : Out c₀ n₀ (execLdRf f s) := by
  unfold execLdRf
  repeat' first
    | with_reducible assumption
    | with_reducible apply State.modTeam_held
    | with_reducible apply Env.settled_held
    | with_reducible apply issueWith_held
    | with_reducible apply Env.doLoad_held
    | with_reducible intro _
    | split
    | with_reducible apply Out.next
    | with_reducible apply Effect.Held.done
    | with_reducible apply Effect.Held.wait

theorem execSt_held {f : Fields} (hk : Held c₀ n₀ s) : Out c₀ n₀ (execSt f s) := by
  unfold execSt
  repeat' first
    | with_reducible assumption
    | with_reducible apply Env.locateAll_held
    | with_reducible apply Env.storeAll_held
    | with_reducible apply Env.onRelease_held
    | with_reducible apply issueWith_held
    | with_reducible apply Env.checked_held
    | with_reducible apply Env.inMode_held
    | with_reducible apply Env.order_held
    | with_reducible apply Env.ownFar_held
    | with_reducible refine Held.cells ?_
    | with_reducible intro _
    | split
    | with_reducible apply Out.next
    | with_reducible apply Effect.Held.done

theorem Env.countAtomics_held {e : Env} {xs : List (Member × Spot)} (hk : Held c₀ n₀ s) :
    Held c₀ n₀ (Env.countAtomics e s xs) := by
  unfold Env.countAtomics
  repeat' first
    | with_reducible assumption
    | with_reducible apply State.count_held
    | with_reducible refine Held.cells ?_
    | (with_reducible refine foldl_held (fun _ _ _ => ?_) _ ?_)
    | (refine Held.of_cells ?_; dsimp only)
    | with_reducible intro _
    | split

theorem Env.atomicEnd_held {e : Env} {f : Fields} {ret : Bool} {vs : List (Nat × Nat)} (hk : Held c₀ n₀ s) :
    Effect.Held c₀ n₀ (Env.atomicEnd e s f ret vs) := by
  unfold Env.atomicEnd
  repeat' first
    | with_reducible assumption
    | with_reducible apply State.pathTerms_held
    | with_reducible intro _
    | split
    | with_reducible apply Effect.Held.done

theorem execAtomic_held {i : Instr} {f : Fields} {op : AtomOp} {ret : Bool} (hk : Held c₀ n₀ s) :
    Out c₀ n₀ (execAtomic i f s op ret) := by
  unfold execAtomic
  repeat' first
    | with_reducible assumption
    | with_reducible apply State.badWord_held
    | with_reducible apply Env.locateAll_held
    | with_reducible refine Env.rmwAll_held ?_ ‹_›
    | with_reducible apply Env.onRelease_held
    | with_reducible apply issueWith_held
    | with_reducible apply Env.checked_held
    | with_reducible apply Env.inMode_held
    | with_reducible apply Env.order_held
    | with_reducible apply Env.ownFar_held
    | with_reducible apply Env.countAtomics_held
    | with_reducible apply Env.atomicEnd_held
    | with_reducible refine Held.cells ?_
    | with_reducible intro _
    | split
    | with_reducible apply Out.next
    | with_reducible apply Effect.Held.wait
    | with_reducible apply Effect.Held.placed
    | exact True.intro
    | dsimp only

theorem execAtomAdd_held {f : Fields} (hk : Held c₀ n₀ s) : Out c₀ n₀ (execAtomAdd f s) := by
  unfold execAtomAdd
  repeat' first
    | with_reducible assumption
    | with_reducible apply execAtomic_held

theorem execAtomAnd_held {f : Fields} (hk : Held c₀ n₀ s) : Out c₀ n₀ (execAtomAnd f s) := by
  unfold execAtomAnd
  repeat' first
    | with_reducible assumption
    | with_reducible apply execAtomic_held

theorem execAtomOr_held {f : Fields} (hk : Held c₀ n₀ s) : Out c₀ n₀ (execAtomOr f s) := by
  unfold execAtomOr
  repeat' first
    | with_reducible assumption
    | with_reducible apply execAtomic_held

theorem execAtomXor_held {f : Fields} (hk : Held c₀ n₀ s) : Out c₀ n₀ (execAtomXor f s) := by
  unfold execAtomXor
  repeat' first
    | with_reducible assumption
    | with_reducible apply execAtomic_held

theorem execAtomMin_held {f : Fields} (hk : Held c₀ n₀ s) : Out c₀ n₀ (execAtomMin f s) := by
  unfold execAtomMin
  repeat' first
    | with_reducible assumption
    | with_reducible apply execAtomic_held

theorem execAtomMax_held {f : Fields} (hk : Held c₀ n₀ s) : Out c₀ n₀ (execAtomMax f s) := by
  unfold execAtomMax
  repeat' first
    | with_reducible assumption
    | with_reducible apply execAtomic_held

theorem execAtomXchg_held {f : Fields} (hk : Held c₀ n₀ s) : Out c₀ n₀ (execAtomXchg f s) := by
  unfold execAtomXchg
  repeat' first
    | with_reducible assumption
    | with_reducible apply execAtomic_held

theorem execAtomCas_held {f : Fields} (hk : Held c₀ n₀ s) : Out c₀ n₀ (execAtomCas f s) := by
  unfold execAtomCas
  repeat' first
    | with_reducible assumption
    | with_reducible apply execAtomic_held

theorem execAtomInc_held {f : Fields} (hk : Held c₀ n₀ s) : Out c₀ n₀ (execAtomInc f s) := by
  unfold execAtomInc
  repeat' first
    | with_reducible assumption
    | with_reducible apply execAtomic_held

theorem execAtomDec_held {f : Fields} (hk : Held c₀ n₀ s) : Out c₀ n₀ (execAtomDec f s) := by
  unfold execAtomDec
  repeat' first
    | with_reducible assumption
    | with_reducible apply execAtomic_held

theorem execRedAdd_held {f : Fields} (hk : Held c₀ n₀ s) : Out c₀ n₀ (execRedAdd f s) := by
  unfold execRedAdd
  repeat' first
    | with_reducible assumption
    | with_reducible apply execAtomic_held

theorem execRedAnd_held {f : Fields} (hk : Held c₀ n₀ s) : Out c₀ n₀ (execRedAnd f s) := by
  unfold execRedAnd
  repeat' first
    | with_reducible assumption
    | with_reducible apply execAtomic_held

theorem execRedOr_held {f : Fields} (hk : Held c₀ n₀ s) : Out c₀ n₀ (execRedOr f s) := by
  unfold execRedOr
  repeat' first
    | with_reducible assumption
    | with_reducible apply execAtomic_held

theorem execRedXor_held {f : Fields} (hk : Held c₀ n₀ s) : Out c₀ n₀ (execRedXor f s) := by
  unfold execRedXor
  repeat' first
    | with_reducible assumption
    | with_reducible apply execAtomic_held

theorem execRedMin_held {f : Fields} (hk : Held c₀ n₀ s) : Out c₀ n₀ (execRedMin f s) := by
  unfold execRedMin
  repeat' first
    | with_reducible assumption
    | with_reducible apply execAtomic_held

theorem execRedMax_held {f : Fields} (hk : Held c₀ n₀ s) : Out c₀ n₀ (execRedMax f s) := by
  unfold execRedMax
  repeat' first
    | with_reducible assumption
    | with_reducible apply execAtomic_held

theorem execRedInc_held {f : Fields} (hk : Held c₀ n₀ s) : Out c₀ n₀ (execRedInc f s) := by
  unfold execRedInc
  repeat' first
    | with_reducible assumption
    | with_reducible apply execAtomic_held

theorem execRedDec_held {f : Fields} (hk : Held c₀ n₀ s) : Out c₀ n₀ (execRedDec f s) := by
  unfold execRedDec
  repeat' first
    | with_reducible assumption
    | with_reducible apply execAtomic_held

theorem Env.acquireLast_held {e : Env} {f : Fields} (hk : Held c₀ n₀ s) : Held c₀ n₀ (Env.acquireLast e s f) := by
  unfold Env.acquireLast
  repeat' first
    | with_reducible assumption
    | with_reducible apply Env.acquire_held
    | split

theorem Env.rmwNext_held {e : Env} {i : Instr} {x : Member × Spot} {left : List (Member × Spot)} {vs : List (Nat × Nat)}
    (hk : Held c₀ n₀ s) : Held c₀ n₀ (Env.rmwNext e s i x left vs) := by
  unfold Env.rmwNext
  repeat' first
    | with_reducible assumption
    | with_reducible apply State.modTeam_held
    | with_reducible apply State.modFrag_held
    | with_reducible apply State.badWord_held
    | with_reducible refine Env.rmw1_held ?_ ‹_›
    | with_reducible apply Env.conclude_held
    | with_reducible apply Env.atomicEnd_held
    | with_reducible apply Env.acquireLast_held
    | with_reducible refine Held.cells ?_
    | (refine Held.of_cells ?_; dsimp only)
    | with_reducible intro _
    | split

theorem State.rmwTurn_held {t : Nat} {g : Nat} (hk : Held c₀ n₀ s) : Held c₀ n₀ (State.rmwTurn s t g) := by
  unfold State.rmwTurn
  repeat' first
    | with_reducible assumption
    | with_reducible apply Env.rmwNext_held
    | with_reducible refine Held.cells ?_
    | split

theorem State.modExact_held {pf : Nat} {ctx : Nat} {place : Nat} {f : Exact → Exact} (hk : Held c₀ n₀ s) :
    Held c₀ n₀ (State.modExact s pf ctx place f) := by
  unfold State.modExact
  repeat' first
    | with_reducible assumption
    | with_reducible refine Held.cells ?_
    | (refine Held.of_cells ?_; dsimp only)

theorem State.captureVa_held {pf : Nat} {ctx : Nat} {die : Nat} {va : Nat} {place : Nat} (hk : Held c₀ n₀ s)
    {r_ : State × Bool} (eq₀ : (State.captureVa s pf ctx die va place) = r_) : Held c₀ n₀ r_.1 := by
  subst eq₀
  unfold State.captureVa
  repeat' first
    | with_reducible assumption
    | with_reducible refine State.capture_held ?_ ‹_›
    | with_reducible refine State.capture_held ?_ rfl
    | with_reducible refine Held.cells ?_
    | split

theorem State.writeSpill_held {pf : Nat} {ctx : Nat} {die : Nat} {i : Nat} {n : Nat} (hk : Held c₀ n₀ s) :
    AnsS c₀ n₀ (State.writeSpill s pf ctx die i n) := by
  unfold State.writeSpill
  repeat' first
    | with_reducible assumption
    | with_reducible apply State.reachVa_held
    | with_reducible apply State.savePieces_held
    | with_reducible refine State.captureVa_held ?_ ‹_›
    | with_reducible refine State.captureVa_held ?_ rfl
    | with_reducible refine Denied.Held.of_fault ?_ ‹_›
    | with_reducible refine Denied.Held.of_wait ?_ ‹_›
    | with_reducible refine AnsP.of_ok ?_ ‹_›
    | with_reducible refine AnsP.of_pair ?_ ‹_›
    | with_reducible refine AnsP.of_error ?_ ‹_›
    | with_reducible refine AnsP.of_fault ?_ ‹_›
    | with_reducible refine AnsP.of_wait ?_ ‹_›
    | with_reducible refine AnsS.of_ok ?_ ‹_›
    | with_reducible refine AnsS.of_error ?_ ‹_›
    | with_reducible refine AnsS.of_fault ?_ ‹_›
    | with_reducible refine AnsS.of_wait ?_ ‹_›
    | with_reducible refine Eng.Held.of_ok ?_ ‹_›
    | with_reducible refine Eng.Held.of_fault ?_ ‹_›
    | with_reducible refine Eng.Held.of_stay ?_ ‹_›
    | with_reducible refine Eng.Held.of_bad ?_ ‹_›
    | (with_reducible refine AnsP.map ?_ (fun _ _ => ?_))
    | (with_reducible refine AnsS.bind ?_ (fun _ _ => ?_))
    | (with_reducible refine AnsP.bind ?_ (fun _ _ => ?_))
    | (with_reducible refine AnsS.map ?_ (fun _ _ => ?_))
    | (with_reducible refine AnsN.then ?_ (fun _ => ?_))
    | (with_reducible apply AnsN.map)
    | (with_reducible refine Eng.bind_held ?_ (fun _ _ _ => ?_))
    | with_reducible intro _
    | split
    | with_reducible apply Eng.Held.ok
    | with_reducible apply AnsS.ok
    | with_reducible apply Ans.error
    | exact True.intro
    | dsimp only

theorem State.readSpill_held {pf : Nat} {ctx : Nat} {die : Nat} {i : Nat} (hk : Held c₀ n₀ s) :
    AnsN c₀ n₀ (State.readSpill s pf ctx die i) := by
  unfold State.readSpill
  repeat' first
    | with_reducible assumption
    | with_reducible apply State.saveDoubles_held
    | with_reducible refine Denied.Held.of_fault ?_ ‹_›
    | with_reducible refine Denied.Held.of_wait ?_ ‹_›
    | with_reducible refine AnsN.of_error ?_ ‹_›
    | with_reducible refine AnsN.of_fault ?_ ‹_›
    | with_reducible refine AnsN.of_wait ?_ ‹_›
    | with_reducible refine Held.cells ?_
    | with_reducible apply Cells.write
    | with_reducible apply Cells.clear
    | with_reducible apply Cells.copy
    | with_reducible apply Cells.restore
    | with_reducible apply Cells.putBack
    | with_reducible apply Cells.set
    | with_reducible apply Cells.filter
    | (with_reducible refine AnsP.map ?_ (fun _ _ => ?_))
    | (with_reducible refine AnsS.bind ?_ (fun _ _ => ?_))
    | (with_reducible refine AnsP.bind ?_ (fun _ _ => ?_))
    | (with_reducible refine AnsS.map ?_ (fun _ _ => ?_))
    | (with_reducible refine AnsN.then ?_ (fun _ => ?_))
    | (with_reducible apply AnsN.map)

theorem State.exactReady_held {pf : Nat} {ctx : Nat} {place : Nat} (hk : Held c₀ n₀ s) :
    AnsS c₀ n₀ (State.exactReady s pf ctx place) := by
  unfold State.exactReady
  repeat' first
    | with_reducible assumption
    | with_reducible apply State.modExact_held
    | with_reducible apply State.writeSpill_held
    | with_reducible apply State.readSpill_held
    | with_reducible refine Denied.Held.of_fault ?_ ‹_›
    | with_reducible refine Denied.Held.of_wait ?_ ‹_›
    | with_reducible refine AnsN.of_error ?_ ‹_›
    | with_reducible refine AnsN.of_fault ?_ ‹_›
    | with_reducible refine AnsN.of_wait ?_ ‹_›
    | with_reducible refine AnsS.of_ok ?_ ‹_›
    | with_reducible refine AnsS.of_error ?_ ‹_›
    | with_reducible refine AnsS.of_fault ?_ ‹_›
    | with_reducible refine AnsS.of_wait ?_ ‹_›
    | with_reducible refine Eng.Held.of_ok ?_ ‹_›
    | with_reducible refine Eng.Held.of_fault ?_ ‹_›
    | with_reducible refine Eng.Held.of_stay ?_ ‹_›
    | with_reducible refine Eng.Held.of_bad ?_ ‹_›
    | with_reducible refine Held.cells ?_
    | with_reducible apply Cells.write
    | with_reducible apply Cells.clear
    | with_reducible apply Cells.copy
    | with_reducible apply Cells.restore
    | with_reducible apply Cells.putBack
    | with_reducible apply Cells.set
    | with_reducible apply Cells.filter
    | (with_reducible refine AnsP.map ?_ (fun _ _ => ?_))
    | (with_reducible refine AnsS.bind ?_ (fun _ _ => ?_))
    | (with_reducible refine AnsP.bind ?_ (fun _ _ => ?_))
    | (with_reducible refine AnsS.map ?_ (fun _ _ => ?_))
    | (with_reducible refine AnsN.then ?_ (fun _ => ?_))
    | (with_reducible apply AnsN.map)
    | (with_reducible refine AnsN.bind ?_ (fun _ => ?_))
    | exact AnsN.pure
    | (with_reducible refine Eng.bind_held ?_ (fun _ _ _ => ?_))
    | (with_reducible refine Cells.fold ?_ (fun _ _ _ => ?_) _)
    | (with_reducible refine foldl_held (fun _ _ _ => ?_) _ ?_)
    | (refine Held.of_cells ?_; dsimp only)
    | with_reducible intro _
    | split
    | with_reducible apply Eng.Held.ok
    | with_reducible apply Eng.Held.fault
    | with_reducible apply Eng.Held.stay
    | with_reducible apply Eng.Held.bad
    | with_reducible apply AnsS.ok
    | with_reducible apply Ans.error
    | with_reducible apply Denied.Held.fault

theorem State.exactReadyEach_held {pf : Nat} {ctx : Nat} {l : List Nat} (hk : Held c₀ n₀ s) :
    AnsS c₀ n₀ (State.exactReadyEach s pf ctx l) := by
  induction l generalizing s pf ctx with
  | nil =>
    unfold State.exactReadyEach
    repeat' first
      | with_reducible assumption
      | with_reducible apply ih
      | with_reducible apply State.exactReady_held
      | with_reducible refine Denied.Held.of_fault ?_ ‹_›
      | with_reducible refine Denied.Held.of_wait ?_ ‹_›
      | with_reducible refine AnsS.of_ok ?_ ‹_›
      | with_reducible refine AnsS.of_error ?_ ‹_›
      | with_reducible refine AnsS.of_fault ?_ ‹_›
      | with_reducible refine AnsS.of_wait ?_ ‹_›
      | with_reducible refine Eng.Held.of_ok ?_ ‹_›
      | with_reducible refine Eng.Held.of_fault ?_ ‹_›
      | with_reducible refine Eng.Held.of_stay ?_ ‹_›
      | with_reducible refine Eng.Held.of_bad ?_ ‹_›
      | (with_reducible refine AnsS.bind ?_ (fun _ _ => ?_))
      | (with_reducible refine AnsP.bind ?_ (fun _ _ => ?_))
      | (with_reducible refine AnsN.then ?_ (fun _ => ?_))
      | (with_reducible refine Eng.bind_held ?_ (fun _ _ _ => ?_))
      | with_reducible intro _
      | split
      | with_reducible apply Eng.Held.ok
      | with_reducible apply AnsS.ok
  | cons x l ih =>
    unfold State.exactReadyEach
    repeat' first
      | with_reducible assumption
      | with_reducible apply ih
      | with_reducible apply State.exactReady_held
      | with_reducible refine Denied.Held.of_fault ?_ ‹_›
      | with_reducible refine Denied.Held.of_wait ?_ ‹_›
      | with_reducible refine AnsS.of_ok ?_ ‹_›
      | with_reducible refine AnsS.of_error ?_ ‹_›
      | with_reducible refine AnsS.of_fault ?_ ‹_›
      | with_reducible refine AnsS.of_wait ?_ ‹_›
      | with_reducible refine Eng.Held.of_ok ?_ ‹_›
      | with_reducible refine Eng.Held.of_fault ?_ ‹_›
      | with_reducible refine Eng.Held.of_stay ?_ ‹_›
      | with_reducible refine Eng.Held.of_bad ?_ ‹_›
      | (with_reducible refine AnsS.bind ?_ (fun _ _ => ?_))

theorem State.exactRoom_held {pf : Nat} {ctx : Nat} {places : List Nat} (hk : Held c₀ n₀ s) :
    AnsS c₀ n₀ (State.exactRoom s pf ctx places) := by
  unfold State.exactRoom
  repeat' first
    | with_reducible assumption
    | with_reducible apply State.exactReadyEach_held
    | with_reducible refine Denied.Held.of_fault ?_ ‹_›
    | with_reducible refine Denied.Held.of_wait ?_ ‹_›
    | with_reducible refine AnsS.of_ok ?_ ‹_›
    | with_reducible refine AnsS.of_error ?_ ‹_›
    | with_reducible refine AnsS.of_fault ?_ ‹_›
    | with_reducible refine AnsS.of_wait ?_ ‹_›
    | with_reducible refine Held.cells ?_
    | (refine Held.of_cells ?_; dsimp only)
    | split
    | with_reducible apply AnsS.ok

theorem State.exactAdd_held {pf : Nat} {ctx : Nat} {t : Nat} {place : Nat} {b : Nat} (hk : Held c₀ n₀ s) :
    Held c₀ n₀ (State.exactAdd s pf ctx t place b) := by
  unfold State.exactAdd
  repeat' first
    | with_reducible assumption
    | with_reducible apply State.modExact_held
    | with_reducible apply State.writeSpill_held
    | with_reducible refine Denied.Held.of_fault ?_ ‹_›
    | with_reducible refine Denied.Held.of_wait ?_ ‹_›
    | with_reducible refine AnsS.of_ok ?_ ‹_›
    | with_reducible refine AnsS.of_error ?_ ‹_›
    | with_reducible refine AnsS.of_fault ?_ ‹_›
    | with_reducible refine AnsS.of_wait ?_ ‹_›
    | with_reducible refine Held.cells ?_
    | (refine Held.of_cells ?_; dsimp only)
    | with_reducible intro _
    | split

theorem Env.withExacts_held {e : Env} {places : List Nat} {k : State → Effect} (hk : Held c₀ n₀ s) (h_k : ∀
    (a0 : State), Held c₀ n₀ a0 → Effect.Held c₀ n₀ (k a0)) : Effect.Held c₀ n₀ (Env.withExacts e s places k) := by
  unfold Env.withExacts
  repeat' first
    | with_reducible assumption
    | with_reducible apply h_k
    | with_reducible apply State.badWord_held
    | with_reducible apply State.exactRoom_held
    | with_reducible refine Denied.Held.of_fault ?_ ‹_›
    | with_reducible refine Denied.Held.of_wait ?_ ‹_›
    | with_reducible refine AnsS.of_ok ?_ ‹_›
    | with_reducible refine AnsS.of_error ?_ ‹_›
    | with_reducible refine AnsS.of_fault ?_ ‹_›
    | with_reducible refine AnsS.of_wait ?_ ‹_›
    | with_reducible refine Held.cells ?_
    | with_reducible intro _
    | split
    | with_reducible apply Effect.Held.wait
    | with_reducible apply Effect.Held.hold
    | with_reducible apply Effect.Held.placed

theorem execRedx_held {f : Fields} (hk : Held c₀ n₀ s) : Out c₀ n₀ (execRedx f s) := by
  unfold execRedx
  repeat' first
    | with_reducible assumption
    | with_reducible apply State.count_held
    | with_reducible apply Env.locateAll_held
    | with_reducible apply Env.onRelease_held
    | with_reducible apply issueWith_held
    | with_reducible apply Env.checked_held
    | with_reducible apply Env.order_held
    | with_reducible apply Env.ownFar_held
    | with_reducible apply State.exactAdd_held
    | with_reducible apply Env.withExacts_held
    | (with_reducible refine foldl_held (fun _ _ _ => ?_) _ ?_)
    | with_reducible intro _
    | split
    | with_reducible apply Out.next
    | with_reducible apply Effect.Held.done

theorem Env.finish_held {e : Env} {mode : Mode} {m : Member} {x : Spot} (hk : Held c₀ n₀ s) {r_ : State × Nat} (eq₀ :
    (Env.finish e s mode m x) = .ok r_) : Held c₀ n₀ r_.1 := by
  unfold Env.finish at eq₀
  repeat' first | (split at eq₀) | (dsimp only at eq₀) | cases eq₀ | done
  all_goals try dsimp only
  repeat' first
    | with_reducible assumption
    | with_reducible apply State.wakeSpill_held
    | with_reducible apply State.conflict_held
    | with_reducible apply State.count_held
    | with_reducible apply State.refresh_held
    | with_reducible apply Env.store1_held
    | with_reducible refine Held.cells ?_
    | with_reducible apply Cells.filter
    | (refine Held.of_cells ?_; dsimp only)

theorem Env.finishAll_held {e : Env} {mode : Mode} {l : List (Member × Spot)} (hk : Held c₀ n₀ s) {r_ : State × List
    (Nat × Nat)} (eq₀ : (Env.finishAll e s mode l) = .ok r_) : Held c₀ n₀ r_.1 := by
  induction l generalizing s e mode r_ with
  | nil =>
    unfold Env.finishAll at eq₀
    repeat' first | (split at eq₀) | (dsimp only at eq₀) | cases eq₀
    all_goals try dsimp only
    repeat' first
      | with_reducible assumption
  | cons x l ih =>
    unfold Env.finishAll at eq₀
    repeat' first | (split at eq₀) | (dsimp only at eq₀) | cases eq₀
    all_goals try dsimp only
    repeat' first
      | with_reducible assumption
      | with_reducible refine ih ?_ ‹_›
      | with_reducible refine Env.finish_held ?_ ‹_›

theorem execRedxf_held {f : Fields} (hk : Held c₀ n₀ s) : Out c₀ n₀ (execRedxf f s) := by
  unfold execRedxf
  repeat' first
    | with_reducible assumption
    | with_reducible apply State.badWord_held
    | with_reducible apply Env.locateAll_held
    | with_reducible apply Env.onRelease_held
    | with_reducible apply issueWith_held
    | with_reducible apply State.pathTerms_held
    | with_reducible apply Env.checked_held
    | with_reducible apply Env.order_held
    | with_reducible apply Env.ownFar_held
    | with_reducible apply Env.withExacts_held
    | with_reducible refine Env.finishAll_held ?_ ‹_›
    | with_reducible refine Held.cells ?_
    | with_reducible intro _
    | split
    | with_reducible apply Out.next
    | with_reducible apply Effect.Held.done
    | with_reducible apply Effect.Held.placed
    | exact True.intro
    | dsimp only

theorem Env.prefetch_held {e : Env} {place : Nat} (hk : Held c₀ n₀ s) : Held c₀ n₀ (Env.prefetch e s place) := by
  unfold Env.prefetch
  repeat' first
    | with_reducible assumption
    | with_reducible apply State.l1Fill_held
    | (with_reducible refine foldl_held (fun _ _ _ => ?_) _ ?_)
    | with_reducible intro _
    | split
    | dsimp only

theorem execPrefl_held {f : Fields} (hk : Held c₀ n₀ s) : Out c₀ n₀ (execPrefl f s) := by
  unfold execPrefl
  repeat' first
    | with_reducible assumption
    | with_reducible apply issueWith_held
    | with_reducible apply Env.prefetch_held
    | with_reducible refine Held.cells ?_
    | (with_reducible refine foldl_held (fun _ _ _ => ?_) _ ?_)
    | with_reducible intro _
    | split
    | with_reducible apply Out.next
    | with_reducible apply Effect.Held.done

/-! ### Control -/

theorem Env.branchTerms_held {e : Env} {next : Nat → Nat} (hk : Held c₀ n₀ s) : Held c₀ n₀ (Env.branchTerms e s next) := by
  unfold Env.branchTerms
  repeat' first
    | with_reducible assumption
    | with_reducible apply State.pathTerms_held

theorem execNop_held {f : Fields} (hk : Held c₀ n₀ s) : Out c₀ n₀ (execNop f s) := by
  unfold execNop
  repeat' first
    | with_reducible assumption
    | with_reducible apply issueWith_held
    | with_reducible intro _
    | split
    | with_reducible apply Out.next
    | with_reducible apply Effect.Held.done

theorem execYield_held {f : Fields} (hk : Held c₀ n₀ s) : Out c₀ n₀ (execYield f s) := by
  unfold execYield
  repeat' first
    | with_reducible assumption
    | with_reducible apply State.modFrag_held
    | with_reducible apply issueWith_held
    | with_reducible refine Held.cells ?_
    | with_reducible intro _
    | split
    | with_reducible apply Out.next
    | with_reducible apply Effect.Held.done

theorem execWhole_held {i : Instr} {f : Fields} {res : Env → Res} (hk : Held c₀ n₀ s) : Out c₀ n₀ (execWhole i f s res) := by
  unfold execWhole
  repeat' first
    | with_reducible assumption
    | with_reducible apply branchWith_held
    | with_reducible apply Env.branchTerms_held
    | with_reducible intro _
    | split
    | with_reducible apply Out.next
    | with_reducible apply Effect.Held.done
    | with_reducible apply Effect.Held.jump
    | with_reducible apply Effect.Held.trap

theorem execBra_held {f : Fields} (hk : Held c₀ n₀ s) : Out c₀ n₀ (execBra f s) := by
  unfold execBra
  repeat' first
    | with_reducible assumption
    | with_reducible apply execWhole_held

theorem execCall_held {f : Fields} (hk : Held c₀ n₀ s) : Out c₀ n₀ (execCall f s) := by
  unfold execCall
  repeat' first
    | with_reducible assumption
    | with_reducible apply execWhole_held

theorem Env.diverge_held {e : Env} {f : Fields} {r : Ret} {res : Res} {parts : List (Nat × List Member)} {rcv : Nat}
    (hk : Held c₀ n₀ s) : Effect.Held c₀ n₀ (Env.diverge e s f r res parts rcv) := by
  unfold Env.diverge
  repeat' first
    | with_reducible assumption
    | with_reducible apply State.count_held
    | with_reducible apply State.retire_held
    | with_reducible apply State.split_held
    | with_reducible apply Env.settled_held
    | with_reducible refine Held.cells ?_
    | with_reducible intro _
    | split
    | with_reducible apply Effect.Held.jump
    | with_reducible apply Effect.Held.trap
    | with_reducible apply Effect.Held.placed

theorem execBraC_held {f : Fields} (hk : Held c₀ n₀ s) : Out c₀ n₀ (execBraC f s) := by
  unfold execBraC
  repeat' first
    | with_reducible assumption
    | with_reducible apply branchWith_held
    | with_reducible apply Env.branchTerms_held
    | with_reducible apply Env.diverge_held
    | with_reducible refine Held.cells ?_
    | with_reducible intro _
    | split
    | with_reducible apply Out.next
    | with_reducible apply Effect.Held.done
    | with_reducible apply Effect.Held.jump
    | with_reducible apply Effect.Held.trap
    | exact True.intro
    | dsimp only

theorem Env.tableRead_held {e : Env} {x : Spot} (hk : Held c₀ n₀ s) {r_ : State × Nat} (eq₀ : e.tableRead s x = .ok r_) :
    Held c₀ n₀ r_.1 := by
  unfold Env.tableRead at eq₀
  split at eq₀
  · dsimp only at eq₀
    repeat' split at eq₀
    all_goals cases eq₀
    · exact State.count_held (State.conflict_held hk)
    · exact State.roLoad_held (State.conflict_held hk) rfl
  · cases eq₀; exact hk
  · generalize h : e.load1 s _ 8 true = y at eq₀
    cases y with
    | error p => cases eq₀
    | ok r => cases eq₀; exact Env.load1_held hk h

theorem Env.lookAt_held {e : Env} {tid : Nat} {va : Nat} (hk : Held c₀ n₀ s) : Looked.Held c₀ n₀ (Env.lookAt e s tid va) := by
  unfold Env.lookAt
  repeat' first
    | with_reducible assumption
    | with_reducible apply Env.locate_held
    | with_reducible refine Env.tableRead_held ?_ ‹_›
    | with_reducible refine Found.Held.of_ok ?_ ‹_›
    | with_reducible refine Found.Held.of_fault ?_ ‹_›
    | with_reducible refine Found.Held.of_wait ?_ ‹_›
    | with_reducible refine Held.cells ?_
    | split
    | with_reducible apply Looked.Held.ok
    | with_reducible apply Looked.Held.fault
    | with_reducible apply Looked.Held.wait
    | with_reducible apply Looked.Held.abort
    | exact True.intro

theorem Env.readTarget_held {e : Env} {base : Nat} {n : Nat} {good : Bool} {tid : Nat} {idx : Nat} (hk : Held c₀ n₀ s) :
    Looked.Held c₀ n₀ (Env.readTarget e s base n good tid idx) := by
  unfold Env.readTarget
  repeat' first
    | with_reducible assumption
    | with_reducible apply Env.lookAt_held
    | with_reducible refine Looked.Held.of_ok ?_ ‹_›
    | with_reducible refine Looked.Held.of_fault ?_ ‹_›
    | with_reducible refine Looked.Held.of_wait ?_ ‹_›
    | with_reducible refine Looked.Held.of_abort ?_ ‹_›
    | with_reducible refine Held.cells ?_
    | split
    | with_reducible apply Looked.Held.ok
    | with_reducible apply Looked.Held.fault

theorem Env.readTargets_held {e : Env} {base n : Nat} {good : Bool} {idx : Nat → Nat} {l : List Member} (hk : Held c₀ n₀ s) :
    (e.readTargets s base n good idx l).Held c₀ n₀ := by
  induction l generalizing s with
  | nil => exact hk
  | cons m l ih =>
    have ho := Env.readTarget_held (e := e) (base := base) (n := n) (good := good) (tid := m.tid) (idx := idx m.tid) hk
    unfold Env.readTargets
    generalize e.readTarget s base n good m.tid (idx m.tid) = r at ho
    cases r with
    | wait s k va r => exact ho
    | bad p => trivial
    | abort s c => exact ho
    | ok s v =>
      have hi := ih (s := s) ho
      dsimp only
      split
      · rename_i h2; rw [h2] at hi; exact hi
      · exact hi
    | fault s c a =>
      have hi := ih (s := s) ho
      dsimp only
      split
      · rename_i h2; rw [h2] at hi; exact hi
      · rename_i h2; rw [h2] at hi; exact hi
      · exact hi

theorem Looked.header_held {x : Looked} {ms : List Member} {k : State → Nat → Targets × Nat} (h_x : x.Held c₀ n₀)
    (h_k : ∀ s n, Machine.Held c₀ n₀ s → (k s n).1.Held c₀ n₀) : (x.header ms k).1.Held c₀ n₀ := by
  cases x with
  | ok s v => exact h_k s v h_x
  | fault s c a => exact h_x
  | wait s w va r => exact h_x
  | bad p => trivial
  | abort s c => exact h_x

theorem Env.readTable_held {e : Env} {f : Fields} (hk : Held c₀ n₀ s) : (e.readTable s f).1.Held c₀ n₀ := by
  unfold Env.readTable
  dsimp only
  split
  · exact hk
  · refine Looked.header_held (Env.lookAt_held hk) fun s h h1 => Looked.header_held (Env.lookAt_held h1) fun s r h2 => ?_
    split
    · exact h2
    · exact Env.readTargets_held h2
theorem Env.readTable_ok {e : Env} {f : Fields} {s' : State} {x : List (Nat × Nat)} {r : Nat} (hk : Held c₀ n₀ s)
    (eq₀ : e.readTable s f = (.ok s' x, r)) : Held c₀ n₀ s' := by
  have t := Env.readTable_held (e := e) (f := f) hk; rw [eq₀] at t; exact t
theorem Env.readTable_faults {e : Env} {f : Fields} {s' : State} {x : List (Nat × Nat × Nat)} {r : Nat} (hk : Held c₀ n₀ s)
    (eq₀ : e.readTable s f = (.faults s' x, r)) : Held c₀ n₀ s' := by
  have t := Env.readTable_held (e := e) (f := f) hk; rw [eq₀] at t; exact t
theorem Env.readTable_wait {e : Env} {f : Fields} {s' : State} {x : Nat × Nat × Nat} {r : Nat} (hk : Held c₀ n₀ s)
    (eq₀ : e.readTable s f = (.wait s' x, r)) : Held c₀ n₀ s' := by
  have t := Env.readTable_held (e := e) (f := f) hk; rw [eq₀] at t; exact t
theorem Env.readTable_abort {e : Env} {f : Fields} {s' : State} {c r : Nat} (hk : Held c₀ n₀ s)
    (eq₀ : e.readTable s f = (.abort s' c, r)) : Held c₀ n₀ s' := by
  have t := Env.readTable_held (e := e) (f := f) hk; rw [eq₀] at t; exact t

theorem execTable_held {i : Instr} {f : Fields} {res : Env → Res} (hk : Held c₀ n₀ s) : Out c₀ n₀ (execTable i f s res) := by
  unfold execTable
  repeat' first
    | with_reducible assumption
    | with_reducible apply State.badWord_held
    | with_reducible apply branchWith_held
    | with_reducible apply Env.branchTerms_held
    | with_reducible apply Env.diverge_held
    | with_reducible refine Env.readTable_ok ?_ ‹_›
    | with_reducible refine Env.readTable_faults ?_ ‹_›
    | with_reducible refine Env.readTable_wait ?_ ‹_›
    | with_reducible refine Env.readTable_abort ?_ ‹_›
    | with_reducible refine Held.cells ?_
    | with_reducible apply Cells.write
    | with_reducible apply Cells.clear
    | with_reducible apply Cells.copy
    | with_reducible apply Cells.restore
    | with_reducible apply Cells.putBack
    | with_reducible apply Cells.set
    | with_reducible apply Cells.filter
    | (with_reducible refine AnsP.map ?_ (fun _ _ => ?_))
    | (with_reducible refine AnsS.bind ?_ (fun _ _ => ?_))
    | (with_reducible refine AnsP.bind ?_ (fun _ _ => ?_))
    | (with_reducible refine AnsS.map ?_ (fun _ _ => ?_))
    | (with_reducible refine AnsN.then ?_ (fun _ => ?_))
    | (with_reducible apply AnsN.map)
    | (with_reducible refine AnsN.bind ?_ (fun _ => ?_))
    | exact AnsN.pure
    | (with_reducible refine Eng.bind_held ?_ (fun _ _ _ => ?_))
    | (with_reducible refine Cells.fold ?_ (fun _ _ _ => ?_) _)
    | (with_reducible refine foldl_held (fun _ _ _ => ?_) _ ?_)
    | with_reducible intro _
    | split
    | with_reducible apply Out.next
    | with_reducible apply Effect.Held.done
    | with_reducible apply Effect.Held.jump
    | with_reducible apply Effect.Held.trap
    | with_reducible apply Effect.Held.wait
    | with_reducible apply Effect.Held.hold
    | with_reducible apply Effect.Held.abort
    | with_reducible apply Effect.Held.placed
    | exact True.intro
    | dsimp only

theorem execBrx_held {f : Fields} (hk : Held c₀ n₀ s) : Out c₀ n₀ (execBrx f s) := by
  unfold execBrx
  repeat' first
    | with_reducible assumption
    | with_reducible apply execTable_held

theorem execCallx_held {f : Fields} (hk : Held c₀ n₀ s) : Out c₀ n₀ (execCallx f s) := by
  unfold execCallx
  repeat' first
    | with_reducible assumption
    | with_reducible apply execTable_held

theorem execRet_held {f : Fields} (hk : Held c₀ n₀ s) : Out c₀ n₀ (execRet f s) := by
  unfold execRet
  repeat' first
    | with_reducible assumption
    | with_reducible apply branchWith_held
    | with_reducible apply Env.branchTerms_held
    | with_reducible intro _
    | split
    | with_reducible apply Out.next
    | with_reducible apply Effect.Held.done
    | with_reducible apply Effect.Held.jump
    | with_reducible apply Effect.Held.trap
    | exact True.intro
    | dsimp only

theorem execExit_held {f : Fields} (hk : Held c₀ n₀ s) : Out c₀ n₀ (execExit f s) := by
  unfold execExit
  repeat' first
    | with_reducible assumption
    | with_reducible apply State.retire_held
    | with_reducible apply State.exitThreads_held
    | with_reducible apply Env.settled_held
    | with_reducible apply issueWith_held
    | with_reducible intro _
    | split
    | with_reducible apply Out.next
    | with_reducible apply Effect.Held.placed

theorem State.openRegion_held {e : Env} {f : Fields} (hk : Held c₀ n₀ s) : Held c₀ n₀ (State.openRegion s e f) := by
  unfold State.openRegion
  repeat' first
    | with_reducible assumption
    | with_reducible apply State.modTeam_held
    | with_reducible refine State.fileThreads_held ?_ ‹_›
    | with_reducible refine State.fileThreads_held ?_ rfl
    | with_reducible refine Held.cells ?_
    | with_reducible apply Cells.set
    | with_reducible apply Cells.filter
    | (refine Held.of_cells ?_; dsimp only)
    | with_reducible intro _
    | split

theorem execRfopen_held {f : Fields} (hk : Held c₀ n₀ s) : Out c₀ n₀ (execRfopen f s) := by
  unfold execRfopen
  repeat' first
    | with_reducible assumption
    | with_reducible apply State.retire_held
    | with_reducible apply Env.settled_held
    | with_reducible apply issueWith_held
    | with_reducible apply State.openRegion_held
    | with_reducible refine Held.cells ?_
    | with_reducible intro _
    | split
    | with_reducible apply Out.next
    | with_reducible apply Effect.Held.trap
    | with_reducible apply Effect.Held.placed

theorem State.refile_held {e : Env} {pc : Nat} {tids : List Nat} (hk : Held c₀ n₀ s) :
    Held c₀ n₀ (State.refile s e pc tids) := by
  unfold State.refile
  repeat' first
    | with_reducible assumption
    | with_reducible apply State.modTeam_held
    | with_reducible refine State.fileThreads_held ?_ ‹_›
    | with_reducible refine State.fileThreads_held ?_ rfl
    | with_reducible intro _
    | split

theorem execReform_held {f : Fields} (hk : Held c₀ n₀ s) : Out c₀ n₀ (execReform f s) := by
  unfold execReform
  repeat' first
    | with_reducible assumption
    | with_reducible apply State.modTeam_held
    | with_reducible apply State.retire_held
    | with_reducible apply Env.settled_held
    | with_reducible apply issueWith_held
    | with_reducible apply State.refile_held
    | with_reducible refine Held.cells ?_
    | with_reducible intro _
    | split
    | with_reducible apply Out.next
    | with_reducible apply Effect.Held.done
    | with_reducible apply Effect.Held.trap
    | with_reducible apply Effect.Held.placed

theorem execRfclose_held {f : Fields} (hk : Held c₀ n₀ s) : Out c₀ n₀ (execRfclose f s) := by
  unfold execRfclose
  repeat' first
    | with_reducible assumption
    | with_reducible apply State.retire_held
    | with_reducible apply State.joinThreads_held
    | with_reducible apply Env.settled_held
    | with_reducible apply issueWith_held
    | with_reducible refine Held.cells ?_
    | with_reducible intro _
    | split
    | with_reducible apply Out.next
    | with_reducible apply Effect.Held.trap
    | with_reducible apply Effect.Held.placed

theorem State.queueChild_held {t : Nat} {core : Nat} {entry : Nat} {parent : Nat} {a0 : Word} {a1 : Word} (hk : Held c₀ n₀ s)
    {r_ : State} (eq₀ : (State.queueChild s t core entry parent a0 a1) = some r_) : Held c₀ n₀ r_ := by
  unfold State.queueChild at eq₀
  repeat' first | (split at eq₀) | (dsimp only at eq₀) | cases eq₀ | done
  repeat' first
    | with_reducible assumption
    | with_reducible apply State.modTeam_held
    | with_reducible apply State.modCore_held

theorem Env.spawnAll_held {e : Env} {f : Fields} {l : List Member} (hk : Held c₀ n₀ s) {r_ : State × List (Nat × Bool)} (eq₀ :
    (Env.spawnAll e s f l) = r_) : Held c₀ n₀ r_.1 := by
  induction l generalizing s e f r_ with
  | nil =>
    subst eq₀
    unfold Env.spawnAll
    all_goals try dsimp only
    repeat' first
      | with_reducible assumption
  | cons x l ih =>
    subst eq₀
    unfold Env.spawnAll
    all_goals try dsimp only
    repeat' first
      | with_reducible assumption
      | with_reducible refine ih ?_ ‹_›
      | with_reducible refine ih ?_ rfl
      | with_reducible refine State.queueChild_held ?_ ‹_›
      | with_reducible refine Held.cells ?_
      | (refine Held.of_cells ?_; dsimp only)
      | with_reducible intro _
      | split

theorem execSpawn_held {f : Fields} (hk : Held c₀ n₀ s) : Out c₀ n₀ (execSpawn f s) := by
  unfold execSpawn
  repeat' first
    | with_reducible assumption
    | with_reducible apply issueWith_held
    | with_reducible refine Env.spawnAll_held ?_ ‹_›
    | with_reducible refine Env.spawnAll_held ?_ rfl
    | with_reducible refine Held.cells ?_
    | with_reducible intro _
    | split
    | with_reducible apply Out.next
    | with_reducible apply Effect.Held.done
    | with_reducible apply Effect.Held.trap

theorem execSoft_held {i : Instr} {f : Fields} {cause : Nat} {code : Word} (hk : Held c₀ n₀ s) :
    Out c₀ n₀ (execSoft i f s cause code) := by
  unfold execSoft
  repeat' first
    | with_reducible assumption
    | with_reducible apply State.retire_held
    | with_reducible apply State.takeTrap_held
    | with_reducible apply Env.settled_held
    | with_reducible apply issueWith_held
    | with_reducible refine Held.cells ?_
    | (refine Held.of_cells ?_; dsimp only)
    | with_reducible intro _
    | split
    | with_reducible apply Out.next
    | with_reducible apply Effect.Held.trap

theorem execTrap_held {f : Fields} (hk : Held c₀ n₀ s) : Out c₀ n₀ (execTrap f s) := by
  unfold execTrap
  repeat' first
    | with_reducible assumption
    | with_reducible apply execSoft_held

theorem execBkpt_held {f : Fields} (hk : Held c₀ n₀ s) : Out c₀ n₀ (execBkpt f s) := by
  unfold execBkpt
  repeat' first
    | with_reducible assumption
    | with_reducible apply execSoft_held

theorem execEret_held {f : Fields} (hk : Held c₀ n₀ s) : Out c₀ n₀ (execEret f s) := by
  unfold execEret
  repeat' first
    | with_reducible assumption
    | with_reducible apply State.count_held
    | with_reducible apply State.deliverFrag_held
    | with_reducible apply State.resumeFrame_held
    | with_reducible apply issueWith_held
    | with_reducible intro _
    | split
    | with_reducible apply Out.next
    | with_reducible apply Effect.Held.placed

theorem execHalt_held {f : Fields} (hk : Held c₀ n₀ s) : Out c₀ n₀ (execHalt f s) := by
  unfold execHalt
  repeat' first
    | with_reducible assumption
    | with_reducible apply State.modFrag_held
    | with_reducible apply State.count_held
    | with_reducible apply State.haltLaunch_held
    | with_reducible apply issueWith_held
    | with_reducible refine Held.cells ?_
    | with_reducible intro _
    | split
    | with_reducible apply Out.next
    | with_reducible apply Effect.Held.placed

theorem State.beginRepeat_held {e : Env} {r : RepFields} (hk : Held c₀ n₀ s) : Held c₀ n₀ (State.beginRepeat s e r) := by
  unfold State.beginRepeat
  repeat' first
    | with_reducible assumption
    | with_reducible apply State.modFrag_held
    | with_reducible apply State.retire_held

theorem execRep_held {r : RepFields} (hk : Held c₀ n₀ s) : Out c₀ n₀ (execRep r s) := by
  unfold execRep
  repeat' first
    | with_reducible assumption
    | with_reducible apply State.badWord_held
    | with_reducible apply State.park_held
    | with_reducible apply State.raise_held
    | with_reducible apply Env.fetch_held
    | with_reducible apply State.beginRepeat_held
    | with_reducible refine FetchResult.Held.of_words ?_ ‹_›
    | with_reducible refine FetchResult.Held.of_trap ?_ ‹_›
    | with_reducible refine FetchResult.Held.of_wait ?_ ‹_›
    | with_reducible refine Held.cells ?_
    | (refine Held.of_cells ?_; dsimp only)
    | split
    | with_reducible apply Out.next
    | with_reducible apply Effect.Held.trap
    | with_reducible apply Effect.Held.wait
    | exact True.intro

theorem execIllegalEncoding_held {_x : RawWords} (hk : Held c₀ n₀ s) : Out c₀ n₀ (execIllegalEncoding _x s) := by
  unfold execIllegalEncoding
  repeat' first
    | with_reducible assumption
    | with_reducible apply State.raise_held
    | with_reducible refine Held.cells ?_
    | split
    | with_reducible apply Out.next
    | exact True.intro

theorem execUnimplementedEncoding_held {_x : RawWords} (hk : Held c₀ n₀ s) : Out c₀ n₀ (execUnimplementedEncoding _x s) := by
  unfold execUnimplementedEncoding
  repeat' first
    | with_reducible assumption
    | with_reducible apply State.raise_held
    | with_reducible refine Held.cells ?_
    | split
    | with_reducible apply Out.next
    | exact True.intro

/-! ### Barriers -/

theorem Env.allocPhaser_held {e : Env} {scope : Nat} {count : Nat} (hk : Held c₀ n₀ s) {r_ : State × Nat} (eq₀ :
    (Env.allocPhaser e s scope count) = r_) : Held c₀ n₀ r_.1 := by
  subst eq₀
  unfold Env.allocPhaser
  repeat' first
    | with_reducible assumption
    | with_reducible apply State.modTeam_held
    | with_reducible apply State.modLaunch_held
    | with_reducible apply State.modDie_held
    | with_reducible apply State.freePhasers_held
    | with_reducible apply State.count_held
    | with_reducible refine Held.cells ?_
    | (refine Held.of_cells ?_; dsimp only)
    | with_reducible intro _
    | split

theorem execPhinit_held {f : Fields} (hk : Held c₀ n₀ s) : Out c₀ n₀ (execPhinit f s) := by
  unfold execPhinit
  repeat' first
    | with_reducible assumption
    | with_reducible apply State.count_held
    | with_reducible apply issueWith_held
    | with_reducible refine Env.allocPhaser_held ?_ ‹_›
    | with_reducible refine Env.allocPhaser_held ?_ rfl
    | with_reducible intro _
    | split
    | with_reducible apply Out.next
    | with_reducible apply Effect.Held.done
    | with_reducible apply Effect.Held.trap
    | exact True.intro
    | dsimp only

theorem Env.withPhaser_held {e : Env} {f : Fields} {k : Nat → Phaser → Effect} (hk : Held c₀ n₀ s) (h_k : ∀ (a0 : Nat)
    (a1 : Phaser),  Effect.Held c₀ n₀ (k a0 a1)) : Effect.Held c₀ n₀ (Env.withPhaser e s f k) := by
  unfold Env.withPhaser
  repeat' first
    | with_reducible assumption
    | with_reducible apply h_k
    | with_reducible refine Held.cells ?_
    | with_reducible intro _
    | split
    | with_reducible apply Effect.Held.trap
    | with_reducible apply Effect.Held.hold
    | exact True.intro
    | dsimp only

theorem Env.withReg_held {e : Env} {f : Fields} {modes : List Nat} {k : Nat → Phaser → Registration → Effect}
    (hk : Held c₀ n₀ s) (h_k : ∀ (a0 : Nat) (a1 : Phaser) (a2 : Registration),  Effect.Held c₀ n₀ (k a0 a1 a2)) :
    Effect.Held c₀ n₀ (Env.withReg e s f modes k) := by
  unfold Env.withReg
  repeat' first
    | with_reducible assumption
    | with_reducible apply h_k
    | with_reducible apply Env.withPhaser_held
    | with_reducible refine Held.cells ?_
    | with_reducible intro _
    | split
    | with_reducible apply Effect.Held.trap

theorem execPhreg_held {f : Fields} (hk : Held c₀ n₀ s) : Out c₀ n₀ (execPhreg f s) := by
  unfold execPhreg
  repeat' first
    | with_reducible assumption
    | with_reducible apply State.modWarp_held
    | with_reducible apply State.putPhaser_held
    | with_reducible apply issueWith_held
    | with_reducible apply Env.withPhaser_held
    | with_reducible refine Held.cells ?_
    | with_reducible intro _
    | split
    | with_reducible apply Out.next
    | with_reducible apply Effect.Held.done
    | with_reducible apply Effect.Held.trap
    | exact True.intro
    | dsimp only

theorem execPhdrop_held {f : Fields} (hk : Held c₀ n₀ s) : Out c₀ n₀ (execPhdrop f s) := by
  unfold execPhdrop
  repeat' first
    | with_reducible assumption
    | with_reducible apply State.modWarp_held
    | with_reducible apply State.putPhaser_held
    | with_reducible apply issueWith_held
    | with_reducible apply Env.withReg_held
    | with_reducible refine Held.cells ?_
    | with_reducible intro _
    | split
    | with_reducible apply Out.next
    | with_reducible apply Effect.Held.done

theorem Env.arriveOn_held {e : Env} {h : Nat} (hk : Held c₀ n₀ s) : Held c₀ n₀ (Env.arriveOn e s h) := by
  unfold Env.arriveOn
  repeat' first
    | with_reducible assumption
    | with_reducible apply Env.release_held
    | with_reducible apply State.release_held
    | with_reducible apply State.arrive_held

theorem execPharv_held {f : Fields} (hk : Held c₀ n₀ s) : Out c₀ n₀ (execPharv f s) := by
  unfold execPharv
  repeat' first
    | with_reducible assumption
    | with_reducible apply Env.release_held
    | with_reducible apply State.release_held
    | with_reducible apply issueWith_held
    | with_reducible apply Env.withReg_held
    | with_reducible apply Env.arriveOn_held
    | with_reducible intro _
    | split
    | with_reducible apply Out.next
    | with_reducible apply Effect.Held.done
    | with_reducible apply Effect.Held.wait
    | with_reducible apply Effect.Held.hold

theorem Env.tryWait_held {e : Env} {f : Fields} {h : Nat} {t : Nat} {hint : Word} (hk : Held c₀ n₀ s) :
    Effect.Held c₀ n₀ (Env.tryWait e s f h t hint) := by
  unfold Env.tryWait
  repeat' first
    | with_reducible assumption
    | with_reducible apply Env.acquire_held
    | with_reducible apply State.setAgain_held
    | with_reducible refine Held.cells ?_
    | split
    | with_reducible apply Effect.Held.done
    | with_reducible apply Effect.Held.trap
    | with_reducible apply Effect.Held.wait

theorem execPhwait_held {f : Fields} (hk : Held c₀ n₀ s) : Out c₀ n₀ (execPhwait f s) := by
  unfold execPhwait
  repeat' first
    | with_reducible assumption
    | with_reducible apply issueWith_held
    | with_reducible apply Env.withReg_held
    | with_reducible apply Env.tryWait_held
    | with_reducible intro _

theorem execPhaw_held {f : Fields} (hk : Held c₀ n₀ s) : Out c₀ n₀ (execPhaw f s) := by
  unfold execPhaw
  repeat' first
    | with_reducible assumption
    | with_reducible apply Env.release_held
    | with_reducible apply State.release_held
    | with_reducible apply State.setAgain_held
    | with_reducible apply issueWith_held
    | with_reducible apply Env.withReg_held
    | with_reducible apply Env.arriveOn_held
    | with_reducible apply Env.tryWait_held
    | with_reducible intro _
    | split
    | with_reducible apply Out.next
    | with_reducible apply Effect.Held.hold
    | exact True.intro
    | dsimp only

theorem State.emptyWindow_held {t : Nat} {g : Nat} (hk : Held c₀ n₀ s) : Held c₀ n₀ (State.emptyWindow s t g) := by
  unfold State.emptyWindow
  repeat' first
    | with_reducible assumption
    | with_reducible apply State.modFrag_held

theorem Env.barsArrive_held {e : Env} {h : Nat} {p : Phaser} {r : Registration} (hk : Held c₀ n₀ s) {r_ : State × Nat} (eq₀ :
    (Env.barsArrive e s h p r) = r_) : Held c₀ n₀ r_.1 := by
  subst eq₀
  unfold Env.barsArrive
  repeat' first
    | with_reducible assumption
    | with_reducible apply State.modWarp_held
    | with_reducible apply State.setAgain_held
    | with_reducible apply Env.arriveOn_held
    | with_reducible refine Held.cells ?_
    | with_reducible intro _
    | split

theorem execBars_held {f : Fields} (hk : Held c₀ n₀ s) : Out c₀ n₀ (execBars f s) := by
  unfold execBars
  repeat' first
    | with_reducible assumption
    | with_reducible apply State.modWarp_held
    | with_reducible apply Env.release_held
    | with_reducible apply State.release_held
    | with_reducible apply State.acquireTeam_held
    | with_reducible apply Env.settled_held
    | with_reducible apply issueWith_held
    | with_reducible apply Env.withReg_held
    | with_reducible apply State.emptyWindow_held
    | with_reducible refine Env.barsArrive_held ?_ ‹_›
    | with_reducible refine Env.barsArrive_held ?_ rfl
    | with_reducible refine Held.cells ?_
    | with_reducible intro _
    | split
    | with_reducible apply Out.next
    | with_reducible apply Effect.Held.done
    | with_reducible apply Effect.Held.trap
    | with_reducible apply Effect.Held.hold
    | exact True.intro
    | dsimp only

theorem execTxbeg_held {f : Fields} (hk : Held c₀ n₀ s) : Out c₀ n₀ (execTxbeg f s) := by
  unfold execTxbeg
  repeat' first
    | with_reducible assumption
    | with_reducible apply State.modWarp_held
    | with_reducible apply Env.acquire_held
    | with_reducible apply Env.settled_held
    | with_reducible apply issueWith_held
    | with_reducible apply State.emptyWindow_held
    | with_reducible intro _
    | split
    | with_reducible apply Out.next
    | with_reducible apply Effect.Held.done
    | with_reducible apply Effect.Held.trap

theorem execTxend_held {f : Fields} (hk : Held c₀ n₀ s) : Out c₀ n₀ (execTxend f s) := by
  unfold execTxend
  repeat' first
    | with_reducible assumption
    | with_reducible apply Env.release_held
    | with_reducible apply State.release_held
    | with_reducible apply State.commitTx_held
    | with_reducible apply Env.settled_held
    | with_reducible apply issueWith_held
    | with_reducible refine Held.cells ?_
    | with_reducible intro _
    | split
    | with_reducible apply Out.next
    | with_reducible apply Effect.Held.done
    | with_reducible apply Effect.Held.trap
    | with_reducible apply Effect.Held.hold

theorem execTxabt_held {f : Fields} (hk : Held c₀ n₀ s) : Out c₀ n₀ (execTxabt f s) := by
  unfold execTxabt
  repeat' first
    | with_reducible assumption
    | with_reducible apply issueWith_held
    | with_reducible refine Held.cells ?_
    | with_reducible intro _
    | split
    | with_reducible apply Out.next
    | with_reducible apply Effect.Held.done
    | with_reducible apply Effect.Held.abort

/-! ### System -/

theorem execTilewait_held {f : Fields} (hk : Held c₀ n₀ s) : Out c₀ n₀ (execTilewait f s) := by
  unfold execTilewait
  repeat' first
    | with_reducible assumption
    | with_reducible apply Env.acquire_held
    | with_reducible apply issueWith_held
    | with_reducible intro _
    | split
    | with_reducible apply Out.next
    | with_reducible apply Effect.Held.done
    | with_reducible apply Effect.Held.wait
    | exact True.intro
    | dsimp only

theorem State.notifyTiles_held {t : Nat} (hk : Held c₀ n₀ s) : Held c₀ n₀ (State.notifyTiles s t) := by
  unfold State.notifyTiles
  repeat' first
    | with_reducible assumption
    | with_reducible apply State.endTry_held
    | with_reducible refine Held.cells ?_
    | (with_reducible refine foldl_held (fun _ _ _ => ?_) _ ?_)
    | with_reducible intro _
    | split

theorem execFence_held {f : Fields} (hk : Held c₀ n₀ s) : Out c₀ n₀ (execFence f s) := by
  unfold execFence
  repeat' first
    | with_reducible assumption
    | with_reducible apply Env.onRelease_held
    | with_reducible apply issueWith_held
    | with_reducible apply Env.order_held
    | with_reducible intro _
    | split
    | with_reducible apply Out.next
    | with_reducible apply Effect.Held.done

theorem execCctlRo_held {f : Fields} (hk : Held c₀ n₀ s) : Out c₀ n₀ (execCctlRo f s) := by
  unfold execCctlRo
  repeat' first
    | with_reducible assumption
    | with_reducible apply State.modCore_held
    | with_reducible apply issueWith_held
    | with_reducible refine Held.cells ?_
    | with_reducible intro _
    | split
    | with_reducible apply Out.next
    | with_reducible apply Effect.Held.done

theorem execCsrr_held {f : Fields} (hk : Held c₀ n₀ s) : Out c₀ n₀ (execCsrr f s) := by
  unfold execCsrr
  repeat' first
    | with_reducible assumption
    | with_reducible apply issueWith_held
    | with_reducible intro _
    | split
    | with_reducible apply Out.next
    | with_reducible apply Effect.Held.done

theorem execCsrw_held {f : Fields} (hk : Held c₀ n₀ s) : Out c₀ n₀ (execCsrw f s) := by
  unfold execCsrw
  repeat' first
    | with_reducible assumption
    | with_reducible apply State.modTeam_held
    | with_reducible apply issueWith_held
    | with_reducible refine Held.cells ?_
    | with_reducible intro _
    | split
    | with_reducible apply Out.next
    | with_reducible apply Effect.Held.done
    | with_reducible apply Effect.Held.trap
    | exact True.intro
    | dsimp only

theorem execOvld_held {f : Fields} (hk : Held c₀ n₀ s) : Out c₀ n₀ (execOvld f s) := by
  unfold execOvld
  repeat' first
    | with_reducible assumption
    | with_reducible apply State.modCtx_held
    | with_reducible apply issueWith_held
    | with_reducible refine Held.cells ?_
    | with_reducible intro _
    | split
    | with_reducible apply Out.next
    | with_reducible apply Effect.Held.done
    | with_reducible apply Effect.Held.trap
    | exact True.intro
    | dsimp only

theorem Env.claimAnswer_held {e : Env} (hk : Held c₀ n₀ s) {r_ : State × Option Nat} (eq₀ : (Env.claimAnswer e s) = r_) :
    Held c₀ n₀ r_.1 := by
  subst eq₀
  unfold Env.claimAnswer
  repeat' first
    | with_reducible assumption
    | with_reducible apply State.modCtx_held
    | with_reducible refine Held.cells ?_
    | (refine Held.of_cells ?_; dsimp only)
    | with_reducible intro _
    | split

theorem execClaim_held {f : Fields} (hk : Held c₀ n₀ s) : Out c₀ n₀ (execClaim f s) := by
  unfold execClaim
  repeat' first
    | with_reducible assumption
    | with_reducible apply State.modFrag_held
    | with_reducible apply State.badWord_held
    | with_reducible apply issueWith_held
    | with_reducible refine Env.claimAnswer_held ?_ ‹_›
    | with_reducible refine Env.claimAnswer_held ?_ rfl
    | with_reducible refine Held.cells ?_
    | with_reducible intro _
    | split
    | with_reducible apply Out.next
    | with_reducible apply Effect.Held.done
    | with_reducible apply Effect.Held.trap
    | with_reducible apply Effect.Held.wait
    | with_reducible apply Effect.Held.hold
    | with_reducible apply Effect.Held.placed
    | exact True.intro
    | dsimp only

theorem State.dropDirty_held {base : Nat} {size : Nat} (hk : Held c₀ n₀ s) : Held c₀ n₀ (State.dropDirty s base size) := by
  unfold State.dropDirty
  repeat' first
    | with_reducible assumption
    | with_reducible apply State.modDie_held

theorem State.movePage_held {ms : List Move} (hk : Held c₀ n₀ s) : Held c₀ n₀ (State.movePage s ms) := by
  unfold State.movePage
  repeat' first
    | with_reducible assumption
    | with_reducible apply State.touch_held
    | with_reducible apply State.dropLines_held
    | with_reducible apply State.dropDirty_held
    | with_reducible refine Held.cells ?_
    | with_reducible apply Cells.copy
    | (with_reducible refine Cells.fold ?_ (fun _ _ _ => ?_) _)
    | (with_reducible refine foldl_held (fun _ _ _ => ?_) _ ?_)
    | (refine Held.of_cells ?_; dsimp only)

theorem State.dropPage_held {pf : Nat} {ctx : Nat} {va : Nat} (hk : Held c₀ n₀ s) :
    Held c₀ n₀ (State.dropPage s pf ctx va) := by
  unfold State.dropPage
  repeat' first
    | with_reducible assumption
    | with_reducible apply State.dropTlbs_held

theorem State.giveFrame_held {pa : Nat} {lvl : Nat} {place : Nat} (hk : Held c₀ n₀ s) :
    Held c₀ n₀ (State.giveFrame s pa lvl place) := by
  unfold State.giveFrame
  repeat' first
    | with_reducible assumption
    | with_reducible apply State.modDie_held
    | with_reducible refine Held.cells ?_
    | with_reducible intro _
    | split

theorem Env.claimPage_held {e : Env} {va : Nat} (hk : Held c₀ n₀ s) : Claimed.Held c₀ n₀ (Env.claimPage e s va) := by
  unfold Env.claimPage
  repeat' first
    | with_reducible assumption
    | with_reducible apply State.pokeEntry_held
    | with_reducible refine State.takeFrame_held ?_ ‹_›
    | with_reducible apply State.noteBound_held
    | with_reducible apply State.askHost_held
    | with_reducible apply placementEvent_held
    | with_reducible apply State.movePage_held
    | with_reducible apply State.dropPage_held
    | with_reducible apply State.giveFrame_held
    | with_reducible refine Xlate.Held.of_ok ?_ ‹_›
    | with_reducible refine Xlate.Held.of_fault ?_ ‹_›
    | with_reducible refine Xlate.Held.of_pool ?_ ‹_›
    | with_reducible refine Xlate.Held.of_asked ?_ ‹_›
    | with_reducible refine Held.cells ?_
    | with_reducible intro _
    | split
    | with_reducible apply Claimed.Held.ok
    | with_reducible apply Claimed.Held.fault
    | with_reducible apply Claimed.Held.wait
    | exact True.intro
    | dsimp only

theorem State.claimTo_held {t : Nat} {g : Nat} {next : Nat} {stop : Nat} (hk : Held c₀ n₀ s) :
    Held c₀ n₀ (State.claimTo s t g next stop) := by
  unfold State.claimTo
  repeat' first
    | with_reducible assumption
    | with_reducible apply State.modFrag_held

theorem execClaimPage_held {t : Nat} {g : Nat} (hk : Held c₀ n₀ s) : Out c₀ n₀ (execClaimPage t g s) := by
  unfold execClaimPage
  repeat' first
    | with_reducible assumption
    | with_reducible apply State.modFrag_held
    | with_reducible apply State.badWord_held
    | with_reducible apply State.raise_held
    | with_reducible apply Env.claimPage_held
    | with_reducible apply State.claimTo_held
    | with_reducible refine Claimed.Held.of_ok ?_ ‹_›
    | with_reducible refine Claimed.Held.of_fault ?_ ‹_›
    | with_reducible refine Claimed.Held.of_wait ?_ ‹_›
    | with_reducible refine Held.cells ?_
    | with_reducible intro _
    | split
    | with_reducible apply Out.next
    | with_reducible apply Effect.Held.wait
    | exact True.intro
    | dsimp only

/-! ### Matrix -/

theorem State.putTile_held {t : Nat} {n : Nat} {d : DWord} (hk : Held c₀ n₀ s) : Held c₀ n₀ (State.putTile s t n d) := by
  unfold State.putTile
  repeat' first
    | with_reducible assumption
    | with_reducible apply State.modTeam_held

theorem execTbind_held {f : Fields} (hk : Held c₀ n₀ s) : Out c₀ n₀ (execTbind f s) := by
  unfold execTbind
  repeat' first
    | with_reducible assumption
    | with_reducible apply issueWith_held
    | with_reducible apply State.putTile_held
    | with_reducible intro _
    | split
    | with_reducible apply Out.next
    | with_reducible apply Effect.Held.done
    | with_reducible apply Effect.Held.trap
    | exact True.intro
    | dsimp only

theorem execTrel_held {f : Fields} (hk : Held c₀ n₀ s) : Out c₀ n₀ (execTrel f s) := by
  unfold execTrel
  repeat' first
    | with_reducible assumption
    | with_reducible apply issueWith_held
    | with_reducible apply State.putTile_held
    | with_reducible intro _
    | split
    | with_reducible apply Out.next
    | with_reducible apply Effect.Held.done

theorem Env.queueMatrix_held {e : Env} {i : Instr} {f : Fields} {cycles : Nat} {elems : AccElems} (hk : Held c₀ n₀ s) :
    Effect.Held c₀ n₀ (Env.queueMatrix e s i f cycles elems) := by
  unfold Env.queueMatrix
  repeat' first
    | with_reducible assumption
    | with_reducible apply State.modCore_held
    | with_reducible apply State.retire_held
    | with_reducible refine Held.cells ?_
    | (refine Held.of_cells ?_; dsimp only)
    | with_reducible intro _
    | split
    | with_reducible apply Effect.Held.hold

theorem execMatrix_held {i : Instr} {f : Fields} {scaled : Bool} (hk : Held c₀ n₀ s) : Out c₀ n₀ (execMatrix i f scaled s) := by
  unfold execMatrix
  repeat' first
    | with_reducible assumption
    | with_reducible apply issueWith_held
    | with_reducible apply Env.ownFar_held
    | with_reducible apply Env.queueMatrix_held
    | with_reducible refine Held.cells ?_
    | with_reducible intro _
    | split
    | with_reducible apply Out.next
    | with_reducible apply Effect.Held.trap
    | exact True.intro
    | dsimp only

theorem execMma_held {f : Fields} (hk : Held c₀ n₀ s) : Out c₀ n₀ (execMma f s) := by
  unfold execMma
  repeat' first
    | with_reducible assumption
    | with_reducible apply execMatrix_held

theorem execMmabs_held {f : Fields} (hk : Held c₀ n₀ s) : Out c₀ n₀ (execMmabs f s) := by
  unfold execMmabs
  repeat' first
    | with_reducible assumption
    | with_reducible apply execMatrix_held

theorem execAzero_held {f : Fields} (hk : Held c₀ n₀ s) : Out c₀ n₀ (execAzero f s) := by
  unfold execAzero
  repeat' first
    | with_reducible assumption
    | with_reducible apply issueWith_held
    | with_reducible apply Env.queueMatrix_held
    | with_reducible intro _

theorem execAmov_held {f : Fields} (hk : Held c₀ n₀ s) : Out c₀ n₀ (execAmov f s) := by
  unfold execAmov
  repeat' first
    | with_reducible assumption
    | with_reducible apply issueWith_held
    | with_reducible apply Env.queueMatrix_held
    | with_reducible intro _

theorem Env.locateBlock_held {e : Env} {n : Need} {f : Fields} {l : List (Nat × Nat)} (hk : Held c₀ n₀ s) :
    Held c₀ n₀ (Env.locateBlock e s n f l).s := by
  induction l generalizing s e n f with
  | nil =>
    unfold Env.locateBlock
    repeat' first
      | with_reducible assumption
  | cons x l ih =>
    unfold Env.locateBlock
    repeat' first
      | with_reducible assumption
      | with_reducible apply ih
      | with_reducible apply Env.locateAll_held
      | with_reducible refine Held.cells ?_
      | (refine Held.of_cells ?_; dsimp only)
      | with_reducible intro _
      | split

theorem Env.blockChecks_held {e : Env} {n : Need} {f : Fields} (hk : Held c₀ n₀ s) :
    Held c₀ n₀ (Env.blockChecks e s n f).s := by
  unfold Env.blockChecks
  repeat' first
    | with_reducible assumption
    | with_reducible apply Env.locateBlock_held

theorem execAld_held {f : Fields} (hk : Held c₀ n₀ s) : Out c₀ n₀ (execAld f s) := by
  unfold execAld
  repeat' first
    | with_reducible assumption
    | with_reducible apply State.badWord_held
    | with_reducible refine Env.loadAll_held ?_ ‹_›
    | with_reducible apply issueWith_held
    | with_reducible apply Env.checked_held
    | with_reducible apply Env.order_held
    | with_reducible apply Env.ownFar_held
    | with_reducible apply Env.queueMatrix_held
    | with_reducible apply Env.blockChecks_held
    | with_reducible refine Held.cells ?_
    | with_reducible intro _
    | split
    | with_reducible apply Out.next
    | with_reducible apply Effect.Held.hold
    | with_reducible apply Effect.Held.placed
    | exact True.intro
    | dsimp only

theorem execAst_held {f : Fields} (hk : Held c₀ n₀ s) : Out c₀ n₀ (execAst f s) := by
  unfold execAst
  repeat' first
    | with_reducible assumption
    | with_reducible apply Env.storeAll_held
    | with_reducible apply Env.onRelease_held
    | with_reducible apply issueWith_held
    | with_reducible apply Env.checked_held
    | with_reducible apply Env.inMode_held
    | with_reducible apply Env.order_held
    | with_reducible apply Env.ownFar_held
    | with_reducible apply Env.blockChecks_held
    | with_reducible intro _
    | split
    | with_reducible apply Out.next
    | with_reducible apply Effect.Held.done

end Sys2Proof.Machine
end

