-- ==== Sys2Proof/Laws/KeepEngines.lean ====
section
/-! SUPPORT. The engine commands, the happenings on cores and the saves keep the canonical form of memory and never lower the floor. -/

namespace Sys2Proof.Machine

variable {c₀ : Bool} {n₀ : Nat} {s : State}

/-! ### Queues -/

theorem State.modCmd_held {t : Nat} {c : Nat} {f : Cmd → Cmd} (hk : Held c₀ n₀ s) : Held c₀ n₀ (State.modCmd s t c f) := by
  unfold State.modCmd
  repeat' first
    | with_reducible assumption
    | with_reducible apply State.modTeam_held

theorem State.putRecord_held {t : Nat} {slot : Nat} {bs : List Byte} (hk : Held c₀ n₀ s) :
    Held c₀ n₀ (State.putRecord s t slot bs) := by
  unfold State.putRecord
  repeat' first
    | with_reducible assumption
    | with_reducible apply State.poke_held
    | split
    | dsimp only

theorem State.nodeRecord_held {t : Nat} {n : Nat} {status : Nat} {cause : Nat} (hk : Held c₀ n₀ s) :
    Held c₀ n₀ (State.nodeRecord s t n status cause) := by
  unfold State.nodeRecord
  repeat' first
    | with_reducible assumption
    | with_reducible apply State.putRecord_held
    | with_reducible refine Held.cells ?_
    | split

theorem State.dropTeamL1_held {t : Nat} (hk : Held c₀ n₀ s) : Held c₀ n₀ (State.dropTeamL1 s t) := by
  unfold State.dropTeamL1
  repeat' first
    | with_reducible assumption
    | with_reducible apply State.dropL1_held
    | split
    | dsimp only

theorem State.finishCmd_held {t : Nat} {c : Nat} (hk : Held c₀ n₀ s) : Held c₀ n₀ (State.finishCmd s t c) := by
  unfold State.finishCmd
  repeat' first
    | with_reducible assumption
    | with_reducible apply State.modTeam_held
    | with_reducible apply State.sendArrival_held
    | with_reducible apply State.notifyTiles_held
    | with_reducible apply State.modCmd_held
    | with_reducible apply State.putRecord_held
    | with_reducible apply State.dropTeamL1_held
    | with_reducible refine Held.cells ?_
    | (refine Held.of_cells ?_; dsimp only)
    | with_reducible intro _
    | split

theorem State.endCmd_held {t : Nat} {c : Nat} {status : Nat} {cause : Nat} (hk : Held c₀ n₀ s) :
    Held c₀ n₀ (State.endCmd s t c status cause) := by
  unfold State.endCmd
  repeat' first
    | with_reducible assumption
    | with_reducible apply State.count_held
    | with_reducible apply State.modCmd_held
    | with_reducible apply State.finishCmd_held

theorem State.launchCmd_held {t : Nat} {c : Nat} (hk : Held c₀ n₀ s) : Held c₀ n₀ (State.launchCmd s t c) := by
  unfold State.launchCmd
  repeat' first
    | with_reducible assumption
    | with_reducible apply State.modTeam_held
    | with_reducible apply State.deliver_held
    | with_reducible apply Env.order_held
    | with_reducible apply State.modCmd_held
    | with_reducible apply State.endCmd_held
    | with_reducible refine Held.cells ?_
    | (refine Held.of_cells ?_; dsimp only)
    | with_reducible intro _
    | split

theorem State.launchNode_held {t : Nat} {n : Nat} (hk : Held c₀ n₀ s) : Held c₀ n₀ (State.launchNode s t n) := by
  unfold State.launchNode
  repeat' first
    | with_reducible assumption
    | with_reducible apply State.modTeam_held
    | with_reducible apply State.sendArrival_held
    | with_reducible apply Env.failed_held
    | with_reducible refine State.queueChild_held ?_ ‹_›
    | with_reducible apply State.nodeRecord_held
    | with_reducible apply State.endCmd_held
    | with_reducible apply State.launchCmd_held
    | with_reducible refine Held.cells ?_
    | (refine Held.of_cells ?_; dsimp only)
    | with_reducible intro _
    | split

theorem State.runGraph_held {t : Nat} {fuel : Nat} (hk : Held c₀ n₀ s) : Held c₀ n₀ (State.runGraph s t fuel) := by
  induction fuel generalizing s t with
  | zero =>
    unfold State.runGraph
    repeat' first
      | with_reducible assumption
  | succ fuel ih =>
    unfold State.runGraph
    repeat' first
      | with_reducible assumption
      | with_reducible apply ih
      | with_reducible apply State.launchNode_held
      | with_reducible refine Held.cells ?_
      | (refine Held.of_cells ?_; dsimp only)
      | with_reducible intro _
      | split

theorem State.completeCmd_held {t : Nat} {c : Nat} (hk : Held c₀ n₀ s) : Held c₀ n₀ (State.completeCmd s t c) := by
  unfold State.completeCmd
  repeat' first
    | with_reducible assumption
    | with_reducible apply State.teamCheck_held
    | with_reducible apply State.finishCmd_held
    | with_reducible apply State.runGraph_held

theorem State.acceptGraph_held {t : Nat} {ws : List Word} (hk : Held c₀ n₀ s) {r_ : State} (eq₀ :
    (State.acceptGraph s t ws) = .ok r_) : Held c₀ n₀ r_ := by
  unfold State.acceptGraph at eq₀
  repeat' first | (split at eq₀) | (dsimp only at eq₀) | cases eq₀ | done
  repeat' first
    | with_reducible assumption
    | with_reducible apply State.modTeam_held
    | with_reducible apply State.teamCheck_held
    | with_reducible apply State.runGraph_held

theorem graphHappening_held {opc : Nat} {t : Nat} {ws : List Word} (hk : Held c₀ n₀ s) :
    Held c₀ n₀ (graphHappening opc t ws s) := by
  unfold graphHappening
  repeat' first
    | with_reducible assumption
    | with_reducible refine State.acceptGraph_held ?_ ‹_›
    | with_reducible refine Held.cells ?_
    | split

theorem execGnode_held {t : Nat} {_w : Nat} {ws : List Word} (hk : Held c₀ n₀ s) : Out c₀ n₀ (execGnode t _w ws s) := by
  unfold execGnode
  repeat' first
    | with_reducible assumption
    | with_reducible apply graphHappening_held
    | split
    | with_reducible apply Out.next

theorem execGarm_held {t : Nat} {_w : Nat} {ws : List Word} (hk : Held c₀ n₀ s) : Out c₀ n₀ (execGarm t _w ws s) := by
  unfold execGarm
  repeat' first
    | with_reducible assumption
    | with_reducible apply graphHappening_held
    | split
    | with_reducible apply Out.next

theorem State.closeFrame_held {t : Nat} {q : Nat} (hk : Held c₀ n₀ s) : Held c₀ n₀ (State.closeFrame s t q) := by
  unfold State.closeFrame
  repeat' first
    | with_reducible assumption
    | with_reducible apply State.modTeam_held

theorem Env.submit_held {e : Env} {f : Fields} {q : Nat} {ws : List Word} (hk : Held c₀ n₀ s) :
    Effect.Held c₀ n₀ (Env.submit e s f q ws) := by
  unfold Env.submit
  repeat' first
    | with_reducible assumption
    | with_reducible apply State.modTeam_held
    | with_reducible apply State.modQueue_held
    | with_reducible apply Env.release_held
    | with_reducible apply State.release_held
    | with_reducible apply State.launchCmd_held
    | with_reducible apply State.runGraph_held
    | with_reducible refine State.acceptGraph_held ?_ ‹_›
    | with_reducible apply State.closeFrame_held
    | with_reducible refine Held.cells ?_
    | (refine Held.of_cells ?_; dsimp only)
    | with_reducible intro _
    | split
    | with_reducible apply Effect.Held.done
    | with_reducible apply Effect.Held.trap
    | with_reducible apply Effect.Held.hold

theorem Env.push_held {e : Env} {f : Fields} {v : Word} (hk : Held c₀ n₀ s) : Effect.Held c₀ n₀ (Env.push e s f v) := by
  unfold Env.push
  repeat' first
    | with_reducible assumption
    | with_reducible apply State.modTeam_held
    | with_reducible apply State.modQueue_held
    | with_reducible apply Env.submit_held
    | with_reducible refine Held.cells ?_
    | with_reducible intro _
    | split
    | with_reducible apply Effect.Held.done
    | with_reducible apply Effect.Held.trap
    | with_reducible apply Effect.Held.wait
    | exact True.intro
    | dsimp only

theorem execMovToQueue_held {f : Fields} (hk : Held c₀ n₀ s) : Out c₀ n₀ (execMovToQueue f s) := by
  unfold execMovToQueue
  repeat' first
    | with_reducible assumption
    | with_reducible apply issueWith_held
    | with_reducible apply Env.push_held
    | with_reducible intro _

theorem execMoviToQueue_held {f : Fields} (hk : Held c₀ n₀ s) : Out c₀ n₀ (execMoviToQueue f s) := by
  unfold execMoviToQueue
  repeat' first
    | with_reducible assumption
    | with_reducible apply issueWith_held
    | with_reducible apply Env.push_held
    | with_reducible intro _

theorem execMovFromQueue_held {f : Fields} (hk : Held c₀ n₀ s) : Out c₀ n₀ (execMovFromQueue f s) := by
  unfold execMovFromQueue
  repeat' first
    | with_reducible assumption
    | with_reducible apply State.modTeam_held
    | with_reducible apply Env.acquire_held
    | with_reducible apply State.retire_held
    | with_reducible apply issueWith_held
    | with_reducible apply State.modCmd_held
    | with_reducible refine Held.cells ?_
    | with_reducible intro _
    | split
    | with_reducible apply Out.next
    | with_reducible apply Effect.Held.trap
    | with_reducible apply Effect.Held.wait
    | with_reducible apply Effect.Held.placed
    | exact True.intro
    | dsimp only

theorem execCommandCompletion_held {t : Nat} {c : Nat} (hk : Held c₀ n₀ s) : Out c₀ n₀ (execCommandCompletion t c s) := by
  unfold execCommandCompletion
  repeat' first
    | with_reducible assumption
    | with_reducible apply State.completeCmd_held
    | with_reducible refine Held.cells ?_
    | split
    | with_reducible apply Out.next

/-! ### Copies -/

theorem State.engineAt_held {w : Who} {va : Nat} {k : Access} (hk : Held c₀ n₀ s) :
    Eng.Held c₀ n₀ (State.engineAt s w va k) := by
  unfold State.engineAt
  repeat' first
    | with_reducible assumption
    | with_reducible apply State.translate_held
    | with_reducible apply placementEvent_held
    | with_reducible apply Env.translate_held
    | with_reducible refine Xlate.Held.of_ok ?_ ‹_›
    | with_reducible refine Xlate.Held.of_fault ?_ ‹_›
    | with_reducible refine Xlate.Held.of_pool ?_ ‹_›
    | with_reducible refine Xlate.Held.of_asked ?_ ‹_›
    | with_reducible refine Held.cells ?_
    | with_reducible apply Cells.write
    | with_reducible apply Cells.clear
    | with_reducible apply Cells.copy
    | with_reducible apply Cells.restore
    | with_reducible apply Cells.putBack
    | with_reducible apply Cells.set
    | with_reducible apply Cells.filter
    | (with_reducible refine AnsP.map ?_ (fun _ _ => ?_))
    | (with_reducible refine AnsS.bind ?_ (fun _ _ => ?_))
    | (with_reducible refine AnsP.bind ?_ (fun _ _ => ?_))
    | (with_reducible refine AnsS.map ?_ (fun _ _ => ?_))
    | (with_reducible refine AnsN.then ?_ (fun _ => ?_))
    | (with_reducible apply AnsN.map)
    | (with_reducible refine AnsN.bind ?_ (fun _ => ?_))
    | exact AnsN.pure
    | (with_reducible refine Eng.bind_held ?_ (fun _ _ _ => ?_))
    | (with_reducible refine Cells.fold ?_ (fun _ _ _ => ?_) _)
    | (with_reducible refine foldl_held (fun _ _ _ => ?_) _ ?_)
    | with_reducible intro _
    | split
    | with_reducible apply Eng.Held.ok
    | with_reducible apply Eng.Held.fault
    | with_reducible apply Eng.Held.stay
    | with_reducible apply Eng.Held.bad
    | exact True.intro
    | dsimp only

theorem State.siteRead_held {x : Site} {n : Nat} (hk : Held c₀ n₀ s) : Eng.Held c₀ n₀ (State.siteRead s x n) := by
  unfold State.siteRead
  repeat' first
    | with_reducible assumption
    | with_reducible apply State.conflictRange_held
    | with_reducible refine Held.cells ?_
    | split
    | with_reducible apply Eng.Held.ok
    | with_reducible apply Eng.Held.fault
    | with_reducible apply Eng.Held.bad

theorem State.siteWrite_held {w : Who} {x : Site} {bs : List Byte} (hk : Held c₀ n₀ s) :
    Held c₀ n₀ (State.siteWrite s w x bs) := by
  unfold State.siteWrite
  repeat' first
    | with_reducible assumption
    | with_reducible apply State.conflictRange_held
    | with_reducible refine State.capture_held ?_ ‹_›
    | with_reducible refine State.capture_held ?_ rfl
    | with_reducible apply State.poke_held
    | with_reducible refine Held.cells ?_
    | with_reducible apply Cells.write
    | with_reducible apply Cells.clear
    | with_reducible apply Cells.copy
    | with_reducible apply Cells.restore
    | with_reducible apply Cells.putBack
    | with_reducible apply Cells.set
    | with_reducible apply Cells.filter
    | (with_reducible refine AnsP.map ?_ (fun _ _ => ?_))
    | (with_reducible refine AnsS.bind ?_ (fun _ _ => ?_))
    | (with_reducible refine AnsP.bind ?_ (fun _ _ => ?_))
    | (with_reducible refine AnsS.map ?_ (fun _ _ => ?_))
    | (with_reducible refine AnsN.then ?_ (fun _ => ?_))
    | (with_reducible apply AnsN.map)
    | (with_reducible refine AnsN.bind ?_ (fun _ => ?_))
    | exact AnsN.pure
    | (with_reducible refine Eng.bind_held ?_ (fun _ _ _ => ?_))
    | (with_reducible refine Cells.fold ?_ (fun _ _ _ => ?_) _)
    | (with_reducible refine foldl_held (fun _ _ _ => ?_) _ ?_)
    | (refine Held.of_cells ?_; dsimp only)
    | with_reducible intro _
    | split

theorem State.readVa_held {w : Who} {fuel va k : Nat} (hk : Held c₀ n₀ s) : (s.readVa w fuel va k).Held c₀ n₀ := by
  induction fuel generalizing s va k with
  | zero => exact hk
  | succ fuel ih =>
    unfold State.readVa
    split
    · exact hk
    · exact Eng.bind_held (State.engineAt_held hk) fun s x h => Eng.bind_held (State.siteRead_held h) fun s bs h =>
        Eng.bind_held (ih h) fun s r h => h

theorem State.writeVa_held {w : Who} {fuel va : Nat} {bs : List Byte} (hk : Held c₀ n₀ s) :
    (s.writeVa w fuel va bs).Held c₀ n₀ := by
  induction fuel generalizing s va bs with
  | zero => exact hk
  | succ fuel ih =>
    unfold State.writeVa
    split
    · exact hk
    · exact Eng.bind_held (State.engineAt_held hk) fun s x h => ih (State.siteWrite_held h)

theorem State.eRead_held {w : Who} {va : Nat} {n : Nat} (hk : Held c₀ n₀ s) : Eng.Held c₀ n₀ (State.eRead s w va n) := by
  unfold State.eRead
  repeat' first
    | with_reducible assumption
    | with_reducible apply State.readVa_held

theorem State.eWrite_held {w : Who} {va : Nat} {bs : List Byte} (hk : Held c₀ n₀ s) :
    Eng.Held c₀ n₀ (State.eWrite s w va bs) := by
  unfold State.eWrite
  repeat' first
    | with_reducible assumption
    | with_reducible apply State.writeVa_held

theorem State.applyCmd_held {t : Nat} {c : Nat} {status : Nat} {cause : Nat} {count : Nat} (hk : Held c₀ n₀ s) :
    Held c₀ n₀ (State.applyCmd s t c status cause count) := by
  unfold State.applyCmd
  repeat' first
    | with_reducible assumption
    | with_reducible apply State.count_held
    | with_reducible apply State.modCmd_held

theorem State.stallCmd_held {t : Nat} {c : Nat} {die : Nat} {kind : Nat} {va : Nat} {count : Nat} {fault : State → Nat → State}
    (hk : Held c₀ n₀ s) (h_fault : ∀ (a0 : State) (a1 : Nat), Held c₀ n₀ a0 → Held c₀ n₀ (fault a0 a1)) :
    Held c₀ n₀ (State.stallCmd s t c die kind va count fault) := by
  unfold State.stallCmd
  repeat' first
    | with_reducible assumption
    | with_reducible apply h_fault
    | with_reducible apply State.count_held
    | with_reducible apply State.modCmd_held
    | with_reducible refine Eng.Held.of_ok ?_ ‹_›
    | with_reducible refine Eng.Held.of_fault ?_ ‹_›
    | with_reducible refine Eng.Held.of_stay ?_ ‹_›
    | with_reducible refine Eng.Held.of_bad ?_ ‹_›
    | with_reducible refine Held.cells ?_
    | (with_reducible refine Eng.bind_held ?_ (fun _ _ _ => ?_))
    | (refine Held.of_cells ?_; dsimp only)
    | with_reducible intro _
    | split

theorem State.settleCmd_held {s₀ : State} {t c die count : Nat} {r : Eng Unit} {fault : State → Nat → State} (hr : r.Held c₀ n₀)
    (hf : ∀ s k, Held c₀ n₀ s → Held c₀ n₀ (fault s k)) : Held c₀ n₀ (s₀.settleCmd t c die count r fault) := by
  cases r with
  | ok s x => exact hr
  | fault s k => exact hf _ _ hr
  | stay s k => exact State.stallCmd_held hr hf
  | bad s p => exact State.badWord_held hr

theorem State.epAt_held {w : Who} {tm : Team} {x : Cmd} {i : Nat} {d : Int} {k : Access} (hk : Held c₀ n₀ s) :
    Eng.Held c₀ n₀ (State.epAt s w tm x i d k) := by
  unfold State.epAt
  repeat' first
    | with_reducible assumption
    | with_reducible apply State.engineAt_held
    | with_reducible refine Eng.Held.of_ok ?_ ‹_›
    | with_reducible refine Eng.Held.of_fault ?_ ‹_›
    | with_reducible refine Eng.Held.of_stay ?_ ‹_›
    | with_reducible refine Eng.Held.of_bad ?_ ‹_›
    | with_reducible refine Held.cells ?_
    | (with_reducible refine Eng.bind_held ?_ (fun _ _ _ => ?_))
    | with_reducible intro _
    | split
    | with_reducible apply Eng.Held.ok
    | with_reducible apply Eng.Held.fault

theorem State.copyGo_held {w : Who} {t : Nat} {x : Cmd} {fuel k i : Nat} (hk : Held c₀ n₀ s) :
    (s.copyGo w t x fuel k i).2.Held c₀ n₀ := by
  induction fuel generalizing s k i with
  | zero => exact hk
  | succ fuel ih =>
    have h1 := Eng.bind_held (State.epAt_held (w := w) (tm := s.team t) (x := x) (i := 2) (d := (copyOffsets x i).1) (k := .read) hk)
      (f := fun s a => (s.epAt w (s.team t) x 4 (copyOffsets x i).2.1 .write).bind fun s b =>
        let k := min (min k (copyOffsets x i).2.2) (min a.2 b.2)
        (s.siteRead a.1 k).bind fun s bs => .ok (s.siteWrite w b.1 bs) k)
      fun s a h => Eng.bind_held (State.epAt_held h) fun s b h => Eng.bind_held (State.siteRead_held h) fun s bs h =>
        State.siteWrite_held h
    unfold State.copyGo
    split
    · exact hk
    · dsimp only at h1 ⊢
      split
      · exact ih (Eng.Held.of_ok h1 ‹_›)
      · exact Eng.Held.of_fault h1 ‹_›
      · exact Eng.Held.of_stay h1 ‹_›
      · exact Eng.Held.of_bad h1 ‹_›

theorem copyHappening_held {opc : Nat} {t : Nat} {c : Nat} {n : Nat} (hk : Held c₀ n₀ s) :
    Held c₀ n₀ (copyHappening opc t c n s) := by
  unfold copyHappening
  repeat' first
    | with_reducible assumption
    | with_reducible apply State.modCmd_held
    | with_reducible apply State.applyCmd_held
    | with_reducible apply State.settleCmd_held
    | with_reducible apply State.copyGo_held
    | with_reducible refine Eng.Held.of_ok ?_ ‹_›
    | with_reducible refine Eng.Held.of_fault ?_ ‹_›
    | with_reducible refine Eng.Held.of_stay ?_ ‹_›
    | with_reducible refine Eng.Held.of_bad ?_ ‹_›
    | with_reducible refine Held.cells ?_
    | (refine Held.of_cells ?_; dsimp only)
    | with_reducible intro _
    | split

theorem execCopy_held {t : Nat} {c : Nat} {n : Nat} (hk : Held c₀ n₀ s) : Out c₀ n₀ (execCopy t c n s) := by
  unfold execCopy
  repeat' first
    | with_reducible assumption
    | with_reducible apply copyHappening_held
    | split
    | with_reducible apply Out.next

theorem execCopynd_held {t : Nat} {c : Nat} {n : Nat} (hk : Held c₀ n₀ s) : Out c₀ n₀ (execCopynd t c n s) := by
  unfold execCopynd
  repeat' first
    | with_reducible assumption
    | with_reducible apply copyHappening_held
    | split
    | with_reducible apply Out.next

theorem State.redSend_held {w : Who} {t : Nat} {x : Cmd} {i : Nat} (hk : Held c₀ n₀ s) :
    Eng.Held c₀ n₀ (State.redSend s w t x i) := by
  unfold State.redSend
  repeat' first
    | with_reducible assumption
    | with_reducible apply State.modCmd_held
    | with_reducible apply State.siteRead_held
    | with_reducible apply State.epAt_held
    | with_reducible refine Eng.Held.of_ok ?_ ‹_›
    | with_reducible refine Eng.Held.of_fault ?_ ‹_›
    | with_reducible refine Eng.Held.of_stay ?_ ‹_›
    | with_reducible refine Eng.Held.of_bad ?_ ‹_›
    | with_reducible refine Held.cells ?_
    | (with_reducible refine Eng.bind_held ?_ (fun _ _ _ => ?_))
    | with_reducible intro _
    | split
    | with_reducible apply Eng.Held.ok

theorem State.redGo_held {w : Who} {t : Nat} {c : Nat} {n : Nat} (hk : Held c₀ n₀ s) :
    Eng.Held c₀ n₀ (State.redGo s w t c n) := by
  induction n generalizing s w t c with
  | zero =>
    unfold State.redGo
    repeat' first
      | with_reducible assumption
      | with_reducible apply ih
      | with_reducible apply State.count_held
      | with_reducible apply State.modCmd_held
      | with_reducible apply State.redSend_held
      | with_reducible refine Eng.Held.of_ok ?_ ‹_›
      | with_reducible refine Eng.Held.of_fault ?_ ‹_›
      | with_reducible refine Eng.Held.of_stay ?_ ‹_›
      | with_reducible refine Eng.Held.of_bad ?_ ‹_›
      | with_reducible refine Held.cells ?_
      | (with_reducible refine Eng.bind_held ?_ (fun _ _ _ => ?_))
      | with_reducible intro _
      | split
      | with_reducible apply Eng.Held.ok
  | succ n ih =>
    unfold State.redGo
    repeat' first
      | with_reducible assumption
      | with_reducible apply ih
      | with_reducible apply State.count_held
      | with_reducible apply State.modCmd_held
      | with_reducible apply State.redSend_held
      | with_reducible refine Eng.Held.of_ok ?_ ‹_›
      | with_reducible refine Eng.Held.of_fault ?_ ‹_›
      | with_reducible refine Eng.Held.of_stay ?_ ‹_›
      | with_reducible refine Eng.Held.of_bad ?_ ‹_›
      | with_reducible refine Held.cells ?_
      | (with_reducible refine Eng.bind_held ?_ (fun _ _ _ => ?_))
      | with_reducible intro _
      | split
      | with_reducible apply Eng.Held.ok

theorem State.redCheck_held {t : Nat} {c : Nat} (hk : Held c₀ n₀ s) : Held c₀ n₀ (State.redCheck s t c) := by
  unfold State.redCheck
  repeat' first
    | with_reducible assumption
    | with_reducible apply State.applyCmd_held
    | with_reducible refine Held.cells ?_
    | split

theorem execRedcopy_held {t : Nat} {c : Nat} {n : Nat} (hk : Held c₀ n₀ s) : Out c₀ n₀ (execRedcopy t c n s) := by
  unfold execRedcopy
  repeat' first
    | with_reducible assumption
    | with_reducible apply State.modCmd_held
    | with_reducible apply State.settleCmd_held
    | with_reducible apply State.redGo_held
    | with_reducible apply State.redCheck_held
    | with_reducible refine Eng.Held.of_ok ?_ ‹_›
    | with_reducible refine Eng.Held.of_fault ?_ ‹_›
    | with_reducible refine Eng.Held.of_stay ?_ ‹_›
    | with_reducible refine Eng.Held.of_bad ?_ ‹_›
    | with_reducible refine Held.cells ?_
    | with_reducible intro _
    | split
    | with_reducible apply Denied.Held.state
    | with_reducible apply Out.next

theorem State.redApply_held {w : Who} {t : Nat} {c : Nat} {x : Cmd} {y : Sent} (hk : Held c₀ n₀ s) :
    Held c₀ n₀ (State.redApply s w t c x y) := by
  unfold State.redApply
  repeat' first
    | with_reducible assumption
    | with_reducible apply State.badWord_held
    | with_reducible apply State.exactRoom_held
    | with_reducible apply State.exactAdd_held
    | with_reducible apply State.modCmd_held
    | with_reducible apply State.siteWrite_held
    | with_reducible refine Denied.Held.of_fault ?_ ‹_›
    | with_reducible refine Denied.Held.of_wait ?_ ‹_›
    | with_reducible refine AnsS.of_ok ?_ ‹_›
    | with_reducible refine AnsS.of_error ?_ ‹_›
    | with_reducible refine AnsS.of_fault ?_ ‹_›
    | with_reducible refine AnsS.of_wait ?_ ‹_›
    | with_reducible refine Held.cells ?_
    | with_reducible apply Cells.filter
    | (with_reducible refine AnsP.map ?_ (fun _ _ => ?_))
    | (with_reducible refine AnsS.map ?_ (fun _ _ => ?_))
    | (with_reducible apply AnsN.map)
    | (refine Held.of_cells ?_; dsimp only)
    | with_reducible intro _
    | split

theorem State.redFill_held {w : Who} {t : Nat} {c : Nat} {slice : Nat} {fuel : Nat} (hk : Held c₀ n₀ s) :
    Held c₀ n₀ (State.redFill s w t c slice fuel) := by
  induction fuel generalizing s w t c slice with
  | zero =>
    unfold State.redFill
    repeat' first
      | with_reducible assumption
  | succ fuel ih =>
    unfold State.redFill
    repeat' first
      | with_reducible assumption
      | with_reducible apply ih
      | with_reducible apply State.redApply_held
      | with_reducible refine Held.cells ?_
      | (refine Held.of_cells ?_; dsimp only)
      | with_reducible intro _
      | split

theorem execRedcopyElement_held {t : Nat} {c : Nat} {slice : Nat} {seq : Nat} {elem : Nat} (hk : Held c₀ n₀ s) :
    Out c₀ n₀ (execRedcopyElement t c slice seq elem s) := by
  unfold execRedcopyElement
  repeat' first
    | with_reducible assumption
    | with_reducible apply State.modCmd_held
    | with_reducible apply State.redCheck_held
    | with_reducible apply State.redApply_held
    | with_reducible apply State.redFill_held
    | with_reducible refine Held.cells ?_
    | with_reducible intro _
    | split
    | with_reducible apply Out.next

theorem execPfl2_held {t : Nat} {c : Nat} (hk : Held c₀ n₀ s) : Out c₀ n₀ (execPfl2 t c s) := by
  unfold execPfl2
  repeat' first
    | with_reducible assumption
    | with_reducible apply State.applyCmd_held
    | with_reducible refine Held.cells ?_
    | split
    | with_reducible apply Out.next

/-! ### Spatial -/

theorem State.refuseCmd_held {t : Nat} {c : Nat} (hk : Held c₀ n₀ s) : Held c₀ n₀ (State.refuseCmd s t c) := by
  unfold State.refuseCmd
  repeat' first
    | with_reducible assumption
    | with_reducible apply State.teamCheck_held
    | with_reducible apply State.endCmd_held
    | with_reducible apply State.runGraph_held

theorem State.stallFar_held {t : Nat} {x : Cmd} (hk : Held c₀ n₀ s) : Held c₀ n₀ (State.stallFar s t x) := by
  unfold State.stallFar
  repeat' first
    | with_reducible assumption
    | with_reducible apply State.applyCmd_held
    | with_reducible apply State.stallCmd_held
    | with_reducible intro _

theorem execCommandTakeUp_held {t : Nat} {c : Nat} (hk : Held c₀ n₀ s) : Out c₀ n₀ (execCommandTakeUp t c s) := by
  unfold execCommandTakeUp
  repeat' first
    | with_reducible assumption
    | with_reducible apply State.modCmd_held
    | with_reducible apply State.runGraph_held
    | with_reducible apply State.refuseCmd_held
    | with_reducible apply State.stallFar_held
    | with_reducible refine Held.cells ?_
    | (refine Held.of_cells ?_; dsimp only)
    | with_reducible intro _
    | split
    | with_reducible apply Out.next

theorem eMap_held {α β : Type} {f : State → α → Eng β} {l : List α} (hf : ∀ s a, Held c₀ n₀ s → (f s a).Held c₀ n₀)
    (hk : Held c₀ n₀ s) : (eMap f l s).Held c₀ n₀ := by
  induction l generalizing s with
  | nil => exact hk
  | cons a l ih => exact Eng.bind_held (hf s a hk) fun s b h => Eng.bind_held (ih h) fun s r h => h

theorem State.openCause_held (hk : Held c₀ n₀ s) {r_ : State × Nat} (eq₀ : (State.openCause s) = r_) : Held c₀ n₀ r_.1 := by
  subst eq₀
  unfold State.openCause
  repeat' first
    | with_reducible assumption
    | with_reducible refine Held.cells ?_
    | (refine Held.of_cells ?_; dsimp only)

theorem State.needDram_held {w : Who} {k : Access} {fuel : Nat} {va : Nat} {n : Nat} (hk : Held c₀ n₀ s) :
    Eng.Held c₀ n₀ (State.needDram s w k fuel va n) := by
  induction fuel generalizing s w k va n with
  | zero =>
    unfold State.needDram
    repeat' first
      | with_reducible assumption
      | with_reducible apply ih
      | with_reducible apply State.engineAt_held
      | with_reducible refine State.openCause_held ?_ ‹_›
      | with_reducible refine State.openCause_held ?_ rfl
      | with_reducible refine Eng.Held.of_ok ?_ ‹_›
      | with_reducible refine Eng.Held.of_fault ?_ ‹_›
      | with_reducible refine Eng.Held.of_stay ?_ ‹_›
      | with_reducible refine Eng.Held.of_bad ?_ ‹_›
      | (with_reducible refine Eng.bind_held ?_ (fun _ _ _ => ?_))
      | with_reducible intro _
      | split
      | with_reducible apply Eng.Held.ok
  | succ fuel ih =>
    unfold State.needDram
    repeat' first
      | with_reducible assumption
      | with_reducible apply ih
      | with_reducible apply State.engineAt_held
      | with_reducible refine State.openCause_held ?_ ‹_›
      | with_reducible refine State.openCause_held ?_ rfl
      | with_reducible refine Eng.Held.of_ok ?_ ‹_›
      | with_reducible refine Eng.Held.of_fault ?_ ‹_›
      | with_reducible refine Eng.Held.of_stay ?_ ‹_›
      | with_reducible refine Eng.Held.of_bad ?_ ‹_›
      | (with_reducible refine Eng.bind_held ?_ (fun _ _ _ => ?_))
      | with_reducible intro _
      | split
      | with_reducible apply Eng.Held.ok
      | with_reducible apply Eng.Held.fault

theorem State.uncache_held {e : Nat} {w : Who} {va : Nat} {n : Nat} (hk : Held c₀ n₀ s) :
    Held c₀ n₀ (State.uncache s e w va n) := by
  unfold State.uncache
  repeat' first
    | with_reducible assumption
    | with_reducible refine Held.cells ?_
    | (refine Held.of_cells ?_; dsimp only)

theorem State.areaRead_held {e : Nat} {w : Who} {fuel : Nat} {va : Nat} {n : Nat} (hk : Held c₀ n₀ s) :
    Eng.Held c₀ n₀ (State.areaRead s e w fuel va n) := by
  induction fuel generalizing s e w va n with
  | zero =>
    unfold State.areaRead
    repeat' first
      | with_reducible assumption
      | with_reducible apply ih
      | with_reducible apply State.eRead_held
      | with_reducible apply State.needDram_held
      | with_reducible refine Eng.Held.of_ok ?_ ‹_›
      | with_reducible refine Eng.Held.of_fault ?_ ‹_›
      | with_reducible refine Eng.Held.of_stay ?_ ‹_›
      | with_reducible refine Eng.Held.of_bad ?_ ‹_›
      | with_reducible refine Held.cells ?_
      | (with_reducible refine Eng.bind_held ?_ (fun _ _ _ => ?_))
      | with_reducible intro _
      | split
      | with_reducible apply Eng.Held.ok
  | succ fuel ih =>
    unfold State.areaRead
    repeat' first
      | with_reducible assumption
      | with_reducible apply ih
      | with_reducible apply State.eRead_held
      | with_reducible apply State.needDram_held
      | with_reducible refine Eng.Held.of_ok ?_ ‹_›
      | with_reducible refine Eng.Held.of_fault ?_ ‹_›
      | with_reducible refine Eng.Held.of_stay ?_ ‹_›
      | with_reducible refine Eng.Held.of_bad ?_ ‹_›
      | with_reducible refine Held.cells ?_
      | (with_reducible refine Eng.bind_held ?_ (fun _ _ _ => ?_))
      | (refine Held.of_cells ?_; dsimp only)
      | with_reducible intro _
      | split
      | with_reducible apply Eng.Held.ok

theorem State.areaWrite_held {e : Nat} {w : Who} {va : Nat} {bs : List Byte} (hk : Held c₀ n₀ s) :
    Eng.Held c₀ n₀ (State.areaWrite s e w va bs) := by
  unfold State.areaWrite
  repeat' first
    | with_reducible assumption
    | with_reducible apply State.eWrite_held
    | with_reducible apply State.needDram_held
    | with_reducible apply State.uncache_held
    | with_reducible refine Eng.Held.of_ok ?_ ‹_›
    | with_reducible refine Eng.Held.of_fault ?_ ‹_›
    | with_reducible refine Eng.Held.of_stay ?_ ‹_›
    | with_reducible refine Eng.Held.of_bad ?_ ‹_›
    | (with_reducible refine Eng.bind_held ?_ (fun _ _ _ => ?_))

theorem State.readHead_held {w : Who} {base : Nat} (hk : Held c₀ n₀ s) : Eng.Held c₀ n₀ (State.readHead s w base) := by
  unfold State.readHead
  repeat' first
    | with_reducible assumption
    | with_reducible apply State.eRead_held
    | with_reducible apply State.needDram_held
    | with_reducible refine Eng.Held.of_ok ?_ ‹_›
    | with_reducible refine Eng.Held.of_fault ?_ ‹_›
    | with_reducible refine Eng.Held.of_stay ?_ ‹_›
    | with_reducible refine Eng.Held.of_bad ?_ ‹_›
    | (with_reducible refine Eng.bind_held ?_ (fun _ _ _ => ?_))
    | with_reducible intro _
    | split
    | with_reducible apply Eng.Held.ok

theorem State.readKeys_held {w : Who} {e : Nat} {base : Nat} {h : TableHead} (hk : Held c₀ n₀ s) :
    Eng.Held c₀ n₀ (State.readKeys s w e base h) := by
  unfold State.readKeys
  repeat' first
    | with_reducible assumption
    | with_reducible apply State.areaRead_held
    | with_reducible refine Eng.Held.of_ok ?_ ‹_›
    | with_reducible refine Eng.Held.of_fault ?_ ‹_›
    | with_reducible refine Eng.Held.of_stay ?_ ‹_›
    | with_reducible refine Eng.Held.of_bad ?_ ‹_›
    | (with_reducible refine Eng.bind_held ?_ (fun _ _ _ => ?_))
    | with_reducible intro _
    | split
    | with_reducible apply Eng.Held.ok

theorem State.newSet_held {e : Nat} (hk : Held c₀ n₀ s) {r_ : State × Nat} (eq₀ : (State.newSet s e) = r_) :
    Held c₀ n₀ r_.1 := by
  subst eq₀
  unfold State.newSet
  repeat' first
    | with_reducible assumption
    | with_reducible refine Held.cells ?_
    | (refine Held.of_cells ?_; dsimp only)

theorem State.resetTable_held {w : Who} {t : Nat} {x : Cmd} {base : Nat} {keep : Bool} {policy : Nat} (hk : Held c₀ n₀ s) :
    Eng.Held c₀ n₀ (State.resetTable s w t x base keep policy) := by
  unfold State.resetTable
  repeat' first
    | with_reducible assumption
    | with_reducible apply State.modCmd_held
    | with_reducible apply State.eWrite_held
    | with_reducible apply State.uncache_held
    | with_reducible refine State.newSet_held ?_ ‹_›
    | with_reducible refine State.newSet_held ?_ rfl
    | with_reducible refine Eng.Held.of_ok ?_ ‹_›
    | with_reducible refine Eng.Held.of_fault ?_ ‹_›
    | with_reducible refine Eng.Held.of_stay ?_ ‹_›
    | with_reducible refine Eng.Held.of_bad ?_ ‹_›
    | with_reducible refine Held.cells ?_
    | (with_reducible refine Eng.bind_held ?_ (fun _ _ _ => ?_))
    | with_reducible intro _
    | split
    | with_reducible apply Eng.Held.ok

theorem State.openTable_held {w : Who} {t : Nat} {x : Cmd} {reset : Bool} {keep : Bool} {policy : Nat} (hk : Held c₀ n₀ s) :
    Eng.Held c₀ n₀ (State.openTable s w t x reset keep policy) := by
  unfold State.openTable
  repeat' first
    | with_reducible assumption
    | with_reducible apply State.modCmd_held
    | with_reducible apply State.eWrite_held
    | with_reducible apply State.readHead_held
    | with_reducible refine State.newSet_held ?_ ‹_›
    | with_reducible refine State.newSet_held ?_ rfl
    | with_reducible apply State.resetTable_held
    | with_reducible refine Eng.Held.of_ok ?_ ‹_›
    | with_reducible refine Eng.Held.of_fault ?_ ‹_›
    | with_reducible refine Eng.Held.of_stay ?_ ‹_›
    | with_reducible refine Eng.Held.of_bad ?_ ‹_›
    | with_reducible refine Held.cells ?_
    | (with_reducible refine Eng.bind_held ?_ (fun _ _ _ => ?_))
    | with_reducible intro _
    | split
    | with_reducible apply Eng.Held.ok

theorem coordinate_held {opc : Nat} {t : Nat} {c : Nat} {f : State → Who → Cmd → Eng (Nat × Nat)} (hk : Held c₀ n₀ s) (h_f : ∀
    (a0 : State) (a1 : Who) (a2 : Cmd), Held c₀ n₀ a0 → Eng.Held c₀ n₀ (f a0 a1 a2)) : Held c₀ n₀ (coordinate opc t c s f) := by
  unfold coordinate
  repeat' first
    | with_reducible assumption
    | with_reducible apply h_f
    | with_reducible apply State.applyCmd_held
    | with_reducible apply State.settleCmd_held
    | with_reducible apply State.refuseCmd_held
    | with_reducible apply State.stallFar_held
    | with_reducible refine Eng.Held.of_ok ?_ ‹_›
    | with_reducible refine Eng.Held.of_fault ?_ ‹_›
    | with_reducible refine Eng.Held.of_stay ?_ ‹_›
    | with_reducible refine Eng.Held.of_bad ?_ ‹_›
    | with_reducible refine Held.cells ?_
    | (with_reducible refine Eng.bind_held ?_ (fun _ _ _ => ?_))
    | (refine Held.of_cells ?_; dsimp only)
    | with_reducible intro _
    | split
    | with_reducible apply Eng.Held.ok

theorem execVoxel_held {t : Nat} {c : Nat} (hk : Held c₀ n₀ s) : Out c₀ n₀ (execVoxel t c s) := by
  unfold execVoxel
  repeat' first
    | with_reducible assumption
    | with_reducible apply State.eRead_held
    | with_reducible apply State.eWrite_held
    | with_reducible apply State.areaWrite_held
    | with_reducible apply State.openTable_held
    | with_reducible apply coordinate_held
    | with_reducible refine Eng.Held.of_ok ?_ ‹_›
    | with_reducible refine Eng.Held.of_fault ?_ ‹_›
    | with_reducible refine Eng.Held.of_stay ?_ ‹_›
    | with_reducible refine Eng.Held.of_bad ?_ ‹_›
    | with_reducible refine Held.cells ?_
    | (with_reducible refine Eng.bind_held ?_ (fun _ _ _ => ?_))
    | (refine Held.of_cells ?_; dsimp only)
    | with_reducible intro _
    | split
    | with_reducible apply Eng.Held.ok

theorem State.keysGo_held {w : Who} {x : Cmd} {ins : Bool} {keep : Bool} {n : Nat} {i : Nat} {keys : List Nat} {dropped : Nat}
    (hk : Held c₀ n₀ s) : Eng.Held c₀ n₀ (State.keysGo s w x ins keep n i keys dropped) := by
  induction n generalizing s w x ins keep i keys dropped with
  | zero =>
    unfold State.keysGo
    repeat' first
      | with_reducible assumption
      | with_reducible apply ih
      | with_reducible apply State.eRead_held
      | with_reducible apply State.eWrite_held
      | with_reducible apply State.areaWrite_held
      | with_reducible refine Eng.Held.of_ok ?_ ‹_›
      | with_reducible refine Eng.Held.of_fault ?_ ‹_›
      | with_reducible refine Eng.Held.of_stay ?_ ‹_›
      | with_reducible refine Eng.Held.of_bad ?_ ‹_›
      | with_reducible refine Held.cells ?_
      | (with_reducible refine Eng.bind_held ?_ (fun _ _ _ => ?_))
      | with_reducible intro _
      | split
      | with_reducible apply Eng.Held.ok
  | succ n ih =>
    unfold State.keysGo
    repeat' first
      | with_reducible assumption
      | with_reducible apply ih
      | with_reducible apply State.eRead_held
      | with_reducible apply State.eWrite_held
      | with_reducible apply State.areaWrite_held
      | with_reducible refine Eng.Held.of_ok ?_ ‹_›
      | with_reducible refine Eng.Held.of_fault ?_ ‹_›
      | with_reducible refine Eng.Held.of_stay ?_ ‹_›
      | with_reducible refine Eng.Held.of_bad ?_ ‹_›
      | with_reducible refine Held.cells ?_
      | (with_reducible refine Eng.bind_held ?_ (fun _ _ _ => ?_))
      | with_reducible intro _
      | split
      | with_reducible apply Eng.Held.ok
      | exact True.intro
      | dsimp only

theorem execHins_held {t : Nat} {c : Nat} (hk : Held c₀ n₀ s) : Out c₀ n₀ (execHins t c s) := by
  unfold execHins
  repeat' first
    | with_reducible assumption
    | with_reducible apply State.eWrite_held
    | with_reducible apply State.readKeys_held
    | with_reducible apply State.openTable_held
    | with_reducible apply coordinate_held
    | with_reducible apply State.keysGo_held
    | with_reducible refine Eng.Held.of_ok ?_ ‹_›
    | with_reducible refine Eng.Held.of_fault ?_ ‹_›
    | with_reducible refine Eng.Held.of_stay ?_ ‹_›
    | with_reducible refine Eng.Held.of_bad ?_ ‹_›
    | with_reducible refine Held.cells ?_
    | (with_reducible refine Eng.bind_held ?_ (fun _ _ _ => ?_))
    | (refine Held.of_cells ?_; dsimp only)
    | with_reducible intro _
    | split
    | with_reducible apply Eng.Held.ok

theorem execHlook_held {t : Nat} {c : Nat} (hk : Held c₀ n₀ s) : Out c₀ n₀ (execHlook t c s) := by
  unfold execHlook
  repeat' first
    | with_reducible assumption
    | with_reducible apply State.readHead_held
    | with_reducible apply State.readKeys_held
    | with_reducible apply coordinate_held
    | with_reducible apply State.keysGo_held
    | with_reducible refine Eng.Held.of_ok ?_ ‹_›
    | with_reducible refine Eng.Held.of_fault ?_ ‹_›
    | with_reducible refine Eng.Held.of_stay ?_ ‹_›
    | with_reducible refine Eng.Held.of_bad ?_ ‹_›
    | (with_reducible refine Eng.bind_held ?_ (fun _ _ _ => ?_))
    | with_reducible intro _
    | split
    | with_reducible apply Eng.Held.ok
    | with_reducible apply Out.next

theorem execRbbuild_held {t : Nat} {c : Nat} (hk : Held c₀ n₀ s) : Out c₀ n₀ (execRbbuild t c s) := by
  unfold execRbbuild
  repeat' first
    | with_reducible assumption
    | with_reducible apply State.eWrite_held
    | with_reducible apply State.readHead_held
    | with_reducible apply State.readKeys_held
    | with_reducible apply coordinate_held
    | with_reducible refine Eng.Held.of_ok ?_ ‹_›
    | with_reducible refine Eng.Held.of_fault ?_ ‹_›
    | with_reducible refine Eng.Held.of_stay ?_ ‹_›
    | with_reducible refine Eng.Held.of_bad ?_ ‹_›
    | (with_reducible refine Eng.bind_held ?_ (fun _ _ _ => ?_))
    | with_reducible intro _
    | split
    | with_reducible apply Eng.Held.ok
    | with_reducible apply Out.next
    | exact True.intro
    | dsimp only

/-! ### Pergola -/

theorem State.convRow_held {w : Who} {fmt : Nat} {n : Nat} {va : Nat} (hk : Held c₀ n₀ s) :
    Eng.Held c₀ n₀ (State.convRow s w fmt n va) := by
  unfold State.convRow
  repeat' first
    | with_reducible assumption
    | with_reducible apply State.eRead_held
    | with_reducible refine Eng.Held.of_ok ?_ ‹_›
    | with_reducible refine Eng.Held.of_fault ?_ ‹_›
    | with_reducible refine Eng.Held.of_stay ?_ ‹_›
    | with_reducible refine Eng.Held.of_bad ?_ ‹_›
    | (with_reducible refine Eng.bind_held ?_ (fun _ _ _ => ?_))
    | with_reducible intro _
    | split
    | with_reducible apply Eng.Held.ok

theorem State.contribute_held {w : Who} {v : Conv} {acc : List Nat} {a : Nat} {m : Nat} (hk : Held c₀ n₀ s) :
    Eng.Held c₀ n₀ (State.contribute s w v acc a m) := by
  unfold State.contribute
  repeat' first
    | with_reducible assumption
    | with_reducible apply eMap_held
    | with_reducible apply State.convRow_held
    | with_reducible refine Eng.Held.of_ok ?_ ‹_›
    | with_reducible refine Eng.Held.of_fault ?_ ‹_›
    | with_reducible refine Eng.Held.of_stay ?_ ‹_›
    | with_reducible refine Eng.Held.of_bad ?_ ‹_›
    | (with_reducible refine Eng.bind_held ?_ (fun _ _ _ => ?_))
    | with_reducible intro _
    | split
    | with_reducible apply Eng.Held.ok

theorem State.contributeAll_held {w : Who} {v : Conv} {l : List (Nat × Nat)} {acc : List Nat} (hk : Held c₀ n₀ s) :
    Eng.Held c₀ n₀ (State.contributeAll s w v l acc) := by
  induction l generalizing s w v acc with
  | nil =>
    unfold State.contributeAll
    repeat' first
      | with_reducible assumption
      | with_reducible apply ih
      | with_reducible apply State.contribute_held
      | with_reducible refine Eng.Held.of_ok ?_ ‹_›
      | with_reducible refine Eng.Held.of_fault ?_ ‹_›
      | with_reducible refine Eng.Held.of_stay ?_ ‹_›
      | with_reducible refine Eng.Held.of_bad ?_ ‹_›
      | (with_reducible refine Eng.bind_held ?_ (fun _ _ _ => ?_))
      | with_reducible intro _
      | split
      | with_reducible apply Eng.Held.ok
  | cons x l ih =>
    unfold State.contributeAll
    repeat' first
      | with_reducible assumption
      | with_reducible apply ih
      | with_reducible apply State.contribute_held
      | with_reducible refine Eng.Held.of_ok ?_ ‹_›
      | with_reducible refine Eng.Held.of_fault ?_ ‹_›
      | with_reducible refine Eng.Held.of_stay ?_ ‹_›
      | with_reducible refine Eng.Held.of_bad ?_ ‹_›
      | (with_reducible refine Eng.bind_held ?_ (fun _ _ _ => ?_))

theorem State.probeVa_held {w : Who} {fuel : Nat} {va : Nat} {n : Nat} (hk : Held c₀ n₀ s) :
    Eng.Held c₀ n₀ (State.probeVa s w fuel va n) := by
  induction fuel generalizing s w va n with
  | zero =>
    unfold State.probeVa
    repeat' first
      | with_reducible assumption
      | with_reducible apply ih
      | with_reducible apply State.engineAt_held
      | with_reducible refine Eng.Held.of_ok ?_ ‹_›
      | with_reducible refine Eng.Held.of_fault ?_ ‹_›
      | with_reducible refine Eng.Held.of_stay ?_ ‹_›
      | with_reducible refine Eng.Held.of_bad ?_ ‹_›
      | (with_reducible refine Eng.bind_held ?_ (fun _ _ _ => ?_))
      | with_reducible intro _
      | split
      | with_reducible apply Eng.Held.ok
  | succ fuel ih =>
    unfold State.probeVa
    repeat' first
      | with_reducible assumption
      | with_reducible apply ih
      | with_reducible apply State.engineAt_held
      | with_reducible refine Eng.Held.of_ok ?_ ‹_›
      | with_reducible refine Eng.Held.of_fault ?_ ‹_›
      | with_reducible refine Eng.Held.of_stay ?_ ‹_›
      | with_reducible refine Eng.Held.of_bad ?_ ‹_›
      | (with_reducible refine Eng.bind_held ?_ (fun _ _ _ => ?_))
      | with_reducible intro _
      | split
      | with_reducible apply Eng.Held.ok

theorem State.convOut_held {w : Who} {v : Conv} {b : Nat} {l : List (Nat × Nat)} (hk : Held c₀ n₀ s) :
    Eng.Held c₀ n₀ (State.convOut s w v b l) := by
  unfold State.convOut
  repeat' first
    | with_reducible assumption
    | with_reducible apply State.eRead_held
    | with_reducible apply State.eWrite_held
    | with_reducible apply State.contributeAll_held
    | with_reducible apply State.probeVa_held
    | with_reducible refine Eng.Held.of_ok ?_ ‹_›
    | with_reducible refine Eng.Held.of_fault ?_ ‹_›
    | with_reducible refine Eng.Held.of_stay ?_ ‹_›
    | with_reducible refine Eng.Held.of_bad ?_ ‹_›
    | (with_reducible refine Eng.bind_held ?_ (fun _ _ _ => ?_))
    | with_reducible intro _
    | split
    | with_reducible apply Eng.Held.ok

theorem State.readRulebook_held {w : Who} {va : Nat} (hk : Held c₀ n₀ s) : Eng.Held c₀ n₀ (State.readRulebook s w va) := by
  unfold State.readRulebook
  repeat' first
    | with_reducible assumption
    | with_reducible apply State.eRead_held
    | with_reducible refine Eng.Held.of_ok ?_ ‹_›
    | with_reducible refine Eng.Held.of_fault ?_ ‹_›
    | with_reducible refine Eng.Held.of_stay ?_ ‹_›
    | with_reducible refine Eng.Held.of_bad ?_ ‹_›
    | (with_reducible refine Eng.bind_held ?_ (fun _ _ _ => ?_))
    | with_reducible intro _
    | split
    | with_reducible apply Eng.Held.ok

theorem State.checkRulebook_held {w : Who} {x : Cmd} (hk : Held c₀ n₀ s) : Eng.Held c₀ n₀ (State.checkRulebook s w x) := by
  unfold State.checkRulebook
  repeat' first
    | with_reducible assumption
    | with_reducible apply State.eRead_held
    | with_reducible apply eMap_held
    | with_reducible apply State.readRulebook_held
    | with_reducible refine Eng.Held.of_ok ?_ ‹_›
    | with_reducible refine Eng.Held.of_fault ?_ ‹_›
    | with_reducible refine Eng.Held.of_stay ?_ ‹_›
    | with_reducible refine Eng.Held.of_bad ?_ ‹_›
    | (with_reducible refine Eng.bind_held ?_ (fun _ _ _ => ?_))
    | with_reducible intro _
    | split
    | with_reducible apply Eng.Held.ok

theorem State.takeRulebook_held {w : Who} {x : Cmd} (hk : Held c₀ n₀ s) : Eng.Held c₀ n₀ (State.takeRulebook s w x) := by
  unfold State.takeRulebook
  repeat' first
    | with_reducible assumption
    | with_reducible apply State.eRead_held
    | with_reducible apply State.checkRulebook_held
    | with_reducible refine Eng.Held.of_ok ?_ ‹_›
    | with_reducible refine Eng.Held.of_fault ?_ ‹_›
    | with_reducible refine Eng.Held.of_stay ?_ ‹_›
    | with_reducible refine Eng.Held.of_bad ?_ ‹_›
    | with_reducible refine Held.cells ?_
    | (with_reducible refine Eng.bind_held ?_ (fun _ _ _ => ?_))
    | with_reducible intro _
    | split
    | with_reducible apply Eng.Held.ok

theorem State.spconvGo_held {w : Who} {t : Nat} {x : Cmd} {r : Rulebook} {k b : Nat} (hk : Held c₀ n₀ s) :
    (s.spconvGo w t x r k b).2.Held c₀ n₀ := by
  induction k generalizing s b with
  | zero => exact hk
  | succ k ih =>
    have h1 := State.convOut_held (w := w) (v := convOf x 4 10) (b := b) (l := rowPairs r b) hk
    unfold State.spconvGo
    split
    · exact hk
    · split
      · exact ih (Eng.Held.of_ok h1 ‹_›)
      · exact h1

theorem State.queueProducts_held {t : Nat} {c : Nat} {x : Cmd} (hk : Held c₀ n₀ s) :
    Held c₀ n₀ (State.queueProducts s t c x) := by
  unfold State.queueProducts
  repeat' first
    | with_reducible assumption
    | with_reducible apply State.modCore_held
    | with_reducible refine Held.cells ?_
    | (refine Held.of_cells ?_; dsimp only)
    | with_reducible intro _
    | split

theorem State.settleRows_held {s₀ : State} {t c die i : Nat} {last : Bool} {r : Eng Unit} (hr : r.Held c₀ n₀) :
    Held c₀ n₀ (s₀.settleRows t c die i last r) := by
  unfold State.settleRows
  split
  · split
    · exact State.applyCmd_held hr
    · exact hr
  · exact State.settleCmd_held hr fun s k h => State.applyCmd_held h

theorem spconvHappening_held {t c k : Nat} (hk : Held c₀ n₀ s) : Held c₀ n₀ (spconvHappening t c k s) := by
  have hu : ∀ {α : Type} {r : Eng α}, r.Held c₀ n₀ → (r.bind fun s _ => Eng.ok s ()).Held c₀ n₀ := fun h =>
    Eng.bind_held h fun s a h => h
  unfold spconvHappening
  split
  · exact hk
  · rename_i x _
    dsimp only
    split
    · have h1 := State.takeRulebook_held (w := s.cmdWho t x (dieOfCore x.core)) (x := x) hk
      split
      · exact State.modCmd_held (Eng.Held.of_ok h1 ‹_›)
      · exact State.applyCmd_held (Eng.Held.of_ok h1 ‹_›)
      · exact State.settleCmd_held (hu h1) fun s k h => State.applyCmd_held h
    · split
      · exact State.queueProducts_held hk
      · exact State.settleRows_held (State.spconvGo_held hk)

theorem execSpconv_held {t : Nat} {c : Nat} {n : Nat} (hk : Held c₀ n₀ s) : Out c₀ n₀ (execSpconv t c n s) := by
  unfold execSpconv
  repeat' first
    | with_reducible assumption
    | with_reducible apply spconvHappening_held
    | split
    | with_reducible apply Out.next

theorem State.gmmsGo_held {w : Who} {x : Cmd} {l : List Triple} {k i : Nat} (hk : Held c₀ n₀ s) :
    (s.gmmsGo w x l k i).2.Held c₀ n₀ := by
  induction k generalizing s i with
  | zero => exact hk
  | succ k ih =>
    unfold State.gmmsGo
    split
    · exact hk
    · split
      · exact hk
      · split
        · exact ih (Eng.Held.of_ok (State.convOut_held hk) ‹_›)
        · exact Eng.bind_held (State.convOut_held hk) fun s a h => h

theorem gmmsHappening_held {t c k : Nat} (hk : Held c₀ n₀ s) : Held c₀ n₀ (gmmsHappening t c k s) := by
  have hu : ∀ {α : Type} {r : Eng α}, r.Held c₀ n₀ → (r.bind fun s _ => Eng.ok s ()).Held c₀ n₀ := fun h =>
    Eng.bind_held h fun s a h => h
  have hp : ∀ {α : Type} {y : Nat × Eng α} {i : Nat} {r : Eng α}, y.2.Held c₀ n₀ → y = (i, r) → r.Held c₀ n₀ := by
    rintro α y i r h rfl; exact h
  unfold gmmsHappening
  split
  · exact hk
  · rename_i x _
    dsimp only
    generalize (if x.issued = true then x.idx else x.word 5) = i
    split
    · exact State.applyCmd_held hk
    split
    · exact State.queueProducts_held hk
    · split
      · rename_i h2
        have h3 := Eng.Held.of_ok (State.eRead_held hk) h2
        split
        · rename_i h4; exact State.settleRows_held (Eng.Held.ok (Eng.Held.of_ok (hp (State.gmmsGo_held (State.modCmd_held h3)) h4) rfl))
        · rename_i h4; exact State.applyCmd_held (Eng.Held.of_ok (hp (State.gmmsGo_held (State.modCmd_held h3)) h4) rfl)
        · rename_i h4; exact State.settleRows_held (hu (hp (State.gmmsGo_held (State.modCmd_held h3)) h4))
      · exact State.settleRows_held (hu (State.eRead_held hk))

theorem execGmms_held {t : Nat} {c : Nat} {n : Nat} (hk : Held c₀ n₀ s) : Out c₀ n₀ (execGmms t c n s) := by
  unfold execGmms
  repeat' first
    | with_reducible assumption
    | with_reducible apply gmmsHappening_held
    | split
    | with_reducible apply Out.next

/-! ### Maze -/

theorem wloadHappening_held {t : Nat} {c : Nat} (hk : Held c₀ n₀ s) : Held c₀ n₀ (wloadHappening t c s) := by
  unfold wloadHappening
  repeat' first
    | with_reducible assumption
    | with_reducible apply State.modCtx_held
    | with_reducible apply State.modCmd_held
    | with_reducible apply State.eRead_held
    | with_reducible apply State.applyCmd_held
    | with_reducible apply State.settleCmd_held
    | with_reducible apply State.needDram_held
    | with_reducible refine Eng.Held.of_ok ?_ ‹_›
    | with_reducible refine Eng.Held.of_fault ?_ ‹_›
    | with_reducible refine Eng.Held.of_stay ?_ ‹_›
    | with_reducible refine Eng.Held.of_bad ?_ ‹_›
    | with_reducible refine Held.cells ?_
    | (with_reducible refine Eng.bind_held ?_ (fun _ _ _ => ?_))
    | (refine Held.of_cells ?_; dsimp only)
    | with_reducible intro _
    | split
    | with_reducible apply Eng.Held.ok

theorem execWload_held {t : Nat} {c : Nat} (hk : Held c₀ n₀ s) : Out c₀ n₀ (execWload t c s) := by
  unfold execWload
  repeat' first
    | with_reducible assumption
    | with_reducible apply wloadHappening_held
    | split
    | with_reducible apply Out.next

theorem execWloadInstall_held {t : Nat} {c : Nat} (hk : Held c₀ n₀ s) : Out c₀ n₀ (execWloadInstall t c s) := by
  unfold execWloadInstall
  repeat' first
    | with_reducible assumption
    | with_reducible apply State.modLaunch_held
    | with_reducible apply State.modCtx_held
    | with_reducible apply State.applyCmd_held
    | with_reducible refine Held.cells ?_
    | with_reducible intro _
    | split
    | with_reducible apply Out.next
    | exact True.intro
    | dsimp only

theorem State.walkAt_held {w : Who} {va : Nat} (hk : Held c₀ n₀ s) : Eng.Held c₀ n₀ (State.walkAt s w va) := by
  unfold State.walkAt
  repeat' first
    | with_reducible assumption
    | with_reducible apply State.engineAt_held
    | with_reducible refine State.openCause_held ?_ ‹_›
    | with_reducible refine State.openCause_held ?_ rfl
    | with_reducible refine Eng.Held.of_ok ?_ ‹_›
    | with_reducible refine Eng.Held.of_fault ?_ ‹_›
    | with_reducible refine Eng.Held.of_stay ?_ ‹_›
    | with_reducible refine Eng.Held.of_bad ?_ ‹_›
    | (with_reducible refine Eng.bind_held ?_ (fun _ _ _ => ?_))
    | with_reducible intro _
    | split
    | with_reducible apply Eng.Held.ok
    | with_reducible apply Eng.Held.fault

theorem State.walkRead_held {w : Who} {va : Nat} {n : Nat} {aligned : Bool} (hk : Held c₀ n₀ s) :
    Eng.Held c₀ n₀ (State.walkRead s w va n aligned) := by
  unfold State.walkRead
  repeat' first
    | with_reducible assumption
    | with_reducible apply State.eRead_held
    | with_reducible apply State.walkAt_held
    | with_reducible refine Eng.Held.of_ok ?_ ‹_›
    | with_reducible refine Eng.Held.of_fault ?_ ‹_›
    | with_reducible refine Eng.Held.of_stay ?_ ‹_›
    | with_reducible refine Eng.Held.of_bad ?_ ‹_›
    | (with_reducible refine Eng.bind_held ?_ (fun _ _ _ => ?_))
    | with_reducible intro _
    | split
    | with_reducible apply Eng.Held.ok
    | with_reducible apply Eng.Held.fault

theorem State.walkEnd_held {t : Nat} {x : Cmd} {wstat : Nat} {cause : Nat} {steps : Nat} {bs : List Byte} (hk : Held c₀ n₀ s) :
    Held c₀ n₀ (State.walkEnd s t x wstat cause steps bs) := by
  unfold State.walkEnd
  repeat' first
    | with_reducible assumption
    | with_reducible apply State.count_held
    | with_reducible apply State.modCmd_held

theorem State.walkFault_held {t : Nat} {x : Cmd} {cause : Nat} {steps : Nat} (hk : Held c₀ n₀ s) :
    Held c₀ n₀ (State.walkFault s t x cause steps) := by
  unfold State.walkFault
  repeat' first
    | with_reducible assumption
    | with_reducible apply State.modCmd_held
    | with_reducible apply State.walkEnd_held
    | with_reducible refine Held.cells ?_
    | with_reducible intro _
    | split

theorem Eng.on_held {k : Walk} (hk : Machine.Held c₀ n₀ s) : (Eng.on s k).Held c₀ n₀ := hk

theorem State.visit_held {w : Who} {k : Walk} {node : Nat} (hk : Held c₀ n₀ s) : (s.visit w k node).Held c₀ n₀ :=
  Eng.bind_held (State.walkAt_held hk) fun _ _ h => Eng.on_held h

theorem State.walkOp_held {w : Who} {x : Cmd} {k : Walk} {i : Word} (hk : Held c₀ n₀ s) : (s.walkOp w x k i).Held c₀ n₀ := by
  unfold State.walkOp
  extract_lets d a b next put flag n load
  have hl : ∀ base, (load base).Held c₀ n₀ := fun base => Eng.bind_held (State.walkRead_held hk) fun _ _ h => Eng.on_held h
  have hp : ∀ v, (put v).Held c₀ n₀ := fun v => Eng.on_held hk
  have hf : ∀ v, (flag v).Held c₀ n₀ := fun v => Eng.on_held hk
  split <;> first | exact hl _ | exact hp _ | exact hf _ | skip
  · exact Eng.on_held hk
  · split
    · exact hk
    · exact State.visit_held hk
  · exact Eng.bind_held (State.walkRead_held hk) fun _ _ h => h
  · exact hk

theorem State.walkGo_held {w : Who} {t : Nat} {x : Cmd} {n : Nat} {k : Walk} (hk : Held c₀ n₀ s) :
    Held c₀ n₀ (State.walkGo s w t x n k) := by
  induction n generalizing s w t x k with
  | zero =>
    unfold State.walkGo
    repeat' first
      | with_reducible assumption
      | with_reducible apply ih
      | with_reducible apply State.modCmd_held
  | succ n ih =>
    unfold State.walkGo
    repeat' first
      | with_reducible assumption
      | with_reducible apply ih
      | with_reducible apply State.modCmd_held
      | with_reducible apply State.settleCmd_held
      | with_reducible apply State.walkEnd_held
      | with_reducible apply State.walkFault_held
      | with_reducible apply Eng.on_held
      | with_reducible apply State.walkOp_held
      | with_reducible refine Eng.Held.of_ok ?_ ‹_›
      | with_reducible refine Eng.Held.of_fault ?_ ‹_›
      | with_reducible refine Eng.Held.of_stay ?_ ‹_›
      | with_reducible refine Eng.Held.of_bad ?_ ‹_›
      | with_reducible refine Held.cells ?_
      | (with_reducible refine Eng.bind_held ?_ (fun _ _ _ => ?_))
      | (refine Held.of_cells ?_; dsimp only)
      | with_reducible intro _
      | split
      | with_reducible apply Eng.Held.ok

theorem State.walkEnter_held {t : Nat} {x : Cmd} {prog : List Word} {m : Nat} (hk : Held c₀ n₀ s) :
    Held c₀ n₀ (s.walkEnter t x prog m) := by
  unfold State.walkEnter
  split
  · exact hk
  · exact State.modCmd_held hk

theorem State.walkRoot_held {s₀ : State} {w : Who} {t : Nat} {x : Cmd} {prog : List Word} {r : Eng Site} (h1 : r.Held c₀ n₀) :
    Held c₀ n₀ (s₀.walkRoot w t x prog r) := by
  unfold State.walkRoot
  split
  · exact State.walkEnter_held h1
  · exact State.settleCmd_held (Eng.bind_held (f := fun s _ => .ok s ()) h1 fun _ _ h => h) fun s k h => State.walkFault_held h

theorem State.walkStart_held {t : Nat} {x : Cmd} (hk : Held c₀ n₀ s) : Held c₀ n₀ (s.walkStart t x) := by
  unfold State.walkStart
  extract_lets w pending
  split
  · exact hk
  · split
    · exact State.walkEnd_held hk
    · exact State.walkRoot_held (State.walkAt_held hk)

theorem execWalk_held {t : Nat} {c : Nat} {n : Nat} (hk : Held c₀ n₀ s) : Out c₀ n₀ (execWalk t c n s) := by
  unfold execWalk
  repeat' first
    | with_reducible assumption
    | with_reducible apply State.walkGo_held
    | with_reducible apply State.walkStart_held
    | with_reducible refine Held.cells ?_
    | split
    | with_reducible apply Out.next

theorem execWalkHandoff_held {t : Nat} {c : Nat} (hk : Held c₀ n₀ s) : Out c₀ n₀ (execWalkHandoff t c s) := by
  unfold execWalkHandoff
  repeat' first
    | with_reducible assumption
    | with_reducible apply State.modCmd_held
    | with_reducible refine Held.cells ?_
    | with_reducible intro _
    | split
    | with_reducible apply Out.next

/-! ### CoreEvents -/

theorem execTrapEntry_held {t : Nat} {g : Nat} (hk : Held c₀ n₀ s) : Out c₀ n₀ (execTrapEntry t g s) := by
  unfold execTrapEntry
  repeat' first
    | with_reducible assumption
    | with_reducible apply State.enterTrap_held
    | with_reducible apply State.secondTrap_held
    | with_reducible refine Held.cells ?_
    | split
    | with_reducible apply Out.next

theorem State.hcmd_held {e : Env} {v : Nat} (hk : Held c₀ n₀ s) : Held c₀ n₀ (State.hcmd s e v) := by
  unfold State.hcmd
  repeat' first
    | with_reducible assumption
    | with_reducible apply State.modFrag_held
    | with_reducible apply State.terminate_held
    | with_reducible apply State.haltLaunch_held
    | with_reducible apply State.resumeFrame_held
    | with_reducible refine Held.cells ?_
    | with_reducible intro _
    | split

theorem execHcmdPoll_held {t g : Nat} (hk : Held c₀ n₀ s) : Out c₀ n₀ (execHcmdPoll t g s) := by
  unfold execHcmdPoll
  split
  · exact hk
  · split
    · exact hk
    · extract_lets e va s'
      have h1 : Held c₀ n₀ s' := State.dropL1_held hk
      clear_value s' va e
      split
      · rename_i h2
        have h3 := AnsP.of_error (State.reachVa_held h1) h2
        refine Out.next ?_
        split
        · exact State.readFault_held h3
        · exact h3
      · rename_i h2; exact AnsP.of_error (State.reachVa_held h1) h2
      · rename_i s₂ p h2
        have h3 : Held c₀ n₀ s₂ := AnsP.of_ok (State.reachVa_held h1) h2
        extract_lets v
        clear_value v
        split
        · exact h3
        · split
          · exact Denied.Held.state (AnsS.of_error (State.deviceWrite_held h3) ‹_›)
          · exact State.hcmd_held (AnsS.of_ok (State.deviceWrite_held h3) ‹_›)

theorem execResultReturn_held {t : Nat} {g : Nat} {i : Nat} (hk : Held c₀ n₀ s) : Out c₀ n₀ (execResultReturn t g i s) := by
  unfold execResultReturn
  repeat' first
    | with_reducible assumption
    | with_reducible apply State.modTeam_held
    | with_reducible apply State.modFrag_held
    | with_reducible refine Held.cells ?_
    | with_reducible intro _
    | split
    | with_reducible apply Out.next

theorem State.gatherBack_held {t g tid : Nat} {f : Fields} {left : List Nat} (hk : Held c₀ n₀ s) :
    Held c₀ n₀ (State.gatherBack s t g tid f left) := by
  have hf : ∀ o : Option State, (∀ r, o = some r → Held c₀ n₀ r) →
      Held c₀ n₀ (match o with
        | some s => s.modTeam t fun tm => tm.shrink g [tid]
        | none => s) := fun o ho => by
    cases o with
    | none => exact hk
    | some r => exact State.modTeam_held (ho r rfl)
  have hm : Held c₀ n₀ (match (if (s.envAt t g).fr.priv || s.isClose ((s.envAt t g).who s) ((s.envAt t g).next f) then none
      else s.fileThread t tid ((s.envAt t g).next f)) with
    | some s => s.modTeam t fun tm => tm.shrink g [tid]
    | none => s) := hf _ fun r hr => by
      split at hr
      · cases hr
      · exact State.fileThread_held hk hr
  refine State.modFrag_held ?_
  split
  · exact State.modWarp_held hm
  · exact hm

theorem execRfGatherReturn_held {t : Nat} {g : Nat} {tid : Nat} (hk : Held c₀ n₀ s) :
    Out c₀ n₀ (execRfGatherReturn t g tid s) := by
  unfold execRfGatherReturn
  repeat' first
    | with_reducible assumption
    | with_reducible apply State.gatherBack_held
    | with_reducible refine Held.cells ?_
    | split
    | with_reducible apply Out.next

theorem execFragmentPark_held {t : Nat} {g : Nat} (hk : Held c₀ n₀ s) : Out c₀ n₀ (execFragmentPark t g s) := by
  unfold execFragmentPark
  repeat' first
    | with_reducible assumption
    | with_reducible apply State.deliverFrag_held
    | with_reducible apply State.parkFrag_held
    | with_reducible apply State.raise_held
    | with_reducible refine Held.cells ?_
    | split
    | with_reducible apply Out.next
    | exact True.intro
    | dsimp only

theorem execBinAgeExpiry_held {core : Nat} {bin : Nat} (hk : Held c₀ n₀ s) : Out c₀ n₀ (execBinAgeExpiry core bin s) := by
  unfold execBinAgeExpiry
  repeat' first
    | with_reducible assumption
    | with_reducible apply State.modCore_held
    | with_reducible refine Held.cells ?_
    | with_reducible intro _
    | split
    | with_reducible apply Out.next

theorem execGroupDraw_held {core : Nat} {bin : Nat} {tids : List Nat} (hk : Held c₀ n₀ s) :
    Out c₀ n₀ (execGroupDraw core bin tids s) := by
  unfold execGroupDraw
  repeat' first
    | with_reducible assumption
    | with_reducible apply State.modCore_held
    | with_reducible apply State.drawGroup_held
    | with_reducible refine Held.cells ?_
    | with_reducible intro _
    | split
    | with_reducible apply Out.next
    | exact True.intro
    | dsimp only

theorem execChildDequeue_held {core : Nat} (hk : Held c₀ n₀ s) : Out c₀ n₀ (execChildDequeue core s) := by
  unfold execChildDequeue
  repeat' first
    | with_reducible assumption
    | with_reducible apply State.modTeam_held
    | with_reducible apply State.modCore_held
    | with_reducible refine State.fileThread_held ?_ ‹_›
    | with_reducible refine Held.cells ?_
    | with_reducible intro _
    | split
    | with_reducible apply Out.next
    | exact True.intro
    | dsimp only

theorem execPageWalk_held {t : Nat} {g : Nat} (hk : Held c₀ n₀ s) : Out c₀ n₀ (execPageWalk t g s) := by
  unfold execPageWalk
  repeat' first
    | with_reducible assumption
    | with_reducible apply State.tlbFill_held
    | with_reducible apply State.badWord_held
    | with_reducible apply State.wake_held
    | with_reducible refine Held.cells ?_
    | split
    | with_reducible apply Out.next
    | exact True.intro
    | dsimp only

theorem execFreePoolTimeout_held {t : Nat} {g : Nat} (hk : Held c₀ n₀ s) : Out c₀ n₀ (execFreePoolTimeout t g s) := by
  unfold execFreePoolTimeout
  repeat' first
    | with_reducible assumption
    | with_reducible apply State.timeOut_held
    | with_reducible refine Held.cells ?_
    | split
    | with_reducible apply Out.next

theorem execRemoteDieTimeout_held {t : Nat} {g : Nat} (hk : Held c₀ n₀ s) : Out c₀ n₀ (execRemoteDieTimeout t g s) := by
  unfold execRemoteDieTimeout
  repeat' first
    | with_reducible assumption
    | with_reducible apply State.terminate_held
    | with_reducible apply State.timeOut_held
    | with_reducible refine Held.cells ?_
    | split
    | with_reducible apply Out.next

theorem State.wakeWhere_held {p : Team → Frag → Bool} {walked : Bool} (hk : Held c₀ n₀ s) :
    Held c₀ n₀ (State.wakeWhere s p walked) := by
  unfold State.wakeWhere
  repeat' first
    | with_reducible assumption
    | with_reducible refine Held.cells ?_
    | (refine Held.of_cells ?_; dsimp only)

theorem State.placementReply_held {pf : Nat} {die : Nat} {num : Nat} {ok : Bool} (hk : Held c₀ n₀ s) :
    Held c₀ n₀ (State.placementReply s pf die num ok) := by
  unfold State.placementReply
  repeat' first
    | with_reducible assumption
    | with_reducible apply State.wakeWhere_held
    | with_reducible refine Held.cells ?_
    | (refine Held.of_cells ?_; dsimp only)
    | with_reducible intro _
    | split

theorem execPlreply_held {pf : Nat} {v : Word} (hk : Held c₀ n₀ s) : Out c₀ n₀ (execPlreply pf v s) := by
  unfold execPlreply
  repeat' first
    | with_reducible assumption
    | with_reducible apply State.placementReply_held
    | with_reducible refine Held.cells ?_
    | split
    | with_reducible apply Out.next

theorem execFreePoolRefill_held {die : Nat} {small : List Nat} {large : List Nat} (hk : Held c₀ n₀ s) :
    Out c₀ n₀ (execFreePoolRefill die small large s) := by
  unfold execFreePoolRefill
  repeat' first
    | with_reducible assumption
    | with_reducible apply State.modDie_held
    | with_reducible apply State.wakeWhere_held
    | with_reducible refine Held.cells ?_
    | with_reducible intro _
    | split
    | with_reducible apply Out.next

theorem execTryWaitTimeout_held {t : Nat} {g : Nat} (hk : Held c₀ n₀ s) : Out c₀ n₀ (execTryWaitTimeout t g s) := by
  unfold execTryWaitTimeout
  repeat' first
    | with_reducible assumption
    | with_reducible apply State.endTry_held
    | with_reducible apply Env.tryWait_held
    | with_reducible refine Held.cells ?_
    | split
    | with_reducible apply Out.next

theorem execTilewaitTimeout_held {t : Nat} {g : Nat} (hk : Held c₀ n₀ s) : Out c₀ n₀ (execTilewaitTimeout t g s) := by
  unfold execTilewaitTimeout
  repeat' first
    | with_reducible assumption
    | with_reducible apply State.endTry_held
    | with_reducible refine Held.cells ?_
    | split
    | with_reducible apply Out.next

theorem execTxAbort_held {t : Nat} {w : Nat} (hk : Held c₀ n₀ s) : Out c₀ n₀ (execTxAbort t w s) := by
  unfold execTxAbort
  repeat' first
    | with_reducible assumption
    | with_reducible apply State.abortTx_held
    | split
    | with_reducible apply Out.next

theorem execClusterStoreArrival_held {i : Nat} (hk : Held c₀ n₀ s) : Out c₀ n₀ (execClusterStoreArrival i s) := by
  unfold execClusterStoreArrival
  repeat' first
    | with_reducible assumption
    | with_reducible apply State.arriveFar_held
    | with_reducible refine Held.cells ?_
    | (with_reducible refine foldl_held (fun _ _ _ => ?_) _ ?_)
    | (refine Held.of_cells ?_; dsimp only)
    | with_reducible intro _
    | split
    | with_reducible apply Out.next

theorem execCollectorWindowExpiry_held {core : Nat} (hk : Held c₀ n₀ s) : Out c₀ n₀ (execCollectorWindowExpiry core s) := by
  unfold execCollectorWindowExpiry
  repeat' first
    | with_reducible assumption
    | with_reducible apply State.sendCollector_held
    | split
    | with_reducible apply Out.next

theorem State.useSpare_held {core : Nat} (hk : Held c₀ n₀ s) : Held c₀ n₀ (State.useSpare s core) := by
  unfold State.useSpare
  repeat' first
    | with_reducible assumption
    | with_reducible apply State.modCore_held
    | with_reducible apply State.systemEvent_held

theorem State.matrixFail_held {core : Nat} {op : MatrixOp} (hk : Held c₀ n₀ s) : Held c₀ n₀ (State.matrixFail s core op) := by
  unfold State.matrixFail
  repeat' first
    | with_reducible assumption
    | with_reducible apply State.modCore_held
    | with_reducible apply State.systemEvent_held
    | with_reducible apply State.terminate_held

theorem State.retireChecked_held {core : Nat} {mismatches : Nat} (hk : Held c₀ n₀ s) :
    Held c₀ n₀ (State.retireChecked s core mismatches) := by
  induction mismatches generalizing s core with
  | zero =>
    unfold State.retireChecked
    repeat' first
      | with_reducible assumption
      | with_reducible apply ih
      | with_reducible apply State.retireHead_held
  | succ mismatches ih =>
    unfold State.retireChecked
    repeat' first
      | with_reducible assumption
      | with_reducible apply ih
      | with_reducible apply State.retireHead_held
      | with_reducible apply State.useSpare_held
      | with_reducible apply State.matrixFail_held
      | with_reducible refine Held.cells ?_
      | with_reducible intro _
      | split

theorem execMatrixOpRetire_held {core : Nat} {mismatches : Nat} (hk : Held c₀ n₀ s) :
    Out c₀ n₀ (execMatrixOpRetire core mismatches s) := by
  unfold execMatrixOpRetire
  repeat' first
    | with_reducible assumption
    | with_reducible apply State.retireChecked_held
    | split
    | with_reducible apply Out.next

/-! ### Save -/

theorem State.saveRange_held {ln : Launch} {die : Nat} {off : Nat} {n : Nat} {ps : Pieces} (hk : Held c₀ n₀ s) :
    AnsS c₀ n₀ (State.saveRange s ln die off n ps) := by
  unfold State.saveRange
  repeat' first
    | with_reducible assumption
    | with_reducible apply State.savePieces_held

theorem State.saveWarp_held {ln : Launch} {tm : Team} {die : Nat} {w : Nat} (hk : Held c₀ n₀ s) :
    AnsS c₀ n₀ (State.saveWarp s ln tm die w) := by
  unfold State.saveWarp
  repeat' first
    | with_reducible assumption
    | with_reducible apply State.saveRange_held
    | with_reducible refine Denied.Held.of_fault ?_ ‹_›
    | with_reducible refine Denied.Held.of_wait ?_ ‹_›
    | with_reducible refine AnsS.of_ok ?_ ‹_›
    | with_reducible refine AnsS.of_error ?_ ‹_›
    | with_reducible refine AnsS.of_fault ?_ ‹_›
    | with_reducible refine AnsS.of_wait ?_ ‹_›
    | with_reducible refine Eng.Held.of_ok ?_ ‹_›
    | with_reducible refine Eng.Held.of_fault ?_ ‹_›
    | with_reducible refine Eng.Held.of_stay ?_ ‹_›
    | with_reducible refine Eng.Held.of_bad ?_ ‹_›
    | (with_reducible refine AnsS.bind ?_ (fun _ _ => ?_))

theorem State.saveWarps_held {ln : Launch} {tm : Team} {die : Nat} {l : List Nat} (hk : Held c₀ n₀ s) :
    AnsS c₀ n₀ (State.saveWarps s ln tm die l) := by
  induction l generalizing s ln tm die with
  | nil =>
    unfold State.saveWarps
    repeat' first
      | with_reducible assumption
      | with_reducible apply ih
      | with_reducible apply State.saveWarp_held
      | with_reducible refine Denied.Held.of_fault ?_ ‹_›
      | with_reducible refine Denied.Held.of_wait ?_ ‹_›
      | with_reducible refine AnsS.of_ok ?_ ‹_›
      | with_reducible refine AnsS.of_error ?_ ‹_›
      | with_reducible refine AnsS.of_fault ?_ ‹_›
      | with_reducible refine AnsS.of_wait ?_ ‹_›
      | with_reducible refine Eng.Held.of_ok ?_ ‹_›
      | with_reducible refine Eng.Held.of_fault ?_ ‹_›
      | with_reducible refine Eng.Held.of_stay ?_ ‹_›
      | with_reducible refine Eng.Held.of_bad ?_ ‹_›
      | (with_reducible refine AnsS.bind ?_ (fun _ _ => ?_))
      | (with_reducible refine AnsP.bind ?_ (fun _ _ => ?_))
      | (with_reducible refine AnsN.then ?_ (fun _ => ?_))
      | (with_reducible refine Eng.bind_held ?_ (fun _ _ _ => ?_))
      | with_reducible intro _
      | split
      | with_reducible apply Eng.Held.ok
      | with_reducible apply AnsS.ok
  | cons x l ih =>
    unfold State.saveWarps
    repeat' first
      | with_reducible assumption
      | with_reducible apply ih
      | with_reducible apply State.saveWarp_held
      | with_reducible refine Denied.Held.of_fault ?_ ‹_›
      | with_reducible refine Denied.Held.of_wait ?_ ‹_›
      | with_reducible refine AnsS.of_ok ?_ ‹_›
      | with_reducible refine AnsS.of_error ?_ ‹_›
      | with_reducible refine AnsS.of_fault ?_ ‹_›
      | with_reducible refine AnsS.of_wait ?_ ‹_›
      | with_reducible refine Eng.Held.of_ok ?_ ‹_›
      | with_reducible refine Eng.Held.of_fault ?_ ‹_›
      | with_reducible refine Eng.Held.of_stay ?_ ‹_›
      | with_reducible refine Eng.Held.of_bad ?_ ‹_›
      | (with_reducible refine AnsS.bind ?_ (fun _ _ => ?_))

theorem State.saveSection_held {ln : Launch} {tm : Team} {scratch : Pieces} {bins : List (Nat × Bin)} (hk : Held c₀ n₀ s) :
    AnsS c₀ n₀ (State.saveSection s ln tm scratch bins) := by
  unfold State.saveSection
  repeat' first
    | with_reducible assumption
    | with_reducible apply State.saveRange_held
    | with_reducible apply State.saveWarps_held
    | with_reducible refine Denied.Held.of_fault ?_ ‹_›
    | with_reducible refine Denied.Held.of_wait ?_ ‹_›
    | with_reducible refine AnsS.of_ok ?_ ‹_›
    | with_reducible refine AnsS.of_error ?_ ‹_›
    | with_reducible refine AnsS.of_fault ?_ ‹_›
    | with_reducible refine AnsS.of_wait ?_ ‹_›
    | with_reducible refine Eng.Held.of_ok ?_ ‹_›
    | with_reducible refine Eng.Held.of_fault ?_ ‹_›
    | with_reducible refine Eng.Held.of_stay ?_ ‹_›
    | with_reducible refine Eng.Held.of_bad ?_ ‹_›
    | (with_reducible refine AnsS.bind ?_ (fun _ _ => ?_))

theorem State.saveTeams_held {ln : Launch} {l : List Team} (hk : Held c₀ n₀ s) : AnsS c₀ n₀ (State.saveTeams s ln l) := by
  induction l generalizing s ln with
  | nil =>
    unfold State.saveTeams
    repeat' first
      | with_reducible assumption
      | with_reducible apply ih
      | with_reducible apply State.saveSection_held
      | with_reducible refine Denied.Held.of_fault ?_ ‹_›
      | with_reducible refine Denied.Held.of_wait ?_ ‹_›
      | with_reducible refine AnsS.of_ok ?_ ‹_›
      | with_reducible refine AnsS.of_error ?_ ‹_›
      | with_reducible refine AnsS.of_fault ?_ ‹_›
      | with_reducible refine AnsS.of_wait ?_ ‹_›
      | with_reducible refine Eng.Held.of_ok ?_ ‹_›
      | with_reducible refine Eng.Held.of_fault ?_ ‹_›
      | with_reducible refine Eng.Held.of_stay ?_ ‹_›
      | with_reducible refine Eng.Held.of_bad ?_ ‹_›
      | (with_reducible refine AnsS.bind ?_ (fun _ _ => ?_))
      | (with_reducible refine AnsP.bind ?_ (fun _ _ => ?_))
      | (with_reducible refine AnsN.then ?_ (fun _ => ?_))
      | (with_reducible refine Eng.bind_held ?_ (fun _ _ _ => ?_))
      | with_reducible intro _
      | split
      | with_reducible apply Eng.Held.ok
      | with_reducible apply AnsS.ok
  | cons x l ih =>
    unfold State.saveTeams
    repeat' first
      | with_reducible assumption
      | with_reducible apply ih
      | with_reducible apply State.saveSection_held
      | with_reducible refine Denied.Held.of_fault ?_ ‹_›
      | with_reducible refine Denied.Held.of_wait ?_ ‹_›
      | with_reducible refine AnsS.of_ok ?_ ‹_›
      | with_reducible refine AnsS.of_error ?_ ‹_›
      | with_reducible refine AnsS.of_fault ?_ ‹_›
      | with_reducible refine AnsS.of_wait ?_ ‹_›
      | with_reducible refine Eng.Held.of_ok ?_ ‹_›
      | with_reducible refine Eng.Held.of_fault ?_ ‹_›
      | with_reducible refine Eng.Held.of_stay ?_ ‹_›
      | with_reducible refine Eng.Held.of_bad ?_ ‹_›
      | (with_reducible refine AnsS.bind ?_ (fun _ _ => ?_))

theorem State.saveFresh_held {ln : Launch} {l : List Team} (hk : Held c₀ n₀ s) : AnsS c₀ n₀ (State.saveFresh s ln l) := by
  induction l generalizing s ln with
  | nil =>
    unfold State.saveFresh
    repeat' first
      | with_reducible assumption
      | with_reducible apply ih
      | with_reducible apply State.saveSection_held
      | with_reducible refine Denied.Held.of_fault ?_ ‹_›
      | with_reducible refine Denied.Held.of_wait ?_ ‹_›
      | with_reducible refine AnsS.of_ok ?_ ‹_›
      | with_reducible refine AnsS.of_error ?_ ‹_›
      | with_reducible refine AnsS.of_fault ?_ ‹_›
      | with_reducible refine AnsS.of_wait ?_ ‹_›
      | with_reducible refine Eng.Held.of_ok ?_ ‹_›
      | with_reducible refine Eng.Held.of_fault ?_ ‹_›
      | with_reducible refine Eng.Held.of_stay ?_ ‹_›
      | with_reducible refine Eng.Held.of_bad ?_ ‹_›
      | (with_reducible refine AnsS.bind ?_ (fun _ _ => ?_))
      | (with_reducible refine AnsP.bind ?_ (fun _ _ => ?_))
      | (with_reducible refine AnsN.then ?_ (fun _ => ?_))
      | (with_reducible refine Eng.bind_held ?_ (fun _ _ _ => ?_))
      | with_reducible intro _
      | split
      | with_reducible apply Eng.Held.ok
      | with_reducible apply AnsS.ok
  | cons x l ih =>
    unfold State.saveFresh
    repeat' first
      | with_reducible assumption
      | with_reducible apply ih
      | with_reducible apply State.saveSection_held
      | with_reducible refine Denied.Held.of_fault ?_ ‹_›
      | with_reducible refine Denied.Held.of_wait ?_ ‹_›
      | with_reducible refine AnsS.of_ok ?_ ‹_›
      | with_reducible refine AnsS.of_error ?_ ‹_›
      | with_reducible refine AnsS.of_fault ?_ ‹_›
      | with_reducible refine AnsS.of_wait ?_ ‹_›
      | with_reducible refine Eng.Held.of_ok ?_ ‹_›
      | with_reducible refine Eng.Held.of_fault ?_ ‹_›
      | with_reducible refine Eng.Held.of_stay ?_ ‹_›
      | with_reducible refine Eng.Held.of_bad ?_ ‹_›
      | (with_reducible refine AnsS.bind ?_ (fun _ _ => ?_))

theorem State.saveGone_held {ln : Launch} {die : Nat} {l : List Nat} (hk : Held c₀ n₀ s) :
    AnsS c₀ n₀ (State.saveGone s ln die l) := by
  induction l generalizing s ln die with
  | nil =>
    unfold State.saveGone
    repeat' first
      | with_reducible assumption
      | with_reducible apply ih
      | with_reducible apply State.saveRange_held
      | with_reducible refine Denied.Held.of_fault ?_ ‹_›
      | with_reducible refine Denied.Held.of_wait ?_ ‹_›
      | with_reducible refine AnsS.of_ok ?_ ‹_›
      | with_reducible refine AnsS.of_error ?_ ‹_›
      | with_reducible refine AnsS.of_fault ?_ ‹_›
      | with_reducible refine AnsS.of_wait ?_ ‹_›
      | with_reducible refine Eng.Held.of_ok ?_ ‹_›
      | with_reducible refine Eng.Held.of_fault ?_ ‹_›
      | with_reducible refine Eng.Held.of_stay ?_ ‹_›
      | with_reducible refine Eng.Held.of_bad ?_ ‹_›
      | (with_reducible refine AnsS.bind ?_ (fun _ _ => ?_))
      | (with_reducible refine AnsP.bind ?_ (fun _ _ => ?_))
      | (with_reducible refine AnsN.then ?_ (fun _ => ?_))
      | (with_reducible refine Eng.bind_held ?_ (fun _ _ _ => ?_))
      | with_reducible intro _
      | split
      | with_reducible apply Eng.Held.ok
      | with_reducible apply AnsS.ok
  | cons x l ih =>
    unfold State.saveGone
    repeat' first
      | with_reducible assumption
      | with_reducible apply ih
      | with_reducible apply State.saveRange_held
      | with_reducible refine Denied.Held.of_fault ?_ ‹_›
      | with_reducible refine Denied.Held.of_wait ?_ ‹_›
      | with_reducible refine AnsS.of_ok ?_ ‹_›
      | with_reducible refine AnsS.of_error ?_ ‹_›
      | with_reducible refine AnsS.of_fault ?_ ‹_›
      | with_reducible refine AnsS.of_wait ?_ ‹_›
      | with_reducible refine Eng.Held.of_ok ?_ ‹_›
      | with_reducible refine Eng.Held.of_fault ?_ ‹_›
      | with_reducible refine Eng.Held.of_stay ?_ ‹_›
      | with_reducible refine Eng.Held.of_bad ?_ ‹_›
      | (with_reducible refine AnsS.bind ?_ (fun _ _ => ?_))

theorem State.saveImage_held {ln : Launch} {ts : List Team} {fresh : List Team} {gone : List Nat} {die : Nat}
    (hk : Held c₀ n₀ s) : AnsS c₀ n₀ (State.saveImage s ln ts fresh gone die) := by
  unfold State.saveImage
  repeat' first
    | with_reducible assumption
    | with_reducible apply State.saveRange_held
    | with_reducible apply State.saveTeams_held
    | with_reducible apply State.saveFresh_held
    | with_reducible apply State.saveGone_held
    | with_reducible refine Denied.Held.of_fault ?_ ‹_›
    | with_reducible refine Denied.Held.of_wait ?_ ‹_›
    | with_reducible refine AnsS.of_ok ?_ ‹_›
    | with_reducible refine AnsS.of_error ?_ ‹_›
    | with_reducible refine AnsS.of_fault ?_ ‹_›
    | with_reducible refine AnsS.of_wait ?_ ‹_›
    | with_reducible refine Eng.Held.of_ok ?_ ‹_›
    | with_reducible refine Eng.Held.of_fault ?_ ‹_›
    | with_reducible refine Eng.Held.of_stay ?_ ‹_›
    | with_reducible refine Eng.Held.of_bad ?_ ‹_›
    | (with_reducible refine AnsS.bind ?_ (fun _ _ => ?_))

/-! ### Resume -/

theorem State.dramRead_held {own : Asker} {pf : Nat} {ctx : Nat} {die : Nat} {fuel : Nat} {va : Nat} {n : Nat}
    (hk : Held c₀ n₀ s) : AnsP c₀ n₀ (State.dramRead s own pf ctx die fuel va n) := by
  induction fuel generalizing s own pf ctx die va n with
  | zero =>
    unfold State.dramRead
    repeat' first
      | with_reducible assumption
      | with_reducible apply ih
      | with_reducible apply State.reachVa_held
      | with_reducible refine State.openCause_held ?_ ‹_›
      | with_reducible refine State.openCause_held ?_ rfl
      | with_reducible refine Denied.Held.of_fault ?_ ‹_›
      | with_reducible refine Denied.Held.of_wait ?_ ‹_›
      | with_reducible refine AnsP.of_ok ?_ ‹_›
      | with_reducible refine AnsP.of_pair ?_ ‹_›
      | with_reducible refine AnsP.of_error ?_ ‹_›
      | with_reducible refine AnsP.of_fault ?_ ‹_›
      | with_reducible refine AnsP.of_wait ?_ ‹_›
      | with_reducible refine Held.cells ?_
      | (with_reducible refine AnsP.map ?_ (fun _ _ => ?_))
      | (with_reducible refine AnsS.map ?_ (fun _ _ => ?_))
      | (with_reducible apply AnsN.map)
      | (refine Held.of_cells ?_; dsimp only)
  | succ fuel ih =>
    unfold State.dramRead
    repeat' first
      | with_reducible assumption
      | with_reducible apply ih
      | with_reducible apply State.reachVa_held
      | with_reducible refine State.openCause_held ?_ ‹_›
      | with_reducible refine State.openCause_held ?_ rfl
      | with_reducible refine Denied.Held.of_fault ?_ ‹_›
      | with_reducible refine Denied.Held.of_wait ?_ ‹_›
      | with_reducible refine AnsP.of_ok ?_ ‹_›
      | with_reducible refine AnsP.of_pair ?_ ‹_›
      | with_reducible refine AnsP.of_error ?_ ‹_›
      | with_reducible refine AnsP.of_fault ?_ ‹_›
      | with_reducible refine AnsP.of_wait ?_ ‹_›
      | with_reducible refine Held.cells ?_
      | (with_reducible refine AnsP.map ?_ (fun _ _ => ?_))
      | (with_reducible refine AnsS.map ?_ (fun _ _ => ?_))
      | (with_reducible apply AnsN.map)
      | (refine Held.of_cells ?_; dsimp only)
      | with_reducible intro _
      | split
      | with_reducible apply AnsP.ok
      | with_reducible apply Ans.error
      | with_reducible apply Denied.Held.fault
      | exact True.intro
      | dsimp only

theorem State.readTeams_held {x : Queue} {ln : Launch} {old : SavedImage} {l : List Nat} (hk : Held c₀ n₀ s) :
    AnsP c₀ n₀ (s.readTeams x ln old l) := by
  induction l generalizing s with
  | nil => exact hk
  | cons k l ih =>
    unfold State.readTeams
    dsimp only
    split
    · exact Ans.error (AnsP.of_error (State.dramRead_held hk) ‹_›)
    · have h1 := AnsP.of_ok (State.dramRead_held hk) ‹_›
      split
      · exact AnsP.map (ih h1) fun _ h => h
      · split
        · exact AnsP.map (ih h1) fun _ h => h
        · split
          · exact AnsP.map (ih h1) fun _ h => h
          · exact h1

end Sys2Proof.Machine
end

