-- ==== Sys2Proof/Laws/KeepHost.lean ====
section
/-! SUPPORT. The host queues, the Pavilions, the register windows, power, links, firmware and management keep the canonical form of memory
and never lower the floor; so do `exec` and every other turn. -/

namespace Sys2Proof.Machine

variable {c₀ : Bool} {n₀ : Nat} {s : State}

/-! ### HostQueues -/

theorem State.ringDoorbell_held {pf : Nat} {q : Nat} {v : Word} (hk : Held c₀ n₀ s) :
    Held c₀ n₀ (State.ringDoorbell s pf q v) := by
  unfold State.ringDoorbell
  repeat' first
    | with_reducible assumption
    | with_reducible apply State.modQueue_held
    | with_reducible apply State.queueEvent_held
    | with_reducible refine Held.cells ?_
    | (refine Held.of_cells ?_; dsimp only)
    | with_reducible intro _
    | split

theorem execDoorbell_held {pf : Nat} {q : Nat} {v : Word} (hk : Held c₀ n₀ s) : Out c₀ n₀ (execDoorbell pf q v s) := by
  unfold execDoorbell
  repeat' first
    | with_reducible assumption
    | with_reducible apply State.ringDoorbell_held
    | split
    | with_reducible apply Out.next

theorem State.nextWords_held {x : Queue} (hk : Held c₀ n₀ s) {r_ : Except Denied (State × List Word)} (eq₀ :
    (State.nextWords s x) = some r_) : AnsP c₀ n₀ r_ := by
  unfold State.nextWords at eq₀
  repeat' first | (split at eq₀) | (dsimp only at eq₀) | cases eq₀ | done
  repeat' first
    | with_reducible assumption
    | with_reducible apply State.slotWords_held

theorem State.startSlot_held {x : Queue} {ws : List Word} {work : QueueWork} (hk : Held c₀ n₀ s) :
    Held c₀ n₀ (State.startSlot s x ws work) := by
  unfold State.startSlot
  repeat' first
    | with_reducible assumption
    | with_reducible apply State.modQueue_held

theorem State.oneShot_held {x : Queue} {ws : List Word} {f : State → State × Nat × Nat} (hk : Held c₀ n₀ s)
    (hf : ∀ s, Held c₀ n₀ s → Held c₀ n₀ (f s).1) : Held c₀ n₀ (s.oneShot x ws f) :=
  State.endCommand_held (hf _ (State.startSlot_held hk))

theorem queueRow_held {opc pf q : Nat} {f : State → Queue → List Word → State} (hk : Held c₀ n₀ s)
    (hf : ∀ s x ws, Held c₀ n₀ s → Held c₀ n₀ (f s x ws)) : Held c₀ n₀ (queueRow opc pf q s f) := by
  unfold queueRow
  split
  · exact hk
  · split
    · exact hk
    · have h1 := AnsP.of_fault (State.nextWords_held hk ‹_›) rfl
      split
      · exact State.ringFault_held h1
      · exact hk
    · have h1 := AnsP.of_wait (State.nextWords_held hk ‹_›) rfl
      split
      · exact h1
      · exact hk
    · have h1 := AnsP.of_ok (State.nextWords_held hk ‹_›) rfl
      extract_lets own
      split
      · exact hk
      · split
        · exact State.oneShot_held h1 fun _ h => h
        · exact hf _ _ _ h1

theorem State.signalStore_held {x : Queue} {va : Nat} {bs : List Byte} (hk : Held c₀ n₀ s) :
    AnsS c₀ n₀ (s.signalStore x va bs) := by
  have h1 := State.reachVa_held (own := .queue x.num) (pf := x.pf) (ctx := x.ctx) (die := x.die) (va := va) (k := .write) hk
  unfold State.signalStore
  generalize s.reachVa (.queue x.num) x.pf x.ctx x.die va .write = y at h1
  cases y with
  | error d => exact h1
  | ok y =>
    have h2 : Held c₀ n₀ y.1 := h1
    refine AnsS.ok (State.poke_held ?_)
    split
    · exact State.conflict_held h2
    · exact h2

theorem execSignal_held {pf q : Nat} (hk : Held c₀ n₀ s) : Out c₀ n₀ (execSignal pf q s) :=
  queueRow_held hk fun s x ws hs => by
    have h1 := State.signalStore_held (x := x) (va := addrOf ws 2) (bs := leBytes (sizeOf_ ws) (valueOf ws)) hs
    split
    · exact State.oneShot_held (AnsS.of_ok h1 ‹_›) fun _ h => h
    · exact State.oneShot_held (AnsS.of_fault h1 ‹_›) fun _ h => h
    · exact AnsS.of_wait h1 ‹_›

theorem execWaitv_held {pf q : Nat} (hk : Held c₀ n₀ s) : Out c₀ n₀ (execWaitv pf q s) :=
  queueRow_held hk fun _ _ _ h => State.startSlot_held h

theorem State.waitOn_held {x : Queue} {r : QueueRun} {deadline : Option Nat} {v : Nat} (hk : Held c₀ n₀ s) :
    Held c₀ n₀ (State.waitOn s x r deadline v) := by
  unfold State.waitOn
  repeat' first
    | with_reducible assumption
    | with_reducible apply State.modQueue_held
    | with_reducible apply State.endCommand_held
    | with_reducible refine Held.cells ?_
    | with_reducible intro _
    | split

theorem pollWait_held {x : Queue} {r : QueueRun} {deadline : Option Nat} {last : DWord} {found : Except Denied (State × Nat)} 
    (h_found : AnsP c₀ n₀ found) : Held c₀ n₀ (pollWait x r deadline last found) := by
  unfold pollWait
  repeat' first
    | with_reducible assumption
    | with_reducible apply h_found
    | with_reducible apply State.conflict_held
    | with_reducible apply State.endCommand_held
    | with_reducible apply State.waitOn_held
    | with_reducible refine Denied.Held.of_fault ?_ ‹_›
    | with_reducible refine Denied.Held.of_wait ?_ ‹_›
    | with_reducible refine AnsP.of_ok ?_ ‹_›
    | with_reducible refine AnsP.of_pair ?_ ‹_›
    | with_reducible refine AnsP.of_error ?_ ‹_›
    | with_reducible refine AnsP.of_fault ?_ ‹_›
    | with_reducible refine AnsP.of_wait ?_ ‹_›
    | with_reducible refine Held.cells ?_
    | (refine Held.of_cells ?_; dsimp only)
    | with_reducible intro _
    | split
    | exact h_found

theorem execWaitvPoll_held {pf : Nat} {q : Nat} (hk : Held c₀ n₀ s) : Out c₀ n₀ (execWaitvPoll pf q s) := by
  unfold execWaitvPoll
  repeat' first
    | with_reducible assumption
    | with_reducible apply State.reachVa_held
    | with_reducible apply pollWait_held
    | with_reducible refine Denied.Held.of_fault ?_ ‹_›
    | with_reducible refine Denied.Held.of_wait ?_ ‹_›
    | with_reducible refine AnsP.of_ok ?_ ‹_›
    | with_reducible refine AnsP.of_pair ?_ ‹_›
    | with_reducible refine AnsP.of_error ?_ ‹_›
    | with_reducible refine AnsP.of_fault ?_ ‹_›
    | with_reducible refine AnsP.of_wait ?_ ‹_›
    | with_reducible refine Held.cells ?_
    | with_reducible apply Cells.write
    | with_reducible apply Cells.clear
    | with_reducible apply Cells.copy
    | with_reducible apply Cells.restore
    | with_reducible apply Cells.putBack
    | with_reducible apply Cells.set
    | with_reducible apply Cells.filter
    | (with_reducible refine AnsP.map ?_ (fun _ _ => ?_))
    | (with_reducible refine AnsS.bind ?_ (fun _ _ => ?_))
    | (with_reducible refine AnsP.bind ?_ (fun _ _ => ?_))
    | (with_reducible refine AnsS.map ?_ (fun _ _ => ?_))
    | (with_reducible refine AnsN.then ?_ (fun _ => ?_))
    | (with_reducible apply AnsN.map)
    | (with_reducible refine AnsN.bind ?_ (fun _ => ?_))
    | exact AnsN.pure
    | (with_reducible refine Eng.bind_held ?_ (fun _ _ _ => ?_))
    | (with_reducible refine Cells.fold ?_ (fun _ _ _ => ?_) _)
    | (with_reducible refine foldl_held (fun _ _ _ => ?_) _ ?_)
    | with_reducible intro _
    | split
    | with_reducible apply Out.next

theorem State.flushTlb_held {pf : Nat} {ctx : Nat} (hk : Held c₀ n₀ s) : Held c₀ n₀ (State.flushTlb s pf ctx) := by
  unfold State.flushTlb
  repeat' first
    | with_reducible assumption
    | with_reducible apply State.dropTlbs_held

theorem State.flushRo_held {dies : List Nat} (hk : Held c₀ n₀ s) : Held c₀ n₀ (State.flushRo s dies) := by
  unfold State.flushRo
  repeat' first
    | with_reducible assumption
    | with_reducible refine Held.cells ?_
    | (refine Held.of_cells ?_; dsimp only)

theorem State.cleanL2_held {dies : List Nat} (hk : Held c₀ n₀ s) : Held c₀ n₀ (State.cleanL2 s dies) := by
  unfold State.cleanL2
  repeat' first
    | with_reducible assumption
    | with_reducible apply State.modDie_held
    | with_reducible refine Held.cells ?_
    | (with_reducible refine foldl_held (fun _ _ _ => ?_) _ ?_)

theorem execFlush_held {pf q : Nat} (hk : Held c₀ n₀ s) : Out c₀ n₀ (execFlush pf q s) :=
  queueRow_held hk fun s x ws hs => by
    split
    · exact hs
    refine State.oneShot_held hs fun s h => ?_
    have hc : ∀ (b : Bool) {s₁ s₂ : State}, Held c₀ n₀ s₁ → Held c₀ n₀ s₂ → Held c₀ n₀ (if b then s₁ else s₂) := by
      intro b s₁ s₂ h1 h2; cases b
      · exact h2
      · exact h1
    have h1 := hc ((wn ws 2).testBit 0) (State.flushTlb_held (pf := pf) (ctx := x.ctx) h) h
    have h2 := hc ((wn ws 2).testBit 1) (State.flushRo_held (dies := s.devDies pf) h1) h1
    exact hc ((wn ws 2).testBit 2) (State.cleanL2_held (dies := s.devDies pf) h2) h2

theorem Denied.admitted_held {d : Denied} (h_d : d.Held c₀ n₀) : Admitted.Held c₀ n₀ d.admitted := by
  cases d <;> exact h_d

theorem State.acceptFresh_held {x : Queue} {ln : Launch} (hk : Held c₀ n₀ s) : Admitted.Held c₀ n₀ (s.acceptFresh x ln) := by
  unfold State.acceptFresh
  split
  · exact hk
  · split
    · exact hk
    · split <;> exact hk

theorem State.loadSlots_held {pf : Nat} {ctx : Nat} {loaded : List Nat} {progs : List (Option (List Word))}
    (hk : Held c₀ n₀ s) : Held c₀ n₀ (State.loadSlots s pf ctx loaded progs) := by
  unfold State.loadSlots
  repeat' first
    | with_reducible assumption
    | with_reducible apply State.modCtx_held

theorem State.acceptResume_held {x : Queue} {ln : Launch} {sections offset : Nat} (hk : Held c₀ n₀ s) :
    Admitted.Held c₀ n₀ (s.acceptResume x ln sections offset) := by
  unfold State.acceptResume
  extract_lets s₁ old
  have h1 : Held c₀ n₀ s₁ := hk
  clear_value s₁ old
  split
  · exact h1
  · split
    · exact h1
    · split
      · exact h1
      · split
        · exact Denied.admitted_held (AnsP.of_error (State.dramRead_held h1) ‹_›)
        · have h2 := AnsP.of_ok (State.dramRead_held h1) ‹_›
          dsimp only
          split
          · exact h2
          · split
            · exact Denied.admitted_held (AnsP.of_error (State.readTeams_held h2) ‹_›)
            · exact AnsP.of_ok (State.readTeams_held h2) ‹_›
            · have h3 := AnsP.of_ok (State.readTeams_held h2) ‹_›
              exact Held.of_cells h3

theorem State.acceptImage_held {x : Queue} {image : Nat} {replay : Bool} (hk : Held c₀ n₀ s) :
    Admitted.Held c₀ n₀ (s.acceptImage x image replay) := by
  unfold State.acceptImage
  split
  · exact Denied.admitted_held (AnsP.of_error (State.dramRead_held hk) ‹_›)
  · have h2 := AnsP.of_ok (State.dramRead_held hk) ‹_›
    extract_lets h
    split
    · exact h2
    · split
      · exact Denied.admitted_held (AnsP.of_error (State.dramRead_held h2) ‹_›)
      · have h3 := AnsP.of_ok (State.dramRead_held h2) ‹_›
        split
        · exact h3
        · split
          · exact State.acceptFresh_held h3
          · exact State.acceptResume_held h3

theorem State.addLaunch_held {x : Queue} {ws : List Word} {ln : Launch} (hk : Held c₀ n₀ s) :
    Held c₀ n₀ (State.addLaunch s x ws ln) := by
  unfold State.addLaunch
  repeat' first
    | with_reducible assumption
    | with_reducible apply State.startSlot_held
    | with_reducible refine Held.cells ?_
    | (refine Held.of_cells ?_; dsimp only)

theorem execLaunch_held {pf q : Nat} (hk : Held c₀ n₀ s) : Out c₀ n₀ (execLaunch pf q s) :=
  queueRow_held hk fun s x ws hs => by
    have h1 := State.acceptImage_held (x := x) (image := addrOf ws 2) (replay := false) hs
    generalize s.acceptImage x (addrOf ws 2) false = a at h1
    cases a with
    | refused s d => exact State.oneShot_held (s := s) h1 fun _ h => h
    | waits s => exact h1
    | ok s ln => exact State.addLaunch_held h1

theorem State.setCounters_held {pf : Nat} {sel : Word} (hk : Held c₀ n₀ s) : Held c₀ n₀ (State.setCounters s pf sel) := by
  unfold State.setCounters
  repeat' first
    | with_reducible assumption
    | with_reducible apply State.modCore_held
    | with_reducible refine Held.cells ?_
    | (with_reducible refine foldl_held (fun _ _ _ => ?_) _ ?_)
    | with_reducible intro _
    | split

theorem State.reachAll_held {x : Queue} {stop : Nat} {fuel : Nat} {va : Nat} (hk : Held c₀ n₀ s) :
    AnsP c₀ n₀ (State.reachAll s x stop fuel va) := by
  induction fuel generalizing s x stop va with
  | zero =>
    unfold State.reachAll
    repeat' first
      | with_reducible assumption
      | with_reducible apply ih
      | with_reducible apply State.reachVa_held
      | with_reducible refine Denied.Held.of_fault ?_ ‹_›
      | with_reducible refine Denied.Held.of_wait ?_ ‹_›
      | with_reducible refine AnsP.of_ok ?_ ‹_›
      | with_reducible refine AnsP.of_pair ?_ ‹_›
      | with_reducible refine AnsP.of_error ?_ ‹_›
      | with_reducible refine AnsP.of_fault ?_ ‹_›
      | with_reducible refine AnsP.of_wait ?_ ‹_›
      | with_reducible refine Held.cells ?_
      | (with_reducible refine AnsP.map ?_ (fun _ _ => ?_))
      | (with_reducible refine AnsS.map ?_ (fun _ _ => ?_))
      | (with_reducible apply AnsN.map)
      | (refine Held.of_cells ?_; dsimp only)
  | succ fuel ih =>
    unfold State.reachAll
    repeat' first
      | with_reducible assumption
      | with_reducible apply ih
      | with_reducible apply State.reachVa_held
      | with_reducible refine Denied.Held.of_fault ?_ ‹_›
      | with_reducible refine Denied.Held.of_wait ?_ ‹_›
      | with_reducible refine AnsP.of_ok ?_ ‹_›
      | with_reducible refine AnsP.of_pair ?_ ‹_›
      | with_reducible refine AnsP.of_error ?_ ‹_›
      | with_reducible refine AnsP.of_fault ?_ ‹_›
      | with_reducible refine AnsP.of_wait ?_ ‹_›
      | with_reducible refine Held.cells ?_
      | (with_reducible refine AnsP.map ?_ (fun _ _ => ?_))
      | (with_reducible refine AnsS.map ?_ (fun _ _ => ?_))
      | (with_reducible apply AnsN.map)
      | (refine Held.of_cells ?_; dsimp only)
      | with_reducible intro _
      | split
      | with_reducible apply AnsP.ok
      | with_reducible apply Ans.error

theorem State.replayAreas_held {x : Queue} {ws : List Word} (hk : Held c₀ n₀ s) : AnsP c₀ n₀ (State.replayAreas s x ws) := by
  unfold State.replayAreas
  repeat' first
    | with_reducible assumption
    | with_reducible refine State.capture_held ?_ ‹_›
    | with_reducible refine State.capture_held ?_ rfl
    | with_reducible apply State.reachAll_held
    | with_reducible refine Denied.Held.of_fault ?_ ‹_›
    | with_reducible refine Denied.Held.of_wait ?_ ‹_›
    | with_reducible refine AnsP.of_ok ?_ ‹_›
    | with_reducible refine AnsP.of_pair ?_ ‹_›
    | with_reducible refine AnsP.of_error ?_ ‹_›
    | with_reducible refine AnsP.of_fault ?_ ‹_›
    | with_reducible refine AnsP.of_wait ?_ ‹_›
    | with_reducible refine Eng.Held.of_ok ?_ ‹_›
    | with_reducible refine Eng.Held.of_fault ?_ ‹_›
    | with_reducible refine Eng.Held.of_stay ?_ ‹_›
    | with_reducible refine Eng.Held.of_bad ?_ ‹_›
    | with_reducible refine Held.cells ?_
    | (with_reducible refine AnsS.bind ?_ (fun _ _ => ?_))
    | (with_reducible refine AnsP.bind ?_ (fun _ _ => ?_))
    | (with_reducible refine AnsN.then ?_ (fun _ => ?_))
    | (with_reducible refine Eng.bind_held ?_ (fun _ _ _ => ?_))
    | with_reducible intro _
    | split
    | with_reducible apply Eng.Held.fault
    | with_reducible apply AnsP.ok
    | with_reducible apply Ans.error
    | with_reducible apply Denied.Held.fault
    | exact True.intro
    | dsimp only

theorem execReplay_held {pf q : Nat} (hk : Held c₀ n₀ s) : Out c₀ n₀ (execReplay pf q s) :=
  queueRow_held hk fun s x ws hs => by
    have h1 := State.acceptImage_held (x := x) (image := addrOf ws 2) (replay := true) hs
    dsimp only
    generalize s.acceptImage x (addrOf ws 2) true = a at h1
    cases a with
    | refused s d => exact State.oneShot_held (s := s) h1 fun _ h => h
    | waits s => exact h1
    | ok s ln =>
      have h2 : Held c₀ n₀ s := h1
      dsimp only
      split
      · exact State.oneShot_held (AnsP.of_fault (State.replayAreas_held h2) ‹_›) fun _ h => h
      · exact AnsP.of_wait (State.replayAreas_held h2) ‹_›
      · exact State.addLaunch_held (State.setCounters_held (AnsP.of_ok (State.replayAreas_held h2) ‹_›))

/-! ### Pavilion -/

theorem State.regang_held {l : Nat} (hk : Held c₀ n₀ s) : Held c₀ n₀ (State.regang s l) := by
  unfold State.regang
  repeat' first
    | with_reducible assumption
    | with_reducible apply State.modLaunch_held
    | with_reducible refine Held.cells ?_
    | (refine Held.of_cells ?_; dsimp only)
    | with_reducible intro _
    | split

theorem State.freshCaches_held {ln : Launch} {c : Nat} {resume : Bool} (hk : Held c₀ n₀ s) :
    Held c₀ n₀ (State.freshCaches s ln c resume) := by
  unfold State.freshCaches
  repeat' first
    | with_reducible assumption
    | with_reducible apply State.modCore_held
    | with_reducible refine Held.cells ?_
    | (with_reducible refine foldl_held (fun _ _ _ => ?_) _ ?_)

theorem State.beginSlice_held {ln : Launch} (hk : Held c₀ n₀ s) : Held c₀ n₀ (State.beginSlice s ln) := by
  unfold State.beginSlice
  repeat' first
    | with_reducible assumption
    | with_reducible apply State.modQueue_held
    | with_reducible refine Held.cells ?_
    | (with_reducible refine foldl_held (fun _ _ _ => ?_) _ ?_)
    | (refine Held.of_cells ?_; dsimp only)
    | with_reducible intro _
    | split

theorem State.startTeam_held {ln : Launch} {c : Nat} {base : Nat} (hk : Held c₀ n₀ s) :
    Held c₀ n₀ (State.startTeam s ln c base) := by
  unfold State.startTeam
  repeat' first
    | with_reducible assumption
    | with_reducible apply State.modLaunch_held
    | with_reducible apply State.freshCaches_held
    | with_reducible apply State.beginSlice_held
    | with_reducible refine Held.cells ?_
    | with_reducible apply Cells.clear
    | (refine Held.of_cells ?_; dsimp only)

theorem State.loadScratch_held {ln : Launch} {die : Nat} {fuel : Nat} {va : Nat} {dst : Nat} {n : Nat} (hk : Held c₀ n₀ s) :
    AnsS c₀ n₀ (State.loadScratch s ln die fuel va dst n) := by
  induction fuel generalizing s ln die va dst n with
  | zero =>
    unfold State.loadScratch
    repeat' first
      | with_reducible assumption
      | with_reducible apply ih
      | with_reducible apply State.reachVa_held
      | with_reducible refine Denied.Held.of_fault ?_ ‹_›
      | with_reducible refine Denied.Held.of_wait ?_ ‹_›
      | with_reducible refine AnsP.of_ok ?_ ‹_›
      | with_reducible refine AnsP.of_pair ?_ ‹_›
      | with_reducible refine AnsP.of_error ?_ ‹_›
      | with_reducible refine AnsP.of_fault ?_ ‹_›
      | with_reducible refine AnsP.of_wait ?_ ‹_›
      | with_reducible refine Held.cells ?_
      | with_reducible apply Cells.copy
      | with_reducible intro _
      | split
      | with_reducible apply AnsS.ok
  | succ fuel ih =>
    unfold State.loadScratch
    repeat' first
      | with_reducible assumption
      | with_reducible apply ih
      | with_reducible apply State.reachVa_held
      | with_reducible refine Denied.Held.of_fault ?_ ‹_›
      | with_reducible refine Denied.Held.of_wait ?_ ‹_›
      | with_reducible refine AnsP.of_ok ?_ ‹_›
      | with_reducible refine AnsP.of_pair ?_ ‹_›
      | with_reducible refine AnsP.of_error ?_ ‹_›
      | with_reducible refine AnsP.of_fault ?_ ‹_›
      | with_reducible refine AnsP.of_wait ?_ ‹_›
      | with_reducible refine Held.cells ?_
      | with_reducible apply Cells.copy
      | (refine Held.of_cells ?_; dsimp only)
      | with_reducible intro _
      | split
      | with_reducible apply AnsS.ok
      | with_reducible apply Ans.error

theorem State.restoreArbour_held {tm : Team} {bins : List (Nat × Bin)} {c : Nat} (hk : Held c₀ n₀ s) :
    Held c₀ n₀ (State.restoreArbour s tm bins c) := by
  unfold State.restoreArbour
  repeat' first
    | with_reducible assumption
    | with_reducible apply State.modCore_held
    | with_reducible refine Held.cells ?_
    | (with_reducible refine foldl_held (fun _ _ _ => ?_) _ ?_)
    | (refine Held.of_cells ?_; dsimp only)
    | with_reducible intro _
    | split

theorem State.restorePhasers_held {i : SavedImage} (hk : Held c₀ n₀ s) {r_ : State} (eq₀ :
    (State.restorePhasers s i) = some r_) : Held c₀ n₀ r_ := by
  unfold State.restorePhasers at eq₀
  repeat' first | (split at eq₀) | (dsimp only at eq₀) | cases eq₀ | done
  repeat' first
    | with_reducible assumption
    | with_reducible apply State.modDie_held
    | with_reducible refine Held.cells ?_
    | (with_reducible refine foldl_held (fun _ _ _ => ?_) _ ?_)

theorem State.putTeam_held {ln : Launch} {i : SavedImage} {tm : Team} {c : Nat} {base : Nat} (hk : Held c₀ n₀ s) :
    Held c₀ n₀ (State.putTeam s ln i tm c base) := by
  unfold State.putTeam
  repeat' first
    | with_reducible assumption
    | with_reducible apply State.modLaunch_held
    | with_reducible apply State.teamCheck_held
    | with_reducible apply State.restoreArbour_held
    | with_reducible refine Held.cells ?_
    | (refine Held.of_cells ?_; dsimp only)

theorem State.restoreTeam_held {ln : Launch} {i : SavedImage} {tm : Team} {c base : Nat} (hk : Held c₀ n₀ s) {r : State}
    (h : s.restoreTeam ln i tm c base = some r) : Held c₀ n₀ r := by
  have h1 : Held c₀ n₀ ((s.beginSlice ln).freshCaches ln c true) := State.freshCaches_held (State.beginSlice_held hk)
  unfold State.restoreTeam at h
  extract_lets die hd dst n s₁ from_ at h
  have h2 : AnsS c₀ n₀ ({ s₁ with mem := s₁.mem.clear dst n }.loadScratch ln die (n / 16384 + 2) from_ dst n) :=
    State.loadScratch_held (Cells.clear h1 _ _)
  generalize { s₁ with mem := s₁.mem.clear dst n }.loadScratch ln die (n / 16384 + 2) from_ dst n = y at h h2
  clear_value s₁ from_ dst
  split at h
  · cases h; exact State.readFault_held h2
  · split at h <;> cases h
    exact h2
  · rename_i s₂
    cases h3 : s₂.restorePhasers i with
    | none => rw [h3] at h; cases h
    | some s₃ => rw [h3] at h; cases h; exact State.putTeam_held (State.restorePhasers_held h2 h3)

theorem State.placeOn_held {l c : Nat} (hk : Held c₀ n₀ s) {r : State} (h : s.placeOn l c = some r) : Held c₀ n₀ r := by
  unfold State.placeOn at h
  repeat' split at h
  all_goals try cases h
  · exact State.restoreTeam_held hk h
  · exact State.startTeam_held hk

theorem State.placeAll_held {l : Nat} {cs : List Nat} (hk : Held c₀ n₀ s) {r : State} (h : s.placeAll l cs = some r) :
    Held c₀ n₀ r := by
  induction cs generalizing s with
  | nil => cases h; exact hk
  | cons c cs ih =>
    unfold State.placeAll at h
    cases h1 : s.placeOn l c with
    | none => rw [h1] at h; cases h
    | some s₁ => rw [h1] at h; exact ih (State.placeOn_held hk h1) h

theorem State.endReplay_held {s₀ : State} {ln : Launch} {r : Replay} {status : Nat} {detail : Nat} (hk : Held c₀ n₀ s)
    (hk_s₀ : Held c₀ n₀ s₀) : Held c₀ n₀ (State.endReplay s s₀ ln r status detail) := by
  unfold State.endReplay
  repeat' first
    | with_reducible assumption
    | with_reducible apply State.endLaunch_held
    | with_reducible apply State.writeRecord_held
    | with_reducible refine Denied.Held.of_fault ?_ ‹_›
    | with_reducible refine Denied.Held.of_wait ?_ ‹_›
    | with_reducible refine AnsS.of_ok ?_ ‹_›
    | with_reducible refine AnsS.of_error ?_ ‹_›
    | with_reducible refine AnsS.of_fault ?_ ‹_›
    | with_reducible refine AnsS.of_wait ?_ ‹_›
    | with_reducible refine Held.cells ?_
    | (refine Held.of_cells ?_; dsimp only)
    | split

theorem State.endAs_held {ln : Launch} {status : Nat} {detail : Nat} (hk : Held c₀ n₀ s) :
    Held c₀ n₀ (State.endAs s ln status detail) := by
  unfold State.endAs
  repeat' first
    | with_reducible assumption
    | with_reducible apply State.endLaunch_held
    | with_reducible apply State.endReplay_held
    | with_reducible refine Held.cells ?_
    | split

theorem State.refuseGangs_held (hk : Held c₀ n₀ s) : Held c₀ n₀ (State.refuseGangs s) := by
  unfold State.refuseGangs
  repeat' first
    | with_reducible assumption
    | with_reducible apply State.endAs_held
    | (with_reducible refine foldl_held (fun _ _ _ => ?_) _ ?_)
    | with_reducible intro _
    | split

theorem State.stopTeams_held {ts : List Nat} (hk : Held c₀ n₀ s) : Held c₀ n₀ (State.stopTeams s ts) := by
  unfold State.stopTeams
  repeat' first
    | with_reducible assumption
    | with_reducible apply State.stopTeam_held
    | (with_reducible refine foldl_held (fun _ _ _ => ?_) _ ?_)
    | with_reducible intro _
    | split

theorem State.without_held {ts : List Nat} (hk : Held c₀ n₀ s) : Held c₀ n₀ (State.without s ts) := by
  unfold State.without
  repeat' first
    | with_reducible assumption
    | with_reducible refine Held.cells ?_
    | (refine Held.of_cells ?_; dsimp only)

theorem execTeamPlacement_held {l : Nat} {cores victims : List Nat} (hk : Held c₀ n₀ s) :
    Out c₀ n₀ (execTeamPlacement l cores victims s) := by
  unfold execTeamPlacement
  split
  · exact hk
  · split
    · exact hk
    · split
      · cases h : s.placeAll l cores with
        | none => exact hk
        | some s₁ => exact State.placeAll_held hk h
      · split
        · exact State.stopTeams_held hk
        · exact hk

theorem execGangTimeout_held {l : Nat} (hk : Held c₀ n₀ s) : Out c₀ n₀ (execGangTimeout l s) := by
  unfold execGangTimeout
  repeat' first
    | with_reducible assumption
    | with_reducible apply State.endAs_held
    | with_reducible refine Held.cells ?_
    | split
    | with_reducible apply Out.next

theorem execTimeSliceExpiry_held {pf : Nat} {q : Nat} {victims : List Nat} (hk : Held c₀ n₀ s) :
    Out c₀ n₀ (execTimeSliceExpiry pf q victims s) := by
  unfold execTimeSliceExpiry
  repeat' first
    | with_reducible assumption
    | with_reducible apply State.modQueue_held
    | with_reducible apply State.stopTeams_held
    | with_reducible refine Held.cells ?_
    | (with_reducible refine foldl_held (fun _ _ _ => ?_) _ ?_)
    | with_reducible intro _
    | split
    | with_reducible apply Out.next
    | exact True.intro
    | dsimp only

theorem State.storeTeam_held {i : SavedImage} {tm : Team} (hk : Held c₀ n₀ s) {r_ : State × SavedImage} (eq₀ :
    (State.storeTeam s i tm) = r_) : Held c₀ n₀ r_.1 := by
  subst eq₀
  unfold State.storeTeam
  repeat' first
    | with_reducible assumption
    | with_reducible apply State.dropTeam_held

theorem State.storeTeams_held {i : SavedImage} {l : List Team} (hk : Held c₀ n₀ s) {r_ : State × SavedImage} (eq₀ :
    (State.storeTeams s i l) = r_) : Held c₀ n₀ r_.1 := by
  induction l generalizing s i r_ with
  | nil =>
    subst eq₀
    unfold State.storeTeams
    all_goals try dsimp only
    repeat' first
      | with_reducible assumption
  | cons x l ih =>
    subst eq₀
    unfold State.storeTeams
    all_goals try dsimp only
    repeat' first
      | with_reducible assumption
      | with_reducible refine ih ?_ ‹_›
      | with_reducible refine ih ?_ rfl
      | with_reducible refine State.storeTeam_held ?_ ‹_›
      | with_reducible refine State.storeTeam_held ?_ rfl

theorem State.finishSave_held {ln : Launch} {ts : List Team} (hk : Held c₀ n₀ s) : Held c₀ n₀ (State.finishSave s ln ts) := by
  unfold State.finishSave
  repeat' first
    | with_reducible assumption
    | with_reducible apply State.modLaunch_held
    | with_reducible apply State.endLaunch_held
    | with_reducible apply State.writeFault_held
    | with_reducible apply State.saveImage_held
    | with_reducible apply State.regang_held
    | with_reducible refine State.storeTeams_held ?_ ‹_›
    | with_reducible refine State.storeTeams_held ?_ rfl
    | with_reducible refine Denied.Held.of_fault ?_ ‹_›
    | with_reducible refine Denied.Held.of_wait ?_ ‹_›
    | with_reducible refine AnsS.of_ok ?_ ‹_›
    | with_reducible refine AnsS.of_error ?_ ‹_›
    | with_reducible refine AnsS.of_fault ?_ ‹_›
    | with_reducible refine AnsS.of_wait ?_ ‹_›
    | with_reducible refine Held.cells ?_
    | (refine Held.of_cells ?_; dsimp only)
    | with_reducible intro _
    | split

theorem State.restorePage_held {pf : Nat} {r : Replay} {p : Nat × Nat × Nat} (hk : Held c₀ n₀ s) :
    Held c₀ n₀ (State.restorePage s pf r p) := by
  unfold State.restorePage
  repeat' first
    | with_reducible assumption
    | with_reducible apply State.conflictRange_held
    | with_reducible apply State.touch_held
    | with_reducible apply State.dropLines_held
    | with_reducible refine Held.cells ?_
    | with_reducible apply Cells.putBack
    | (with_reducible refine Cells.fold ?_ (fun _ _ _ => ?_) _)
    | (with_reducible refine foldl_held (fun _ _ _ => ?_) _ ?_)
    | (refine Held.of_cells ?_; dsimp only)

theorem State.retryRequests_held {pf : Nat} {ctx : Nat} (hk : Held c₀ n₀ s) : Held c₀ n₀ (State.retryRequests s pf ctx) := by
  unfold State.retryRequests
  repeat' first
    | with_reducible assumption
    | with_reducible apply State.wakeWhere_held

theorem State.restorePass_held {ln : Launch} {r : Replay} (hk : Held c₀ n₀ s) : Held c₀ n₀ (State.restorePass s ln r) := by
  unfold State.restorePass
  repeat' first
    | with_reducible assumption
    | with_reducible apply State.modLaunch_held
    | with_reducible apply State.modDie_held
    | with_reducible apply State.freePhasers_held
    | with_reducible apply State.flushTlb_held
    | with_reducible apply State.cleanL2_held
    | with_reducible apply State.restorePage_held
    | with_reducible apply State.retryRequests_held
    | with_reducible refine Held.cells ?_
    | with_reducible apply Cells.restore
    | with_reducible apply Cells.filter
    | (with_reducible refine Cells.fold ?_ (fun _ _ _ => ?_) _)
    | (with_reducible refine foldl_held (fun _ _ _ => ?_) _ ?_)
    | (refine Held.of_cells ?_; dsimp only)

theorem State.killTeams_held {l : Nat} (hk : Held c₀ n₀ s) : Held c₀ n₀ (State.killTeams s l) := by
  unfold State.killTeams
  repeat' first
    | with_reducible assumption
    | with_reducible apply State.leaveExacts_held
    | with_reducible apply State.dropTeam_held
    | (with_reducible refine foldl_held (fun _ _ _ => ?_) _ ?_)

theorem State.beginPass_held {ln : Launch} {r : Replay} {abandoned : Bool} (hk : Held c₀ n₀ s) :
    Held c₀ n₀ (State.beginPass s ln r abandoned) := by
  unfold State.beginPass
  repeat' first
    | with_reducible assumption
    | with_reducible apply State.modLaunch_held
    | with_reducible apply State.setCounters_held

theorem State.endOverflow_held {ln : Launch} {r : Replay} (hk : Held c₀ n₀ s) : Held c₀ n₀ (State.endOverflow s ln r) := by
  unfold State.endOverflow
  repeat' first
    | with_reducible assumption
    | with_reducible apply State.endReplay_held
    | with_reducible apply State.restorePass_held
    | with_reducible apply State.killTeams_held

theorem State.abandonPass_held {ln : Launch} {r : Replay} (hk : Held c₀ n₀ s) : Held c₀ n₀ (State.abandonPass s ln r) := by
  unfold State.abandonPass
  repeat' first
    | with_reducible assumption
    | with_reducible apply State.regang_held
    | with_reducible apply State.restorePass_held
    | with_reducible apply State.killTeams_held
    | with_reducible apply State.beginPass_held

theorem State.passEnd_held {ln : Launch} {r : Replay} (hk : Held c₀ n₀ s) : Held c₀ n₀ (State.passEnd s ln r) := by
  unfold State.passEnd
  repeat' first
    | with_reducible assumption
    | with_reducible apply State.regang_held
    | with_reducible apply State.endReplay_held
    | with_reducible apply State.restorePass_held
    | with_reducible apply State.beginPass_held
    | with_reducible apply State.endOverflow_held
    | with_reducible refine Held.cells ?_
    | (refine Held.of_cells ?_; dsimp only)
    | split

theorem execReplayPassRestore_held {l : Nat} (hk : Held c₀ n₀ s) : Out c₀ n₀ (execReplayPassRestore l s) := by
  unfold execReplayPassRestore
  repeat' first
    | with_reducible assumption
    | with_reducible apply State.passEnd_held
    | with_reducible refine Held.cells ?_
    | split
    | with_reducible apply Out.next

theorem execSaveComplete_held {l : Nat} (hk : Held c₀ n₀ s) : Out c₀ n₀ (execSaveComplete l s) := by
  unfold execSaveComplete
  repeat' first
    | with_reducible assumption
    | with_reducible apply State.endReplay_held
    | with_reducible apply State.finishSave_held
    | with_reducible apply State.restorePass_held
    | with_reducible apply State.killTeams_held
    | with_reducible apply State.endOverflow_held
    | with_reducible apply State.abandonPass_held
    | with_reducible refine Held.cells ?_
    | with_reducible intro _
    | split
    | with_reducible apply Out.next
    | exact True.intro
    | dsimp only

theorem execStopWatchdogExpiry_held {t : Nat} (hk : Held c₀ n₀ s) : Out c₀ n₀ (execStopWatchdogExpiry t s) := by
  unfold execStopWatchdogExpiry
  repeat' first
    | with_reducible assumption
    | with_reducible apply State.terminate_held
    | with_reducible refine Held.cells ?_
    | (refine Held.of_cells ?_; dsimp only)
    | split
    | with_reducible apply Out.next

theorem State.preemptLaunch_held {l : Nat} (hk : Held c₀ n₀ s) : Held c₀ n₀ (State.preemptLaunch s l) := by
  unfold State.preemptLaunch
  repeat' first
    | with_reducible assumption
    | with_reducible apply State.stopLaunch_held
    | with_reducible apply State.abandonPass_held
    | with_reducible refine Held.cells ?_
    | (refine Held.of_cells ?_; dsimp only)
    | split

theorem State.stopQueue_held {pf : Nat} {q : Nat} (hk : Held c₀ n₀ s) : Held c₀ n₀ (State.stopQueue s pf q) := by
  unfold State.stopQueue
  repeat' first
    | with_reducible assumption
    | with_reducible apply State.preemptLaunch_held
    | (with_reducible refine foldl_held (fun _ _ _ => ?_) _ ?_)

theorem State.suspendQueue_held {pf : Nat} {q : Nat} (hk : Held c₀ n₀ s) : Held c₀ n₀ (State.suspendQueue s pf q) := by
  unfold State.suspendQueue
  repeat' first
    | with_reducible assumption
    | with_reducible apply State.modQueue_held
    | with_reducible apply State.stopQueue_held
    | with_reducible refine Held.cells ?_
    | (refine Held.of_cells ?_; dsimp only)

theorem execQueueSuspend_held {pf : Nat} {q : Nat} (hk : Held c₀ n₀ s) : Out c₀ n₀ (execQueueSuspend pf q s) := by
  unfold execQueueSuspend
  repeat' first
    | with_reducible assumption
    | with_reducible apply State.suspendQueue_held
    | split
    | with_reducible apply Out.next

theorem State.resumeQueue_held {pf : Nat} {q : Nat} (hk : Held c₀ n₀ s) : Held c₀ n₀ (State.resumeQueue s pf q) := by
  unfold State.resumeQueue
  repeat' first
    | with_reducible assumption
    | with_reducible apply State.modQueue_held
    | with_reducible apply State.writeHead_held
    | with_reducible refine Held.cells ?_
    | (refine Held.of_cells ?_; dsimp only)
    | with_reducible intro _
    | split

theorem execQueueResume_held {pf : Nat} {q : Nat} (hk : Held c₀ n₀ s) : Out c₀ n₀ (execQueueResume pf q s) := by
  unfold execQueueResume
  repeat' first
    | with_reducible assumption
    | with_reducible apply State.resumeQueue_held
    | split
    | with_reducible apply Out.next

theorem execStealRequest_held {die : Nat} (hk : Held c₀ n₀ s) : Out c₀ n₀ (execStealRequest die s) := by
  unfold execStealRequest
  repeat' first
    | with_reducible assumption
    | with_reducible apply State.modLaunch_held
    | with_reducible refine Held.cells ?_
    | with_reducible intro _
    | split
    | with_reducible apply Out.next
    | exact True.intro
    | dsimp only

theorem execRunListWrite_held {die : Nat} {pf : Nat} {rows : List (Nat × Nat × Nat)} (hk : Held c₀ n₀ s) :
    Out c₀ n₀ (execRunListWrite die pf rows s) := by
  unfold execRunListWrite
  repeat' first
    | with_reducible assumption
    | with_reducible apply State.modDie_held
    | with_reducible apply State.queueEvent_held
    | with_reducible refine Held.cells ?_
    | (with_reducible refine foldl_held (fun _ _ _ => ?_) _ ?_)
    | with_reducible intro _
    | split
    | with_reducible apply Out.next

/-! ### Power -/

theorem State.modPower_held {f : Power → Power} (hk : Held c₀ n₀ s) : Held c₀ n₀ (State.modPower s f) := by
  unfold State.modPower
  repeat' first
    | with_reducible assumption
    | with_reducible refine Held.cells ?_
    | (refine Held.of_cells ?_; dsimp only)

theorem State.setLayers_held (hk : Held c₀ n₀ s) : Held c₀ n₀ (State.setLayers s) := by
  unfold State.setLayers
  repeat' first
    | with_reducible assumption
    | with_reducible apply State.modPower_held

theorem State.endWindow_held {energy : Nat} (hk : Held c₀ n₀ s) : Held c₀ n₀ (State.endWindow s energy) := by
  unfold State.endWindow
  repeat' first
    | with_reducible assumption
    | with_reducible apply Env.checked_held
    | with_reducible apply State.modPower_held
    | with_reducible apply State.setLayers_held

theorem State.endDue_held (hk : Held c₀ n₀ s) : Held c₀ n₀ (State.endDue s) := by
  unfold State.endDue
  repeat' first
    | with_reducible assumption
    | with_reducible apply State.endWindow_held
    | with_reducible refine Held.cells ?_
    | (refine Held.of_cells ?_; dsimp only)
    | split

theorem execPowerWindowEnd_held {energy : Nat} (hk : Held c₀ n₀ s) : Out c₀ n₀ (execPowerWindowEnd energy s) := by
  unfold execPowerWindowEnd
  repeat' first
    | with_reducible assumption
    | with_reducible apply State.endWindow_held
    | split
    | with_reducible apply Out.next
    | exact True.intro
    | dsimp only

theorem execBudgetReached_held {energy : Nat} (hk : Held c₀ n₀ s) : Out c₀ n₀ (execBudgetReached energy s) := by
  unfold execBudgetReached
  repeat' first
    | with_reducible assumption
    | with_reducible apply State.modPower_held
    | with_reducible apply State.setLayers_held
    | with_reducible apply State.endDue_held
    | with_reducible refine Held.cells ?_
    | with_reducible intro _
    | split
    | with_reducible apply Out.next
    | exact True.intro
    | dsimp only

theorem execOperatingPointChange_held {quad : Nat} {point : Nat} (hk : Held c₀ n₀ s) :
    Out c₀ n₀ (execOperatingPointChange quad point s) := by
  unfold execOperatingPointChange
  repeat' first
    | with_reducible assumption
    | with_reducible apply State.modPower_held
    | with_reducible refine Held.cells ?_
    | with_reducible intro _
    | split
    | with_reducible apply Out.next

theorem execBallastRamp_held {quad : Nat} {energy : Nat} (hk : Held c₀ n₀ s) : Out c₀ n₀ (execBallastRamp quad energy s) := by
  unfold execBallastRamp
  repeat' first
    | with_reducible assumption
    | with_reducible apply Env.checked_held
    | with_reducible apply State.modPower_held
    | with_reducible apply State.setLayers_held
    | with_reducible apply State.endDue_held
    | with_reducible refine Held.cells ?_
    | with_reducible intro _
    | split
    | with_reducible apply Out.next

theorem State.noticed_held {d : Nat} (hk : Held c₀ n₀ s) : Held c₀ n₀ (State.noticed s d) := by
  unfold State.noticed
  repeat' first
    | with_reducible assumption
    | with_reducible apply State.modDie_held

theorem execDroop_held {cluster : Nat} (hk : Held c₀ n₀ s) : Out c₀ n₀ (execDroop cluster s) := by
  unfold execDroop
  repeat' first
    | with_reducible assumption
    | with_reducible apply State.systemEvent_held
    | with_reducible apply State.modPower_held
    | with_reducible apply State.noticed_held
    | with_reducible refine Held.cells ?_
    | with_reducible intro _
    | split
    | with_reducible apply Out.next
    | exact True.intro
    | dsimp only

theorem State.loseStolen_held {d : Nat} (hk : Held c₀ n₀ s) : Held c₀ n₀ (State.loseStolen s d) := by
  unfold State.loseStolen
  repeat' first
    | with_reducible assumption
    | with_reducible apply State.dropTeam_held
    | with_reducible apply State.endLaunch_held
    | with_reducible refine Held.cells ?_
    | (with_reducible refine foldl_held (fun _ _ _ => ?_) _ ?_)
    | (refine Held.of_cells ?_; dsimp only)

theorem State.removePower_held {d : Nat} {cause : Nat} (hk : Held c₀ n₀ s) {r_ : State × Nat} (eq₀ :
    (State.removePower s d cause) = r_) : Held c₀ n₀ r_.1 := by
  subst eq₀
  unfold State.removePower
  repeat' first
    | with_reducible assumption
    | with_reducible apply State.modDie_held
    | with_reducible refine State.terminateAll_held ?_ ‹_›
    | with_reducible refine State.terminateAll_held ?_ rfl
    | with_reducible apply State.loseStolen_held
    | with_reducible refine Held.cells ?_
    | with_reducible apply Cells.clear
    | with_reducible apply Cells.filter
    | (refine Held.of_cells ?_; dsimp only)

theorem execPowerRemoved_held {die : Nat} {temp : Int} (hk : Held c₀ n₀ s) : Out c₀ n₀ (execPowerRemoved die temp s) := by
  unfold execPowerRemoved
  repeat' first
    | with_reducible assumption
    | with_reducible apply State.systemEvent_held
    | with_reducible apply State.refuseGangs_held
    | with_reducible refine State.removePower_held ?_ ‹_›
    | with_reducible refine State.removePower_held ?_ rfl
    | split
    | with_reducible apply Out.next

theorem State.tripWarn_held {d : Nat} {temp : Int} {sensor : Nat} (hk : Held c₀ n₀ s) :
    Held c₀ n₀ (State.tripWarn s d temp sensor) := by
  unfold State.tripWarn
  repeat' first
    | with_reducible assumption
    | with_reducible apply State.modDie_held
    | with_reducible apply State.systemEvent_held
    | with_reducible refine Held.cells ?_
    | with_reducible intro _
    | split

theorem State.tripThrottle_held {d : Nat} {temp : Int} {sensor : Nat} (hk : Held c₀ n₀ s) :
    Held c₀ n₀ (State.tripThrottle s d temp sensor) := by
  unfold State.tripThrottle
  repeat' first
    | with_reducible assumption
    | with_reducible apply State.modDie_held
    | with_reducible apply State.systemEvent_held
    | with_reducible apply State.modPower_held
    | with_reducible apply State.setLayers_held
    | with_reducible refine Held.cells ?_
    | (refine Held.of_cells ?_; dsimp only)
    | with_reducible intro _
    | split

theorem State.preemptDie_held {d : Nat} (hk : Held c₀ n₀ s) : Held c₀ n₀ (State.preemptDie s d) := by
  unfold State.preemptDie
  repeat' first
    | with_reducible assumption
    | with_reducible apply State.preemptLaunch_held
    | (with_reducible refine foldl_held (fun _ _ _ => ?_) _ ?_)
    | with_reducible intro _
    | split

theorem State.haltDue_held {d : Nat} (hk : Held c₀ n₀ s) : Held c₀ n₀ (State.haltDue s d) := by
  unfold State.haltDue
  repeat' first
    | with_reducible assumption
    | with_reducible apply State.modDie_held
    | with_reducible apply State.systemEvent_held
    | with_reducible apply State.refuseGangs_held
    | with_reducible refine Held.cells ?_
    | (refine Held.of_cells ?_; dsimp only)
    | with_reducible intro _
    | split

theorem State.tripHalt_held {d : Nat} {temp : Int} {sensor : Nat} (hk : Held c₀ n₀ s) :
    Held c₀ n₀ (State.tripHalt s d temp sensor) := by
  unfold State.tripHalt
  repeat' first
    | with_reducible assumption
    | with_reducible apply State.modDie_held
    | with_reducible apply State.systemEvent_held
    | with_reducible apply State.preemptDie_held
    | with_reducible apply State.haltDue_held
    | with_reducible refine Held.cells ?_
    | (refine Held.of_cells ?_; dsimp only)
    | with_reducible intro _
    | split

theorem execThermalSample_held {die : Nat} {temp : Int} {sensor : Nat} (hk : Held c₀ n₀ s) :
    Out c₀ n₀ (execThermalSample die temp sensor s) := by
  unfold execThermalSample
  repeat' first
    | with_reducible assumption
    | with_reducible apply State.tripWarn_held
    | with_reducible apply State.tripThrottle_held
    | with_reducible apply State.tripHalt_held
    | split
    | with_reducible apply Out.next

theorem execRegulatorFault_held {die : Nat} {sensor : Nat} (hk : Held c₀ n₀ s) :
    Out c₀ n₀ (execRegulatorFault die sensor s) := by
  unfold execRegulatorFault
  repeat' first
    | with_reducible assumption
    | with_reducible apply State.modDie_held
    | with_reducible apply State.systemEvent_held
    | with_reducible apply State.terminate_held
    | with_reducible apply State.refuseGangs_held
    | with_reducible refine State.removePower_held ?_ ‹_›
    | with_reducible refine State.removePower_held ?_ rfl
    | with_reducible refine Held.cells ?_
    | (with_reducible refine foldl_held (fun _ _ _ => ?_) _ ?_)
    | with_reducible intro _
    | split
    | with_reducible apply Out.next

/-! ### HostWindow -/

theorem State.modWindow_held {pf : Nat} {f : Window → Window} (hk : Held c₀ n₀ s) : Held c₀ n₀ (State.modWindow s pf f) := by
  unfold State.modWindow
  repeat' first
    | with_reducible assumption
    | with_reducible refine Held.cells ?_
    | (refine Held.of_cells ?_; dsimp only)

theorem State.ctxStat_held {pf : Nat} {num : Nat} {status : Nat} (hk : Held c₀ n₀ s) :
    Held c₀ n₀ (State.ctxStat s pf num status) := by
  unfold State.ctxStat
  repeat' first
    | with_reducible assumption
    | with_reducible apply State.modWindow_held

theorem State.newContext_held {pf : Nat} (hk : Held c₀ n₀ s) {r_ : State × Nat × Nat} (eq₀ : (State.newContext s pf) = r_) :
    Held c₀ n₀ r_.1 := by
  subst eq₀
  unfold State.newContext
  repeat' first
    | with_reducible assumption
    | with_reducible refine Held.cells ?_
    | with_reducible apply Cells.clear
    | with_reducible apply Cells.filter
    | (with_reducible refine Cells.fold ?_ (fun _ _ _ => ?_) _)
    | (with_reducible refine foldl_held (fun _ _ _ => ?_) _ ?_)
    | (refine Held.of_cells ?_; dsimp only)
    | with_reducible intro _
    | split

theorem execCreateContext_held {pf : Nat} (hk : Held c₀ n₀ s) : Out c₀ n₀ (execCreateContext pf s) := by
  unfold execCreateContext
  repeat' first
    | with_reducible assumption
    | with_reducible apply State.ctxStat_held
    | with_reducible refine State.newContext_held ?_ ‹_›
    | with_reducible refine State.newContext_held ?_ rfl
    | split
    | with_reducible apply Out.next

theorem State.dropContext_held {pf : Nat} {num : Nat} (hk : Held c₀ n₀ s) : Held c₀ n₀ (State.dropContext s pf num) := by
  unfold State.dropContext
  repeat' first
    | with_reducible assumption
    | with_reducible apply State.killContext_held
    | with_reducible apply State.ctxStat_held
    | with_reducible refine Held.cells ?_
    | split

theorem execDestroyContext_held {pf : Nat} {num : Nat} (hk : Held c₀ n₀ s) : Out c₀ n₀ (execDestroyContext pf num s) := by
  unfold execDestroyContext
  repeat' first
    | with_reducible assumption
    | with_reducible apply State.dropContext_held
    | split
    | with_reducible apply Out.next

theorem State.newQueue_held {pf : Nat} (hk : Held c₀ n₀ s) {r_ : State × Nat × Nat} (eq₀ : (State.newQueue s pf) = r_) :
    Held c₀ n₀ r_.1 := by
  subst eq₀
  unfold State.newQueue
  repeat' first
    | with_reducible assumption
    | with_reducible refine Held.cells ?_
    | (refine Held.of_cells ?_; dsimp only)
    | with_reducible intro _
    | split

theorem execCreateQueue_held {pf : Nat} (hk : Held c₀ n₀ s) : Out c₀ n₀ (execCreateQueue pf s) := by
  unfold execCreateQueue
  repeat' first
    | with_reducible assumption
    | with_reducible apply State.ctxStat_held
    | with_reducible refine State.newQueue_held ?_ ‹_›
    | with_reducible refine State.newQueue_held ?_ rfl
    | split
    | with_reducible apply Out.next

theorem State.dropQueue_held {pf : Nat} {num : Nat} (hk : Held c₀ n₀ s) : Held c₀ n₀ (State.dropQueue s pf num) := by
  unfold State.dropQueue
  repeat' first
    | with_reducible assumption
    | with_reducible apply State.killQueue_held
    | with_reducible apply State.ctxStat_held
    | with_reducible refine Held.cells ?_
    | split

theorem execDestroyQueue_held {pf : Nat} {num : Nat} (hk : Held c₀ n₀ s) : Out c₀ n₀ (execDestroyQueue pf num s) := by
  unfold execDestroyQueue
  repeat' first
    | with_reducible assumption
    | with_reducible apply State.dropQueue_held
    | split
    | with_reducible apply Out.next

theorem State.writeCap_held {pf : Nat} {v : Word} (hk : Held c₀ n₀ s) : Held c₀ n₀ (State.writeCap s pf v) := by
  unfold State.writeCap
  repeat' first
    | with_reducible assumption
    | with_reducible apply State.modPower_held
    | with_reducible apply State.endDue_held
    | with_reducible refine Held.cells ?_
    | (refine Held.of_cells ?_; dsimp only)
    | with_reducible intro _
    | split

theorem execPcap_held {pf : Nat} {v : Word} (hk : Held c₀ n₀ s) : Out c₀ n₀ (execPcap pf v s) := by
  unfold execPcap
  repeat' first
    | with_reducible assumption
    | with_reducible apply State.writeCap_held
    | split
    | with_reducible apply Out.next

theorem State.clearSticky_held {pf : Nat} {v : Word} (hk : Held c₀ n₀ s) : Held c₀ n₀ (State.clearSticky s pf v) := by
  unfold State.clearSticky
  repeat' first
    | with_reducible assumption
    | with_reducible refine Held.cells ?_
    | (refine Held.of_cells ?_; dsimp only)
    | split

theorem execSysstat_held {pf : Nat} {v : Word} (hk : Held c₀ n₀ s) : Out c₀ n₀ (execSysstat pf v s) := by
  unfold execSysstat
  repeat' first
    | with_reducible assumption
    | with_reducible apply State.clearSticky_held
    | split
    | with_reducible apply Out.next

theorem State.bar4Write_held {pf : Nat} {off : Nat} {bs : List Byte} (hk : Held c₀ n₀ s) :
    Held c₀ n₀ (State.bar4Write s pf off bs) := by
  unfold State.bar4Write
  repeat' first
    | with_reducible assumption
    | with_reducible apply State.conflictRange_held
    | with_reducible apply State.touch_held
    | with_reducible refine Held.cells ?_
    | with_reducible apply Cells.set
    | (with_reducible refine Cells.fold ?_ (fun _ _ _ => ?_) _)
    | (with_reducible refine foldl_held (fun _ _ _ => ?_) _ ?_)
    | (refine Held.of_cells ?_; dsimp only)
    | with_reducible intro _
    | split

theorem State.bar4Atomic_held {pf : Nat} {off : Nat} {bs : List Byte} {op : HostOp} (hk : Held c₀ n₀ s) :
    Held c₀ n₀ (State.bar4Atomic s pf off bs op) := by
  unfold State.bar4Atomic
  repeat' first
    | with_reducible assumption
    | with_reducible apply State.bar4Write_held
    | with_reducible refine Held.cells ?_
    | (refine Held.of_cells ?_; dsimp only)
    | split

theorem State.bar4_held {pf : Nat} {off : Nat} {bytes : List Byte} {op : HostOp} (hk : Held c₀ n₀ s) :
    Held c₀ n₀ (State.bar4 s pf off bytes op) := by
  unfold State.bar4
  repeat' first
    | with_reducible assumption
    | with_reducible apply State.conflictRange_held
    | with_reducible apply State.bar4Write_held
    | with_reducible apply State.bar4Atomic_held
    | with_reducible refine Held.cells ?_
    | (refine Held.of_cells ?_; dsimp only)
    | split

theorem execBar4Access_held {pf : Nat} {off : Nat} {bytes : List Byte} {op : HostOp} (hk : Held c₀ n₀ s) :
    Out c₀ n₀ (execBar4Access pf off bytes op s) := by
  unfold execBar4Access
  repeat' first
    | with_reducible assumption
    | with_reducible apply State.bar4_held
    | split
    | with_reducible apply Out.next

theorem State.hostRead_held {pf : Nat} {bar : Nat} {off : Nat} {width : Nat} (hk : Held c₀ n₀ s) :
    Held c₀ n₀ (State.hostRead s pf bar off width) := by
  unfold State.hostRead
  repeat' first
    | with_reducible assumption
    | with_reducible apply State.bar4_held
    | with_reducible refine Held.cells ?_
    | (refine Held.of_cells ?_; dsimp only)
    | split

theorem State.vfAssign_held {pf : Nat} {vf : Nat} {queues : List Nat} (hk : Held c₀ n₀ s) :
    Held c₀ n₀ (State.vfAssign s pf vf queues) := by
  unfold State.vfAssign
  repeat' first
    | with_reducible assumption
    | with_reducible refine Held.cells ?_
    | (refine Held.of_cells ?_; dsimp only)
    | with_reducible intro _
    | split

theorem State.vfWrite_held {pf : Nat} {vf : Nat} {bar : Nat} {off : Nat} {width : Nat} {v : DWord} (hk : Held c₀ n₀ s) :
    Held c₀ n₀ (State.vfWrite s pf vf bar off width v) := by
  unfold State.vfWrite
  repeat' first
    | with_reducible assumption
    | with_reducible apply State.ringDoorbell_held
    | with_reducible refine Held.cells ?_
    | split

theorem State.vfRead_held {pf : Nat} {vf : Nat} {bar : Nat} {off : Nat} {width : Nat} (hk : Held c₀ n₀ s) :
    Held c₀ n₀ (State.vfRead s pf vf bar off width) := by
  unfold State.vfRead
  repeat' first
    | with_reducible assumption
    | with_reducible refine Held.cells ?_
    | (refine Held.of_cells ?_; dsimp only)
    | with_reducible intro _
    | split

/-! ### Links -/

theorem State.modLink_held {k : Nat} {f : Link → Link} (hk : Held c₀ n₀ s) : Held c₀ n₀ (State.modLink s k f) := by
  unfold State.modLink
  repeat' first
    | with_reducible assumption
    | with_reducible refine Held.cells ?_
    | (refine Held.of_cells ?_; dsimp only)

theorem State.linkEvent_held {k : Nat} {code : Nat} {status : Nat} {detail : Nat} {writes : Nat → Bool} (hk : Held c₀ n₀ s) :
    Held c₀ n₀ (State.linkEvent s k code status detail writes) := by
  unfold State.linkEvent
  repeat' first
    | with_reducible assumption
    | with_reducible apply State.ctxEvent_held
    | with_reducible refine Held.cells ?_
    | (with_reducible refine foldl_held (fun _ _ _ => ?_) _ ?_)
    | (refine Held.of_cells ?_; dsimp only)
    | with_reducible intro _
    | split

theorem State.failLink_held {k : Nat} (hk : Held c₀ n₀ s) : Held c₀ n₀ (State.failLink s k) := by
  unfold State.failLink
  repeat' first
    | with_reducible assumption
    | with_reducible apply State.modDie_held
    | with_reducible apply State.terminate_held
    | with_reducible apply Env.failed_held
    | with_reducible apply State.refuseGangs_held
    | with_reducible apply State.modLink_held
    | with_reducible apply State.linkEvent_held
    | with_reducible refine Held.cells ?_
    | (with_reducible refine foldl_held (fun _ _ _ => ?_) _ ?_)
    | (refine Held.of_cells ?_; dsimp only)
    | with_reducible intro _
    | split

theorem execFlitReplay_held {link : Nat} {again : Bool} (hk : Held c₀ n₀ s) : Out c₀ n₀ (execFlitReplay link again s) := by
  unfold execFlitReplay
  repeat' first
    | with_reducible assumption
    | with_reducible apply Env.failed_held
    | with_reducible apply State.modLink_held
    | with_reducible refine Held.cells ?_
    | with_reducible intro _
    | split
    | with_reducible apply Out.next

theorem execLinkRetrain_held {link : Nat} (hk : Held c₀ n₀ s) : Out c₀ n₀ (execLinkRetrain link s) := by
  unfold execLinkRetrain
  repeat' first
    | with_reducible assumption
    | with_reducible apply Env.failed_held
    | with_reducible apply State.modLink_held
    | with_reducible apply State.failLink_held
    | with_reducible refine Held.cells ?_
    | with_reducible intro _
    | split
    | with_reducible apply Out.next
    | exact True.intro
    | dsimp only

theorem State.retrained_held {k : Nat} (hk : Held c₀ n₀ s) : Held c₀ n₀ (State.retrained s k) := by
  unfold State.retrained
  repeat' first
    | with_reducible assumption
    | with_reducible apply State.noticed_held
    | with_reducible apply State.modLink_held
    | with_reducible apply State.linkEvent_held
    | with_reducible refine Held.cells ?_
    | (with_reducible refine foldl_held (fun _ _ _ => ?_) _ ?_)
    | (refine Held.of_cells ?_; dsimp only)
    | with_reducible intro _
    | split

theorem execLinkRetrainEnd_held {link : Nat} {ok : Bool} (hk : Held c₀ n₀ s) : Out c₀ n₀ (execLinkRetrainEnd link ok s) := by
  unfold execLinkRetrainEnd
  repeat' first
    | with_reducible assumption
    | with_reducible apply State.modLink_held
    | with_reducible apply State.failLink_held
    | with_reducible apply State.retrained_held
    | with_reducible refine Held.cells ?_
    | with_reducible intro _
    | split
    | with_reducible apply Out.next

theorem execHostLinkDown_held (hk : Held c₀ n₀ s) : Out c₀ n₀ (execHostLinkDown s) := by
  unfold execHostLinkDown
  repeat' first
    | with_reducible assumption
    | with_reducible apply State.terminate_held
    | with_reducible apply State.killContext_held
    | with_reducible refine Held.cells ?_
    | (with_reducible refine foldl_held (fun _ _ _ => ?_) _ ?_)
    | (refine Held.of_cells ?_; dsimp only)
    | with_reducible intro _
    | split
    | with_reducible apply Out.next

theorem execHostLinkUp_held (hk : Held c₀ n₀ s) : Out c₀ n₀ (execHostLinkUp s) := by
  unfold execHostLinkUp
  repeat' first
    | with_reducible assumption
    | with_reducible refine Held.cells ?_
    | (refine Held.of_cells ?_; dsimp only)

theorem State.noteCorrected_held {d : Nat} {n : Nat} {detail : Nat} (hk : Held c₀ n₀ s) :
    Held c₀ n₀ (State.noteCorrected s d n detail) := by
  unfold State.noteCorrected
  repeat' first
    | with_reducible assumption
    | with_reducible apply State.modDie_held
    | with_reducible apply State.systemEvent_held
    | with_reducible refine Held.cells ?_
    | (refine Held.of_cells ?_; dsimp only)
    | with_reducible intro _
    | split

theorem State.dieDataError_held {d : Nat} {detail : Nat} (hk : Held c₀ n₀ s) : Held c₀ n₀ (State.dieDataError s d detail) := by
  unfold State.dieDataError
  repeat' first
    | with_reducible assumption
    | with_reducible apply State.systemEvent_held
    | with_reducible refine State.terminateAll_held ?_ ‹_›
    | with_reducible refine State.terminateAll_held ?_ rfl

theorem execPatrolScrub_held {die : Nat} {word : Nat} {corrected : Nat} (hk : Held c₀ n₀ s) :
    Out c₀ n₀ (execPatrolScrub die word corrected s) := by
  unfold execPatrolScrub
  repeat' first
    | with_reducible assumption
    | with_reducible apply State.noteCorrected_held
    | with_reducible apply State.dieDataError_held
    | split
    | with_reducible apply Out.next
    | exact True.intro
    | dsimp only

/-! ### Firmware -/

theorem Cells.putMeta {m : Memory} {f : Firmware} (h : Cells c₀ n₀ m f) (x : Metadata) :
    Cells c₀ n₀ (m.putMeta x) f := Cells.write h _ _
theorem Cells.cutMeta {m : Memory} {f : Firmware} (h : Cells c₀ n₀ m f) : Cells c₀ n₀ m.cutMeta f := Cells.clear h _ _
theorem Cells.raise {m : Memory} {f g : Firmware} (h : Cells c₀ n₀ m f) (hf : f.floor ≤ g.floor) : Cells c₀ n₀ m g :=
  ⟨h.1, Nat.le_trans h.2 hf⟩

theorem State.modFw_held {f : Firmware → Firmware} (hk : Held c₀ n₀ s) (hf : s.fw.floor ≤ (f s.fw).floor) :
    Held c₀ n₀ (s.modFw f) :=
  Cells.raise hk hf

theorem State.fwResult_held {r : Nat} (hk : Held c₀ n₀ s) : Held c₀ n₀ (s.fwResult r) := hk

theorem State.putFw_held {m : Memory} {f : Firmware} (h : Cells c₀ n₀ m f) : Held c₀ n₀ (s.putFw m f) := h

theorem State.stage_held (hk : Held c₀ n₀ s) : Held c₀ n₀ s.stage := by
  unfold State.stage
  extract_lets s'
  have h1 : Held c₀ n₀ s' := by
    unfold s'
    split <;> exact hk
  clear_value s'
  split
  split
  · exact h1
  · exact ⟨(Cells.copy hk _ _ _).1, hk.2⟩

theorem State.fwRow_held {f : State → State} (hk : Held c₀ n₀ s) (hf : ∀ s, Held c₀ n₀ s → Held c₀ n₀ (f s)) :
    Held c₀ n₀ (s.fwRow f) := by
  unfold State.fwRow
  split
  · exact hf _ hk
  · exact hk

theorem execStage_held (hk : Held c₀ n₀ s) : Out c₀ n₀ (execStage s) := State.fwRow_held hk fun _ h => State.stage_held h

theorem State.setActive_held {b : Bool} {t : Option Accepted} (hk : Held c₀ n₀ s) : Held c₀ n₀ (s.setActive b t) :=
  State.putFw_held (Cells.putMeta (Cells.raise hk (Nat.le_refl s.fw.floor)) _)

theorem State.activate_held {b : Bool} (hk : Held c₀ n₀ s) : Held c₀ n₀ (s.activate b) := by
  unfold State.activate
  extract_lets r judged r' token
  clear_value r' token
  split
  · exact hk
  · split
    · exact hk
    · exact State.setActive_held hk

theorem execActivate_held {bank : Bool} (hk : Held c₀ n₀ s) : Out c₀ n₀ (execActivate bank s) :=
  State.fwRow_held hk fun _ h => State.activate_held h

theorem Firmware.blow_floor {f : Firmware} {n : Nat} : f.floor ≤ (f.blow n).floor :=
  Nat.le_min.2 ⟨Nat.le_add_right _ _, Nat.le_max_left _ _⟩

theorem State.commitFw_held (hk : Held c₀ n₀ s) : Held c₀ n₀ s.commitFw := by
  unfold State.commitFw
  split
  · exact State.putFw_held (Cells.raise (Cells.putMeta hk _) Firmware.blow_floor)
  · exact hk

theorem execCommit_held (hk : Held c₀ n₀ s) : Out c₀ n₀ (execCommit s) := State.fwRow_held hk fun _ h => State.commitFw_held h

theorem State.countersign_held (hk : Held c₀ n₀ s) : Held c₀ n₀ s.countersign := by
  unfold State.countersign
  split
  · exact hk
  · split
    · exact hk
    · extract_lets modulus
      split
      · split
        · exact State.setActive_held hk
        · exact State.modFw_held hk (Nat.le_refl _)
      · exact State.modFw_held hk (Nat.le_refl _)

theorem execCountersign_held (hk : Held c₀ n₀ s) : Out c₀ n₀ (execCountersign s) :=
  State.fwRow_held hk fun _ h => State.countersign_held h

theorem Firmware.boot_floor {f : Firmware} {m : Memory} {lost : List Bool} : (f.boot m lost).floor = f.floor := by
  unfold Firmware.boot; dsimp only; split <;> rfl

theorem State.rebooted_held {s : State} {m : Memory} {fw : Firmware} {lost : List Bool} (h : Cells c₀ n₀ m fw) :
    Held c₀ n₀ (s.rebooted m fw lost) :=
  Cells.raise (Cells.filter h _) (Nat.le_of_eq Firmware.boot_floor.symm)

theorem State.cutStage_cells (hk : Held c₀ n₀ s) : Cells c₀ n₀ s.cutStage s.fw := by
  unfold State.cutStage
  split
  · exact Cells.clear hk _ _
  · exact hk

theorem execPackageReset_held {cut : Bool} {lost : List Bool} (hk : Held c₀ n₀ s) :
    Out c₀ n₀ (execPackageReset cut lost s) := by
  cases cut
  · exact State.rebooted_held hk
  · exact State.rebooted_held (State.cutStage_cells hk)

theorem State.cutUpdate_held {during : Option FwUpdate} {blown : Nat} {done : Bool} (hk : Held c₀ n₀ s) :
    Held c₀ n₀ (s.cutUpdate during blown done) := by
  have hc : ∀ {m : Memory} {f : Firmware}, Cells c₀ n₀ m f → Cells c₀ n₀ s.mem.cutMeta f → Cells c₀ n₀ (if done then m else s.mem.cutMeta) f := by
    intro m f h1 h2; cases done
    · exact h2
    · exact h1
  unfold State.cutUpdate
  split
  · exact hk
  · extract_lets m
    have h1 : Cells c₀ n₀ m s.fw := ⟨(State.activate_held hk).1, hk.2⟩
    clear_value m
    split
    · exact hk
    · exact State.putFw_held (hc h1 (Cells.cutMeta hk))
  · split
    · have h2 : Cells c₀ n₀ s.mem (s.fw.blow blown) := Cells.raise hk Firmware.blow_floor
      exact State.putFw_held (hc (Cells.putMeta h2 _) (Cells.cutMeta h2))
    · exact hk

theorem execPackagePowerLoss_held {during : Option FwUpdate} {blown : Nat} {done : Bool} (hk : Held c₀ n₀ s) :
    Out c₀ n₀ (execPackagePowerLoss during blown done s) :=
  State.rebooted_held (State.cutStage_cells (State.cutUpdate_held hk))

theorem State.pavilionFault_held {d : Nat} {cause : Nat} (hk : Held c₀ n₀ s) : Held c₀ n₀ (State.pavilionFault s d cause) := by
  unfold State.pavilionFault
  repeat' first
    | with_reducible assumption
    | with_reducible apply State.modDie_held
    | with_reducible refine State.terminateAll_held ?_ ‹_›
    | with_reducible refine State.terminateAll_held ?_ rfl
    | with_reducible apply State.refuseGangs_held
    | with_reducible apply State.loseStolen_held
    | with_reducible refine Held.cells ?_
    | (refine Held.of_cells ?_; dsimp only)
    | with_reducible intro _
    | split

theorem execSchedulerFirmwareFault_held {die : Nat} (hk : Held c₀ n₀ s) : Out c₀ n₀ (execSchedulerFirmwareFault die s) := by
  unfold execSchedulerFirmwareFault
  repeat' first
    | with_reducible assumption
    | with_reducible apply State.pavilionFault_held
    | split
    | with_reducible apply Out.next

theorem execBitstreamIntegrityFault_held {die : Nat} (hk : Held c₀ n₀ s) : Out c₀ n₀ (execBitstreamIntegrityFault die s) := by
  unfold execBitstreamIntegrityFault
  repeat' first
    | with_reducible assumption
    | with_reducible apply State.pavilionFault_held
    | split
    | with_reducible apply Out.next

theorem State.writeCtxCmd_held {pf : Nat} {v : Nat} (hk : Held c₀ n₀ s) : Held c₀ n₀ (State.writeCtxCmd s pf v) := by
  unfold State.writeCtxCmd
  repeat' first
    | with_reducible assumption
    | with_reducible apply State.ctxStat_held
    | with_reducible refine State.newContext_held ?_ ‹_›
    | with_reducible refine State.newContext_held ?_ rfl
    | with_reducible apply State.dropContext_held
    | with_reducible refine State.newQueue_held ?_ ‹_›
    | with_reducible refine State.newQueue_held ?_ rfl
    | with_reducible apply State.dropQueue_held
    | split
    | dsimp only

theorem State.writeFwCmd_held {v : Nat} (hk : Held c₀ n₀ s) : Held c₀ n₀ (State.writeFwCmd s v) := by
  unfold State.writeFwCmd
  repeat' first
    | with_reducible assumption
    | with_reducible apply State.fwResult_held
    | with_reducible apply State.stage_held
    | with_reducible apply State.activate_held
    | with_reducible apply State.commitFw_held
    | with_reducible apply State.countersign_held
    | split

theorem State.lodge_held {o : Option Nat} (hk : Held c₀ n₀ s) : Held c₀ n₀ (s.lodge o) := by
  unfold State.lodge
  split
  · split
    · exact State.modFw_held hk (Nat.le_refl _)
    · split
      · exact hk
      · exact State.writeFwCmd_held (State.modFw_held hk (Nat.le_refl _))
  · split
    · exact State.writeCtxCmd_held (State.modWindow_held hk)
    · exact hk

theorem State.writeBar0_held {pf off : Nat} {v : DWord} (hk : Held c₀ n₀ s) : Held c₀ n₀ (s.writeBar0 pf off v) := by
  unfold State.writeBar0
  dsimp only
  repeat' first
    | with_reducible assumption
    | split
    | with_reducible apply State.modWindow_held
    | with_reducible apply State.writeCtxCmd_held
    | with_reducible apply State.suspendQueue_held
    | with_reducible apply State.resumeQueue_held
    | with_reducible apply State.placementReply_held
    | with_reducible apply State.clearSticky_held
    | with_reducible apply State.writeCap_held
    | with_reducible apply State.writeFwCmd_held
    | exact State.modFw_held hk (Nat.le_refl _)

theorem State.writeRegister_held {pf : Nat} {bar : Nat} {off : Nat} {width : Nat} {v : DWord} (hk : Held c₀ n₀ s) :
    Held c₀ n₀ (State.writeRegister s pf bar off width v) := by
  unfold State.writeRegister
  repeat' first
    | with_reducible assumption
    | with_reducible apply State.ringDoorbell_held
    | with_reducible apply State.bar4_held
    | with_reducible apply State.writeBar0_held
    | split

theorem execRegisterWrite_held {pf : Nat} {bar : Nat} {off : Nat} {width : Nat} {v : DWord} (hk : Held c₀ n₀ s) :
    Out c₀ n₀ (execRegisterWrite pf bar off width v s) := by
  unfold execRegisterWrite
  repeat' first
    | with_reducible assumption
    | with_reducible apply State.writeRegister_held
    | split
    | with_reducible apply Out.next

/-! ### Management -/

theorem State.answer_held {a : Answer} (hk : Held c₀ n₀ s) : Held c₀ n₀ (State.answer s a) := by
  unfold State.answer
  repeat' first
    | with_reducible assumption
    | with_reducible refine Held.cells ?_
    | (refine Held.of_cells ?_; dsimp only)

theorem State.ready_held {f : State → State} (hk : Held c₀ n₀ s) (h_f : ∀ (a0 : State), Held c₀ n₀ a0 → Held c₀ n₀ (f a0)) :
    Held c₀ n₀ (State.ready s f) := by
  unfold State.ready
  repeat' first
    | with_reducible assumption
    | with_reducible apply h_f
    | with_reducible apply State.answer_held
    | with_reducible intro _
    | split

theorem State.spdm_held {version : Nat} {need : List Session} {f : State → State} (hk : Held c₀ n₀ s) (h_f : ∀
    (a0 : State), Held c₀ n₀ a0 → Held c₀ n₀ (f a0)) : Held c₀ n₀ (State.spdm s version need f) := by
  unfold State.spdm
  repeat' first
    | with_reducible assumption
    | with_reducible apply h_f
    | with_reducible apply State.answer_held
    | with_reducible apply State.ready_held
    | with_reducible intro _
    | split

theorem execGetVersion_held (hk : Held c₀ n₀ s) : Out c₀ n₀ (execGetVersion s) := by
  unfold execGetVersion
  repeat' first
    | with_reducible assumption
    | with_reducible apply State.answer_held
    | with_reducible apply State.ready_held
    | with_reducible refine Held.cells ?_
    | (refine Held.of_cells ?_; dsimp only)
    | with_reducible intro _
    | split
    | with_reducible apply Out.next

theorem execGetCapabilities_held {version : Nat} (hk : Held c₀ n₀ s) : Out c₀ n₀ (execGetCapabilities version s) := by
  unfold execGetCapabilities
  repeat' first
    | with_reducible assumption
    | with_reducible apply State.answer_held
    | with_reducible apply State.spdm_held
    | with_reducible refine Held.cells ?_
    | (refine Held.of_cells ?_; dsimp only)
    | with_reducible intro _
    | split
    | with_reducible apply Out.next

theorem execNegotiateAlgorithms_held {version : Nat} {asym : List Nat} {hash : List Nat} {meas : MeasurementOffer}
    (hk : Held c₀ n₀ s) : Out c₀ n₀ (execNegotiateAlgorithms version asym hash meas s) := by
  unfold execNegotiateAlgorithms
  repeat' first
    | with_reducible assumption
    | with_reducible apply State.answer_held
    | with_reducible apply State.spdm_held
    | with_reducible refine Held.cells ?_
    | (refine Held.of_cells ?_; dsimp only)
    | with_reducible intro _

theorem execGetDigests_held {version : Nat} (hk : Held c₀ n₀ s) : Out c₀ n₀ (execGetDigests version s) := by
  unfold execGetDigests
  repeat' first
    | with_reducible assumption
    | with_reducible apply State.answer_held
    | with_reducible apply State.spdm_held
    | with_reducible intro _
    | split
    | with_reducible apply Out.next

theorem execGetCertificate_held {version : Nat} {slot : Nat} {offset : Nat} {length : Nat} (hk : Held c₀ n₀ s) :
    Out c₀ n₀ (execGetCertificate version slot offset length s) := by
  unfold execGetCertificate
  repeat' first
    | with_reducible assumption
    | with_reducible apply State.answer_held
    | with_reducible apply State.spdm_held
    | with_reducible intro _
    | split
    | with_reducible apply Out.next
    | exact True.intro
    | dsimp only

theorem State.respond_held {signed : Bool} {before : List Byte} {f : OpaqueElement → List Byte → Answer} (hk : Held c₀ n₀ s) :
    Held c₀ n₀ (State.respond s signed before f) := by
  unfold State.respond
  repeat' first
    | with_reducible assumption
    | with_reducible apply State.answer_held
    | split
    | dsimp only

theorem execChallenge_held {version : Nat} {slot : Nat} {nonce : List Byte} (hk : Held c₀ n₀ s) :
    Out c₀ n₀ (execChallenge version slot nonce s) := by
  unfold execChallenge
  repeat' first
    | with_reducible assumption
    | with_reducible apply State.answer_held
    | with_reducible apply State.spdm_held
    | with_reducible apply State.respond_held
    | with_reducible intro _
    | split
    | with_reducible apply Out.next

theorem execGetMeasurements_held {version : Nat} {index : Nat} {signed : Bool} {nonce : List Byte} (hk : Held c₀ n₀ s) :
    Out c₀ n₀ (execGetMeasurements version index signed nonce s) := by
  unfold execGetMeasurements
  repeat' first
    | with_reducible assumption
    | with_reducible apply State.answer_held
    | with_reducible apply State.spdm_held
    | with_reducible apply State.respond_held
    | with_reducible intro _
    | split
    | with_reducible apply Out.next
    | exact True.intro
    | dsimp only

theorem execSpdmUnsupportedRequest_held {version : Nat} {_code : Nat} {malformed : Bool} (hk : Held c₀ n₀ s) :
    Out c₀ n₀ (execSpdmUnsupportedRequest version _code malformed s) := by
  unfold execSpdmUnsupportedRequest
  repeat' first
    | with_reducible assumption
    | with_reducible apply State.answer_held
    | with_reducible apply State.ready_held
    | with_reducible intro _
    | split
    | with_reducible apply Out.next

theorem execPldmRequest_held {sensor : Nat} {temp : Int} (hk : Held c₀ n₀ s) : Out c₀ n₀ (execPldmRequest sensor temp s) := by
  unfold execPldmRequest
  repeat' first
    | with_reducible assumption
    | with_reducible apply State.answer_held
    | split
    | with_reducible apply Out.next

theorem execMctpControl_held {msg : List Byte} (hk : Held c₀ n₀ s) : Out c₀ n₀ (execMctpControl msg s) := by
  unfold execMctpControl
  repeat' first
    | with_reducible assumption
    | with_reducible apply State.answer_held
    | split
    | with_reducible apply Out.next

/-! ### Rounds -/



/-! ### Turns -/

theorem State.countCycle_held {c : Nat} (hk : Held c₀ n₀ s) : Held c₀ n₀ (State.countCycle s c) := by
  unfold State.countCycle
  repeat' first
    | with_reducible assumption
    | with_reducible apply State.count_held
    | with_reducible apply Eng.on_held
    | with_reducible refine Eng.Held.of_ok ?_ ‹_›
    | with_reducible refine Eng.Held.of_fault ?_ ‹_›
    | with_reducible refine Eng.Held.of_stay ?_ ‹_›
    | with_reducible refine Eng.Held.of_bad ?_ ‹_›
    | with_reducible refine Held.cells ?_
    | (refine Held.of_cells ?_; dsimp only)
    | with_reducible intro _
    | split

theorem State.tick_held {edges : List Nat} {clusters : List Nat} (hk : Held c₀ n₀ s) :
    Held c₀ n₀ (State.tick s edges clusters) := by
  unfold State.tick
  repeat' first
    | with_reducible assumption
    | with_reducible apply State.retryArrivals_held
    | with_reducible apply State.endDue_held
    | with_reducible apply State.haltDue_held
    | with_reducible apply State.countCycle_held
    | with_reducible refine Held.cells ?_
    | (with_reducible refine foldl_held (fun _ _ _ => ?_) _ ?_)
    | (refine Held.of_cells ?_; dsimp only)
    | with_reducible intro _
    | split

theorem State.chipError_held {die : Nat} {struct : Nat} {unit : Nat} {team : Nat} (hk : Held c₀ n₀ s) :
    Held c₀ n₀ (State.chipError s die struct unit team) := by
  unfold State.chipError
  repeat' first
    | with_reducible assumption
    | with_reducible apply State.systemEvent_held
    | with_reducible apply State.terminate_held
    | with_reducible apply State.rollback_held
    | with_reducible apply State.abortTx_held
    | with_reducible apply State.dieDataError_held
    | with_reducible refine Held.cells ?_
    | (refine Held.of_cells ?_; dsimp only)
    | with_reducible intro _
    | split

theorem State.choose_held {pf : Nat} {ctx : Nat} {bits : Nat} (hk : Held c₀ n₀ s) :
    Held c₀ n₀ (State.choose s pf ctx bits) := by
  unfold State.choose
  repeat' first
    | with_reducible assumption
    | with_reducible apply State.modCtx_held
    | with_reducible apply Eng.on_held
    | with_reducible refine Eng.Held.of_ok ?_ ‹_›
    | with_reducible refine Eng.Held.of_fault ?_ ‹_›
    | with_reducible refine Eng.Held.of_stay ?_ ‹_›
    | with_reducible refine Eng.Held.of_bad ?_ ‹_›
    | with_reducible refine Held.cells ?_
    | (refine Held.of_cells ?_; dsimp only)
    | with_reducible intro _
    | split

theorem State.evictLine_held {core : Nat} {line : Nat} (hk : Held c₀ n₀ s) : Held c₀ n₀ (State.evictLine s core line) := by
  unfold State.evictLine
  repeat' first
    | with_reducible assumption
    | with_reducible apply State.modCore_held
    | with_reducible apply State.dropLine_held
    | with_reducible refine Held.cells ?_
    | with_reducible intro _
    | split

theorem State.pass_held {x : Turn} (hk : Held c₀ n₀ s) : Held c₀ n₀ (s.pass x) := by
  cases x with
  | issue | issueSome | happen => exact hk
  | rmw => exact State.rmwTurn_held hk
  | tick e n =>
    have h : Held c₀ n₀ (s.tick e n) := State.tick_held hk
    exact h
  | hostWrite a bs =>
    change Held c₀ n₀ (if _ then _ else s)
    split
    · exact Cells.write hk _ _
    · exact hk
  | evict c k => exact State.evictLine_held hk
  | evictEngine e i => exact hk
  | evictRo c => exact State.modCore_held (c := c) hk
  | evictCoreTlb c => exact State.modCore_held (c := c) hk
  | evictTlb d => exact State.modDie_held (d := d) hk
  | evictL2 d => exact State.modDie_held (d := d) hk
  | upset | hostError => exact hk
  | chipError => exact State.chipError_held hk
  | corrected => exact State.noteCorrected_held hk
  | hostRead => exact State.hostRead_held hk
  | vfAssign => exact State.vfAssign_held hk
  | vfWrite => exact State.vfWrite_held hk
  | vfRead => exact State.vfRead_held hk
  | choose => exact State.choose_held hk
  | stopQueue => exact State.stopQueue_held hk
  | lodge => exact State.lodge_held hk
  | resend => exact State.resend_held hk

theorem State.nextTurn_held (hk : Held c₀ n₀ s) : Held c₀ n₀ s.nextTurn.2 := by
  unfold State.nextTurn
  split
  · exact hk
  · extract_lets s₁ s₂
    have h1 : Held c₀ n₀ s₂ := by
      have h0 : Held c₀ n₀ s₁ := hk
      clear_value s₁
      unfold s₂
      split
      · exact hk
      · exact h0
    clear_value s₂
    split <;> exact h1

/-! ### Dispatch -/

theorem exec_held {i : Instr} (hk : Held c₀ n₀ s) : Out c₀ n₀ (exec i s) := by
  cases i with
  | nop => exact execNop_held hk
  | bra => exact execBra_held hk
  | braC => exact execBraC_held hk
  | brx => exact execBrx_held hk
  | callx => exact execCallx_held hk
  | call => exact execCall_held hk
  | ret => exact execRet_held hk
  | exit => exact execExit_held hk
  | rep => exact execRep_held hk
  | yield => exact execYield_held hk
  | rfopen => exact execRfopen_held hk
  | rfclose => exact execRfclose_held hk
  | reform => exact execReform_held hk
  | spawn => exact execSpawn_held hk
  | trap => exact execTrap_held hk
  | bkpt => exact execBkpt_held hk
  | eret => exact execEret_held hk
  | halt => exact execHalt_held hk
  | phinit => exact execPhinit_held hk
  | phreg => exact execPhreg_held hk
  | phdrop => exact execPhdrop_held hk
  | pharv => exact execPharv_held hk
  | phwait => exact execPhwait_held hk
  | phaw => exact execPhaw_held hk
  | bars => exact execBars_held hk
  | txbeg => exact execTxbeg_held hk
  | txend => exact execTxend_held hk
  | txabt => exact execTxabt_held hk
  | tilewait => exact execTilewait_held hk
  | fence => exact execFence_held hk
  | csrr => exact execCsrr_held hk
  | csrw => exact execCsrw_held hk
  | ovld => exact execOvld_held hk
  | claim => exact execClaim_held hk
  | cctlRo => exact execCctlRo_held hk
  | iadd => exact execIadd_held hk
  | isub => exact execIsub_held hk
  | iaddc => exact execIaddc_held hk
  | ineg => exact execIneg_held hk
  | iabs => exact execIabs_held hk
  | imul => exact execImul_held hk
  | imulhi => exact execImulhi_held hk
  | imad => exact execImad_held hk
  | imadw => exact execImadw_held hk
  | idot4 => exact execIdot4_held hk
  | imin => exact execImin_held hk
  | imax => exact execImax_held hk
  | and => exact execAnd_held hk
  | or => exact execOr_held hk
  | xor => exact execXor_held hk
  | not => exact execNot_held hk
  | andn => exact execAndn_held hk
  | bool3 => exact execBool3_held hk
  | shl => exact execShl_held hk
  | shr => exact execShr_held hk
  | sar => exact execSar_held hk
  | rol => exact execRol_held hk
  | fshl => exact execFshl_held hk
  | bfe => exact execBfe_held hk
  | bfi => exact execBfi_held hk
  | bmsk => exact execBmsk_held hk
  | popc => exact execPopc_held hk
  | clz => exact execClz_held hk
  | ctz => exact execCtz_held hk
  | brev => exact execBrev_held hk
  | bsel => exact execBsel_held hk
  | iset => exact execIset_held hk
  | sel => exact execSel_held hk
  | mov => exact execMov_held hk
  | movi => exact execMovi_held hk
  | lea => exact execLea_held hk
  | pand => exact execPand_held hk
  | por => exact execPor_held hk
  | pxor => exact execPxor_held hk
  | pnot => exact execPnot_held hk
  | pmov => exact execPmov_held hk
  | xlaneAt => exact execXlaneAt_held hk
  | xlaneBack => exact execXlaneBack_held hk
  | xlaneFwd => exact execXlaneFwd_held hk
  | xlaneSwap => exact execXlaneSwap_held hk
  | xlaneOne => exact execXlaneOne_held hk
  | pcolSome => exact execPcolSome_held hk
  | pcolEvery => exact execPcolEvery_held hk
  | pcolBits => exact execPcolBits_held hk
  | pcolSame => exact execPcolSame_held hk
  | eqset => exact execEqset_held hk
  | lredAdd => exact execLredAdd_held hk
  | lredMin => exact execLredMin_held hk
  | lredMax => exact execLredMax_held hk
  | lredAnd => exact execLredAnd_held hk
  | lredOr => exact execLredOr_held hk
  | lredXor => exact execLredXor_held hk
  | rank => exact execRank_held hk
  | ld => exact execLd_held hk
  | ldRf => exact execLdRf_held hk
  | st => exact execSt_held hk
  | ldro => exact execLdro_held hk
  | atomAdd => exact execAtomAdd_held hk
  | atomAnd => exact execAtomAnd_held hk
  | atomOr => exact execAtomOr_held hk
  | atomXor => exact execAtomXor_held hk
  | atomMin => exact execAtomMin_held hk
  | atomMax => exact execAtomMax_held hk
  | atomXchg => exact execAtomXchg_held hk
  | atomCas => exact execAtomCas_held hk
  | atomInc => exact execAtomInc_held hk
  | atomDec => exact execAtomDec_held hk
  | redAdd => exact execRedAdd_held hk
  | redAnd => exact execRedAnd_held hk
  | redOr => exact execRedOr_held hk
  | redXor => exact execRedXor_held hk
  | redMin => exact execRedMin_held hk
  | redMax => exact execRedMax_held hk
  | redInc => exact execRedInc_held hk
  | redDec => exact execRedDec_held hk
  | redx => exact execRedx_held hk
  | redxf => exact execRedxf_held hk
  | prefl => exact execPrefl_held hk
  | fadd => exact execFadd_held hk
  | fsub => exact execFsub_held hk
  | fmul => exact execFmul_held hk
  | ffma => exact execFfma_held hk
  | fmin => exact execFmin_held hk
  | fmax => exact execFmax_held hk
  | fset => exact execFset_held hk
  | fclass => exact execFclass_held hk
  | frnd => exact execFrnd_held hk
  | fcvt => exact execFcvt_held hk
  | icvt => exact execIcvt_held hk
  | ex2 => exact execEx2_held hk
  | lg2 => exact execLg2_held hk
  | rcp => exact execRcp_held hk
  | rsq => exact execRsq_held hk
  | sqrt => exact execSqrt_held hk
  | sinpi => exact execSinpi_held hk
  | cospi => exact execCospi_held hk
  | ex2s => exact execEx2s_held hk
  | fscale => exact execFscale_held hk
  | fgetexp => exact execFgetexp_held hk
  | fmaxe => exact execFmaxe_held hk
  | tbind => exact execTbind_held hk
  | trel => exact execTrel_held hk
  | mma => exact execMma_held hk
  | mmabs => exact execMmabs_held hk
  | azero => exact execAzero_held hk
  | amov => exact execAmov_held hk
  | ald => exact execAld_held hk
  | ast => exact execAst_held hk
  | movToQueue => exact execMovToQueue_held hk
  | moviToQueue => exact execMoviToQueue_held hk
  | movFromQueue => exact execMovFromQueue_held hk
  | unimplementedEncoding => exact execUnimplementedEncoding_held (_x := ‹RawWords›) hk
  | illegalEncoding => exact execIllegalEncoding_held (_x := ‹RawWords›) hk
  | trapEntry => exact execTrapEntry_held hk
  | hcmdPoll => exact execHcmdPoll_held hk
  | resultReturn => exact execResultReturn_held hk
  | rfGatherReturn => exact execRfGatherReturn_held hk
  | fragmentPark => exact execFragmentPark_held hk
  | binAgeExpiry => exact execBinAgeExpiry_held hk
  | groupDraw => exact execGroupDraw_held hk
  | childDequeue => exact execChildDequeue_held hk
  | pageWalk => exact execPageWalk_held hk
  | freePoolTimeout => exact execFreePoolTimeout_held hk
  | plreply => exact execPlreply_held hk
  | claimPage => exact execClaimPage_held hk
  | tryWaitTimeout => exact execTryWaitTimeout_held hk
  | tilewaitTimeout => exact execTilewaitTimeout_held hk
  | txAbort => exact execTxAbort_held hk
  | clusterStoreArrival => exact execClusterStoreArrival_held hk
  | collectorWindowExpiry => exact execCollectorWindowExpiry_held hk
  | matrixOpRetire => exact execMatrixOpRetire_held hk
  | copy => exact execCopy_held hk
  | copynd => exact execCopynd_held hk
  | redcopy => exact execRedcopy_held hk
  | pfl2 => exact execPfl2_held hk
  | gnode t w ws => exact execGnode_held (_w := w) hk
  | garm t w ws => exact execGarm_held (_w := w) hk
  | voxel => exact execVoxel_held hk
  | rbbuild => exact execRbbuild_held hk
  | hins => exact execHins_held hk
  | hlook => exact execHlook_held hk
  | spconv => exact execSpconv_held hk
  | gmms => exact execGmms_held hk
  | wload => exact execWload_held hk
  | walk => exact execWalk_held hk
  | commandTakeUp => exact execCommandTakeUp_held hk
  | wloadInstall => exact execWloadInstall_held hk
  | walkHandoff => exact execWalkHandoff_held hk
  | redcopyElement => exact execRedcopyElement_held hk
  | commandCompletion => exact execCommandCompletion_held hk
  | remoteDieTimeout => exact execRemoteDieTimeout_held hk
  | doorbell => exact execDoorbell_held hk
  | launch => exact execLaunch_held hk
  | replay => exact execReplay_held hk
  | signal => exact execSignal_held hk
  | waitv => exact execWaitv_held hk
  | waitvPoll => exact execWaitvPoll_held hk
  | flush => exact execFlush_held hk
  | teamPlacement => exact execTeamPlacement_held hk
  | gangTimeout => exact execGangTimeout_held hk
  | timeSliceExpiry => exact execTimeSliceExpiry_held hk
  | saveComplete => exact execSaveComplete_held hk
  | stopWatchdogExpiry => exact execStopWatchdogExpiry_held hk
  | stealRequest => exact execStealRequest_held hk
  | replayPassRestore => exact execReplayPassRestore_held hk
  | createContext => exact execCreateContext_held hk
  | destroyContext => exact execDestroyContext_held hk
  | createQueue => exact execCreateQueue_held hk
  | destroyQueue => exact execDestroyQueue_held hk
  | queueSuspend => exact execQueueSuspend_held hk
  | queueResume => exact execQueueResume_held hk
  | pcap => exact execPcap_held hk
  | sysstat => exact execSysstat_held hk
  | bar4Access => exact execBar4Access_held hk
  | registerWrite => exact execRegisterWrite_held hk
  | stage => exact execStage_held hk
  | activate => exact execActivate_held hk
  | commit => exact execCommit_held hk
  | countersign => exact execCountersign_held hk
  | powerWindowEnd => exact execPowerWindowEnd_held hk
  | budgetReached => exact execBudgetReached_held hk
  | droop => exact execDroop_held hk
  | thermalSample => exact execThermalSample_held hk
  | powerRemoved => exact execPowerRemoved_held hk
  | regulatorFault => exact execRegulatorFault_held hk
  | flitReplay => exact execFlitReplay_held hk
  | linkRetrain => exact execLinkRetrain_held hk
  | hostLinkDown => exact execHostLinkDown_held hk
  | patrolScrub => exact execPatrolScrub_held hk
  | packageReset => exact execPackageReset_held hk
  | schedulerFirmwareFault => exact execSchedulerFirmwareFault_held hk
  | bitstreamIntegrityFault => exact execBitstreamIntegrityFault_held hk
  | getVersion => exact execGetVersion_held hk
  | getCapabilities => exact execGetCapabilities_held hk
  | negotiateAlgorithms => exact execNegotiateAlgorithms_held hk
  | getDigests => exact execGetDigests_held hk
  | getCertificate => exact execGetCertificate_held hk
  | challenge => exact execChallenge_held hk
  | getMeasurements => exact execGetMeasurements_held hk
  | spdmUnsupportedRequest v code m => exact execSpdmUnsupportedRequest_held (_code := code) hk
  | pldmRequest => exact execPldmRequest_held hk
  | mctpControl => exact execMctpControl_held hk
  | freePoolRefill => exact execFreePoolRefill_held hk
  | hostLinkUp => exact execHostLinkUp_held hk
  | linkRetrainEnd => exact execLinkRetrainEnd_held hk
  | ballastRamp => exact execBallastRamp_held hk
  | operatingPointChange => exact execOperatingPointChange_held hk
  | packagePowerLoss => exact execPackagePowerLoss_held hk
  | runListWrite => exact execRunListWrite_held hk

end Sys2Proof.Machine
end

