-- ==== Sys2Proof/Laws/PerInstr.lean ====
section
/-! SUPPORT. One lemma for each constructor of `Instr`: its opcode is its own (R184), which decoding an encoded instruction
rests on. -/

namespace Sys2Proof.Laws.Coded

/-- R184: an instruction with fields has an opcode that is in range, is not one of the unimplemented majors (R187) nor that of
`REP` (R182), and leads back to the instruction; its lengths are some. A happening has neither fields nor opcode. -/
def Statement (i : Instr) : Prop :=
  match i.fields?, i.key with
  | some f, some k => k.1 < 0xC0 ∧ k.2 < 8 ∧ k.1 ≠ 5 ∧ ∃ mk, opcode k.1 k.2 = some mk ∧ (i.extraOk f = true → mk f = i)
  | none, some k => k = (5, 0)
  | none, none => i.wf = false
  | some _, none => False

theorem nop (f : Fields) : Statement (.nop f) := ⟨by decide, by decide, by decide, _, rfl, fun _ => rfl⟩
theorem bra (f : Fields) : Statement (.bra f) := ⟨by decide, by decide, by decide, _, rfl, fun _ => rfl⟩
theorem braC (f : Fields) : Statement (.braC f) := ⟨by decide, by decide, by decide, _, rfl, fun _ => rfl⟩
theorem brx (f : Fields) : Statement (.brx f) := ⟨by decide, by decide, by decide, _, rfl, fun _ => rfl⟩
theorem callx (f : Fields) : Statement (.callx f) := ⟨by decide, by decide, by decide, _, rfl, fun _ => rfl⟩
theorem call (f : Fields) : Statement (.call f) := ⟨by decide, by decide, by decide, _, rfl, fun _ => rfl⟩
theorem ret (f : Fields) : Statement (.ret f) := ⟨by decide, by decide, by decide, _, rfl, fun _ => rfl⟩
theorem exit (f : Fields) : Statement (.exit f) := ⟨by decide, by decide, by decide, _, rfl, fun _ => rfl⟩
theorem rep (r : RepFields) : Statement (.rep r) := rfl
theorem yield (f : Fields) : Statement (.yield f) := ⟨by decide, by decide, by decide, _, rfl, fun _ => rfl⟩
theorem rfopen (f : Fields) : Statement (.rfopen f) := ⟨by decide, by decide, by decide, _, rfl, fun _ => rfl⟩
theorem rfclose (f : Fields) : Statement (.rfclose f) := ⟨by decide, by decide, by decide, _, rfl, fun _ => rfl⟩
theorem reform (f : Fields) : Statement (.reform f) := ⟨by decide, by decide, by decide, _, rfl, fun _ => rfl⟩
theorem spawn (f : Fields) : Statement (.spawn f) := ⟨by decide, by decide, by decide, _, rfl, fun _ => rfl⟩
theorem trap (f : Fields) : Statement (.trap f) := ⟨by decide, by decide, by decide, _, rfl, fun _ => rfl⟩
theorem bkpt (f : Fields) : Statement (.bkpt f) := ⟨by decide, by decide, by decide, _, rfl, fun _ => rfl⟩
theorem eret (f : Fields) : Statement (.eret f) := ⟨by decide, by decide, by decide, _, rfl, fun _ => rfl⟩
theorem halt (f : Fields) : Statement (.halt f) := ⟨by decide, by decide, by decide, _, rfl, fun _ => rfl⟩
theorem phinit (f : Fields) : Statement (.phinit f) := ⟨by decide, by decide, by decide, _, rfl, fun _ => rfl⟩
theorem phreg (f : Fields) : Statement (.phreg f) := ⟨by decide, by decide, by decide, _, rfl, fun _ => rfl⟩
theorem phdrop (f : Fields) : Statement (.phdrop f) := ⟨by decide, by decide, by decide, _, rfl, fun _ => rfl⟩
theorem pharv (f : Fields) : Statement (.pharv f) := ⟨by decide, by decide, by decide, _, rfl, fun _ => rfl⟩
theorem phwait (f : Fields) : Statement (.phwait f) := ⟨by decide, by decide, by decide, _, rfl, fun _ => rfl⟩
theorem phaw (f : Fields) : Statement (.phaw f) := ⟨by decide, by decide, by decide, _, rfl, fun _ => rfl⟩
theorem bars (f : Fields) : Statement (.bars f) := ⟨by decide, by decide, by decide, _, rfl, fun _ => rfl⟩
theorem txbeg (f : Fields) : Statement (.txbeg f) := ⟨by decide, by decide, by decide, _, rfl, fun _ => rfl⟩
theorem txend (f : Fields) : Statement (.txend f) := ⟨by decide, by decide, by decide, _, rfl, fun _ => rfl⟩
theorem txabt (f : Fields) : Statement (.txabt f) := ⟨by decide, by decide, by decide, _, rfl, fun _ => rfl⟩
theorem tilewait (f : Fields) : Statement (.tilewait f) := ⟨by decide, by decide, by decide, _, rfl, fun _ => rfl⟩
theorem fence (f : Fields) : Statement (.fence f) := ⟨by decide, by decide, by decide, _, rfl, fun _ => rfl⟩
theorem csrr (f : Fields) : Statement (.csrr f) := ⟨by decide, by decide, by decide, _, rfl, fun _ => rfl⟩
theorem csrw (f : Fields) : Statement (.csrw f) := ⟨by decide, by decide, by decide, _, rfl, fun _ => rfl⟩
theorem ovld (f : Fields) : Statement (.ovld f) := ⟨by decide, by decide, by decide, _, rfl, fun _ => rfl⟩
theorem claim (f : Fields) : Statement (.claim f) := ⟨by decide, by decide, by decide, _, rfl, fun _ => rfl⟩
theorem cctlRo (f : Fields) : Statement (.cctlRo f) := ⟨by decide, by decide, by decide, _, rfl, fun _ => rfl⟩
theorem iadd (f : Fields) : Statement (.iadd f) := ⟨by decide, by decide, by decide, _, rfl, fun _ => rfl⟩
theorem isub (f : Fields) : Statement (.isub f) := ⟨by decide, by decide, by decide, _, rfl, fun _ => rfl⟩
theorem iaddc (f : Fields) : Statement (.iaddc f) := ⟨by decide, by decide, by decide, _, rfl, fun _ => rfl⟩
theorem ineg (f : Fields) : Statement (.ineg f) := ⟨by decide, by decide, by decide, _, rfl, fun _ => rfl⟩
theorem iabs (f : Fields) : Statement (.iabs f) := ⟨by decide, by decide, by decide, _, rfl, fun _ => rfl⟩
theorem imul (f : Fields) : Statement (.imul f) := ⟨by decide, by decide, by decide, _, rfl, fun _ => rfl⟩
theorem imulhi (f : Fields) : Statement (.imulhi f) := ⟨by decide, by decide, by decide, _, rfl, fun _ => rfl⟩
theorem imad (f : Fields) : Statement (.imad f) := ⟨by decide, by decide, by decide, _, rfl, fun _ => rfl⟩
theorem imadw (f : Fields) : Statement (.imadw f) := ⟨by decide, by decide, by decide, _, rfl, fun _ => rfl⟩
theorem idot4 (f : Fields) : Statement (.idot4 f) := ⟨by decide, by decide, by decide, _, rfl, fun _ => rfl⟩
theorem imin (f : Fields) : Statement (.imin f) := ⟨by decide, by decide, by decide, _, rfl, fun _ => rfl⟩
theorem imax (f : Fields) : Statement (.imax f) := ⟨by decide, by decide, by decide, _, rfl, fun _ => rfl⟩
theorem and (f : Fields) : Statement (.and f) := ⟨by decide, by decide, by decide, _, rfl, fun _ => rfl⟩
theorem or (f : Fields) : Statement (.or f) := ⟨by decide, by decide, by decide, _, rfl, fun _ => rfl⟩
theorem xor (f : Fields) : Statement (.xor f) := ⟨by decide, by decide, by decide, _, rfl, fun _ => rfl⟩
theorem not (f : Fields) : Statement (.not f) := ⟨by decide, by decide, by decide, _, rfl, fun _ => rfl⟩
theorem andn (f : Fields) : Statement (.andn f) := ⟨by decide, by decide, by decide, _, rfl, fun _ => rfl⟩
theorem bool3 (f : Fields) : Statement (.bool3 f) := ⟨by decide, by decide, by decide, _, rfl, fun _ => rfl⟩
theorem shl (f : Fields) : Statement (.shl f) := ⟨by decide, by decide, by decide, _, rfl, fun _ => rfl⟩
theorem shr (f : Fields) : Statement (.shr f) := ⟨by decide, by decide, by decide, _, rfl, fun _ => rfl⟩
theorem sar (f : Fields) : Statement (.sar f) := ⟨by decide, by decide, by decide, _, rfl, fun _ => rfl⟩
theorem rol (f : Fields) : Statement (.rol f) := ⟨by decide, by decide, by decide, _, rfl, fun _ => rfl⟩
theorem fshl (f : Fields) : Statement (.fshl f) := ⟨by decide, by decide, by decide, _, rfl, fun _ => rfl⟩
theorem bfe (f : Fields) : Statement (.bfe f) := ⟨by decide, by decide, by decide, _, rfl, fun _ => rfl⟩
theorem bfi (f : Fields) : Statement (.bfi f) := ⟨by decide, by decide, by decide, _, rfl, fun _ => rfl⟩
theorem bmsk (f : Fields) : Statement (.bmsk f) := ⟨by decide, by decide, by decide, _, rfl, fun _ => rfl⟩
theorem popc (f : Fields) : Statement (.popc f) := ⟨by decide, by decide, by decide, _, rfl, fun _ => rfl⟩
theorem clz (f : Fields) : Statement (.clz f) := ⟨by decide, by decide, by decide, _, rfl, fun _ => rfl⟩
theorem ctz (f : Fields) : Statement (.ctz f) := ⟨by decide, by decide, by decide, _, rfl, fun _ => rfl⟩
theorem brev (f : Fields) : Statement (.brev f) := ⟨by decide, by decide, by decide, _, rfl, fun _ => rfl⟩
theorem bsel (f : Fields) : Statement (.bsel f) := ⟨by decide, by decide, by decide, _, rfl, fun _ => rfl⟩
theorem iset (f : Fields) : Statement (.iset f) := ⟨by decide, by decide, by decide, _, rfl, fun _ => rfl⟩
theorem sel (f : Fields) : Statement (.sel f) := ⟨by decide, by decide, by decide, _, rfl, fun _ => rfl⟩
theorem mov (f : Fields) : Statement (.mov f) := ⟨by decide, by decide, by decide, _, rfl, fun _ => rfl⟩
theorem movi (f : Fields) : Statement (.movi f) := ⟨by decide, by decide, by decide, _, rfl, fun _ => rfl⟩
theorem lea (f : Fields) : Statement (.lea f) := ⟨by decide, by decide, by decide, _, rfl, fun _ => rfl⟩
theorem pand (f : Fields) : Statement (.pand f) := ⟨by decide, by decide, by decide, _, rfl, fun _ => rfl⟩
theorem por (f : Fields) : Statement (.por f) := ⟨by decide, by decide, by decide, _, rfl, fun _ => rfl⟩
theorem pxor (f : Fields) : Statement (.pxor f) := ⟨by decide, by decide, by decide, _, rfl, fun _ => rfl⟩
theorem pnot (f : Fields) : Statement (.pnot f) := ⟨by decide, by decide, by decide, _, rfl, fun _ => rfl⟩
theorem pmov (f : Fields) : Statement (.pmov f) := ⟨by decide, by decide, by decide, _, rfl, fun _ => rfl⟩
theorem xlaneAt (f : Fields) : Statement (.xlaneAt f) := ⟨by decide, by decide, by decide, _, rfl, fun _ => rfl⟩
theorem xlaneBack (f : Fields) : Statement (.xlaneBack f) := ⟨by decide, by decide, by decide, _, rfl, fun _ => rfl⟩
theorem xlaneFwd (f : Fields) : Statement (.xlaneFwd f) := ⟨by decide, by decide, by decide, _, rfl, fun _ => rfl⟩
theorem xlaneSwap (f : Fields) : Statement (.xlaneSwap f) := ⟨by decide, by decide, by decide, _, rfl, fun _ => rfl⟩
theorem xlaneOne (f : Fields) : Statement (.xlaneOne f) := ⟨by decide, by decide, by decide, _, rfl, fun _ => rfl⟩
theorem pcolSome (f : Fields) : Statement (.pcolSome f) := ⟨by decide, by decide, by decide, _, rfl, fun _ => rfl⟩
theorem pcolEvery (f : Fields) : Statement (.pcolEvery f) := ⟨by decide, by decide, by decide, _, rfl, fun _ => rfl⟩
theorem pcolBits (f : Fields) : Statement (.pcolBits f) := ⟨by decide, by decide, by decide, _, rfl, fun _ => rfl⟩
theorem pcolSame (f : Fields) : Statement (.pcolSame f) := ⟨by decide, by decide, by decide, _, rfl, fun _ => rfl⟩
theorem eqset (f : Fields) : Statement (.eqset f) := ⟨by decide, by decide, by decide, _, rfl, fun _ => rfl⟩
theorem lredAdd (f : Fields) : Statement (.lredAdd f) := ⟨by decide, by decide, by decide, _, rfl, fun _ => rfl⟩
theorem lredMin (f : Fields) : Statement (.lredMin f) := ⟨by decide, by decide, by decide, _, rfl, fun _ => rfl⟩
theorem lredMax (f : Fields) : Statement (.lredMax f) := ⟨by decide, by decide, by decide, _, rfl, fun _ => rfl⟩
theorem lredAnd (f : Fields) : Statement (.lredAnd f) := ⟨by decide, by decide, by decide, _, rfl, fun _ => rfl⟩
theorem lredOr (f : Fields) : Statement (.lredOr f) := ⟨by decide, by decide, by decide, _, rfl, fun _ => rfl⟩
theorem lredXor (f : Fields) : Statement (.lredXor f) := ⟨by decide, by decide, by decide, _, rfl, fun _ => rfl⟩
theorem rank (f : Fields) : Statement (.rank f) := ⟨by decide, by decide, by decide, _, rfl, fun _ => rfl⟩
theorem ld (f : Fields) : Statement (.ld f) := ⟨by decide, by decide, by decide, _, rfl, fun h => by simp_all [Instr.extraOk]⟩
theorem ldRf (f : Fields) : Statement (.ldRf f) := ⟨by decide, by decide, by decide, _, rfl, fun h => by simp_all [Instr.extraOk]⟩
theorem st (f : Fields) : Statement (.st f) := ⟨by decide, by decide, by decide, _, rfl, fun _ => rfl⟩
theorem ldro (f : Fields) : Statement (.ldro f) := ⟨by decide, by decide, by decide, _, rfl, fun _ => rfl⟩
theorem atomAdd (f : Fields) : Statement (.atomAdd f) := ⟨by decide, by decide, by decide, _, rfl, fun _ => rfl⟩
theorem atomAnd (f : Fields) : Statement (.atomAnd f) := ⟨by decide, by decide, by decide, _, rfl, fun _ => rfl⟩
theorem atomOr (f : Fields) : Statement (.atomOr f) := ⟨by decide, by decide, by decide, _, rfl, fun _ => rfl⟩
theorem atomXor (f : Fields) : Statement (.atomXor f) := ⟨by decide, by decide, by decide, _, rfl, fun _ => rfl⟩
theorem atomMin (f : Fields) : Statement (.atomMin f) := ⟨by decide, by decide, by decide, _, rfl, fun _ => rfl⟩
theorem atomMax (f : Fields) : Statement (.atomMax f) := ⟨by decide, by decide, by decide, _, rfl, fun _ => rfl⟩
theorem atomXchg (f : Fields) : Statement (.atomXchg f) := ⟨by decide, by decide, by decide, _, rfl, fun _ => rfl⟩
theorem atomCas (f : Fields) : Statement (.atomCas f) := ⟨by decide, by decide, by decide, _, rfl, fun _ => rfl⟩
theorem atomInc (f : Fields) : Statement (.atomInc f) := ⟨by decide, by decide, by decide, _, rfl, fun _ => rfl⟩
theorem atomDec (f : Fields) : Statement (.atomDec f) := ⟨by decide, by decide, by decide, _, rfl, fun _ => rfl⟩
theorem redAdd (f : Fields) : Statement (.redAdd f) := ⟨by decide, by decide, by decide, _, rfl, fun _ => rfl⟩
theorem redAnd (f : Fields) : Statement (.redAnd f) := ⟨by decide, by decide, by decide, _, rfl, fun _ => rfl⟩
theorem redOr (f : Fields) : Statement (.redOr f) := ⟨by decide, by decide, by decide, _, rfl, fun _ => rfl⟩
theorem redXor (f : Fields) : Statement (.redXor f) := ⟨by decide, by decide, by decide, _, rfl, fun _ => rfl⟩
theorem redMin (f : Fields) : Statement (.redMin f) := ⟨by decide, by decide, by decide, _, rfl, fun _ => rfl⟩
theorem redMax (f : Fields) : Statement (.redMax f) := ⟨by decide, by decide, by decide, _, rfl, fun _ => rfl⟩
theorem redInc (f : Fields) : Statement (.redInc f) := ⟨by decide, by decide, by decide, _, rfl, fun _ => rfl⟩
theorem redDec (f : Fields) : Statement (.redDec f) := ⟨by decide, by decide, by decide, _, rfl, fun _ => rfl⟩
theorem redx (f : Fields) : Statement (.redx f) := ⟨by decide, by decide, by decide, _, rfl, fun _ => rfl⟩
theorem redxf (f : Fields) : Statement (.redxf f) := ⟨by decide, by decide, by decide, _, rfl, fun _ => rfl⟩
theorem prefl (f : Fields) : Statement (.prefl f) := ⟨by decide, by decide, by decide, _, rfl, fun _ => rfl⟩
theorem fadd (f : Fields) : Statement (.fadd f) := ⟨by decide, by decide, by decide, _, rfl, fun _ => rfl⟩
theorem fsub (f : Fields) : Statement (.fsub f) := ⟨by decide, by decide, by decide, _, rfl, fun _ => rfl⟩
theorem fmul (f : Fields) : Statement (.fmul f) := ⟨by decide, by decide, by decide, _, rfl, fun _ => rfl⟩
theorem ffma (f : Fields) : Statement (.ffma f) := ⟨by decide, by decide, by decide, _, rfl, fun _ => rfl⟩
theorem fmin (f : Fields) : Statement (.fmin f) := ⟨by decide, by decide, by decide, _, rfl, fun _ => rfl⟩
theorem fmax (f : Fields) : Statement (.fmax f) := ⟨by decide, by decide, by decide, _, rfl, fun _ => rfl⟩
theorem fset (f : Fields) : Statement (.fset f) := ⟨by decide, by decide, by decide, _, rfl, fun _ => rfl⟩
theorem fclass (f : Fields) : Statement (.fclass f) := ⟨by decide, by decide, by decide, _, rfl, fun _ => rfl⟩
theorem frnd (f : Fields) : Statement (.frnd f) := ⟨by decide, by decide, by decide, _, rfl, fun _ => rfl⟩
theorem fcvt (f : Fields) : Statement (.fcvt f) := ⟨by decide, by decide, by decide, _, rfl, fun _ => rfl⟩
theorem icvt (f : Fields) : Statement (.icvt f) := ⟨by decide, by decide, by decide, _, rfl, fun _ => rfl⟩
theorem ex2 (f : Fields) : Statement (.ex2 f) := ⟨by decide, by decide, by decide, _, rfl, fun _ => rfl⟩
theorem lg2 (f : Fields) : Statement (.lg2 f) := ⟨by decide, by decide, by decide, _, rfl, fun _ => rfl⟩
theorem rcp (f : Fields) : Statement (.rcp f) := ⟨by decide, by decide, by decide, _, rfl, fun _ => rfl⟩
theorem rsq (f : Fields) : Statement (.rsq f) := ⟨by decide, by decide, by decide, _, rfl, fun _ => rfl⟩
theorem sqrt (f : Fields) : Statement (.sqrt f) := ⟨by decide, by decide, by decide, _, rfl, fun _ => rfl⟩
theorem sinpi (f : Fields) : Statement (.sinpi f) := ⟨by decide, by decide, by decide, _, rfl, fun _ => rfl⟩
theorem cospi (f : Fields) : Statement (.cospi f) := ⟨by decide, by decide, by decide, _, rfl, fun _ => rfl⟩
theorem ex2s (f : Fields) : Statement (.ex2s f) := ⟨by decide, by decide, by decide, _, rfl, fun _ => rfl⟩
theorem fscale (f : Fields) : Statement (.fscale f) := ⟨by decide, by decide, by decide, _, rfl, fun _ => rfl⟩
theorem fgetexp (f : Fields) : Statement (.fgetexp f) := ⟨by decide, by decide, by decide, _, rfl, fun _ => rfl⟩
theorem fmaxe (f : Fields) : Statement (.fmaxe f) := ⟨by decide, by decide, by decide, _, rfl, fun _ => rfl⟩
theorem tbind (f : Fields) : Statement (.tbind f) := ⟨by decide, by decide, by decide, _, rfl, fun _ => rfl⟩
theorem trel (f : Fields) : Statement (.trel f) := ⟨by decide, by decide, by decide, _, rfl, fun _ => rfl⟩
theorem mma (f : Fields) : Statement (.mma f) := ⟨by decide, by decide, by decide, _, rfl, fun _ => rfl⟩
theorem mmabs (f : Fields) : Statement (.mmabs f) := ⟨by decide, by decide, by decide, _, rfl, fun _ => rfl⟩
theorem azero (f : Fields) : Statement (.azero f) := ⟨by decide, by decide, by decide, _, rfl, fun _ => rfl⟩
theorem amov (f : Fields) : Statement (.amov f) := ⟨by decide, by decide, by decide, _, rfl, fun _ => rfl⟩
theorem ald (f : Fields) : Statement (.ald f) := ⟨by decide, by decide, by decide, _, rfl, fun _ => rfl⟩
theorem ast (f : Fields) : Statement (.ast f) := ⟨by decide, by decide, by decide, _, rfl, fun _ => rfl⟩
theorem movToQueue (f : Fields) : Statement (.movToQueue f) := ⟨by decide, by decide, by decide, _, rfl, fun _ => rfl⟩
theorem moviToQueue (f : Fields) : Statement (.moviToQueue f) := ⟨by decide, by decide, by decide, _, rfl, fun _ => rfl⟩
theorem movFromQueue (f : Fields) : Statement (.movFromQueue f) := ⟨by decide, by decide, by decide, _, rfl, fun _ => rfl⟩
theorem unimplementedEncoding (x : RawWords) : Statement (.unimplementedEncoding x) := rfl
theorem illegalEncoding (x : RawWords) : Statement (.illegalEncoding x) := rfl
theorem trapEntry (t g : Nat) : Statement (.trapEntry t g) := rfl
theorem hcmdPoll (t g : Nat) : Statement (.hcmdPoll t g) := rfl
theorem resultReturn (t g i : Nat) : Statement (.resultReturn t g i) := rfl
theorem rfGatherReturn (t g tid : Nat) : Statement (.rfGatherReturn t g tid) := rfl
theorem fragmentPark (t g : Nat) : Statement (.fragmentPark t g) := rfl
theorem binAgeExpiry (core bin : Nat) : Statement (.binAgeExpiry core bin) := rfl
theorem groupDraw (core bin : Nat) (tids : List Nat) : Statement (.groupDraw core bin tids) := rfl
theorem childDequeue (core : Nat) : Statement (.childDequeue core) := rfl
theorem pageWalk (t g : Nat) : Statement (.pageWalk t g) := rfl
theorem freePoolTimeout (t g : Nat) : Statement (.freePoolTimeout t g) := rfl
theorem plreply (pf : Nat) (v : Word) : Statement (.plreply pf v) := rfl
theorem claimPage (t g : Nat) : Statement (.claimPage t g) := rfl
theorem tryWaitTimeout (t g : Nat) : Statement (.tryWaitTimeout t g) := rfl
theorem tilewaitTimeout (t g : Nat) : Statement (.tilewaitTimeout t g) := rfl
theorem txAbort (t w : Nat) : Statement (.txAbort t w) := rfl
theorem clusterStoreArrival (i : Nat) : Statement (.clusterStoreArrival i) := rfl
theorem collectorWindowExpiry (core : Nat) : Statement (.collectorWindowExpiry core) := rfl
theorem matrixOpRetire (core mismatches : Nat) : Statement (.matrixOpRetire core mismatches) := rfl
theorem copy (t c n : Nat) : Statement (.copy t c n) := rfl
theorem copynd (t c n : Nat) : Statement (.copynd t c n) := rfl
theorem redcopy (t c n : Nat) : Statement (.redcopy t c n) := rfl
theorem pfl2 (t c : Nat) : Statement (.pfl2 t c) := rfl
theorem gnode (t w : Nat) (ws : List Word) : Statement (.gnode t w ws) := rfl
theorem garm (t w : Nat) (ws : List Word) : Statement (.garm t w ws) := rfl
theorem voxel (t c : Nat) : Statement (.voxel t c) := rfl
theorem rbbuild (t c : Nat) : Statement (.rbbuild t c) := rfl
theorem hins (t c : Nat) : Statement (.hins t c) := rfl
theorem hlook (t c : Nat) : Statement (.hlook t c) := rfl
theorem spconv (t c n : Nat) : Statement (.spconv t c n) := rfl
theorem gmms (t c n : Nat) : Statement (.gmms t c n) := rfl
theorem wload (t c : Nat) : Statement (.wload t c) := rfl
theorem walk (t c n : Nat) : Statement (.walk t c n) := rfl
theorem commandTakeUp (t c : Nat) : Statement (.commandTakeUp t c) := rfl
theorem wloadInstall (t c : Nat) : Statement (.wloadInstall t c) := rfl
theorem walkHandoff (t c : Nat) : Statement (.walkHandoff t c) := rfl
theorem redcopyElement (t c slice seq elem : Nat) : Statement (.redcopyElement t c slice seq elem) := rfl
theorem commandCompletion (t c : Nat) : Statement (.commandCompletion t c) := rfl
theorem remoteDieTimeout (t g : Nat) : Statement (.remoteDieTimeout t g) := rfl
theorem doorbell (pf q : Nat) (v : Word) : Statement (.doorbell pf q v) := rfl
theorem launch (pf q : Nat) : Statement (.launch pf q) := rfl
theorem replay (pf q : Nat) : Statement (.replay pf q) := rfl
theorem signal (pf q : Nat) : Statement (.signal pf q) := rfl
theorem waitv (pf q : Nat) : Statement (.waitv pf q) := rfl
theorem waitvPoll (pf q : Nat) : Statement (.waitvPoll pf q) := rfl
theorem flush (pf q : Nat) : Statement (.flush pf q) := rfl
theorem teamPlacement (l : Nat) (cores victims : List Nat) : Statement (.teamPlacement l cores victims) := rfl
theorem gangTimeout (l : Nat) : Statement (.gangTimeout l) := rfl
theorem timeSliceExpiry (pf q : Nat) (victims : List Nat) : Statement (.timeSliceExpiry pf q victims) := rfl
theorem saveComplete (l : Nat) : Statement (.saveComplete l) := rfl
theorem stopWatchdogExpiry (t : Nat) : Statement (.stopWatchdogExpiry t) := rfl
theorem stealRequest (die : Nat) : Statement (.stealRequest die) := rfl
theorem replayPassRestore (l : Nat) : Statement (.replayPassRestore l) := rfl
theorem createContext (pf : Nat) : Statement (.createContext pf) := rfl
theorem destroyContext (pf num : Nat) : Statement (.destroyContext pf num) := rfl
theorem createQueue (pf : Nat) : Statement (.createQueue pf) := rfl
theorem destroyQueue (pf num : Nat) : Statement (.destroyQueue pf num) := rfl
theorem queueSuspend (pf q : Nat) : Statement (.queueSuspend pf q) := rfl
theorem queueResume (pf q : Nat) : Statement (.queueResume pf q) := rfl
theorem pcap (pf : Nat) (v : Word) : Statement (.pcap pf v) := rfl
theorem sysstat (pf : Nat) (v : Word) : Statement (.sysstat pf v) := rfl
theorem bar4Access (pf off : Nat) (bytes : List Byte) (op : HostOp) : Statement (.bar4Access pf off bytes op) := rfl
theorem registerWrite (pf bar off width : Nat) (v : DWord) : Statement (.registerWrite pf bar off width v) := rfl
theorem stage : Statement .stage := rfl
theorem activate (bank : Bool) : Statement (.activate bank) := rfl
theorem commit : Statement .commit := rfl
theorem countersign : Statement .countersign := rfl
theorem powerWindowEnd (energy : Nat) : Statement (.powerWindowEnd energy) := rfl
theorem budgetReached (energy : Nat) : Statement (.budgetReached energy) := rfl
theorem droop (cluster : Nat) : Statement (.droop cluster) := rfl
theorem thermalSample (die : Nat) (temp : Int) (sensor : Nat) : Statement (.thermalSample die temp sensor) := rfl
theorem powerRemoved (die : Nat) (temp : Int) : Statement (.powerRemoved die temp) := rfl
theorem regulatorFault (die sensor : Nat) : Statement (.regulatorFault die sensor) := rfl
theorem flitReplay (link : Nat) (again : Bool) : Statement (.flitReplay link again) := rfl
theorem linkRetrain (link : Nat) : Statement (.linkRetrain link) := rfl
theorem hostLinkDown : Statement .hostLinkDown := rfl
theorem patrolScrub (die word corrected : Nat) : Statement (.patrolScrub die word corrected) := rfl
theorem packageReset (cut : Bool) (lost : List Bool) : Statement (.packageReset cut lost) := rfl
theorem schedulerFirmwareFault (die : Nat) : Statement (.schedulerFirmwareFault die) := rfl
theorem bitstreamIntegrityFault (die : Nat) : Statement (.bitstreamIntegrityFault die) := rfl
theorem getVersion : Statement .getVersion := rfl
theorem getCapabilities (version : Nat) : Statement (.getCapabilities version) := rfl
theorem negotiateAlgorithms (version : Nat) (asym hash : List Nat) (meas : MeasurementOffer) : Statement (.negotiateAlgorithms version asym hash meas) := rfl
theorem getDigests (version : Nat) : Statement (.getDigests version) := rfl
theorem getCertificate (version slot offset length : Nat) : Statement (.getCertificate version slot offset length) := rfl
theorem challenge (version slot : Nat) (nonce : List Byte) : Statement (.challenge version slot nonce) := rfl
theorem getMeasurements (version index : Nat) (signed : Bool) (nonce : List Byte) : Statement (.getMeasurements version index signed nonce) := rfl
theorem spdmUnsupportedRequest (version code : Nat) (malformed : Bool) : Statement (.spdmUnsupportedRequest version code malformed) := rfl
theorem pldmRequest (sensor : Nat) (temp : Int) : Statement (.pldmRequest sensor temp) := rfl
theorem mctpControl (msg : List Byte) : Statement (.mctpControl msg) := rfl
theorem freePoolRefill (die : Nat) (small large : List Nat) : Statement (.freePoolRefill die small large) := rfl
theorem hostLinkUp : Statement .hostLinkUp := rfl
theorem linkRetrainEnd (link : Nat) (ok : Bool) : Statement (.linkRetrainEnd link ok) := rfl
theorem ballastRamp (quad energy : Nat) : Statement (.ballastRamp quad energy) := rfl
theorem operatingPointChange (quad point : Nat) : Statement (.operatingPointChange quad point) := rfl
theorem packagePowerLoss (during : Option FwUpdate) (blown : Nat) (done : Bool) : Statement (.packagePowerLoss during blown done) := rfl
theorem runListWrite (die : Nat) (pf : Nat) (rows : List (Nat × Nat × Nat)) : Statement (.runListWrite die pf rows) := rfl

end Sys2Proof.Laws.Coded
end

