-- ==== Sys2Proof/Tests/Slice0.lean ====
section
/-! SUPPORT. Tests: which terms are well formed, how words written out from the tables of R174 and R184 decode, what some
instructions give, and, for every obligation with hypotheses, states and operands that meet them (`witness_<Name>`). -/

namespace Sys2Proof.Tests
open Sys2Proof.Machine Sys2Proof.Claims

set_option Elab.async false
set_option maxRecDepth 100000

/-! ## Well-formedness (check 3 of R186) -/

def wf_terms : List Instr :=
  [.iadd { bare .two with typ := 6, cls := 7 }, .exit (bare .two), .phreg { bare .two with cls := 2, mod := 1 },
   .fence { bare .two with sc := 0x08 }, .rep { cnt := 63, std := 1, sta := 255, stb := 0, stc := 0 }]

/-- One term for each check of `Instr.fieldsOk`, in its order, that only this check refuses. -/
def ill_terms : List Instr :=
  [.iadd { bare .four with typ := 6 },                                 -- the length (R184)
   .iadd { bare .two with typ := 6, imm := 1 },                        -- an immediate that the length has not (R171)
   .iadd { bare .three with typ := 6, imm := 0x100000000 },
   .exit { bare .two with dst := 1 }, .exit { bare .two with cls := 1 }, -- an unused field and its class bit (R176)
   .pcolSame { bare .two with typ := 2, cls := 10 },                   -- a vector register only
   .phdrop (bare .two),                                                -- a uniform register only
   .pand { bare .two with dst := 8 }, .pand { bare .two with sa := 8 }, -- a predicate, as destination and as source
   .trel { bare .two with dst := 16 }, .azero { bare .two with dst := 32 }, .movFromQueue { bare .two with typ := 2, sa := 8 },
   .fcvt { bare .two with typ := 14, sc := 0x2E },                     -- bits outside a field's mask
   .iadd { bare .three with typ := 6, sb := 1 },                       -- source B beside IMM32 (R177)
   .eqset { bare .three with typ := 2, sc := 1 },                      -- a mask register beside IMM32 (R262)
   .imin { bare .two with typ := 6, mod := 1 },                        -- a MOD bit that the entry does not read (R178)
   .exit { bare .two with typ := 1 },                                  -- a format where the entry has none
   .iadd { bare .two with typ := 6, cls := 1 },                        -- a vector source under a uniform destination
   .phreg { bare .two with cls := 2 },                                 -- the entries' own rules
   .fence { bare .two with sc := 0x05 }, .fence { bare .two with sc := 0x28 },
   .txabt { bare .three with imm := 0x10000 }, .bool3 { bare .three with typ := 2, imm := 0x100 },
   .movi { bare .four with typ := 2 }, .fadd { bare .three with typ := 12, imm := 0x10000 },
   .fset { bare .two with typ := 14, sc := 0x70 }, .fcvt { bare .two with typ := 0x14, sc := 0x15, mod := 8 },
   .icvt { bare .two with typ := 6, sc := 7, mod := 1 }, .icvt { bare .two with typ := 6, sc := 14, sb := 1 },
   .lredAdd { bare .two with typ := 6, cls := 8, mod := 1 }, .ast { bare .two with typ := 14, cls := 2, mod := 1 },
   .ld { bare .two with typ := 2, mod := 1 }, .ldRf { bare .two with typ := 2 },
   .ld { bare .two with typ := 2, sc := 0xC0 }, .ld { bare .two with typ := 2, sc := 0x05 }, -- the ordering field (R178)
   .hostLinkUp]                                                        -- a happening is no encoding

theorem test_wf : wf_terms.all Instr.wf = true := by decide +kernel
theorem test_ill_formed : ill_terms.all (fun i => !i.wf) = true := by decide +kernel
/-! ## The states of the tests -/

/-- Tables that map the pages 0x10000 to 0x6FFFF of the sample context to the storage at 0x100000 of die 0. -/
def tables : Memory :=
  [(0x1000, 1), (0x1002, 1), (0x10000, 1), (0x10002, 2), (0x20000, 1), (0x20002, 4)]
  ++ [(0x40008, 0x6F), (0x4000A, 0x10), (0x4000F, 0x20), (0x40010, 0x6F), (0x40012, 0x11), (0x40017, 0x20)]
  ++ [(0x40018, 0x6F), (0x4001A, 0x12), (0x4001F, 0x20), (0x40020, 0x6F), (0x40022, 0x13), (0x40027, 0x20)]
  ++ [(0x40028, 0x6F), (0x4002A, 0x14), (0x4002F, 0x20), (0x40030, 0x6F), (0x40032, 0x15), (0x40037, 0x20)]

/-- A one-warp team of `t` threads that `k` changes, with the words of `i` in issue at 0x10040. -/
def machine (t : Nat) (i : Instr) (k : Team → Team) : State :=
  let ln : Launch := { sampleLaunch with t, hdr := { sampleHeader with accs := 32, tiles := 16, queues := 16 } }
  { sampleState State.reset [] with
    mem := tables
    launches := [ln], teams := [k ((freshTeam ln 1 0 0 0 1).modFrag 1 fun fr => { fr with walked := true })],
    cur := { team := 1, frag := 1, pc := 0x10040, words := encode i } }

def uni (r : Nat) (x : Word) (tm : Team) : Team := tm.modWarp 0 fun wp => wp.setW r x
def vec (t r : Nat) (x : Word) (tm : Team) : Team := tm.modThread t fun th => th.setV r x
def prd (t r : Nat) (tm : Team) : Team := tm.modThread t fun th => th.setP r true
/-- Every tile register is bound. -/
def bound (tm : Team) : Team := { tm with tiles := List.replicate 16 0x8000000000000000#64 }
def privileged (tm : Team) : Team := tm.modFrag 1 fun fr => { fr with priv := true }

/-- The instruction in issue. -/
def envOf (s : State) : Env := match s.env? with
  | some e => e
  | none => s.envAt 1 1

def ready (c : Fields → Instr) (f : Fields) (s : State) : Bool :=
  s.env?.isSome && ((envOf s).checks (c f) f).isNone && !((envOf s).T f).isEmpty && decide (gate (envOf s).wp.mode (c f) f = .go)

theorem meets {c : Fields → Instr} {f : Fields} {s : State} (h : ready c f s = true) : Ready c f s (envOf s) := by
  simp only [ready, Bool.and_eq_true, Bool.not_eq_true', decide_eq_true_eq, Option.isSome_iff_exists, Option.isNone_iff_eq_none] at h
  obtain ⟨⟨⟨⟨e, h1⟩, h2⟩, h3⟩, h4⟩ := h
  exact ⟨by simp [envOf, h1], h2, fun hT => by simp [hT] at h3, h4⟩

/-- Each instruction of a list is ready in a one-thread machine. -/
def allReady (k : Team → Team) (l : List (List Word × (Fields → Instr) × Fields)) : Bool :=
  l.all fun x => ready x.2.1 x.2.2 (machine 1 (x.2.1 x.2.2) k)

theorem meetAll {k : Team → Team} {l : List (List Word × (Fields → Instr) × Fields)} (h : allReady k l = true) :
    ∀ x ∈ l, Ready x.2.1 x.2.2 (machine 1 (x.2.1 x.2.2) k) (envOf (machine 1 (x.2.1 x.2.2) k)) :=
  fun x hx => meets (List.all_eq_true.mp h x hx)

def decodes (l : List (List Word × (Fields → Instr) × Fields)) : Bool :=
  l.all fun x => match decode x.1 with
    | .ok i => decide (i = x.2.1 x.2.2)
    | .error _ => false

/-! ## Decoding (words laid out by hand from R174, with the opcodes of R184) -/

def controlWords : List (List Word × (Fields → Instr) × Fields) :=
  [([0x00000075, 0x00000000], .nop, { bare .two with mark := true }),
   ([0x00000073, 0x00000000, 0x55667788, 0x11223344], .nop, { bare .four with imm := 0x1122334455667788 }),
   ([0x000001B2, 0x00000000, 0xFFFFFFF0], .bra, { bare .three with gp := 3, gneg := true, imm := 0xFFFFFFF0 }),
   ([0x00000193, 0x00200000, 0x00000020, 0x00000030], .braC, { bare .four with gp := 1, gneg := true, imm := 0x3000000020 }),
   ([0x04000271, 0x02000005], .brx, { bare .two with sa := 4, sb := 5, cls := 0x2 }),
   ([0x04080271, 0x02200005], .callx, { bare .two with dst := 8, sa := 4, sb := 5, cls := 0x2 }),
   ([0x000A0372, 0x00000000, 0x00000040], .call, { bare .three with dst := 10, imm := 0x40 }),
   ([0x0A000371, 0x00200000], .ret, { bare .two with sa := 10 }),
   ([0x00000471, 0x00000000], .exit, bare .two),
   ([0x00000671, 0x00000000], .yield, bare .two),
   ([0x00000772, 0x00000000, 0x00000009], .rfopen, { bare .three with imm := 0x9 }),
   ([0x00000771, 0x00200000], .rfclose, bare .two),
   ([0x00000772, 0x00400000, 0x00000003], .reform, { bare .three with imm := 0x3 }),
   ([0x01020872, 0x00000009, 0x00000100], .spawn, { bare .three with dst := 2, sa := 1, sb := 9, imm := 0x100 }),
   ([0x00000972, 0x00000000, 0x00000077], .trap, { bare .three with imm := 0x77 }),
   ([0x00000971, 0x00400000], .bkpt, bare .two),
   ([0x00000971, 0x00200000], .eret, bare .two),
   ([0x0000BC71, 0x00000000], .halt, bare .two)]

def phasersWords : List (List Word × (Fields → Instr) × Fields) :=
  [([0x00031072, 0x41000000, 0x00000006], .phinit, { bare .three with dst := 3, cls := 0x1, mod := 0x4, imm := 0x6 }),
   ([0x03001171, 0x32000000], .phreg, { bare .two with sa := 3, cls := 0x2, mod := 0x3 }),
   ([0x03001171, 0x02200000], .phdrop, { bare .two with sa := 3, cls := 0x2 }),
   ([0x03041271, 0x03000000], .pharv, { bare .two with dst := 4, sa := 3, cls := 0x3 }),
   ([0x03011371, 0x0E000605], .phwait, { bare .two with dst := 1, sa := 3, sb := 5, sc := 6, cls := 0xE }),
   ([0x04011376, 0x02200000, 0x000007D0], .phaw, { bare .three with mark := true, dst := 1, sa := 4, cls := 0x2, imm := 0x7D0 }),
   ([0x03001471, 0x02000000], .bars, { bare .two with sa := 3, cls := 0x2 }),
   ([0x00051571, 0x01000000], .txbeg, { bare .two with dst := 5, cls := 0x1 }),
   ([0x00001571, 0x00200000], .txend, bare .two),
   ([0x00001572, 0x00400000, 0x00000ABC], .txabt, { bare .three with imm := 0xABC }),
   ([0x0F011671, 0x04000004], .tilewait, { bare .two with dst := 1, sa := 15, sb := 4, cls := 0x4 })]

def systemWords : List (List Word × (Fields → Instr) × Fields) :=
  [([0x00001771, 0x00001C00], .fence, { bare .two with sc := 28 }),
   ([0x4302B871, 0x00000000], .csrr, { bare .two with dst := 2, sa := 67 }),
   ([0x3000B871, 0x08200600], .csrw, { bare .two with sa := 48, sc := 6, cls := 0x8 }),
   ([0x0400B971, 0x02000000], .ovld, { bare .two with sa := 4, cls := 0x2 }),
   ([0x0400BA71, 0x06000006], .claim, { bare .two with sa := 4, sb := 6, cls := 0x6 }),
   ([0x0000BB71, 0x00000000], .cctlRo, bare .two)]

def integerWords : List (List Word × (Fields → Instr) × Fields) :=
  [([0x01032071, 0x10060002], .iadd, { bare .two with dst := 3, sa := 1, sb := 2, typ := 0x6, mod := 0x1 }),
   ([0x01032072, 0x002A0000, 0x00000009], .isub, { bare .three with dst := 3, sa := 1, typ := 0xA, imm := 0x9 }),
   ([0x01032071, 0x004A8502], .iaddc, { bare .two with dst := 3, sa := 1, sb := 2, sc := 133, typ := 0xA }),
   ([0x00032071, 0x00660002], .ineg, { bare .two with dst := 3, sb := 2, typ := 0x6 }),
   ([0x00042071, 0x10870002], .iabs, { bare .two with dst := 4, sb := 2, typ := 0x7, mod := 0x1 }),
   ([0x01032179, 0x000A0002], .imul, { bare .two with trans := true, dst := 3, sa := 1, sb := 2, typ := 0xA }),
   ([0x01032171, 0x00260002], .imulhi, { bare .two with dst := 3, sa := 1, sb := 2, typ := 0x6 }),
   ([0x01032171, 0x00460702], .imad, { bare .two with dst := 3, sa := 1, sb := 2, sc := 7, typ := 0x6 }),
   ([0x01042171, 0x006A0802], .imadw, { bare .two with dst := 4, sa := 1, sb := 2, sc := 8, typ := 0xA }),
   ([0x01032171, 0x00840702], .idot4, { bare .two with dst := 3, sa := 1, sb := 2, sc := 7, typ := 0x4 }),
   ([0x06042271, 0x000B0002], .imin, { bare .two with dst := 4, sa := 6, sb := 2, typ := 0xB }),
   ([0x01032271, 0x07260002], .imax, { bare .two with dst := 3, sa := 1, sb := 2, typ := 0x6, cls := 0x7 })]

def logicWords : List (List Word × (Fields → Instr) × Fields) :=
  [([0x01032371, 0x00020002], .and, { bare .two with dst := 3, sa := 1, sb := 2, typ := 0x2 }),
   ([0x01032371, 0x00220002], .or, { bare .two with dst := 3, sa := 1, sb := 2, typ := 0x2 }),
   ([0x06042371, 0x00430002], .xor, { bare .two with dst := 4, sa := 6, sb := 2, typ := 0x3 }),
   ([0x00032371, 0x00620002], .not, { bare .two with dst := 3, sb := 2, typ := 0x2 }),
   ([0x01032371, 0x00820002], .andn, { bare .two with dst := 3, sa := 1, sb := 2, typ := 0x2 }),
   ([0x01032372, 0x00A20502, 0x000000CA], .bool3, { bare .three with dst := 3, sa := 1, sb := 2, sc := 5, typ := 0x2, imm := 0xCA }),
   ([0x01032471, 0x00020002], .shl, { bare .two with dst := 3, sa := 1, sb := 2, typ := 0x2 }),
   ([0x01032471, 0x00220002], .shr, { bare .two with dst := 3, sa := 1, sb := 2, typ := 0x2 }),
   ([0x01032471, 0x00460002], .sar, { bare .two with dst := 3, sa := 1, sb := 2, typ := 0x6 }),
   ([0x01032472, 0x00620000, 0x00000007], .rol, { bare .three with dst := 3, sa := 1, typ := 0x2, imm := 0x7 }),
   ([0x01032471, 0x00820502], .fshl, { bare .two with dst := 3, sa := 1, sb := 2, sc := 5, typ := 0x2 }),
   ([0x01032571, 0x000A0002], .bfe, { bare .two with dst := 3, sa := 1, sb := 2, typ := 0xA }),
   ([0x01032571, 0x00220502], .bfi, { bare .two with dst := 3, sa := 1, sb := 2, sc := 5, typ := 0x2 }),
   ([0x00032571, 0x00420002], .bmsk, { bare .two with dst := 3, sb := 2, typ := 0x2 }),
   ([0x02032671, 0x00030000], .popc, { bare .two with dst := 3, sa := 2, typ := 0x3 }),
   ([0x01032671, 0x00220000], .clz, { bare .two with dst := 3, sa := 1, typ := 0x2 }),
   ([0x01032671, 0x00420000], .ctz, { bare .two with dst := 3, sa := 1, typ := 0x2 }),
   ([0x01032671, 0x00620000], .brev, { bare .two with dst := 3, sa := 1, typ := 0x2 }),
   ([0x01032671, 0x00820502], .bsel, { bare .two with dst := 3, sa := 1, sb := 2, sc := 5, typ := 0x2 })]

def movesWords : List (List Word × (Fields → Instr) × Fields) :=
  [([0x01012771, 0x40068702], .iset, { bare .two with dst := 1, sa := 1, sb := 2, sc := 135, typ := 0x6, mod := 0x4 }),
   ([0x01032771, 0x00220102], .sel, { bare .two with dst := 3, sa := 1, sb := 2, sc := 1, typ := 0x2 }),
   ([0x01032871, 0x020E0000], .mov, { bare .two with dst := 3, sa := 1, typ := 0xE, cls := 0x2 }),
   ([0x00042873, 0x00230000, 0x9ABCDEF0, 0x12345678], .movi, { bare .four with dst := 4, typ := 0x3, imm := 0x123456789ABCDEF0 }),
   ([0x06042871, 0x40460002], .lea, { bare .two with dst := 4, sa := 6, sb := 2, typ := 0x6, mod := 0x4 }),
   ([0x02012971, 0x00000083], .pand, { bare .two with dst := 1, sa := 2, sb := 131 }),
   ([0x02012971, 0x00200003], .por, { bare .two with dst := 1, sa := 2, sb := 3 }),
   ([0x02012971, 0x00400003], .pxor, { bare .two with dst := 1, sa := 2, sb := 3 }),
   ([0x02012971, 0x00600000], .pnot, { bare .two with dst := 1, sa := 2 }),
   ([0x84012971, 0x00800000], .pmov, { bare .two with dst := 1, sa := 132 })]

def crossLaneWords : List (List Word × (Fields → Instr) × Fields) :=
  [([0x04057071, 0x08020203], .xlaneAt, { bare .two with dst := 5, sa := 4, sb := 3, sc := 2, typ := 0x2, cls := 0x8 }),
   ([0x04057071, 0x08220203], .xlaneBack, { bare .two with dst := 5, sa := 4, sb := 3, sc := 2, typ := 0x2, cls := 0x8 }),
   ([0x04057072, 0x08420200, 0x00000002], .xlaneFwd, { bare .three with dst := 5, sa := 4, sc := 2, typ := 0x2, cls := 0x8, imm := 0x2 }),
   ([0x04057071, 0x08620203], .xlaneSwap, { bare .two with dst := 5, sa := 4, sb := 3, sc := 2, typ := 0x2, cls := 0x8 }),
   ([0x04057071, 0x0C820203], .xlaneOne, { bare .two with dst := 5, sa := 4, sb := 3, sc := 2, typ := 0x2, cls := 0xC }),
   ([0x02017171, 0x08000200], .pcolSome, { bare .two with dst := 1, sa := 2, sc := 2, cls := 0x8 }),
   ([0x02017172, 0x00200000, 0x0000000F], .pcolEvery, { bare .three with dst := 1, sa := 2, imm := 0xF }),
   ([0x02057171, 0x08420200], .pcolBits, { bare .two with dst := 5, sa := 2, sc := 2, typ := 0x2, cls := 0x8 }),
   ([0x04017171, 0x08620200], .pcolSame, { bare .two with dst := 1, sa := 4, sc := 2, typ := 0x2, cls := 0x8 }),
   ([0x04057271, 0x09020200], .eqset, { bare .two with dst := 5, sa := 4, sc := 2, typ := 0x2, cls := 0x9 }),
   ([0x04057371, 0x880E0200], .lredAdd, { bare .two with dst := 5, sa := 4, sc := 2, typ := 0xE, cls := 0x8, mod := 0x8 }),
   ([0x04057371, 0x08260200], .lredMin, { bare .two with dst := 5, sa := 4, sc := 2, typ := 0x6, cls := 0x8 }),
   ([0x04057371, 0x08460200], .lredMax, { bare .two with dst := 5, sa := 4, sc := 2, typ := 0x6, cls := 0x8 }),
   ([0x04057371, 0x08620200], .lredAnd, { bare .two with dst := 5, sa := 4, sc := 2, typ := 0x2, cls := 0x8 }),
   ([0x04057371, 0x08820200], .lredOr, { bare .two with dst := 5, sa := 4, sc := 2, typ := 0x2, cls := 0x8 }),
   ([0x04057372, 0x00A20000, 0x00000003], .lredXor, { bare .three with dst := 5, sa := 4, typ := 0x2, imm := 0x3 }),
   ([0x00057471, 0x00000000], .rank, { bare .two with dst := 5 })]

def memoryWords : List (List Word × (Fields → Instr) × Fields) :=
  [([0x02088072, 0x00020D00, 0x00000010], .ld, { bare .three with dst := 8, sa := 2, sc := 13, typ := 0x2, imm := 0x10 }),
   ([0x02088071, 0x10020000], .ldRf, { bare .two with dst := 8, sa := 2, typ := 0x2, mod := 0x1 }),
   ([0x02008171, 0x00014005], .st, { bare .two with sa := 2, sb := 5, sc := 64, typ := 0x1 }),
   ([0x02088271, 0x00030000], .ldro, { bare .two with dst := 8, sa := 2, typ := 0x3 }),
   ([0x02088371, 0x000E1D05], .atomAdd, { bare .two with dst := 8, sa := 2, sb := 5, sc := 29, typ := 0xE }),
   ([0x02088371, 0x00220005], .atomAnd, { bare .two with dst := 8, sa := 2, sb := 5, typ := 0x2 }),
   ([0x02088371, 0x00420005], .atomOr, { bare .two with dst := 8, sa := 2, sb := 5, typ := 0x2 }),
   ([0x02088371, 0x00630006], .atomXor, { bare .two with dst := 8, sa := 2, sb := 6, typ := 0x3 }),
   ([0x02088371, 0x00860005], .atomMin, { bare .two with dst := 8, sa := 2, sb := 5, typ := 0x6 }),
   ([0x02088371, 0x00AA0005], .atomMax, { bare .two with dst := 8, sa := 2, sb := 5, typ := 0xA }),
   ([0x02088371, 0x00C20005], .atomXchg, { bare .two with dst := 8, sa := 2, sb := 5, typ := 0x2 }),
   ([0x02088371, 0x00E20004], .atomCas, { bare .two with dst := 8, sa := 2, sb := 4, typ := 0x2 }),
   ([0x02088471, 0x000A0005], .atomInc, { bare .two with dst := 8, sa := 2, sb := 5, typ := 0xA }),
   ([0x02088471, 0x002A0005], .atomDec, { bare .two with dst := 8, sa := 2, sb := 5, typ := 0xA }),
   ([0x02008571, 0x00060005], .redAdd, { bare .two with sa := 2, sb := 5, typ := 0x6 }),
   ([0x02008571, 0x00220005], .redAnd, { bare .two with sa := 2, sb := 5, typ := 0x2 }),
   ([0x02008571, 0x00420005], .redOr, { bare .two with sa := 2, sb := 5, typ := 0x2 }),
   ([0x02008571, 0x00620005], .redXor, { bare .two with sa := 2, sb := 5, typ := 0x2 }),
   ([0x02008571, 0x00860005], .redMin, { bare .two with sa := 2, sb := 5, typ := 0x6 }),
   ([0x02008571, 0x00A60005], .redMax, { bare .two with sa := 2, sb := 5, typ := 0x6 }),
   ([0x02008571, 0x00CA0005], .redInc, { bare .two with sa := 2, sb := 5, typ := 0xA }),
   ([0x02008571, 0x00EA0005], .redDec, { bare .two with sa := 2, sb := 5, typ := 0xA }),
   ([0x02008671, 0x000E0005], .redx, { bare .two with sa := 2, sb := 5, typ := 0xE }),
   ([0x02088671, 0x002E0003], .redxf, { bare .two with dst := 8, sa := 2, sb := 3, typ := 0xE }),
   ([0x02008772, 0x00000000, 0x00000080], .prefl, { bare .three with sa := 2, imm := 0x80 })]

def floatWords : List (List Word × (Fields → Instr) × Fields) :=
  [([0x01034071, 0x100E0002], .fadd, { bare .two with dst := 3, sa := 1, sb := 2, typ := 0xE, mod := 0x1 }),
   ([0x01034071, 0x002C0002], .fsub, { bare .two with dst := 3, sa := 1, sb := 2, typ := 0xC }),
   ([0x01034072, 0x00500000, 0x3C003C00], .fmul, { bare .three with dst := 3, sa := 1, typ := 0x10, imm := 0x3C003C00 }),
   ([0x040A40AD, 0x246E0605], .ffma, { bare .two with mark := true, trans := true, gp := 2, gneg := true, dst := 10, sa := 4, sb := 5, sc := 6, typ := 0xE, cls := 0x4, mod := 0x2 }),
   ([0x01034171, 0x800E0002], .fmin, { bare .two with dst := 3, sa := 1, sb := 2, typ := 0xE, mod := 0x8 }),
   ([0x01034171, 0x002D0002], .fmax, { bare .two with dst := 3, sa := 1, sb := 2, typ := 0xD }),
   ([0x01014271, 0x000E8F02], .fset, { bare .two with dst := 1, sa := 1, sb := 2, sc := 143, typ := 0xE }),
   ([0x01034371, 0x000E0000], .fclass, { bare .two with dst := 3, sa := 1, typ := 0xE }),
   ([0x01034471, 0x300E0000], .frnd, { bare .two with dst := 3, sa := 1, typ := 0xE, mod := 0x3 }),
   ([0x08144571, 0x00180E00], .fcvt, { bare .two with dst := 20, sa := 8, sc := 14, typ := 0x18 }),
   ([0x01034571, 0x10260E00], .icvt, { bare .two with dst := 3, sa := 1, sc := 14, typ := 0x6, mod := 0x1 })]

def specialWords : List (List Word × (Fields → Instr) × Fields) :=
  [([0x01036071, 0x000E0000], .ex2, { bare .two with dst := 3, sa := 1, typ := 0xE }),
   ([0x01036071, 0x002E0000], .lg2, { bare .two with dst := 3, sa := 1, typ := 0xE }),
   ([0x01036071, 0x804E0000], .rcp, { bare .two with dst := 3, sa := 1, typ := 0xE, mod := 0x8 }),
   ([0x01036071, 0x006E0000], .rsq, { bare .two with dst := 3, sa := 1, typ := 0xE }),
   ([0x01036071, 0x008E0000], .sqrt, { bare .two with dst := 3, sa := 1, typ := 0xE }),
   ([0x01036071, 0x00AE0000], .sinpi, { bare .two with dst := 3, sa := 1, typ := 0xE }),
   ([0x01036071, 0x00CE0000], .cospi, { bare .two with dst := 3, sa := 1, typ := 0xE }),
   ([0x01036071, 0x00EE0002], .ex2s, { bare .two with dst := 3, sa := 1, sb := 2, typ := 0xE }),
   ([0x01036171, 0x000E0002], .fscale, { bare .two with dst := 3, sa := 1, sb := 2, typ := 0xE }),
   ([0x00036171, 0x002E0002], .fgetexp, { bare .two with dst := 3, sb := 2, typ := 0xE }),
   ([0x01036171, 0x004E0002], .fmaxe, { bare .two with dst := 3, sa := 1, sb := 2, typ := 0xE })]

def matrixWords : List (List Word × (Fields → Instr) × Fields) :=
  [([0x040FA072, 0x02100000, 0x00000080], .tbind, { bare .three with dst := 15, sa := 4, typ := 0x10, cls := 0x2, imm := 0x80 }),
   ([0x000FA071, 0x00200000], .trel, { bare .two with dst := 15 }),
   ([0x011FA171, 0x08000602], .mma, { bare .two with dst := 31, sa := 1, sb := 2, sc := 6, cls := 0x8 }),
   ([0x011FA271, 0x08000602], .mmabs, { bare .two with dst := 31, sa := 1, sb := 2, sc := 6, cls := 0x8 }),
   ([0x001FA371, 0x00000000], .azero, { bare .two with dst := 31 }),
   ([0x1E1FA671, 0x00000000], .amov, { bare .two with dst := 31, sa := 30 }),
   ([0x041FA471, 0x020C0000], .ald, { bare .two with dst := 31, sa := 4, typ := 0xC, cls := 0x2 }),
   ([0x0400A571, 0x120D001F], .ast, { bare .two with sa := 4, sb := 31, typ := 0xD, cls := 0x2, mod := 0x1 })]

def queueRegistersWords : List (List Word × (Fields → Instr) × Fields) :=
  [([0x0507B071, 0x02020000], .movToQueue, { bare .two with dst := 7, sa := 5, typ := 0x2, cls := 0x2 }),
   ([0x0705B071, 0x00220000], .movFromQueue, { bare .two with dst := 5, sa := 7, typ := 0x2 }),
   ([0x0007B072, 0x00420000, 0x01000000], .moviToQueue, { bare .three with dst := 7, typ := 0x2, imm := 0x1000000 })]

theorem test_decode_control : decodes controlWords = true := by decide +kernel
theorem test_decode_phasers : decodes phasersWords = true := by decide +kernel
theorem test_decode_system : decodes systemWords = true := by decide +kernel
theorem test_decode_integer : decodes integerWords = true := by decide +kernel
theorem test_decode_logic : decodes logicWords = true := by decide +kernel
theorem test_decode_moves : decodes movesWords = true := by decide +kernel
theorem test_decode_crossLane : decodes crossLaneWords = true := by decide +kernel
theorem test_decode_memory : decodes memoryWords = true := by decide +kernel
theorem test_decode_float : decodes floatWords = true := by decide +kernel
theorem test_decode_special : decodes specialWords = true := by decide +kernel
theorem test_decode_matrix : decodes matrixWords = true := by decide +kernel
theorem test_decode_queueRegisters : decodes queueRegistersWords = true := by decide +kernel
theorem test_decode_rep : decode [0xFF000571, 0xFC000100] = .ok (.rep { cnt := 63, std := 0, sta := 255, stb := 0, stc := 1 }) := by rfl
theorem test_decode_fates : decode [0x00000170, 0] = .error .shortLength ∧ decode [0x0000C171, 0] = .error .unimplemented ∧
    decode [0x00000A71, 0] = .error .unassigned ∧ decode [0x00010471, 0] = .error .badFields ∧ decode [0x00000172, 0] = .error .missingWords :=
  ⟨rfl, rfl, rfl, rfl, rfl⟩

theorem ready_control : allReady privileged controlWords = true := by decide +kernel
theorem ready_phasers : allReady bound phasersWords = true := by decide +kernel
theorem ready_system : allReady privileged systemWords = true := by decide +kernel
theorem ready_integer : allReady id integerWords = true := by decide +kernel
theorem ready_logic : allReady id logicWords = true := by decide +kernel
theorem ready_moves : allReady id movesWords = true := by decide +kernel
theorem ready_crossLane : allReady id crossLaneWords = true := by decide +kernel
theorem ready_memory : allReady id memoryWords = true := by decide +kernel
theorem ready_float : allReady id floatWords = true := by decide +kernel
theorem ready_special : allReady id specialWords = true := by decide +kernel
theorem ready_matrix : allReady bound matrixWords = true := by decide +kernel
theorem ready_queueRegisters : allReady id queueRegistersWords = true := by decide +kernel

/-! ## States and operands that meet the hypotheses of the obligations

`Meets c f s p`: the instruction is ready in `s`, and `p` says what else its clause asks for. -/

def Meets (c : Fields → Instr) (f : Fields) (s : State) (p : Env → Prop) : Prop := Ready c f s (envOf s) ∧ p (envOf s)

theorem meetsAt {c : Fields → Instr} {f : Fields} {s : State} {p : Env → Prop} (h : ready c f s = true) (h' : p (envOf s)) :
    Meets c f s p := ⟨meets h, h'⟩

theorem quiet {s : State} {e : Env} (h : (((settledOf s e).team e.t).late e.g).isNone = true) : Quiet s e :=
  Option.isNone_iff_eq_none.mp h

def put (place : Nat) (bs : List Byte) (s : State) : State := { s with mem := s.mem.write place bs }

theorem witness_IntegerResults : ∀ x ∈ integerWords, Ready x.2.1 x.2.2 (machine 1 (x.2.1 x.2.2) id) (envOf (machine 1 (x.2.1 x.2.2) id)) :=
  meetAll ready_integer
theorem witness_LogicResults : ∀ x ∈ logicWords, Ready x.2.1 x.2.2 (machine 1 (x.2.1 x.2.2) id) (envOf (machine 1 (x.2.1 x.2.2) id)) :=
  meetAll ready_logic
theorem witness_MoveResults : ∀ x ∈ movesWords, Ready x.2.1 x.2.2 (machine 1 (x.2.1 x.2.2) id) (envOf (machine 1 (x.2.1 x.2.2) id)) :=
  meetAll ready_moves
theorem witness_CrossLaneResults : ∀ x ∈ crossLaneWords, Ready x.2.1 x.2.2 (machine 1 (x.2.1 x.2.2) id) (envOf (machine 1 (x.2.1 x.2.2) id)) :=
  meetAll ready_crossLane
theorem witness_CrossLaneResults_vector :
    let f : Fields := { bare .two with dst := 5, sa := 4, sc := 2, typ := 2, cls := 8 }
    Meets .eqset f (machine 1 (.eqset f) id) fun _ => Fields.du f = false := meetsAt (by decide +kernel) (by decide +kernel)
theorem witness_FloatResults : ∀ x ∈ floatWords ++ specialWords,
    Ready x.2.1 x.2.2 (machine 1 (x.2.1 x.2.2) id) (envOf (machine 1 (x.2.1 x.2.2) id)) := by
  intro x hx
  rcases List.mem_append.mp hx with h | h
  · exact meetAll ready_float x h
  · exact meetAll ready_special x h
theorem witness_ConversionResults : ∀ x ∈ floatWords ++ specialWords,
    Ready x.2.1 x.2.2 (machine 1 (x.2.1 x.2.2) id) (envOf (machine 1 (x.2.1 x.2.2) id)) := witness_FloatResults
theorem witness_CarryAdd :
    let f : Fields := { bare .two with dst := 3, sa := 1, sb := 2, sc := 0x85, typ := 10 }
    Ready .iaddc f (machine 1 (.iaddc f) id) (envOf (machine 1 (.iaddc f) id)) := meets (by decide +kernel)

/-! Branches: a whole fragment, guarded and not; threads of which one is in T; the addresses of `RET`. -/

def guard1 (l : Len) : Fields := { bare l with gp := 1 }
def both (tm : Team) : Team := prd 1 1 (prd 0 1 tm)

theorem witness_BranchResults_whole :
    Meets .bra (bare .three) (machine 2 (.bra (bare .three)) id) (fun e => e.F (bare .three) = []) ∧
    Meets .call (bare .three) (machine 2 (.call (bare .three)) id) (fun e => e.F (bare .three) = []) ∧
    Meets .bra (guard1 .three) (machine 2 (.bra (guard1 .three)) both) (fun e => e.F (guard1 .three) = []) ∧
    Meets .call (guard1 .three) (machine 2 (.call (guard1 .three)) both) (fun e => e.F (guard1 .three) = []) ∧
    Meets .braC (guard1 .four) (machine 2 (.braC (guard1 .four)) both) (fun e => e.F (guard1 .four) = []) :=
  ⟨meetsAt (by decide +kernel) (by decide +kernel), meetsAt (by decide +kernel) (by decide +kernel), meetsAt (by decide +kernel) (by decide +kernel), meetsAt (by decide +kernel) (by decide +kernel),
    meetsAt (by decide +kernel) (by decide +kernel)⟩
theorem witness_BranchResults_divergent :
    Meets .bra (guard1 .three) (machine 2 (.bra (guard1 .three)) (prd 0 1)) (fun e => e.F (guard1 .three) ≠ []) ∧
    Meets .call (guard1 .three) (machine 2 (.call (guard1 .three)) (prd 1 1)) (fun e => e.F (guard1 .three) ≠ []) :=
  ⟨meetsAt (by decide +kernel) (by decide +kernel), meetsAt (by decide +kernel) (by decide +kernel)⟩
theorem witness_BranchResults_ret :
    let f : Fields := { bare .two with sa := 10 }
    let goes (a : Word) (e : Env) : Prop := e.F f = [] ∧ ∀ m ∈ e.T f, (e.a2 f m.tid).toNat = a.toNat
    let s (a b : Word) := machine 2 (.ret f) fun tm => vec 0 10 a (vec 1 10 b tm)
    Meets .ret f (s 4 4) (goes 4) ∧ Meets .ret f (s 2 2) (goes 2) ∧
      Meets .ret f (s 4 8) (fun e => ∃ m ∈ e.T f, ∃ n ∈ e.T f, (e.a2 f m.tid).toNat ≠ (e.a2 f n.tid).toNat) :=
  ⟨meetsAt (by decide +kernel) (by decide +kernel), meetsAt (by decide +kernel) (by decide +kernel), meetsAt (by decide +kernel) (by decide +kernel)⟩

/-- A table of two targets, 0x10080 and 0x100C0, at 0x20000, named by w4:w5; the index is in v5. -/
def tabled (s : State) : State :=
  put 0x110000 (leBytes 8 2 ++ leBytes 8 0x10100 ++ leBytes 8 0x10080 ++ leBytes 8 0x100C0) s
def indexed (i j : Word) (tm : Team) : Team := vec 0 5 i (vec 1 5 j (uni 4 0x20000 tm))
def tableF : Fields := { bare .two with sa := 4, sb := 5, cls := 2 }
def linkF : Fields := { bare .two with dst := 8, sa := 4, sb := 5, cls := 2 }
def reads (s : State) (f : Fields) (n : Nat) : Bool := match (envOf s).readTable s f with
  | (.ok _ xs, _) => (partsBy (fun m => (lookup m.tid xs).getD ((envOf s).next f)) (envOf s).active).length == n
  | _ => false

theorem witness_SplittingBranches_braC :
    let s := machine 2 (.braC (guard1 .four)) (prd 0 1)
    let full := machine 2 (.braC (guard1 .four)) fun tm => { prd 0 1 tm with splits := List.replicate 32 default }
    let same : Fields := { guard1 .four with imm := 4 }
    Meets .braC same (machine 2 (.braC same) (prd 0 1)) (fun e => targetOf e same.imm32 = e.next same ∧ e.F same ≠ []) ∧
    Meets .braC (guard1 .four) s (fun e => e.F (guard1 .four) ≠ [] ∧ targetOf e 0 ≠ e.next (guard1 .four) ∧ (e.tm.splitsOf e.fr).length < 32 ∧
      Quiet (e.branchTerms s fun t => if e.guard (guard1 .four) t then targetOf e 0 else e.next (guard1 .four)) e) ∧
    Meets .braC (guard1 .four) full (fun e => e.F (guard1 .four) ≠ [] ∧ ¬ (e.tm.splitsOf e.fr).length < 32) :=
  ⟨meetsAt (by decide +kernel) (by decide +kernel),
    meetsAt (by decide +kernel) ⟨by decide +kernel, by decide +kernel, by decide +kernel, quiet (by decide +kernel)⟩, meetsAt (by decide +kernel) (by decide +kernel)⟩
theorem witness_SplittingBranches_table :
    let s (i : Instr) (a b : Word) := tabled (machine 2 i (indexed a b))
    (Meets .brx tableF (s (.brx tableF) 1 1) fun _ => reads (s (.brx tableF) 1 1) tableF 1 = true) ∧
    (Meets .callx linkF (s (.callx linkF) 0 0) fun _ => reads (s (.callx linkF) 0 0) linkF 1 = true) ∧
    (Meets .brx tableF (s (.brx tableF) 0 1) fun e => reads (s (.brx tableF) 0 1) tableF 2 = true ∧ (e.tm.splitsOf e.fr).length < 32) ∧
    (Meets .callx linkF (s (.callx linkF) 0 1) fun e => reads (s (.callx linkF) 0 1) linkF 2 = true ∧ (e.tm.splitsOf e.fr).length < 32) ∧
    (let deep := tabled (machine 2 (.brx tableF) fun tm => { indexed 0 1 tm with splits := List.replicate 32 default })
     Meets .brx tableF deep fun e => reads deep tableF 2 = true ∧ ¬ (e.tm.splitsOf e.fr).length < 32) :=
  ⟨meetsAt (by decide +kernel) (by decide +kernel), meetsAt (by decide +kernel) (by decide +kernel), meetsAt (by decide +kernel) (by decide +kernel), meetsAt (by decide +kernel) (by decide +kernel), meetsAt (by decide +kernel) (by decide +kernel)⟩

/-! Regions, traps and repeats. -/

def entered (tm : Team) : Team := { tm with
  st := .regionOpen, region := some { join := 0x10200, kids := 0, homes := [] }
  threads := tm.threads.map fun th => { th with entered := true } }
/-- A region is open, which the threads have not entered. -/
def regioned (tm : Team) : Team := { entered tm with threads := tm.threads }
def exitF : Fields := bare .two
def rfF : Fields := { bare .three with imm := 3 }
def spawnF : Fields := { bare .three with dst := 2, sa := 1, sb := 9, imm := 0x100 }
def outs (e : Env) (f : Fields) : List Member := (e.T f).filter fun m => !(e.tm.thread m.tid).entered
def ins (e : Env) (f : Fields) : List Member := (e.T f).filter fun m => (e.tm.thread m.tid).entered

theorem witness_RegionInstructions :
    Meets .exit exitF (machine 1 (.exit exitF) id) (fun e => Quiet (machine 1 (.exit exitF) id) e) ∧
    Meets .rfopen rfF (machine 1 (.rfopen rfF) id) (fun e => ins e rfF = [] ∧ Quiet (machine 1 (.rfopen rfF) id) e) ∧
    Meets .rfopen rfF (machine 1 (.rfopen rfF) entered) (fun e => ins e rfF ≠ []) ∧
    Meets .rfclose exitF (machine 1 (.rfclose exitF) entered) (fun e => outs e exitF = []) ∧
    Meets .rfclose exitF (machine 1 (.rfclose exitF) id) (fun e => outs e exitF ≠ []) ∧
    Meets .reform rfF (machine 1 (.reform rfF) regioned) (fun e => e.tm.region ≠ none ∧ outs e rfF ≠ []) ∧
    Meets .reform rfF (machine 1 (.reform rfF) id) (fun e => e.tm.region = none) ∧
    Meets .reform rfF (machine 1 (.reform rfF) entered) (fun e => e.tm.region ≠ none ∧ outs e rfF = [] ∧ e.fr.ent = none ∧
      Quiet (machine 1 (.reform rfF) entered) e) ∧
    Meets .reform rfF (machine 1 (.reform rfF) fun tm => (entered tm).modFrag 1 fun fr => { fr with ent := some 9 })
      (fun e => e.tm.region ≠ none ∧ outs e rfF = [] ∧ e.fr.ent ≠ none) ∧
    Meets .spawn spawnF (machine 1 (.spawn spawnF) entered) (fun e => outs e spawnF = []) ∧
    Meets .spawn spawnF (machine 1 (.spawn spawnF) id) (fun e => outs e spawnF ≠ []) :=
  ⟨meetsAt (by decide +kernel) (quiet (by decide +kernel)), meetsAt (by decide +kernel) ⟨by decide +kernel, quiet (by decide +kernel)⟩, meetsAt (by decide +kernel) (by decide +kernel),
    meetsAt (by decide +kernel) (by decide +kernel), meetsAt (by decide +kernel) (by decide +kernel), meetsAt (by decide +kernel) (by decide +kernel),
    meetsAt (by decide +kernel) (by decide +kernel),
    meetsAt (by decide +kernel) ⟨by decide +kernel, by decide +kernel, by decide +kernel, quiet (by decide +kernel)⟩, meetsAt (by decide +kernel) (by decide +kernel),
    meetsAt (by decide +kernel) (by decide +kernel), meetsAt (by decide +kernel) (by decide +kernel)⟩
theorem witness_TrapsAndHalts :
    Meets .trap exitF (machine 1 (.trap exitF) id) (fun e => e.wp.mode = .normal ∧ Quiet (machine 1 (.trap exitF) id) e) ∧
    Meets .bkpt exitF (machine 1 (.bkpt exitF) id) (fun e => e.wp.mode = .normal ∧ Quiet (machine 1 (.bkpt exitF) id) e) ∧
    (machine 1 (.illegalEncoding ⟨[0]⟩) id).env?.isSome = true ∧ (machine 1 (.unimplementedEncoding ⟨[0x0000C071]⟩) id).env?.isSome = true ∧
    Meets .eret exitF (machine 1 (.eret exitF) privileged) (fun _ => True) ∧
    Meets .halt exitF (machine 1 (.halt exitF) privileged) (fun _ => True) :=
  ⟨meetsAt (by decide +kernel) ⟨by decide +kernel, quiet (by decide +kernel)⟩, meetsAt (by decide +kernel) ⟨by decide +kernel, quiet (by decide +kernel)⟩, by decide +kernel, by decide +kernel,
    meetsAt (by decide +kernel) trivial, meetsAt (by decide +kernel) trivial⟩
def repF : RepFields := { cnt := 3, std := 1, sta := 1, stb := 0, stc := 0 }
def behind (w : Word) : State := put 0x100048 (leBytes 4 w.toNat ++ leBytes 4 0) (machine 1 (.rep repF) id)
def fetches (s : State) (bad : Bool) : Bool := match ({ envOf s with pc := (envOf s).pc + 8 } : Env).fetch s with
  | .words _ (w :: _) => notRepeated w == bad
  | _ => false
theorem witness_RepeatBegins : (behind 0x01032071).env?.isSome = true ∧ fetches (behind 0x01032071) false = true ∧
    (behind 0x00000471).env?.isSome = true ∧ fetches (behind 0x00000471) true = true := by decide +kernel

/-! Phasers: the handle of the team barrier (R214) is in w3. -/

def handled (tm : Team) : Team := uni 3 0x4000 tm
def bar : Phaser := { p := 0, n := 1, a := 0 }
def barReg : Registration := { handle := 0x4000, mode := 3, pending := false, phase := 0 }
/-- The barrier expects two warps, so that one arrival leaves its phase open. -/
def pairBar (tm : Team) : Team := { handled tm with phasers := setNth 0 (some { bar with n := 2 }) tm.phasers }
/-- The warp's arrival of phase 0 is pending. -/
def pendingBar (tm : Team) : Team := (pairBar tm).modWarp 0 fun wp => { wp with regs := [{ barReg with pending := true }] }

def naming (f : Fields) (s : State) (h : Nat) (p : Phaser) : Bool :=
  h == (((envOf s).a f 0).toNat % 2 ^ 16) && !s.badHandle (envOf s).pf (envOf s).t (envOf s).die h
    && (hScope h != 5 || s.reaches (envOf s).die (hDie h)) && s.phaser? (envOf s).t h == some p

theorem names {f : Fields} {s : State} {h : Nat} {p : Phaser} (x : naming f s h p = true) : Names f s (envOf s) h p := by
  simp only [naming, Bool.and_eq_true, beq_iff_eq, Bool.not_eq_true', Bool.or_eq_true, bne_iff_ne] at x
  exact ⟨x.1.1.1, x.1.1.2, x.1.2, x.2⟩

/-- Another fragment of the team has read-modify-writes to come. -/
def midAtomic (tm : Team) : Team := { tm with frags := tm.frags ++ [{ (default : Frag) with id := 9, st := .waiting (.rmws (.nop exitF) [] []) }] }
def initF : Fields := { bare .two with dst := 3, sb := 5, cls := 5, mod := 2 }
def phF (c : BitVec 4) (m : BitVec 4) : Fields := { bare .two with sa := 3, cls := c, mod := m }
def pharvF : Fields := { bare .two with dst := 4, sa := 3, cls := 3 }
def waitF : Fields := { bare .two with dst := 1, sa := 3, sb := 5, sc := 6, cls := 14 }
def phawF : Fields := { bare .two with dst := 1, sa := 3, sb := 5, cls := 6 }
/-- A second phaser of the team, on which no warp is registered. -/
def second (n : Nat) (tm : Team) : Team := { uni 3 0x4001 tm with phasers := setNth 1 (some { bar with n }) tm.phasers }

theorem witness_PhaserInstructions :
    Meets .phinit initF (machine 1 (.phinit initF) (uni 5 0xFFFF)) (fun e => (e.b initF 0).toNat < 2 ^ 16) ∧
    Meets .phreg (phF 2 3) (machine 1 (.phreg (phF 2 3)) (second 65534)) (fun e => Names (phF 2 3) (machine 1 (.phreg (phF 2 3)) (second 65534)) e 0x4001
      { bar with n := 65534 } ∧ e.wp.reg? 0x4001 = none ∧ e.wp.regs.length < 8) ∧
    Meets .phreg (phF 2 2) (machine 1 (.phreg (phF 2 2)) (second 65535)) (fun e => Names (phF 2 2) (machine 1 (.phreg (phF 2 2)) (second 65535)) e 0x4001
      { bar with n := 65535 } ∧ e.wp.reg? 0x4001 = none ∧ e.wp.regs.length < 8) ∧
    Meets .phdrop (phF 2 0) (machine 1 (.phdrop (phF 2 0)) handled) (fun e => Names (phF 2 0) (machine 1 (.phdrop (phF 2 0)) handled) e 0x4000 bar ∧
      Registered e 0x4000 barReg [1, 2, 3]) ∧
    Meets .pharv pharvF (machine 1 (.pharv pharvF) handled) (fun e => Names pharvF (machine 1 (.pharv pharvF) handled) e 0x4000 bar ∧
      Registered e 0x4000 barReg [1, 3] ∧ barReg.waits bar = false ∧ e.storesDue (machine 1 (.pharv pharvF) handled) = false) ∧
    Meets .pharv pharvF (machine 1 (.pharv pharvF) fun tm => midAtomic (handled tm)) (fun e =>
      Names pharvF (machine 1 (.pharv pharvF) fun tm => midAtomic (handled tm)) e 0x4000 bar ∧ Registered e 0x4000 barReg [1, 3] ∧
      e.storesDue (machine 1 (.pharv pharvF) fun tm => midAtomic (handled tm)) = true) ∧
    Meets .pharv pharvF (machine 1 (.pharv pharvF) pendingBar) (fun e => Names pharvF (machine 1 (.pharv pharvF) pendingBar) e 0x4000 { bar with n := 2 } ∧
      Registered e 0x4000 { barReg with pending := true } [1, 3] ∧ ({ barReg with pending := true } : Registration).waits { bar with n := 2 } = true) :=
  ⟨meetsAt (by decide +kernel) (by decide +kernel), meetsAt (by decide +kernel) ⟨names (by decide +kernel), by decide +kernel, by decide +kernel⟩,
    meetsAt (by decide +kernel) ⟨names (by decide +kernel), by decide +kernel, by decide +kernel⟩, meetsAt (by decide +kernel) ⟨names (by decide +kernel), by decide +kernel, by decide +kernel⟩,
    meetsAt (by decide +kernel) ⟨names (by decide +kernel), ⟨by decide +kernel, by decide +kernel⟩, by decide +kernel, by decide +kernel⟩,
    meetsAt (by decide +kernel) ⟨names (by decide +kernel), ⟨by decide +kernel, by decide +kernel⟩, by decide +kernel⟩,
    meetsAt (by decide +kernel) ⟨names (by decide +kernel), ⟨by decide +kernel, by decide +kernel⟩, by decide +kernel⟩⟩

theorem witness_TryWaits_phwait :
    let s (ph hint : Word) := machine 1 (.phwait waitF) fun tm => uni 5 hint (uni 6 ph (handled tm))
    let is (ph hint : Word) (done : Bool) (e : Env) : Prop := Names waitF (s ph hint) e 0x4000 bar ∧ Registered e 0x4000 barReg [2, 3] ∧
      bar.done ((e.c waitF 0).toNat % 2 ^ 16) = done ∧ e.b waitF 0 = hint
    Meets .phwait waitF (s 0xFFFF 0) (is 0xFFFF 0 true) ∧ Meets .phwait waitF (s 0x8001 9) (is 0x8001 9 true) ∧
    Meets .phwait waitF (s 0 0) (is 0 0 false) ∧ Meets .phwait waitF (s 0x8000 9) (is 0x8000 9 false) :=
  ⟨meetsAt (by decide +kernel) ⟨names (by decide +kernel), ⟨by decide +kernel, by decide +kernel⟩, by decide +kernel, by decide +kernel⟩,
    meetsAt (by decide +kernel) ⟨names (by decide +kernel), ⟨by decide +kernel, by decide +kernel⟩, by decide +kernel, by decide +kernel⟩,
    meetsAt (by decide +kernel) ⟨names (by decide +kernel), ⟨by decide +kernel, by decide +kernel⟩, by decide +kernel, by decide +kernel⟩,
    meetsAt (by decide +kernel) ⟨names (by decide +kernel), ⟨by decide +kernel, by decide +kernel⟩, by decide +kernel, by decide +kernel⟩⟩
theorem witness_TryWaits_phaw :
    let s (k : Team → Team) := machine 1 (.phaw phawF) k
    let then_ (k : Team → Team) (b : Bool) (e : Env) : Prop :=
      (match (((e.release (s k)).arrive e.t e.fr.warp 0x4000).setAgain e.t e.fr.warp 0x4000 0 true).phaser? e.t 0x4000 with
        | some q => !e.storesDue (s k) && q.done 0 == b
        | none => false) = true
    Meets .phaw phawF (s handled) (fun e => Names phawF (s handled) e 0x4000 bar ∧ Registered e 0x4000 barReg [3] ∧
      barReg.waits bar = false ∧ then_ handled true e) ∧
    Meets .phaw phawF (s pairBar) (fun e => Names phawF (s pairBar) e 0x4000 { bar with n := 2 } ∧ Registered e 0x4000 barReg [3] ∧
      barReg.waits { bar with n := 2 } = false ∧ then_ pairBar false e ∧ e.b phawF 0 = 0) ∧
    Meets .phaw phawF (s pendingBar) (fun e => Names phawF (s pendingBar) e 0x4000 { bar with n := 2 } ∧
      Registered e 0x4000 { barReg with pending := true } [3] ∧ ({ barReg with pending := true } : Registration).waits { bar with n := 2 } = true ∧
      ({ bar with n := 2 } : Phaser).done 0 = false ∧ e.b phawF 0 = 0) :=
  ⟨meetsAt (by decide +kernel) ⟨names (by decide +kernel), ⟨by decide +kernel, by decide +kernel⟩, by decide +kernel, by decide +kernel⟩,
    meetsAt (by decide +kernel) ⟨names (by decide +kernel), ⟨by decide +kernel, by decide +kernel⟩, by decide +kernel, by decide +kernel, by decide +kernel⟩,
    meetsAt (by decide +kernel) ⟨names (by decide +kernel), ⟨by decide +kernel, by decide +kernel⟩, by decide +kernel, by decide +kernel, by decide +kernel⟩⟩
/-- A `PHAW` that its hint has ended is executed again, and its phase has completed since. -/
def againBar (tm : Team) : Team :=
  { handled tm with phasers := setNth 0 (some { bar with p := 1 }) tm.phasers }.modWarp 0 fun wp => { wp with regs := [{ barReg with again := true, pending := true }] }
theorem witness_TryWaits_phawAgain :
    Meets .phaw phawF (machine 1 (.phaw phawF) againBar) (fun e => Names phawF (machine 1 (.phaw phawF) againBar) e 0x4000 { bar with p := 1 } ∧
      Registered e 0x4000 { barReg with again := true, pending := true } [3] ∧ ({ bar with p := 1 } : Phaser).done 0 = true) :=
  meetsAt (by decide +kernel) ⟨names (by decide +kernel), ⟨by decide +kernel, by decide +kernel⟩, by decide +kernel⟩
/-- R222: it makes no second arrival. -/
theorem test_phaw_repeated : (match exec (.phaw phawF) (machine 1 (.phaw phawF) againBar) with
    | .next s => ((s.team 1).phasers.getD 0 none, ((s.team 1).thread 0).p.getD 1 false) == (some { bar with p := 1 }, true)
    | _ => false) = true := by decide +kernel
theorem witness_TryWaits_phawHint :
    let k (tm : Team) : Team := uni 5 9 (pairBar tm)
    let kp (tm : Team) : Team := uni 5 9 (pendingBar tm)
    let s (k : Team → Team) := machine 1 (.phaw phawF) k
    let open_ (e : Env) : Prop :=
      (match (((e.release (s k)).arrive e.t e.fr.warp 0x4000).setAgain e.t e.fr.warp 0x4000 0 true).phaser? e.t 0x4000 with
        | some q => !e.storesDue (s k) && !q.done 0
        | none => false) = true
    Meets .phaw phawF (s k) (fun e => Names phawF (s k) e 0x4000 { bar with n := 2 } ∧ Registered e 0x4000 barReg [3] ∧
      barReg.waits { bar with n := 2 } = false ∧ open_ e ∧ e.b phawF 0 = 9) ∧
    Meets .phaw phawF (s kp) (fun e => Names phawF (s kp) e 0x4000 { bar with n := 2 } ∧
      Registered e 0x4000 { barReg with pending := true } [3] ∧ ({ barReg with pending := true } : Registration).waits { bar with n := 2 } = true ∧
      ({ bar with n := 2 } : Phaser).done 0 = false ∧ e.b phawF 0 = 9) :=
  ⟨meetsAt (by decide +kernel) ⟨names (by decide +kernel), ⟨by decide +kernel, by decide +kernel⟩, by decide +kernel, by decide +kernel, by decide +kernel⟩,
    meetsAt (by decide +kernel) ⟨names (by decide +kernel), ⟨by decide +kernel, by decide +kernel⟩, by decide +kernel, by decide +kernel, by decide +kernel⟩⟩

/-! Speculation and transactions. -/

def fresh1 : Team := freshTeam sampleLaunch 1 0 0 0 1
def tx : Tx :=
  { wd := 5, shadow := fresh1.checkpoint sampleHeader (fresh1.frag 1) 0x10040, reads := [], writes := [], buf := [], pages := [], aborts := [] }
def inTx (tm : Team) : Team := tm.modWarp 0 fun wp => { wp with mode := .transactional tx }
def barsF : Fields := phF 2 0
def txbegF : Fields := { bare .two with dst := 5, cls := 1 }
def txabtF : Fields := { bare .three with imm := 0xFFFF }

theorem witness_SpeculationAndTransactions_speculation :
    let s (k : Team → Team) := machine 1 (.bars barsF) k
    let ends (k : Team → Team) (p : Phaser) (b : Bool) (e : Env) : Prop :=
      let x := e.barsArrive ((settledOf (s k) e).emptyWindow e.t e.g) 0x4000 p barReg
      (match x.1.phaser? e.t 0x4000 with
        | some q => q.done x.2 == b
        | none => false) = true
    Meets .bars barsF (s handled) (fun e => hScope 0x4000 = 2 ∧ Names barsF (s handled) e 0x4000 bar ∧ e.hdr.vgran ≤ e.hdr.shadow ∧
      Registered e 0x4000 barReg [1, 3] ∧ Quiet (s handled) e ∧ ends handled bar true e ∧ e.storesDue (s handled) = false) ∧
    Meets .bars barsF (s pairBar) (fun e => Names barsF (s pairBar) e 0x4000 { bar with n := 2 } ∧ e.hdr.vgran ≤ e.hdr.shadow ∧
      Registered e 0x4000 barReg [1, 3] ∧ Quiet (s pairBar) e ∧ ends pairBar { bar with n := 2 } false e ∧ e.storesDue (s pairBar) = false) :=
  ⟨meetsAt (by decide +kernel) ⟨by decide +kernel, names (by decide +kernel), by decide +kernel, ⟨by decide +kernel, by decide +kernel⟩, quiet (by decide +kernel), by decide +kernel, by decide +kernel⟩,
    meetsAt (by decide +kernel) ⟨names (by decide +kernel), by decide +kernel, ⟨by decide +kernel, by decide +kernel⟩, quiet (by decide +kernel), by decide +kernel, by decide +kernel⟩⟩
theorem witness_SpeculationAndTransactions_transactions :
    let s (i : Instr) (k : Team → Team) := machine 1 i k
    Meets .txbeg txbegF (s (.txbeg txbegF) id) (fun e => e.hdr.vgran ≤ e.hdr.shadow ∧ Quiet (s (.txbeg txbegF) id) e) ∧
    Meets .txend exitF (s (.txend exitF) inTx) (fun e => e.wp.mode = .transactional tx ∧ e.storesDue (s (.txend exitF) inTx) = false ∧ Quiet (s (.txend exitF) inTx) e) ∧
    Meets .txend exitF (s (.txend exitF) id) (fun e => ∀ x, e.wp.mode ≠ .transactional x) ∧
    Meets .txabt txabtF (s (.txabt txabtF) inTx) (fun e => e.wp.mode = .transactional tx) ∧
    Meets .txabt txabtF (s (.txabt txabtF) id) (fun e => ∀ x, e.wp.mode ≠ .transactional x) :=
  ⟨meetsAt (by decide +kernel) ⟨by decide +kernel, quiet (by decide +kernel)⟩, meetsAt (by decide +kernel) ⟨by decide +kernel, by decide +kernel, quiet (by decide +kernel)⟩,
    meetsAt (by decide +kernel) (fun _ h => nomatch h), meetsAt (by decide +kernel) (by decide +kernel), meetsAt (by decide +kernel) (fun _ h => nomatch h)⟩

/-! System instructions. -/

def tileF : Fields := { bare .two with dst := 1, sa := 15, sb := 4, cls := 4 }
def owned (tm : Team) : Team := { bound tm with owned := [0] }
def fenceF : Fields := { bare .two with sc := 0x1D }
def csrrF (u : BitVec 4) : Fields := { bare .two with dst := 2, sa := 0x43, cls := u }
def csrwF : Fields := { bare .two with sa := 0x30, sc := 6, cls := 8 }
def ovldF : Fields := { bare .two with sa := 4, cls := 2 }
def claimF : Fields := { bare .two with sa := 4, sb := 6, cls := 6 }

theorem witness_SystemInstructions_waits :
    let s (k : Team → Team) := machine 1 (.tilewait tileF) k
    Meets .tilewait tileF (s bound) (fun e => e.tm.tileFree 15 = true) ∧
    Meets .tilewait tileF (s owned) (fun e => e.tm.tileFree 15 = false ∧ e.b tileF 0 = 0) ∧
    Meets .tilewait tileF (s fun tm => uni 4 1 (owned tm)) (fun e => e.tm.tileFree 15 = false ∧ e.b tileF 0 ≠ 0) ∧
    Meets .fence fenceF (machine 1 (.fence fenceF) id) (fun e => e.held (machine 1 (.fence fenceF) id) fenceF = false) ∧
    Meets .fence fenceF (machine 1 (.fence fenceF) midAtomic) (fun e => e.held (machine 1 (.fence fenceF) midAtomic) fenceF = true) ∧
    Meets .cctlRo exitF (machine 1 (.cctlRo exitF) id) (fun _ => True) :=
  ⟨meetsAt (by decide +kernel) (by decide +kernel), meetsAt (by decide +kernel) (by decide +kernel), meetsAt (by decide +kernel) (by decide +kernel), meetsAt (by decide +kernel) (by decide +kernel),
    meetsAt (by decide +kernel) (by decide +kernel), meetsAt (by decide +kernel) trivial⟩
theorem witness_SystemInstructions_registers :
    Meets .csrr (csrrF 0) (machine 1 (.csrr (csrrF 0)) id) (fun _ => Fields.du (csrrF 0) = false) ∧
    Meets .csrr (csrrF 1) (machine 1 (.csrr (csrrF 1)) id) (fun e => Fields.du (csrrF 1) = true ∧ e.T (csrrF 1) ≠ []) ∧
    Meets .csrw csrwF (machine 1 (.csrw csrwF) id) (fun e => badWindow (e.c2 csrwF 0) = false ∧
      e.contributes (machine 1 (.csrw csrwF) id) = false) ∧
    Meets .csrw csrwF (machine 1 (.csrw csrwF) (uni 7 0x80FF0000)) (fun e => badWindow (e.c2 csrwF 0) = true) ∧
    Meets .ovld ovldF (machine 1 (.ovld ovldF) fun tm => uni 4 0xA2 (privileged tm)) (fun e => badOverflow (e.a ovldF 0) = false) :=
  ⟨meetsAt (by decide +kernel) (by decide +kernel), meetsAt (by decide +kernel) (by decide +kernel), meetsAt (by decide +kernel) (by decide +kernel), meetsAt (by decide +kernel) (by decide +kernel),
    meetsAt (by decide +kernel) (by decide +kernel)⟩
/-- A claim of `len` bytes from `start` on. -/
def claimS (start len : Word) : State := machine 1 (.claim claimF) fun tm => uni 4 start (uni 6 len tm)
def inReplay (s : State) : State := { s with launches := s.launches.map fun l => { l with replay := some default } }
/-- The kernel may not claim. -/
def noClaims (s : State) : State := { s with launches := s.launches.map fun l => { l with hdr := { l.hdr with claim := false } } }
/-- The host has refused to place the page of 0x20000 that the fragment has asked it for. -/
def refusedS : State :=
  (claimS 0x20000 0x10000).modCtx 0 1 fun c => { c with requests := [{ die := 0, num := 0, va := 2, by_ := 1, team := 1, answer := some false }] }
def claims (start len : Nat) (e : Env) : Prop :=
  (e.a2 claimF 0).toNat = start ∧ (e.reg2 true 0 6).toNat = len ∧ e.fr.claim = 0 ∧ badClaim start len = false
def claimable (s : State) (e : Env) : Prop := (match e.claimAnswer s with
  | (s₁, none) => (match e.claimChecks s₁ 0x30000 1 0x20000 with
    | .ok => true
    | _ => false)
  | _ => false) = true
theorem witness_SystemInstructions_claim :
    Meets .claim claimF (claimS 1 0x10000) (fun e => badClaim (e.a2 claimF 0).toNat (e.reg2 true 0 6).toNat = true) ∧
    Meets .claim claimF (noClaims (claimS 0x20000 0x10000)) (fun e => claims 0x20000 0x10000 e ∧ e.hdr.claim = false) ∧
    Meets .claim claimF (claimS 0x20000 0) (claims 0x20000 0) ∧
    Meets .claim claimF (inReplay (claimS 0x20000 0x10000)) (fun e => claims 0x20000 0x10000 e ∧
      claimable (inReplay (claimS 0x20000 0x10000)) e ∧ e.hdr.claim = true ∧ e.ln.replay.isSome = true) ∧
    Meets .claim claimF (claimS 0x20000 0x10000) (fun e => claims 0x20000 0x10000 e ∧
      claimable (claimS 0x20000 0x10000) e ∧ e.hdr.claim = true ∧ e.ln.replay.isSome = false) ∧
    Meets .claim claimF refusedS (fun e => claims 0x20000 0x10000 e ∧ e.hdr.claim = true ∧ (e.claimAnswer refusedS).2 = some 0x20000) := by
  unfold claims claimable
  exact ⟨meetsAt (by decide +kernel) (by decide +kernel), meetsAt (by decide +kernel) (by decide +kernel), meetsAt (by decide +kernel) (by decide +kernel),
    meetsAt (by decide +kernel) (by decide +kernel), meetsAt (by decide +kernel) (by decide +kernel), meetsAt (by decide +kernel) (by decide +kernel)⟩

/-! Accesses: what the checks of R251 find, and that the accesses themselves are made. -/

def atPage (tm : Team) : Team := uni 4 0x20000 (vec 1 2 0x20000 (vec 0 2 0x20000 tm))

def checksOf (s : State) (f : Fields) (n : Need) (space : Nat) (ms : List Member) : Checks :=
  (envOf s).locateAll s n space ((envOf s).baseOf f) (offsetOf f) ms

def clean (c : Checks) : Bool := c.faults.isEmpty && c.wait.isNone && c.bad.isNone

theorem reaches {s : State} {f : Fields} {n : Need} {space : Nat} {ms : List Member} (h : ms ≠ []) (h' : clean (checksOf s f n space ms) = true) :
    Reaches (envOf s) f s n space ms (checksOf s f n space ms).s (checksOf s f n space ms).spots := by
  simp only [clean, Bool.and_eq_true, List.isEmpty_iff, Option.isNone_iff_eq_none] at h'
  refine ⟨h, ?_⟩
  show checksOf s f n space ms = _
  revert h'
  cases checksOf s f n space ms
  rintro ⟨⟨rfl, rfl⟩, rfl⟩
  rfl

theorem opens {e : Env} {s : State} {w r : Bool} {xs : List (Member × Spot)} (h : ((s.team e.t).warp e.fr.warp).mode = .normal) :
    Open_ e s w r xs := fun k => by simp only [Env.inMode, h]

/-- The hypotheses of a load's clause, with the state and the spots that the checks give. -/
def loads (s : State) (f : Fields) (ro : Bool) : Bool :=
  let e := envOf s
  let n := accessSize f.typ.toNat
  let c := checksOf s f (need false true true false n) f.space (e.actors f)
  !(e.actors f).isEmpty && clean c && (((c.s.team e.t).warp e.fr.warp).mode == .normal)
    && c.s.collects e.core (requests c.spots).length && (e.loadAll (readyToLoad e f c.s c.spots) n ro c.spots).toOption.isSome

theorem loading {s : State} {f : Fields} {ro : Bool} (h : loads s f ro = true) : ∃ s₁ xs s₂ vs,
    Reaches (envOf s) f s (need false true true false (accessSize f.typ.toNat)) f.space ((envOf s).actors f) s₁ xs ∧
      Reads (envOf s) s₁ xs ∧
      (envOf s).loadAll (readyToLoad (envOf s) f s₁ xs) (accessSize f.typ.toNat) ro xs = .ok (s₂, vs) := by
  simp only [loads, Bool.and_eq_true, Bool.not_eq_true', beq_iff_eq, Option.isSome_iff_exists] at h
  obtain ⟨⟨⟨⟨h1, h2⟩, h3⟩, h5⟩, v, h4⟩ := h
  refine ⟨_, _, v.1, v.2, reaches (fun hn => by simp [hn] at h1) h2, ⟨opens h3, h5⟩, ?_⟩
  revert h4
  cases Env.loadAll _ _ _ _ _ <;> simp [Except.toOption]

/-- The same for an atomic. -/
def updates (s : State) (f : Fields) (host : Bool) : Bool :=
  let e := envOf s
  let n := accessSize f.typ.toNat
  let c := checksOf s f (need true true host false n) f.space (e.actors f)
  !(e.actors f).isEmpty && clean c && (((c.s.team e.t).warp e.fr.warp).mode == .normal)
    && (c.spots.all fun x => !c.s.isBad x.2.place) && !e.held c.s f

theorem updating {s : State} {f : Fields} {host : Bool} (h : updates s f host = true) : ∃ s₁ xs,
    Reaches (envOf s) f s (need true true host false (accessSize f.typ.toNat)) f.space ((envOf s).actors f) s₁ xs ∧
      Open_ (envOf s) s₁ true true xs ∧ (∀ x ∈ xs, s₁.isBad x.2.place = false) ∧ (envOf s).held s₁ f = false := by
  simp only [updates, Bool.and_eq_true, Bool.not_eq_true', beq_iff_eq, List.all_eq_true] at h
  obtain ⟨⟨⟨⟨h1, h2⟩, h3⟩, h4⟩, h5⟩ := h
  exact ⟨_, _, reaches (fun hn => by simp [hn] at h1) h2, opens h3, h4, h5⟩

def ldF : Fields := { bare .three with dst := 8, sa := 2, sc := 0x0D, typ := 2, imm := 16 }
def rfLdF : Fields := { bare .two with dst := 8, sa := 2, typ := 2, mod := 1 }
def roF : Fields := { bare .two with dst := 8, sa := 2, typ := 3 }
/-- The fragment is an issue group of an open region. -/
def grouped (tm : Team) : Team :=
  (((entered (atPage tm)).modThread 0 fun th => { th with live := 0xFFFFFFFF })).modFrag 1 fun fr => { fr with grp := some 1 }
def stF : Fields := { bare .two with sa := 2, sb := 5, sc := 0x10, typ := 1 }

theorem witness_LoadsAndStores_loads :
    Meets .ld ldF (machine 2 (.ld ldF) atPage) (fun _ => loads (machine 2 (.ld ldF) atPage) ldF false = true) ∧
    Meets .ldro roF (machine 1 (.ldro roF) atPage) (fun _ => loads (machine 1 (.ldro roF) atPage) roF true = true) ∧
    Meets .ldRf rfLdF (machine 1 (.ldRf rfLdF) atPage) (fun e => loads (machine 1 (.ldRf rfLdF) atPage) rfLdF false = true ∧ e.region = false) ∧
    Meets .ldRf rfLdF (machine 1 (.ldRf rfLdF) grouped) (fun e => e.region = true ∧ e.fr.ent = none ∧
      Quiet (machine 1 (.ldRf rfLdF) grouped) e ∧
      loads (settledOf (machine 1 (.ldRf rfLdF) grouped) e) rfLdF false = true) :=
  ⟨meetsAt (by decide +kernel) (by decide +kernel), meetsAt (by decide +kernel) (by decide +kernel), meetsAt (by decide +kernel) (by decide +kernel),
    meetsAt (by decide +kernel) ⟨by decide +kernel, by decide +kernel, quiet (by decide +kernel), by decide +kernel⟩⟩
theorem witness_LoadsAndStores_stores :
    let s := machine 2 (.st stF) atPage
    let p := { bare .two with sa := 2, typ := 0 }
    Meets .st stF s (fun e => ∃ s₁ xs, Reaches e stF s (need true false true false 2) stF.space (e.T stF) s₁ xs ∧ Open_ e s₁ true false xs ∧
      e.held s₁ stF = false ∧ s.far = [] ∧ ∀ x ∈ xs, s₁.isBad x.2.place = false) ∧
    Meets .prefl p (machine 1 (.prefl p) atPage) (fun _ => True) :=
  ⟨meetsAt (by decide +kernel) ⟨_, _, reaches (by decide +kernel) (by decide +kernel), opens (by decide +kernel), by decide +kernel, rfl, by decide +kernel⟩, meetsAt (by decide +kernel) trivial⟩

/-- An atomic or a reduction of the format 0x0A, and one of 0x02. -/
def amoF (t : BitVec 5) (d : BitVec 8) : Fields := { bare .two with dst := d, sa := 2, sb := 4, typ := t }

theorem witness_AtomicResults :
    ([Instr.atomAdd, .atomMin, .atomMax, .atomInc, .atomDec].all fun c =>
      ready c (amoF 10 8) (machine 1 (c (amoF 10 8)) atPage) && updates (machine 1 (c (amoF 10 8)) atPage) (amoF 10 8) false) = true ∧
    ([Instr.atomAnd, .atomOr, .atomXor, .atomXchg, .atomCas].all fun c =>
      ready c (amoF 2 8) (machine 1 (c (amoF 2 8)) atPage) && updates (machine 1 (c (amoF 2 8)) atPage) (amoF 2 8) true) = true ∧
    ([Instr.redAdd, .redMin, .redMax, .redInc, .redDec].all fun c =>
      ready c (amoF 10 0) (machine 1 (c (amoF 10 0)) atPage) && updates (machine 1 (c (amoF 10 0)) atPage) (amoF 10 0) false) = true ∧
    ([Instr.redAnd, .redOr, .redXor].all fun c =>
      ready c (amoF 2 0) (machine 1 (c (amoF 2 0)) atPage) && updates (machine 1 (c (amoF 2 0)) atPage) (amoF 2 0) false) = true := by and_intros <;> decide +kernel
theorem finished {α : Type} {x : Except Nat (State × α)} (h : x.toOption.isSome = true) : ∃ s v, x = .ok (s, v) := by
  cases x with
  | error c => simp [Except.toOption] at h
  | ok v => exact ⟨v.1, v.2, rfl⟩

theorem answered_of {α β : Type} {x : Except α β} (h : x.toOption.isSome = true) : ∃ v, x = .ok v := by
  cases x with
  | error c => simp [Except.toOption] at h
  | ok v => exact ⟨v, rfl⟩

theorem witness_AtomicResults_done :
    let s := machine 1 (.atomAdd (amoF 10 8)) atPage
    let e := envOf s
    let c := checksOf s (amoF 10 8) (need true true true false 4) 0 (e.actors (amoF 10 8))
    ∃ s₂ vs, e.rmwAll (e.countAtomics (e.order (e.ownFar c.s) (amoF 10 8)) c.spots) 4 (fun _ old => old) c.spots = .ok (s₂, vs) :=
  finished (by decide +kernel)
/-- Two threads add to one word, and only the first addition comes with the issue. -/
def pacedS : State :=
  let s := machine 2 (.atomAdd (amoF 10 8)) fun tm => vec 1 4 2 (vec 0 4 1 (atPage tm))
  { s with mem := s.mem.write 0x110000 [10], cur := { s.cur with pace := some 1 } }

theorem witness_AtomicResults_paced :
    (ready .atomAdd (amoF 10 8) pacedS && updates pacedS (amoF 10 8) false && (envOf pacedS).pacing pacedS (checksOf pacedS (amoF 10 8) (need true true true false 4) 0 ((envOf pacedS).actors (amoF 10 8))).spots == 1) = true := by decide +kernel
def halfway : State := match exec (.atomAdd (amoF 10 8)) pacedS with
  | .next s => { s with mem := s.mem.write 0x110000 [100], agenda := [.rmw 1 1] }
  | _ => State.reset
theorem witness_AtomicResults_next :
    (match (halfway.team 1 |>.frag 1).st with
      | .waiting (.rmws i [x] vs) => i == .atomAdd (amoF 10 8) && vs == [(0, 10)] && ((halfway.envAt 1 1).rmw1 halfway x.1 x.2 4 id).toOption.isSome
      | _ => false) = true ∧
    (halfway.launch? (halfway.team 1).launch).isSome = true ∧ halfway.overflowed (halfway.team 1).launch = false ∧
    (halfway.team 1).st ≠ .saving := by and_intros <;> decide +kernel
/-- R253, R257: a store of 100 falls between the two additions. -/
theorem test_store_between_additions : (match step halfway with
    | .next s => (((s.team 1).thread 0).v.getD 8 0, ((s.team 1).thread 1).v.getD 8 0, s.mem.nat 0x110000 4) == (10, 100, 102)
    | _ => false) = true := by decide +kernel
/-! Exact accumulators: the window of the team holds 64 KiB from 0x20000. -/

def windowed (tm : Team) : Team := { atPage tm with rxwin := 0x8800000000020000#64 }
def redxF : Fields := { bare .two with sa := 2, sb := 5, typ := 14 }
def redxfF : Fields := { bare .two with dst := 8, sa := 2, sb := 3, typ := 14 }

theorem witness_ExactInstructions :
    let s := machine 2 (.redx redxF) windowed
    let s' := machine 2 (.redxf redxfF) windowed
    Meets .redx redxF s (fun e => ∃ s₁ xs, Reaches e redxF s (need true false false true 4) 0 (e.T redxF) s₁ xs ∧ e.held s₁ redxF = false ∧
      ∃ s₂, s₁.exactRoom e.pf (e.ctx s₁) (xs.map fun x => x.2.place) = .ok s₂) ∧
    Meets .redxf redxfF s' (fun e => ∃ s₁ xs, Reaches e redxfF s' (need true true false true 4) 0 (e.actors redxfF) s₁ xs ∧ e.held s₁ redxfF = false ∧
      ∃ s₂, s₁.exactRoom e.pf (e.ctx s₁) ((xs.map fun x => x.2.place).filter fun p => (s₁.exact? e.pf (e.ctx s₁) p).isSome) = .ok s₂ ∧
      ∃ s₃ vs, e.finishAll (e.order (e.ownFar s₂) redxfF) 3 xs = .ok (s₃, vs)) :=
  ⟨meetsAt (by decide +kernel) ⟨_, _, reaches (by decide +kernel) (by decide +kernel), by decide +kernel, answered_of (by decide +kernel)⟩,
    meetsAt (by decide +kernel) ⟨_, _, reaches (by decide +kernel) (by decide +kernel), by decide +kernel, _, rfl, finished (by decide +kernel)⟩⟩

/-! Tiles of 16 rows of 32 bytes in granules 0 and 1, and 8-bit products of 16 by 16 elements (R286, R287). -/

def tiled (tm : Team) : Team := uni 6 0x404 (atPage { tm with tiles := [0, 0x800400F002000000#64, 0x800400F002000001#64] ++ List.replicate 13 0 })
def scaled (tm : Team) : Team := uni 6 0x1818 { tm with tiles := [0, 0x801800F003000000#64, 0x801800F003000001#64] ++ List.replicate 13 0 }
def mmaF : Fields := { bare .two with dst := 31, sa := 1, sb := 2, sc := 6, cls := 8 }
def bindF : Fields := { bare .two with dst := 15, sa := 4, sb := 5, typ := 16, cls := 6 }
def relF : Fields := { bare .two with dst := 1 }
def accF : Fields := { bare .two with dst := 31 }
def aldF : Fields := { bare .two with dst := 31, sa := 4, typ := 12, cls := 2 }
def astF : Fields := { bare .two with sa := 4, sb := 31, typ := 13, cls := 2 }

def room (e : Env) : Prop := ∀ g ∈ tileGrans (e.tm.tiles.getD 1 0) ++ tileGrans (e.tm.tiles.getD 2 0), g ∉ e.tm.owned
def params (e : Env) (scaled : Bool) : Option Nat := goodParams scaled (e.w 6) (e.w 7) (e.tm.tiles.getD 1 0) (e.tm.tiles.getD 2 0)

theorem blockReaches {s : State} {f : Fields} {n : Need} (h : (envOf s).T f ≠ []) (h' : clean ((envOf s).blockChecks s n f) = true) :
    BlockReaches (envOf s) f s n ((envOf s).blockChecks s n f).s ((envOf s).blockChecks s n f).spots := by
  simp only [clean, Bool.and_eq_true, List.isEmpty_iff, Option.isNone_iff_eq_none] at h'
  refine ⟨h, ?_⟩
  revert h'
  cases (envOf s).blockChecks s n f
  rintro ⟨⟨rfl, rfl⟩, rfl⟩
  rfl

theorem witness_MatrixInstructions_tiles :
    Meets .tbind bindF (machine 1 (.tbind bindF) (uni 5 0x10000)) (fun e => badTileWindow e.hdr.scratch (e.a bindF 0) (e.b bindF 0) = false) ∧
    Meets .tbind bindF (machine 1 (.tbind bindF) fun tm => uni 4 1 (uni 5 0x10000 tm)) (fun e => badTileWindow e.hdr.scratch (e.a bindF 0) (e.b bindF 0) = false) ∧
    Meets .tbind bindF (machine 1 (.tbind bindF) fun tm => uni 4 2 (uni 5 0x10000 tm)) (fun e => badTileWindow e.hdr.scratch (e.a bindF 0) (e.b bindF 0) = true) ∧
    Meets .trel relF (machine 1 (.trel relF) tiled) (fun _ => True) :=
  ⟨meetsAt (by decide +kernel) (by decide +kernel), meetsAt (by decide +kernel) (by decide +kernel), meetsAt (by decide +kernel) (by decide +kernel), meetsAt (by decide +kernel) trivial⟩
theorem witness_MatrixInstructions_products :
    Meets .mma mmaF (machine 1 (.mma mmaF) tiled) (fun e => params e false = some 32 ∧ room e ∧ QueueOpen (e.ownFar (machine 1 (.mma mmaF) tiled)) e) ∧
    Meets .mmabs mmaF (machine 1 (.mmabs mmaF) scaled) (fun e => params e true = some 32 ∧ room e ∧ QueueOpen (e.ownFar (machine 1 (.mmabs mmaF) scaled)) e) ∧
    Meets .mma mmaF (machine 1 (.mma mmaF) scaled) (fun e => params e false = none) ∧
    Meets .mma mmaF (machine 1 (.mma mmaF) fun tm => { tiled tm with owned := [1] }) (fun e => params e false = some 32 ∧ ¬ room e) ∧
    Meets .azero accF (machine 1 (.azero accF) id) (fun e => QueueOpen (machine 1 (.azero accF) id) e) ∧
    Meets .amov accF (machine 1 (.amov accF) id) (fun e => QueueOpen (machine 1 (.amov accF) id) e) := by
  unfold QueueOpen room
  exact ⟨meetsAt (by decide +kernel) (by decide +kernel), meetsAt (by decide +kernel) (by decide +kernel), meetsAt (by decide +kernel) (by decide +kernel), meetsAt (by decide +kernel) (by decide +kernel),
    meetsAt (by decide +kernel) (by decide +kernel), meetsAt (by decide +kernel) (by decide +kernel)⟩
theorem witness_MatrixInstructions_ald :
    let s := machine 1 (.ald aldF) tiled
    Meets .ald aldF s (fun e => ∃ s₁ xs, BlockReaches e aldF s (need false true true false 16) s₁ xs ∧ (s₁.core e.tm.core).matrix = [] ∧
      ∃ s₂ vs, e.loadAll (e.order (e.ownFar s₁) aldF) 8 false xs = .ok (s₂, vs) ∧ OnlyUnits (e.order (e.ownFar s₁) aldF) s₂) :=
  meetsAt (by decide +kernel) ⟨_, _, blockReaches (by decide +kernel) (by decide +kernel), by decide +kernel, loadAll_ok _ _ _ _ _ (by decide +kernel)⟩
theorem witness_MatrixInstructions_ast :
    let s := machine 1 (.ast astF) tiled
    Meets .ast astF s (fun e => ∃ s₁ xs, BlockReaches e astF s (need true false true false 16) s₁ xs ∧ Open_ e s₁ true false xs ∧ e.held s₁ astF = false) :=
  meetsAt (by decide +kernel) ⟨_, _, blockReaches (by decide +kernel) (by decide +kernel), opens (by decide +kernel), by decide +kernel⟩

/-! Frames of stores and loads, and accesses of which a check fails. -/

/-- The places are good, and nothing is on its way to another core. -/
def sound (c : Checks) : Bool := clean c && (c.spots.all fun x => !c.s.isBad x.2.place) && c.s.far.isEmpty
def reachesAt (s : State) (f : Fields) (n : Need) (ms : List Member) : Bool :=
  !ms.isEmpty && sound (checksOf s f n f.space ms) && (((checksOf s f n f.space ms).s.team 1).warp 0).mode == .normal && !(envOf s).held (checksOf s f n f.space ms).s f

theorem reachesOf {s : State} {f : Fields} {n : Need} {ms : List Member} (h : reachesAt s f n ms = true) : ∃ s₁ xs,
    Reaches (envOf s) f s n f.space ms s₁ xs ∧ (∀ x ∈ xs, s₁.isBad x.2.place = false) ∧ s₁.far = [] ∧ ((s₁.team 1).warp 0).mode = .normal ∧
      (envOf s).held s₁ f = false := by
  simp only [reachesAt, sound, Bool.and_eq_true, Bool.not_eq_true', List.all_eq_true, List.isEmpty_iff, beq_iff_eq] at h
  obtain ⟨⟨⟨h1, ⟨h2, h3⟩, h4⟩, h5⟩, h6⟩ := h
  exact ⟨_, _, reaches (fun hn => by simp [hn] at h1) h2, h3, h4, h5, h6⟩

/-- The atomics and the reductions whose need of a place `Need` says; the float add reaches no host page (R139). -/
def updatesHost : List (Fields → Instr) := [.atomXchg, .atomCas]
def updatesLocal : List (Fields → Instr) :=
  [.atomAnd, .atomOr, .atomXor, .atomMin, .atomMax, .atomInc, .atomDec, .redAdd, .redAnd, .redOr, .redXor, .redMin, .redMax, .redInc, .redDec]
def typeOf (c : Fields → Instr) : BitVec 5 := match c (bare .two) with
  | .atomMin _ | .atomMax _ | .atomInc _ | .atomDec _ | .redAdd _ | .redMin _ | .redMax _ | .redInc _ | .redDec _ => 10
  | _ => 2
def destOf (c : Fields → Instr) : BitVec 8 := match c (bare .two) with
  | .redAdd _ | .redAnd _ | .redOr _ | .redXor _ | .redMin _ | .redMax _ | .redInc _ | .redDec _ => 0
  | _ => 8
def amoOf (c : Fields → Instr) : Fields := amoF (typeOf c) (destOf c)
/-- The instruction is ready, and its accesses reach their places. -/
def lands (c : Fields → Instr) (f : Fields) (n : Need) (s : State) : Bool :=
  ready c f s && reachesAt s f { n with size := accessSize f.typ.toNat } ((envOf s).actors f)

theorem witness_StoreFrame_updates :
    (updatesLocal.all fun c => lands c (amoOf c) (need true true false false 0) (machine 2 (c (amoOf c)) atPage)) = true ∧
    (updatesHost.all fun c => lands c (amoOf c) (need true true true false 0) (machine 2 (c (amoOf c)) atPage)) = true ∧
    lands .atomAdd (amoF 10 8) (need true true true false 0) (machine 2 (.atomAdd (amoF 10 8)) atPage) = true ∧
    lands .atomAdd (amoF 14 8) (need true true false false 0) (machine 2 (.atomAdd (amoF 14 8)) atPage) = true ∧
    lands .st stF (need true false true false 0) (machine 2 (.st stF) atPage) = true := by and_intros <;> decide +kernel
theorem witness_StoreFrame_loads :
    lands .ld ldF (need false true true false 0) (machine 2 (.ld ldF) atPage) = true ∧
    lands .ldRf rfLdF (need false true true false 0) (machine 1 (.ldRf rfLdF) atPage) = true ∧
    (envOf (machine 1 (.ldRf rfLdF) atPage)).region = false ∧
    Meets .ldRf rfLdF (machine 1 (.ldRf rfLdF) grouped) (fun e => e.region = true ∧ e.fr.ent = none ∧ Quiet (machine 1 (.ldRf rfLdF) grouped) e ∧
      reachesAt (settledOf (machine 1 (.ldRf rfLdF) grouped) e) rfLdF (need false true true false 4) (e.actors rfLdF) = true) :=
  ⟨by decide +kernel, by decide +kernel, by decide +kernel,
    meetsAt (by decide +kernel) ⟨by decide +kernel, by decide +kernel, quiet (by decide +kernel), by decide +kernel⟩⟩
theorem witness_StoreFrame_exact :
    let s := machine 2 (.redx redxF) windowed
    let s' := machine 2 (.redxf redxfF) windowed
    Meets .redx redxF s (fun e => ∃ s₁ xs, Reaches e redxF s (need true false false true 4) 0 (e.T redxF) s₁ xs ∧ e.held s₁ redxF = false ∧
      ∃ s₂, s₁.exactRoom e.pf (e.ctx s₁) (xs.map fun x => x.2.place) = .ok s₂ ∧
        ∀ x ∈ xs, (s₂.exact? e.pf (e.ctx s₂) x.2.place).all (fun y => y.spill.isNone) = true) ∧
    Meets .redxf redxfF s' (fun e => ∃ s₁ xs, Reaches e redxfF s' (need true true false true 4) 0 (e.actors redxfF) s₁ xs ∧ e.held s₁ redxfF = false ∧
      ∃ s₂, s₁.exactRoom e.pf (e.ctx s₁) ((xs.map fun x => x.2.place).filter fun p => (s₁.exact? e.pf (e.ctx s₁) p).isSome) = .ok s₂ ∧
        ∀ x ∈ xs, s₂.isBad x.2.place = false) :=
  ⟨meetsAt (by decide +kernel) ⟨_, _, reaches (by decide +kernel) (by decide +kernel), by decide +kernel, _, rfl, by decide +kernel⟩,
    meetsAt (by decide +kernel) ⟨_, _, reaches (by decide +kernel) (by decide +kernel), by decide +kernel, _, rfl, by decide +kernel⟩⟩
theorem witness_StoreFrame_ast :
    let s := machine 1 (.ast astF) tiled
    Meets .ast astF s (fun e => ∃ s₁ xs, BlockReaches e astF s (need true false true false 16) s₁ xs ∧ Open_ e s₁ true false xs ∧ e.held s₁ astF = false) :=
  witness_MatrixInstructions_ast

/-- The address registers name no page. -/
def nowhere (tm : Team) : Team := uni 5 0xFF (vec 1 3 0xFF (vec 0 3 0xFF (tiled tm)))
/-- A check of some thread fails, and none waits. -/
def failing (c : Checks) : Bool := !c.faults.isEmpty && c.wait.isNone && c.bad.isNone
def fails (c : Fields → Instr) (f : Fields) (n : Need) (s : State) : Bool :=
  ready c f s && failing (checksOf s f n f.space ((envOf s).actors f))
/-- A page of die 1, which does not answer, and for which the fragment has waited (R378). -/
def remoteS (i : Instr) : State :=
  machine 1 i fun tm => (atPage tm).modFrag 1 fun fr => { fr with bounds := [(8, 0x90, 0)] }

/-- Two threads of a fragment fail, and its members stand in the order of their ranks. -/
theorem witness_FaultsFindNoAccess_ranks : let s := machine 2 (.ld ldF) nowhere
    (envOf s).fr.mem.Pairwise (fun a b => a.rank < b.rank) ∧
    (checksOf s ldF (need false true true false 4) ldF.space ((envOf s).actors ldF)).faults.map (·.1) = [0, 1] := by decide +kernel
theorem witness_FaultsFindNoAccess_loads :
    fails .ld ldF (need false true true false 4) (machine 2 (.ld ldF) nowhere) = true ∧
    fails .ldro roF (need false true true false 8) (machine 2 (.ldro roF) nowhere) = true ∧
    fails .ldRf rfLdF (need false true true false 4) (machine 1 (.ldRf rfLdF) nowhere) = true ∧
    (envOf (machine 1 (.ldRf rfLdF) nowhere)).region = false ∧
    (let s := machine 1 (.ldRf rfLdF) fun tm => vec 0 3 0xFF (grouped tm)
     Meets .ldRf rfLdF s fun e => e.region = true ∧ e.fr.ent = none ∧ Quiet s e ∧
      failing ((envOf s).locateAll (settledOf s e) (need false true true false 4) rfLdF.space (e.baseOf rfLdF) (offsetOf rfLdF) (e.actors rfLdF)) = true) ∧
    (let s := machine 1 (.ald aldF) nowhere
     ready .ald aldF s && failing ((envOf s).blockChecks s (need false true true false 16) aldF)) = true :=
  ⟨by decide +kernel, by decide +kernel, by decide +kernel, by decide +kernel,
    meetsAt (by decide +kernel) ⟨by decide +kernel, by decide +kernel, quiet (by decide +kernel), by decide +kernel⟩, by decide +kernel⟩
theorem witness_FaultsFindNoAccess_stores :
    fails .st stF (need true false true false 2) (machine 2 (.st stF) nowhere) = true ∧
    (updatesLocal.all fun c => fails c (amoOf c) (need true true false false 4) (machine 2 (c (amoOf c)) nowhere)) = true ∧
    (updatesHost.all fun c => fails c (amoOf c) (need true true true false 4) (machine 2 (c (amoOf c)) nowhere)) = true ∧
    fails .atomAdd (amoF 10 8) (need true true true false 4) (machine 2 (.atomAdd (amoF 10 8)) nowhere) = true ∧
    fails .redx redxF (need true false false true 4) (machine 2 (.redx redxF) nowhere) = true ∧
    fails .redxf redxfF (need true true false true 4) (machine 2 (.redxf redxfF) nowhere) = true ∧
    (let s := machine 1 (.ast astF) nowhere
     ready .ast astF s && failing ((envOf s).blockChecks s (need true false true false 16) astF)) = true ∧
    ((checksOf (remoteS (.st stF)) stF (need true false true false 2) stF.space ((envOf (remoteS (.st stF))).T stF)).faults.map fun x => x.2.1) = [0x90] := by
  and_intros <;> decide +kernel

/-! Queue registers: the header of a `PFL2` (R309), of a `GNODE` (R304), and one that names no command. -/

def toF : Fields := { bare .two with dst := 7, sa := 5, typ := 2, cls := 2 }
def imF (x : BitVec 64) : Fields := { bare .three with dst := 7, typ := 2, imm := x }
def fromF : Fields := { bare .two with dst := 5, sa := 7, typ := 2 }
def openFrame (o : Nat) (ws : List Word) (tm : Team) : Team := tm.modQueue 7 fun q => { q with owner := some o, words := ws }
def owing (st : CmdState) : Cmd :=
  { (default : Cmd) with id := 9, q := 7, words := [0x40030000, 0x10000000, 0, 0, 0], st, results := [0x77] }

theorem witness_QueueInstructions_pushes :
    let good (e : Env) (s : State) (w : Nat) : Prop := (e.tm.queues.getD 7 default).owner = none ∧ goodHeader (s.devDies e.pf) w = true
    let s (x : BitVec 64) (k : Team → Team) := machine 1 (.moviToQueue (imF x)) k
    Meets .moviToQueue (imF 0x40030000) (s 0x40030000 id) (fun e => good e (s 0x40030000 id) 0x40030000 ∧ e.tm.entries < e.hdr.queues) ∧
    Meets .movToQueue toF (machine 1 (.movToQueue toF) (uni 5 0x40030000)) (fun e => good e (machine 1 (.movToQueue toF) (uni 5 0x40030000)) (e.a toF 0).toNat ∧
      e.tm.entries < e.hdr.queues) ∧
    Meets .moviToQueue (imF 0) (s 0 id) (fun e => (e.tm.queues.getD 7 default).owner = none ∧ goodHeader ((s 0 id).devDies e.pf) 0 = false) ∧
    Meets .moviToQueue (imF 0) (s 0 (openFrame 0 [0x40030000])) (fun e => (e.tm.queues.getD 7 default).owner = some e.fr.warp ∧ 2 ≤ cmdLen 0x40030000) ∧
    Meets .moviToQueue (imF 0) (s 0 (openFrame 1 [0x40030000])) (fun e => (e.tm.queues.getD 7 default).owner = some 1 ∧ e.fr.warp ≠ 1) ∧
    Meets .moviToQueue (imF 0x40) (s 0x40 (openFrame 0 [0x40030000, 0, 0x20000, 0])) (fun e => cmdLen 0x40030000 < 5 ∧ cmdKind 0x40030000 ≠ 4 ∧
      e.submitFault (s 0x40 (openFrame 0 [0x40030000, 0, 0x20000, 0])) [0x40030000, 0, 0x20000, 0, 0x40] = none ∧ ctlGn 0 = false ∧
      e.storesDue (s 0x40 (openFrame 0 [0x40030000, 0, 0x20000, 0])) = false) :=
  ⟨meetsAt (by decide +kernel) (by decide +kernel), meetsAt (by decide +kernel) (by decide +kernel), meetsAt (by decide +kernel) (by decide +kernel), meetsAt (by decide +kernel) (by decide +kernel),
    meetsAt (by decide +kernel) (by decide +kernel), meetsAt (by decide +kernel) (by decide +kernel)⟩
theorem witness_QueueInstructions_pops :
    let s (k : Team → Team) := machine 1 (.movFromQueue fromF) k
    let with_ (st : CmdState) (tm : Team) : Team := { tm with cmds := [owing st] }
    Meets .movFromQueue fromF (s (with_ .complete)) (fun e => firstOwing 7 e.tm.cmds = some (owing .complete) ∧ (owing .complete).fault79 = false) ∧
    Meets .movFromQueue fromF (s (with_ .applied)) (fun e => firstOwing 7 e.tm.cmds = some (owing .applied) ∧ (owing .applied).st ≠ .complete) ∧
    Meets .movFromQueue fromF (s id) (fun e => firstOwing 7 e.tm.cmds = none) :=
  ⟨meetsAt (by decide +kernel) (by decide +kernel), meetsAt (by decide +kernel) (by decide +kernel), meetsAt (by decide +kernel) (by decide +kernel)⟩

/-! Guards, privilege, traps and the step. -/

theorem witness_NotTaken : [Instr.iadd, .bra, .st, .mma, .txbeg].all (fun c =>
    let f : Fields := { bare .three with gneg := true, typ := 6 }
    let s := machine 1 (c f) tiled
    s.env?.isSome && ((envOf s).T f).isEmpty) = true ∧
    (let f : Fields := { bare .two with gneg := true, dst := 3, sa := 1, sb := 2, typ := 6 }
     let s := machine 1 (.iadd f) id
     s.env?.isSome = true ∧ (envOf s).checks (.iadd f) f = none ∧ (envOf s).T f = []) := by decide +kernel
theorem witness_PredicateSeven :
    let f : Fields := { bare .two with gneg := true, dst := 3, sa := 1, sb := 2, typ := 6 }
    let s := machine 1 (.iadd f) id
    f.gp = 7 ∧ f.gneg = true ∧ (Instr.iadd f).fields? = some f ∧ s.env?.isSome = true ∧ (envOf s).checks (.iadd f) f = none := by decide +kernel
theorem witness_Privilege : (machine 1 (.halt exitF) id).env?.isSome = true ∧ (envOf (machine 1 (.halt exitF) id)).fr.priv = false ∧
    ∀ g, Instr.exit exitF ≠ .eret g ∧ Instr.exit exitF ≠ .ovld g ∧ Instr.exit exitF ≠ .halt g :=
  ⟨by decide +kernel, by decide +kernel, fun _ => ⟨by simp, by simp, by simp⟩⟩
theorem witness_RegisterFrame :
    let f : Fields := { bare .two with dst := 3, sa := 1, sb := 2, typ := 6 }
    let g : Fields := { bare .two with dst := 20, sa := 8, sc := 14, typ := 0x18 }
    let h : Fields := { bare .two with dst := 3, sa := 1, sc := 14, typ := 6, mod := 1 }
    (Instr.iadd ∈ registerOnly ∧ Ready .iadd f (machine 1 (.iadd f) id) (envOf (machine 1 (.iadd f) id))) ∧
    (Instr.fcvt ∈ registerOnly ∧ Ready .fcvt g (machine 1 (.fcvt g) id) (envOf (machine 1 (.fcvt g) id))) ∧
    Instr.icvt ∈ registerOnly ∧ Ready .icvt h (machine 1 (.icvt h) id) (envOf (machine 1 (.icvt h) id)) :=
  ⟨⟨by simp [registerOnly], meets (by decide +kernel)⟩, ⟨by simp [registerOnly], meets (by decide +kernel)⟩,
    by simp [registerOnly], meets (by decide +kernel)⟩

def fetched (s : State) (ws : List Word) : Bool :=
  let e := s.envAt 1 1
  decide (e.pc < 2 ^ 56 ∧ e.pc / 2 ^ 48 ≠ 255) && match e.translate s e.pc .fetch with
    | .ok s₁ p _ _ _ => !isHost p && !s₁.isBad p && s₁.blockWords p e.pc == (ws, true)
    | _ => false

theorem fetching {s : State} {ws : List Word} (h : fetched s ws = true) : ∃ s₁, Fetches s 1 1 s₁ ws := by
  simp only [fetched, Bool.and_eq_true, decide_eq_true_eq] at h
  obtain ⟨h1, h2⟩ := h
  split at h2
  next s₁ p o b z hx =>
    simp only [Bool.and_eq_true, Bool.not_eq_true', beq_iff_eq] at h2
    exact ⟨s₁, h1, p, o, b, z, hx, h2.1.1, h2.1.2, h2.2⟩
  next => exact absurd h2 (by decide +kernel)

/-- The first turn of a machine whose fragment stands at the words of an instruction. -/
def turnS (ws : List Word) : State :=
  { machine 1 (.nop (bare .two)) id with mem := tables.write 0x100040 (ws.flatMap fun w => leBytes 4 w.toNat), agenda := [] }

/-- The fragment repeats its instruction, with a stride of DST. -/
def repeating (left : Nat) (std : BitVec 8) (ws : List Word) : State :=
  (turnS ws).modFrag 1 1 fun fr => { fr with rep := some { prefix0 := 0, prefix1 := 0, fields := { repF with std }, left } }
def fieldsAt (std : BitVec 8) (left : Nat) (ws : List Word) : Option (List Word) := stepWords { repF with std } (4 - left) ws
theorem witness_StepRunsDecoded_repeats :
    (∀ left ∈ [1, 2], Turns (repeating left 1 [0x01032072, 0x10060000, 5]) 1 1 ∧
      (∃ s₁, Fetches (repeating left 1 [0x01032072, 0x10060000, 5]) 1 1 s₁ [0x01032072, 0x10060000, 5])) ∧
    fieldsAt 1 1 [0x01032072, 0x10060000, 5] = some [0x04062072, 0x10060000, 5] ∧
    decode [0x04062072, 0x10060000, 5] = .ok (.iadd { bare .three with dst := 6, sa := 4, typ := 6, mod := 1, imm := 5 }) ∧
    decode [0x04062076, 0x10060000, 5] = .ok (.iadd { bare .three with mark := true, dst := 6, sa := 4, typ := 6, mod := 1, imm := 5 }) ∧
    fieldsAt (-1) 1 [0x01022072, 0x10060000, 5] = none :=
  ⟨by intro left h; fin_cases h <;> exact ⟨⟨by decide +kernel, .inr (by decide +kernel), by decide +kernel, by decide +kernel⟩, fetching (by decide +kernel)⟩,
    rfl, rfl, rfl, rfl⟩
theorem witness_StepRunsDecoded : Turns (turnS [0x00000071, 0]) 1 1 ∧ (∃ s₁, Fetches (turnS [0x00000071, 0]) 1 1 s₁ [0x00000071, 0]) ∧
    decode [0x00000071, 0] = .ok (.nop (bare .two)) ∧ ((turnS [0x00000071, 0]).envAt 1 1).fr.rep = none ∧
    (∃ s₁, Fetches (turnS [0x00000075, 0]) 1 1 s₁ [0x00000075, 0]) ∧ decode [0x00000075, 0] = .ok (.nop { bare .two with mark := true }) ∧
    (∃ s₁, Fetches (turnS [0x00000070]) 1 1 s₁ [0x00000070]) ∧ decode [0x00000070] = .error .shortLength ∧
    (∃ s₁, Fetches (turnS [0x0000C071, 0]) 1 1 s₁ [0x0000C071, 0]) ∧ decode [0x0000C071, 0] = .error .unimplemented :=
  ⟨⟨by decide +kernel, .inr (by decide +kernel), by decide +kernel, by decide +kernel⟩, fetching (by decide +kernel), rfl, by decide +kernel, fetching (by decide +kernel), rfl,
    fetching (by decide +kernel), rfl, fetching (by decide +kernel), rfl⟩

/-- The kernel has 8 vector and 8 uniform registers, and its save area stands at 0x20000. -/
def trapS : State :=
  let ln : Launch := { sampleLaunch with save := 0x20000, hdr := { sampleHeader with vgran := 1, ugran := 1, shadow := 0, accs := 0, tiles := 0, scratch := 0 } }
  { machine 1 (.illegalEncoding ⟨[0]⟩) id with
    launches := [ln], teams := [(freshTeam ln 1 0 0 0 1).modFrag 1 fun fr => { fr with walked := true }] }
def framed : Bool := match (settledOf (trapS.modFrag 1 1 Frag.uncount) (envOf trapS)).writeFrame { envOf trapS with fr := (envOf trapS).fr.uncount }
    ((envOf trapS).infoAll 0x01 0) false with
  | .ok s => s.team? 1 == some ((envOf trapS).tm.modFrag 1 Frag.uncount)
  | .error _ => false
theorem witness_TrapRoutineEntry : trapS.far = [] ∧ trapS.env?.isSome = true ∧ (envOf trapS).wp.mode = .normal ∧ (envOf trapS).fr.priv = false ∧
    (envOf trapS).wp.frame = false ∧ (envOf trapS).tm.late (envOf trapS).g = none ∧ (envOf trapS).fr.warp < (envOf trapS).tm.warps.length ∧
    (∀ y ∈ (envOf trapS).fr.win, y.fwd = []) ∧ (trapS.ctx 0 1).hostTraps = false ∧ (envOf trapS).hdr.trap ≠ 0 ∧ framed = true := by
  decide +kernel

/-! Happenings on cores. -/

/-- The fragment waits. -/
def waits (w : Wait) (tm : Team) : Team := tm.modFrag 1 fun fr => { fr with st := .waiting w }
def frag1 (s : State) : Frag := (s.team 1).frag 1
def idleF : Fields := bare .two
def base (k : Team → Team) : State := machine 1 (.nop idleF) k
def trapX : TrapInfo := { cause := 1, tcode := 0, addr := 0, spc := 0x10040, fmask := 1, frank := 0, late := false, words := [] }

theorem witness_FragmentHappenings_trap : Stands (base fun tm => (waits .frame tm).modFrag 1 fun fr => { fr with trap := some trapX }) 1 1
      (frag1 (base fun tm => (waits .frame tm).modFrag 1 fun fr => { fr with trap := some trapX })) .frame ∧
    ((base id).team 1 |>.warp 0).frame = false := by and_intros <;> decide +kernel
/-- A trap that the host has been told of; its command stands in the frame header. -/
def hostS (v : Nat) : State :=
  put 0x159740 (leBytes 8 v) { trapS with teams := trapS.teams.map (waits .host) }
def answered (v : Nat) : Bool :=
  let s := hostS v
  let e := s.envAt 1 1
  let s' := s.dropL1 e.core
  match s'.reachVa (.unit e.g) e.pf (e.ctx s') e.die (e.ln.headVa e.tm.num e.fr.warp + 112) .read with
  | .ok (s₁, p) => s₁.mem.nat p 8 == v && (s₁.deviceWrite (.unit e.g) e.pf (e.ctx s₁) e.die (e.ln.headVa e.tm.num e.fr.warp + 112) (leBytes 8 0)).toOption.isSome
  | .error _ => false
theorem witness_FragmentHappenings_host : Stands (hostS 1) 1 1 (frag1 (hostS 1)) .host ∧ answered 1 = true ∧ answered 2 = true ∧ answered 3 = true := by and_intros <;> decide +kernel
theorem witness_FragmentHappenings_gather : Stands (base (waits (.gather idleF [0]))) 1 1 (frag1 (base (waits (.gather idleF [0])))) (.gather idleF [0]) ∧
    0 ∈ [0] := by and_intros <;> decide +kernel
def joining (tm : Team) : Team :=
  { tm.modFrag 1 fun fr => { fr with ent := some 7 } with splits := [{ id := 7, warp := 0, grp := none, reconv := 0x10040, mem := [0], arrived := [], parent := none }] }
theorem witness_FragmentHappenings_park : (base joining).canIssue 1 1 = true ∧ ((base joining).envAt 1 1).tm.atJoin ((base joining).envAt 1 1).fr = true ∧
    (((base joining).deliverFrag 1 1).team 1).late 1 = none := by decide +kernel

def binned (tids : List (Nat × Int)) (aged : Bool) (t : Nat) : State :=
  (machine t (.nop idleF) entered).modCore 0 fun k => { k with bins := [some { team := 1, key := 0x10080, tids, aged }] }
theorem witness_ArbourHappenings_draw :
    let s := binned [(0, 0), (1, 0)] true 2
    let b : Bin := { team := 1, key := 0x10080, tids := [(0, 0), (1, 0)], aged := true }
    (s.core 0).bins.getD 0 none = some b ∧ (s.team 1).active = true ∧ (s.team? 1).isSome = true ∧ (s.core 0).drew = false ∧
      goodChoice (s.launchOf 1).hdr (s.team 1) (b.tids.map (·.1)) [0, 1] = true := by decide +kernel
def childS : State :=
  (machine 1 (.nop idleF) fun tm => { entered tm with threads := tm.threads ++ [{ freshThread sampleHeader with child := true, queued := true, resume := 0x10080 }] }).modCore
    0 fun k => { k with spawn := [(1, 1)], bins := List.replicate 64 none }
theorem witness_ArbourHappenings_child : (childS.core 0).spawn = [(1, 1)] ∧ (childS.team 1).active = true ∧ childS.childrenOn 0 < Config.childContexts ∧
    (((childS.modCore 0 fun k => { k with spawn := [] }).modTeam 1 fun tm => tm.modThread 1 fun th => { th with queued := false }).fileThread
      1 1 0x10080).isSome = true := by decide +kernel

/-- The leaf of 0x20000 with other low bits. -/
def leafS (low : Byte) (k : Team → Team) : State := put 0x40010 [low] (base k)
def leafIs (s : State) (m u : Bool) : Bool := match s.leaf ((s.envAt 1 1).who s) 0x20000 with
  | .found _ en _ => entryM en == m && entryU en == u
  | _ => false
theorem witness_TranslationHappenings_walk : Stands (leafS 0x6F (waits (.walk 0x20000))) 1 1 (frag1 (leafS 0x6F (waits (.walk 0x20000)))) (.walk 0x20000) ∧
    leafIs (leafS 0x6F (waits (.walk 0x20000))) false false = true ∧ leafIs (leafS 0x7F (waits (.walk 0x20000))) false true = true := by and_intros <;> decide +kernel
theorem witness_TranslationHappenings_waits :
    (∀ w ∈ [Wait.pool 0x20000 0, .remote 0x20000 0, .remote noVa 0], Stands (base (waits w)) 1 1 (frag1 (base (waits w))) w) ∧ 0x20000 ≠ noVa ∧
    0 ≤ nowOf (base id) 1 1 ∧ ((base id).devDies 0)[(0x03000000 : Word).toNat / 2 ^ 24 % 4]? = some 3 := by and_intros <;> decide +kernel
def claimingS : State := base (waits (.claim 0x20000 0x30000))
theorem witness_TranslationHappenings_claim : Stands claimingS 1 1 (frag1 claimingS) (.claim 0x20000 0x30000) ∧
    (match (claimingS.envFetched 1 1).claimPage claimingS 0x20000 with
      | .ok _ _ => true
      | _ => false) = true := by and_intros <;> decide +kernel

def farS (tid : Nat) : FarStore := { team := 1, tid, issue := 0, pc := 0, off := 0, core := 0, data := [1], words := [] }
def opS : MatrixOp := { id := 9, team := 1, acc := 0, elems := [], cycles := 1, cmd := none }
theorem witness_EndingWaits :
    Stands (base (waits (.tryWait 0x4000 0 0 waitF))) 1 1 (frag1 (base (waits (.tryWait 0x4000 0 0 waitF)))) (.tryWait 0x4000 0 0 waitF) ∧
    Stands (base (waits (.tile 15 0 tileF))) 1 1 (frag1 (base (waits (.tile 15 0 tileF)))) (.tile 15 0 tileF) ∧
    ((base fun tm => (inTx tm).modWarp 0 fun wp => wp.signal 2).team 1 |>.warp 0).aborting = true ∧
    { base id with far := [farS 0, farS 1] }.far[0]? = some (farS 0) ∧ { base id with far := [farS 0, farS 1] }.far[1]? = some (farS 1) ∧
    ((farS 0).issue = (farS 1).issue ∧ (farS 0).core = (farS 1).core ∧ (farS 0).off < (farS 1).off + 1) ∧ (((base id).modCore 0 fun k => { k with matrix := [opS] }).core 0).matrix = [opS] := by and_intros <;> decide +kernel

/-! Engine commands: the words of a command of the layouts of R308 to R333, at an engine of the sample team. -/

def cmdOf (st : CmdState) (ws : List Word) : Cmd := { (default : Cmd) with id := 9, words := ws, st }
def cmdS (x : Cmd) : State := base fun tm => { tm with cmds := [x] }
def runsIn (s : State) (x : Cmd) : Bool := decide (s.cmdAt 1 9 x.kind x.opc x.st = some x)
def runs (x : Cmd) : Bool := runsIn (cmdS x) x
def who (x : Cmd) : Who := actsFor (cmdS x) 1 x
/-- Every quadrant of die 0 has lost its power. -/
def lostS (x : Cmd) : State := (cmdS x).modDie 0 fun d => { d with quadLost := [0, 1, 2, 3] }
def Eng.isOk {α : Type} : Eng α → Bool
  | .ok _ _ => true
  | _ => false
/-- Does a copy of `n` elements end at the index that `p` names? -/
def copied (x : Cmd) (n i : Nat) : Bool := match (cmdS x).copyGo (who x) 1 x n n x.idx with
  | (j, .ok _ ()) => j == i
  | _ => false

def copyC : Cmd := cmdOf .launched [0x60000000, 0, 0x20000, 0, 0x30000, 0, 4]
def copyndC : Cmd := cmdOf .launched [0xF0010000, 0, 0x20000, 0, 0x30000, 0, 2, 2, 1, 1, 4, 8, 0, 0, 0, 0]
theorem witness_CopyEngine_copies : runs copyC = true ∧ copied copyC 4 4 = true ∧ copied copyC 3 3 = true ∧ copyLength copyC = 4 ∧
    runs copyndC = true ∧ copied copyndC 4 4 = true ∧ copied copyndC 3 3 = true ∧ copyLength copyndC = 4 := by decide +kernel
def redC : Cmd := cmdOf .launched [0x70020000, 0, 0x20000, 0, 0x30000, 0, 4, 0x600]
def pfl2C : Cmd := cmdOf .launched [0x40030000, 0, 0x20000, 0, 64]
def sentE (seq : Nat) : Sent := { slice := 0, seq, elem := 0, place := 0x120000, data := 1, held := false, page := (0, 0) }
theorem witness_CopyEngine_reductions : runs redC = true ∧ redC.issued = false ∧ Eng.isOk ((cmdS redC).redGo (who redC) 1 9 2) = true ∧
    runs pfl2C = true ∧
    (∀ q ∈ [0, 1], let x := { redC with sent := [sentE q] }
      ((cmdS x).team 1).cmd? 9 = some x ∧ (x.sent.find? fun y => y.slice == 0 && y.seq == q && y.elem == 0) = some (sentE q) ∧
        x.next (sentE q) = (q == 0)) := by decide +kernel

/-- A node that `GNODE` makes wait for one command, and one that `GARM` arms again. -/
def gnodeWs : List Word := [0x34000000, 0x20000000, 0x01000000, 0]
def garmWs : List Word := [0x14010000, 0x20000000]
def graphS (st : NodeState) : State := base fun tm => { tm with nodes := [{ (default : Node) with st, pred := 1 }, default] }
def framedAs (s : State) (ws : List Word) (opc : Nat) : Bool :=
  (s.team? 1).isSome && goodHeader [] (wn ws 0) && cmdKind (wn ws 0) == 4 && cmdOpc (wn ws 0) == opc && ws.length == cmdLen (wn ws 0) + 1
    && (s.acceptGraph 1 ws).toOption.isSome
/-- No link of the package is up. -/
def cutS (x : Cmd) : State := { cmdS x with links := List.replicate 4 { Link.reset with failed := true } }
def farC : Cmd := cmdOf .launched [0x81030C00]
theorem witness_CommandsAndGraphs : framedAs (graphS .free) gnodeWs 0 = true ∧ framedAs (graphS .done) garmWs 1 = true ∧
    ((cmdS { copyC with st := .applied }).team 1).cmd? 9 = some { copyC with st := .applied } ∧
    ((cmdS { copyC with st := .held }).team 1).cmd? 9 = some { copyC with st := .held } ∧
    (runsIn (cutS farC) farC = true ∧ (cutS farC).engineLost farC = false ∧ (cutS farC).engineFar farC = true) ∧
    (∀ h ∈ [0x81030000, 0xE2000000], let x := cmdOf .launched [BitVec.ofNat 32 h]
      ((cmdS x).team 1).cmd? 9 = some x ∧ (x.kind = 1 ∨ x.kind = 2) ∧ runs x = true ∧ (cmdS x).engineLost x = false ∧ (cmdS x).engineFar x = false ∧
        (lostS x).engineLost x = true ∧ runsIn (lostS x) x = true ∧ ∀ tm ∈ (cmdS x).teams, ∀ y ∈ tm.cmds, y.before x = false) := by decide +kernel

/-- A valid table of engine 0 at 0x30000 with one cell of key 0. -/
def tableS (s : State) : State := put 0x120008 [1, 0, 0, 0, 0, 0, 0, 0x80] s
def writesOk (w : Who) : State → List (Nat × List Byte) → Bool
  | _, [] => true
  | s, (va, bs) :: l => match s.eWrite w va bs with
    | .ok s₁ () => writesOk w s₁ l
    | _ => false
def written (w : Who) (s : State) (l : List (Nat × List Byte)) : State := l.foldl (fun s y => match s.eWrite w y.1 y.2 with
  | .ok s₁ () => s₁
  | _ => s) s
theorem writes_of_ok {w : Who} {l : List (Nat × List Byte)} : ∀ {s : State}, writesOk w s l = true → ∃ s', Writes w s l s' := by
  induction l with
  | nil => exact fun {s} _ => ⟨s, rfl⟩
  | cons x l ih =>
    intro s h
    obtain ⟨va, bs⟩ := x
    simp only [writesOk] at h
    split at h
    · rename_i s₁ e
      obtain ⟨s', h'⟩ := ih h
      exact ⟨s', s₁, e, h'⟩
    · exact absurd h (by simp)

def voxelC : Cmd := cmdOf .takenUp
  [0xF1000000, 0, 0x30000, 0, 0x40000, 0, 0x41000, 0, 0x42000, 0, 1, 0, 0, 0, 0x3F800000, 4]
def voxelGoes (s : State) (x : Cmd) : Bool :=
  let w := who x
  let base := addrOf x.words 2
  let n := min (x.word 10) maxPoints
  match s.openTable w 1 x true false (x.word 15 % 4) with
  | .ok s₁ (.go h) => match s₁.eRead w (addrOf x.words 4) (16 * n) with
    | .ok s₂ bs =>
      let vx := Voxels.points x n 0 bs { cells := [], keys := [], dropped := x.word 10 - n, rejected := 0 }
      let rows := sortCells vx.cells
      let ks := rows.map (·.key)
      let first := [(addrOf x.words 6, wordBytes 4 (rows.map (·.winner))),
        (addrOf x.words 8, wordBytes 4 (vx.keys.map fun k => (k.bind (rowOf ks)).getD 0xFFFFFFFF))]
      rows.length == 1 && writesOk w s₂ first && match (written w s₂ first).areaWrite x.tgt w (rowKey base 0) (wordBytes 8 ks) with
        | .ok s₄ () => Eng.isOk (s₄.eWrite w base ({ h with cells := rows.length, dropped := vx.dropped, rejected := vx.rejected } : TableHead).bytes)
        | _ => false
    | _ => false
  | _ => false
theorem witness_CoordinateEngine_voxel : runs voxelC = true ∧ (cmdS voxelC).engineLost voxelC = false ∧ (cmdS voxelC).engineFar voxelC = false ∧ voxelGoes (cmdS voxelC) voxelC = true := by and_intros <;> decide +kernel

def bookC : Cmd := cmdOf .takenUp [0x91010000, 0, 0x30000, 0, 0x30000, 0, 0x50000, 0, 16, 0]
def hinsC (flags : Word) : Cmd := cmdOf .takenUp [0x91020000, 0, 0x30000, 0, 0x40000, 0, 0x41000, 0, 1, flags]
def hlookC : Cmd := cmdOf .takenUp [0x81030000, 0, 0x30000, 0, 0x40000, 0, 0x41000, 0, 1]
def hinsGoes (s : State) (x : Cmd) : Bool :=
  match s.openTable (who x) 1 x ((x.word 9).testBit 0) ((x.word 9).testBit 1) 0 with
  | .ok s₁ (.go h) => match s₁.readKeys (who x) x.tgt (addrOf x.words 2) h with
    | .ok s₂ keys => match s₂.keysGo (who x) x true h.keep (x.word 8) 0 keys 0 with
      | .ok s₃ d => Eng.isOk (s₃.eWrite (who x) (addrOf x.words 2 + 16) (leBytes 4 d))
      | _ => false
    | _ => false
  | _ => false
def hlookGoes (s : State) (x : Cmd) : Bool :=
  match s.readHead (who x) (addrOf x.words 2) with
  | .ok s₁ h => headStatus x.tgt false h == 0 && match s₁.readKeys (who x) x.tgt (addrOf x.words 2) h with
    | .ok s₂ keys => Eng.isOk (s₂.keysGo (who x) x false h.keep (x.word 8) 0 keys 0)
    | _ => false
  | _ => false
def headIs (s : State) (x : Cmd) (st : Nat) : Bool := match s.readHead (who x) (addrOf x.words 2) with
  | .ok _ h => headStatus x.tgt false h == st
  | _ => false
theorem witness_CoordinateEngine_power : ∀ x ∈ [voxelC, bookC, hinsC 1, hlookC],
    (cmdS x).engineLost x = false ∧ (cmdS x).engineFar x = false ∧ runsIn (lostS x) x = true ∧ (lostS x).engineLost x = true := by decide +kernel
theorem witness_CoordinateEngine_lists : runs (hinsC 1) = true ∧ hinsGoes (cmdS (hinsC 1)) (hinsC 1) = true ∧
    hinsGoes (tableS (cmdS (hinsC 0))) (hinsC 0) = true ∧ runsIn (tableS (cmdS hlookC)) hlookC = true ∧
    hlookGoes (tableS (cmdS hlookC)) hlookC = true ∧ headIs (cmdS hlookC) hlookC 0x08 = true := by and_intros <;> decide +kernel

def bookGoes (s : State) (x : Cmd) : Bool :=
  let w := who x
  let base := addrOf x.words 2
  let rb := addrOf x.words 6
  match s.readHead w base with
  | .ok s₁ hi => match s₁.readHead w (addrOf x.words 4) with
    | .ok s₂ ho => headStatus x.tgt false hi == 0 && headStatus x.tgt false ho == 0 && match s₂.eWrite w (rb + 44) (leBytes 4 0) with
      | .ok s₃ () => match s₃.readKeys w x.tgt base hi with
        | .ok s₄ inp => match s₄.readKeys w x.tgt (addrOf x.words 4) ho with
          | .ok s₅ out =>
            let pairs := (List.range 27).map (offsetPairs false hi.keep 1 inp out)
            let p := (pairs.map (·.length)).sum
            p == 1 && pairsAt 27 + 8 * p ≤ 64 * x.word 8 &&
              writesOk w s₅ [(rb + 64, pairBytes (directory 0 pairs)), (rb + pairsAt 27, pairBytes pairs.flatten), (rb, rulebookHead x hi ho 27 p)]
          | _ => false
        | _ => false
      | _ => false
    | _ => false
  | _ => false
theorem witness_CoordinateEngine_books : runsIn (tableS (cmdS bookC)) bookC = true ∧
    ((tableS (cmdS bookC)).ctx (who bookC).pf (who bookC).ctx).hostBooks = false ∧ bookGoes (tableS (cmdS bookC)) bookC = true ∧
    (let s := (cmdS bookC).modCtx 0 1 fun c => { c with hostBooks := true }
     runsIn s bookC = true ∧ (s.ctx (who bookC).pf (who bookC).ctx).hostBooks = true) := by and_intros <;> decide +kernel

/-- The page of address 0, a valid table there, and at 0x50000 a rulebook of it with one output row and no pairs. -/
def bookS (x : Cmd) : State := put 0x140020 (leBytes 16 (27 + 2 ^ 32 + 2 ^ 64 + 2 ^ 127)) (put 0x16000F [0x80]
  (put 0x40000 [0x6F, 0, 0x16, 0, 0, 0, 0, 0x20] (cmdS x)))
def spconvC (paid : Bool) (row : Word) : Cmd :=
  { cmdOf .takenUp [0xE2000000, 0, 0x50000, 0, 0x20000, 0, 0x30000, 0, 0x60000, 0, 0x1884, 16, 16, 64, row] with paid }
def checked (x : Cmd) (st : Nat) : Bool := match (bookS x).takeRulebook (who x) x with
  | .ok _ n => n.1 == st
  | _ => false
/-- The checks pass, and the pairs of the rulebook are read. -/
def paired (x : Cmd) : Bool := match (bookS x).checkRulebook (who x) x with
  | .ok s₁ (0, r) => x.word 14 < r.nout && Eng.isOk (s₁.eRead (who x) (addrOf x.words 2 + pairsAt r.noff) (8 * r.p))
  | _ => false
/-- The rulebook of `bookS`, which the command has read. -/
def theBook : Rulebook := { sets := [], noff := 27, nin := 1, nout := 1, flags := 0, p := 0, spare := 0, dir := List.replicate 27 (0, 0), pairs := [] }
def booked (paid : Bool) : Cmd := { spconvC paid 0 with book := some theBook }
def rowsGo (x : Cmd) (n i : Nat) : Bool :=
  match (bookS x).spconvGo (who x) 1 x theBook (n + 1) x.idx with
  | (j, .ok _ ()) => j == i
  | _ => false
theorem witness_PergolaEngine_spconv : runsIn (bookS (spconvC false 0)) (spconvC false 0) = true ∧ (spconvC false 0).book = none ∧
    checked (spconvC false 0) 0 = true ∧ paired (spconvC false 0) = true ∧ checked (spconvC false 2) 0x0B = true ∧ runsIn (bookS (booked false)) (booked false) = true ∧
    (booked false).idx < theBook.nout ∧ runsIn (bookS (booked true)) (booked true) = true ∧ rowsGo (booked true) 0 1 = true := by and_intros <;> decide +kernel

/-- At 0x50000 the triples (0, 0, 0), (0, 1, 0), (0, 0, 0). -/
def triS (x : Cmd) : State := put 0x140010 [1] (cmdS x)
def gmmsC (paid issued : Bool) (idx : Nat) (count : Word) : Cmd :=
  { cmdOf .takenUp [0xF2010000, 0, 0x50000, 0, count, 0, 0x20000, 0, 0x30000, 0, 0x60000, 0, 0x1884, 16, 16, 64] with paid, issued, idx }
def groupsGo (x : Cmd) (st i : Nat) : Bool :=
  let k := if x.issued then x.idx else x.word 5
  match (triS x).eRead (who x) (addrOf x.words 2) (12 * x.word 4) with
  | .ok s₁ bs => match (s₁.modCmd 1 9 fun y => { y with issued := true, idx := k }).gmmsGo (who x) x (triplesOf (x.word 4) bs) 1 k with
    | (j, .ok _ n) => n == st && j == i
    | _ => false
  | _ => false
theorem witness_PergolaEngine_gmms : runsIn (triS (gmmsC false false 0 0)) (gmmsC false false 0 0) = true ∧
    runsIn (triS (gmmsC false false 0 3)) (gmmsC false false 0 3) = true ∧ runsIn (triS (gmmsC true true 2 3)) (gmmsC true true 2 3) = true ∧
    groupsGo (gmmsC true false 0 3) 0 1 = true ∧ groupsGo (gmmsC true true 2 3) 0x0C 2 = true := by and_intros <;> decide +kernel

/-- At 0x20000 the walk program of one `FAIL`, or of a word with a bit that it does not use. -/
def progS (x : Cmd) (low : Byte) : State := put 0x110000 [low, 0, 0, 0xF0] (cmdS x)
def wloadC (st : CmdState) : Cmd := cmdOf st [0x43000000, 0, 0x20000, 0, 0x101]
def loaded (low : Byte) (bad : Option Nat) : Bool :=
  let x := wloadC .launched
  match (progS x low).needDram (who x) .read 2 (addrOf x.words 2) 4 with
  | .ok s₁ () => match s₁.eRead (who x) (addrOf x.words 2) 4 with
    | .ok _ bs => (((Machine.wordsOf 4 1 bs).map (BitVec.ofNat 32)).findIdx? fun y => !goodWop 1 y) == bad
    | _ => false
  | _ => false
theorem witness_MazeEngine_programs :
    (∀ st ∈ [CmdState.launched, .takenUp], ((cmdS (wloadC st)).team 1).cmd? 9 = some (wloadC st)) ∧ ((cmdS (wloadC .takenUp)).team? 1).isSome = true ∧
    loaded 0 none = true ∧ loaded 1 (some 0) = true ∧
    (cmdS (wloadC .takenUp)).earlier (who (wloadC .takenUp)) (fun y => (wloadC .takenUp).holdsSlot y || (wloadC .takenUp).installs y) = false := by and_intros <;> decide +kernel
def walkC (k : Option Walk) : Cmd :=
  { cmdOf (if k.isSome then .takenUp else .launched) [0x63010000, 0, 7, 0, 0x30000, 0, 0x400] with walk := k }
def walkS (x : Cmd) : State := (cmdS x).modCtx 0 1 fun c => { c with slots := some [0xF0000000] :: List.replicate 7 none }
def walkOf (h : Option Nat) : Walk :=
  { maze := 0, x := [7, 0, 0, 0], node := 0x30000, flag := false, op := 0, steps := 1, ops := 0, prog := [0xF0000000], handoff := h, handed := false }
def rooted (x : Cmd) : Bool := match (walkS x).walkAt (who x) (addrOf x.words 4) with
  | .ok s₁ y => s₁.walksAt (mazeOf y.place) true < 64
  | _ => false
theorem witness_MazeEngine_walks : runsIn (walkS (walkC none)) (walkC none) = true ∧
    ((walkS (walkC none)).ctx (who (walkC none)).pf (who (walkC none)).ctx).slots.getD (walkSlot (walkC none)) none = some [0xF0000000] ∧
    (walkS (walkC none)).earlier (who (walkC none)) (fun y => y.opc == 0 && wloadSlot y == walkSlot (walkC none) &&
      (y.st == .launched || y.st == .takenUp) && y.order < (walkC none).order) = false ∧ rooted (walkC none) = true ∧
    runsIn (walkS (walkC (some (walkOf none)))) (walkC (some (walkOf none))) = true ∧
    (walkS (walkC (some (walkOf none)))).cmdAt 1 9 3 1 .launched = none ∧
    runsIn (walkS (walkC (some (walkOf (some 1))))) (walkC (some (walkOf (some 1)))) = true ∧
    (walkS (walkC (some (walkOf (some 1))))).walksAt 1 false < 64 := by and_intros <;> decide +kernel

/-! Host queues: the next command's words stand in slot 1 of the sample queue's ring. -/

def ofWords (ws : List Word) : List Byte := ws.flatMap fun w => leBytes 4 w.toNat
def pad (ws : List Word) : List Word := ws ++ List.replicate (16 - ws.length) 0
def slotQ : Queue := { sampleQueue with runs := [], head := 1, tail := 2 }
def queueS (ws : List Word) : State := put 0x110040 (ofWords (pad ws)) { base id with queues := [slotQ] }
def nextIs (s : State) (opc : Nat) (p : State → Queue → List Word → Bool) : Bool :=
  match s.queue? 0 0 with
  | some x => match s.nextWords x with
    | some (.ok (s', ws)) => opcOf ws == opc && s.mayStart x (opcOf ws == 1 && ovlOf ws) && goodCommon ws && goodWords ws && p s' x ws
    | _ => false
  | none => false

theorem next_of {s : State} {opc : Nat} {p : State → Queue → List Word → Bool} (h : nextIs s opc p = true) :
    ∃ x s' ws, NextCommand s 0 0 opc x s' ws ∧ p s' x ws = true := by
  unfold nextIs at h
  split at h
  on_goal 2 => cases h
  split at h
  on_goal 2 => cases h
  simp only [Bool.and_eq_true, and_assoc, beq_iff_eq] at h
  obtain ⟨code, start, common, layout, hp⟩ := h
  exact ⟨_, _, _, { queue := ‹_›, words := ‹_›, code, start, common, layout }, hp⟩

/-- How a store ends: 0 performed, 1 a fault, 2 a wait. -/
def ends (r : Except Denied State) : Nat := match r with
  | .ok _ => 0
  | .error (.fault _ _) => 1
  | .error (.wait _) => 2
def storing (n : Nat) (s : State) (x : Queue) (ws : List Word) : Bool :=
  ends (s.signalStore x (addrOf ws 2) (leBytes (if (wn ws 6).testBit 0 then 8 else 4) (if (wn ws 6).testBit 0 then addrOf ws 4 else wn ws 4))) == n
def anyNext (_ : State) (_ : Queue) (_ : List Word) : Bool := true
def signalS (hi : Word) : State := queueS [0x03000000, 0, 0x30000, hi, 7]
/-- The page of 0x30000 has no frame, and its die's pool is empty. -/
def unbackedS : State := put 0x40018 [0x7F] (signalS 0)
def waitvS : State := queueS [0x04000000, 0, 0x30000, 0, 7]
def flushS : State := queueS [0x05000000, 0, 7]
/-- An element of a `REDCOPY` is in flight. -/
def flushingS : State := { flushS with teams := flushS.teams.map fun tm => { tm with cmds := [{ redC with sent := [sentE 0] }] } }
def accessed (b : Bool) (s : State) (x : Queue) (ws : List Word) : Bool := (wn ws 2).testBit 0 && s.translated 0 x.ctx == b
theorem witness_QueueCommands : (∃ x s' ws, NextCommand (signalS 0) 0 0 3 x s' ws ∧ storing 0 s' x ws = true) ∧
    (∃ x s' ws, NextCommand (signalS 1) 0 0 3 x s' ws ∧ storing 1 s' x ws = true) ∧
    (∃ x s' ws, NextCommand unbackedS 0 0 3 x s' ws ∧ storing 2 s' x ws = true) ∧
    (∃ x s' ws, NextCommand waitvS 0 0 4 x s' ws ∧ anyNext s' x ws = true) ∧ (∃ x s' ws, NextCommand flushS 0 0 5 x s' ws ∧ accessed false s' x ws = true) ∧
    (∃ x s' ws, NextCommand flushingS 0 0 5 x s' ws ∧ accessed true s' x ws = true) :=
  ⟨next_of (by decide +kernel), next_of (by decide +kernel), next_of (by decide +kernel), next_of (by decide +kernel), next_of (by decide +kernel), next_of (by decide +kernel)⟩

/-- A `WAITV` that has started, on the word 7 where 0 stands. -/
def pollS (want : Word) (dl : Option Nat) : State :=
  { base id with queues := [{ sampleQueue with runs := [{ slot := 0, word0 := 0x04000000, words := pad [0x04000000, 0, 0x30000, 0, want], work := .wait dl 0 }] }] }
def polled (s : State) (holds : Bool) (dl : Option Nat) : Bool :=
  match s.queue? 0 0 with
  | some x => !x.suspended && s.reads x.die && match x.runs.find? fun r => r.work != .ended with
    | some r => r.work == .wait dl 0 && match s.reachVa (.queue x.num) x.pf x.ctx x.die (addrOf r.words 2) .read with
      | .ok (s₁, p) => waitHolds (wn r.words 6 / 2 % 4) ((if isDram p then s₁.conflict p false else s₁).mem.nat p 4) (valueOf r.words) == holds
      | .error _ => false
    | none => false
  | none => false
theorem witness_QueueCommands_polls : polled (pollS 0 none) true none = true ∧ polled (pollS 7 (some 0)) false (some 0) = true ∧
    0 ≤ ((pollS 7 (some 0)).die 0).time := by and_intros <;> decide +kernel

/-- At 0x30000 the image of a fresh one-thread launch with its code at 0x40040 and its save area from 0x20000 on. -/
def imageS (ws : List Word) : State :=
  put 0x120000 (ofWords ([0x01010000, 0, 0x40040, 0, 1, 1, 1, 1] ++ List.replicate 16 0 ++ [0x20000, 0, 0x50000])) (put 0x130000 (ofWords [1, 1]) (queueS ws))
def launchWs (image : Word) : List Word := [0x01000000, 0, image]
def replayWs (record : Word) : List Word := [0x02000000, 0, 0x30000, 0, record, 0, 0x60000, 0, 0, 1, 0]
def accepts (replay good : Bool) (p : State → Queue → List Word → Bool) (s : State) (x : Queue) (ws : List Word) : Bool :=
  match s.acceptImage x (addrOf ws 2) replay with
  | .ok s₁ _ => good && p s₁ x ws
  | .refused _ c => !good && c == 0
  | .waits _ => false
def areas (good : Bool) (s₁ : State) (x : Queue) (ws : List Word) : Bool := match s₁.replayAreas x ws with
  | .ok _ => good
  | .error (.fault _ _) => !good
  | .error (.wait _) => false
theorem witness_LaunchCommands :
    (let s := imageS (launchWs 0x30000); ∃ x s' ws, NextCommand s 0 0 1 x s' ws ∧ accepts false true anyNext s' x ws = true) ∧
    (let s := imageS (launchWs 0x38000); ∃ x s' ws, NextCommand s 0 0 1 x s' ws ∧ accepts false false anyNext s' x ws = true) ∧
    (let s := imageS (replayWs 0x68000); ∃ x s' ws, NextCommand s 0 0 2 x s' ws ∧ accepts true true (areas true) s' x ws = true) ∧
    (let s := imageS (replayWs 0x70000); ∃ x s' ws, NextCommand s 0 0 2 x s' ws ∧ accepts true true (areas false) s' x ws = true) :=
  ⟨next_of (by decide +kernel), next_of (by decide +kernel), next_of (by decide +kernel), next_of (by decide +kernel)⟩

/-! The Pavilion: a second launch of a queue of its own, beside the sample team. -/

def otherQ (level : Nat) : Queue := { sampleQueue with num := 1, level, next := 0, tail := 0, runs := [] }
def otherL : Launch := { sampleLaunch with id := 2, q := 1, nextTeam := 0, started := false, hdr := { sampleHeader with accs := 1 } }
def twoS (level : Nat) (k : Launch → Launch) : State :=
  { base id with queues := [{ sampleQueue with level := 2, sliceUs := 100 }, otherQ level], launches := (base id).launches ++ [k otherL], fresh := 20 }
/-- Only core 0 of the package serves launches that need accumulators. -/
def oneCore (s : State) : State :=
  let off (d : Die) : Die := { d with off := true }
  { (List.range 11).foldl (fun s c => s.modCore (c + 1) fun k => { k with matFailed := true }) s with
    dies := [{ s.die 0 with quadLost := [1, 2, 3] }, off (s.die 1), off (s.die 2), off (s.die 3)] }
def ready₂ (s : State) (cores : List Nat) : Bool := match s.launch? 2 with
  | some ln => s.wantsTeam ln && cores.length == s.unitSize ln && !s.outranked ln cores
  | none => false
theorem witness_Placement_places : ready₂ (twoS 2 id) [1] = true ∧ ((twoS 2 id).placeAll 2 [1]).isSome = true := by and_intros <;> decide +kernel
theorem witness_Placement_displaces : ready₂ (twoS 1 id) [0] = true ∧
    ((twoS 1 id).goodVictims 2 [0] [1] fun y => (twoS 1 id).launchLevel otherL < (twoS 1 id).launchLevel y) [] = true := by and_intros <;> decide +kernel
theorem witness_Placement_gang : ((twoS 2 fun l => { l with gangBy := some 0 }).launch? 2).isSome = true ∧
    0 ≤ ((twoS 2 fun l => { l with gangBy := some 0 }).die ((twoS 2 id).queueOf otherL).die).time := by and_intros <;> decide +kernel
def sliceOver (s : State) (x : Queue) : Bool :=
  decide (s.queue? 0 0 = some x) && (s.teams.any fun t => (s.launchOf t.launch).pf == 0 && (s.launchOf t.launch).q == 0) && x.sliceEnd ≤ (s.die x.die).time
def sampleQ2 : Queue := { sampleQueue with level := 2, sliceUs := 100 }
theorem witness_Placement_slices : sliceOver (twoS 3 id) sampleQ2 = true ∧ ((twoS 3 id).rival sampleQ2).isNone = true ∧
    sliceOver (oneCore (twoS 2 id)) sampleQ2 = true ∧ (((oneCore (twoS 2 id)).rival sampleQ2).map (·.id)) = some 2 ∧
    ((oneCore (twoS 2 id)).ctx 0 1).hostRuns = false ∧ (let s := oneCore (twoS 2 id)
      let rest := s.others sampleQ2 otherL
      (s.coresWithout otherL ([1] ++ rest)).length = s.unitSize otherL ∧ s.goodVictims 2 (s.coresWithout otherL ([1] ++ rest)) [1] (ofQueue 0 0) rest = true) := by and_intros <;> decide +kernel

def savingS (replay halting : Bool) : State :=
  let s := base fun tm => { tm with st := .saving }
  { s with launches := s.launches.map fun l => { l with replay := if replay then some default else none, halting } }
abbrev Rests (replay halting : Bool) (s : State) (ln : Launch) : Prop :=
  ln.id = 1 ∧ ln.replay.isSome = replay ∧ ln.halting = halting ∧ AtRest s ln
theorem rests_of {s : State} {a b : Bool} (h : ((s.launch? 1).any fun ln => decide (ln.id = 1 ∧ ln.replay.isSome = a ∧ ln.halting = b ∧ AtRest s ln)) = true) :
    ∃ ln, s.launch? 1 = some ln ∧ Rests a b s ln := by
  generalize s.launch? 1 = o at h ⊢
  cases o with
  | none => cases h
  | some ln => exact ⟨ln, rfl, of_decide_eq_true h⟩
theorem witness_PavilionHappenings_saves :
    (∃ ln, (savingS false false).launch? 1 = some ln ∧ Rests false false (savingS false false) ln) ∧
    (∃ ln, (savingS true false).launch? 1 = some ln ∧ Rests true false (savingS true false) ln) ∧
    (∃ ln, (savingS true true).launch? 1 = some ln ∧ Rests true true (savingS true true) ln) :=
  ⟨rests_of (by decide +kernel), rests_of (by decide +kernel), rests_of (by decide +kernel)⟩
/-- The pass has overflowed its capture area. -/
def full (s : State) : State := { s with launches := s.launches.map fun l => { l with replay := some { (default : Replay) with overflow := true } } }
theorem witness_PavilionHappenings_overflow :
    (∃ ln, (full (savingS true false)).launch? 1 = some ln ∧ Rests true false (full (savingS true false)) ln) ∧
    (((full (base id)).launch? 1).any fun ln => ln.id == 1 && !ln.halting && ln.replay.any (·.overflow)) = true ∧
    ((inReplay (base id)).launch? 1 |>.any fun ln => !ln.halting && ln.replay.isSome) = true :=
  ⟨rests_of (by decide +kernel), by decide +kernel, by decide +kernel⟩
/-- A command of the team that is being saved has not come to rest. -/
def busyS : State := { savingS false false with teams := (savingS false false).teams.map fun tm => { tm with cmds := [{ copyC with st := .applied }] } }
theorem witness_PavilionHappenings_watchdog : (busyS.team? 1).isSome = true ∧ (busyS.team 1).st = .saving ∧ (busyS.team 1).atRest = false ∧
    (busyS.team 1).watchdog ≤ (busyS.die 0).time ∧ busyS.trip4Due 0 = false := by and_intros <;> decide +kernel
def stealS : State := { twoS 2 (fun l => { l with nextTeam := 0 }) with queues := [sampleQueue, { otherQ 2 with stealable := true }] }
theorem witness_PavilionHappenings_steals : stealS.serves 1 = true ∧ stealS.shut 1 = false ∧
    (stealS.teams.all fun t => dieOfCore t.core != 1) = true ∧
    (stealS.launches.all fun y => y.die != some 1 || !stealS.wantsTeam y || (stealS.unitCores y).length != stealS.unitSize y) = true ∧
    stealS.reaches 1 (ringPrev 1) = true ∧ stealS.serves (ringPrev 1) = true ∧ ((stealS.stealable 1 (ringPrev 1)).map (·.id)) = some 2 := by and_intros <;> decide +kernel

/-! The register windows. A descriptor stands at host address 0, where CTXADDR of PF 0 points. -/

def descS (l : List (Nat × Byte)) : State := l.foldl (fun s x => put (placeHost 0 + x.1) [x.2] s) (base id)
def createS : State := descS [(40, 4)]
theorem witness_ContextCommands_creates : Creatable createS 0 ((createS.descriptor 0).getD []) := by constructor <;> decide +kernel
def newQueueS : State := descS [(8, 4), (12, 1), (24, 4), (28, 100), (32, 1)]
theorem witness_ContextCommands_queues :
    newQueueS.hostUp = true ∧ newQueueS.ctxBusy 0 = false ∧ newQueueS.fw.recovery = false ∧ newQueueS.devDies 0 ≠ [] ∧ ((newQueueS.descriptor 0).map goodQueue) = some true ∧
    (newQueueS.ctx? 0 (field ((newQueueS.descriptor 0).getD []) 12 4)).isSome = true ∧
    ((List.range (64 * (newQueueS.devDies 0).length)).find? fun i => (newQueueS.queue? 0 i).isNone) = some 1 ∧
    (base id).hostUp = true ∧ (base id).ctxBusy 0 = false ∧ ((base id).ctx? 0 1).isSome = true ∧ (base id).ctx? 0 2 = none ∧ ((base id).queue? 0 0).isSome = true ∧ (base id).queue? 0 1 = none := by and_intros <;> decide +kernel

def ahead (i : Nat) : Nat := (i + 16 - sampleQueue.head) % 16
theorem witness_RegisterWindows : (base id).hostUp = true ∧ (base id).portServes = true ∧ ((base id).modDie 0 fun d => { d with halted := true }).portServes = false ∧ (∀ cap ∈ [150, 550], 150 ≤ cap ∧ cap ≤ 550) ∧ (149 < 150 ∧ 550 < 551) ∧
    (base id).bar4Place 0 8 = some 8 ∧ (base id).hostReaches (homeDie 8) = true ∧ (base id).bar4Bad 0 8 4 = false ∧
    (base id).bar4Place 0 (dramBytes - 1) = some (dramBytes - 1) ∧ (base id).bar4Place 0 dramBytes = none ∧
    { base id with bad := [0] }.bar4Bad 0 8 4 = true ∧
    (base id).ctxBusy 0 = false ∧ ((base id).modWindow 0 fun x => { x with cmd := some 1 }).ctxBusy 0 = true ∧
    (∀ x ∈ bar0Registers ((base id).devDies 0).length 0, x ≠ (0x20, 4)) ∧ (base id).queue? 0 0 = some sampleQueue ∧
    (∀ v ∈ [1, 15], v < 16 ∧ ahead sampleQueue.tail ≤ ahead v) ∧ (0 < 16 ∧ ahead 0 < ahead sampleQueue.tail) ∧ 16 ≤ 16 := by and_intros <;> decide +kernel
theorem witness_PowerCap : (base id).hostUp = true ∧ (base id).devDies 0 ≠ [] := by decide +kernel
theorem witness_SystemStatus : ((base id).hostUp = true ∧ (base id).devDies 0 ≠ []) ∧ (0 < 4 ∧ 3 < 4) ∧ (∀ k ∈ [0, 4, 11], k = 0 ∨ (4 ≤ k ∧ k < 12)) := by and_intros <;> decide +kernel

/-! Firmware: whether a hash or a signature holds is uninterpreted, so that the witnesses of the accepting clauses take it
as given. -/

/-- At a place: magic, ISA version, layout version. -/
def manifest (p : Nat) (s : State) : State := put p (ofWords [0x4D584649, 0x00010200]) s
def plain (s : State) (p : Nat) : Bool := goodManifest s.mem p && s.mem.nat (p + 4) 2 == 0x200 && s.fw.floor ≤ imageSvn s.mem p
theorem checked_of {s : State} {p : Nat} (h : plain s p = true) (h' : goodSignatures s.mem p = true ∧ goodHashes s.mem p = true) : Checked s p := by
  simp only [plain, Bool.and_eq_true, beq_iff_eq, decide_eq_true_eq] at h
  unfold Checked checkImage
  simp [h.1.1, h.1.2, h'.1, h'.2, Nat.not_lt.mpr h.2]
/-- The first metadata copy holds CVER 5. -/
def metaS : State :=
  let w := ({ Metadata.blank with cver := 5 } : Metadata).words
  put (metaPlace false) (w ++ leBytes 4 (crc32 w)) (base id)
/-- FWADDR is not aligned. -/
def noTokenS : State := metaS.modFw fun f => { f with addr := 8 }
/-- The words at FWADDR present a rollback token. -/
def tokenS : State := put 0 (ofWords [0x4D585254]) (base id)
theorem witness_FirmwareCommands (h : ∀ p ∈ [0, bankPlace true], goodSignatures (manifest p (base id)).mem p = true ∧ goodHashes (manifest p (base id)).mem p = true) :
    ((base id).hostUp = true ∧ (base id).fw.cmd = none ∧ (base id).fw.recovery = false ∧ (base id).fwSource bankBytes = some 0) ∧
    Checked (manifest 0 (base id)) 0 ∧ Checked (manifest (bankPlace true) (base id)) (bankPlace true) ∧
    (let s := manifest (bankPlace true) (base id)
     ¬ imageVer s.mem (bankPlace true) < (bootMeta s.mem).cver ∧ s.presents = false ∧ s.contexts.any (·.hostFw) = false) ∧
    (imageVer noTokenS.mem (bankPlace true) < (bootMeta noTokenS.mem).cver ∧ noTokenS.checkToken true = 3) ∧ tokenS.presents = true ∧
    (checkImage (base id).mem 0 (base id).fw.floor = 5 ∧ (base id).mayCommit = true ∧ (base id).fw.runSvn ≤ 64 ∧ (base id).fw.pend = none) ∧
    (((base id).modFw fun f => { f with recovery := true }).mayCommit = false ∧ ((base id).modFw fun f => { f with recovery := true }).fw.recovery = true ∧
      ((base id).modFw fun f => { f with pend := some (true, none) }).fwSource 768 = some 0) :=
  ⟨by decide +kernel, checked_of (by decide +kernel) (h _ (by simp)), checked_of (by decide +kernel) (h _ (by simp)), by decide +kernel, by decide +kernel, by decide +kernel, by decide +kernel, by decide +kernel⟩
/-- A bank with an image, and a token at FWADDR; in a context of the host's firmware mode or not. -/
def signedS (host : Bool) : State := (put 0 (ofWords [0x4D585254]) (manifest (bankPlace true) (base id))).modCtx 0 1 fun c => { c with hostFw := host }
theorem witness_FirmwareCommands_token (h : ∀ host, (signedS host).checkToken true = 0)
    (h' : ∀ host, goodSignatures (signedS host).mem (bankPlace true) = true ∧ goodHashes (signedS host).mem (bankPlace true) = true) :
    ∀ host, Checked (signedS host) (bankPlace true) ∧ (signedS host).presents = true ∧ (signedS host).checkToken true = 0 ∧
      (signedS host).contexts.any (·.hostFw) = host
  | true => ⟨checked_of (by decide +kernel) (h' true), by decide +kernel, h true, by decide +kernel⟩
  | false => ⟨checked_of (by decide +kernel) (h' false), by decide +kernel, h false, by decide +kernel⟩
theorem witness_FirmwareCommands_pending (h : goodSignatures (signedS false).mem (bankPlace true) = true ∧ goodHashes (signedS false).mem (bankPlace true) = true) :
    (signedS false).pendResult true (some ((signedS false).accepted true)) = 0 ∧ (base id).pendResult true none = 5 := by
  refine ⟨?_, by decide +kernel⟩
  have := checked_of (s := signedS false) (p := bankPlace true) (by decide +kernel) h
  unfold Checked at this
  unfold State.pendResult
  simp [this]
theorem witness_Resets : ((base id).fw.valid (base id).mem false = false ∧ (base id).fw.valid (base id).mem true = false) ∧
    ((base id).fw.cmd ≠ some 1 ∧ ((base id).modFw fun f => { f with cmd := some 3 }).mayCommit = true) ∧
    (((base id).die 3).off = false ∧ ((base id).die 3).dout = false ∧ (base id).fw.loaded = true) := by and_intros <;> decide +kernel
/-- A package reset loses the DRAM and keeps host memory (log entry 30). -/
theorem test_reset_loses_dram : (match exec (.packageReset false []) (put (placeHost 64) [7] (put 0x100000 [7] (base id))) with
    | .next s => some (s.mem.get 0x100000, s.mem.get (placeHost 64), s.setCounter.length)
    | _ => none) = some (0, 7, 16) := by decide +kernel

/-! Power, temperature, links and management. -/

def windowS : State := { base id with dies := (base id).dies.map fun d => { d with time := 100000 } }
theorem witness_PowerControl : ((windowS.power.window + 1) * 100000 ≤ (windowS.die 0).time ∧ windowS.power.spent = false) ∧
    windowS.power.cap * 100 - min windowS.power.debit (windowS.limits.repay * windowS.power.cap) = 32000 ∧
    (windowS.power.energy ≤ 31999 ∧ windowS.power.ballast = 0) ∧
    (let q := { windowS.power with spent := true, energy := 32100, ballast := 200 }; ∀ v ∈ [32100, 32200], max q.energy 32000 ≤ v ∧ v ≤ 32000 + q.ballast) ∧
    (∀ v ∈ [31999, 32000], let q := { windowS.power with energy := v }; q.spent = false ∧ (32000 ≤ q.energy ∨ q.energy < 32000)) ∧ ((base id).die 0).time < ((base id).power.window + 1) * 100000 ∧
    (base id).endDue.power.spent = false ∧ ((15 < 16 ∧ 7 < 8) ∧ (47 < 48 ∧ windowS.quadUp 15 = true)) ∧ windowS.quadUp 16 = false ∧
    (let s := windowS.modPower fun p => { p with droopTimes := List.replicate 1000 (47, 100000) }
     (((47, 100000) :: s.power.droopTimes.filter fun x => x.1 / 12 != 3 || 100000 < x.2 + 1000000).filter fun x => x.1 == 47).length = 1001 ∧ s.mayNotice 3 = true) := by
  decide +kernel
/-- R380: a quadrant at point 7 completes three of every ten cycles of one at point 0. -/
theorem test_points_slow_the_clock : ((List.range 20).filter (clockIn 7)).length = 6 ∧ ((List.range 20).filter (clockIn 0)).length = 20 := by decide +kernel
/-- R377: the reference inputs rise every 15 beats. -/
theorem test_reference_edges : { base id with beat := 30 }.edges = [0, 1, 2, 3] ∧ { base id with beat := 31 }.edges = [] := by decide +kernel
theorem witness_ThermalLadder : ((base id).die 3).off = false ∧ ((base id).die 3).time % 50000 = 0 ∧ celsius 135 ≤ celsius 135 ∧ (7 < 8 ∧ 3 < 4 ∧ 4 ≤ 4) := by
  decide +kernel
def linkS (f : Link → Link) : State := { base id with links := [f Link.reset] }
theorem witness_LinksAndScrub : ((linkS fun x => { x with replays := 7 }).link 0).replays < 8 ∧
    (8 ≤ ((linkS fun x => { x with replays := 8 }).link 0).replays ∧ ((linkS id).link 0).failed = false ∧ ((linkS id).link 0).retraining = false) ∧
    (0 :: ((linkS fun x => { x with recent := [0] }).link 0).recent).length < 3 ∧ 3 ≤ (0 :: ((linkS fun x => { x with recent := [0, 0] }).link 0).recent).length ∧
    ((linkS fun x => { x with retraining := true }).link 0).retraining = true ∧ 64 * (dramBytes / 64 - 1) < dramBytes ∧ ((base id).die 3).off = false ∧
    { base id with bad := [placeDram 3 0 / 64] }.isBad (placeDram 3 0) = true ∧ (base id).isBad (placeDram 3 0) = false := by decide +kernel
theorem witness_ManagementAnswers : (∀ v ∈ [Session.versioned, .capable, .selected, .none_], { base id with session := v }.session = v) ∧
    ((base id).fw.loading = false ∧ ((base id).modFw fun f => { f with loading := true }).fw.loading = true) ∧
    (base id).measurements [5] ≠ [] := by and_intros <;> decide +kernel
/-- The bytes that a certificate request asks for, where the chain is longer than its offset. -/
theorem witness_ManagementAnswers_chain (h : 0 < Config.certificateChain.length) : ∃ offset, offset < Config.certificateChain.length := ⟨0, h⟩

/-! Phasers, memory, encodings and what every step keeps. -/

theorem witness_PhaserCompletion : (∀ k ∈ [0, 1, 32767, 32768, 65535], k < 2 ^ 16 ∧ (65000 + k) % 2 ^ 16 < 2 ^ 16) ∧
    (∀ k ∈ [1, 32767], { (default : Phaser) with p := (65000 + k) % 2 ^ 16 }.done 65000 = true) ∧
    (∀ k ∈ [0, 32768, 65535], { (default : Phaser) with p := (65000 + k) % 2 ^ 16 }.done 65000 = false) := by decide +kernel
theorem witness_LittleEndian : (base id).mem.wf = true ∧ 0 < 4 ∧ ((base id).mem.write 0x100 (leBytes 4 0x04030201)).get 0x103 = 4 ∧
    ((base id).blockWords 0x100040 0x10040).1[0]?.isSome = true ∧ (tableWords 128 7)[3]?.isSome = true := by decide +kernel
theorem witness_DecodeEncode : (Instr.iadd { bare .two with dst := 3, sa := 1, sb := 2, typ := 6 }).wf = true ∧
    (decode (encode (.iadd { bare .two with dst := 3, sa := 1, sb := 2, typ := 6 }))).toOption.isSome = true := by decide +kernel
theorem witness_EncodeDecode : decode [0x00000471, 0x00000000] = .ok (.exit (bare .two)) := rfl
def kept (s : State) (n : Nat) : Bool := match step s with
  | .next s' => s.mem.wf && s'.mem.wf && n ≤ s'.fw.floor
  | _ => false
theorem witness_MemoryInvariant : kept State.reset State.reset.fw.floor = true := by decide +kernel
theorem witness_FloorNeverFalls : ∃ s', step State.reset = .next s' := by
  have h := witness_MemoryInvariant
  unfold kept at h
  split at h
  · exact ⟨_, by assumption⟩
  · exact absurd h (by simp)

/-! ## What some instructions give (the values from the tables of R152, R203, R240 to R247, R253, R257, or by hand from them) -/

def nextOf (i : Instr) (k : Team → Team) : Option State := match exec i (machine 1 i k) with
  | .next s => some s
  | _ => none
/-- Vector register `r`, predicate register `r` and the pc after one instruction. -/
def vAfter (i : Instr) (k : Team → Team) (r : Nat) : Option Word := (nextOf i k).bind fun s => ((s.team 1).thread 0).v[r]?
def pAfter (i : Instr) (k : Team → Team) (r : Nat) : Option Bool := (nextOf i k).bind fun s => ((s.team 1).thread 0).p[r]?
def pcAfter (i : Instr) (k : Team → Team) : Option Nat := (nextOf i k).map fun s => ((s.team 1).frag 1).pc
def ab (a b : Word) (tm : Team) : Team := vec 0 2 b (vec 0 1 a tm)
def abc (a b c : Word) (tm : Team) : Team := vec 0 5 c (ab a b tm)
def two : Fields := { bare .two with dst := 3, sa := 1, sb := 2 }

theorem test_iadd_saturates :
    let i : Instr := .iadd { bare .three with dst := 3, sa := 1, typ := 6, mod := 1, imm := 0xFFFFFFFB }
    vAfter i (ab 7 0) 3 = some 2 ∧ vAfter i (ab 0x80000003 0) 3 = some 0x80000000 ∧ vAfter i (ab 0x7FFFFFFF 0) 3 = some 0x7FFFFFFA := by decide +kernel
theorem test_iadd_wraps : vAfter (.iadd { bare .three with dst := 3, sa := 1, typ := 6, imm := 0xFFFFFFFB }) (ab 0x80000003 0) 3 = some 0x7FFFFFFE := by decide +kernel
theorem test_iaddc_carries : vAfter (.iaddc { two with sc := 5, typ := 10 }) (fun tm => prd 0 5 (ab 0xFFFFFFFF 0 tm)) 3 = some 0 ∧
    pAfter (.iaddc { two with sc := 5, typ := 10 }) (fun tm => prd 0 5 (ab 0xFFFFFFFF 0 tm)) 5 = some true ∧
    pAfter (.iaddc { two with sc := 0x85, typ := 10 }) (fun tm => prd 0 5 (ab 0xFFFFFFFF 0 tm)) 5 = some false := by decide +kernel
theorem test_iabs_saturates : vAfter (.iabs { two with sa := 0, typ := 6, mod := 1 }) (ab 0 0x80000000) 3 = some 0x7FFFFFFF ∧
    vAfter (.iabs { two with sa := 0, typ := 6 }) (ab 0 0x80000000) 3 = some 0x80000000 := by decide +kernel
theorem test_imulhi_signs : vAfter (.imulhi { two with typ := 6 }) (ab 0xFFFFFFFF 1) 3 = some 0xFFFFFFFF ∧
    vAfter (.imulhi { two with typ := 10 }) (ab 0xFFFFFFFF 2) 3 = some 1 := by decide +kernel
theorem test_imadw_pair : vAfter (.imadw { two with dst := 4, sc := 8, typ := 10 }) (ab 0xFFFFFFFF 0xFFFFFFFF) 4 = some 1 ∧
    vAfter (.imadw { two with dst := 4, sc := 8, typ := 10 }) (ab 0xFFFFFFFF 0xFFFFFFFF) 5 = some 0xFFFFFFFE := by decide +kernel
theorem test_idot4_signs : vAfter (.idot4 { two with sc := 5, typ := 4 }) (abc 0xFF020304 0x01010101 100) 3 = some 108 := by decide +kernel
theorem test_shifts_by_the_width : vAfter (.shl { two with typ := 2 }) (ab 1 32) 3 = some 0 ∧
    vAfter (.sar { two with typ := 6 }) (ab 0x80000000 40) 3 = some 0xFFFFFFFF ∧ vAfter (.fshl { two with sc := 5, typ := 2 }) (abc 1 32 7) 3 = some 1 := by decide +kernel
theorem test_bfe_beyond : vAfter (.bfe { two with typ := 6 }) (ab 0x80000000 0x81F) 3 = some 0xFFFFFFFF ∧
    vAfter (.bfe { two with typ := 10 }) (ab 0x80000000 0x81F) 3 = some 1 := by decide +kernel
theorem test_bfi_drops : vAfter (.bfi { two with sc := 5, typ := 2 }) (abc 0xFF 0x81C 0) 3 = some 0xF0000000 := by decide +kernel
theorem test_counts_of_zero : vAfter (.clz { two with sb := 0, typ := 2 }) (ab 0 0) 3 = some 32 ∧ vAfter (.ctz { two with sb := 0, typ := 2 }) (ab 0 0) 3 = some 32 := by decide +kernel
theorem test_bsel_examples : vAfter (.bsel { two with sc := 5, typ := 2 }) (abc 0x44332211 0x8101 0x88776655) 3 = some 0x551122 ∧
    vAfter (.bsel { two with sc := 5, typ := 2 }) (abc 0x44332211 0xC003E 0x88776655) 3 = some 0xFFFF8877 ∧
    vAfter (.bsel { two with sc := 5, typ := 2 }) (abc 0x44332211 0x80011 0x88776655) 3 = some 0x113322 := by decide +kernel
theorem test_bool3_table : vAfter (.bool3 { bare .three with dst := 3, sa := 1, sb := 2, sc := 5, typ := 2, imm := 0xCA }) (abc 0xC 0xA 0x5) 3 = some 0x9 := by decide +kernel
theorem test_iset_signs : pAfter (.iset { two with dst := 1, sc := 7, typ := 6, mod := 4 }) (ab 0xFFFFFFFF 1) 1 = some true ∧
    pAfter (.iset { two with dst := 1, sc := 7, typ := 10, mod := 4 }) (ab 0xFFFFFFFF 1) 1 = some false := by decide +kernel
theorem test_lea_carries : vAfter (.lea { two with dst := 4, sa := 6, typ := 6, mod := 4 }) (fun tm => vec 0 6 0x10 (ab 0 0xFFFFFFFB tm)) 4 = some 0xFFFFFFFC ∧
    vAfter (.lea { two with dst := 4, sa := 6, typ := 6, mod := 4 }) (fun tm => vec 0 6 0x10 (ab 0 0xFFFFFFFB tm)) 5 = some 0xFFFFFFFF := by decide +kernel
theorem test_fadd_rounds : vAfter (.fadd { two with typ := 0xE }) (ab 0x3F800000 0x33800000) 3 = some 0x3F800000 ∧
    vAfter (.fadd { two with typ := 0xE }) (ab 0x3F800001 0x33800000) 3 = some 0x3F800002 := by decide +kernel
theorem test_bra_target : pcAfter (.bra { bare .three with imm := 0xFFFFFFF0 }) id = some 0x10000 ∧
    pcAfter (.bra { bare .three with gp := 7, gneg := true, imm := 0xFFFFFFF0 }) id = some 0x1004C := by decide +kernel
def ldS : State := put 0x110004 [0x78, 0x56, 0x34, 0x12] (machine 1 (.ld { two with sa := 4, sb := 0, typ := 2, cls := 2 }) (uni 4 0x20004))
theorem test_ld_little_endian : (match exec (.ld { bare .three with dst := 3, sa := 4, typ := 2, cls := 2, imm := 4 })
      { ldS with teams := ldS.teams.map (uni 4 0x20000) } with
    | .next s => ((s.team 1).thread 0).v[3]?
    | _ => none) = some 0x12345678 := by decide +kernel
/-- The step runs a word as the first instruction after reset. -/
theorem test_step_runs : (match step (State.reset.withFetchWord 64 0x71) with
    | .next s => some ((s.team 1).frag 1).pc
    | _ => none) = some 0x10048 := by decide +kernel

end Sys2Proof.Tests
end

/-! ## Memory at reset and after every step -/

namespace Sys2Proof.Machine

section
variable {c : Bool} {n : Nat} {s : State}

/-- A step keeps the canonical form of memory and lowers no floor: taking the turn, each of the four kinds of turn, and the
instruction or happening that it runs do. -/
theorem step_held (hs : Held c n s) : Out c n (step s) := by
  have hturn : Held c n s.nextTurn.2 := State.nextTurn_held hs
  unfold step
  split <;> rename_i hx <;> rw [hx] at hturn
  case h_1 =>
    split <;> rename_i hf
    · exact Out.next (Fetched.Held.of_done (State.fetchTurn_held hturn) hf)
    · exact exec_held (Fetched.Held.of_run (State.fetchTurn_held hturn) hf)
  case h_2 =>
    split <;> rename_i hf
    · exact Out.next (Fetched.Held.of_done (State.fetchTurn_held hturn) hf)
    · have hrun := Fetched.Held.of_run (State.fetchTurn_held hturn) hf
      exact exec_held (Held.of_cells hrun.cells)
  case h_3 =>
    split
    · exact exec_held hturn
    · exact Out.next hturn
  case h_4 => exact Out.next (State.pass_held hturn)

theorem step_next_held {s' : State} (hs : Held c n s) (h : step s = .next s') : Held c n s' := by
  have hout : Out c n (step s) := step_held hs
  rwa [h] at hout

end

/-- The safety invariant is what `Held` says of memory. -/
theorem inv_iff_held (s : State) : Safety.Inv s ↔ Held true 0 s :=
  ⟨fun h => ⟨fun _ => h, Nat.zero_le _⟩, fun h => h.1 rfl⟩

end Sys2Proof.Machine

namespace Sys2Proof.Proofs
open Sys2Proof.Machine

/-- Settles O59: the step keeps `Held`, which every operation of the model keeps. -/
theorem memoryInvariant : Obligations.MemoryInvariant := fun s s' hs h =>
  (inv_iff_held s').2 (step_next_held ((inv_iff_held s).1 hs) h)

/-- Settles O58: no cell is listed at reset. -/
theorem resetMemory : Obligations.ResetMemory := Memory.wf_nil

end Sys2Proof.Proofs

/-! ## Byte order (R7) -/

namespace Sys2Proof

theorem getElem?_wordsOf {n w i : Nat} (h : i < n) : (wordsOf n w)[i]? = some (BitVec.ofNat 32 (w / 2 ^ (32 * i))) := by
  induction n generalizing w i with
  | zero => exact absurd h (Nat.not_lt_zero i)
  | succ n ih =>
    cases i with
    | zero => simp [wordsOf]
    | succ i =>
      rw [wordsOf, List.getElem?_cons_succ, ih (Nat.lt_of_succ_lt_succ h), Nat.div_div_eq_div_mul, ← Nat.pow_add, Nat.mul_succ,
        Nat.add_comm 32]

namespace Machine

theorem getElem_leBytes {n v i : Nat} (h : i < (leBytes n v).length) : (leBytes n v)[i] = BitVec.ofNat 8 (v / 256 ^ i) := by
  induction n generalizing v i with
  | zero => exact absurd h (Nat.not_lt_zero i)
  | succ n ih =>
    cases i with
    | zero => simp [leBytes]
    | succ i => simp only [leBytes, List.getElem_cons_succ, ih, Nat.div_div_eq_div_mul, Nat.pow_succ']

theorem Memory.get_write_leBytes {m : Memory} {n i : Nat} (a v : Nat) (hm : m.wf = true) (hi : i < n) :
    (m.write a (leBytes n v)).get (a + i) = BitVec.ofNat 8 (v / 256 ^ i) := by
  have hlen : i < (leBytes n v).length := by rwa [leBytes_length]
  rw [Memory.get_write_in a i _ hm hlen, getElem_leBytes]

theorem Memory.nat_succ (m : Memory) (a n : Nat) : m.nat a (n + 1) = (m.get a).toNat + 256 * m.nat (a + 1) n := rfl

/-- The byte at offset `i` is the digit of weight 256 ^ `i`. -/
theorem Memory.nat_digit (m : Memory) {a n i : Nat} (h : i < n) : m.nat a n / 256 ^ i % 256 = (m.get (a + i)).toNat := by
  induction n generalizing a i with
  | zero => exact absurd h (Nat.not_lt_zero i)
  | succ n ih =>
    have hbyte : (m.get a).toNat < 256 := (m.get a).isLt
    cases i with
    | zero => simp only [Memory.nat_succ, Nat.pow_zero, Nat.div_one, Nat.add_zero]; omega
    | succ i =>
      have hrest : m.nat a (n + 1) / 256 = m.nat (a + 1) n := by rw [Memory.nat_succ]; omega
      rw [Nat.pow_succ', ← Nat.div_div_eq_div_mul, hrest, ih (Nat.lt_of_succ_lt_succ h), Nat.add_right_comm, Nat.add_assoc]

/-- R171: the words of an instruction in memory stand one after the other, 4 bytes each. -/
theorem getElem?_blockWords {s : State} {place pc i : Nat} {w : Word} (h : (s.blockWords place pc).1[i]? = some w) :
    w = BitVec.ofNat 32 (s.mem.nat (place + 4 * i) 4) := by
  simp only [State.blockWords, List.getElem?_map, Option.map_eq_some_iff] at h
  obtain ⟨j, hj, rfl⟩ := h
  obtain ⟨_, rfl⟩ := List.getElem?_eq_some_iff.1 hj
  rw [List.getElem_range]

end Machine
end Sys2Proof

namespace Sys2Proof.Proofs
open Sys2Proof.Machine

/-- Settles O48: bytes in memory and words in an instruction alike are the digits of the value, from the least significant on. -/
theorem littleEndian : Obligations.LittleEndian :=
  ⟨fun _ a _ v _ hm hi => Memory.get_write_leBytes a v hm hi, fun m _ _ bs h => Memory.get_write_out m bs h,
    fun m _ _ _ hi => Memory.nat_digit m hi, fun _ _ _ _ _ h => getElem?_blockWords h, fun _ _ _ hi => getElem?_wordsOf hi⟩

end Sys2Proof.Proofs

/-! ## Sparse convolutions and gather-multiply-scatter (R327, R328) -/

namespace Sys2Proof.Machine

theorem State.settleRows_ok (s₀ s : State) (t c die i : Nat) (last : Bool) :
    s₀.settleRows t c die i last (.ok s ()) =
      if last then s.applyCmd t c 0 0 i else s.modCmd t c fun y => { y with idx := i, stall := none, paid := false } := rfl

section
variable {s s₁ s₂ : State} {w : Who} {x : Cmd} {r : Rulebook} {bs : List Byte}

/-- R327, R338: a rulebook that passed the checks and reaches past the command's first row is taken with its pairs. -/
theorem State.takeRulebook_of_checked (hcheck : s.checkRulebook w x = .ok s₁ (0, r)) (hrow : x.word 14 < r.nout)
    (hread : s₁.eRead w (addrOf x.words 2 + pairsAt r.noff) (8 * r.p) = .ok s₂ bs) :
    s.takeRulebook w x = .ok s₂ (0, { r with pairs := wordsOf 8 r.p bs }) := by
  have htaken : ¬((0 : Nat) ≠ 0 ∨ r.nout ≤ x.word 14) := by omega
  simp only [State.takeRulebook, hcheck, Eng.bind, if_neg htaken, hread]

end

section
variable {t c n i st : Nat} {s s₁ : State} {x : Cmd} {r : Rulebook}
variable (hx : s.cmdAt t c 2 0 .takenUp = some x)
include hx

theorem spconvHappening_takes (hbook : x.book = none)
    (htake : s.takeRulebook (s.cmdWho t x (dieOfCore x.core)) x = .ok s₁ (0, r)) :
    spconvHappening t c n s = s₁.modCmd t c fun y =>
      { y with book := some r, idx := if y.issued then y.idx else y.word 14, issued := true, stall := none } := by
  simp only [spconvHappening, hx, hbook, htake]

theorem spconvHappening_fails_check (hbook : x.book = none)
    (htake : s.takeRulebook (s.cmdWho t x (dieOfCore x.core)) x = .ok s₁ (st, r)) (hst : st ≠ 0) :
    spconvHappening t c n s = s₁.applyCmd t c st 0 0 := by
  obtain ⟨k, rfl⟩ := Nat.exists_eq_succ_of_ne_zero hst
  simp only [spconvHappening, hx, hbook, htake]

theorem spconvHappening_queues (hbook : x.book = some r) (hrow : x.idx < r.nout) (hpaid : x.paid = false) :
    spconvHappening t c n s = s.queueProducts t c x := by
  simp only [spconvHappening, hx, hbook, hpaid, decide_eq_true hrow, Bool.not_false, Bool.and_self, if_true]

theorem spconvHappening_makes_rows (hbook : x.book = some r) (hready : x.paid = true ∨ r.nout ≤ x.idx)
    (hgo : s.spconvGo (s.cmdWho t x (dieOfCore x.core)) t x r (n + 1) x.idx = (i, .ok s₁ ())) :
    spconvHappening t c n s = if r.nout ≤ i then s₁.applyCmd t c 0 0 i
      else s₁.modCmd t c fun y => { y with idx := i, stall := none, paid := false } := by
  have hrows : ¬((decide (x.idx < r.nout) && !x.paid) = true) := by
    rcases hready with hpaid | hend
    · simp [hpaid]
    · simp [Nat.not_lt.2 hend]
  simp only [spconvHappening, hx, hbook, if_neg hrows, hgo, State.settleRows_ok, decide_eq_true_eq]

end

section
variable {t c n k i st : Nat} {s s₁ s₂ : State} {x : Cmd} {bs : List Byte}
variable (hx : s.cmdAt t c 2 1 .takenUp = some x) (hk : (if x.issued then x.idx else x.word 5) = k)
include hx hk

theorem gmmsHappening_ends (hend : x.word 4 ≤ k) : gmmsHappening t c n s = s.applyCmd t c 0 0 0 := by
  simp only [gmmsHappening, hx, hk, if_pos hend]

theorem gmmsHappening_queues (hentry : k < x.word 4) (hpaid : x.paid = false) :
    gmmsHappening t c n s = s.queueProducts t c x := by
  simp only [gmmsHappening, hx, hk, if_neg (Nat.not_le.2 hentry), hpaid, Bool.not_false, if_true]

section
variable (hentry : k < x.word 4) (hpaid : x.paid = true)
  (hread : s.eRead (s.cmdWho t x (dieOfCore x.core)) (addrOf x.words 2) (12 * x.word 4) = .ok s₁ bs)
include hentry hpaid hread

theorem gmmsHappening_makes_groups
    (hgo : (s₁.modCmd t c fun y => { y with issued := true, idx := k }).gmmsGo (s.cmdWho t x (dieOfCore x.core)) x
      (triplesOf (x.word 4) bs) (n + 1) k = (i, .ok s₂ 0)) :
    gmmsHappening t c n s = if x.word 4 ≤ i then s₂.applyCmd t c 0 0 i
      else s₂.modCmd t c fun y => { y with idx := i, stall := none, paid := false } := by
  simp only [gmmsHappening, hx, hk, if_neg (Nat.not_le.2 hentry), hpaid, Bool.not_true, Bool.false_eq_true, if_false, hread, hgo,
    State.settleRows_ok, decide_eq_true_eq]

theorem gmmsHappening_stops
    (hgo : (s₁.modCmd t c fun y => { y with issued := true, idx := k }).gmmsGo (s.cmdWho t x (dieOfCore x.core)) x
      (triplesOf (x.word 4) bs) (n + 1) k = (i, .ok s₂ st)) (hst : st ≠ 0) :
    gmmsHappening t c n s = s₂.applyCmd t c st 0 i := by
  obtain ⟨m, rfl⟩ := Nat.exists_eq_succ_of_ne_zero hst
  simp only [gmmsHappening, hx, hk, if_neg (Nat.not_le.2 hentry), hpaid, Bool.not_true, Bool.false_eq_true, if_false, hread, hgo]

end
end

theorem exec_spconv (t c n : Nat) (s : State) : exec (.spconv t c n) s = .next (spconvHappening t c n s) := rfl

theorem exec_gmms (t c n : Nat) (s : State) : exec (.gmms t c n) s = .next (gmmsHappening t c n s) := rfl

end Sys2Proof.Machine

namespace Sys2Proof.Proofs
open Sys2Proof.Machine

/-- Settles O29: each clause is what the command's happening comes to at its stage. -/
theorem pergolaEngine : Obligations.PergolaEngine := by
  intro t c n i st s s₁ s₂ x r bs
  simp only [exec_spconv, exec_gmms, Host.Outcome.next.injEq]
  exact ⟨fun hx => spconvHappening_takes hx, fun hx => spconvHappening_fails_check hx, State.takeRulebook_of_checked,
    fun hx => spconvHappening_queues hx, fun hx => spconvHappening_makes_rows hx,
    fun hx => gmmsHappening_ends hx rfl, fun hx => gmmsHappening_queues hx rfl,
    fun hx => gmmsHappening_makes_groups hx rfl, fun hx => gmmsHappening_stops hx rfl⟩

end Sys2Proof.Proofs

/-! ## Branches that split a fragment (R38, R203, R204) -/

namespace Sys2Proof.Claims
open Sys2Proof.Machine

variable {c : Fields → Instr} {f : Fields} {s : State} {e : Env} {n b : Env → Effect}

/-- A branch that is ready comes to what its effect concludes. -/
theorem Ready.branch (h : Ready c f s e) :
    branchWith (c f) f s n b = .next (e.conclude f (retOf (c f) f e.hdr.lanes) (b e)) :=
  branch_ready h.env h.pass h.acts h.go

/-- R84, R453: without a late report, what waits for the outstanding results goes on when they have returned. -/
theorem settled_of_quiet {k : State → Effect} (h : Quiet s e) : e.settled s k = k (settledOf s e) := by
  have hlate : ((s.settle e.t e.g).team e.t).late e.g = none := h
  simp only [Env.settled, hlate, settledOf]

end Sys2Proof.Claims

namespace Sys2Proof.Machine
open Sys2Proof.Claims

section
variable {f : Fields} {s : State} {e : Env} {r : Ret} {res : Res} {pc rcv : Nat} {ms : List Member} {parts : List (Nat × List Member)}

theorem Env.diverge_one : e.diverge s f r res [(pc, ms)] rcv = .jump s res pc := rfl

theorem Env.diverge_full (hparts : 2 ≤ parts.length) (hfull : ¬ (e.tm.splitsOf e.fr).length < 32) :
    e.diverge s f r res parts rcv = .trap s (e.threadTrap 0x23 (e.T f)) := by
  match parts, hparts with
  | _ :: _ :: _, _ => simp only [Env.diverge, if_pos (Nat.not_lt.1 hfull)]

theorem Env.diverge_split (hparts : 2 ≤ parts.length) (hroom : (e.tm.splitsOf e.fr).length < 32) (hq : Quiet s e) :
    e.diverge s f r res parts rcv =
      .placed ((((settledOf s e).retire e r res e.pc).split e.t e.g parts rcv).count e.ln.id e.core 0x04 1) := by
  match parts, hparts with
  | _ :: _ :: _, _ => simp only [Env.diverge, if_neg (Nat.not_le.2 hroom), settled_of_quiet hq]

end

/-! `BRA.C`: the threads of T at the target, the others at the next instruction. -/

/-- R359: the path terms that a `BRA.C` takes. -/
abbrev Env.braCTerms (e : Env) (s : State) (f : Fields) : State :=
  e.branchTerms s fun t => if e.guard f t then e.target f.imm32 else e.next f

theorem braC_divides {e : Env} {f : Fields} (hF : e.F f ≠ []) (hpc : e.target f.imm32 ≠ e.next f) :
    (e.isAll f || e.target f.imm32 == e.next f) = false := by
  simp [Env.isAll, hF, hpc]

section
variable {f : Fields} {s : State} {e : Env} (h : Ready .braC f s e)
include h

theorem execBraC_same (hsame : e.target f.imm32 = e.next f) :
    execBraC f s = .next ((e.braCTerms s f).retire e (retOf (.braC f) f e.hdr.lanes) .none (e.target f.imm32)) := by
  have hwhole : (e.isAll f || e.target f.imm32 == e.next f) = true := by simp [hsame]
  rw [execBraC, h.branch]
  simp only [hwhole, if_true]
  rfl

section
variable (hF : e.F f ≠ []) (hpc : e.target f.imm32 ≠ e.next f)
include hF hpc

theorem execBraC_splits (hroom : (e.tm.splitsOf e.fr).length < 32) (hq : Quiet (e.braCTerms s f) e) :
    Splits .braC f s e (e.braCTerms s f) .none [(e.target f.imm32, e.T f), (e.next f, e.F f)] (e.target f.imm32b) := by
  show execBraC f s = _
  rw [execBraC, h.branch]
  simp only [braC_divides hF hpc, Bool.false_eq_true, if_false]
  rw [Env.diverge_split (parts := [_, _]) (Nat.le_refl 2) hroom hq]
  rfl

theorem execBraC_full (hfull : ¬ (e.tm.splitsOf e.fr).length < 32) :
    execBraC f s = .next (s.raise e (e.threadTrap 0x23 (e.T f))) := by
  rw [execBraC, h.branch]
  simp only [braC_divides hF hpc, Bool.false_eq_true, if_false]
  rw [Env.diverge_full (parts := [_, _]) (Nat.le_refl 2) hfull]
  rfl

end
end

/-! `BRX` and `CALLX`: each thread at its table entry. -/

/-- R204: the next pc of a thread by what the table gave the threads of T. -/
abbrev Env.entryPc (e : Env) (f : Fields) (xs : List (Nat × Nat)) (t : Nat) : Nat := (lookup t xs).getD (e.next f)

section
variable {c : Fields → Instr} {f : Fields} {s s₁ : State} {e : Env} {res : Env → Res} {xs : List (Nat × Nat)} {pc rcv : Nat}
  {ms : List Member} {parts : List (Nat × List Member)}
variable (h : Ready c f s e) (htable : e.readTable s f = (.ok s₁ xs, rcv))
  (hparts : partsBy (fun m => e.entryPc f xs m.tid) e.active = parts)
include h htable hparts

theorem execTable_one (hone : parts = [(pc, ms)]) :
    execTable (c f) f s res = .next ((e.branchTerms s₁ (e.entryPc f xs)).retire e (retOf (c f) f e.hdr.lanes) (res e) pc) := by
  rw [execTable, h.branch]
  simp only [htable, hparts, hone, Env.diverge_one]
  rfl

theorem execTable_splits (hmany : 2 ≤ parts.length) (hroom : (e.tm.splitsOf e.fr).length < 32)
    (hq : Quiet (e.branchTerms s₁ (e.entryPc f xs)) e) :
    execTable (c f) f s res = .next ((((settledOf (e.branchTerms s₁ (e.entryPc f xs)) e).retire e (retOf (c f) f e.hdr.lanes)
      (res e) e.pc).split e.t e.g parts rcv).count e.ln.id e.core 0x04 1) := by
  rw [execTable, h.branch]
  simp only [htable, hparts, Env.diverge_split hmany hroom hq]
  rfl

theorem execTable_full (hmany : 2 ≤ parts.length) (hfull : ¬ (e.tm.splitsOf e.fr).length < 32) :
    execTable (c f) f s res = .next (s₁.raise e (e.threadTrap 0x23 (e.T f))) := by
  rw [execTable, h.branch]
  simp only [htable, hparts, Env.diverge_full hmany hfull]
  rfl

end

theorem exec_braC (f : Fields) (s : State) : exec (.braC f) s = execBraC f s := rfl

theorem exec_brx (f : Fields) (s : State) : exec (.brx f) s = execTable (.brx f) f s fun _ => .none := rfl

theorem exec_callx (f : Fields) (s : State) : exec (.callx f) s = execTable (.callx f) f s fun e => e.link f := rfl

end Sys2Proof.Machine

namespace Sys2Proof.Proofs
open Sys2Proof.Machine Sys2Proof.Claims

/-- Settles O9: an instruction that is ready comes to its effect, and a divergence of its fragment moves it as one, splits it or
finds the stack full. -/
theorem splittingBranches : Obligations.SplittingBranches := by
  intro f s s₁ e xs rcv
  simp only [Ends, Splits, exec_braC, exec_brx, exec_callx]
  exact ⟨fun h => execBraC_same h, fun h => execBraC_splits h, fun h => execBraC_full h,
    fun _ _ h ht => execTable_one h ht rfl, fun _ _ h ht => execTable_one h ht rfl,
    fun h ht => execTable_splits h ht rfl, fun h ht => execTable_splits h ht rfl,
    fun h ht => execTable_full h ht rfl, fun h ht => execTable_full h ht rfl⟩

end Sys2Proof.Proofs

/-! ## Bins, groups and queued children (R50, R53, R59, R352) -/

namespace Sys2Proof.Machine

/-- A change of a core looks at no other core. -/
theorem State.modCore_congr {s : State} {c : Nat} {f g : Core → Core} (h : f (s.core c) = g (s.core c)) :
    s.modCore c f = s.modCore c g := by
  simp only [State.modCore, h]

theorem execGroupDraw_draws {c i : Nat} {tids : List Nat} {s : State} {b : Bin} {tm : Team}
    (hbin : (s.core c).bins.getD i none = some b) (hteam : s.team? b.team = some tm) (hactive : tm.active = true)
    (hdrew : (s.core c).drew = false) (hdrawable : b.aged = true ∨ (s.launchOf tm.launch).hdr.lanes ≤ b.tids.length)
    (hchoice : goodChoice (s.launchOf tm.launch).hdr tm (b.tids.map (·.1)) tids = true) :
    execGroupDraw c i tids s = .next ((s.modCore c fun k =>
      { k with drew := true, bins := modNth i (fun _ => b.without tids s.limits.ageTimer k.cycle) k.bins }).drawGroup
        c b.team b.key tids) := by
  have hready : (b.aged || decide ((s.launchOf tm.launch).hdr.lanes ≤ (b.tids.map (·.1)).length)) = true := by
    simpa using hdrawable
  simp only [execGroupDraw, hbin, hteam, hactive, hdrew, hready, hchoice, Bool.not_false, Bool.and_self, if_true]

section
variable {c t tid : Nat} {s s₁ : State} {held rest : List (Nat × Nat)}
variable (hspawn : (s.core c).spawn = held ++ (t, tid) :: rest) (hheld : ∀ x ∈ held, (s.team x.1).active = false)
  (hactive : (s.team t).active = true)
include hspawn hheld hactive

/-- Log entry 84: the children of teams that do not run are passed over. -/
theorem find_running_child : (s.core c).spawn.find? (fun x => (s.team x.1).active) = some (t, tid) := by
  have hnone : held.find? (fun x => (s.team x.1).active) = none := List.find?_eq_none.2 fun x hx => by simp [hheld x hx]
  simp only [hspawn, List.find?_append, hnone, List.find?_cons, hactive, Option.none_or]

theorem erase_running_child : (s.core c).spawn.erase (t, tid) = held ++ rest := by
  have hnot : (t, tid) ∉ held := fun hmem => by simp [hheld _ hmem] at hactive
  rw [hspawn, List.erase_append_right _ hnot, List.erase_cons_head]

theorem execChildDequeue_files (hroom : s.childrenOn c < Config.childContexts)
    (hfile : ((s.modCore c fun k => { k with spawn := held ++ rest }).modTeam t fun tm =>
      tm.modThread tid fun th => { th with queued := false }).fileThread t tid ((s.team t).thread tid).resume = some s₁) :
    execChildDequeue c s = .next s₁ := by
  have herase : (s.modCore c fun k => { k with spawn := k.spawn.erase (t, tid) }) =
      s.modCore c fun k => { k with spawn := held ++ rest } :=
    State.modCore_congr (by rw [erase_running_child hspawn hheld hactive])
  simp only [execChildDequeue, find_running_child hspawn hheld hactive, if_neg (Nat.not_le.2 hroom), herase, hfile]

end

theorem exec_binAgeExpiry (c i : Nat) (s : State) : exec (.binAgeExpiry c i) s = execBinAgeExpiry c i s := rfl

theorem exec_groupDraw (c i : Nat) (tids : List Nat) (s : State) : exec (.groupDraw c i tids) s = execGroupDraw c i tids s := rfl

theorem exec_childDequeue (c : Nat) (s : State) : exec (.childDequeue c) s = execChildDequeue c s := rfl

end Sys2Proof.Machine

namespace Sys2Proof.Proofs
open Sys2Proof.Machine

/-- Settles O23: each clause is what the happening comes to under its conditions. -/
theorem arbourHappenings : Obligations.ArbourHappenings := by
  intro c i t tid tids s s₁ b tm held rest
  simp only [exec_binAgeExpiry, exec_groupDraw, exec_childDequeue]
  exact ⟨rfl, execGroupDraw_draws, execChildDequeue_files⟩

end Sys2Proof.Proofs

/-! ## Guards that are false in every lane (R76, R197, R198, R359) -/

namespace Sys2Proof.Machine
open Sys2Proof.Claims

/-! R76: p7. -/

@[simp] theorem Env.p_seven (e : Env) (t : Nat) : e.p t 7 = true := if_pos rfl

@[simp] theorem Team.putP_seven (tm : Team) (k : Bool) (t : Nat) (b : Bool) : tm.putP k t 7 b = tm := if_neg (Nat.lt_irrefl 7)

theorem Env.guard_not_p7 (e : Env) {f : Fields} (hgp : f.gp = 7#3) (hneg : f.gneg = true) (t : Nat) : e.guard f t = false := by
  have hp : e.p t f.gp.toNat = true := by rw [hgp]; exact e.p_seven t
  simp only [Env.guard, hp, hneg, bne_self_eq_false]

theorem Env.T_eq_nil_of_not_p7 (e : Env) {f : Fields} (hgp : f.gp = 7#3) (hneg : f.gneg = true) : e.T f = [] :=
  List.filter_eq_nil_iff.2 fun m _ => by rw [e.guard_not_p7 hgp hneg]; exact Bool.false_ne_true

theorem guarded_eq_false_iff (f : Fields) : guarded f = false ↔ f.gneg = false ∧ f.gp = 7#3 := by
  simp only [guarded, Bool.or_eq_false_iff, bne_eq_false_iff_eq]
  exact and_congr_right fun _ => ⟨fun h => BitVec.eq_of_toNat_eq h, fun h => congrArg BitVec.toNat h⟩

/-! What an instruction comes to when no thread takes part. -/

variable {i : Instr} {f : Fields} {s : State} {e : Env}

/-- R359: the choice of `BRA` and `CALL` is that of `untaken`. -/
theorem ite_guarded (terms : State) : (if guarded f then terms else s) = if f.gneg = false ∧ f.gp = 7#3 then s else terms := by
  by_cases h : guarded f = false
  · rw [if_neg (Bool.eq_false_iff.1 h), if_pos ((guarded_eq_false_iff f).1 h)]
  · rw [if_pos (Bool.not_eq_false _ ▸ h), if_neg (mt (guarded_eq_false_iff f).2 h)]

/-- Every instruction with fields is issued as R186 has it, and what it does for no thread is `untaken`. -/
theorem exec_eq_branchWith (hf : i.fields? = some f) (s : State) :
    ∃ n b, exec i s = branchWith i f s n b ∧ ∀ e, n e = .done (untaken s e i f) .none := by
  cases i with
  | bra | call =>
    cases hf
    exact ⟨_, _, rfl, fun _ => congrArg (Effect.done · .none) (ite_guarded _)⟩
  | _ => cases hf <;> exact ⟨_, _, rfl, fun _ => rfl⟩

theorem noEffect_of_T_nil (hf : i.fields? = some f) (henv : s.env? = some e) (hpass : e.checks i f = none) (hT : e.T f = []) :
    NoEffect i f s e := by
  obtain ⟨n, b, hexec, hnone⟩ := exec_eq_branchWith hf s
  rw [NoEffect, hexec, branch_skip henv hpass hT, hnone, Env.conclude]

end Sys2Proof.Machine

namespace Sys2Proof.Proofs
open Sys2Proof.Machine

/-- Settles O44: with T empty the instruction only retires, but for the path terms that R359 has a branch take. -/
theorem predicateSeven : Obligations.PredicateSeven := by
  intro i f s e tm t k b
  refine ⟨e.p_seven t, tm.putP_seven k t b, fun hgp hneg => ?_⟩
  have hT := e.T_eq_nil_of_not_p7 hgp hneg
  exact ⟨hT, fun hf henv hpass => noEffect_of_T_nil hf henv hpass hT⟩

end Sys2Proof.Proofs

/-! ## Walks, frames, other dies and claims (R101, R111, R472, R473, R500) -/

namespace Sys2Proof.Machine
open Sys2Proof.Claims

variable {s : State} {t g : Nat} {fr : Frag}

/-- A team that acts holds the fragment that `State.actor` finds. -/
theorem State.frag_of_actor (h : s.actor t g = some fr) : (s.team t).frag g = fr := by
  cases hteam : s.team? t with
  | none => simp only [State.actor, hteam, reduceCtorEq] at h
  | some tm =>
    simp only [State.actor, hteam, Option.ite_none_right_eq_some] at h
    simp only [State.team, hteam, Option.getD_some, Team.frag, h.2]

/-! R96, R472: the key of a wait is its 64 KiB page, or its chunk of a spread page. -/

theorem boundKey_frame (va : Nat) : boundKey va 0x47 = va / 65536 := if_neg (by decide)

theorem boundKey_die (va : Nat) : boundKey va 0x90 = va / 16384 := if_pos rfl

/-! R101: a walk that comes to a leaf of no page under claim. -/

section
variable {va at_ lvl : Nat} {en : DWord} (h : Stands s t g fr (.walk va))
  (hleaf : s.leaf ((s.envAt t g).who s) va = .found at_ en lvl) (hm : entryM en = false)
include h hleaf hm

theorem execPageWalk_wakes : execPageWalk t g s =
    .next ((if entryU en then s else s.tlbFill ((s.envAt t g).who s) va at_ en lvl).wake t g true) := by
  obtain ⟨hactor, hst⟩ := h
  simp only [execPageWalk, hactor, hst, hleaf, hm, Bool.false_eq_true, if_false]

theorem execPageWalk_fills (hu : entryU en = false) :
    execPageWalk t g s = .next ((s.tlbFill ((s.envAt t g).who s) va at_ en lvl).wake t g true) := by
  rw [execPageWalk_wakes h hleaf hm, hu, if_neg Bool.false_ne_true]

/-- R108: an unbound page goes to no TLB; the access that issues again binds it. -/
theorem execPageWalk_unbound (hu : entryU en = true) : execPageWalk t g s = .next (s.wake t g true) := by
  rw [execPageWalk_wakes h hleaf hm, hu, if_pos rfl]

end

/-! Waits that have lasted as long as they may. -/

theorem execFreePoolTimeout_ends {va d : Nat} (h : Stands s t g fr (.pool va d)) (hd : d ≤ nowOf s t g) :
    execFreePoolTimeout t g s = .next (s.timeOut t g va 0x47) := by
  obtain ⟨hactor, hst⟩ := h
  simp only [execFreePoolTimeout, hactor, hst]
  exact congrArg Host.Outcome.next (if_pos hd)

theorem execRemoteDieTimeout_over {va d : Nat} (h : Stands s t g fr (.remote va d)) (hd : d ≤ nowOf s t g) :
    execRemoteDieTimeout t g s = .next
      (if va = noVa then s.terminate (s.envAt t g).pf ((s.envAt t g).ctx s) 0x90 else s.timeOut t g va 0x90) := by
  obtain ⟨hactor, hst⟩ := h
  simp only [execRemoteDieTimeout, hactor, hst]
  exact congrArg Host.Outcome.next (if_neg (Nat.not_lt.2 hd))

/-- R473: the register names a die of the device. -/
theorem execPlreply_answers {pf die : Nat} {v : Word} (hdie : (s.devDies pf)[v.toNat / 2 ^ 24 % 4]? = some die) :
    execPlreply pf v s = .next (s.placementReply pf die (v.toNat % 2 ^ 9) (!v.getLsbD 31)) := by
  simp only [execPlreply, hdie]

/-- R111: a page that is re-homed takes the claim to the next one. -/
theorem execClaimPage_moves {next stop n : Nat} {s₁ : State} (h : Stands s t g fr (.claim next stop))
    (hpage : (s.envFetched t g).claimPage s next = .ok s₁ n) : execClaimPage t g s = .next (s₁.claimTo t g n stop) := by
  obtain ⟨hactor, hst⟩ := h
  simp only [execClaimPage, State.frag_of_actor hactor, hst, hpage]

theorem exec_pageWalk (t g : Nat) (s : State) : exec (.pageWalk t g) s = execPageWalk t g s := rfl

theorem exec_freePoolTimeout (t g : Nat) (s : State) : exec (.freePoolTimeout t g) s = execFreePoolTimeout t g s := rfl

theorem exec_remoteDieTimeout (t g : Nat) (s : State) : exec (.remoteDieTimeout t g) s = execRemoteDieTimeout t g s := rfl

theorem exec_plreply (pf : Nat) (v : Word) (s : State) : exec (.plreply pf v) s = execPlreply pf v s := rfl

theorem exec_claimPage (t g : Nat) (s : State) : exec (.claimPage t g) s = execClaimPage t g s := rfl

theorem exec_freePoolRefill (die : Nat) (small large : List Nat) (s : State) :
    exec (.freePoolRefill die small large) s = execFreePoolRefill die small large s := rfl

end Sys2Proof.Machine

namespace Sys2Proof.Proofs
open Sys2Proof.Machine Sys2Proof.Claims

/-- Settles O24: each clause is what the happening comes to under its conditions; the bound that a timed-out wait leaves is that
of its page or chunk (R96). -/
theorem translationHappenings : Obligations.TranslationHappenings := by
  intro t g pf die v small large s s₁ fr va d at_ lvl next stop n en
  simp only [exec_pageWalk, exec_freePoolTimeout, exec_remoteDieTimeout, exec_plreply, exec_claimPage, exec_freePoolRefill]
  refine ⟨execPageWalk_fills, execPageWalk_unbound, fun h hd => ?frame, fun h hva hd => ?otherDie, fun h hd => ?noAddress,
    execPlreply_answers, execClaimPage_moves, ?refill⟩
  case frame => simp only [execFreePoolTimeout_ends h hd, State.timeOut, boundKey_frame]
  case otherDie => simp only [execRemoteDieTimeout_over h hd, if_neg hva, State.timeOut, boundKey_die]
  case noAddress => rw [execRemoteDieTimeout_over h hd, if_pos rfl]
  case refill => rfl

end Sys2Proof.Proofs

/-! ## The bits of an instruction's words (R171, R174, R182) -/

namespace Sys2Proof
open BitVec

theorem Len.ofL_toL (len : Len) : Len.ofL len.toL.toNat = some len := by cases len <;> rfl

theorem Len.toL_of_ofL {l : BitVec 2} {len : Len} (h : Len.ofL l.toNat = some len) : len.toL = l := by
  revert l len
  decide

theorem ofBool_getElem {n : Nat} (x : BitVec n) (i : Nat) (h : i < n) : BitVec.ofBool x[i] = x.extractLsb' i 1 := by
  ext j hj
  simp [Nat.lt_one_iff.1 hj, h]

section
variable (major : BitVec 8) (minor : BitVec 3) (f : Fields)

theorem word0_length : (word0 major f).extractLsb' 0 2 = f.len.toL := extractLsb'_append_eq_right

theorem word0_major : (word0 major f).extractLsb' 8 8 = major := by
  simp [word0, extractLsb'_append_eq_of_le (w := 1), extractLsb'_append_eq_of_le (w := 2), extractLsb'_append_eq_of_le (w := 3),
    extractLsb'_append_eq_of_add_le (w := 8)]

theorem word1_minor : (word1 minor f).extractLsb' 21 3 = minor := by
  simp [word1, extractLsb'_append_eq_of_le (w := 5), extractLsb'_append_eq_of_le (w := 8), extractLsb'_append_eq_of_add_le (w := 3)]

/-- Each field is read from the bits where it was written; the simp lemmas name the widths of the fields that are passed over. -/
theorem fieldsOf_words (len : Len) (imm : BitVec 64) :
    fieldsOf len (word0 major f) (word1 minor f) imm = { f with len, imm } := by
  simp [fieldsOf, word0, word1,
    getElem_append (m := 1), getElem_append (m := 2), getElem_append (m := 3),
    extractLsb'_append_eq_of_le (w := 1), extractLsb'_append_eq_of_le (w := 2), extractLsb'_append_eq_of_le (w := 3),
    extractLsb'_append_eq_of_le (w := 4), extractLsb'_append_eq_of_le (w := 5), extractLsb'_append_eq_of_le (w := 8),
    extractLsb'_append_eq_of_add_le (w := 3), extractLsb'_append_eq_of_add_le (w := 4),
    extractLsb'_append_eq_of_add_le (w := 5), extractLsb'_append_eq_of_add_le (w := 8)]

end

section
variable {w0 w1 : Word} {len : Len} {imm : BitVec 64}

/-- The fields of the first word stand side by side, from bit 31 down to bit 0. -/
theorem word0_fieldsOf (hlen : Len.ofL (w0.extractLsb' 0 2).toNat = some len) :
    word0 (w0.extractLsb' 8 8) (fieldsOf len w0 w1 imm) = w0 := by
  simp only [word0, fieldsOf, Len.toL_of_ofL hlen, getLsbD_eq_getElem, ofBool_getElem, Nat.reduceLT]
  repeat rw [extractLsb'_append_extractLsb'_eq_extractLsb' (by rfl)]
  exact extractLsb'_eq_self

theorem word1_fieldsOf : word1 (w1.extractLsb' 21 3) (fieldsOf len w0 w1 imm) = w1 := by
  simp only [word1, fieldsOf]
  repeat rw [extractLsb'_append_extractLsb'_eq_extractLsb' (by rfl)]
  exact extractLsb'_eq_self

end

/-! The immediate words (R171, R177). -/

theorem immOf_immWords {f : Fields} (h : f.immFits = true) : immOf (immWords f) = f.imm := by
  cases hlen : f.len with
  | two =>
    have himm : f.imm = 0 := by simpa [Fields.immFits, hlen] using h
    simp [immWords, hlen, immOf, himm]
  | three =>
    have himm : f.imm.toNat < 2 ^ 32 := by simpa [Fields.immFits, hlen] using h
    simp only [immWords, hlen, immOf, ← toNat_inj, toNat_setWidth, extractLsb'_toNat, Nat.shiftRight_zero]
    omega
  | four =>
    simp only [immWords, hlen, immOf]
    rw [extractLsb'_append_extractLsb'_eq_extractLsb' (by rfl)]
    exact extractLsb'_eq_self

theorem immWords_length (f : Fields) : (immWords f).length = f.len.words - 2 := by
  cases hlen : f.len <;> simp [immWords, hlen, Len.words]

/-- As many immediate words as the length has are those of the value that they make. -/
theorem immWords_of_immOf {f : Fields} {ws : List Word} (hws : ws.length = f.len.words - 2) (himm : f.imm = immOf ws) :
    immWords f = ws := by
  cases hlen : f.len with
  | two =>
    simp only [hlen, Len.words] at hws
    simp [immWords, hlen, List.length_eq_zero_iff.1 hws]
  | three =>
    simp only [hlen, Len.words] at hws
    obtain ⟨a, rfl⟩ := List.length_eq_one_iff.1 hws
    simp [immWords, hlen, himm, immOf, extractLsb'_setWidth_of_le]
  | four =>
    simp only [hlen, Len.words] at hws
    obtain ⟨a, b, rfl⟩ := List.length_eq_two.1 hws
    have hlow : (b ++ a).extractLsb' 0 32 = a := extractLsb'_append_eq_right
    have hhigh : (b ++ a).extractLsb' 32 32 = b := extractLsb'_append_eq_left
    simp only [immWords, hlen, himm, immOf, hlow, hhigh]

/-! `REP` (R182): its bits outside the fields are fixed. -/

def RepFields.ofWords (w0 w1 : Word) : RepFields :=
  { cnt := w1.extractLsb' 26 6, std := w0.extractLsb' 16 8, sta := w0.extractLsb' 24 8, stb := w1.extractLsb' 0 8,
    stc := w1.extractLsb' 8 8 }

theorem decodeRep_eq_ok_iff {w0 w1 : Word} {i : Instr} : decodeRep w0 w1 = .ok i ↔
    w0.extractLsb' 0 8 = 0x71#8 ∧ w1.extractLsb' 16 10 = 0#10 ∧ i = .rep (.ofWords w0 w1) := by
  unfold decodeRep
  split
  next h => simp [h, RepFields.ofWords, eq_comm]
  next h => simpa using fun h0 h1 => absurd ⟨h0, h1⟩ h

theorem encodeRep_ofWords {w0 w1 : Word} (hlow : w0.extractLsb' 0 8 = 0x71#8) (hmajor : w0.extractLsb' 8 8 = 0x05#8)
    (hzero : w1.extractLsb' 16 10 = 0#10) : encodeRep (.ofWords w0 w1) = [w0, w1] := by
  simp only [encodeRep, RepFields.ofWords, ← hlow, ← hmajor, ← hzero]
  repeat rw [extractLsb'_append_extractLsb'_eq_extractLsb' (by rfl)]
  exact congrArg₂ (fun x y => [x, y]) extractLsb'_eq_self extractLsb'_eq_self

/-- R182: the first word of a `REP` has the length, the major code and the fixed bits, the second the minor code and zeros. -/
theorem encodeRep_eq (r : RepFields) : ∃ w0 w1, encodeRep r = [w0, w1] ∧ RepFields.ofWords w0 w1 = r ∧
    w0.extractLsb' 0 8 = 0x71#8 ∧ w0.extractLsb' 0 2 = 1#2 ∧ w0.extractLsb' 8 8 = 0x05#8 ∧
    w1.extractLsb' 16 10 = 0#10 ∧ w1.extractLsb' 21 3 = 0#3 := by
  refine ⟨_, _, rfl, ?_⟩
  simp [RepFields.ofWords, extractLsb'_append_eq_of_le (w := 8), extractLsb'_append_eq_of_add_le (w := 8),
     extractLsb'_append_eq_of_le (w := 10), extractLsb'_append_eq_of_add_le (w := 10)]

end Sys2Proof

/-! ## The opcode table (R184) -/

namespace Sys2Proof.Laws.Coded

/-- The lemmas of the instructions and happenings, in the order of the constructors. -/
theorem statement (i : Instr) : Statement i :=
  Instr.rec (motive := Statement)
    nop bra braC brx callx call ret exit rep yield rfopen rfclose reform spawn trap bkpt eret halt phinit phreg phdrop pharv
    phwait phaw bars txbeg txend txabt tilewait fence csrr csrw ovld claim cctlRo iadd isub iaddc ineg iabs imul imulhi imad
    imadw idot4 imin imax and or xor not andn bool3 shl shr sar rol fshl bfe bfi bmsk popc clz ctz brev bsel iset sel mov
    movi lea pand por pxor pnot pmov xlaneAt xlaneBack xlaneFwd xlaneSwap xlaneOne pcolSome pcolEvery pcolBits pcolSame
    eqset lredAdd lredMin lredMax lredAnd lredOr lredXor rank ld ldRf st ldro atomAdd atomAnd atomOr atomXor atomMin atomMax
    atomXchg atomCas atomInc atomDec redAdd redAnd redOr redXor redMin redMax redInc redDec redx redxf prefl fadd fsub fmul
    ffma fmin fmax fset fclass frnd fcvt icvt ex2 lg2 rcp rsq sqrt sinpi cospi ex2s fscale fgetexp fmaxe tbind trel mma
    mmabs azero amov ald ast movToQueue moviToQueue movFromQueue unimplementedEncoding illegalEncoding trapEntry hcmdPoll
    resultReturn rfGatherReturn fragmentPark binAgeExpiry groupDraw childDequeue pageWalk freePoolTimeout plreply claimPage
    tryWaitTimeout tilewaitTimeout txAbort clusterStoreArrival collectorWindowExpiry matrixOpRetire copy copynd redcopy pfl2
    gnode garm voxel rbbuild hins hlook spconv gmms wload walk commandTakeUp wloadInstall walkHandoff redcopyElement
    commandCompletion remoteDieTimeout doorbell launch replay signal waitv waitvPoll flush teamPlacement gangTimeout
    timeSliceExpiry saveComplete stopWatchdogExpiry stealRequest replayPassRestore createContext destroyContext createQueue
    destroyQueue queueSuspend queueResume pcap sysstat bar4Access registerWrite stage activate commit countersign
    powerWindowEnd budgetReached droop thermalSample powerRemoved regulatorFault flitReplay linkRetrain hostLinkDown
    patrolScrub packageReset schedulerFirmwareFault bitstreamIntegrityFault getVersion getCapabilities negotiateAlgorithms
    getDigests getCertificate challenge getMeasurements spdmUnsupportedRequest pldmRequest mctpControl freePoolRefill
    hostLinkUp linkRetrainEnd ballastRamp operatingPointChange packagePowerLoss runListWrite
    i

end Sys2Proof.Laws.Coded

namespace Sys2Proof

/-- An instruction with fields has an opcode that leads back to it. -/
theorem Instr.opcode_of_fields {i : Instr} {f : Fields} (hf : i.fields? = some f) :
    ∃ major minor mk, i.key = some (major, minor) ∧ major < 0xC0 ∧ minor < 8 ∧ major ≠ 5 ∧ opcode major minor = some mk ∧
      (i.extraOk f = true → mk f = i) := by
  have hcoded := Laws.Coded.statement i
  unfold Laws.Coded.Statement at hcoded
  rw [hf] at hcoded
  cases hkey : i.key with
  | none => simp only [hkey] at hcoded
  | some k =>
    simp only [hkey] at hcoded
    obtain ⟨hmajor, hminor, hrep, mk, hop, hmk⟩ := hcoded
    exact ⟨k.1, k.2, mk, rfl, hmajor, hminor, hrep, hop, hmk⟩

/-- The major codes that R184 assigns, but for that of `REP`, each with the number of its minor codes, which count from 0. -/
def minorCounts : List (Nat × Nat) :=
  [(0x00, 1), (0x01, 2), (0x02, 2), (0x03, 2), (0x04, 1), (0x06, 1), (0x07, 3), (0x08, 1), (0x09, 3), (0x10, 1), (0x11, 2), (0x12, 1),
   (0x13, 2), (0x14, 1), (0x15, 3), (0x16, 1), (0x17, 1), (0x20, 5), (0x21, 5), (0x22, 2), (0x23, 6), (0x24, 5), (0x25, 3), (0x26, 5),
   (0x27, 2), (0x28, 3), (0x29, 5), (0x40, 4), (0x41, 2), (0x42, 1), (0x43, 1), (0x44, 1), (0x45, 2), (0x60, 8), (0x61, 3), (0x70, 5),
   (0x71, 4), (0x72, 1), (0x73, 6), (0x74, 1), (0x80, 1), (0x81, 1), (0x82, 1), (0x83, 8), (0x84, 2), (0x85, 8), (0x86, 2), (0x87, 1),
   (0xA0, 2), (0xA1, 1), (0xA2, 1), (0xA3, 1), (0xA4, 1), (0xA5, 1), (0xA6, 1), (0xB0, 3), (0xB8, 2), (0xB9, 1), (0xBA, 1), (0xBB, 1),
   (0xBC, 1)]

/-- What an opcode stands for has the fields that it is given, and the opcode as its key. -/
def Keyed (major minor : Nat) : Prop :=
  ∀ mk f, opcode major minor = some mk → (mk f).fields? = some f ∧ (mk f).key = some (major, minor)

/-- R249: a load or a gather, as MOD[60] says. -/
theorem keyed_load : Keyed 0x80 0 := by
  intro mk f h
  cases h
  dsimp only
  split <;> exact ⟨rfl, rfl⟩

theorem keyed_of_minorCounts : ∀ k ∈ minorCounts, ∀ minor < k.2, Keyed k.1 minor := by
  simp only [minorCounts, List.forall_mem_cons, Nat.forall_lt_succ_right, Nat.not_lt_zero, false_imp_iff, implies_true, true_and,
    List.not_mem_nil, and_true, keyed_load]
  and_intros
  all_goals
    intro mk f h
    cases h
    exact ⟨rfl, rfl⟩

/-- No other opcode of the 2,048 stands for an instruction. -/
theorem minorCounts_of_opcode : ∀ major < 0x100, ∀ minor < 8, (opcode major minor).isSome = true →
    (minorCounts.any fun k => k.1 == major && decide (minor < k.2)) = true := by
  decide +kernel

theorem keyed (major : BitVec 8) (minor : BitVec 3) : Keyed major.toNat minor.toNat := by
  intro mk f h
  have hlisted := minorCounts_of_opcode _ major.isLt _ minor.isLt (Option.isSome_of_eq_some h)
  simp only [List.any_eq_true, Bool.and_eq_true, beq_iff_eq, decide_eq_true_eq] at hlisted
  obtain ⟨k, hk, hmajor, hminor⟩ := hlisted
  rw [← hmajor] at h ⊢
  exact keyed_of_minorCounts k hk _ hminor mk f h

/-! ## Decoding and encoding (R171, R174, R182, R185) -/

theorem Instr.wf_of_fields {i : Instr} {f : Fields} (hf : i.fields? = some f) : i.wf = i.fieldsOk f := by
  unfold Instr.wf
  split
  next => cases hf
  next => simp only [hf]

/-- A well-formed instruction is a `REP` or one with fields that its entry allows. -/
theorem Instr.rep_or_fields_of_wf {i : Instr} (h : i.wf = true) :
    (∃ r, i = .rep r) ∨ ∃ f, i.fields? = some f ∧ i.fieldsOk f = true := by
  unfold Instr.wf at h
  split at h
  next r => exact .inl ⟨r, rfl⟩
  next =>
    split at h
    next f hf => exact .inr ⟨f, hf, h⟩
    next => exact absurd h Bool.false_ne_true

theorem Instr.immFits_of_fieldsOk {i : Instr} {f : Fields} (h : i.fieldsOk f = true) : f.immFits = true := by
  simp only [Instr.fieldsOk, Bool.and_eq_true] at h
  simp only [h]

theorem Instr.extraOk_of_fieldsOk {i : Instr} {f : Fields} (h : i.fieldsOk f = true) : i.extraOk f = true := by
  simp only [Instr.fieldsOk, Bool.and_eq_true] at h
  simp only [h]

theorem encode_of_fields {i : Instr} {f : Fields} {major minor : Nat} (hf : i.fields? = some f) (hkey : i.key = some (major, minor)) :
    encode i = word0 (BitVec.ofNat 8 major) f :: word1 (BitVec.ofNat 3 minor) f :: immWords f := by
  unfold encode
  split
  next => cases hf
  next => cases hf
  next => cases hf
  next => simp only [hf, hkey]

/-- How words decode to an instruction: as a `REP`, or by their opcode, with the fields of the first two words and the
immediate words of the length. -/
inductive Decodes : List Word → Instr → Prop
  | rep {w0 w1 : Word} {imms : List Word} {i : Instr} (hlen : Len.ofL (w0.extractLsb' 0 2).toNat = some .two)
      (hmajor : (w0.extractLsb' 8 8).toNat = 5) (hminor : (w1.extractLsb' 21 3).toNat = 0) (hrep : decodeRep w0 w1 = .ok i) :
      Decodes (w0 :: w1 :: imms) i
  | fields {w0 w1 : Word} {imms : List Word} {len : Len} {mk : Fields → Instr} {f : Fields}
      (hlen : Len.ofL (w0.extractLsb' 0 2).toNat = some len) (himms : len.words - 2 ≤ imms.length)
      (hmajor : ¬(0xC0 ≤ (w0.extractLsb' 8 8).toNat ∧ (w0.extractLsb' 8 8).toNat < 0xE0))
      (hrep : ¬((w0.extractLsb' 8 8).toNat = 5 ∧ (w1.extractLsb' 21 3).toNat = 0 ∧ len = .two))
      (hop : opcode (w0.extractLsb' 8 8).toNat (w1.extractLsb' 21 3).toNat = some mk)
      (hf : f = fieldsOf len w0 w1 (immOf (imms.take (len.words - 2)))) (hok : (mk f).fieldsOk f = true) :
      Decodes (w0 :: w1 :: imms) (mk f)

theorem decode_eq_ok_iff {ws : List Word} {i : Instr} : decode ws = .ok i ↔ Decodes ws i := by
  constructor
  case mpr =>
    rintro (⟨hlen, hmajor, hminor, hrep⟩ | ⟨hlen, himms, hmajor, hrep, hop, rfl, hok⟩)
    · simp only [decode, hlen, hmajor, hminor, hrep, and_self, if_true]
      rfl
    · simp only [decode, hlen, if_neg (Nat.not_lt.2 himms), if_neg hmajor, if_neg hrep, hop, if_pos hok]
  case mp =>
    intro h
    unfold decode at h
    split at h
    next => cases h
    next w0 rest =>
      split at h
      next => cases h
      next len hlen =>
        split at h
        next => cases h
        next w1 imms =>
          dsimp only at h
          split_ifs at h with himms hmajor hrep
          · obtain ⟨hmajor, hminor, rfl⟩ := hrep
            exact .rep hlen hmajor hminor h
          · split at h
            next => cases h
            next mk hop =>
              split at h
              next hok =>
                cases h
                exact .fields hlen (Nat.not_lt.1 himms) hmajor hrep hop rfl hok
              next => cases h

theorem decode_encodeRep (r : RepFields) : decode (encodeRep r) = .ok (.rep r) := by
  obtain ⟨w0, w1, hwords, hr, hlow, hlen, hmajor, hzero, hminor⟩ := encodeRep_eq r
  rw [hwords, decode_eq_ok_iff]
  exact .rep (by rw [hlen]; rfl) (by rw [hmajor]; rfl) (by rw [hminor]; rfl)
    (decodeRep_eq_ok_iff.2 ⟨hlow, hzero, by rw [hr]⟩)

theorem decode_encode_of_fields {i : Instr} {f : Fields} (hf : i.fields? = some f) (hok : i.fieldsOk f = true) :
    decode (encode i) = .ok i := by
  obtain ⟨major, minor, mk, hkey, hmajor, hminor, hrep, hop, hmk⟩ := Instr.opcode_of_fields hf
  have hi : mk f = i := hmk (Instr.extraOk_of_fieldsOk hok)
  have hM : (BitVec.ofNat 8 major).toNat = major := by simp only [BitVec.toNat_ofNat]; omega
  have hm : (BitVec.ofNat 3 minor).toNat = minor := by simp only [BitVec.toNat_ofNat]; omega
  have hfields : f = fieldsOf f.len (word0 (BitVec.ofNat 8 major) f) (word1 (BitVec.ofNat 3 minor) f)
      (immOf ((immWords f).take (f.len.words - 2))) := by
    rw [fieldsOf_words, ← immWords_length, List.take_length, immOf_immWords (Instr.immFits_of_fieldsOk hok)]
  rw [encode_of_fields hf hkey, decode_eq_ok_iff, ← hi]
  refine .fields (len := f.len) ?_ (immWords_length f).ge ?_ ?_ ?_ hfields (hi ▸ hok)
  case refine_1 => rw [word0_length, Len.ofL_toL]
  case refine_2 => rw [word0_major, hM]; omega
  case refine_3 => rw [word0_major, hM]; exact fun h => hrep h.1
  case refine_4 => rw [word0_major, word1_minor, hM, hm, hop]

theorem decode_encode {i : Instr} (h : i.wf = true) : decode (encode i) = .ok i := by
  obtain ⟨r, rfl⟩ | ⟨f, hf, hok⟩ := Instr.rep_or_fields_of_wf h
  · exact decode_encodeRep r
  · exact decode_encode_of_fields hf hok

/-- The words of an instruction that words decode to are the first of them. -/
theorem Decodes.wf_encode {ws : List Word} {i : Instr} (h : Decodes ws i) :
    i.wf = true ∧ encode i = ws.take (encode i).length := by
  cases h with
  | @rep w0 w1 imms _ hlen hmajor hminor hrep =>
    obtain ⟨hlow, hzero, rfl⟩ := decodeRep_eq_ok_iff.1 hrep
    have hwords : encode (.rep (.ofWords w0 w1)) = [w0, w1] := encodeRep_ofWords hlow (BitVec.eq_of_toNat_eq hmajor) hzero
    exact ⟨rfl, by rw [hwords]; rfl⟩
  | @fields w0 w1 imms len mk f hlen himms hmajor hrep hop hf hok =>
    obtain ⟨hfields, hkey⟩ := keyed _ _ mk f hop
    have himm : immWords f = imms.take (len.words - 2) := by
      rw [hf]
      exact immWords_of_immOf (List.length_take_of_le himms) rfl
    have hwords : encode (mk f) = w0 :: w1 :: imms.take (len.words - 2) := by
      rw [encode_of_fields hfields hkey, BitVec.ofNat_toNat, BitVec.ofNat_toNat, BitVec.setWidth_eq, BitVec.setWidth_eq, himm, hf,
        word0_fieldsOf hlen, word1_fieldsOf]
    refine ⟨(Instr.wf_of_fields hfields).trans hok, ?_⟩
    rw [hwords, List.length_cons, List.length_cons, List.take_succ_cons, List.take_succ_cons, List.length_take_of_le himms]

end Sys2Proof

namespace Sys2Proof.Proofs
open Sys2Proof.Machine

/-- Settles O49: the bits and the opcode of the words of a well-formed instruction are those that the decoder reads. -/
theorem decodeEncode : Obligations.DecodeEncode := fun _ hwf => decode_encode hwf

/-- Settles O50: the fields and the opcode that the decoder reads cover every bit of the words. -/
theorem encodeDecode : Obligations.EncodeDecode := by
  intro ws i h
  obtain ⟨hwf, hwords⟩ := (decode_eq_ok_iff.1 h).wf_encode
  exact ⟨hwf, hwords, decode_encode hwf⟩

end Sys2Proof.Proofs

namespace Sys2Proof.Proofs

/-- Settles O51: each example's words are decoded. -/
theorem decodeWords : Obligations.DecodeWords := ⟨rfl, rfl, rfl, rfl, rfl, rfl, rfl, rfl, rfl, rfl, rfl⟩

end Sys2Proof.Proofs

/-! ## Repeats (R182, R183) -/

namespace Sys2Proof.Machine

section
variable {r : RepFields} {s s' : State} {e : Env} {w : Word} {ws : List Word}
variable (henv : s.env? = some e) (hfetch : ({ e with pc := e.pc + 8 } : Env).fetch s = .words s' (w :: ws))
include henv hfetch

theorem execRep_begins (hword : notRepeated w = false) : execRep r s = .next (s'.beginRepeat e r) := by
  simp only [execRep, henv, hfetch, hword, Bool.false_eq_true, if_false]

theorem execRep_illegal (hword : notRepeated w = true) : execRep r s = .next (s'.raise e (e.infoAll 0x01 0)) := by
  simp only [execRep, henv, hfetch, hword, if_true]

end

theorem exec_rep (r : RepFields) (s : State) : exec (.rep r) s = execRep r s := rfl

end Sys2Proof.Machine

namespace Sys2Proof.Proofs
open Sys2Proof.Machine

/-- Settles O12: the word behind the `REP` has been fetched and decides whether the repeats begin. -/
theorem repeatBegins : Obligations.RepeatBegins := by
  intro r s s' e w ws henv hfetch
  simp only [exec_rep]
  exact ⟨execRep_begins henv hfetch, execRep_illegal henv hfetch⟩

end Sys2Proof.Proofs

/-! ## A fragment's turn (R172, R173, R183, R185, R453) -/

namespace Sys2Proof.Machine
open Sys2Proof.Claims

/-! R185: the fate of words. -/

theorem decodeFate_ok {ws : List Word} {i : Instr} (h : decode ws = .ok i) : decodeFate ws = i := by
  simp only [decodeFate, h]

theorem decodeFate_illegal {ws : List Word} {x : Reject} (h : decode ws = .error x) (hx : x ≠ .unimplemented) :
    decodeFate ws = .illegalEncoding ⟨ws⟩ := by
  cases x with
  | unimplemented => exact absurd rfl hx
  | _ => simp only [decodeFate, h]

theorem decodeFate_unimplemented {ws : List Word} (h : decode ws = .error .unimplemented) :
    decodeFate ws = .unimplementedEncoding ⟨ws⟩ := by
  simp only [decodeFate, h]

/-! R183: the instruction of the repeat in progress. -/

section
variable {r : Repeat} {ws ws' : List Word}

theorem issueOf_none : issueOf none ws = decodeFate ws := rfl

theorem issueOf_repeat (h : stepWords r.fields (r.fields.cnt.toNat + 1 - r.left) ws = some ws') :
    issueOf (some r) ws = decodeFate ws' := by
  simp only [issueOf, h]

theorem issueOf_repeat_outside (h : stepWords r.fields (r.fields.cnt.toNat + 1 - r.left) ws = none) :
    issueOf (some r) ws = .illegalEncoding ⟨ws⟩ := by
  simp only [issueOf, h]

end

/-! R453: the instructions before which a late report is taken. -/

section
variable {rep : Option Repeat} {r : Repeat} {i : Instr} {f : Fields}

theorem takesLate_unmarked (h : ∀ f, i.fields? = some f → f.mark = false) : takesLate rep i = false := by
  unfold takesLate
  split
  next f hf => simp only [h f hf, Bool.false_and]
  next => rfl

theorem takesLate_of_fields_none (h : i.fields? = none) : takesLate rep i = false :=
  takesLate_unmarked fun f hf => by simp only [h, reduceCtorEq] at hf

theorem takesLate_early (h : 1 < r.left) : takesLate (some r) i = false := by
  unfold takesLate
  split
  next => simp only [decide_eq_false (Nat.not_le.2 h), Bool.and_false]
  next => rfl

theorem takesLate_marked (hf : i.fields? = some f) (hmark : f.mark = true) : takesLate none i = true := by
  simp only [takesLate, hf, hmark, Bool.and_self]

theorem takesLate_last (hf : i.fields? = some f) (hmark : f.mark = true) (h : r.left ≤ 1) : takesLate (some r) i = true := by
  simp only [takesLate, hf, hmark, decide_eq_true h, Bool.and_self]

end

section
variable {s s₁ : State} {t g : Nat} {ws : List Word}

theorem Env.fetch_words (h : Fetches s t g s₁ ws) : (s.envAt t g).fetch s = .words s₁ ws := by
  obtain ⟨⟨hlow, hwindow⟩, place, ord, base, size, htrans, hhost, hbad, hwords⟩ := h
  simp only [Env.fetch, if_neg (not_or.2 ⟨Nat.not_le.2 hlow, hwindow⟩), htrans, hhost, hbad, hwords, Bool.false_eq_true, if_false]

/-- The state in which the instruction of a turn issues. -/
abbrev State.issueAt (s : State) (e : Env) (t g : Nat) (ws : List Word) : State :=
  { s.noteIssue e t g with cur := { team := t, frag := g, pc := e.pc, words := ws } }

theorem takes_no_abort (h : Turns s t g) : ((s.envAt t g).fr.grp.isNone && (s.envAt t g).wp.aborting) = false := by
  rcases h.runs with hgrp | hwp
  · simp only [Option.isNone_eq_false_iff.2 hgrp, Bool.false_and]
  · simp only [hwp, Bool.and_false]

section
variable {i : Instr} (hturn : Turns s t g) (hfetch : Fetches s t g s₁ ws) (hissue : issueOf (s.envAt t g).fr.rep ws = i)
include hturn hfetch hissue

theorem fetchTurn_runs (hlate : takesLate (s.envAt t g).fr.rep i = false) :
    s.fetchTurn t g = .run (s₁.issueAt (s.envAt t g) t g ws) i := by
  simp only [State.fetchTurn, hturn.can, takes_no_abort hturn, hturn.resumed, hturn.on, Env.fetch_words hfetch, hissue, hlate,
    Bool.not_true, Bool.false_eq_true, if_false]

theorem fetchTurn_runs_marked (hlate : takesLate (s.envAt t g).fr.rep i = true)
    (hquiet : ((s₁.deliverFrag t g).team t).late g = none) :
    s.fetchTurn t g = .run ((s₁.deliverFrag t g).issueAt (s.envAt t g) t g ws) i := by
  simp only [State.fetchTurn, hturn.can, takes_no_abort hturn, hturn.resumed, hturn.on, Env.fetch_words hfetch, hissue, hlate,
    hquiet, Bool.not_true, Bool.false_eq_true, if_false, if_true]

end
end

section
variable {s : State} {t g : Nat} {rest : List Turn}

theorem State.nextTurn_of_agenda {x : Turn} (h : s.agenda = x :: rest) : s.nextTurn = (x, { s with agenda := rest }) := by
  simp only [State.nextTurn, h]

theorem step_issue {s' : State} {i : Instr} (h : s.agenda = .issue t g :: rest)
    (hrun : { s with agenda := rest }.fetchTurn t g = .run s' i) : step s = exec i s' := by
  simp only [step, State.nextTurn_of_agenda h, hrun]

end
end Sys2Proof.Machine

namespace Sys2Proof.Proofs
open Sys2Proof.Machine

/-- Settles O52: the turn fetches the words and runs their instruction; a marked one, at its last repeat, after the far stores of
the fragment have arrived. -/
theorem stepRunsDecoded : Obligations.StepRunsDecoded := by
  intro s s₁ t g rest ws ws' i r x s₀ pc rep go hagenda hturn hfetch
  have runs {i : Instr} (hissue : issueOf rep ws = i) (hlate : takesLate rep i = false) : step s = exec i (go s₁) :=
    step_issue hagenda (fetchTurn_runs hturn hfetch hissue hlate)
  have runsLate {i : Instr} (hissue : issueOf rep ws = i) (hlate : takesLate rep i = true)
      (hquiet : ((s₁.deliverFrag t g).team t).late g = none) : step s = exec i (go (s₁.deliverFrag t g)) :=
    step_issue hagenda (fetchTurn_runs_marked hturn hfetch hissue hlate hquiet)
  refine ⟨fun hrep hws hmark => ?_, fun f hrep hws hf hmark => ?_, fun hrep hstep hws hmark => ?_,
    fun f hrep hstep hws hlast hf hmark => ?_, fun hrep hstep => ?_, fun hrep hws hx => ?_, fun hrep hws => ?_, fun n => ?_⟩
  · exact runs (by rw [hrep, issueOf_none, decodeFate_ok hws]) (takesLate_unmarked hmark)
  · exact runsLate (by rw [hrep, issueOf_none, decodeFate_ok hws]) (by rw [hrep, takesLate_marked hf hmark])
  · refine runs (by rw [hrep, issueOf_repeat hstep, decodeFate_ok hws]) ?_
    rcases hmark with hleft | hmark
    · rw [hrep, takesLate_early hleft]
    · exact takesLate_unmarked hmark
  · exact runsLate (by rw [hrep, issueOf_repeat hstep, decodeFate_ok hws]) (by rw [hrep, takesLate_last hf hmark hlast])
  · exact runs (by rw [hrep, issueOf_repeat_outside hstep]) (takesLate_of_fields_none rfl)
  · exact runs (by rw [hrep, issueOf_none, decodeFate_illegal hws hx]) (takesLate_of_fields_none rfl)
  · exact runs (by rw [hrep, issueOf_none, decodeFate_unimplemented hws]) (takesLate_of_fields_none rfl)
  · rfl

end Sys2Proof.Proofs

/-! ## How the effect of a ready instruction ends (R186, R197) -/

namespace Sys2Proof.Claims
open Sys2Proof.Machine

section
variable {c : Fields → Instr} {f : Fields} {s s' : State} {e : Env} {n b : Env → Effect} {res : Res} {pc : Nat} {x : TrapInfo}
  {w : Wait}
variable (h : Ready c f s e) (hexec : exec (c f) s = branchWith (c f) f s n b)
include h hexec

theorem Ready.concludes {o : Effect} (hb : b e = o) : exec (c f) s = .next (e.conclude f (retOf (c f) f e.hdr.lanes) o) := by
  rw [hexec, h.branch, hb]

theorem Ready.done (hb : b e = .done s' res) : Ends c f s e s' res (e.next f) := h.concludes hexec hb

theorem Ready.jump (hb : b e = .jump s' res pc) : Ends c f s e s' res pc := h.concludes hexec hb

theorem Ready.trap (hb : b e = .trap s' x) : exec (c f) s = .next (s'.raise e x) := h.concludes hexec hb

theorem Ready.wait (hb : b e = .wait s' w) : exec (c f) s = .next (s'.suspend e (retOf (c f) f e.hdr.lanes) w) :=
  h.concludes hexec hb

theorem Ready.hold (hb : b e = .hold s' w) : exec (c f) s = .next (s'.park e.t e.g w) := h.concludes hexec hb

theorem Ready.placed (hb : b e = .placed s') : exec (c f) s = .next s' := h.concludes hexec hb

theorem Ready.abort {code user : Nat} (hb : b e = .abort s' code user) :
    exec (c f) s = .next (s'.abortTx e.t e.fr.warp [{ code, cause := 0, user }]) := h.concludes hexec hb

end

end Sys2Proof.Claims

namespace Sys2Proof.Proofs
open Sys2Proof.Machine

/-- Settles O43: the issue of an instruction looks at T before it does anything else that its checks have let through. -/
theorem notTaken : Obligations.NotTaken := fun _ _ _ _ => noEffect_of_T_nil

end Sys2Proof.Proofs

/-! ## Branches of whole fragments (R201 to R206, R208, R359) -/

namespace Sys2Proof.Machine
open Sys2Proof.Claims

section
variable {c : Fields → Instr} {f : Fields} {s : State} {e : Env} {res : Env → Res}

theorem Env.isAll_iff : e.isAll f = true ↔ e.F f = [] := List.isEmpty_iff

section
variable (h : Ready c f s e) (hexec : exec (c f) s = execWhole (c f) f s res)
include h hexec

section
variable (hF : e.F f = [])
include hF

theorem execWhole_moves :
    Ends c f s e (if f.gneg = false ∧ f.gp = 7#3 then s else e.branchTerms s fun _ => e.target f.imm32) (res e)
      (e.target f.imm32) :=
  h.jump hexec ((if_pos (Env.isAll_iff.2 hF)).trans (congrArg (Effect.jump · (res e) _) (ite_guarded _)))

theorem execWhole_plain (hplain : f.gneg = false ∧ f.gp = 7#3) : Ends c f s e s (res e) (e.target f.imm32) := by
  have hmoves := execWhole_moves h hexec hF
  rwa [if_pos hplain] at hmoves

theorem execWhole_guarded (hguard : ¬ (f.gneg = false ∧ f.gp = 7#3)) :
    Ends c f s e (e.branchTerms s fun _ => e.target f.imm32) (res e) (e.target f.imm32) := by
  have hmoves := execWhole_moves h hexec hF
  rwa [if_neg hguard] at hmoves

end

theorem execWhole_diverges (hF : e.F f ≠ []) : exec (c f) s = .next (s.raise e (e.threadTrap 0x22 (e.T f))) :=
  h.trap hexec (if_neg (mt Env.isAll_iff.1 hF))

end

theorem exec_bra (f : Fields) (s : State) : exec (.bra f) s = execWhole (.bra f) f s fun _ => .none := rfl

theorem exec_call (f : Fields) (s : State) : exec (.call f) s = execWhole (.call f) f s fun e => e.link f := rfl

/-! R206: the address of a `RET` is that of the elected thread where the threads of T agree. -/

section
variable (hT : e.T f ≠ [])
include hT

theorem Env.elected_mem : ∃ m ∈ e.T f, m.tid = e.elected f := by
  obtain ⟨m, l, hml⟩ := List.exists_cons_of_ne_nil hT
  exact ⟨m, hml ▸ List.mem_cons_self, by simp only [Env.elected, hml, List.map_cons, List.getD_cons_zero]⟩

theorem Env.ret_diverges_iff :
    (!e.isAll f || (e.T f).any fun m => (e.a2 f m.tid).toNat != (e.a2 f (e.elected f)).toNat) = true ↔
      e.F f ≠ [] ∨ ∃ m ∈ e.T f, ∃ n ∈ e.T f, (e.a2 f m.tid).toNat ≠ (e.a2 f n.tid).toNat := by
  simp only [Bool.or_eq_true, Bool.not_eq_true', ← Bool.not_eq_true, Env.isAll_iff, List.any_eq_true, bne_iff_ne]
  refine or_congr_right ⟨fun ⟨m, hm, hne⟩ => ?differs, fun ⟨m, hm, n, hn, hne⟩ => ?elects⟩
  case differs =>
    obtain ⟨n, hn, htid⟩ := Env.elected_mem hT
    exact ⟨m, hm, n, hn, htid ▸ hne⟩
  case elects =>
    by_cases hme : (e.a2 f m.tid).toNat = (e.a2 f (e.elected f)).toNat
    · exact ⟨n, hn, fun hne' => hne (hme.trans hne'.symm)⟩
    · exact ⟨m, hm, hme⟩

end

section
variable {a : Nat} (h : Ready .ret f s e) (ha : ∀ m ∈ e.T f, (e.a2 f m.tid).toNat = a)
include h ha

theorem ret_address : (e.a2 f (e.elected f)).toNat = a := by
  obtain ⟨m, hm, htid⟩ := Env.elected_mem h.acts
  rw [← htid, ha m hm]

variable (hF : e.F f = [])
include hF

theorem ret_agrees : ¬ (!e.isAll f || (e.T f).any fun m => (e.a2 f m.tid).toNat != (e.a2 f (e.elected f)).toNat) = true := by
  rw [Env.ret_diverges_iff h.acts]
  rintro (hne | ⟨m, hm, n, hn, hne⟩)
  · exact hne hF
  · exact hne ((ha m hm).trans (ha n hn).symm)

theorem execRet_moves (halign : a % 4 = 0) : Ends .ret f s e (e.branchTerms s fun _ => a) .none a := by
  refine h.jump rfl ((if_neg (ret_agrees h ha hF)).trans ?_)
  simp only [ret_address h ha, halign, ne_eq, not_true_eq_false, if_false]

theorem execRet_misaligned (halign : a % 4 ≠ 0) : exec (.ret f) s = .next (s.raise e (e.threadTrap 0x05 (e.T f))) := by
  refine h.trap rfl ((if_neg (ret_agrees h ha hF)).trans (if_pos ?_))
  rwa [ret_address h ha]

end

theorem execRet_diverges (h : Ready .ret f s e)
    (hdiv : e.F f ≠ [] ∨ ∃ m ∈ e.T f, ∃ n ∈ e.T f, (e.a2 f m.tid).toNat ≠ (e.a2 f n.tid).toNat) :
    exec (.ret f) s = .next (s.raise e (e.threadTrap 0x22 (e.T f))) :=
  h.trap rfl (if_pos ((Env.ret_diverges_iff h.acts).2 hdiv))

/-- R203: a whole `BRA.C` moves its fragment as one. -/
theorem execBraC_whole (h : Ready .braC f s e) (hF : e.F f = []) :
    Ends .braC f s e (e.braCTerms s f) .none (e.target f.imm32) :=
  h.jump rfl (if_pos (by rw [Env.isAll_iff.2 hF, Bool.true_or]))

end
end Sys2Proof.Machine

namespace Sys2Proof.Proofs
open Sys2Proof.Machine Sys2Proof.Claims

/-- Settles O8: a whole fragment jumps, with the path terms of its kind of branch (R359); one that diverges traps. -/
theorem branchResults : Obligations.BranchResults := by
  intro f s e
  exact ⟨fun h => h.done rfl rfl, fun h => h.done rfl rfl,
    fun h => execWhole_plain (res := fun _ => .none) h (exec_bra f s),
    fun h => execWhole_guarded (res := fun _ => .none) h (exec_bra f s),
    fun h => execWhole_plain (res := (·.link f)) h (exec_call f s),
    fun h => execWhole_guarded (res := (·.link f)) h (exec_call f s),
    execBraC_whole, fun _ h hF ha => execRet_moves h ha hF,
    fun h => execWhole_diverges h (exec_bra f s), fun h => execWhole_diverges h (exec_call f s),
    execRet_diverges, fun _ h hF ha => execRet_misaligned h ha hF⟩

end Sys2Proof.Proofs

/-! ## Exit, reform regions and children (R207, R209, R210) -/

namespace Sys2Proof.Machine
open Sys2Proof.Claims

section
variable {f : Fields} {s : State} {e : Env}

theorem Env.enteredOf_true : e.enteredOf f true = (e.T f).filter fun m => (e.tm.thread m.tid).entered := by
  simp only [Env.enteredOf, beq_true]

theorem Env.enteredOf_false : e.enteredOf f false = (e.T f).filter fun m => !(e.tm.thread m.tid).entered := by
  simp only [Env.enteredOf, beq_false]

section
variable (h : Ready .rfopen f s e)
include h

theorem execRfopen_opens (hnone : e.enteredOf f true = []) (hq : Quiet s e) : exec (.rfopen f) s =
    .next (((settledOf s e).retire e (retOf (.rfopen f) f e.hdr.lanes) .none (e.next f)).openRegion e f) :=
  h.placed rfl (by simp only [hnone, settled_of_quiet hq])

theorem execRfopen_traps (hsome : e.enteredOf f true ≠ []) :
    exec (.rfopen f) s = .next (s.raise e (e.threadTrap 0x50 (e.enteredOf f true))) := by
  obtain ⟨m, ms, hms⟩ := List.exists_cons_of_ne_nil hsome
  exact h.trap rfl (by simp only [hms])

end

/-! R57: the threads of T join. -/

section
variable (h : Ready .rfclose f s e)
include h

theorem execRfclose_joins (hnone : e.enteredOf f false = []) (hkids : ¬ ∃ t ∈ e.tids f, (e.tm.thread t).child = true) :
    exec (.rfclose f) s = .next ((s.retire e (retOf (.rfclose f) f e.hdr.lanes) .none (e.next f)).joinThreads e.t e.g (e.tids f)
      (e.next f)) :=
  h.placed rfl (by simp only [hnone, if_neg (mt List.any_eq_true.1 hkids)])

theorem execRfclose_joins_children (hnone : e.enteredOf f false = [])
    (hkids : ∃ t ∈ e.tids f, (e.tm.thread t).child = true) (hq : Quiet s e) :
    exec (.rfclose f) s = .next (((settledOf s e).retire e (retOf (.rfclose f) f e.hdr.lanes) .none (e.next f)).joinThreads e.t e.g
      (e.tids f) (e.next f)) :=
  h.placed rfl (by simp only [hnone, if_pos (List.any_eq_true.2 hkids), settled_of_quiet hq])

theorem execRfclose_traps (hsome : e.enteredOf f false ≠ []) :
    exec (.rfclose f) s = .next (s.raise e (e.threadTrap 0x51 (e.enteredOf f false))) := by
  obtain ⟨m, ms, hms⟩ := List.exists_cons_of_ne_nil hsome
  exact h.trap rfl (by simp only [hms])

end

section
variable (h : Ready .reform f s e)
include h

theorem execReform_closed (hregion : e.tm.region = none) : Gives .reform f s e .none :=
  h.done rfl (if_pos (Option.isNone_iff_eq_none.2 hregion))

variable (hregion : e.tm.region ≠ none)
include hregion

theorem execReform_traps (hsome : e.enteredOf f false ≠ []) :
    exec (.reform f) s = .next (s.raise e (e.threadTrap 0x51 (e.enteredOf f false))) := by
  obtain ⟨m, ms, hms⟩ := List.exists_cons_of_ne_nil hsome
  exact h.trap rfl ((if_neg (mt Option.isNone_iff_eq_none.1 hregion)).trans (by simp only [hms]))

variable (hnone : e.enteredOf f false = [])
include hnone

theorem execReform_within (hent : e.fr.ent ≠ none) : Gives .reform f s e .none :=
  h.done rfl ((if_neg (mt Option.isNone_iff_eq_none.1 hregion)).trans
    (by simp only [hnone, if_pos (Option.isSome_iff_ne_none.2 hent)]))

theorem execReform_files (hent : e.fr.ent = none) (hq : Quiet s e) : exec (.reform f) s =
    .next ((((settledOf s e).retire e (retOf (.reform f) f e.hdr.lanes) .none (e.next f)).modTeam e.t fun tm =>
      tm.setLive (e.tids f) f.imm32).refile e (e.next f) (e.tids f)) :=
  h.placed rfl ((if_neg (mt Option.isNone_iff_eq_none.1 hregion)).trans
    (by simp only [hnone, hent, Option.isSome_none, Bool.false_eq_true, if_false, settled_of_quiet hq]))

end

section
variable (h : Ready .spawn f s e)
include h

theorem execSpawn_queues (hnone : e.enteredOf f false = []) :
    Ends .spawn f s e (e.spawnAll s f (e.T f)).1 (.p (e.spawnAll s f (e.T f)).2) (e.next f) :=
  h.done rfl (by simp only [hnone])

theorem execSpawn_traps (hsome : e.enteredOf f false ≠ []) :
    exec (.spawn f) s = .next (s.raise e (e.threadTrap 0x51 (e.enteredOf f false))) := by
  obtain ⟨m, ms, hms⟩ := List.exists_cons_of_ne_nil hsome
  exact h.trap rfl (by simp only [hms])

end
end
end Sys2Proof.Machine

namespace Sys2Proof.Proofs
open Sys2Proof.Machine Sys2Proof.Claims

/-- Settles O10: whether T has threads that have, or have not, entered the region decides between the effect and the trap. -/
theorem regionInstructions : Obligations.RegionInstructions := by
  intro f s e
  simp only [← Env.enteredOf_true, ← Env.enteredOf_false]
  exact ⟨fun h hq => h.placed rfl (settled_of_quiet hq), execRfopen_opens, execRfclose_joins, execRfclose_joins_children,
    execReform_closed, execReform_within, execReform_files, execSpawn_queues, execRfopen_traps, execReform_traps,
    execRfclose_traps, execSpawn_traps⟩

end Sys2Proof.Proofs

/-! ## Traps, the return from one and the halt of the grid (R185, R187, R211 to R213) -/

namespace Sys2Proof.Machine
open Sys2Proof.Claims

section
variable {c : Fields → Instr} {f : Fields} {s : State} {e : Env}

/-- R211: outside speculation and transactions the instruction counts as issued and its frame holds its own address. -/
theorem execSoft_traps {cause : Nat} {code : Word} (h : Ready c f s e) (hexec : exec (c f) s = execSoft (c f) f s cause code)
    (hmode : e.wp.mode = .normal) (hq : Quiet s e) :
    exec (c f) s = .next (((settledOf s e).retire e (retOf (c f) f e.hdr.lanes) .none e.pc).takeTrap
      { ((settledOf s e).retire e (retOf (c f) f e.hdr.lanes) .none e.pc).envAt e.t e.g with pc := e.pc, words := e.words }
      { e.threadTrap cause (e.T f) with tcode := code }) :=
  h.placed hexec ((if_pos (beq_iff_eq.2 hmode)).trans (settled_of_quiet hq))

variable (henv : s.env? = some e) (x : RawWords)
include henv

theorem execIllegalEncoding_traps : execIllegalEncoding x s = .next (s.raise e (e.infoAll 0x01 0)) := by
  simp only [execIllegalEncoding, henv]

theorem execUnimplementedEncoding_traps : execUnimplementedEncoding x s = .next (s.raise e (e.infoAll 0x02 0)) := by
  simp only [execUnimplementedEncoding, henv]

end

theorem exec_trap (f : Fields) (s : State) : exec (.trap f) s = execSoft (.trap f) f s 0x08 f.imm32 := rfl

theorem exec_bkpt (f : Fields) (s : State) : exec (.bkpt f) s = execSoft (.bkpt f) f s 0x09 0 := rfl

end Sys2Proof.Machine

namespace Sys2Proof.Proofs
open Sys2Proof.Machine Sys2Proof.Claims

/-- Settles O11: a ready instruction of these comes straight to its trap, its return or its halt. -/
theorem trapsAndHalts : Obligations.TrapsAndHalts := by
  intro f x s e
  exact ⟨fun h => execSoft_traps h (exec_trap f s), fun h => execSoft_traps h (exec_bkpt f s),
    fun henv => execIllegalEncoding_traps henv x, fun henv => execUnimplementedEncoding_traps henv x,
    fun h => h.placed rfl rfl, fun h => h.placed rfl rfl⟩

end Sys2Proof.Proofs

/-! ## Phasers and try-waits (R215 to R222) -/

namespace Sys2Proof.Machine
open Sys2Proof.Claims

/-! R215: the completion test and the phases that are done. -/

section
variable {p : Phaser}

theorem Phaser.test_completes (h : max p.n 1 ≤ p.a) : p.test = { p with p := (p.p + 1) % 2 ^ 16, a := 0 } := if_pos h

theorem Phaser.test_stays (h : p.a < max p.n 1) : p.test = p := if_neg (Nat.not_le.2 h)

/-- R215: the phase of the phaser is ahead of `t` by at most 32,767. -/
theorem Phaser.done_iff (t : Nat) :
    p.done t = true ↔ 0 < (p.p + 2 ^ 16 - t % 2 ^ 16) % 2 ^ 16 ∧ (p.p + 2 ^ 16 - t % 2 ^ 16) % 2 ^ 16 < 2 ^ 15 := by
  simp only [Phaser.done, Bool.and_eq_true, decide_eq_true_eq]

theorem Phaser.done_iff_toInt_pos (t : Nat) : p.done t = true ↔ 0 < (BitVec.ofNat 16 (p.p + 2 ^ 16 - t % 2 ^ 16)).toInt := by
  rw [Phaser.done_iff, BitVec.toInt_eq_toNat_cond, BitVec.toNat_ofNat]
  split <;> omega

theorem Phaser.done_iff_of_passed {t k : Nat} (hk : k < 2 ^ 16) (hp : p.p = (t + k) % 2 ^ 16) :
    p.done t = true ↔ 1 ≤ k ∧ k ≤ 32767 := by
  have hdist : (p.p + 2 ^ 16 - t % 2 ^ 16) % 2 ^ 16 = k := by omega
  rw [Phaser.done_iff, hdist]
  omega

end
end Sys2Proof.Machine

namespace Sys2Proof.Proofs
open Sys2Proof.Machine

/-- Settles O53: the distance of two phases is a number of 16 bits, and those up to 32,767 are its positive ones. -/
theorem phaserCompletion : Obligations.PhaserCompletion := fun _ t _ =>
  ⟨Phaser.test_completes, Phaser.test_stays, rfl, Phaser.done_iff_toInt_pos t, Phaser.done_iff_of_passed⟩

end Sys2Proof.Proofs

namespace Sys2Proof.Machine
open Sys2Proof.Claims

/-! R216, R221: an instruction that names a phaser acts on it. -/

section
variable {f : Fields} {s : State} {e : Env} {h : Nat} {p : Phaser} {r : Registration} {modes : List Nat}

theorem Env.withPhaser_of_names {k : Nat → Phaser → Effect} (hname : Names f s e h p) : e.withPhaser s f k = k h p := by
  obtain ⟨hhandle, hgood, hreach, hfound⟩ := hname
  have hh : e.handle f = h := hhandle.symm
  have hfar : (hScope h = 5 && !s.reaches e.die (hDie h)) = false := by
    rcases hreach with hscope | hreach
    · simp only [decide_eq_false hscope, Bool.false_and]
    · simp only [hreach, Bool.not_true, Bool.and_false]
  simp only [Env.withPhaser, hh, hgood, hfar, hfound, Bool.false_eq_true, if_false]

theorem Env.withReg_of_registered {k : Nat → Phaser → Registration → Effect} (hname : Names f s e h p)
    (hreg : Registered e h r modes) : e.withReg s f modes k = k h p r := by
  obtain ⟨hr, hmode⟩ := hreg
  rw [Env.withReg, Env.withPhaser_of_names hname]
  simp only [hr, List.contains_iff_mem.2 hmode, if_true]

end

/-! R217, R218: allocation and registration. -/

section
variable {f : Fields} {s : State} {e : Env} {h : Nat} {p : Phaser} {r : Registration}

theorem bit_ne_two (mode : Nat) : bit (mode != 2) = if mode = 2 then 0 else 1 := by
  by_cases h : mode = 2 <;> simp [bit, h]

theorem execPhinit_allocates (hi : Ready .phinit f s e) (hcount : (e.b f 0).toNat < 2 ^ 16) :
    Ends .phinit f s e (e.allocPhaser s (f.mod.toNat % 8) (e.b f 0).toNat).1
      (.w [BitVec.ofNat 32 (e.allocPhaser s (f.mod.toNat % 8) (e.b f 0).toNat).2]) (e.next f) :=
  hi.done rfl (if_neg (Nat.not_le.2 hcount))

theorem execPhreg_registers (hi : Ready .phreg f s e) (hname : Names f s e h p) (hnew : e.wp.reg? h = none)
    (hroom : e.wp.regs.length < 8) (hcount : f.mod.toNat % 4 = 2 ∨ p.n < 65535) :
    Ends .phreg f s e
      ((s.modWarp e.t e.fr.warp fun wp =>
          { wp with regs := wp.regs ++ [{ handle := h, mode := f.mod.toNat % 4, pending := false, phase := 0 }] }).putPhaser e.t h
        { p with n := p.n + if f.mod.toNat % 4 = 2 then 0 else 1 }.test) .none (e.next f) := by
  have hfull : ¬ (f.mod.toNat % 4 != 2 && 65535 ≤ p.n) = true := by
    simp only [Bool.and_eq_true, bne_iff_ne, decide_eq_true_eq]
    omega
  refine hi.done rfl ((Env.withPhaser_of_names hname).trans ?_)
  simp only [hnew, Option.isSome_none, Bool.false_eq_true, if_false, if_neg (Nat.not_le.2 hroom), if_neg hfull, bit_ne_two]

theorem execPhdrop_drops (hi : Ready .phdrop f s e) (hname : Names f s e h p) (hreg : Registered e h r [1, 2, 3]) :
    Ends .phdrop f s e
      ((s.modWarp e.t e.fr.warp fun wp => { wp with regs := wp.regs.filter fun x => x.handle != h }).putPhaser e.t h
        { p with n := p.n - if r.mode = 2 then 0 else 1 }.test) .none (e.next f) :=
  hi.done rfl ((Env.withReg_of_registered hname hreg).trans (by simp only [bit_ne_two]))

end

/-! R219: arrivals. -/

section
variable {f : Fields} {s : State} {e : Env} {h : Nat} {p : Phaser} {r : Registration}
variable (hi : Ready .pharv f s e) (hname : Names f s e h p) (hreg : Registered e h r [1, 3])
include hi hname hreg

theorem execPharv_waits (hpending : r.waits p = true) :
    exec (.pharv f) s = .next (s.suspend e (retOf (.pharv f) f e.hdr.lanes) (.arrival h)) :=
  hi.wait rfl ((Env.withReg_of_registered hname hreg).trans (if_pos hpending))

variable (hpending : r.waits p = false)
include hpending

theorem execPharv_holds (hdue : e.storesDue s = true) : exec (.pharv f) s = .next (s.park e.t e.g .release) :=
  hi.hold rfl ((Env.withReg_of_registered hname hreg).trans
    ((if_neg (Bool.eq_false_iff.1 hpending)).trans (if_pos hdue)))

theorem execPharv_arrives (hdue : e.storesDue s = false) :
    Ends .pharv f s e ((e.release s).arrive e.t e.fr.warp h) (.w [BitVec.ofNat 32 p.p]) (e.next f) :=
  hi.done rfl ((Env.withReg_of_registered hname hreg).trans
    ((if_neg (Bool.eq_false_iff.1 hpending)).trans (if_neg (Bool.eq_false_iff.1 hdue))))

end
end Sys2Proof.Machine

namespace Sys2Proof.Proofs
open Sys2Proof.Machine Sys2Proof.Claims

/-- Settles O13: the handle names a phaser and the warp's registration allows the instruction, which then acts. -/
theorem phaserInstructions : Obligations.PhaserInstructions := by
  intro f s e h p r
  exact ⟨execPhinit_allocates, execPhreg_registers, execPhdrop_drops, execPharv_holds, execPharv_arrives, execPharv_waits⟩

end Sys2Proof.Proofs

namespace Sys2Proof.Machine
open Sys2Proof.Claims

/-! R222: the mark of a `PHAW` touches registrations alone. -/

theorem State.team_modWarp_phasers (s : State) (t w : Nat) (k : Warp → Warp) :
    ((s.modWarp t w k).team t).phasers = (s.team t).phasers := by
  have hteam : (s.modWarp t w k).team? t = (s.team? t).map fun tm => tm.modWarp w k := s.team?_modTeam t _ fun _ => rfl
  rw [State.team, hteam, State.team]
  cases s.team? t <;> rfl

theorem State.phaser?_setAgain (s : State) (t w h phase : Nat) (b : Bool) (k : Nat) :
    (s.setAgain t w h phase b).phaser? t k = s.phaser? t k := by
  simp only [State.phaser?, State.setAgain, State.team_modWarp_phasers, State.die, State.modWarp_dies]

/-! R220: a try-wait on a phaser has three outcomes. -/

/-- The instruction comes to a try-wait in `s'` for phase `t` of the phaser that `h` names. -/
def Tries (c : Fields → Instr) (f : Fields) (s : State) (e : Env) (s' : State) (h t : Nat) : Prop :=
  exec (c f) s = .next (e.conclude f (retOf (c f) f e.hdr.lanes) (e.tryWait s' f h t (e.b f 0)))

section
variable {c : Fields → Instr} {f : Fields} {s s' : State} {e : Env} {h t : Nat} {p : Phaser}
variable (htry : Tries c f s e s' h t) (hp : s'.phaser? e.t h = some p)
include htry hp

theorem Tries.succeeds (hdone : p.done t = true) :
    Ends c f s e (e.acquire (s'.setAgain e.t e.fr.warp h t false) (hScope h)) (everyPred e true) (e.next f) := by
  rw [Ends, htry, Env.tryWait]
  simp only [hp, hdone, if_true]
  rfl

variable (hopen : p.done t = false)
include hopen

theorem Tries.ends (hhint : e.b f 0 = 0) : Ends c f s e s' (everyPred e false) (e.next f) := by
  rw [Ends, htry, Env.tryWait]
  simp only [hp, hopen, hhint, Bool.false_eq_true, if_false, if_true]
  rfl

theorem Tries.waits (hhint : e.b f 0 ≠ 0) : exec (c f) s =
    .next (s'.suspend e (retOf (c f) f e.hdr.lanes) (.tryWait h t ((s'.die e.die).time + (e.b f 0).toNat) f)) := by
  rw [htry, Env.tryWait]
  simp only [hp, hopen, hhint, Bool.false_eq_true, if_false]
  rfl

end

section
variable {f : Fields} {s : State} {e : Env} {h : Nat} {p : Phaser} {r : Registration}

theorem execPhwait_tries (hi : Ready .phwait f s e) (hname : Names f s e h p) (hreg : Registered e h r [2, 3]) :
    Tries .phwait f s e s h ((e.c f 0).toNat % 2 ^ 16) :=
  hi.concludes rfl (Env.withReg_of_registered hname hreg)

variable (hi : Ready .phaw f s e) (hname : Names f s e h p) (hreg : Registered e h r [3])
include hi hname hreg

theorem execPhaw_arrives (hfirst : r.again = false ∧ r.waits p = false ∧ e.storesDue s = false) :
    Tries .phaw f s e (((e.release s).arrive e.t e.fr.warp h).setAgain e.t e.fr.warp h p.p true) h p.p := by
  obtain ⟨hagain, hpending, hdue⟩ := hfirst
  refine hi.concludes rfl ((Env.withReg_of_registered hname hreg).trans ?_)
  simp only [hagain, hpending, hdue, Bool.or_self, Bool.and_false, Bool.false_eq_true, if_false]
  rfl

/-- R222: a `PHAW` that is repeated awaits the phase that it arrived in. -/
theorem execPhaw_repeats (hagain : r.again = true ∨ r.waits p = true) :
    Tries .phaw f s e (s.setAgain e.t e.fr.warp h r.phase true) h r.phase := by
  have hold : (r.again || r.waits p) = true := Bool.or_eq_true_iff.2 hagain
  refine hi.concludes rfl ((Env.withReg_of_registered hname hreg).trans ?_)
  simp only [hold, Bool.not_true, Bool.false_and, Bool.false_eq_true, if_false, if_true]

end
end Sys2Proof.Machine

namespace Sys2Proof.Proofs
open Sys2Proof.Machine Sys2Proof.Claims

/-- Settles O14: each of the waits is a try-wait on its phase, of the phaser as the arrival, if there is one, leaves it. -/
theorem tryWaits : Obligations.TryWaits := by
  intro f s e h p q r
  have found (hn : Names f s e h p) : (s.setAgain e.t e.fr.warp h r.phase true).phaser? e.t h = some p :=
    (s.phaser?_setAgain e.t e.fr.warp h r.phase true h).trans hn.found
  refine ⟨fun hi hn hr => (execPhwait_tries hi hn hr).succeeds hn.found,
    fun hi hn hr => (execPhwait_tries hi hn hr).ends hn.found,
    fun hi hn hr => (execPhwait_tries hi hn hr).waits hn.found, fun hi hn hr hf => (execPhaw_arrives hi hn hr hf).succeeds,
    fun hi hn hr hf => (execPhaw_arrives hi hn hr hf).ends, fun hi hn hr hf => (execPhaw_arrives hi hn hr hf).waits,
    fun hi hn hr ha => (execPhaw_repeats hi hn hr ha).succeeds (found hn), fun hi hn hr ha hopen => ?_⟩
  split
  next hhint => exact (execPhaw_repeats hi hn hr ha).ends (found hn) hopen hhint
  next hhint => exact (execPhaw_repeats hi hn hr ha).waits (found hn) hopen hhint

end Sys2Proof.Proofs

/-! ## Speculative barriers and transactions (R223, R226 to R228) -/

namespace Sys2Proof.Machine
open Sys2Proof.Claims

/-- R84, R223: the state in which a `BARS` or a `TXBEG` takes its checkpoint. -/
abbrev Env.emptied (e : Env) (s : State) : State := (settledOf s e).emptyWindow e.t e.g

/-- R223: a `BARS` that has made its arrival, and the phase that it awaits. -/
abbrev Env.barsArrived (e : Env) (s : State) (h : Nat) (p : Phaser) (r : Registration) : State × Nat :=
  e.barsArrive (e.emptied s) h p r

section
variable {f : Fields} {s : State} {e : Env}

section
variable {h : Nat} {p q : Phaser} {r : Registration}
variable (hi : Ready .bars f s e) (hscope : hScope h = 2) (hname : Names f s e h p) (hshadow : e.hdr.vgran ≤ e.hdr.shadow)
  (hreg : Registered e h r [1, 3]) (hq : Quiet s e)
  (harrive : e.wp.again = none → r.waits p = false → e.storesDue s = false)
  (hfound : (e.barsArrived s h p r).1.phaser? e.t h = some q)
include hi hscope hname hshadow hreg hq harrive hfound

/-- R223: a barrier that nothing holds settles, makes its arrival and looks at its phase. -/
theorem execBars_looks : exec (.bars f) s = .next (e.conclude f (retOf (.bars f) f e.hdr.lanes)
    (if q.done (e.barsArrived s h p r).2 then .done ((e.barsArrived s h p r).1.acquireTeam e.t e.fr.warp) .none
      else .done (((e.barsArrived s h p r).1.acquireTeam e.t e.fr.warp).modWarp e.t e.fr.warp fun wp =>
        wp.speculate h (e.barsArrived s h p r).2 ((e.barsArrived s h p r).1.shadowOf e)) .none)) := by
  have hh : e.handle f = h := hname.handle.symm
  have hfree : ¬ (e.wp.again.isNone && !r.waits p && e.storesDue s) = true := by
    simp only [Bool.and_eq_true, Option.isNone_iff_eq_none, Bool.not_eq_true', not_and, Bool.not_eq_true]
    exact fun hw => harrive hw.1 hw.2
  refine hi.concludes rfl ?_
  simp only [hh, hscope, ne_eq, not_true_eq_false, if_false, if_neg (Nat.not_lt.2 hshadow), Env.withReg_of_registered hname hreg,
    if_neg hfree, settled_of_quiet hq, hfound]

theorem execBars_goes_on (hdone : q.done (e.barsArrived s h p r).2 = true) :
    Ends .bars f s e ((e.barsArrived s h p r).1.acquireTeam e.t e.fr.warp) .none (e.next f) := by
  rw [Ends, execBars_looks hi hscope hname hshadow hreg hq harrive hfound, if_pos hdone, Env.conclude]

theorem execBars_speculates (hopen : q.done (e.barsArrived s h p r).2 = false) :
    Ends .bars f s e (((e.barsArrived s h p r).1.acquireTeam e.t e.fr.warp).modWarp e.t e.fr.warp fun wp =>
      wp.speculate h (e.barsArrived s h p r).2 ((e.barsArrived s h p r).1.shadowOf e)) .none (e.next f) := by
  rw [Ends, execBars_looks hi hscope hname hshadow hreg hq harrive hfound, if_neg (Bool.eq_false_iff.1 hopen), Env.conclude]

end

theorem execTxbeg_begins (h : Ready .txbeg f s e) (hshadow : e.hdr.vgran ≤ e.hdr.shadow) (hq : Quiet s e) :
    Ends .txbeg f s e ((e.acquire (e.emptied s) 5).modWarp e.t e.fr.warp fun wp =>
      wp.transact f.dst.toNat ((e.emptied s).shadowOf e)) (.w [0]) (e.next f) :=
  h.done rfl ((if_neg (Nat.not_lt.2 hshadow)).trans (settled_of_quiet hq))

/-! R227, R228: what ends a transaction, within one and outside. -/

section
variable {x : Tx} (hmode : e.wp.mode = .transactional x)
include hmode

theorem execTxend_commits (h : Ready .txend f s e) (hdue : e.storesDue s = false) (hq : Quiet s e) :
    Ends .txend f s e ((e.release (settledOf s e)).commitTx e.t e.fr.warp) .none (e.next f) :=
  h.done rfl (by simp only [hmode, hdue, Bool.false_eq_true, if_false, settled_of_quiet hq])

theorem execTxabt_aborts (h : Ready .txabt f s e) :
    exec (.txabt f) s = .next (s.abortTx e.t e.fr.warp [{ code := 0x08, cause := 0, user := (e.b f 0).toNat % 2 ^ 16 }]) :=
  h.abort rfl (by simp only [hmode])

end

section
variable (hmode : ∀ x, e.wp.mode ≠ .transactional x)
include hmode

theorem execTxend_outside (h : Ready .txend f s e) : exec (.txend f) s = .next (s.raise e (e.onceTrap f 0x59)) :=
  h.trap rfl (by split; exacts [absurd ‹_› (hmode _), rfl])

theorem execTxabt_outside (h : Ready .txabt f s e) : Gives .txabt f s e .none :=
  h.done rfl (by split; exacts [absurd ‹_› (hmode _), rfl])

end
end
end Sys2Proof.Machine

namespace Sys2Proof.Proofs
open Sys2Proof.Machine Sys2Proof.Claims

/-- Settles O15: a barrier is decided by its phase after its own arrival, the end of a transaction by the mode of its warp. -/
theorem speculationAndTransactions : Obligations.SpeculationAndTransactions := by
  intro f s e h p q r x
  exact ⟨execBars_goes_on, execBars_speculates, execTxbeg_begins, fun h hmode => execTxend_commits hmode h,
    fun h hmode => execTxend_outside hmode h, fun h hmode => execTxabt_aborts hmode h, fun h hmode => execTxabt_outside hmode h⟩

end Sys2Proof.Proofs

/-! ## Tiles, fences, special registers and claims (R230 to R236, R357) -/

namespace Sys2Proof.Machine
open Sys2Proof.Claims

section
variable {f : Fields} {s : State} {e : Env}

section
variable (h : Ready .tilewait f s e)
include h

theorem execTilewait_succeeds (hfree : e.tm.tileFree f.sa.toNat = true) :
    Ends .tilewait f s e (e.acquire s 5) (everyPred e true) (e.next f) :=
  h.done rfl (if_pos hfree)

variable (hbusy : e.tm.tileFree f.sa.toNat = false)
include hbusy

theorem execTilewait_ends (hhint : e.b f 0 = 0) : Gives .tilewait f s e (everyPred e false) :=
  h.done rfl ((if_neg (Bool.eq_false_iff.1 hbusy)).trans (if_pos hhint))

theorem execTilewait_waits (hhint : e.b f 0 ≠ 0) : exec (.tilewait f) s =
    .next (s.suspend e (retOf (.tilewait f) f e.hdr.lanes) (.tile f.sa.toNat ((s.die e.die).time + (e.b f 0).toNat) f)) :=
  h.wait rfl ((if_neg (Bool.eq_false_iff.1 hbusy)).trans (if_neg hhint))

end

section
variable (h : Ready .fence f s e)
include h

theorem execFence_holds (hheld : e.held s f = true) : exec (.fence f) s = .next (s.park e.t e.g .release) :=
  h.hold rfl (if_pos hheld)

theorem execFence_orders (hheld : e.held s f = false) : Ends .fence f s e (e.order s f) .none (e.next f) :=
  h.done rfl (if_neg (Bool.eq_false_iff.1 hheld))

end

/-! R232, R233: special registers. -/

section
variable (h : Ready .csrr f s e)
include h

theorem execCsrr_each (hdu : Fields.du f = false) :
    Gives .csrr f s e (.v ((e.T f).map fun m => (m.tid, wordsN (if csr64 f.csr then 64 else 32) (e.csr s f.csr m)))) :=
  h.done rfl (if_neg (Bool.eq_false_iff.1 hdu))

theorem execCsrr_uniform {m : Member} {l : List Member} (hdu : Fields.du f = true) (hT : e.T f = m :: l) :
    Gives .csrr f s e (.w (wordsN (if csr64 f.csr then 64 else 32) (e.csr s f.csr m))) :=
  h.done rfl ((if_pos hdu).trans (by simp only [hT, List.head?_cons, Option.getD_some]))

end

section
variable (h : Ready .csrw f s e)
include h

theorem execCsrw_registers (hwindow : badWindow (e.c2 f 0) = false) (hfree : e.contributes s = false) :
    Ends .csrw f s e (s.modTeam e.t fun tm => { tm with rxwin := e.c2 f 0 &&& 0x8FFFFFFFFFFFFF00#64 }) .none (e.next f) :=
  h.done rfl (if_neg (by simp only [hwindow, hfree, Bool.or_self, Bool.false_eq_true, not_false_eq_true]))

theorem execCsrw_traps (hbad : badWindow (e.c2 f 0) = true ∨ e.contributes s = true) :
    exec (.csrw f) s = .next (s.raise e (e.onceTrap f 0x18)) :=
  h.trap rfl (if_pos (Bool.or_eq_true_iff.2 hbad))

end

/-! R111, R235: claims. -/

/-- R235: the range that a `CLAIM` names, and the page from which it goes on. -/
abbrev Env.claimStart (e : Env) (f : Fields) : Nat := (e.a2 f 0).toNat
abbrev Env.claimLen (e : Env) (f : Fields) : Nat := (e.reg2 true 0 f.sb.toNat).toNat
abbrev Env.claimStop (e : Env) (f : Fields) : Nat := e.claimStart f + e.claimLen f
abbrev Env.claimNext (e : Env) (f : Fields) : Nat := if e.fr.claim = 0 then e.claimStart f else e.fr.claim

section
variable (h : Ready .claim f s e)
include h

theorem execClaim_bad (hbad : badClaim (e.claimStart f) (e.claimLen f) = true) :
    exec (.claim f) s = .next (s.raise e (e.onceTrap f 0x19)) :=
  h.trap rfl (if_pos hbad)

variable (hgood : badClaim (e.claimStart f) (e.claimLen f) = false)
include hgood

theorem execClaim_completes (hover : e.claimStop f ≤ e.claimNext f) :
    Ends .claim f s e (s.modFrag e.t e.g fun fr => { fr with claim := 0 }) .none (e.next f) :=
  h.done rfl ((if_neg (Bool.eq_false_iff.1 hgood)).trans (if_pos hover))

variable (hmore : e.claimNext f < e.claimStop f)
include hmore

theorem execClaim_denied (hdenied : e.hdr.claim = false) :
    exec (.claim f) s = .next (s.raise e { e.onceTrap f 0x46 with addr := s.pageBase (e.who s) (e.claimStart f) }) :=
  h.trap rfl ((if_neg (Bool.eq_false_iff.1 hgood)).trans ((if_neg (Nat.not_le.2 hmore)).trans
    (if_pos (by simp only [hdenied, Bool.not_false]))))

variable (hallowed : e.hdr.claim = true)
include hallowed

theorem execClaim_refused {s₁ : State} {va : Nat} (hanswer : e.claimAnswer s = (s₁, some va)) :
    exec (.claim f) s = .next (s₁.raise e { e.onceTrap f 0x48 with addr := s₁.pageBase (e.who s₁) va }) := by
  refine h.trap rfl ((if_neg (Bool.eq_false_iff.1 hgood)).trans ((if_neg (Nat.not_le.2 hmore)).trans ?_))
  simp only [hallowed, hanswer, Bool.not_true, Bool.false_eq_true, if_false, Env.claimTrap]

variable {s₁ : State} (hanswer : e.claimAnswer s = (s₁, none))
  (hchecks : e.claimChecks s₁ (e.claimStop f) (e.claimLen f / 65536) (e.claimNext f) = .ok)
include hanswer hchecks

/-- R357: in a replay pass a claim that passes its checks moves no page. -/
theorem execClaim_passes : exec (.claim f) s = .next (e.conclude f (retOf (.claim f) f e.hdr.lanes)
    (if e.ln.replay.isSome then .done s₁ .none else .wait s₁ (.claim (e.claimNext f) (e.claimStop f)))) := by
  refine h.concludes rfl ((if_neg (Bool.eq_false_iff.1 hgood)).trans ((if_neg (Nat.not_le.2 hmore)).trans ?_))
  simp only [hallowed, hanswer, hchecks, Bool.not_true, Bool.false_eq_true, if_false]

theorem execClaim_replays (hreplay : e.ln.replay.isSome = true) : Ends .claim f s e s₁ .none (e.next f) := by
  rw [Ends, execClaim_passes h hgood hmore hallowed hanswer hchecks, if_pos hreplay, Env.conclude]

theorem execClaim_moves (hlive : e.ln.replay.isSome = false) : exec (.claim f) s =
    .next (s₁.suspend e (retOf (.claim f) f e.hdr.lanes) (.claim (e.claimNext f) (e.claimStop f))) := by
  rw [execClaim_passes h hgood hmore hallowed hanswer hchecks, if_neg (Bool.eq_false_iff.1 hlive), Env.conclude]

end
end
end Sys2Proof.Machine

namespace Sys2Proof.Proofs
open Sys2Proof.Machine Sys2Proof.Claims

/-- Settles O16: each clause is the effect of its instruction under its conditions; those of a claim follow the order of its
checks (R235). -/
theorem systemInstructions : Obligations.SystemInstructions := by
  intro f s s₁ e
  exact ⟨execTilewait_succeeds, execTilewait_ends, execTilewait_waits, execFence_holds, execFence_orders, fun h => h.done rfl rfl,
    execCsrr_each, fun _ _ h => execCsrr_uniform h, execCsrw_registers, execCsrw_traps,
    fun h hgood => h.done rfl (if_neg (Bool.eq_false_iff.1 hgood)), execClaim_bad, execClaim_denied, execClaim_completes,
    fun h hallowed hgood hmore => execClaim_replays h hgood hmore hallowed,
    fun h hallowed hgood hmore => execClaim_moves h hgood hmore hallowed,
    fun _ h hallowed hgood hmore => execClaim_refused h hgood hmore hallowed⟩

end Sys2Proof.Proofs

/-! ## Waits and queued work that end (R115, R127, R220, R229, R230, R253, R255, R289) -/

namespace Sys2Proof.Machine
open Sys2Proof.Claims

section
variable {s : State} {t g w d : Nat} {f : Fields} {fr : Frag}

theorem execTryWaitTimeout_ends {hd p : Nat} (h : Stands s t g fr (.tryWait hd p d f)) (hdue : d ≤ nowOf s t g) :
    execTryWaitTimeout t g s = .next (s.endTry t g (hScope hd) f false) := by
  obtain ⟨hactor, hst⟩ := h
  simp only [execTryWaitTimeout, hactor, hst]
  exact congrArg Host.Outcome.next (if_pos hdue)

theorem execTilewaitTimeout_ends {q : Nat} (h : Stands s t g fr (.tile q d f)) (hdue : d ≤ nowOf s t g) :
    execTilewaitTimeout t g s = .next (s.endTry t g 0 f false) := by
  obtain ⟨hactor, hst⟩ := h
  simp only [execTilewaitTimeout, hactor, hst]
  exact congrArg Host.Outcome.next (if_pos hdue)

theorem execTxAbort_aborts (hactive : (s.team t).active = true) (habort : ((s.team t).warp w).aborting = true) :
    execTxAbort t w s = .next (s.abortTx t w []) := by
  simp only [execTxAbort, hactive, habort, Bool.and_self, if_true]

theorem execMatrixOpRetire_retires {c : Nat} {op : MatrixOp} {rest : List MatrixOp} (hqueue : (s.core c).matrix = op :: rest) :
    execMatrixOpRetire c 0 s = .next (s.retireHead c) := by
  simp only [execMatrixOpRetire, hqueue, List.isEmpty_cons, Bool.false_eq_true, if_false, State.retireChecked]

end

/-! R127, R253: of the far stores that store `x` must come after, the oldest. -/

/-- The store that arrives in place of `x`, which stands behind the stores of `ys`. -/
abbrev FarStore.first (ys : List FarStore) (x : FarStore) : FarStore :=
  ys.reverse.foldl (fun (first : FarStore) y => if y.precedes first then y else first) x

theorem FarStore.first_append (ys zs : List FarStore) (x : FarStore) : first (ys ++ zs) x = first ys (first zs x) := by
  rw [first, List.reverse_append, List.foldl_append]

theorem FarStore.first_of_none_precedes {ys : List FarStore} {x : FarStore} (h : ∀ z ∈ ys, z.precedes x = false) :
    first ys x = x := by
  induction ys with
  | nil => rfl
  | cons y ys ih =>
    obtain ⟨hy, hys⟩ := List.forall_mem_cons.1 h
    have hsingle : first [y] x = x := if_neg (Bool.eq_false_iff.1 hy)
    rw [← List.singleton_append, FarStore.first_append, ih hys, hsingle]

section
variable {s : State} {i j : Nat} {x y : FarStore}

theorem execClusterStoreArrival_arrives (hx : s.far[i]? = some x) (hfirst : FarStore.first (s.far.take i) x = y) :
    execClusterStoreArrival i s = .next ({ s with far := s.far.erase y }.arriveFar y) := by
  subst hfirst
  simp only [execClusterStoreArrival, hx]

/-- The last store before `x` that precedes it is the first to arrive where none precedes that store in turn. -/
theorem FarStore.first_of_precedes (hy : s.far[j]? = some y) (hji : j < i) (hyx : y.precedes x = true)
    (hbetween : ∀ z ∈ (s.far.take i).drop (j + 1), z.precedes x = false) (hbefore : ∀ z ∈ s.far.take j, z.precedes y = false) :
    FarStore.first (s.far.take i) x = y := by
  have hy' : (s.far.take i)[j]? = some y := (List.getElem?_take_of_lt hji).trans hy
  obtain ⟨hlen, hget⟩ := List.getElem?_eq_some_iff.1 hy'
  have hsplit : s.far.take i = s.far.take j ++ ([y] ++ (s.far.take i).drop (j + 1)) := calc
    s.far.take i = (s.far.take i).take j ++ (s.far.take i).drop j := (List.take_append_drop j _).symm
    _ = _ := by rw [List.take_take, Nat.min_eq_left (Nat.le_of_lt hji), List.drop_eq_getElem_cons hlen, hget,
      List.singleton_append]
  have hsingle : FarStore.first [y] x = y := if_pos hyx
  rw [hsplit, FarStore.first_append, FarStore.first_append, FarStore.first_of_none_precedes hbetween, hsingle,
    FarStore.first_of_none_precedes hbefore]

end

theorem exec_tryWaitTimeout (t g : Nat) (s : State) : exec (.tryWaitTimeout t g) s = execTryWaitTimeout t g s := rfl

theorem exec_tilewaitTimeout (t g : Nat) (s : State) : exec (.tilewaitTimeout t g) s = execTilewaitTimeout t g s := rfl

theorem exec_txAbort (t w : Nat) (s : State) : exec (.txAbort t w) s = execTxAbort t w s := rfl

theorem exec_clusterStoreArrival (i : Nat) (s : State) : exec (.clusterStoreArrival i) s = execClusterStoreArrival i s := rfl

theorem exec_matrixOpRetire (c n : Nat) (s : State) : exec (.matrixOpRetire c n) s = execMatrixOpRetire c n s := rfl

end Sys2Proof.Machine

namespace Sys2Proof.Proofs
open Sys2Proof.Machine Sys2Proof.Claims

/-- Settles O25: each clause is what the happening comes to under its conditions; which far store arrives is `FarStore.first`. -/
theorem endingWaits : Obligations.EndingWaits := by
  intro t g w c i j hd p q d f s fr x y op rest before
  rw [exec_tryWaitTimeout, exec_tilewaitTimeout, exec_txAbort, exec_clusterStoreArrival, exec_matrixOpRetire]
  exact ⟨execTryWaitTimeout_ends, execTilewaitTimeout_ends, execTxAbort_aborts,
    fun hx hnone => execClusterStoreArrival_arrives hx (FarStore.first_of_none_precedes hnone),
    fun hx hy hji hyx hbetween hbefore =>
      execClusterStoreArrival_arrives hx (FarStore.first_of_precedes hy hji hyx hbetween hbefore),
    rfl, execMatrixOpRetire_retires⟩

end Sys2Proof.Proofs

/-! ## Privilege (R199) -/

namespace Sys2Proof.Machine

/-- R83, R84, R457: a fragment in its trap routine, which keeps the transient value of u0 that it entered with. Its warp's u0
has expired. -/
def trapRoutineEnv : Env :=
  { (default : Env) with
    tm := { (default : Team) with warps := [{ (default : Warp) with wx := [0] }] }
    fr := { (default : Frag) with mem := [default], priv := true, keptW := [{ tid := 0, reg := 0, val := 0 }] }
    ln := { (default : Launch) with hdr := { (default : Header) with vgran := 1, ugran := 1 } } }

/-- The fields of a `MOV` from u0 to v0. -/
def movFromUniform : Fields :=
  { len := .two, mark := false, trans := false, gp := 7, gneg := false, dst := 0, sa := 0, sb := 0, sc := 0, typ := 2, cls := 2
    mod := 0, imm := 0 }

theorem checks_movFromUniform_privileged : trapRoutineEnv.checks (.mov movFromUniform) movFromUniform = none := by decide

/-- R83: outside the privileged state nothing is kept, and the register is expired (cause 0x21). -/
theorem checks_movFromUniform_unprivileged :
    ({ trapRoutineEnv with fr := { trapRoutineEnv.fr with priv := false } } : Env).checks (.mov movFromUniform) movFromUniform =
      some (trapRoutineEnv.info 0x21 0 1 0) := by decide

end Sys2Proof.Machine

namespace Sys2Proof.Proofs
open Sys2Proof.Machine

/-- Refutes O45: check 6 of a `MOV` that reads u0 finds the value that a trap routine keeps of it (R84, R457) in the privileged
state alone, so that it depends on privilege. -/
theorem not_privilege : ¬ Obligations.Privilege := by
  intro h
  have hsame : ({ trapRoutineEnv with fr := { trapRoutineEnv.fr with priv := false } } : Env).checks (.mov movFromUniform)
      movFromUniform = trapRoutineEnv.checks (.mov movFromUniform) movFromUniform :=
    (h _ _ State.reset _ false).2 fun _ => ⟨nofun, nofun, nofun⟩
  rw [checks_movFromUniform_privileged, checks_movFromUniform_unprivileged] at hsame
  exact Option.some_ne_none _ hsame

end Sys2Proof.Proofs

/-! ## The frame of the register-only instructions (R238, R85, R295) -/

namespace Sys2Proof.Machine
open Sys2Proof.Claims

/-- The fields of a marked `NOP` (S = 1, R85), without a guard. -/
def markedNop : Fields :=
  { len := .two, mark := true, trans := false, gp := 7, gneg := false, dst := 0, sa := 0, sb := 0, sc := 0, typ := 0, cls := 0
    mod := 0, imm := 0 }

/-- R295, R297: a complete command that keeps its queue entry for the one result word that a fragment has popped. -/
def poppedCmd : Cmd := { (default : Cmd) with st := .complete, results := [0x77], taken := 1 }

/-- A team of one fragment whose pop of `poppedCmd`'s word has returned and is released by the next marked instruction. -/
def poppedTeam : Team :=
  { (default : Team) with
    warps := [{ (default : Warp) with mode := .normal }]
    frags := [{ (default : Frag) with
      mem := [default]
      out := [{ cls := .vector, reg := 8, nreg := 1, returned := true, op := none, after := false, pop := some 0 }] }]
    cmds := [poppedCmd] }

/-- The state in which the fragment of `poppedTeam` issues. -/
def poppedState : State := { State.reset with teams := [poppedTeam], launches := [default] }

def poppedEnv : Env :=
  { tm := poppedTeam, fr := poppedTeam.frag 0, ln := default, pc := poppedState.cur.pc, words := poppedState.cur.words
    free := poppedState.free, pace := poppedState.cur.pace }

theorem poppedState_env : poppedState.env? = some poppedEnv := rfl

/-- The marked `NOP` passes its checks, is guarded by p7, and acts in the normal state. -/
theorem ready_markedNop : Ready .nop markedNop poppedState poppedEnv where
  env := poppedState_env
  pass := by decide
  acts := by decide
  go := rfl

theorem exec_markedNop : Gives .nop markedNop poppedState poppedEnv .none := ready_markedNop.done rfl rfl

/-- R297: the completion releases the popped word, and with it the command's last: the queue entry is freed. -/
theorem poppedState_retire_cmds :
    ((poppedState.retire poppedEnv (retOf (.nop markedNop) markedNop poppedEnv.hdr.lanes) .none
      (poppedEnv.next markedNop)).team poppedEnv.t).cmds = [] := by decide

end Sys2Proof.Machine

namespace Sys2Proof.Claims
open Sys2Proof.Machine

theorem Framed.cmds {c : Fields → Instr} {f : Fields} {s s' : State} {e : Env} (h : Framed c f s e s') :
    (s'.team e.t).cmds = e.tm.cmds := by rw [h.team]

end Sys2Proof.Claims

namespace Sys2Proof.Proofs
open Sys2Proof.Machine Sys2Proof.Claims

/-- Refutes O46: a marked `NOP` releases a popped word that has returned (R85), so that the word leaves its queue and the team's
command goes (R295, R297); `Framed.team` keeps the commands. -/
theorem not_registerFrame : ¬ Obligations.RegisterFrame := by
  intro h
  obtain ⟨s', hexec, hframed⟩ := h .nop (List.mem_cons_self ..) markedNop poppedState poppedEnv ready_markedNop
  obtain rfl := Host.Outcome.next.inj (exec_markedNop.symm.trans hexec)
  have hkept : [] = [poppedCmd] := poppedState_retire_cmds.symm.trans hframed.cmds
  exact List.cons_ne_nil _ _ hkept.symm

end Sys2Proof.Proofs

/-! ## Integer, logic, move, predicate and cross-lane results (R240 to R248, R264 to R268) -/

namespace Sys2Proof.Machine
open Sys2Proof.Claims

section
variable {i : Instr} {f : Fields} {s : State} {e : Env}

/-! ### The operations -/

theorem ite_le_eq_min : (fun (a b _ : Int) => if a ≤ b then a else b) = fun a b _ => min a b := by
  funext a b _
  exact (min_def a b).symm

theorem ite_le_eq_max : (fun (a b _ : Int) => if b ≤ a then a else b) = fun a b _ => max a b := by
  funext a b _
  rw [max_comm, max_def]

/-- R240: the products of the four bytes, each written out. -/
theorem dot4_eq (sg : Bool) (a b : Nat) : dot4 sg a b =
    intVal 8 sg (a / 2 ^ (8 * 0)) * intVal 8 sg (b / 2 ^ (8 * 0)) + intVal 8 sg (a / 2 ^ (8 * 1)) * intVal 8 sg (b / 2 ^ (8 * 1))
      + intVal 8 sg (a / 2 ^ (8 * 2)) * intVal 8 sg (b / 2 ^ (8 * 2)) + intVal 8 sg (a / 2 ^ (8 * 3)) * intVal 8 sg (b / 2 ^ (8 * 3)) := by
  simp only [dot4, List.range, List.range.loop, List.map, List.sum_cons, List.sum_nil]
  ring

/-- R244: a control's bits, cut to the width once. -/
theorem ctlMask_mod (n k : Nat) : ctlMask n k % 2 ^ n = (2 ^ ctlLen k - 1) * 2 ^ ctlPos k % 2 ^ n := Nat.mod_mod _ _

theorem not_du (h : !Fields.du f) : ¬ Fields.du f = true := by simpa using h

/-! ### The carry (R241) -/

theorem Env.bit_psrc (t : Nat) (sc : BitVec 8) : bit (e.psrc t sc) = if e.p t (sc.toNat % 8) = sc.getLsbD 7 then 0 else 1 := by
  unfold Env.psrc
  cases e.p t (sc.toNat % 8) <;> cases sc.getLsbD 7 <;> rfl

/-- R241: the exact sum of one thread's sources and carry in. -/
def Env.carrySum (e : Env) (f : Fields) (t : Nat) : Nat :=
  (e.a f t).toNat + (e.b f t).toNat + if e.p t (f.sc.toNat % 8) = f.sc.getLsbD 7 then 0 else 1

theorem Env.addc_eq (t : Nat) : e.addc f t = (BitVec.ofNat 32 (e.carrySum f t), decide (2 ^ 32 ≤ e.carrySum f t)) := by
  rw [Env.addc, addCarry, Env.bit_psrc, Env.carrySum]

/-- R241: the thread that an `IADDC` adds for in the name of thread `t`. -/
def Env.adder (e : Env) (f : Fields) (t : Nat) : Nat := if Fields.du f then e.elected f else t

theorem Env.results_eq (op : Nat → List Word) : e.results f op =
    if Fields.du f then .w (op (e.adder f 0)) else .v ((e.T f).map fun m => (m.tid, op m.tid)) := by
  unfold Env.results Env.adder
  split_ifs <;> rfl

theorem execIaddc_ends (h : Ready .iaddc f s e) :
    Ends .iaddc f s e
      (s.putBeside e (f.sc.toNat % 8) ((e.T f).map fun m => (m.tid, decide (2 ^ 32 ≤ e.carrySum f (e.adder f m.tid)))))
      (if Fields.du f then .w [BitVec.ofNat 32 (e.carrySum f (e.adder f 0))]
        else .v ((e.T f).map fun m => (m.tid, [BitVec.ofNat 32 (e.carrySum f m.tid)]))) (e.next f) :=
  h.done rfl (by simp only [Env.addc_eq, Env.results_eq]; rfl)

end
end Sys2Proof.Machine

namespace Sys2Proof.Proofs
open Sys2Proof.Machine Sys2Proof.Claims

/-- Settles O1: every integer instruction completes with its exact result narrowed; the model's forms of the absolute value,
the minimum, the maximum and the byte products are those of R240. -/
theorem integerResults : Obligations.IntegerResults := fun f s e =>
  ⟨fun h => h.done rfl rfl, fun h => h.done rfl rfl, fun h => h.done rfl rfl,
    fun h => h.done rfl (by simp only [Int.natCast_natAbs, abs_eq_max_neg]; rfl), fun h => h.done rfl rfl, fun h => h.done rfl rfl,
    fun h => h.done rfl rfl, fun h => h.done rfl (by rw [ite_le_eq_min]; rfl), fun h => h.done rfl (by rw [ite_le_eq_max]; rfl),
    fun h => h.done rfl rfl, fun h => h.done rfl (by simp only [dot4_eq])⟩

/-- Settles O2: the carry in is 0 where the predicate has the value of its negation bit. -/
theorem carryAdd : Obligations.CarryAdd :=
  ⟨fun _ _ _ => execIaddc_ends, fun e t tm b => ⟨e.p_seven t, tm.putP_seven false t b⟩⟩

/-- Settles O3: each instruction completes with the bits of its operation; that of a `BMSK` is cut to the width twice. -/
theorem logicResults : Obligations.LogicResults := fun f s e =>
  ⟨fun h => h.done rfl rfl, fun h => h.done rfl rfl, fun h => h.done rfl rfl, fun h => h.done rfl rfl, fun h => h.done rfl rfl,
    fun h => h.done rfl rfl, fun h => h.done rfl rfl, fun h => h.done rfl rfl, fun h => h.done rfl rfl, fun h => h.done rfl rfl,
    fun h => h.done rfl rfl, fun h => h.done rfl rfl, fun h => h.done rfl rfl,
    fun h => h.done rfl (by simp only [ctlMask_mod]; rfl),
    fun h => h.done rfl rfl, fun h => h.done rfl rfl, fun h => h.done rfl rfl, fun h => h.done rfl rfl, fun h => h.done rfl rfl⟩

/-- Settles O4: each instruction completes with the result of its operation. -/
theorem moveResults : Obligations.MoveResults := fun _ _ _ =>
  ⟨fun h => h.done rfl rfl, fun h => h.done rfl rfl, fun h => h.done rfl rfl, fun h => h.done rfl rfl, fun h => h.done rfl rfl,
    fun h => h.done rfl rfl, fun h => h.done rfl rfl, fun h => h.done rfl rfl, fun h => h.done rfl rfl, fun h => h.done rfl rfl⟩

/-- Settles O5: each instruction completes with its result; that of an `EQSET` stands in one uniform register or in each
thread's, as its destination says. -/
theorem crossLaneResults : Obligations.CrossLaneResults := fun _ _ _ =>
  ⟨fun h => h.done rfl rfl, fun h => h.done rfl rfl, fun h => h.done rfl rfl, fun h => h.done rfl rfl, fun h => h.done rfl rfl,
    fun h => h.done rfl rfl, fun h => h.done rfl rfl, fun h => h.done rfl rfl, fun h => h.done rfl rfl,
    fun h hdu => h.done rfl (congrArg _ (if_neg (not_du hdu))), fun h hdu => h.done rfl (congrArg _ (if_pos hdu)),
    fun h => h.done rfl rfl, fun h => h.done rfl rfl, fun h => h.done rfl rfl, fun h => h.done rfl rfl, fun h => h.done rfl rfl,
    fun h => h.done rfl rfl, fun h => h.done rfl rfl⟩

end Sys2Proof.Proofs

/-! ## Loads, stores, prefetches, atomics and exact reductions (R251 to R260) -/

namespace Sys2Proof.Machine
open Sys2Proof.Claims

section
variable {c : Fields → Instr} {f : Fields} {s s₁ s₂ s₃ : State} {e : Env} {xs : List (Member × Spot)}

/-! ### Accesses whose checks all pass -/

/-- R251: where every check passes, the accesses follow. -/
theorem Env.checked_reaches {n : Need} {space : Nat} {ms : List Member} {store : Bool}
    {k : State → List (Member × Spot) → Effect} (h : Reaches e f s n space ms s₁ xs) :
    e.checked ms (e.locateAll s n space (e.baseOf f) (offsetOf f) ms) store k = k s₁ xs := by
  obtain ⟨hne, hloc⟩ := h
  simp only [hloc, Env.checked, List.isEmpty_eq_false_iff.2 hne, Bool.false_eq_true, if_false]

/-- R105: an instruction that no read-modify-write holds goes on. -/
theorem Env.onRelease_of_not_held {k : Effect} (h : e.held s f = false) : e.onRelease s f k = k := by
  simp only [Env.onRelease, h, Bool.false_eq_true, if_false]

/-! ### Loads (R252, R256) -/

theorem Env.doLoad_loads {ro : Bool} {k : State → List (Nat × List Word) → Effect} {vs : List (Nat × List Byte)}
    (hreach : Reaches e f s (need false true true false (accessSize f.typ.toNat)) f.space (e.actors f) s₁ xs)
    (hreads : Reads e s₁ xs)
    (hload : e.loadAll (readyToLoad e f s₁ xs) (accessSize f.typ.toNat) ro xs = .ok (s₂, vs)) :
    e.doLoad s f ro k = k s₂ (loaded f vs) := by
  obtain ⟨hopen, hroom⟩ := hreads
  unfold Env.doLoad
  refine (Env.checked_reaches hreach).trans ?_
  refine (hopen _).trans ?_
  simp only [requests] at hroom
  simp only [readyToLoad, requests] at hload
  simp only [hroom, hload, Bool.not_true, Bool.false_eq_true, if_false, loaded]

theorem Env.regroups_eq_false (h : e.region = false ∨ e.fr.ent ≠ none) : e.regroups = false := by
  unfold Env.regroups
  rcases h with h | h
  · rw [h, Bool.false_and]
  · rw [Option.isNone_eq_false_iff.2 (Option.isSome_iff_ne_none.2 h), Bool.and_false]

theorem Env.regroups_eq_true (h : ¬ (e.region = false ∨ e.fr.ent ≠ none)) : e.regroups = true := by
  obtain ⟨hregion, hent⟩ := not_or.1 h
  rw [Env.regroups, Bool.eq_true_of_not_eq_false hregion, not_not.1 hent]
  rfl

theorem loaded_tids (vs : List (Nat × List Byte)) : (loaded f vs).map (·.1) = vs.map (·.1) := by
  simp only [loaded, List.map_map, Function.comp_def]

/-! ### Stores (R252, R253) -/

/-- R105, R127: the order that the annotation gives, and the fragment's own far stores, but before far stores alone. -/
def Env.readyToStore (e : Env) (s : State) (f : Fields) (xs : List (Member × Spot)) : State :=
  if xs.all fun x => match x.2 with
    | .far _ _ => true
    | _ => false
  then e.order s f else e.ownFar (e.order s f)

theorem execSt_stores (h : Ready .st f s e)
    (hreach : Reaches e f s (need true false true false (accessSize f.typ.toNat)) f.space (e.T f) s₁ xs)
    (hopen : Open_ e s₁ true false xs) (hheld : e.held s₁ f = false) :
    Ends .st f s e (e.storeAll (e.readyToStore s₁ f xs)
      (xs.map fun x => (x.1, x.2, leBytes (accessSize f.typ.toNat) (e.dataB f x.1.tid)))) .none (e.next f) :=
  h.done rfl ((Env.checked_reaches hreach).trans ((hopen _).trans (Env.onRelease_of_not_held hheld)))

/-! ### Prefetches (R260) -/

/-- Memory stands, and of each team its number, threads and fragments. -/
def KeepsThreads (s s' : State) : Prop :=
  s'.mem = s.mem ∧ s'.teams.map (fun tm => (tm.id, tm.threads, tm.frags)) = s.teams.map fun tm => (tm.id, tm.threads, tm.frags)

theorem KeepsThreads.refl (s : State) : KeepsThreads s s := ⟨rfl, rfl⟩

theorem KeepsThreads.trans (h : KeepsThreads s s₁) (h' : KeepsThreads s₁ s₂) : KeepsThreads s s₂ :=
  ⟨h'.1.trans h.1, h'.2.trans h.2⟩

theorem modCore_keepsThreads (core : Nat) (g : Core → Core) : KeepsThreads s (s.modCore core g) := ⟨rfl, rfl⟩

theorem untag_keepsThreads (core : Nat) (p : Nat → Bool) : KeepsThreads s (s.untag core p) := by
  refine ⟨rfl, ?_⟩
  simp only [State.untag, List.map_map]
  refine List.map_congr_left fun tm _ => ?_
  simp only [Function.comp]
  split_ifs <;> rfl

theorem l1Fill_keepsThreads (core place : Nat) : KeepsThreads s (s.l1Fill core place) := by
  refine .trans ?_ (modCore_keepsThreads ..)
  unfold State.l1Room
  dsimp only
  split_ifs
  · exact .refl s
  · exact (modCore_keepsThreads ..).trans (untag_keepsThreads ..)

theorem Env.prefetch_keepsThreads (place : Nat) : KeepsThreads s (e.prefetch s place) :=
  List.foldlRecOn _ _ (.refl s) fun s' h i _ => by
    dsimp only
    split_ifs
    · exact h
    · exact h.trans (l1Fill_keepsThreads ..)

/-- R260: what the addresses of `PREFL` bring into the L1. -/
def Env.prefetchAll (e : Env) (s : State) (f : Fields) : State :=
  (e.T f).foldl (fun s m => match formAddress 0 (e.baseOf f m) (offsetOf f) with
    | .ok (.va va) => match e.prefetchSpot s va with
      | some p => e.prefetch s p
      | none => s
    | _ => s) s

theorem Env.prefetchAll_keepsThreads : KeepsThreads s (e.prefetchAll s f) :=
  List.foldlRecOn _ _ (.refl s) fun s' h m _ => by
    split
    · split
      · exact h.trans (Env.prefetch_keepsThreads _)
      · exact h
    · exact h

/-! ### Atomics and reductions (R253, R257) -/

section
variable {op : AtomOp} {ret : Bool} {host : Fields → Bool} {new : Fields → Nat → Nat → Nat → Nat}

/-- R253: what an `ATOM` or `RED` whose checks pass comes to: it ends, or waits with read-modify-writes to come. -/
theorem execAtomic_effect {vs : List (Nat × Nat)} (h : Ready c f s e) (hexec : exec (c f) s = execAtomic (c f) f s op ret)
    (hreach : Reaches e f s (need true true (hostAtomic op f.typ.toNat ret) false (accessSize f.typ.toNat)) f.space (e.actors f) s₁ xs)
    (hopen : Open_ e s₁ true true xs) (hheld : e.held s₁ f = false)
    (hrmw : e.rmwAll (e.countAtomics (e.order (e.ownFar s₁) f) xs) (accessSize f.typ.toNat) (e.atomicNew f op)
      (xs.take (e.pacing (e.countAtomics (e.order (e.ownFar s₁) f) xs) xs)) = .ok (s₂, vs)) :
    exec (c f) s = .next (e.conclude f (retOf (c f) f e.hdr.lanes)
      (if e.pacing (e.countAtomics (e.order (e.ownFar s₁) f) xs) xs < xs.length
        then .wait s₂ (.rmws (c f) (xs.drop (e.pacing (e.countAtomics (e.order (e.ownFar s₁) f) xs) xs)) vs)
        else e.atomicEnd s₂ f ret vs)) := by
  refine h.concludes hexec ((Env.checked_reaches hreach).trans ((hopen _).trans ((Env.onRelease_of_not_held hheld).trans ?_)))
  simp only [hrmw]

/-- R253: the turn of a fragment with read-modify-writes to come, whose launch goes on. -/
theorem rmwTurn_next {t g : Nat} {i : Instr} {x : Member × Spot} {left : List (Member × Spot)} {vs : List (Nat × Nat)}
    (hst : ((s.team t).frag g).st = .waiting (.rmws i (x :: left) vs)) (hlaunch : (s.launch? (s.team t).launch).isSome = true)
    (hover : s.overflowed (s.team t).launch = false) : s.rmwTurn t g = (s.envAt t g).rmwNext s i x left vs := by
  simp only [State.rmwTurn, Option.isNone_eq_false_iff.2 hlaunch, hover, hst, Bool.or_self, Bool.false_eq_true, if_false]

theorem step_rmw {t g : Nat} {rest : List Turn} (h : s.agenda = .rmw t g :: rest) :
    step s = .next ({ s with agenda := rest }.rmwTurn t g) := by
  simp only [step, State.nextTurn_of_agenda h, State.pass]

/-- R253: the next read-modify-write, of a team that is not being saved. -/
theorem Env.rmwNext_ok {i : Instr} {x : Member × Spot} {left : List (Member × Spot)} {vs : List (Nat × Nat)} {old : Nat}
    (hof : atomicOf i = some (f, op, ret)) (hst : e.tm.st ≠ .saving)
    (hrmw : e.rmw1 s x.1 x.2 (accessSize f.typ.toNat) (e.atomicNew f op x.1) = .ok (s₂, old)) :
    e.rmwNext s i x left vs =
      if left = [] then (e.conclude f (retOf i f e.hdr.lanes)
        (e.atomicEnd (e.acquireLast s₂ f) f ret (vs ++ [(x.1.tid, old)]))).modTeam e.t Team.wakeQueue
      else s₂.modFrag e.t e.g fun fr => { fr with st := .waiting (.rmws i left (vs ++ [(x.1.tid, old)])) } := by
  simp only [Env.rmwNext, hof, hrmw, beq_eq_false_iff_ne.2 hst, Bool.false_eq_true, if_false, List.isEmpty_iff]

/-- R257: an instruction that executes as `execAtomic` does is an atomic with the operation's new values and host pages. -/
theorem atomic_of_execAtomic (hexec : ∀ f s, exec (c f) s = execAtomic (c f) f s op ret)
    (hof : ∀ f, atomicOf (c f) = some (f, op, ret)) (hhost : ∀ f, hostAtomic op f.typ.toNat ret = host f)
    (hnew : ∀ f, op.apply f.typ.toNat = new f) : Atomic c ret host new := by
  intro f s s₁ s₂ e xs vs
  simp only [← hnew, ← hhost]
  refine ⟨fun h hreach hopen hheld hrmw => ?_, fun t g old x left rest hagenda hst hlaunch hover hsaving hrmw => ?_⟩
  · have heffect := execAtomic_effect h (hexec f s) hreach hopen hheld hrmw
    by_cases hk : e.pacing (e.countAtomics (e.order (e.ownFar s₁) f) xs) xs < xs.length
    · rw [if_pos hk] at heffect ⊢
      exact heffect
    · rw [if_neg hk] at heffect ⊢
      cases ret
      · exact heffect
      · exact heffect
  · refine (step_rmw hagenda).trans (congrArg _ ?_)
    exact (rmwTurn_next (s := { s with agenda := rest }) hst hlaunch hover).trans (Env.rmwNext_ok (hof f) hsaving hrmw)

end

theorem typ_eq_f32 : f.typ.toNat = 0x0E ↔ f.typ = 0x0E := by
  rw [← BitVec.toNat_inj]
  rfl

theorem apply_add : AtomOp.add.apply f.typ.toNat = addOf f := by
  funext old b new
  simp only [AtomOp.apply, addOf, typ_eq_f32]

theorem hostAtomic_add : hostAtomic .add f.typ.toNat true = (f.typ != 0x0E) := by
  simp only [hostAtomic, Bool.true_and, bne, beq_eq_decide, typ_eq_f32]

/-! ### Exact reductions (R258, R259) -/

theorem Env.withExacts_ok {places : List Nat} {k : State → Effect} (h : s.exactRoom e.pf (e.ctx s) places = .ok s₂) :
    e.withExacts s places k = k s₂ := by
  simp only [Env.withExacts, h]

theorem execRedx_adds (h : Ready .redx f s e) (hreach : Reaches e f s (need true false false true 4) 0 (e.T f) s₁ xs)
    (hheld : e.held s₁ f = false) (hroom : s₁.exactRoom e.pf (e.ctx s₁) (xs.map fun x => x.2.place) = .ok s₂) :
    Ends .redx f s e (xs.foldl (fun s x => s.exactAdd e.pf (e.ctx s) e.t x.2.place (e.dataB f x.1.tid))
      ((e.order (e.ownFar s₂) f).count e.ln.id e.core 0x0A xs.length)) .none (e.next f) :=
  h.done rfl ((Env.checked_reaches hreach).trans ((Env.onRelease_of_not_held hheld).trans (Env.withExacts_ok hroom)))

theorem execRedxf_totals {vs : List (Nat × Nat)} (h : Ready .redxf f s e)
    (hreach : Reaches e f s (need true true false true 4) 0 (e.actors f) s₁ xs) (hheld : e.held s₁ f = false)
    (hroom : s₁.exactRoom e.pf (e.ctx s₁)
      ((xs.map fun x => x.2.place).filter fun p => (s₁.exact? e.pf (e.ctx s₁) p).isSome) = .ok s₂)
    (hfinish : e.finishAll (e.order (e.ownFar s₂) f) (f.sb.toNat % 8) xs = .ok (s₃, vs)) :
    Ends .redxf f s e
      (s₃.pathTerms e.t (if Fields.du f then (e.T f).map fun m => (m.tid, (vs.map (·.2)).headD 0) else vs))
      (resOf f (vs.map fun v => (v.1, [BitVec.ofNat 32 v.2]))) (e.next f) :=
  h.done rfl ((Env.checked_reaches hreach).trans ((Env.onRelease_of_not_held hheld).trans ((Env.withExacts_ok hroom).trans (by
    simp only [hfinish]
    rfl))))

end
end Sys2Proof.Machine

namespace Sys2Proof.Proofs
open Sys2Proof.Machine Sys2Proof.Claims

/-- Settles O17: where every check passes, the accesses are all that the effect has left; `PREFL` fills the L1, which unmarks
speculators at most. -/
theorem loadsAndStores : Obligations.LoadsAndStores := fun f s s₁ s₂ e xs vs =>
  ⟨fun h hreach hreads hload => h.done rfl (Env.doLoad_loads hreach hreads hload),
    fun h hreach hreads hload => h.done rfl (Env.doLoad_loads hreach hreads hload),
    fun h hplain hreach hreads hload => h.done rfl (by
      rw [Env.regroups_eq_false hplain, if_neg Bool.false_ne_true]
      exact Env.doLoad_loads hreach hreads hload),
    fun h hplain hquiet hreach hreads hload => h.wait rfl (by
      rw [Env.regroups_eq_true hplain, if_pos rfl, settled_of_quiet hquiet, ← loaded_tids]
      exact Env.doLoad_loads hreach hreads hload),
    fun h hreach hopen hheld => by
      rw [List.all_map]
      exact execSt_stores h hreach hopen hheld,
    fun h => ⟨e.prefetchAll s f, h.done rfl rfl, Env.prefetchAll_keepsThreads⟩⟩

/-- Settles O18: each row executes as `execAtomic` does, at issue and at each later turn. -/
theorem atomicResults : Obligations.AtomicResults := by
  and_intros
  · exact atomic_of_execAtomic (fun _ _ => rfl) (fun _ => rfl) (fun _ => hostAtomic_add) fun _ => apply_add
  · exact atomic_of_execAtomic (fun _ _ => rfl) (fun _ => rfl) (fun _ => rfl) fun _ => apply_add
  all_goals exact atomic_of_execAtomic (fun _ _ => rfl) (fun _ => rfl) (fun _ => rfl) fun _ => rfl

/-- Settles O19: with the accumulators at hand, the additions or the totals are all that the effect has left. -/
theorem exactInstructions : Obligations.ExactInstructions := fun _ _ _ _ _ _ _ _ =>
  ⟨execRedx_adds, execRedxf_totals⟩

end Sys2Proof.Proofs

/-! ## Failed checks (R251, R453, R500) -/

namespace Sys2Proof.Claims
open Sys2Proof.Machine

/-! ### What walks leave

A walk of an address space changes what `WalksOnly` names for a space below 2; the lemmas of the walk's parts are about space 0. -/

theorem WalksOnly.refl (s : State) (space : Nat) : WalksOnly s s space := ⟨rfl, fun _ => rfl, rfl, fun _ => rfl⟩

section
variable {s s₁ s₂ : State} {space : Nat}

theorem WalksOnly.trans (h : WalksOnly s s₁ space) (h' : WalksOnly s₁ s₂ space) : WalksOnly s s₂ space where
  package := by rw [h'.package, h.package]
  caches k := by rw [h'.caches k, h.caches k]
  teams := h'.teams.trans h.teams
  chip hspace := (h'.chip hspace).trans (h.chip hspace)

/-- A walk is one of an address space (R92). -/
theorem WalksOnly.of_space_lt (h : WalksOnly s s₁ 0) (hspace : space < 2) : WalksOnly s s₁ space :=
  ⟨h.package, h.caches, h.teams, fun hchip => absurd hchip (Nat.not_le.2 hspace)⟩

theorem WalksOnly.ite {p : Prop} [Decidable p] (h₁ : WalksOnly s s₁ space) (h₂ : WalksOnly s s₂ space) :
    WalksOnly s (if p then s₁ else s₂) space := by
  split_ifs
  · exact h₁
  · exact h₂

/-- A change of neither cores nor teams, within what walks may change of the package. -/
theorem WalksOnly.of_package (h : s₁ = { s with
    mem := s₁.mem, dies := s₁.dies, contexts := s₁.contexts, launches := s₁.launches, bad := s₁.bad, free := s₁.free }) :
    WalksOnly s s₁ 0 := by
  rw [h]
  exact ⟨rfl, fun _ => rfl, rfl, nofun⟩

end
end Sys2Proof.Claims

namespace Sys2Proof.Machine
open Sys2Proof.Claims

section
variable {s s₁ s₂ : State} {space : Nat}

theorem modDie_walksOnly (d : Nat) (f : Die → Die) : WalksOnly s (s.modDie d f) 0 := .of_package rfl

theorem modCtx_walksOnly (pf num : Nat) (f : Context → Context) : WalksOnly s (s.modCtx pf num f) 0 := .of_package rfl

theorem noteBound_walksOnly (w : Who) (lvl fr : Nat) : WalksOnly s (s.noteBound w lvl fr) 0 := .of_package rfl

theorem touch_walksOnly (place n : Nat) : WalksOnly s (s.touch place n) 0 := by
  unfold State.touch
  dsimp only
  split_ifs <;> exact .of_package rfl

theorem poke_walksOnly (place : Nat) (bs : List Byte) : WalksOnly s (s.poke place bs) 0 :=
  .trans (.of_package rfl) (touch_walksOnly ..)

theorem capturePage_walksOnly (l : Launch) (r : Replay) (pa size place n : Nat) :
    WalksOnly s (s.capturePage l r pa size place n).1 0 := by
  unfold State.capturePage
  dsimp only
  split_ifs <;> exact .of_package rfl

theorem capture_walksOnly (pf ctx pa size place n : Nat) : WalksOnly s (s.capture pf ctx pa size place n).1 0 := by
  unfold State.capture
  refine List.foldlRecOn (motive := fun x : State × Bool => WalksOnly s x.1 0) _ _ (.refl ..) fun x h l _ => ?_
  dsimp only
  split
  · split
    · exact h.trans (capturePage_walksOnly ..)
    · exact h
  · exact h

/-- A signalled abort is one that `unsignalled` leaves out. -/
theorem unsignalled_signal (wp : Warp) (code : Nat) : unsignalled (wp.signal code) = unsignalled wp := by
  cases hmode : wp.mode with
  | transactional x => simp only [Warp.signal, hmode, unsignalled]
  | normal => simp only [Warp.signal, hmode]
  | speculative x => simp only [Warp.signal, hmode]

theorem conflictRange_walksOnly (place n : Nat) (write : Bool) : WalksOnly s (s.conflictRange place n write) 0 := by
  refine ⟨rfl, fun _ => rfl, ?_, nofun⟩
  simp only [State.conflictRange, List.map_map]
  refine List.map_congr_left fun tm _ => ?_
  simp only [Function.comp, withWarps, List.map_map]
  congr 1
  refine List.map_congr_left fun wp _ => ?_
  simp only [Function.comp]
  split
  · split_ifs
    · exact unsignalled_signal ..
    · rfl
  · rfl

theorem pokeOver_walksOnly (place : Nat) (bs : List Byte) : WalksOnly s (s.pokeOver place bs) 0 := by
  unfold State.pokeOver
  exact .trans (.ite (conflictRange_walksOnly ..) (.refl ..)) (poke_walksOnly ..)

theorem pokeEntry_walksOnly (w : Who) (pa : Nat) (x : DWord) : WalksOnly s (s.pokeEntry w pa x) 0 := by
  have hcapture : WalksOnly s (s.captureEntry w pa).1 0 := capture_walksOnly ..
  exact .ite (hcapture.trans (pokeOver_walksOnly ..)) hcapture

theorem core_dropLines (base size k : Nat) : (s.dropLines base size).core k =
    { s.core k with l1 := (s.core k).l1.filter fun x => 32 * x.1 + 32 ≤ base || base + size ≤ 32 * x.1 } := by
  simp only [State.core, State.dropLines, List.find?_map, Function.comp_def, Option.map_map]
  cases s.cores.find? fun x => x.1 == k <;> rfl

theorem dropLines_walksOnly (base size : Nat) : WalksOnly s (s.dropLines base size) 0 :=
  ⟨rfl, fun k => by rw [core_dropLines], rfl, nofun⟩

theorem takeFrame_walksOnly {die lvl fr : Nat} (h : s.takeFrame die lvl = some (s₁, fr)) : WalksOnly s s₁ 0 := by
  unfold State.takeFrame at h
  dsimp only at h
  split at h
  · exact absurd h nofun
  · obtain ⟨rfl, rfl⟩ := Prod.mk.inj (Option.some.inj h)
    exact .trans (.of_package rfl) (dropLines_walksOnly ..)

theorem modCore_tlb_walksOnly (c : Nat) (f : List Translation → List Translation) :
    WalksOnly s (s.modCore c fun k => { k with tlb := f k.tlb }) 0 := by
  refine ⟨rfl, fun k => ?_, rfl, nofun⟩
  by_cases hk : k = c
  · rw [hk, State.core_modCore]
  · rw [State.core_modCore_other _ _ hk]

theorem tlbFill_walksOnly (w : Who) (va at_ : Nat) (x : DWord) (lvl : Nat) : WalksOnly s (s.tlbFill w va at_ x lvl) 0 := by
  unfold State.tlbFill
  dsimp only
  split
  · exact (modDie_walksOnly ..).trans (modCore_tlb_walksOnly ..)
  · exact modDie_walksOnly ..

/-! ### What a translation that does not wait leaves -/

/-- The state that a translation leaves, where it ends without a wait. -/
def Xlate.leaves : Xlate → Option State
  | .ok s _ _ _ _ => some s
  | .fault s _ => some s
  | _ => none

/-- A translation from `s` that ends without a wait has walked only. -/
structure Xlate.Walked (s : State) (x : Xlate) : Prop where
  walks : ∀ s₁, x.leaves = some s₁ → WalksOnly s s₁ 0

theorem Xlate.Walked.fault {cause : Nat} (h : WalksOnly s s₁ 0) : (Xlate.fault s₁ cause).Walked s :=
  ⟨fun _ h' => Option.some.inj h' ▸ h⟩

theorem Xlate.Walked.ok {place ord base size : Nat} (h : WalksOnly s s₁ 0) : (Xlate.ok s₁ place ord base size).Walked s :=
  ⟨fun _ h' => Option.some.inj h' ▸ h⟩

theorem Xlate.Walked.waits {x : Xlate} (h : x.leaves = none) : x.Walked s :=
  ⟨fun _ h' => absurd (h.symm.trans h') nofun⟩

theorem Xlate.Walked.ite {p : Prop} [Decidable p] {x y : Xlate} (hx : x.Walked s) (hy : y.Walked s) :
    (if p then x else y).Walked s := by
  split_ifs
  · exact hx
  · exact hy

theorem Xlate.Walked.after {x : Xlate} (h' : x.Walked s₁) (h : WalksOnly s s₁ 0) : x.Walked s :=
  ⟨fun _ hx => h.trans (h'.walks _ hx)⟩

theorem useLeaf_walked (w : Who) (va : Nat) (k : Access) (at_ : Nat) (x : DWord) (lvl : Nat) :
    (s.useLeaf w va k at_ x lvl).Walked s := by
  unfold State.useLeaf
  refine .ite (.fault (.refl ..)) ?_
  dsimp only
  split
  · exact .fault (.refl ..)
  · split
    · exact .fault (.refl ..)
    · exact .ite (.waits rfl) (.ok (.trans (.ite (.refl ..) (pokeEntry_walksOnly ..)) (tlbFill_walksOnly ..)))

theorem askHost_walked (w : Who) (va at_ : Nat) (send : State → Nat → State) : (s.askHost w va at_ send).Walked s := by
  unfold State.askHost
  dsimp only
  split
  · split
    · exact .waits rfl
    · exact .fault (modCtx_walksOnly ..)
  · split <;> exact .waits rfl

/-- R108: a frame that is bound, and its entry. -/
theorem bind_walked {die lvl fr : Nat} (h : s.takeFrame die lvl = some (s₁, fr)) (w : Who) (va : Nat) (k : Access) (at_ : Nat)
    (x : DWord) : (((s₁.noteBound w lvl fr).pokeEntry w at_ x).useLeaf w va k at_ x lvl).Walked s :=
  (useLeaf_walked ..).after (((takeFrame_walksOnly h).trans (noteBound_walksOnly ..)).trans (pokeEntry_walksOnly ..))

theorem walkFor_walked (w : Who) (va : Nat) (k : Access) (send : State → Nat → State) : (s.walkFor w va k send).Walked s := by
  unfold State.walkFor
  dsimp only
  generalize (s.ctx w.pf w.ctx).requests.find? _ = answered
  have hdrop : WalksOnly s (match answered with
      | some r => s.modCtx w.pf w.ctx fun c => { c with requests := c.requests.filter fun x => x != r }
      | none => s) 0 := by
    cases answered with
    | none => exact .refl ..
    | some r => exact modCtx_walksOnly ..
  split
  · exact .fault hdrop
  · split
    · split_ifs <;> exact .fault hdrop
    · exact .waits rfl
    · exact .waits rfl
    · split_ifs
      · exact .waits rfl
      · exact .fault hdrop
      · exact askHost_walked ..
      · split
        · exact .waits rfl
        · exact bind_walked ‹_› ..
      · exact (useLeaf_walked ..).after hdrop

theorem translate_walked (w : Who) (va : Nat) (k : Access) (send : State → Nat → State) : (s.translate w va k send).Walked s := by
  unfold State.translate
  split
  · split_ifs
    · exact walkFor_walked ..
    · exact useLeaf_walked ..
  · split_ifs
    · exact walkFor_walked ..
    · exact .waits rfl

theorem Env.translate_walked (e : Env) (va : Nat) (k : Access) : (e.translate s va k).Walked s := by
  unfold Env.translate
  split
  · exact .fault (.refl ..)
  · split
    · split_ifs
      · exact .fault (.refl ..)
      · exact .waits rfl
    · exact Sys2Proof.Machine.translate_walked ..

/-! ### What the checks of threads leave -/

/-- The state that the check of a thread's access leaves, where it ends without a wait. -/
def Found.leaves : Found → Option State
  | .ok s _ => some s
  | .fault s _ _ => some s
  | _ => none

/-- R92: an address in an on-chip space is no virtual one. -/
theorem formAddress_ne_va {base va : Nat} {off : Int} (h : 2 ≤ space) : formAddress space base off ≠ .ok (.va va) := by
  simp only [formAddress, if_neg (Nat.not_lt.2 h)]
  split_ifs <;> exact nofun

theorem locateOff_leaves {e : Env} {n : Need} {tid o : Nat} (h : (e.locateOff s n tid space o).leaves = some s₁) : s₁ = s := by
  unfold Env.locateOff at h
  dsimp only at h
  split at h
  · split_ifs at h <;> exact (Option.some.inj h).symm
  · split_ifs at h <;> exact (Option.some.inj h).symm
  · split at h
    · exact (Option.some.inj h).symm
    · split at h
      · exact (Option.some.inj h).symm
      · split_ifs at h <;> exact (Option.some.inj h).symm
  · split_ifs at h <;> exact (Option.some.inj h).symm

/-- What follows a translation in the check of an access changes nothing. -/
theorem locate_va_leaves {e : Env} {n : Need} {tid base va : Nat} {off : Int} (hva : formAddress space base off = .ok (.va va))
    (h : (e.locate s n space tid base off).leaves = some s₁) :
    s₁ = s ∨ ∃ k, (e.translate s va k).leaves = some s₁ := by
  simp only [Env.locate, hva] at h
  split at h
  · exact .inl (Option.some.inj h).symm
  · refine .inr ⟨if n.write && n.load then .update else if n.write then .write else .read, ?_⟩
    split at h
    case h_1 heq => rwa [heq]
    case h_7 heq =>
      rw [heq]
      split at h
      · exact h
      · split at h
        · exact h
        · split at h
          · split at h
            · exact h
            · split at h <;> exact h
          · exact h
    all_goals exact absurd h nofun

theorem locate_walksOnly {e : Env} {n : Need} {tid base : Nat} {off : Int}
    (h : (e.locate s n space tid base off).leaves = some s₁) : WalksOnly s s₁ space := by
  cases htarget : formAddress space base off with
  | error ca =>
    simp only [Env.locate, htarget] at h
    exact Option.some.inj h ▸ .refl ..
  | ok target =>
    cases target with
    | off sp o =>
      simp only [Env.locate, htarget] at h
      split_ifs at h
      · exact Option.some.inj h ▸ .refl ..
      · exact locateOff_leaves h ▸ .refl ..
    | va va =>
      obtain rfl | ⟨k, hk⟩ := locate_va_leaves htarget h
      · exact .refl ..
      · exact .of_space_lt ((e.translate_walked va k).walks _ hk) (not_le.1 fun hchip => formAddress_ne_va hchip htarget)

/-! ### The checks of an instruction -/

/-- Checks from `s` that end without a wait and without an uncorrectable word have walked only. -/
structure Checks.Walked (s : State) (space : Nat) (c : Checks) : Prop where
  walks : c.wait = none → c.bad = none → WalksOnly s c.s space

theorem locateAll_walked {e : Env} {n : Need} {base : Member → Nat} {off : Int} (ms : List Member) (s : State) :
    (e.locateAll s n space base off ms).Walked s space := by
  induction ms generalizing s with
  | nil => exact ⟨fun _ _ => .refl ..⟩
  | cons m ms ih =>
    unfold Env.locateAll
    split
    case h_1 s' x heq =>
      exact ⟨fun hwait hbad => (locate_walksOnly (congrArg Found.leaves heq)).trans ((ih s').walks hwait hbad)⟩
    case h_2 s' cause a heq =>
      exact ⟨fun hwait hbad => (locate_walksOnly (congrArg Found.leaves heq)).trans ((ih s').walks hwait hbad)⟩
    case h_3 => exact ⟨fun hwait _ => absurd hwait nofun⟩
    case h_4 => exact ⟨fun _ hbad => absurd hbad nofun⟩

/-- R251: the failing threads stand in the order of the members. -/
theorem locateAll_faults_sublist {e : Env} {n : Need} {base : Member → Nat} {off : Int} (ms : List Member) (s : State) :
    ((e.locateAll s n space base off ms).faults.map (·.1)).Sublist (ms.map (·.rank)) := by
  induction ms generalizing s with
  | nil => exact .slnil
  | cons m ms ih =>
    simp only [Env.locateAll]
    split
    · exact (ih _).cons _
    · exact (ih _).cons_cons _
    · exact List.nil_sublist _
    · exact List.nil_sublist _

theorem Checks.none_of_ends_eq_false {c : Checks} (h : c.ends = false) : c.wait = none ∧ c.bad = none := by
  simp only [Checks.ends, Bool.or_eq_false_iff, Option.isSome_eq_false_iff, Option.isNone_iff_eq_none] at h
  exact h.1

theorem locateBlock_walked {e : Env} {n : Need} {f : Fields} (l : List (Nat × Nat)) (s : State) :
    (e.locateBlock s n f l).Walked s f.space := by
  induction l generalizing s with
  | nil => exact ⟨fun _ _ => .refl ..⟩
  | cons piece l ih =>
    have hpiece := locateAll_walked (e := e) (n := { n with len := piece.2 }) (space := f.space) (base := e.baseOf f)
      (off := offsetOf f + piece.1) (e.one f) s
    unfold Env.locateBlock
    dsimp only
    split
    case isTrue => exact hpiece
    case isFalse hends =>
      obtain ⟨hwait, hbad⟩ := Checks.none_of_ends_eq_false (Bool.eq_false_of_not_eq_true hends)
      have hc := hpiece.walks hwait hbad
      split
      · exact ⟨fun hwait' hbad' => hc.trans ((ih _).walks hwait' hbad')⟩
      · exact ⟨fun hwait' hbad' => hc.trans ((ih _).walks hwait' hbad')⟩

/-- R292: what the checks of a block leave. -/
theorem blockChecks_walked {e : Env} {n : Need} {f : Fields} : (e.blockChecks s n f).Walked s f.space :=
  ⟨(locateBlock_walked _ s).walks⟩

/-! ### What a failed check comes to -/

section
variable {f : Fields} {e : Env} {ms : List Member} {cs : Checks} {k : State → List (Member × Spot) → Effect}
  {xs : List (Member × Spot)} {rank cause a : Nat} {fs : List (Nat × Nat × Nat)}

/-- R453: the trap of the thread that decides. -/
abbrev Env.firstFault (e : Env) (rank cause a : Nat) (fs : List (Nat × Nat × Nat)) : TrapInfo :=
  e.info cause rank (maskOf (rank :: fs.map (·.1))) a

theorem Env.checked_load_fails
    (hfound : cs = { s := s₁, spots := xs, faults := (rank, cause, a) :: fs, wait := none, bad := none }) :
    e.checked ms cs false k = .trap s₁ (e.firstFault rank cause a fs) := by
  rw [hfound]
  rfl

theorem Env.doLoad_fails {ro : Bool} {k : State → List (Nat × List Word) → Effect}
    (hfound : e.locateAll s (need false true true false (accessSize f.typ.toNat)) f.space (e.baseOf f) (offsetOf f) (e.actors f) =
      { s := s₁, spots := xs, faults := (rank, cause, a) :: fs, wait := none, bad := none }) :
    e.doLoad s f ro k = .trap s₁ (e.firstFault rank cause a fs) := by
  unfold Env.doLoad
  exact Env.checked_load_fails hfound

/-- R453, R500: a store whose check fails traps, or ends the context where a die does not answer. -/
theorem store_fails {c : Fields → Instr} {nb b : Env → Effect} (h : Ready c f s e) (hexec : exec (c f) s = branchWith (c f) f s nb b)
    (hfound : cs = { s := s₁, spots := xs, faults := (rank, cause, a) :: fs, wait := none, bad := none })
    (hb : b e = e.checked ms cs true k) :
    exec (c f) s = .next (if cause = 0x90 then s₁.terminate e.pf (e.ctx s₁) 0x90
      else s₁.raise e (e.firstFault rank cause a fs)) := by
  have hfailed : b e = e.failed s₁ ((rank, cause, a) :: fs) true := by rw [hb, hfound]; rfl
  split_ifs with hcause
  · exact h.placed hexec (hfailed.trans (by rw [hcause]; rfl))
  · exact h.trap hexec (hfailed.trans (if_neg (by simpa using hcause)))

/-- R251: of members in the order of their ranks, the first one that fails is the lowest-ranked. -/
theorem locateAll_first_fault {n : Need} {base : Member → Nat} {off : Int} (hranks : ms.Pairwise fun x y => x.rank < y.rank)
    (hfound : (e.locateAll s n space base off ms).faults = (rank, cause, a) :: fs) : ∀ x ∈ fs, rank < x.1 := by
  have hsub := locateAll_faults_sublist (e := e) (n := n) (space := space) (base := base) (off := off) ms s
  rw [hfound] at hsub
  have hfaults := (List.pairwise_map.2 hranks).sublist hsub
  exact fun x hx => List.rel_of_pairwise_cons hfaults (List.mem_map_of_mem hx)

theorem Env.actors_sublist : (e.actors f).Sublist (e.T f) := by
  unfold Env.actors
  split_ifs
  · exact List.take_sublist ..
  · exact .refl _

theorem Env.T_sublist : (e.T f).Sublist e.fr.mem := List.filter_sublist

end

end

/-! ### The rows of the atomics -/

/-- The instructions of `c` execute as an atomic or a reduction, and `host` says whether a host page serves them (R139). -/
def ExecutesAtomic (c : Fields → Instr) (host : Nat → Bool) : Prop :=
  ∃ op ret, (∀ f s, exec (c f) s = execAtomic (c f) f s op ret) ∧ ∀ typ, hostAtomic op typ ret = host typ

theorem executesAtomic_of_device : ∀ c ∈ [Instr.atomAnd, .atomOr, .atomXor, .atomMin, .atomMax, .atomInc, .atomDec, .redAdd, .redAnd,
    .redOr, .redXor, .redMin, .redMax, .redInc, .redDec], ExecutesAtomic c fun _ => false := by
  simp only [List.forall_mem_cons, List.not_mem_nil, false_implies, implies_true, and_true]
  and_intros
  all_goals exact ⟨_, _, fun _ _ => rfl, fun _ => rfl⟩

theorem executesAtomic_of_host : ∀ c ∈ [Instr.atomXchg, .atomCas], ExecutesAtomic c fun _ => true := by
  simp only [List.forall_mem_cons, List.not_mem_nil, false_implies, implies_true, and_true]
  and_intros
  all_goals exact ⟨_, _, fun _ _ => rfl, fun _ => rfl⟩

theorem typ_bne_f32 {f : Fields} : (f.typ.toNat != 0x0E) = (f.typ != 0x0E) := by
  simp only [bne, beq_eq_decide, typ_eq_f32]

theorem executesAtomic_add : ExecutesAtomic .atomAdd fun typ => typ != 0x0E := ⟨.add, true, fun _ _ => rfl, fun _ => rfl⟩

end Sys2Proof.Machine

namespace Sys2Proof.Proofs
open Sys2Proof.Machine Sys2Proof.Claims

/-- Settles O57: an instruction whose checks fail has performed nothing but their walks, and the first failing thread of the order
of the ranks decides. -/
theorem faultsFindNoAccess : Obligations.FaultsFindNoAccess := by
  intro f s s₁ e xs rank cause a fs n failed found trap after load plain
  have atomics {c : Fields → Instr} {host : Nat → Bool} (hc : ExecutesAtomic c host) (h : Ready c f s e)
      (hfound : found s (need true true (host f.typ.toNat) false n) f.space (e.actors f)) : exec (c f) s = .next after := by
    obtain ⟨op, ret, hexec, hhost⟩ := hc
    rw [← hhost] at hfound
    exact store_fails h (hexec f s) hfound rfl
  refine ⟨List.forall_mem_cons.2 ⟨fun h hfound => h.trap rfl (Env.doLoad_fails hfound),
      List.forall_mem_singleton.2 fun h hfound => h.trap rfl (Env.doLoad_fails hfound)⟩,
    fun h hplain hfound => h.trap rfl ?_, fun h hplain hquiet hfound => h.trap rfl ?_,
    fun h hfound => store_fails h rfl hfound rfl, fun c hc => atomics (executesAtomic_of_device c hc),
    fun c hc => atomics (executesAtomic_of_host c hc), fun h hfound => atomics executesAtomic_add h ?_,
    fun h hfound => store_fails h rfl hfound rfl, fun h hfound => store_fails h rfl hfound rfl,
    fun h hfound => h.trap rfl (Env.checked_load_fails hfound), fun h hfound => store_fails h rfl hfound rfl,
    fun s n space ms hfound => ?_, fun s n space hranks hfound => ?_, fun n hfound => ?_⟩
  · rw [Env.regroups_eq_false hplain, if_neg Bool.false_ne_true]
    exact Env.doLoad_fails hfound
  · rw [Env.regroups_eq_true hplain, if_pos rfl, settled_of_quiet hquiet]
    exact Env.doLoad_fails hfound
  · rwa [typ_bne_f32]
  · have hwalked := (locateAll_walked (e := e) (n := n) (space := space) (base := e.baseOf f) (off := offsetOf f) ms s).walks
    rw [hfound] at hwalked
    exact hwalked rfl rfl
  · rcases hfound with hfound | hfound
    · exact locateAll_first_fault (hranks.sublist (Env.actors_sublist.trans Env.T_sublist)) (congrArg Checks.faults hfound)
    · exact locateAll_first_fault (hranks.sublist Env.T_sublist) (congrArg Checks.faults hfound)
  · have hwalked := (blockChecks_walked (s := s) (e := e) (n := n) (f := f)).walks
    rw [hfound] at hwalked
    exact hwalked rfl rfl

end Sys2Proof.Proofs

/-! ## Where stores change memory (R94, R115, R253, R257 to R259, R292, R354) -/

namespace Sys2Proof.Machine
open Sys2Proof.Claims

/-! ### Memory and bad words -/

theorem Memory.get_filter {m : Memory} {p : Host.Cell → Bool} {b : Nat} (h : ∀ x, p (b, x) = true) :
    Memory.get (m.filter p) b = m.get b := by
  induction m with
  | nil => rfl
  | cons c m ih =>
    obtain ⟨k, x⟩ := c
    by_cases hk : k = b
    · rw [hk, List.filter_cons_of_pos (h x), Memory.get, Memory.get, if_pos rfl, if_pos rfl]
    · rw [Memory.get, if_neg hk, ← ih, List.filter_cons]
      split
      · rw [Memory.get, if_neg hk]
      · rfl

theorem Memory.get_clear_out (m : Memory) {a n b : Nat} (h : b < a ∨ a + n ≤ b) : (m.clear a n).get b = m.get b :=
  Memory.get_filter fun _ => by simp only [Bool.not_eq_true', Bool.and_eq_false_iff, decide_eq_false_iff_not]; omega

/-- A copy leaves every byte outside its target. -/
theorem Memory.get_copy_out (m : Memory) {src dst n b : Nat} (h : b < dst ∨ dst + n ≤ b) : (m.copy src dst n).get b = m.get b := by
  refine List.foldlRecOn (motive := fun m' : Memory => m'.get b = m.get b) _ _ (Memory.get_clear_out m h) fun m' hm' c hc => ?_
  rw [Memory.get_set_ne, hm']
  simp only [Memory.slice, List.mem_filter, Bool.and_eq_true, decide_eq_true_eq] at hc
  omega

section
variable {A : Set Nat} {s s₁ s₂ : State}

theorem touch_eq (s : State) (place n : Nat) :
    s.touch place n = { s with dies := (s.touch place n).dies, bad := (s.touch place n).bad } := by
  unfold State.touch
  dsimp only
  split_ifs <;> rfl

theorem touch_launches (place n : Nat) : (s.touch place n).launches = s.launches := by rw [touch_eq]

/-- R482: a write makes no word bad. -/
theorem touch_isBad {place n p : Nat} (h : s.isBad p = false) : (s.touch place n).isBad p = false := by
  have hsub : (s.touch place n).bad ⊆ s.bad := by
    unfold State.touch
    dsimp only
    split_ifs
    · exact List.Subset.refl _
    · exact List.filter_subset_self _
    · exact List.Subset.refl _
  simp only [State.isBad, Bool.and_eq_false_iff] at h ⊢
  exact h.imp_right fun hgood => Bool.eq_false_iff.2 fun hc =>
    Bool.eq_false_iff.1 hgood (List.contains_iff_mem.2 (hsub (List.contains_iff_mem.1 hc)))

/-! ### What a store leaves of the bytes elsewhere

`A` is a set of bytes outside the capture areas. `Spares A s s'`: `s'` has the same bytes there, no new bad word, and its capture
areas are outside `A` too. -/

/-- No byte of `A` is among the `n` at a place. -/
def Off (A : Set Nat) (place n : Nat) : Prop := ∀ a ∈ A, a < place ∨ place + n ≤ a

/-- R354: no replay's capture area has a byte of `A`. -/
def AreaClear (A : Set Nat) (s : State) : Prop := ∀ ln ∈ s.launches, ∀ r, ln.replay = some r → ∀ p ∈ r.area, Off A p 16384

structure Spares (A : Set Nat) (s s' : State) : Prop where
  get : ∀ a ∈ A, s'.mem.get a = s.mem.get a
  bad : ∀ p, s.isBad p = false → s'.isBad p = false
  area : AreaClear A s'

theorem Spares.refl (h : AreaClear A s) : Spares A s s := ⟨fun _ _ => rfl, fun _ => id, h⟩

theorem Spares.trans (h : Spares A s s₁) (h' : Spares A s₁ s₂) : Spares A s s₂ :=
  ⟨fun x hx => (h'.get x hx).trans (h.get x hx), fun p hp => h'.bad p (h.bad p hp), h'.area⟩

theorem Spares.of_eq (h : AreaClear A s) (hmem : s₁.mem = s.mem) (hbad : s₁.bad = s.bad) (hlaunches : s₁.launches = s.launches) :
    Spares A s s₁ :=
  ⟨fun _ _ => by rw [hmem], fun p hp => by rwa [State.isBad, hbad], by rwa [AreaClear, hlaunches]⟩

theorem Spares.of_same (h : Spares A s s₁) (hmem : s₂.mem = s₁.mem) (hbad : s₂.bad = s₁.bad)
    (hlaunches : s₂.launches = s₁.launches) : Spares A s s₂ := h.trans (.of_eq h.area hmem hbad hlaunches)

theorem OnlyUnits.spares (hunits : OnlyUnits s s₁) (h : AreaClear A s) : Spares A s s₁ :=
  .of_eq h hunits.mem hunits.bad (by rw [hunits])

theorem Spares.units (h : Spares A s s₁) (hunits : OnlyUnits s₁ s₂) : Spares A s s₂ := h.trans (hunits.spares h.area)

theorem poke_spares {place : Nat} {bs : List Byte} (h : AreaClear A s) (hout : Off A place bs.length) :
    Spares A s (s.poke place bs) where
  get a ha := by rw [State.poke_mem, Memory.get_write_out _ _ (hout a ha)]
  bad _ hp := touch_isBad hp
  area := by rwa [AreaClear, State.poke, touch_launches]

/-- A new state of a replay, of the same area. -/
theorem modLaunch_areaClear {l : Nat} {r r' : Replay} (h : AreaClear A s) (hr : ∀ p ∈ r.area, Off A p 16384)
    (harea : r'.area = r.area) : AreaClear A (s.modLaunch l fun x => { x with replay := some r' }) := by
  intro ln hln q hq
  obtain ⟨x, hx, rfl⟩ := List.mem_map.1 hln
  split at hq
  · obtain rfl := Option.some.inj hq
    rwa [harea]
  · exact h x hx q hq

/-- R354: a capture writes to the capture area alone. -/
theorem capturePage_spares {l : Launch} {r : Replay} {pa size place n : Nat} (h : AreaClear A s)
    (hr : ∀ p ∈ r.area, Off A p 16384) : Spares A s (s.capturePage l r pa size place n).1 := by
  unfold State.capturePage
  dsimp only
  split_ifs
  · exact .refl h
  · exact ⟨fun _ _ => rfl, fun _ => id, modLaunch_areaClear h hr rfl⟩
  · refine ⟨fun a ha => ?_, fun _ => id, modLaunch_areaClear h hr rfl⟩
    refine List.foldlRecOn (motive := fun m : Memory => m.get a = s.mem.get a) _ _ rfl fun m hm x hx => ?_
    rw [Memory.get_copy_out _ (hr _ (List.drop_subset _ _ (List.of_mem_zip hx).2) a ha), hm]

theorem capture_spares {pf ctx pa size place n : Nat} (h : AreaClear A s) : Spares A s (s.capture pf ctx pa size place n).1 := by
  unfold State.capture
  refine List.foldlRecOn (motive := fun x : State × Bool => Spares A s x.1) _ _ (.refl h) fun x hx l hl => ?_
  dsimp only
  split
  case h_1 r hr =>
    split
    · exact hx.trans (capturePage_spares hx.area (h l hl r hr))
    · exact hx
  case h_2 => exact hx

/-- R253: a performed store changes the bytes at its place. -/
theorem performStore_spares {pf ctx l core t w : Nat} {x : Spot} {bs : List Byte} (h : AreaClear A s)
    (hout : Off A x.place bs.length) : Spares A s (s.performStore pf ctx l core t w x bs) := by
  unfold State.performStore
  cases x with
  | dram p ord pa size va =>
    have hconflict : Spares A s (s.conflict p true) := (conflict_units ..).spares h
    have hcapture := hconflict.trans
      (capture_spares (pf := pf) (ctx := ctx) (pa := pa) (size := size) (place := p) (n := bs.length) hconflict.area)
    dsimp only
    split_ifs
    · exact hcapture
    · exact (hcapture.trans (poke_spares hcapture.area hout)).units ((modCore_units ..).trans (modWarp_units ..))
  | host p =>
    dsimp only
    split_ifs
    · exact .refl h
    · exact (poke_spares h hout).units (modWarp_units ..)
  | chip sp p =>
    dsimp only
    split_ifs
    · exact .refl h
    · exact (poke_spares h hout).units (modWarp_units ..)
  | far core off =>
    dsimp only
    split_ifs
    · exact .refl h
    · exact (poke_spares h hout).units (modWarp_units ..)

/-! ### Stores and read-modify-writes of threads -/

variable {e : Env}

theorem store1_spares {m : Member} {x : Spot} {bs : List Byte} (h : AreaClear A s) (hout : Off A x.place bs.length) :
    Spares A s (e.store1 s m x bs) := by
  unfold Env.store1
  dsimp only
  split
  · split
    · exact .of_eq h rfl rfl rfl
    · exact ((count_units ..).spares h).trans (performStore_spares ((count_units ..).spares h).area hout)
    · exact performStore_spares h hout
  · exact (modWarp_units ..).spares h
  · exact (modWarp_units ..).spares h

theorem storeAll_spares {l : List (Member × Spot × List Byte)} (h : AreaClear A s) (hout : ∀ y ∈ l, Off A y.2.1.place y.2.2.length) :
    Spares A s (e.storeAll s l) :=
  List.foldlRecOn _ _ (.refl h) fun _ hs y hy => hs.trans (store1_spares hs.area (hout y hy))

/-- R253: a read-modify-write of a word that is not bad performs. -/
theorem rmw1_spares {m : Member} {x : Spot} {n : Nat} {g : Nat → Nat} (h : AreaClear A s) (hout : Off A x.place n)
    (hbad : s.isBad x.place = false) : ∃ s' old, e.rmw1 s m x n g = .ok (s', old) ∧ Spares A s s' := by
  have hleBytes (v : Nat) : Off A x.place (leBytes n v).length := by rwa [leBytes_length]
  unfold Env.rmw1
  cases x with
  | dram p ord pa size va =>
    have hbad : s.isBad p = false := hbad
    have hseen : Spares A s ((s.conflict p false).count e.ln.id e.core 0x0A 1) :=
      ((conflict_units ..).trans (count_units ..)).spares h
    simp only [hbad, Bool.false_eq_true, if_false]
    split
    · exact ⟨_, _, rfl, (modWarp_units ..).spares h⟩
    · exact ⟨_, _, rfl, hseen.trans (performStore_spares hseen.area (hleBytes _))⟩
  | _ =>
    simp only [Bool.false_eq_true, if_false]
    split
    · exact ⟨_, _, rfl, (modWarp_units ..).spares h⟩
    · exact ⟨_, _, rfl, performStore_spares h (hleBytes _)⟩

theorem rmwAll_spares {n : Nat} {g : Member → Nat → Nat} (l : List (Member × Spot)) (h : AreaClear A s)
    (hout : ∀ x ∈ l, Off A x.2.place n) (hbad : ∀ x ∈ l, s.isBad x.2.place = false) :
    ∃ s' vs, e.rmwAll s n g l = .ok (s', vs) ∧ Spares A s s' := by
  induction l generalizing s with
  | nil => exact ⟨s, [], rfl, .refl h⟩
  | cons x l ih =>
    obtain ⟨hx, hl⟩ := List.forall_mem_cons.1 hout
    obtain ⟨hbadx, hbadl⟩ := List.forall_mem_cons.1 hbad
    obtain ⟨s', old, hone, hs'⟩ := rmw1_spares (e := e) (m := x.1) (g := g x.1) h hx hbadx
    obtain ⟨s'', vs, hall, hs''⟩ := ih hs'.area hl fun y hy => hs'.bad _ (hbadl y hy)
    exact ⟨s'', (x.1.tid, old) :: vs, by simp only [Env.rmwAll, hone, hall], hs'.trans hs''⟩

theorem countAtomics_spares {xs : List (Member × Spot)} (h : AreaClear A s) : Spares A s (e.countAtomics s xs) :=
  List.foldlRecOn (motive := fun s' => Spares A s s') _ _ (.refl h) fun s' hs' x _ => by
    dsimp only
    split
    · exact (hs'.units (count_units ..)).of_same rfl rfl rfl
    · exact hs'

end
end Sys2Proof.Machine

/-! ### Far stores that arrive (R94, R105, R115, R127)

Where a far store lands depends on its team's launch and on the base of the peer, the lowest-numbered team of that launch on the
core: on the keys of the teams, which no arrival changes. -/

namespace Sys2Proof.Machine
open Sys2Proof.Claims

/-- What the place of a far store depends on, of a team. -/
structure TeamKey where
  id : Nat
  launch : Nat
  num : Nat
  core : Nat
  base : Nat

def Team.key (tm : Team) : TeamKey := { id := tm.id, launch := tm.launch, num := tm.num, core := tm.core, base := tm.base }

/-- R94: of two teams, the one with the lower number. -/
def TeamKey.lower (best : Option TeamKey) (k : TeamKey) : Option TeamKey := match best with
  | none => some k
  | some b => if k.num < b.num then some k else some b

section
variable {A : Set Nat} {s s₁ s₂ : State}

theorem peer_key (launch core : Nat) : (s.peer launch core).map Team.key =
    ((s.teams.map Team.key).filter fun k => k.launch == launch && k.core == core).foldl TeamKey.lower none := by
  rw [List.filter_map, List.foldl_map]
  refine (List.foldl_hom (Option.map Team.key) (init := none) fun best tm => ?_).symm
  cases best with
  | none => rfl
  | some b => exact (apply_ite (Option.map Team.key) (tm.num < b.num) (some tm) (some b)).symm

theorem team?_key (t : Nat) : (s.team? t).map Team.key = (s.teams.map Team.key).find? fun k => k.id == t := by
  rw [List.find?_map]
  rfl

theorem team_launch_congr (hkeys : s₁.teams.map Team.key = s.teams.map Team.key) (t : Nat) :
    (s₁.team t).launch = (s.team t).launch := by
  have h : (s₁.team? t).map Team.key = (s.team? t).map Team.key := by rw [team?_key, team?_key, hkeys]
  unfold State.team
  cases h₁ : s₁.team? t with
  | none =>
    rw [h₁] at h
    rw [Option.map_eq_none_iff.1 h.symm]
  | some tm₁ =>
    rw [h₁] at h
    obtain ⟨tm, htm, hkey⟩ := Option.map_eq_some_iff.1 h.symm
    rw [htm]
    exact (congrArg TeamKey.launch hkey).symm

theorem peer_base_congr (hkeys : s₁.teams.map Team.key = s.teams.map Team.key) {launch core : Nat} {p₁ : Team}
    (h : s₁.peer launch core = some p₁) : ∃ p, s.peer launch core = some p ∧ p.base = p₁.base := by
  have hkey : (s.peer launch core).map Team.key = some p₁.key := by rw [peer_key, ← hkeys, ← peer_key, h]; rfl
  obtain ⟨p, hp, hpkey⟩ := Option.map_eq_some_iff.1 hkey
  exact ⟨p, hp, congrArg TeamKey.base hpkey⟩

theorem modWhere_keys {q : Team → Bool} {g : Team → Team} (hg : ∀ tm, (g tm).key = tm.key) (l : List Team) :
    (modWhere q g l).map Team.key = l.map Team.key := by
  simp only [modWhere, List.map_map]
  refine List.map_congr_left fun tm _ => ?_
  simp only [Function.comp]
  split_ifs
  · exact hg tm
  · rfl

/-! The order of an instruction: from `s` to `s₁`, far stores may have arrived, none of them over a byte of `A`, and lines of an L1
gone. -/

/-- A far store on its way does not land on a byte of `A`. -/
def FarStore.Clear (A : Set Nat) (s : State) (y : FarStore) : Prop :=
  ∀ p, s.peer (s.launchOf (s.team y.team).launch).id y.core = some p →
    Off A (placeScratch y.core (1024 * p.base + y.off % scratchBytes)) y.data.length

def FarClear (A : Set Nat) (s : State) : Prop := ∀ y ∈ s.far, y.Clear A s

structure Ordered (A : Set Nat) (s s₁ : State) : Prop where
  get : ∀ a ∈ A, s₁.mem.get a = s.mem.get a
  bad : ∀ p, s.isBad p = false → s₁.isBad p = false
  launches : s₁.launches = s.launches
  exacts : s₁.exacts = s.exacts
  queues : s₁.queues = s.queues
  keys : s₁.teams.map Team.key = s.teams.map Team.key
  far : s₁.far ⊆ s.far

theorem Ordered.refl (s : State) : Ordered A s s := ⟨fun _ _ => rfl, fun _ => id, rfl, rfl, rfl, rfl, List.Subset.refl _⟩

theorem Ordered.trans (h : Ordered A s s₁) (h' : Ordered A s₁ s₂) : Ordered A s s₂ where
  get a ha := (h'.get a ha).trans (h.get a ha)
  bad p hp := h'.bad p (h.bad p hp)
  launches := h'.launches.trans h.launches
  exacts := h'.exacts.trans h.exacts
  queues := h'.queues.trans h.queues
  keys := h'.keys.trans h.keys
  far := List.Subset.trans h'.far h.far

theorem Ordered.spares (h : Ordered A s s₁) (harea : AreaClear A s) : Spares A s s₁ :=
  ⟨h.get, h.bad, by rwa [AreaClear, h.launches]⟩

theorem Ordered.clear (h : Ordered A s s₁) {y : FarStore} (hy : y.Clear A s) : y.Clear A s₁ := by
  intro p₁ hp₁
  have hlaunch : s₁.launchOf (s₁.team y.team).launch = s.launchOf (s.team y.team).launch := by
    rw [team_launch_congr h.keys, State.launchOf, State.launch?, h.launches]
    rfl
  rw [hlaunch] at hp₁
  obtain ⟨p, hp, hbase⟩ := peer_base_congr h.keys hp₁
  rw [← hbase]
  exact hy p hp

theorem Ordered.farClear (h : Ordered A s s₁) (hfar : FarClear A s) : FarClear A s₁ := fun y hy => h.clear (hfar y (h.far hy))

theorem OnlyUnits.ordered (hunits : OnlyUnits s s₁) (hkeys : s₁.teams.map Team.key = s.teams.map Team.key) : Ordered A s s₁ where
  get _ _ := by rw [hunits.mem]
  bad p hp := by rwa [State.isBad, hunits.bad]
  launches := by rw [hunits]
  exacts := by rw [hunits]
  queues := by rw [hunits]
  keys := hkeys
  far := by rw [hunits]; exact List.Subset.refl _

theorem modTeam_ordered (t : Nat) {g : Team → Team} (hg : ∀ tm, (g tm).key = tm.key) : Ordered A s (s.modTeam t g) :=
  (modTeam_units ..).ordered (modWhere_keys hg _)

theorem modWarp_ordered (t w : Nat) (g : Warp → Warp) : Ordered A s (s.modWarp t w g) := modTeam_ordered t fun _ => rfl

theorem refuse_ordered (y : FarStore) (cause : Nat) : Ordered A s (s.refuse y cause) := modTeam_ordered y.team fun _ => rfl

theorem poke_ordered {place : Nat} {bs : List Byte} (hout : Off A place bs.length) : Ordered A s (s.poke place bs) where
  get a ha := by rw [State.poke_mem, Memory.get_write_out _ _ (hout a ha)]
  bad _ hp := touch_isBad hp
  launches := touch_launches ..
  exacts := by rw [State.poke, touch_eq]
  queues := by rw [State.poke, touch_eq]
  keys := by rw [State.poke_teams]
  far := by rw [State.poke, touch_eq]; exact List.Subset.refl _

theorem arriveFar_ordered {y : FarStore} (hy : y.Clear A s) : Ordered A s (s.arriveFar y) := by
  unfold State.arriveFar
  dsimp only
  split
  case h_1 => exact refuse_ordered ..
  case h_2 p hp =>
    split_ifs
    · exact refuse_ordered ..
    · exact refuse_ordered ..
    · exact (poke_ordered (hy p hp)).trans (modWarp_ordered ..)

theorem deliver_ordered (hfar : FarClear A s) (q : FarStore → Bool) : Ordered A s (s.deliver q) := by
  have hstart : Ordered A s { s with far := s.far.filter fun x => !q x } :=
    ⟨fun _ _ => rfl, fun _ => id, rfl, rfl, rfl, rfl, List.filter_subset_self _⟩
  exact List.foldlRecOn _ _ hstart fun s' hs' y hy =>
    hs'.trans (arriveFar_ordered (hs'.clear (hfar y (List.filter_subset_self _ hy))))

theorem untag_ordered (core : Nat) (p : Nat → Bool) : Ordered A s (s.untag core p) := by
  refine (untag_units ..).ordered ?_
  simp only [State.untag, List.map_map]
  refine List.map_congr_left fun tm _ => ?_
  simp only [Function.comp]
  split_ifs <;> rfl

theorem dropL1_ordered (core : Nat) : Ordered A s (s.dropL1 core) :=
  ((modCore_units ..).ordered rfl).trans (untag_ordered ..)

variable {e : Env} {f : Fields}

theorem acquire_ordered (scope : Nat) : Ordered A s (e.acquire s scope) := by
  unfold Env.acquire
  split_ifs
  · exact dropL1_ordered ..
  · exact .refl s

theorem ownFar_ordered (hfar : FarClear A s) : Ordered A s (e.ownFar s) := by
  unfold Env.ownFar State.deliverFrag
  split_ifs
  · exact .refl s
  · exact deliver_ordered hfar _

theorem order_ordered (hfar : FarClear A s) : Ordered A s (e.order s f) := by
  have hrelease : Ordered A s (if f.ann = 2 ∨ f.ann = 3 then e.release s else s) := by
    split_ifs
    · exact deliver_ordered hfar _
    · exact .refl s
  unfold Env.order
  dsimp only
  split
  · exact .refl s
  · split
    · exact hrelease.trans (acquire_ordered ..)
    · exact hrelease

end
end Sys2Proof.Machine

/-! ### The instructions that store -/

namespace Sys2Proof.Machine
open Sys2Proof.Claims

section
variable {A : Set Nat} {c : Fields → Instr} {f : Fields} {s s₁ s₂ : State} {e : Env} {xs : List (Member × Spot)} {n a : Nat}

/-- The bytes that an instruction leaves, as `Outside` says. -/
def outsideOf (s : State) (n : Nat) (xs : List (Member × Spot)) : Set Nat := { a | Outside s n xs a }

theorem outsideOf_farClear : FarClear (outsideOf s n xs) s := fun y hy p hp _ ha => ha.2.1 y hy p hp

theorem outsideOf_areaClear : AreaClear (outsideOf s n xs) s := fun ln hln r hr p hp _ ha => ha.2.2 ln hln r hr p hp

theorem outsideOf_off {x : Member × Spot} (hx : x ∈ xs) : Off (outsideOf s n xs) x.2.place n := fun _ ha => ha.1 x hx

theorem State.suspend_mem (r : Ret) (w : Wait) : (s.suspend e r w).mem = s.mem := by
  unfold State.suspend
  dsimp only
  split_ifs
  · rfl
  · exact State.count_mem ..

/-- A completion leaves all of memory. -/
theorem spares_of_ends {res : Res} {pc : Nat} (hends : Ends c f s e s₂ res pc) (hspares : Spares A s₁ s₂) :
    ∃ s', exec (c f) s = .next s' ∧ ∀ a ∈ A, s'.mem.get a = s₁.mem.get a :=
  ⟨_, hends, fun a ha => by rw [State.retire_mem, hspares.get a ha]⟩

/-- R105, R127: ordered far stores first, own ones after. -/
theorem readyToStore_ordered (hfar : FarClear A s) : Ordered A s (e.readyToStore s f xs) := by
  have horder : Ordered A s (e.order s f) := order_ordered hfar
  unfold Env.readyToStore
  split
  · exact horder
  · exact horder.trans (ownFar_ordered (horder.farClear hfar))

theorem order_ownFar_ordered (hfar : FarClear A s) : Ordered A s (e.order (e.ownFar s) f) :=
  (ownFar_ordered hfar).trans (order_ordered ((ownFar_ordered hfar).farClear hfar))

/-- R252, R253: a store. -/
theorem st_storesOnly : StoresOnly .st (fun _ => need true false true false 0) fun e f => e.T f := by
  intro f s s₁ e xs size h hreach hopen hheld _
  have hordered : Ordered (outsideOf s₁ size xs) s₁ (e.readyToStore s₁ f xs) := readyToStore_ordered outsideOf_farClear
  have hspares := hordered.spares outsideOf_areaClear
  refine spares_of_ends (execSt_stores h hreach hopen hheld) (hspares.trans (storeAll_spares hspares.area fun y hy => ?_))
  obtain ⟨x, hx, rfl⟩ := List.mem_map.1 hy
  rw [leBytes_length]
  exact outsideOf_off hx

/-- R253, R257: an atomic or a reduction. -/
theorem atomic_storesOnly {host : Nat → Bool} (hc : ExecutesAtomic c host) :
    StoresOnly c (fun f => need true true (host f.typ.toNat) false 0) Env.actors := by
  intro f s s₁ e xs size h hreach hopen hheld hgood
  obtain ⟨op, ret, hexec, hhost⟩ := hc
  have hordered : Ordered (outsideOf s₁ size xs) s₁ (e.order (e.ownFar s₁) f) := order_ownFar_ordered outsideOf_farClear
  have hspared := hordered.spares outsideOf_areaClear
  have hbefore := hspared.trans (countAtomics_spares (e := e) (xs := xs) hspared.area)
  obtain ⟨s₂, vs, hrmw, hspares⟩ := rmwAll_spares (e := e) (n := size) (g := e.atomicNew f op)
    (xs.take (e.pacing (e.countAtomics (e.order (e.ownFar s₁) f) xs) xs)) hbefore.area
    (fun x hx => outsideOf_off (List.take_subset _ _ hx)) fun x hx => hbefore.bad _ (hgood x (List.take_subset _ _ hx))
  simp only [← hhost] at hreach
  refine ⟨_, execAtomic_effect h (hexec f s) hreach hopen hheld hrmw, fun a ha => ?_⟩
  rw [← (hbefore.trans hspares).get a ha]
  split_ifs
  · exact congrArg (Memory.get · a) (State.suspend_mem ..)
  · unfold Env.atomicEnd
    split_ifs <;> exact congrArg (Memory.get · a) (State.retire_mem ..)

/-! Blocks (R292) -/

theorem Env.one_ne_nil (h : e.T f ≠ []) : e.one f ≠ [] := by
  obtain ⟨m, l, hT⟩ := List.exists_cons_of_ne_nil h
  rw [Env.one, hT]
  exact List.cons_ne_nil m _

theorem Env.checked_blockReaches {n : Need} {store : Bool} {k : State → List (Member × Spot) → Effect}
    (h : BlockReaches e f s n s₁ xs) : e.checked (e.one f) (e.blockChecks s n f) store k = k s₁ xs := by
  obtain ⟨hT, hblock⟩ := h
  simp only [hblock, Env.checked, List.isEmpty_eq_false_iff.2 (Env.one_ne_nil hT), Bool.false_eq_true, if_false]

theorem storeBytes_length (ovtab : Word) (mode typ : Nat) (acc : AccElems) (i : Nat) :
    (storeBytes ovtab mode typ acc i).length = 8 := by
  have hbytes : accBytes typ = 2 ∨ accBytes typ = 4 := by
    unfold accBytes
    split_ifs
    · exact .inl rfl
    · exact .inr rfl
  simp only [storeBytes, List.length_flatMap, leBytes_length, List.map_const', List.length_range, List.sum_replicate]
  rcases hbytes with h | h <;> rw [h] <;> rfl

theorem execAst_stores (h : Ready .ast f s e) (hreach : BlockReaches e f s (need true false true false 16) s₁ xs)
    (hopen : Open_ e s₁ true false xs) (hheld : e.held s₁ f = false) :
    Ends .ast f s e (e.storeAll (e.order (e.ownFar s₁) f) (xs.zipIdx.map fun x => (x.1.1, x.1.2,
      storeBytes (e.ovtab (e.order (e.ownFar s₁) f)) f.rmode f.typ.toNat ((e.order (e.ownFar s₁) f).accView e.tm f.sb.toNat) x.2)))
      .none (e.next f) :=
  h.done rfl ((Env.checked_blockReaches hreach).trans ((hopen _).trans (Env.onRelease_of_not_held hheld)))

theorem ast_spares (h : Ready .ast f s e) (hreach : BlockReaches e f s (need true false true false 16) s₁ xs)
    (hopen : Open_ e s₁ true false xs) (hheld : e.held s₁ f = false) :
    ∃ s', exec (.ast f) s = .next s' ∧ ∀ a, Outside s₁ 8 xs a → s'.mem.get a = s₁.mem.get a := by
  have hordered : Ordered (outsideOf s₁ 8 xs) s₁ (e.order (e.ownFar s₁) f) := order_ownFar_ordered outsideOf_farClear
  have hspares := hordered.spares outsideOf_areaClear
  refine spares_of_ends (execAst_stores h hreach hopen hheld) (hspares.trans (storeAll_spares hspares.area fun y hy => ?_))
  obtain ⟨x, hx, rfl⟩ := List.mem_map.1 hy
  rw [storeBytes_length]
  exact outsideOf_off (List.fst_mem_of_mem_zipIdx hx)

/-! Exact accumulators (R118, R258, R259) -/

/-- R118: the accumulators of the elements that there are stand in their slices. -/
def Unspilled (e : Env) (xs : List (Member × Spot)) (s : State) : Prop :=
  ∀ x ∈ xs, ∀ y, s.exact? e.pf (e.ctx s) x.2.place = some y → y.spill = none

theorem Unspilled.of_eq (h : Unspilled e xs s) (hexacts : s₁.exacts = s.exacts) (hqueues : s₁.queues = s.queues) :
    Unspilled e xs s₁ := by
  have hctx : e.ctx s₁ = e.ctx s := by simp only [Env.ctx, State.queue, State.queue?, hqueues]
  simpa only [Unspilled, State.exact?, hexacts, hctx] using h

theorem exact?_modExact (pf ctx place p : Nat) (g : Exact → Exact)
    (hg : ∀ x, (g x).pf = x.pf ∧ (g x).ctx = x.ctx ∧ (g x).place = x.place) :
    (s.modExact pf ctx place g).exact? pf ctx p =
      (s.exact? pf ctx p).map fun x => if x.pf == pf && x.ctx == ctx && x.place == place then g x else x := by
  simp only [State.exact?, State.modExact, modWhere, List.find?_map]
  congr 2
  funext x
  simp only [Function.comp]
  split
  · obtain ⟨hpf, hctx, hplace⟩ := hg x
    rw [hpf, hctx, hplace]
  · rfl

theorem plus_eq (x : Exact) (b : Nat) : x.plus b =
    { x with sum := (x.plus b).sum, pinf := (x.plus b).pinf, ninf := (x.plus b).ninf, nan := (x.plus b).nan } := by
  unfold Exact.plus
  split <;> rfl

theorem join_element (x : Exact) (t b : Nat) :
    (x.join t b).pf = x.pf ∧ (x.join t b).ctx = x.ctx ∧ (x.join t b).place = x.place := by
  rw [Exact.join, plus_eq]
  exact ⟨rfl, rfl, rfl⟩

theorem join_spill (x : Exact) (t b : Nat) : (x.join t b).spill = x.spill := by rw [Exact.join, plus_eq]

theorem modExact_join_unspilled (h : Unspilled e xs s) (t place b : Nat) :
    Unspilled e xs (s.modExact e.pf (e.ctx s) place fun x => x.join t b) := by
  intro x hx y hy
  have hy : (s.modExact e.pf (e.ctx s) place fun x => x.join t b).exact? e.pf (e.ctx s) x.2.place = some y := hy
  rw [exact?_modExact (g := fun x => x.join t b) (hg := fun x => join_element x t b)] at hy
  obtain ⟨z, hz, rfl⟩ := Option.map_eq_some_iff.1 hy
  split
  · rw [join_spill]
    exact h x hx z hz
  · exact h x hx z hz

/-- R118: an addition to an accumulator that stands in its slice. -/
theorem exactAdd_unspilled (h : Unspilled e xs s) {x : Member × Spot} (hx : x ∈ xs) (t b : Nat) :
    s.exactAdd e.pf (e.ctx s) t x.2.place b = s.modExact e.pf (e.ctx s) x.2.place fun y => y.join t b := by
  have hkept := modExact_join_unspilled h t x.2.place b x hx
  unfold State.exactAdd
  dsimp only
  split
  case h_1 y hy => simp only [hkept y hy]
  case h_2 => rfl

theorem exactAdds_mem (h : Unspilled e xs s) (t : Nat) (v : Member → Nat) :
    (xs.foldl (fun s x => s.exactAdd e.pf (e.ctx s) t x.2.place (v x.1)) s).mem = s.mem := by
  refine (List.foldlRecOn (motive := fun s' => s'.mem = s.mem ∧ Unspilled e xs s') _ _ ⟨rfl, h⟩ fun s' hs' x hx => ?_).1
  obtain ⟨hmem, hunspilled⟩ := hs'
  rw [exactAdd_unspilled hunspilled hx]
  exact ⟨hmem, modExact_join_unspilled hunspilled _ _ _⟩

theorem redx_spares (h : Ready .redx f s e) (hreach : Reaches e f s (need true false false true 4) 0 (e.T f) s₁ xs)
    (hheld : e.held s₁ f = false) (hroom : s₁.exactRoom e.pf (e.ctx s₁) (xs.map fun x => x.2.place) = .ok s₂)
    (hunspilled : Unspilled e xs s₂) :
    ∃ s', exec (.redx f) s = .next s' ∧ ∀ a, Outside s₂ 0 [] a → s'.mem.get a = s₂.mem.get a := by
  have hordered : Ordered (outsideOf s₂ 0 []) s₂ (e.order (e.ownFar s₂) f) := order_ownFar_ordered outsideOf_farClear
  have hcounted := (hunspilled.of_eq hordered.exacts hordered.queues).of_eq
    (s₁ := (e.order (e.ownFar s₂) f).count e.ln.id e.core 0x0A xs.length)
    (by rw [count_units]) (by rw [count_units])
  refine ⟨_, execRedx_adds h hreach hheld hroom, fun a ha => ?_⟩
  rw [State.retire_mem, exactAdds_mem hcounted e.t fun m => e.dataB f m.tid, State.count_mem]
  exact hordered.get a ha

/-- R259: a thread's `REDXF` of a word that is not bad. -/
theorem finish_spares {mode : Mode} {m : Member} {x : Spot} (h : AreaClear A s) (hout : Off A x.place 4)
    (hgood : s.isBad x.place = false) : ∃ s' y, e.finish s mode m x = .ok (s', y) ∧ Spares A s s' := by
  unfold Env.finish
  dsimp only
  split
  case h_1 =>
    refine ⟨_, _, rfl, ?_⟩
    have hfiltered : Spares A s { s with exacts := s.exacts.filter fun z => !(z.pf == e.pf && z.ctx == e.ctx s && z.place == x.place) } :=
      .of_eq h rfl rfl rfl
    have hbytes (v : Nat) : Off A x.place (leBytes 4 v).length := by rwa [leBytes_length]
    exact (hfiltered.trans (store1_spares hfiltered.area (hbytes _))).units rfl
  case h_2 =>
    rw [hgood, if_neg Bool.false_ne_true]
    exact ⟨_, _, rfl, OnlyUnits.spares (((conflict_units ..).trans (count_units ..)).trans (refresh_units ..)) h⟩

theorem finishAll_spares {mode : Mode} (l : List (Member × Spot)) (h : AreaClear A s)
    (hout : ∀ x ∈ l, Off A x.2.place 4) (hgood : ∀ x ∈ l, s.isBad x.2.place = false) :
    ∃ s' vs, e.finishAll s mode l = .ok (s', vs) ∧ Spares A s s' := by
  induction l generalizing s with
  | nil => exact ⟨s, [], rfl, .refl h⟩
  | cons x l ih =>
    obtain ⟨hx, hl⟩ := List.forall_mem_cons.1 hout
    obtain ⟨hgoodx, hgoodl⟩ := List.forall_mem_cons.1 hgood
    obtain ⟨s', y, hone, hs'⟩ := finish_spares (e := e) (mode := mode) (m := x.1) h hx hgoodx
    obtain ⟨s'', vs, hall, hs''⟩ := ih hs'.area hl fun z hz => hs'.bad _ (hgoodl z hz)
    exact ⟨s'', (x.1.tid, y) :: vs, by simp only [Env.finishAll, hone, hall], hs'.trans hs''⟩

theorem redxf_spares (h : Ready .redxf f s e) (hreach : Reaches e f s (need true true false true 4) 0 (e.actors f) s₁ xs)
    (hheld : e.held s₁ f = false)
    (hroom : s₁.exactRoom e.pf (e.ctx s₁)
      ((xs.map fun x => x.2.place).filter fun p => (s₁.exact? e.pf (e.ctx s₁) p).isSome) = .ok s₂)
    (hgood : ∀ x ∈ xs, s₂.isBad x.2.place = false) :
    ∃ s', exec (.redxf f) s = .next s' ∧ ∀ a, Outside s₂ 4 xs a → s'.mem.get a = s₂.mem.get a := by
  have hordered : Ordered (outsideOf s₂ 4 xs) s₂ (e.order (e.ownFar s₂) f) := order_ownFar_ordered outsideOf_farClear
  have hspares := hordered.spares outsideOf_areaClear
  obtain ⟨s₃, vs, hfinish, hs₃⟩ := finishAll_spares (e := e) (mode := f.sb.toNat % 8) xs hspares.area (fun _ => outsideOf_off)
    fun x hx => hspares.bad _ (hgood x hx)
  exact spares_of_ends (execRedxf_totals h hreach hheld hroom hfinish) ((hspares.trans hs₃).units (modTeam_units ..))

end
end Sys2Proof.Machine

/-! ### The instructions that load -/

namespace Sys2Proof.Machine
open Sys2Proof.Claims

section
variable {f : Fields} {s s₁ : State} {e : Env} {n : Nat}

theorem OnlyUnits.isBad (h : OnlyUnits s s₁) (p : Nat) : s₁.isBad p = s.isBad p := by rw [State.isBad, State.isBad, h.bad]

/-- R252: a load that is no `LDRO`, of a word that is not bad, answers and changes units alone. -/
theorem load1_good {x : Spot} (hgood : s.isBad x.place = false) :
    ∃ s' bs, e.load1 s x n false = .ok (s', bs) ∧ OnlyUnits s s' := by
  cases x with
  | host p => exact ⟨_, _, rfl, .refl s⟩
  | chip sp p => exact ⟨_, _, rfl, modWarp_units ..⟩
  | far c o => exact ⟨_, _, rfl, .refl s⟩
  | dram p ord a b va =>
    have hgood : s.isBad p = false := hgood
    have hnoted : OnlyUnits s ((s.conflict p false).modWarp e.t e.fr.warp fun wp => wp.noteRead p) :=
      (conflict_units ..).trans (modWarp_units ..)
    have hseen : OnlyUnits s (if e.readsPast ((s.team e.t).warp e.fr.warp).mode
        then ((s.conflict p false).modWarp e.t e.fr.warp fun wp => wp.noteRead p).dropSector e.core p
        else (s.conflict p false).modWarp e.t e.fr.warp fun wp => wp.noteRead p) := by
      split_ifs
      · exact hnoted.trans (dropSector_units ..)
      · exact hnoted
    simp only [Env.load1]
    split
    · rw [hgood]
      exact ⟨_, _, rfl, ((modWarp_units ..).trans (refresh_units ..)).trans (count_units ..)⟩
    · simp only [hseen.isBad, hgood, Bool.false_and, Bool.and_false, Bool.false_eq_true, if_false]
      split
      · exact ⟨_, _, rfl, (hseen.trans (refresh_units ..)).trans (count_units ..)⟩
      · exact ⟨_, _, rfl, hseen.trans (l1Load_units ..)⟩

theorem loadEach_good (l : List (Member × Spot)) (hgood : ∀ x ∈ l, s.isBad x.2.place = false) :
    ∃ s' vs, e.loadEach s n false l = .ok (s', vs) ∧ OnlyUnits s s' := by
  induction l generalizing s with
  | nil => exact ⟨s, [], rfl, .refl s⟩
  | cons x l ih =>
    obtain ⟨hx, hl⟩ := List.forall_mem_cons.1 hgood
    obtain ⟨s', bs, hone, hs'⟩ := load1_good (e := e) (n := n) hx
    obtain ⟨s'', vs, hall, hs''⟩ := ih fun y hy => (hs'.isBad _).trans (hl y hy)
    exact ⟨s'', (x.1.tid, bs) :: vs, by simp only [Env.loadEach, hone, hall], hs'.trans hs''⟩

theorem loadAll_good (l : List (Member × Spot)) (hgood : ∀ x ∈ l, s.isBad x.2.place = false) :
    ∃ s' vs, e.loadAll s n false l = .ok (s', vs) ∧ OnlyUnits s s' := by
  have hcounted := countSectors_units e s false l
  obtain ⟨s', vs, hload, hs'⟩ := loadEach_good (e := e) (n := n) l fun x hx => (hcounted.isBad _).trans (hgood x hx)
  exact ⟨s', vs, hload, hcounted.trans hs'⟩

/-- With no far store on its way, none arrives. -/
theorem deliver_of_far_nil (hfar : s.far = []) (p : FarStore → Bool) : s.deliver p = s := by
  simp only [State.deliver, hfar, List.filter_nil, List.foldl_nil]
  rw [← hfar]

theorem ownFar_of_far_nil (hfar : s.far = []) : e.ownFar s = s := by
  simp only [Env.ownFar, State.deliverFrag, hfar, List.isEmpty_nil, if_true]

theorem acquire_units (scope : Nat) : OnlyUnits s (e.acquire s scope) := by
  unfold Env.acquire
  split_ifs
  · exact (modCore_units ..).trans (untag_units ..)
  · exact .refl s

theorem order_units (hfar : s.far = []) : OnlyUnits s (e.order s f) := by
  simp only [Env.order, Env.release, deliver_of_far_nil hfar, ite_self]
  split
  · exact .refl s
  · split_ifs
    · exact acquire_units ..
    · exact .refl s

/-- R252, R255: a load whose accesses perform is held for the collector, or has its bytes and has changed units alone. -/
theorem Env.doLoad_good {xs : List (Member × Spot)} (k : State → List (Nat × List Word) → Effect)
    (hreach : Reaches e f s (need false true true false (accessSize f.typ.toNat)) f.space (e.actors f) s₁ xs)
    (hopen : Open_ e s₁ false true xs) (hgood : ∀ x ∈ xs, s₁.isBad x.2.place = false) (hfar : s₁.far = []) :
    e.doLoad s f false k = .hold s₁ .collector ∨ ∃ s₂ vs, OnlyUnits s₁ s₂ ∧ e.doLoad s f false k = k s₂ vs := by
  cases hroom : s₁.collects e.core (requests xs).length with
  | false =>
    unfold Env.doLoad
    refine .inl ((Env.checked_reaches hreach).trans ((hopen _).trans ?_))
    simp only [requests] at hroom
    simp only [hroom, Bool.not_false, if_true]
  | true =>
    have hready : OnlyUnits s₁ (readyToLoad e f s₁ xs) := by
      rw [readyToLoad, ownFar_of_far_nil hfar]
      exact (order_units hfar).trans (modCore_units ..)
    obtain ⟨s₂, vs, hload, hs₂⟩ := loadAll_good (e := e) (n := accessSize f.typ.toNat) xs fun x hx =>
      (hready.isBad _).trans (hgood x hx)
    exact .inr ⟨s₂, _, hready.trans hs₂, Env.doLoad_loads hreach ⟨hopen, hroom⟩ hload⟩

/-- A load that completes with its bytes. -/
theorem loadsOnly_of_done {c : Fields → Instr} {s₀ : State} {nb b : Env → Effect} (h : Ready c f s e)
    (hexec : exec (c f) s = branchWith (c f) f s nb b) (hb : b e = e.doLoad s₀ f false fun s vs => .done s (resOf f vs)) :
    LoadsOnly c f s s₀ e := by
  intro s₁ xs hreach hopen hgood hfar
  rcases Env.doLoad_good _ hreach hopen hgood hfar with hhold | ⟨s₂, vs, hunits, hdone⟩
  · exact ⟨_, h.hold hexec (hb.trans hhold), rfl⟩
  · exact ⟨_, h.done hexec (hb.trans hdone), by rw [State.retire_mem, hunits.mem]⟩

theorem ld_loadsOnly (h : Ready .ld f s e) : LoadsOnly .ld f s s e := loadsOnly_of_done h rfl rfl

theorem ldRf_loadsOnly (h : Ready .ldRf f s e) (hplain : e.region = false ∨ e.fr.ent ≠ none) : LoadsOnly .ldRf f s s e :=
  loadsOnly_of_done h rfl (by simp only [Env.regroups_eq_false hplain, Bool.false_eq_true, if_false])

/-- R256: a gather in a region, which waits with its data bound. -/
theorem ldRf_loadsOnly_of_regroups (h : Ready .ldRf f s e) (hregroups : ¬ (e.region = false ∨ e.fr.ent ≠ none)) (hquiet : Quiet s e) :
    LoadsOnly .ldRf f s (settledOf s e) e := by
  intro s₁ xs hreach hopen hgood hfar
  have hb (k : State → Effect) (k' : Effect) : (if e.regroups then e.settled s k else k') = k (settledOf s e) := by
    rw [Env.regroups_eq_true hregroups, if_pos rfl, settled_of_quiet hquiet]
  rcases Env.doLoad_good _ hreach hopen hgood hfar with hhold | ⟨s₂, vs, hunits, hwait⟩
  · exact ⟨_, h.hold rfl ((hb _ _).trans hhold), rfl⟩
  · exact ⟨_, h.wait rfl ((hb _ _).trans hwait), by rw [State.suspend_mem, State.modTeam_mem, hunits.mem]⟩

end
end Sys2Proof.Machine

namespace Sys2Proof.Proofs
open Sys2Proof.Machine Sys2Proof.Claims

/-- Settles O47: what an instruction writes goes to its places, to those of the far stores that arrive before, and to the capture
areas of replays; loads change units alone. -/
theorem storeFrame : Obligations.StoreFrame :=
  ⟨st_storesOnly, fun c hc => atomic_storesOnly (executesAtomic_of_device c hc),
    fun c hc => atomic_storesOnly (executesAtomic_of_host c hc),
    by simpa only [typ_bne_f32] using atomic_storesOnly executesAtomic_add,
    fun _ _ _ => ld_loadsOnly, fun _ _ _ => ldRf_loadsOnly, fun _ _ _ => ldRf_loadsOnly_of_regroups,
    fun _ _ _ _ _ _ => redx_spares, fun _ _ _ _ _ _ => redxf_spares, fun _ _ _ _ _ => ast_spares⟩

end Sys2Proof.Proofs

/-! ## Floating-point arithmetic, conversions and special functions (R272 to R281) -/

namespace Sys2Proof.Machine
open Sys2Proof.Claims

section
variable {c : Fields → Instr} {f : Fields} {s : State} {e : Env}

/-- R155, R270: an instruction that executes as `execFloat` does gives each thread its operation's results, element by element. -/
theorem execFloat_gives {op : Fmt → Nat → Nat → Nat → Nat} (h : Ready c f s e) (hexec : exec (c f) s = execFloat (c f) f s op) :
    Gives c f s e (elementwise e f op) := h.done hexec rfl

/-- R280, R358: a special function of source A counts its event and gives each thread its value. -/
theorem execSpecial_ends {op : Num → Num} (h : Ready c f s e)
    (hexec : exec (c f) s = execSpecial (c f) f s fun a _ => specialOf op f.ftz a.toNat) :
    Ends c f s e (s.count e.ln.id e.core 0x13 1)
      (e.results f fun t => [BitVec.ofNat 32 (specialOf op f.ftz (e.a f t).toNat)]) (e.next f) := h.done hexec rfl

end
end Sys2Proof.Machine

namespace Sys2Proof.Proofs
open Sys2Proof.Machine Sys2Proof.Claims

/-- Settles O6: the arithmetic of R272 and R273, `FRND` and `FCLASS` work on each element of the format; a compare and the exponent
instructions take each thread's whole sources. -/
theorem floatResults : Obligations.FloatResults := fun _ _ _ =>
  ⟨fun h => execFloat_gives h rfl, fun h => execFloat_gives h rfl, fun h => execFloat_gives h rfl, fun h => execFloat_gives h rfl,
    fun h => execFloat_gives h rfl, fun h => execFloat_gives h rfl, fun h => execFloat_gives h rfl, fun h => execFloat_gives h rfl,
    fun h => h.done rfl rfl, fun h => h.done rfl rfl, fun h => h.done rfl rfl, fun h => h.done rfl rfl⟩

/-- Settles O7: a conversion reads the registers that its source format takes; every special function but `EX2S` is one of source A
alone. -/
theorem conversionResults : Obligations.ConversionResults := fun _ _ _ =>
  ⟨fun h => h.done rfl rfl, fun h => h.done rfl rfl, fun h => execSpecial_ends h rfl, fun h => execSpecial_ends h rfl,
    fun h => execSpecial_ends h rfl, fun h => execSpecial_ends h rfl, fun h => execSpecial_ends h rfl,
    fun h => execSpecial_ends h rfl, fun h => execSpecial_ends h rfl, fun h => h.done rfl rfl⟩

end Sys2Proof.Proofs

/-! ## Tiles and matrix operations (R282 to R292) -/

namespace Sys2Proof.Machine
open Sys2Proof.Claims

section
variable {c : Fields → Instr} {f : Fields} {s s' s₁ s₂ : State} {e : Env}

/-! ### Tiles (R282) -/

theorem execTbind_binds (h : Ready .tbind f s e) (hgood : badTileWindow e.hdr.scratch (e.a f 0) (e.b f 0) = false) :
    Ends .tbind f s e (s.putTile e.t f.dst.toNat (tileDesc f.typ.toNat (e.a f 0) (e.b f 0))) .none (e.next f) :=
  h.done rfl (if_neg (Bool.eq_false_iff.1 hgood))

theorem execTbind_traps (h : Ready .tbind f s e) (hbad : badTileWindow e.hdr.scratch (e.a f 0) (e.b f 0) = true) :
    exec (.tbind f) s = .next (s.raise e (e.onceTrap f 0x17)) :=
  h.trap rfl (if_pos hbad)

/-! ### The queue of the anchor core (R289) -/

/-- R289: an instruction whose effect is to queue an operation queues it where there is room. -/
theorem queues_of_queueMatrix {n b : Env → Effect} {cycles : Nat} {elems : AccElems} (h : Ready c f s e)
    (hexec : exec (c f) s = branchWith (c f) f s n b) (hopen : QueueOpen s' e)
    (hb : b e = e.queueMatrix s' (c f) f cycles elems) : Queues c f s e s' cycles elems :=
  h.placed hexec (hb.trans (if_neg (Nat.not_le.2 hopen)))

/-! ### Matrix operations (R286 to R289) -/

/-- R286, R288: the parameter block, the tiles and their granules, as a matrix operation names them. -/
abbrev Env.paramX (e : Env) (f : Fields) : Word := e.w f.sc.toNat
abbrev Env.paramY (e : Env) (f : Fields) : Word := e.w (f.sc.toNat + 1)
abbrev Env.tileA (e : Env) (f : Fields) : DWord := e.tm.tiles.getD f.sa.toNat 0
abbrev Env.tileB (e : Env) (f : Fields) : DWord := e.tm.tiles.getD f.sb.toNat 0
abbrev Env.operandGrans (e : Env) (f : Fields) : List Nat := tileGrans (e.tileA f) ++ tileGrans (e.tileB f)

/-- R288: the `K` of a matrix operation with good parameters. -/
abbrev Env.goodK (e : Env) (f : Fields) (scaled : Bool) : Option Nat :=
  goodParams scaled (e.paramX f) (e.paramY f) (e.tileA f) (e.tileB f)

/-- R288: the elements that a matrix operation gives its accumulator, from the tiles as they are in `s`. -/
abbrev Env.product (e : Env) (s : State) (f : Fields) (k : Nat) : AccElems :=
  s.mmaElems e.tm (paramsOf (e.paramX f) (e.paramY f)) k (e.tileA f) (e.tileB f) (s.accView e.tm f.dst.toNat)

theorem any_owned_eq_false_iff {owned grans : List Nat} :
    grans.any owned.contains = false ↔ ∀ g ∈ grans, g ∉ owned := by
  simp only [List.any_eq_false, List.contains_iff_mem]

section
variable {scaled : Bool} {k : Nat}
variable (h : Ready c f s e) (hexec : exec (c f) s = execMatrix (c f) f scaled s)
include h hexec

theorem execMatrix_traps (hbad : e.goodK f scaled = none) : exec (c f) s = .next (s.raise e (e.onceTrap f 0x60)) :=
  h.trap hexec (by simp only [hbad])

variable (hgood : e.goodK f scaled = some k)
include hgood

theorem execMatrix_owned (howned : ¬ ∀ g ∈ e.operandGrans f, g ∉ e.tm.owned) :
    exec (c f) s = .next (s.raise e (e.granTrap f (e.operandGrans f))) := by
  have hany : (e.operandGrans f).any e.tm.owned.contains = true :=
    Bool.eq_true_of_not_eq_false (mt any_owned_eq_false_iff.1 howned)
  exact h.trap hexec (by simp only [hgood, hany, if_true])

theorem execMatrix_queues (hfree : ∀ g ∈ e.operandGrans f, g ∉ e.tm.owned) (hopen : QueueOpen (e.ownFar s) e) :
    Queues c f s e (e.ownFar s) (paramsOf (e.paramX f) (e.paramY f)).cycles (e.product (e.ownFar s) f k) := by
  have hany : (e.operandGrans f).any e.tm.owned.contains = false := any_owned_eq_false_iff.2 hfree
  exact queues_of_queueMatrix h hexec hopen (by simp only [hgood, hany, Bool.false_eq_true, if_false])

end

/-! ### Blocks in memory (R292) -/

/-- R292: an `ALD` finds room before its loads (log entry 127) and again where it queues its block. -/
theorem execAld_queues {xs : List (Member × Spot)} {vs : List (Nat × List Byte)} (h : Ready .ald f s e)
    (hreach : BlockReaches e f s (need false true true false 16) s₁ xs) (hroom : QueueOpen s₁ e)
    (hload : e.loadAll (e.order (e.ownFar s₁) f) 8 false xs = .ok (s₂, vs)) (hopen : QueueOpen s₂ e) :
    Queues .ald f s e s₂ 0 (accFrom fun n =>
      loadElem f.typ.toNat (blockElem (cellsFrom 0 (vs.flatMap (·.2))) (accBytes f.typ.toNat) n)) :=
  queues_of_queueMatrix h rfl hopen ((Env.checked_blockReaches hreach).trans
    ((if_neg (Nat.not_le.2 hroom)).trans (by simp only [hload])))

end
end Sys2Proof.Machine

namespace Sys2Proof.Proofs
open Sys2Proof.Machine Sys2Proof.Claims

/-- Settles O20: a good window is bound; an operation with good parameters whose tiles no engine owns, and a move of an accumulator,
join the queue where it has room; a block whose checks all pass is loaded or stored. -/
theorem matrixInstructions : Obligations.MatrixInstructions := fun _ _ _ _ _ _ _ _ =>
  ⟨execTbind_binds, execTbind_traps, fun h => h.done rfl rfl,
    fun h => execMatrix_queues h rfl, fun h => execMatrix_queues h rfl,
    fun h => execMatrix_traps h rfl, fun h => execMatrix_owned h rfl,
    fun h hopen => queues_of_queueMatrix h rfl hopen rfl, fun h hopen => queues_of_queueMatrix h rfl hopen rfl,
    execAld_queues, execAst_stores⟩

end Sys2Proof.Proofs

/-! ## Queue registers (R294 to R298) -/

namespace Sys2Proof.Machine
open Sys2Proof.Claims

/-! ### Pushes (R297, R298) -/

theorem wn_zero (ws : List Word) : wn ws 0 = (ws.headD 0).toNat := by cases ws <;> rfl

section
variable {f : Fields} {s : State} {e : Env} {v : Word}

/-- R297: the register that a push names. -/
abbrev Env.pushReg (e : Env) (f : Fields) : QueueReg := e.tm.queues.getD f.dst.toNat default

section
variable (hclosed : (e.pushReg f).owner = none)
include hclosed

theorem push_opens (hgood : goodHeader (s.devDies e.pf) v.toNat = true) (hroom : cmdKind v.toNat = 4 ∨ e.tm.entries < e.hdr.queues) :
    e.push s f v = .done (s.modTeam e.t fun tm => tm.modQueue f.dst.toNat fun x =>
      { x with owner := some e.fr.warp, words := [v] }) .none := by
  have hentry : ¬ (cmdKind v.toNat < 4 && decide (e.hdr.queues ≤ e.tm.entries)) = true := by
    simp only [Bool.and_eq_true, decide_eq_true_eq]
    omega
  simp only [Env.push, hclosed, hgood, Bool.not_true, Bool.false_eq_true, if_false, if_neg hentry]

theorem push_badHeader (hbad : goodHeader (s.devDies e.pf) v.toNat = false) :
    e.push s f v = .trap s (e.onceTrap f 0x70) := by
  simp only [Env.push, hclosed, hbad, Bool.not_false, if_true]

end

theorem push_conflict {o : Nat} (howner : (e.pushReg f).owner = some o) (hother : o ≠ e.fr.warp) :
    e.push s f v = .trap s (e.onceTrap f 0x72) := by
  simp only [Env.push, howner, if_pos hother]

section
variable {ws : List Word} (hown : (e.pushReg f).owner = some e.fr.warp) (hws : (e.pushReg f).words ++ [v] = ws)
include hown hws

/-- R297: within its warp's frame a push adds a word, and the last word of the command submits it. -/
theorem push_frames : e.push s f v =
    if cmdLen (ws.headD 0).toNat < ws.length then e.submit s f f.dst.toNat ws
    else .done (s.modTeam e.t fun tm => tm.modQueue f.dst.toNat fun x => { x with words := ws }) .none := by
  simp only [Env.push, hown, hws, wn_zero, Nat.succ_le_iff, ne_eq, not_true_eq_false, if_false]

theorem push_adds (hshort : ws.length ≤ cmdLen (ws.headD 0).toNat) :
    e.push s f v = .done (s.modTeam e.t fun tm => tm.modQueue f.dst.toNat fun x => { x with words := ws }) .none :=
  (push_frames hown hws).trans (if_neg (Nat.not_lt.2 hshort))

theorem push_submits (hlast : cmdLen (ws.headD 0).toNat < ws.length) : e.push s f v = e.submit s f f.dst.toNat ws :=
  (push_frames hown hws).trans (if_pos hlast)

end

/-! A release names nothing new: what it waits for is stores alone. -/

theorem arriveFar_fresh (s : State) (x : FarStore) : (s.arriveFar x).fresh = s.fresh := by
  unfold State.arriveFar
  dsimp only
  split
  case h_1 => rfl
  case h_2 =>
    split_ifs
    · rfl
    · rfl
    · rw [State.modWarp_fresh, State.poke, touch_eq]

theorem deliver_fresh (s : State) (p : FarStore → Bool) : (s.deliver p).fresh = s.fresh :=
  List.foldlRecOn (motive := fun s' : State => s'.fresh = s.fresh) _ _ rfl fun s' hs' x _ => (arriveFar_fresh s' x).trans hs'

theorem release_fresh (e : Env) (s : State) : (e.release s).fresh = s.fresh := deliver_fresh ..

/-- R298: the state in which a command with GN = 0 that joins its team's commands launches. -/
abbrev Env.submitted (e : Env) (s : State) (q : Nat) (ws : List Word) : State :=
  ({ e.release s with fresh := (e.release s).fresh + 1 }.closeFrame e.t q).modTeam e.t fun tm =>
    { tm with cmds := tm.cmds ++ [e.newCmd s q (e.tm.queues.getD q default).subs ws] }

/-- R298: a good command of an engine, with GN = 0 and no store before its granules, launches as it is submitted. -/
theorem submit_launches {q : Nat} {ws : List Word} (hkind : cmdKind (ws.headD 0).toNat ≠ 4) (hgood : e.submitFault s ws = none)
    (hgn : ctlGn (wn ws 1) = false) (hdue : e.storesDue s = false) (hbuf : s.buffered e.t (e.pushGrans ws) = false) :
    e.submit s f q ws = .done (((e.submitted s q ws).launchCmd e.t s.fresh).runGraph e.t 1024) .none := by
  rw [Env.submitted, release_fresh]
  simp only [Env.submit, wn_zero, if_neg hkind, hgood, hgn, hdue, hbuf, Bool.and_false, Bool.or_self, Bool.false_eq_true, if_false]
  rfl

end

/-- R297: an instruction whose effect is to push a word, whichever it is. -/
theorem pushes_of_push {c : Fields → Instr} {v : Fields → Env → Word}
    (hexec : ∀ f s, exec (c f) s = branchWith (c f) f s (fun _ => .done s .none) fun e => e.push s f (v f e)) : Pushes c v :=
  fun f s _ => ⟨fun h hclosed hgood hroom => h.done (hexec f s) (push_opens hclosed hgood hroom),
    fun h hown hshort => h.done (hexec f s) (push_adds hown rfl hshort),
    fun h hown hlast hkind hgood hgn hdue hbuf => h.done (hexec f s)
      ((push_submits hown rfl hlast).trans (submit_launches hkind hgood hgn hdue hbuf)),
    fun h hclosed hbad => h.trap (hexec f s) (push_badHeader hclosed hbad),
    fun _ h howner hother => h.trap (hexec f s) (push_conflict howner hother)⟩

/-! ### Pops (R295) -/

section
variable {f : Fields} {s : State} {e : Env}
variable (h : Ready .movFromQueue f s e)
include h

theorem execMovFromQueue_traps (hnone : firstOwing f.sa.toNat e.tm.cmds = none) :
    exec (.movFromQueue f) s = .next (s.raise e (e.onceTrap f 0x74)) :=
  h.trap rfl (by simp only [hnone])

variable {c : Cmd} (howing : firstOwing f.sa.toNat e.tm.cmds = some c)
include howing

theorem execMovFromQueue_pops (hst : c.st = .complete) (hgood : c.fault79 = false) : exec (.movFromQueue f) s = .next
    (((e.acquire s (ctlScope (c.word 1))).modTeam e.t fun tm => tm.modCmd c.id fun x => { x with taken := x.taken + 1 }).retire e
      { retOf (.movFromQueue f) f e.hdr.lanes with pop := some c.id } (e.results f fun _ => [c.results.getD c.taken 0]) (e.next f)) := by
  have hst : ¬ (c.st != .complete) = true := mt bne_iff_ne.1 (not_not.2 hst)
  exact h.placed rfl (by simp only [howing, if_neg hst, hgood, Bool.false_eq_true, if_false])

theorem execMovFromQueue_waits (hst : c.st ≠ .complete) :
    exec (.movFromQueue f) s = .next (s.suspend e (retOf (.movFromQueue f) f e.hdr.lanes) (.queue f.sa.toNat)) :=
  h.wait rfl (by simp only [howing, if_pos (bne_iff_ne.2 hst)])

end
end Sys2Proof.Machine

namespace Sys2Proof.Proofs
open Sys2Proof.Machine Sys2Proof.Claims

/-- Settles O21: the frame of the register decides what a push does, and the first command that owes it a word what a pop does. -/
theorem queueInstructions : Obligations.QueueInstructions :=
  ⟨pushes_of_push fun _ _ => rfl, pushes_of_push fun _ _ => rfl,
    fun _ _ _ _ h howing => ⟨execMovFromQueue_pops h howing, execMovFromQueue_waits h howing⟩,
    fun _ _ _ => execMovFromQueue_traps⟩

end Sys2Proof.Proofs

/-! ## The copy engine (R308 to R313, R486) -/

namespace Sys2Proof.Machine

section
variable {opc t c n i : Nat} {s s₁ : State} {x : Cmd}

/-- R310: a copy whose accesses are performed has come to its end, or stands at the index that it reached. -/
theorem copyHappening_moves (hx : s.cmdAt t c 0 opc .launched = some x)
    (hgo : s.copyGo (s.cmdWho t x (dieOfCore x.core)) t x n n x.idx = (i, .ok s₁ ())) : copyHappening opc t c n s =
    if copyLength x ≤ i then s₁.applyCmd t c 0 0 i else s₁.modCmd t c fun y => { y with idx := i, stall := none } := by
  simp only [copyHappening, hx, hgo]

theorem copyHappening_ends (hx : s.cmdAt t c 0 opc .launched = some x)
    (hgo : s.copyGo (s.cmdWho t x (dieOfCore x.core)) t x n n x.idx = (i, .ok s₁ ())) (hend : copyLength x ≤ i) :
    copyHappening opc t c n s = s₁.applyCmd t c 0 0 i :=
  (copyHappening_moves hx hgo).trans (if_pos hend)

theorem copyHappening_goes_on (hx : s.cmdAt t c 0 opc .launched = some x)
    (hgo : s.copyGo (s.cmdWho t x (dieOfCore x.core)) t x n n x.idx = (i, .ok s₁ ())) (hmore : i < copyLength x) :
    copyHappening opc t c n s = s₁.modCmd t c fun y => { y with idx := i, stall := none } :=
  (copyHappening_moves hx hgo).trans (if_neg (Nat.not_le.2 hmore))

/-- R311: what a `REDCOPY` has issued without a fault stands as it is. -/
theorem execRedcopy_issues (hx : s.cmdAt t c 0 2 .launched = some x) (hissued : x.issued = false)
    (hgo : s.redGo (s.cmdWho t x (dieOfCore x.core)) t c (n + 1) = .ok s₁ ()) : execRedcopy t c n s = .next (s₁.redCheck t c) := by
  simp only [execRedcopy, hx, hissued, hgo, State.settleCmd, Bool.false_eq_true, if_false]

theorem execPfl2_applies (hx : s.cmdAt t c 0 3 .launched = some x) : execPfl2 t c s = .next
    (s.applyCmd t c 0 0 (s.prefetchLines (s.cmdWho t x (dieOfCore x.core)) (addrOf x.words 2) (x.word 4))) := by
  simp only [execPfl2, hx]

end

/-! R486: an element that is delivered. -/

section
variable {t c sl sq el : Nat} {s : State} {x : Cmd} {y : Sent}
variable (hx : (s.team t).cmd? c = some x) (hy : (x.sent.find? fun y => y.slice == sl && y.seq == sq && y.elem == el) = some y)
include hx hy

theorem execRedcopyElement_applies (hnext : x.next y = true) : execRedcopyElement t c sl sq el s = .next
    (((s.redApply (s.cmdWho t x (dieOfCore x.core)) t c x y).redFill (s.cmdWho t x (dieOfCore x.core)) t c sl x.sent.length).redCheck
      t c) := by
  simp only [execRedcopyElement, hx, hy, hnext, if_true]

theorem execRedcopyElement_holds (hlater : x.next y = false) : execRedcopyElement t c sl sq el s = .next
    (s.modCmd t c fun z => { z with
      sent := z.sent.map fun v => if v.slice == sl && v.seq == sq then { v with held := true } else v }) := by
  simp only [execRedcopyElement, hx, hy, hlater, Bool.false_eq_true, if_false]

end

theorem exec_copy (t c n : Nat) (s : State) : exec (.copy t c n) s = .next (copyHappening 0 t c n s) := rfl

theorem exec_copynd (t c n : Nat) (s : State) : exec (.copynd t c n) s = .next (copyHappening 1 t c n s) := rfl

theorem exec_redcopy (t c n : Nat) (s : State) : exec (.redcopy t c n) s = execRedcopy t c n s := rfl

theorem exec_pfl2 (t c : Nat) (s : State) : exec (.pfl2 t c) s = execPfl2 t c s := rfl

theorem exec_redcopyElement (t c slice seq elem : Nat) (s : State) :
    exec (.redcopyElement t c slice seq elem) s = execRedcopyElement t c slice seq elem s := rfl

end Sys2Proof.Machine

namespace Sys2Proof.Proofs
open Sys2Proof.Machine Sys2Proof.Claims

/-- Settles O26: the index that a copy reached, the elements that a reduction issued and the watermark decide what each comes to. -/
theorem copyEngine : Obligations.CopyEngine := by
  intro t c n i sl sq el s s₁ x y
  simp only [exec_copy, exec_copynd, exec_redcopy, exec_pfl2, exec_redcopyElement, Host.Outcome.next.injEq]
  exact ⟨copyHappening_ends, copyHappening_goes_on, copyHappening_ends, copyHappening_goes_on, execRedcopy_issues, execPfl2_applies,
    execRedcopyElement_applies, execRedcopyElement_holds⟩

end Sys2Proof.Proofs

/-! ## Graph commands, completion and taking up (R298, R301, R304 to R306, R316) -/

namespace Sys2Proof.Machine
open Sys2Proof.Claims

section
variable {t c kind opc : Nat} {st : CmdState} {s s₁ : State} {ws : List Word} {tm : Team} {x : Cmd}

/-- R305, R306: the words of a graph command that its team's graph accepts take effect. -/
theorem graphHappening_accepts (hteam : s.team? t = some tm) (hhead : goodHeader [] (wn ws 0) = true) (hkind : cmdKind (wn ws 0) = 4)
    (hopc : cmdOpc (wn ws 0) = opc) (hlen : ws.length = cmdLen (wn ws 0) + 1) (haccept : s.acceptGraph t ws = .ok s₁) :
    graphHappening opc t ws s = s₁ := by
  simp only [graphHappening, hteam, hhead, hkind, hopc, hlen, haccept, Option.isSome_some, beq_self_eq_true, Bool.and_self, if_true]

theorem execCommandCompletion_completes (hx : (s.team t).cmd? c = some x) (hst : x.st = .applied) :
    execCommandCompletion t c s = .next (s.completeCmd t c) := by
  simp only [execCommandCompletion, hx, hst, beq_self_eq_true, if_true]

/-- A command that may run at its engine is in the state that the engine takes it from. -/
theorem State.st_of_cmdAt (h : s.cmdAt t c kind opc st = some x) : x.st = st := by
  unfold State.cmdAt at h
  split at h
  next => cases h
  next =>
    split at h
    next => cases h
    next =>
      obtain ⟨hruns, heq⟩ := Option.ite_none_right_eq_some.1 h
      cases heq
      simp only [Bool.and_eq_true, beq_iff_eq] at hruns
      simp only [hruns]

/-! R304, R316: a command that its graph holds, and one at its engine. -/

theorem execCommandTakeUp_runsGraph (hx : (s.team t).cmd? c = some x) (hst : x.st = .held) :
    execCommandTakeUp t c s = .next (s.runGraph t 1024) := by
  simp only [execCommandTakeUp, hx, hst, beq_self_eq_true, if_true]

section
variable (hx : (s.team t).cmd? c = some x) (hkind : x.kind = 1 ∨ x.kind = 2) (hruns : Runs s t c x.kind x.opc .launched x)
include hx hkind hruns

/-- R316, R378, R504: whether the engine has power, whether its die can be reached and whether another command is before this one
decide in this order. -/
theorem execCommandTakeUp_launched : execCommandTakeUp t c s = .next
    (if s.engineLost x then s.refuseCmd t c
    else if s.engineFar x then s.stallFar t x
    else if s.teams.any fun tm => tm.cmds.any fun y => y.before x then s
    else s.modCmd t c fun x => { x with st := .takenUp }) := by
  have hat : s.cmdAt t c x.kind x.opc .launched = some x := hruns
  have hheld : ¬ (x.st == .held) = true := by
    rw [State.st_of_cmdAt hat]
    decide
  have hengine : (x.kind == 1 || x.kind == 2) = true := by simpa using hkind
  simp only [execCommandTakeUp, hx, if_neg hheld, hengine, hat, Option.isSome_some, Bool.and_self, if_true]

theorem execCommandTakeUp_refused (hlost : s.engineLost x = true) : execCommandTakeUp t c s = .next (s.refuseCmd t c) := by
  rw [execCommandTakeUp_launched hx hkind hruns, if_pos hlost]

variable (hpower : s.engineLost x = false)
include hpower

theorem execCommandTakeUp_waits (hfar : s.engineFar x = true) : execCommandTakeUp t c s = .next (s.stallFar t x) := by
  rw [execCommandTakeUp_launched hx hkind hruns, if_neg (Bool.eq_false_iff.1 hpower), if_pos hfar]

theorem execCommandTakeUp_takes (hnear : s.engineFar x = false) (hfirst : ∀ tm ∈ s.teams, ∀ y ∈ tm.cmds, y.before x = false) :
    execCommandTakeUp t c s = .next (s.modCmd t c fun x => { x with st := .takenUp }) := by
  have hnone : ¬ (s.teams.any fun tm => tm.cmds.any fun y => y.before x) = true := by simpa using hfirst
  rw [execCommandTakeUp_launched hx hkind hruns, if_neg (Bool.eq_false_iff.1 hpower), if_neg (Bool.eq_false_iff.1 hnear),
    if_neg hnone]

end
end

theorem exec_gnode (t w : Nat) (ws : List Word) (s : State) : exec (.gnode t w ws) s = .next (graphHappening 0 t ws s) := rfl

theorem exec_garm (t w : Nat) (ws : List Word) (s : State) : exec (.garm t w ws) s = .next (graphHappening 1 t ws s) := rfl

theorem exec_commandCompletion (t c : Nat) (s : State) : exec (.commandCompletion t c) s = execCommandCompletion t c s := rfl

theorem exec_commandTakeUp (t c : Nat) (s : State) : exec (.commandTakeUp t c) s = execCommandTakeUp t c s := rfl

end Sys2Proof.Machine

namespace Sys2Proof.Proofs
open Sys2Proof.Machine Sys2Proof.Claims

/-- Settles O27: an accepted graph command takes effect, and the state of an engine's command, its engine's power and die and the
commands before it decide what its completion or its taking up comes to. -/
theorem commandsAndGraphs : Obligations.CommandsAndGraphs := by
  intro t w c ws s s₁ tm x framed
  have accepts {opc : Nat} : framed opc → graphHappening opc t ws s = s₁ :=
    fun ⟨hteam, hhead, hkind, hopc, hlen, haccept⟩ => graphHappening_accepts hteam hhead hkind hopc hlen haccept
  simp only [exec_gnode, exec_garm, exec_commandCompletion, exec_commandTakeUp, Host.Outcome.next.injEq]
  exact ⟨accepts, accepts, execCommandCompletion_completes, execCommandTakeUp_runsGraph,
    fun hx _ hkind hruns => execCommandTakeUp_takes hx hkind hruns,
    execCommandTakeUp_waits, execCommandTakeUp_refused⟩

end Sys2Proof.Proofs

/-! ## Coordinate commands (R319 to R325, R361, R503, R504) -/

namespace Sys2Proof.Machine
open Sys2Proof.Claims

@[simp] theorem Eng.ok_bind {α β : Type} (s : State) (a : α) (f : State → α → Eng β) : (Eng.ok s a).bind f = f s a := rfl

/-! ### How a coordinate command ends -/

section
variable {opc t c : Nat} {s s₁ : State} {x : Cmd} {f : State → Who → Cmd → Eng (Nat × Nat)}
variable (hx : s.cmdAt t c 1 opc .takenUp = some x)
include hx

theorem coordinate_refused (hlost : s.engineLost x = true) : coordinate opc t c s f = s.refuseCmd t c := by
  simp only [coordinate, hx, hlost, if_true]

section
variable (hpower : s.engineLost x = false) (hnear : s.engineFar x = false)
include hpower hnear

/-- R319: a command at an engine with power, on a die that its core reaches, ends with the status and the count of its work. -/
theorem coordinate_applies {st n : Nat} (hwork : f s (s.cmdWho t x (x.tgt / 4)) x = .ok s₁ (st, n)) :
    coordinate opc t c s f = s₁.applyCmd t c st 0 n := by
  simp only [coordinate, hx, hpower, hnear, Bool.false_eq_true, if_false, hwork, Eng.ok_bind, State.settleCmd]

/-- R321, R322: one that counts what had no room ends with OK if all had. -/
theorem coordinate_applies_dropped {st d : Nat}
    (hwork : f s (s.cmdWho t x (x.tgt / 4)) x = .ok s₁ (if d = 0 then (0, 0) else (st, d))) :
    coordinate opc t c s f = s₁.applyCmd t c (if d = 0 then 0 else st) 0 d := by
  by_cases hd : d = 0
  · subst hd
    exact coordinate_applies hx hpower hnear hwork
  · rw [if_neg hd] at hwork ⊢
    exact coordinate_applies hx hpower hnear hwork

end
end

/-! ### VOXEL (R321) -/

section
variable {t c : Nat} {s s₁ s₂ s₃ s₄ s₅ : State} {x : Cmd} {h : TableHead} {bs : List Byte} {v : Voxels} {n : Nat}
  {rows : List Cell} {prow : List Nat} {w : Who}

theorem execVoxel_ends (hw : s.cmdWho t x (x.tgt / 4) = w) (hx : s.cmdAt t c 1 0 .takenUp = some x) (hpower : s.engineLost x = false)
    (hnear : s.engineFar x = false) (hn : min (x.word 10) maxPoints = n)
    (hv : Voxels.points x n 0 bs { cells := [], keys := [], dropped := x.word 10 - n, rejected := 0 } = v)
    (hrows : sortCells v.cells = rows) (hprow : (v.keys.map fun k => (k.bind (rowOf (rows.map (·.key)))).getD 0xFFFFFFFF) = prow)
    (hopen : s.openTable w t x true false (x.word 15 % 4) = .ok s₁ (.go h))
    (hread : s₁.eRead w (addrOf x.words 4) (16 * n) = .ok s₂ bs)
    (hmaps : Writes w s₂ [(addrOf x.words 6, wordBytes 4 (rows.map (·.winner))),
      (addrOf x.words 8, if (x.word 15).testBit 2 then wordBytes 4 prow else [])] s₃)
    (hkeys : s₃.areaWrite x.tgt w (rowKey (addrOf x.words 2) 0) (wordBytes 8 (rows.map (·.key))) = .ok s₄ ())
    (hhead : s₄.eWrite w (addrOf x.words 2)
      ({ h with cells := rows.length, dropped := v.dropped, rejected := v.rejected } : TableHead).bytes = .ok s₅ ()) :
    execVoxel t c s = .next (s₅.applyCmd t c (if v.dropped = 0 then 0 else 0x05) 0 v.dropped) := by
  obtain ⟨s', hwinners, _, hprows, rfl⟩ := hmaps
  refine congrArg Host.Outcome.next (coordinate_applies_dropped hx hpower hnear ?_)
  simp only [hw, hopen, Eng.ok_bind, hn, hread, hv, hrows, hwinners, hprow, hprows, hkeys, hhead]

end

/-! ### HINS and HLOOK (R322) -/

section
variable {t c d : Nat} {s s₁ s₂ s₃ s₄ : State} {x : Cmd} {h : TableHead} {keys : List Nat} {w : Who}
variable (hw : s.cmdWho t x (x.tgt / 4) = w) (hpower : s.engineLost x = false) (hnear : s.engineFar x = false)
include hw hpower hnear

theorem execHins_ends (hx : s.cmdAt t c 1 2 .takenUp = some x)
    (hopen : s.openTable w t x ((x.word 9).testBit 0) ((x.word 9).testBit 1) 0 = .ok s₁ (.go h))
    (hkeys : s₁.readKeys w x.tgt (addrOf x.words 2) h = .ok s₂ keys)
    (hgo : s₂.keysGo w x true h.keep (x.word 8) 0 keys 0 = .ok s₃ d)
    (hcount : s₃.eWrite w (addrOf x.words 2 + 16) (leBytes 4 d) = .ok s₄ ()) :
    execHins t c s = .next (s₄.applyCmd t c (if d = 0 then 0 else 0x06) 0 d) := by
  refine congrArg Host.Outcome.next (coordinate_applies_dropped hx hpower hnear ?_)
  simp only [hw, hopen, Eng.ok_bind, hkeys, hgo, hcount]

section
variable (hx : s.cmdAt t c 1 3 .takenUp = some x) (hhead : s.readHead w (addrOf x.words 2) = .ok s₁ h)
include hx hhead

theorem execHlook_ends (hvalid : headStatus x.tgt false h = 0)
    (hkeys : s₁.readKeys w x.tgt (addrOf x.words 2) h = .ok s₂ keys)
    (hgo : s₂.keysGo w x false h.keep (x.word 8) 0 keys 0 = .ok s₃ d) :
    execHlook t c s = .next (s₃.applyCmd t c 0 0 0) := by
  refine congrArg Host.Outcome.next (coordinate_applies hx hpower hnear ?_)
  simp only [hw, hhead, Eng.ok_bind, if_neg (not_not.2 hvalid), hkeys, hgo]

/-- R319: a lookup in a table that is not valid, or is another engine's, ends with the status that says so. -/
theorem execHlook_fails_check (hbad : headStatus x.tgt false h ≠ 0) :
    execHlook t c s = .next (s₁.applyCmd t c (headStatus x.tgt false h) 0 0) := by
  refine congrArg Host.Outcome.next (coordinate_applies hx hpower hnear ?_)
  simp only [hw, hhead, Eng.ok_bind, if_pos hbad]

end
end

/-! ### RBBUILD (R323 to R325, R361) -/

section
variable {t c : Nat} {s s₁ s₂ s₃ s₄ s₅ s₆ : State} {x : Cmd} {hi ho : TableHead} {inp out : List Nat}
  {pairs : List (List (Nat × Nat))} {noff p : Nat} {w : Who}
variable (hw : s.cmdWho t x (x.tgt / 4) = w) (hx : s.cmdAt t c 1 1 .takenUp = some x) (hpower : s.engineLost x = false)
  (hnear : s.engineFar x = false)
include hw hx hpower hnear

theorem execRbbuild_refused_of_hostBooks (hhost : (s.ctx w.pf w.ctx).hostBooks = true) :
    execRbbuild t c s = .next (s.applyCmd t c 0x01 0 0) := by
  refine congrArg Host.Outcome.next (coordinate_applies hx hpower hnear ?_)
  simp only [hw, hhost, if_true]

theorem execRbbuild_ends (hnoff : offCount ((x.word 9).testBit 0) = noff)
    (hpairs : (List.range noff).map (offsetPairs ((x.word 9).testBit 0) hi.keep (if (x.word 9).testBit 1 then 2 else 1) inp out) = pairs)
    (hp : (pairs.map (·.length)).sum = p) (hdevice : (s.ctx w.pf w.ctx).hostBooks = false)
    (hinHead : s.readHead w (addrOf x.words 2) = .ok s₁ hi)
    (houtHead : s₁.readHead w (addrOf x.words 4) = .ok s₂ ho)
    (hin : headStatus x.tgt false hi = 0) (hout : headStatus x.tgt false ho = 0)
    (hinvalid : s₂.eWrite w (addrOf x.words 6 + 44) (leBytes 4 0) = .ok s₃ ())
    (hinKeys : s₃.readKeys w x.tgt (addrOf x.words 2) hi = .ok s₄ inp)
    (houtKeys : s₄.readKeys w x.tgt (addrOf x.words 4) ho = .ok s₅ out)
    (hroom : pairsAt noff + 8 * p ≤ 64 * x.word 8)
    (hbook : Writes w s₅ [(addrOf x.words 6 + 64, pairBytes (directory 0 pairs)),
      (addrOf x.words 6 + pairsAt noff, pairBytes pairs.flatten), (addrOf x.words 6, rulebookHead x hi ho noff p)] s₆) :
    execRbbuild t c s = .next (s₆.applyCmd t c 0 0 0) := by
  obtain ⟨s', hdirectory, s'', hlists, _, hhead, rfl⟩ := hbook
  refine congrArg Host.Outcome.next (coordinate_applies hx hpower hnear ?_)
  simp only [hw, hdevice, Bool.false_eq_true, if_false, hinHead, houtHead, Eng.ok_bind, if_neg (not_not.2 hin), if_neg (not_not.2 hout),
    hinvalid, hinKeys, houtKeys, hnoff, hpairs, hp, if_neg (Nat.not_lt.2 hroom), hdirectory, hlists, hhead]

end

theorem exec_voxel (t c : Nat) (s : State) : exec (.voxel t c) s = execVoxel t c s := rfl

theorem exec_rbbuild (t c : Nat) (s : State) : exec (.rbbuild t c) s = execRbbuild t c s := rfl

theorem exec_hins (t c : Nat) (s : State) : exec (.hins t c) s = execHins t c s := rfl

theorem exec_hlook (t c : Nat) (s : State) : exec (.hlook t c) s = execHlook t c s := rfl

end Sys2Proof.Machine

namespace Sys2Proof.Proofs
open Sys2Proof.Machine Sys2Proof.Claims

/-- Settles O28: each clause is what the command's work comes to; one at an engine without power is refused before it begins. -/
theorem coordinateEngine : Obligations.CoordinateEngine := by
  intro t c d s s₁ s₂ s₃ s₄ s₅ x h hi ho bs keys inp out
  simp only [exec_voxel, exec_rbbuild, exec_hins, exec_hlook]
  have refuses {opc : Nat} {f : State → Who → Cmd → Eng (Nat × Nat)} :
      Runs s t c 1 opc .takenUp x ∧ s.engineLost x = true →
        (.next (coordinate opc t c s f) : Host.Outcome State Fault Refusal) = .next (s.refuseCmd t c) :=
    fun ⟨hx, hlost⟩ => congrArg Host.Outcome.next (coordinate_refused hx hlost)
  exact ⟨fun ⟨hx, hpower, hnear⟩ => execVoxel_ends rfl hx hpower hnear rfl rfl rfl rfl,
    fun ⟨hx, hpower, hnear⟩ => execHins_ends rfl hpower hnear hx,
    fun ⟨hx, hpower, hnear⟩ => execHlook_ends rfl hpower hnear hx,
    fun ⟨hx, hpower, hnear⟩ => execHlook_fails_check rfl hpower hnear hx,
    fun ⟨hx, hpower, hnear⟩ => execRbbuild_refused_of_hostBooks rfl hx hpower hnear,
    fun _ _ ⟨hx, hpower, hnear⟩ hdevice hinHead houtHead hin hout hinvalid hinKeys houtKeys hroom hbook hend =>
      hend ▸ execRbbuild_ends rfl hx hpower hnear rfl rfl rfl hdevice hinHead houtHead hin hout hinvalid hinKeys houtKeys hroom hbook,
    refuses, refuses, refuses, refuses⟩

end Sys2Proof.Proofs

/-! ## Walk programs and walks (R330 to R334) -/

namespace Sys2Proof.Machine

/-! ### Walk programs (R332) -/

section
variable {t c n i : Nat} {s s₁ s₂ : State} {x : Cmd} {bs : List Byte} {ws : List Word} {w : Who}
variable (hw : s.cmdWho t x (dieOfCore x.core) = w)
include hw

section
variable (hx : (s.team? t).bind (fun tm => tm.cmd? c) = some x) (hkind : x.kind = 3) (hopc : x.opc = 0) (hst : x.st = .launched)
  (hn : x.word 4 % 64 = n) (hws : (wordsOf 4 n bs).map (BitVec.ofNat 32) = ws)
  (hdram : s.needDram w .read 2 (addrOf x.words 2) (4 * n) = .ok s₁ ())
  (hread : s₁.eRead w (addrOf x.words 2) (4 * n) = .ok s₂ bs)
include hx hkind hopc hst hn hws hdram hread

theorem wloadHappening_takes (hgood : (ws.findIdx? fun y => !goodWop n y) = none) : wloadHappening t c s =
    (s₂.modCtx w.pf w.ctx fun z => { z with installs := z.installs ++ [(c, ws)] }).modCmd t c fun y => { y with st := .takenUp, stall := none } := by
  obtain ⟨tm, hteam, hcmd⟩ := Option.bind_eq_some_iff.1 hx
  simp only [wloadHappening, hteam, hcmd, hkind, hopc, hst, bne_self_eq_false, Bool.or_false, Bool.false_eq_true, if_false,
    hw, hn, hdram, Eng.ok_bind, hread, hws, hgood, State.settleCmd]

theorem wloadHappening_fails_check (hbad : (ws.findIdx? fun y => !goodWop n y) = some i) :
    wloadHappening t c s = s₂.applyCmd t c 0x0D 0 i := by
  obtain ⟨tm, hteam, hcmd⟩ := Option.bind_eq_some_iff.1 hx
  simp only [wloadHappening, hteam, hcmd, hkind, hopc, hst, bne_self_eq_false, Bool.or_false, Bool.false_eq_true, if_false,
    hw, hn, hdram, Eng.ok_bind, hread, hws, hbad, State.settleCmd]

end

theorem execWloadInstall_installs {tm : Team} (hteam : s.team? t = some tm) (hcmd : tm.cmd? c = some x) (hkind : x.kind = 3)
    (hopc : x.opc = 0) (hst : x.st = .takenUp) (hfree : s.earlier w (fun y => x.holdsSlot y || x.installs y) = false) :
    execWloadInstall t c s = .next
      (((s.modCtx w.pf w.ctx fun z => { z with
          slots := setNth (wloadSlot x) (some ((lookup c (s.ctx w.pf w.ctx).installs).getD [])) z.slots
          installs := z.installs.filter fun y => y.1 != c }).modLaunch tm.launch fun l =>
        { l with slotsLoaded := insertNat (wloadSlot x) l.slotsLoaded }).applyCmd t c 0 0 0) := by
  simp only [execWloadInstall, hteam, hcmd, hkind, hopc, hst, hw, hfree, bne_self_eq_false, Bool.or_false, Bool.false_eq_true, if_false]

end

/-! ### Walks (R333, R334) -/

section
variable {t c n m : Nat} {s s₁ : State} {x : Cmd} {prog : List Word} {k : Walk} {y : Site} {w : Who}

/-- R333: a walk whose slot holds a program, and whose root is served by an engine that has room, starts there. -/
theorem State.walkStart_enters (hw : s.cmdWho t x (dieOfCore x.core) = w)
    (hfree : s.earlier w (fun y => y.opc == 0 && wloadSlot y == walkSlot x &&
      (y.st == .launched || y.st == .takenUp) && y.order < x.order) = false)
    (hslot : (s.ctx w.pf w.ctx).slots.getD (walkSlot x) none = some prog)
    (hroot : s.walkAt w (addrOf x.words 4) = .ok s₁ y)
    (hroom : s₁.walksAt (mazeOf y.place) true < 64) :
    s.walkStart t x = s₁.modCmd t x.id fun z => { z with
      st := .takenUp, idx := mazeOf y.place, stall := none
      walk := some { maze := mazeOf y.place, x := [BitVec.ofNat 64 (x.word 3 * 2 ^ 32 + x.word 2), 0, 0, 0], node := addrOf x.words 4
                     flag := false, op := 0, steps := 1, ops := 0, prog, handoff := none, handed := false } } := by
  simp only [State.walkStart, hw, hfree, Bool.false_eq_true, if_false, hslot, State.walkRoot, hroot, State.walkEnter,
    if_neg (Nat.not_le.2 hroom), Nat.mul_comm]

theorem execWalk_starts (hx : s.cmdAt t c 3 1 .launched = some x) : execWalk t c n s = .next (s.walkStart t x) := by
  simp only [execWalk, hx]

section
variable (hx : s.cmdAt t c 3 1 .takenUp = some x) (hwalk : x.walk = some k)
include hx hwalk

theorem execWalk_goes_on (hnone : s.cmdAt t c 3 1 .launched = none) :
    execWalk t c n s = .next (s.walkGo (s.cmdWho t x (k.maze / 16)) t x (n + 1) k) := by
  simp only [execWalk, hx, hnone, hwalk]

theorem execWalkHandoff_arrives (hhandoff : k.handoff = some m) (hroom : s.walksAt m false < 64) : execWalkHandoff t c s = .next
    (s.modCmd t c fun y => { y with walk := some { k with maze := m, handoff := none, handed := true } }) := by
  simp only [execWalkHandoff, hx, hwalk, hhandoff, if_neg (Nat.not_le.2 hroom)]

end
end

theorem exec_wload (t c : Nat) (s : State) : exec (.wload t c) s = .next (wloadHappening t c s) := rfl

theorem exec_wloadInstall (t c : Nat) (s : State) : exec (.wloadInstall t c) s = execWloadInstall t c s := rfl

theorem exec_walk (t c n : Nat) (s : State) : exec (.walk t c n) s = execWalk t c n s := rfl

theorem exec_walkHandoff (t c : Nat) (s : State) : exec (.walkHandoff t c) s = execWalkHandoff t c s := rfl

end Sys2Proof.Machine

namespace Sys2Proof.Proofs
open Sys2Proof.Machine

/-- Settles O30: the words of a program decide its check, the commands before it its install; a walk starts at an engine with room, and
goes on there until it is handed to another. -/
theorem mazeEngine : Obligations.MazeEngine := by
  intro t c n i s s₁ s₂ x bs prog k y m
  simp only [exec_wload, exec_wloadInstall, exec_walk, exec_walkHandoff, Host.Outcome.next.injEq]
  exact ⟨fun ⟨hx, hkind, hopc, hst, hdram, hread⟩ => wloadHappening_takes rfl hx hkind hopc hst rfl rfl hdram hread,
    fun ⟨hx, hkind, hopc, hst, hdram, hread⟩ => wloadHappening_fails_check rfl hx hkind hopc hst rfl rfl hdram hread,
    fun _ => execWloadInstall_installs rfl,
    fun hx hfree hslot hroot hroom =>
      (execWalk_starts hx).trans (congrArg Host.Outcome.next (State.walkStart_enters rfl hfree hslot hroot hroom)),
    fun hx hnone hwalk => execWalk_goes_on hx hwalk hnone,
    fun hx hwalk => execWalkHandoff_arrives hx hwalk⟩

end Sys2Proof.Proofs

/-! ## What every step keeps of the firmware floor (R397) -/

namespace Sys2Proof.Proofs
open Sys2Proof.Machine

/-- Settles O60: the floor as it stands is a bound that every operation keeps. -/
theorem floorNeverFalls : Obligations.FloorNeverFalls := fun s _ h =>
  (step_next_held (c := false) (n := s.fw.floor) ⟨nofun, Nat.le_refl _⟩ h).2

end Sys2Proof.Proofs

/-! ## Entry into the trap routine (R82, R199, R454, R457) -/

namespace Sys2Proof.Machine
open Sys2Proof.Claims

/-! What stands where an element, a team or a fragment has been changed. -/

theorem find_modWhere_first {α : Type} {p : α → Bool} {f : α → α} {l : List α} {a : α} (h : l.find? p = some a) (hf : p (f a) = true) :
    (modWhere p f l).find? p = some (f a) := by
  induction l with
  | nil => exact absurd h nofun
  | cons x l ih =>
    cases hx : p x
    · rw [List.find?_cons_of_neg (by simp [hx])] at h
      simpa [modWhere, hx] using ih h
    · obtain rfl : x = a := by simpa [List.find?_cons, hx] using h
      simp [modWhere, hx, hf]

theorem State.id_of_team? {s : State} {t : Nat} {tm : Team} (h : s.team? t = some tm) : tm.id = t :=
  eq_of_beq (List.find?_some (p := fun x : Team => x.id == t) h)

theorem State.team?_modTeam_of {s : State} {t : Nat} {tm : Team} {f : Team → Team} (h : s.team? t = some tm) (hid : (f tm).id = tm.id) :
    (s.modTeam t f).team? t = some (f tm) :=
  find_modWhere_first h (beq_iff_eq.2 (hid.trans (State.id_of_team? h)))

theorem State.team_of_team? {s : State} {t : Nat} {tm : Team} (h : s.team? t = some tm) : s.team t = tm := by
  rw [State.team, h, Option.getD_some]

theorem State.of_env {s : State} {e : Env} (h : s.env? = some e) : s.team? e.t = some e.tm ∧ e.tm.frag? e.g = some e.fr := by
  unfold State.env? at h
  split at h
  · cases h
  · rename_i tm hteam
    split at h
    · cases h
    · rename_i fr hfrag
      split at h
      · cases h
      · cases h
        have hg : fr.id = s.cur.frag := eq_of_beq (List.find?_some (p := fun x : Frag => x.id == s.cur.frag) hfrag)
        exact ⟨(congrArg s.team? (State.id_of_team? hteam)).trans hteam, (congrArg tm.frag? hg).trans hfrag⟩

theorem Team.frag_modFrag {tm : Team} {g : Nat} {fr : Frag} {f : Frag → Frag} (h : tm.frag? g = some fr) (hf : (f fr).id = g) :
    (tm.modFrag g f).frag g = f fr := by
  rw [Team.frag, Team.frag?, Team.modFrag, find_modWhere_first h (beq_iff_eq.2 hf), Option.getD_some]

/-! R82: the position that the instruction took goes. -/

theorem Frag.uncount_eq (fr : Frag) : fr.uncount =
    { fr with claim := 0, bounds := [], counted := false, win := if fr.counted then fr.win.drop 1 else fr.win } := by
  unfold Frag.uncount
  cases h : fr.counted <;> rfl

theorem Frag.uncount_win_subset (fr : Frag) : fr.uncount.win ⊆ fr.win := by
  rw [Frag.uncount_eq]
  split_ifs
  · exact List.drop_subset ..
  · exact List.Subset.refl _

@[simp] theorem Frag.uncount_id (fr : Frag) : fr.uncount.id = fr.id := by rw [Frag.uncount_eq]
@[simp] theorem Frag.uncount_warp (fr : Frag) : fr.uncount.warp = fr.warp := by rw [Frag.uncount_eq]
@[simp] theorem Frag.uncount_mem (fr : Frag) : fr.uncount.mem = fr.mem := by rw [Frag.uncount_eq]
@[simp] theorem Frag.uncount_grp (fr : Frag) : fr.uncount.grp = fr.grp := by rw [Frag.uncount_eq]
@[simp] theorem Frag.uncount_rep (fr : Frag) : fr.uncount.rep = fr.rep := by rw [Frag.uncount_eq]
@[simp] theorem Frag.uncount_priv (fr : Frag) : fr.uncount.priv = fr.priv := by rw [Frag.uncount_eq]

section
variable (e : Env)
@[simp] theorem Env.uncount_t : ({ e with fr := e.fr.uncount } : Env).t = e.t := rfl
@[simp] theorem Env.uncount_g : ({ e with fr := e.fr.uncount } : Env).g = e.g := e.fr.uncount_id
@[simp] theorem Env.uncount_region : ({ e with fr := e.fr.uncount } : Env).region = e.region := congrArg Option.isSome e.fr.uncount_grp
@[simp] theorem Env.uncount_whole : ({ e with fr := e.fr.uncount } : Env).whole = e.whole := by
  simp only [Env.whole, Env.uncount_region, Frag.uncount_warp, Frag.uncount_mem]
  rfl
end

theorem Team.late_modFrag {tm : Team} {g : Nat} {fr : Frag} {f : Frag → Frag} (h : tm.frag? g = some fr) (hid : (f fr).id = g)
    (hmem : (f fr).mem = fr.mem) : (tm.modFrag g f).late g = tm.late g := by
  have hfrag : tm.frag g = fr := by rw [Team.frag, h, Option.getD_some]
  unfold Team.late
  rw [Team.frag_modFrag h hid, hfrag]
  dsimp only
  rw [hmem]
  rfl

/-! R457: what trap entry writes into the registers. -/

theorem setNth_eq_set {α : Type} (n : Nat) (a : α) (l : List α) : setNth n a l = l.set n a := by
  unfold setNth
  induction l generalizing n with
  | nil => cases n <;> rfl
  | cons x l ih => cases n with
    | zero => rfl
    | succ n => exact congrArg (x :: ·) (ih n)

/-- v0 to v2 of a thread's registers as trap entry leaves them. -/
def trapWords (va cause : Nat) (v : List Word) : List Word :=
  ((v.set 0 (BitVec.ofNat 32 va)).set 1 (BitVec.ofNat 32 (va / 2 ^ 32))).set 2 (BitVec.ofNat 32 cause)

theorem trapWords_twice (va cause : Nat) (v : List Word) : trapWords va cause (trapWords va cause v) = trapWords va cause v := by
  rcases v with _ | ⟨a, _ | ⟨b, _ | ⟨c, v⟩⟩⟩ <;> rfl

theorem getElem?_trapWords_above {va cause r : Nat} (v : List Word) (hr : 3 ≤ r) : (trapWords va cause v)[r]? = v[r]? := by
  rw [trapWords, List.getElem?_set_ne (by omega), List.getElem?_set_ne (by omega), List.getElem?_set_ne (by omega)]

theorem getElem?_trapWords_below {va cause : Nat} {v : List Word} (hv : 3 ≤ v.length) :
    (trapWords va cause v)[0]? = some (BitVec.ofNat 32 va) ∧ (trapWords va cause v)[1]? = some (BitVec.ofNat 32 (va / 2 ^ 32)) ∧
    (trapWords va cause v)[2]? = some (BitVec.ofNat 32 cause) := by
  rcases v with _ | ⟨a, _ | ⟨b, _ | ⟨c, v⟩⟩⟩
  iterate 3 exact absurd hv (by simp)
  exact ⟨rfl, rfl, rfl⟩

section
variable {tm : Team} (mem : List Member) (va cause : Nat)

/-- Trap entry changes threads alone, and makes none. -/
theorem Team.trapRegs_eq : ∃ ths, tm.trapRegs mem va cause = { tm with threads := ths } := by
  induction mem generalizing tm with
  | nil => exact ⟨tm.threads, rfl⟩
  | cons m mem ih => exact ih (tm := tm.modThread m.tid _)

theorem Team.trapRegs_thread {i : Nat} (hi : i < tm.threads.length) :
    ((tm.trapRegs mem va cause).thread i).v =
      (if i ∈ mem.map (·.tid) then trapWords va cause (tm.thread i).v else (tm.thread i).v) ∧
    ((tm.trapRegs mem va cause).thread i).p = (tm.thread i).p := by
  induction mem generalizing tm with
  | nil => exact ⟨rfl, rfl⟩
  | cons m mem ih =>
    set tm' := tm.modThread m.tid fun th =>
      ((th.setV 0 (BitVec.ofNat 32 va)).setV 1 (BitVec.ofNat 32 (va / 2 ^ 32))).setV 2 (BitVec.ofNat 32 cause) with htm'
    have hlen : i < tm'.threads.length := by rwa [htm', Team.modThread, length_modNth]
    obtain ⟨hv, hp⟩ := ih hlen
    change ((tm'.trapRegs mem va cause).thread i).v = _ ∧ ((tm'.trapRegs mem va cause).thread i).p = _
    rw [hv, hp, htm', Team.thread_modThread]
    by_cases him : i = m.tid
    · subst him
      simp only [true_and, if_pos hi, List.map_cons, List.mem_cons, true_or, if_true, Thread.setV, setNth_eq_set, and_true]
      change (if _ then trapWords va cause (trapWords va cause (tm.thread m.tid).v) else trapWords va cause (tm.thread m.tid).v) = _
      rw [trapWords_twice, ite_self]
    · simp only [him, false_and, if_false, List.map_cons, List.mem_cons, false_or, and_self]

end

/-- R457: nothing is forwarded, so nothing of the window reaches a register. -/
theorem Team.materialize_nothing (tm : Team) {fr : Frag} (whole : Bool) (h : ∀ y ∈ fr.win, y.fwd = []) : tm.materialize fr whole = tm :=
  List.foldlRecOn _ _ (motive := (· = tm)) rfl fun _ htm y hy => by rw [h y (List.mem_reverse.1 hy), List.foldl_nil, htm]

/-! R105: of a team, an emptied L1 concerns what its speculators have read. -/

theorem State.dropL1_team? {s : State} {t : Nat} {tm : Team} (c : Nat) (h : s.team? t = some tm) :
    ∃ ws, (s.dropL1 c).team? t = some { tm with warps := ws } ∧ ws.length = tm.warps.length := by
  have hfind : ∀ (f : Team → Team), (∀ x, (f x).id = x.id) → (s.teams.map f).find? (·.id == t) = some (f tm) := fun f hf => by
    have hcomp : ((fun x : Team => x.id == t) ∘ f) = fun x => x.id == t := funext fun x => by rw [Function.comp_apply, hf]
    rw [List.find?_map, hcomp, show s.teams.find? (·.id == t) = some tm from h, Option.map_some]
  unfold State.dropL1 State.untag State.team?
  refine (em (tm.core = c ∨ tm.core + 1 = c)).elim (fun hc => ?near) fun hc => ?other
  case near =>
    refine ⟨_, (hfind _ fun x => ?_).trans (congrArg some (if_pos ?_)), ?_⟩
    · dsimp only; split <;> rfl
    · simpa using hc
    · rw [List.length_map, List.length_zipIdx]
  case other =>
    refine ⟨tm.warps, (hfind _ fun x => ?_).trans (congrArg some (if_neg ?_)), rfl⟩
    · dsimp only; split <;> rfl
    · simpa using hc

/-! R457: the team of a fragment that enters its trap routine. -/

section
variable (e : Env) (x : TrapInfo)

/-- The registers of the fragment's threads are written, and it stands at TRAP. -/
def Env.trapTeam (tm : Team) : Team :=
  (tm.trapRegs e.fr.mem (e.ln.headVa e.tm.num e.fr.warp) (causeWord x e.fr.rep.isSome e.whole e.region false)).modFrag e.g fun fr =>
    fr.enter e.hdr.trap e.whole (tm.covered e.fr.mem) (tm.coveredX (tm.covered e.fr.mem))

variable {tm : Team}

theorem Env.trapTeam_id : (e.trapTeam x tm).id = tm.id := by
  obtain ⟨ths, hths⟩ := tm.trapRegs_eq e.fr.mem (e.ln.headVa e.tm.num e.fr.warp) (causeWord x e.fr.rep.isSome e.whole e.region false)
  rw [Env.trapTeam, hths, Team.modFrag]

theorem Env.trapTeam_warp (w : Nat) : (e.trapTeam x tm).warp w = tm.warp w := by
  obtain ⟨ths, hths⟩ := tm.trapRegs_eq e.fr.mem (e.ln.headVa e.tm.num e.fr.warp) (causeWord x e.fr.rep.isSome e.whole e.region false)
  rw [Env.trapTeam, hths]
  rfl

theorem Env.trapTeam_frag {fr : Frag} (h : tm.frag? e.g = some fr) (hid : fr.id = e.g) :
    ∃ kept keptX, (e.trapTeam x tm).frag e.g = fr.enter e.hdr.trap e.whole kept keptX := by
  obtain ⟨ths, hths⟩ := tm.trapRegs_eq e.fr.mem (e.ln.headVa e.tm.num e.fr.warp) (causeWord x e.fr.rep.isSome e.whole e.region false)
  rw [Env.trapTeam, hths]
  exact ⟨_, _, Team.frag_modFrag h hid⟩

theorem Env.trapTeam_thread {m : Member} (hm : m ∈ e.fr.mem) (htid : m.tid < tm.threads.length) :
    ((e.trapTeam x tm).thread m.tid).v = trapWords (e.ln.headVa e.tm.num e.fr.warp)
      (causeWord x e.fr.rep.isSome e.whole e.region false) (tm.thread m.tid).v ∧
    ((e.trapTeam x tm).thread m.tid).p = (tm.thread m.tid).p := by
  obtain ⟨hv, hp⟩ := tm.trapRegs_thread e.fr.mem (e.ln.headVa e.tm.num e.fr.warp)
    (causeWord x e.fr.rep.isSome e.whole e.region false) htid
  exact ⟨hv.trans (if_pos (List.mem_map_of_mem hm)), hp⟩

end

section
variable {s s₁ : State} {e : Env} {x : TrapInfo}

/-- R454: the frame is written, and the fragment is at TRAP. -/
theorem State.enterTrap_routine (hlate : x.late = false) (hhost : ((settledOf s e).ctx e.pf (e.ctx (settledOf s e))).hostTraps = false)
    (htrap : e.hdr.trap ≠ 0) (hframe : (settledOf s e).writeFrame e x false = .ok s₁) (hwin : ∀ y ∈ e.fr.win, y.fwd = []) :
    s.enterTrap e x = ((s₁.dropL1 e.core).modWarp e.t e.fr.warp fun wp => { wp with frame := true, repcnt := e.repcnt }).modTeam e.t
      (e.trapTeam x) := by
  simp only [State.enterTrap, ← settledOf.eq_1, hhost, hframe, State.afterSave, hlate, htrap, Bool.false_eq_true, if_false,
    Team.materialize_nothing _ _ hwin]
  rfl

/-- R454: of the team, the frame's writes and the emptied L1 have left its fragments and threads as they were, and its warp's frame is
taken. -/
theorem State.entered_team {tm : Team} (hteam : s₁.team? e.t = some tm) (hwarp : e.fr.warp < tm.warps.length) :
    ∃ tm₁, (((s₁.dropL1 e.core).modWarp e.t e.fr.warp fun wp => { wp with frame := true, repcnt := e.repcnt }).modTeam e.t
      (e.trapTeam x)).team e.t = e.trapTeam x tm₁ ∧
      tm₁.frags = tm.frags ∧ tm₁.threads = tm.threads ∧ (tm₁.warp e.fr.warp).frame = true := by
  obtain ⟨ws, hdrop, hlen⟩ := State.dropL1_team? e.core hteam
  have hframe := State.team?_modTeam_of (f := fun tm => tm.modWarp e.fr.warp fun wp => { wp with frame := true, repcnt := e.repcnt }) hdrop rfl
  refine ⟨_, State.team_of_team? (State.team?_modTeam_of hframe (Env.trapTeam_id ..)), rfl, rfl, ?_⟩
  rw [Team.warp_modWarp, if_pos ⟨rfl, hlen ▸ hwarp⟩]

/-- R82, R453: in the normal mode, outside the privileged state and with the warp's frame free, a trap that no late report precedes
enters, its instruction having taken no position. -/
theorem State.raise_enters (henv : s.env? = some e) (hfar : s.far = []) (hmode : e.wp.mode = .normal) (hpriv : e.fr.priv = false)
    (hfree : e.wp.frame = false) (hnone : e.tm.late e.g = none) :
    s.raise e x = (s.modFrag e.t e.g Frag.uncount).enterTrap { e with fr := e.fr.uncount } x := by
  obtain ⟨hteam, hfrag⟩ := State.of_env henv
  have hcounted : (s.modFrag e.t e.g Frag.uncount).team e.t = e.tm.modFrag e.g Frag.uncount :=
    State.team_of_team? (State.team?_modTeam_of hteam rfl)
  have hlate : (e.tm.modFrag e.g Frag.uncount).late e.g = none :=
    (Team.late_modFrag hfrag e.fr.uncount_id e.fr.uncount_mem).trans hnone
  have hnormal : ((s.team e.t).warp e.fr.warp).mode = .normal := by rwa [State.team_of_team? hteam]
  have hwarp : ((e.tm.modFrag e.g Frag.uncount).warp e.fr.warp).frame = false := hfree
  have hdeliver : s.deliverFrag e.t e.g = s := by rw [State.deliverFrag, hfar]; rfl
  simp only [State.raise, hnormal, State.takeTrap, Env.uncount_t, Env.uncount_g, hdeliver, hcounted, hlate, Option.getD_none,
    Frag.uncount_priv, hpriv, Frag.uncount_warp, hwarp, Bool.false_eq_true, if_false]

end
end Sys2Proof.Machine

namespace Sys2Proof.Proofs
open Sys2Proof.Machine Sys2Proof.Claims

/-- Settles O56: the trap enters with its instruction uncounted, and of what the entry changes only its own writes concern the
fragment, its warp's frame and the registers of its threads. -/
theorem trapRoutineEntry : Obligations.TrapRoutineEntry := by
  intro info s s₁ e va e₀ s₀ hearly hfar henv hmode hpriv hfree hnone hwarp hwin hhost htrap hframe hteam s' tm fr
  have hs₀ : settledOf (s.modFrag e.t e.g Frag.uncount) e₀ = s₀ := congrArg (State.settle _ e.t) (Env.uncount_g e)
  have henter := (State.raise_enters (x := info) henv hfar hmode hpriv hfree hnone).trans
    (State.enterTrap_routine (e := e₀) hearly (hs₀ ▸ hhost) htrap (hs₀ ▸ hframe) fun y hy => hwin y (e.fr.uncount_win_subset hy))
  obtain ⟨tm₁, hentered, hfrags, hthreads, htaken⟩ := State.entered_team (e := e₀) (x := info) hteam
    (e.fr.uncount_warp.trans_lt hwarp)
  have htm : tm = e₀.trapTeam info tm₁ := (congrArg (State.team · e.t) henter).trans hentered
  have hfrag : tm₁.frag? e.g = some e.fr.uncount := by
    rw [Team.frag?, hfrags]
    exact find_modWhere_first (State.of_env henv).2 (beq_iff_eq.2 e.fr.uncount_id)
  obtain ⟨kept, keptX, hfr⟩ := e₀.trapTeam_frag info (e.uncount_g.symm ▸ hfrag) rfl
  have hfr : fr = e.fr.uncount.enter e.hdr.trap e₀.whole kept keptX := by
    rw [← htm] at hfr
    exact (congrArg tm.frag e.uncount_g.symm).trans hfr
  have hthread (i : Nat) : tm₁.thread i = e.tm.thread i := by rw [Team.thread, hthreads]; rfl
  rw [hfr, htm, Env.trapTeam_warp]
  refine ⟨rfl, rfl, rfl, rfl, rfl, e.fr.uncount_mem, e.fr.uncount_warp ▸ htaken, fun m hm htid hv => ?_⟩
  obtain ⟨hwords, hpreds⟩ := e₀.trapTeam_thread info (tm := tm₁) (e.fr.uncount_mem.symm ▸ hm) (hthreads ▸ htid)
  rw [hwords, hpreds, hthread, show causeWord info e₀.fr.rep.isSome e₀.whole e₀.region false =
    causeWord info e.fr.rep.isSome e.whole e.region false by rw [Frag.uncount_rep, Env.uncount_whole, Env.uncount_region]]
  obtain ⟨h0, h1, h2⟩ := getElem?_trapWords_below (va := e₀.ln.headVa e₀.tm.num e₀.fr.warp)
    (cause := causeWord info e.fr.rep.isSome e.whole e.region false) hv
  rw [h0, h1, h2, Frag.uncount_warp]
  exact ⟨rfl, rfl, rfl, fun r hr => getElem?_trapWords_above _ hr, rfl⟩

end Sys2Proof.Proofs

/-! ## The registers of the host's window (R339, R369, R374, R389, R392, R492) -/

namespace Sys2Proof.Machine

theorem deviceDies_length (mode pf : Nat) : (deviceDies mode pf).length ≤ 4 := by
  unfold deviceDies
  split
  · split_ifs <;> simp
  · split_ifs <;> simp
  · split_ifs <;> simp
  · exact Nat.zero_le 4

section
variable {s : State} {pf off width : Nat} {v : DWord}

/-! R369: a write of a register's own width reaches it. -/

theorem exec_registerWrite (pf bar off width : Nat) (v : DWord) (s : State) :
    exec (.registerWrite pf bar off width v) s = .next (if s.hostUp then s.writeRegister pf bar off width v else s) := rfl

theorem writeRegister_bar0 (hreg : (off, width) ∈ bar0Registers (s.devDies pf).length pf) :
    s.writeRegister pf 0 off width v = s.writeBar0 pf off v :=
  if_pos (List.contains_iff_mem.2 hreg)

theorem writeRegister_other (hreg : (off, width) ∉ bar0Registers (s.devDies pf).length pf) : s.writeRegister pf 0 off width v = s :=
  if_neg (mt List.contains_iff_mem.1 hreg)

theorem registerWrite_bar0 (hup : s.hostUp = true) (hreg : (off, width) ∈ bar0Registers (s.devDies pf).length pf) :
    exec (.registerWrite pf 0 off width v) s = .next (s.writeBar0 pf off v) := by
  rw [exec_registerWrite, if_pos hup, writeRegister_bar0 hreg]

/-- What changes nothing where it reaches its register changes nothing at all. -/
theorem registerWrite_dropped (h : (off, width) ∈ bar0Registers (s.devDies pf).length pf → s.writeBar0 pf off v = s) :
    exec (.registerWrite pf 0 off width v) s = .next s := by
  by_cases hreg : (off, width) ∈ bar0Registers (s.devDies pf).length pf
  · rw [exec_registerWrite, writeRegister_bar0 hreg, h hreg, ite_self]
  · rw [exec_registerWrite, writeRegister_other hreg, ite_self]

theorem registerRead_bar0 (hreg : (off, width) ∈ bar0Registers (s.devDies pf).length pf) :
    s.registerRead pf 0 off width = leBytes width (s.bar0Value pf off) :=
  if_pos (c := (bar0Registers (s.devDies pf).length pf).contains (off, width) = true) (List.contains_iff_mem.2 hreg)

/-! Which registers there are. -/

theorem ctxAddr_mem (n pf : Nat) : (0x20, 8) ∈ bar0Registers n pf := by simp [bar0Registers]
theorem ctxCmd_mem (n pf : Nat) : (0x28, 4) ∈ bar0Registers n pf := by simp [bar0Registers]

theorem sysstat_mem (h : s.devDies pf ≠ []) : (0x70, 4) ∈ bar0Registers (s.devDies pf).length pf := by simp [bar0Registers, h]
theorem cap_mem (h : s.devDies pf ≠ []) : (0x100, 4) ∈ bar0Registers (s.devDies pf).length pf := by simp [bar0Registers, h]

/-- The TIME registers end before SYSSTAT, of whatever device. -/
theorem sysstat_width (h : (0x70, width) ∈ bar0Registers (s.devDies pf).length pf) : width = 4 := by
  have hdies : (s.devDies pf).length ≤ 4 := deviceDies_length ..
  simp only [bar0Registers, timeRegisters, List.mem_append, List.mem_map, List.mem_range, List.mem_cons, Prod.mk.injEq,
    List.not_mem_nil, or_false, List.mem_ite_nil_right] at h
  rcases h with ((hfixed | ⟨i, hi, hoff, _⟩) | ⟨-, (hdevice | ⟨i, -, hoff, _⟩) | ⟨i, -, hoff, _⟩⟩) | hfw <;> omega

/-! ### PCAP and SYSSTAT (R389, R492) -/

theorem writeCap_in (hpf : pf = 0) {v : Word} (hlo : 150 ≤ v.toNat % 2 ^ 10) (hhi : v.toNat % 2 ^ 10 ≤ 550) :
    s.writeCap pf v = s.endDue.modPower fun p => { p with capNext := v.toNat % 2 ^ 10 } := if_pos ⟨hpf, hlo, hhi⟩

theorem writeCap_out {v : Word} (h : v.toNat % 2 ^ 10 < 150 ∨ 550 < v.toNat % 2 ^ 10) : s.writeCap pf v = s :=
  if_neg fun ⟨_, hlo, hhi⟩ => h.elim (Nat.not_lt.2 hlo) (Nat.not_lt.2 hhi)

theorem toNat_setWidth_mod (v : DWord) : (v.setWidth 32).toNat % 2 ^ 10 = v.toNat % 2 ^ 10 := by
  rw [BitVec.toNat_setWidth]
  omega

theorem clearSticky_pf0 (v : Word) : s.clearSticky 0 v =
    { s with evdrop := s.evdrop && !v.getLsbD 3, pfail := s.pfail && !v.getLsbD 2, hld := s.hld && !v.getLsbD 1 } := if_pos rfl

theorem clearSticky_other (hpf : pf ≠ 0) (v : Word) : s.clearSticky pf v = s := if_neg hpf

theorem clearSticky_setWidth (v : DWord) : s.clearSticky 0 (v.setWidth 32) =
    { s with evdrop := s.evdrop && !v.getLsbD 3, pfail := s.pfail && !v.getLsbD 2, hld := s.hld && !v.getLsbD 1 } := by
  simp only [clearSticky_pf0, BitVec.getLsbD_setWidth, Nat.reduceLT, decide_true, Bool.true_and]

theorem exec_pcap (pf : Nat) (v : Word) (s : State) : exec (.pcap pf v) s = .next (if s.hostUp then s.writeCap pf v else s) := rfl

theorem exec_sysstat (pf : Nat) (v : Word) (s : State) :
    exec (.sysstat pf v) s = .next (if s.hostUp then s.clearSticky pf v else s) := rfl

/-! ### CTXADDR and CTXCMD (R369) -/

theorem writeBar0_ctxAddr (hidle : s.ctxBusy pf = false) : s.writeBar0 pf 0x20 v = s.modWindow pf fun x => { x with ctxAddr := v } :=
  if_neg (Bool.eq_false_iff.1 hidle)

theorem writeBar0_ctxCmd (hidle : s.ctxBusy pf = false) :
    s.writeBar0 pf 0x28 v = s.modWindow pf fun x => { x with cmd := some (v.toNat % 2 ^ 32) } :=
  (if_neg (Bool.eq_false_iff.1 hidle)).trans (by rw [BitVec.toNat_setWidth])

theorem writeBar0_busy (hbusy : s.ctxBusy pf = true) : s.writeBar0 pf 0x20 v = s ∧ s.writeBar0 pf 0x28 v = s :=
  ⟨if_pos hbusy, if_pos hbusy⟩

end

/-! ### The aperture (R374, R482) -/

section
variable {s : State} {pf off p : Nat} {bs : List Byte} (hplace : s.bar4Place pf off = some p) (hreach : s.hostReaches (homeDie p) = true)
include hplace hreach

theorem bar4_read (hgood : s.bar4Bad pf off bs.length = false) : s.bar4 pf off bs .read =
    { s.conflictRange p bs.length false with answers := s.answers ++ [.bytes (s.bar4Bytes pf off bs.length)] } := by
  simp only [State.bar4, hplace, hreach, hgood, Bool.not_true, Bool.false_eq_true, if_false]

theorem bar4_read_bad (hbad : s.bar4Bad pf off bs.length = true) :
    s.bar4 pf off bs .read = { s with answers := s.answers ++ [.completerAbort] } := by
  simp only [State.bar4, hplace, hreach, hbad, Bool.not_true, Bool.false_eq_true, if_false, if_true]

theorem bar4_write : s.bar4 pf off bs .write = s.bar4Write pf off bs := by
  simp only [State.bar4, hplace, hreach, Bool.not_true, Bool.false_eq_true, if_false]

theorem bar4_swap : s.bar4 pf off bs .swap = s.bar4Atomic pf off bs .swap := by
  simp only [State.bar4, hplace, hreach, Bool.not_true, Bool.false_eq_true, if_false]

end

theorem exec_bar4Access (pf off : Nat) (bs : List Byte) (op : HostOp) (s : State) :
    exec (.bar4Access pf off bs op) s = .next (s.bar4 pf off bs op) := rfl

/-! ### Doorbells (R24, R339) -/

section
variable {s : State} {pf q : Nat} {x : Queue} {v : Word}

theorem ringDoorbell_unserved (hport : s.portServes = false) : s.ringDoorbell pf q v = s := by
  rw [State.ringDoorbell, hport]; rfl

variable (hport : s.portServes = true) (hx : s.queue? pf q = some x)
include hport hx

/-- A value that takes no slot back moves the tail. -/
theorem ringDoorbell_eq : s.ringDoorbell pf q v =
    if v.toNat < 2 ^ x.log ∧ (x.tail + 2 ^ x.log - x.head) % 2 ^ x.log ≤ (v.toNat + 2 ^ x.log - x.head) % 2 ^ x.log then
      s.modQueue pf q fun x => { x with tail := v.toNat }
    else s.queueEvent pf q 0 0x05 (2 ^ 32 + v.toNat) := by
  simp only [State.ringDoorbell, hport, hx, Bool.not_true, Bool.false_eq_true, if_false]

end

theorem exec_doorbell (pf q : Nat) (v : Word) (s : State) : exec (.doorbell pf q v) s = .next (s.ringDoorbell pf q v) := rfl

/-! ### The bits of SYSSTAT (R492) -/

theorem testBit_foldl_or (l : List Nat) (a j : Nat) :
    (l.foldl (fun acc i => acc ||| 2 ^ i) a).testBit j = (a.testBit j || l.contains j) := by
  induction l generalizing a with
  | nil => simp
  | cons i l ih =>
    rw [List.foldl_cons, ih, Nat.testBit_or, Nat.testBit_two_pow, List.contains_cons, Bool.or_assoc,
      decide_eq_decide.2 (eq_comm (a := i) (b := j))]
    rfl

theorem testBit_maskOf (l : List Nat) (j : Nat) : (maskOf l).testBit j = l.contains j := by
  rw [maskOf, testBit_foldl_or, Nat.zero_testBit, Bool.false_or]

theorem maskOf_lt {l : List Nat} {n : Nat} (h : ∀ i ∈ l, i < n) : maskOf l < 2 ^ n :=
  Nat.lt_pow_two_of_testBit _ fun i hi => by
    rw [testBit_maskOf, Bool.eq_false_iff]
    exact fun hmem => Nat.not_lt.2 hi (h i (List.contains_iff_mem.1 hmem))

theorem testBit_maskOf_filter {p : Nat → Bool} {n d : Nat} (h : d < n) : (maskOf ((List.range n).filter p)).testBit d = p d := by
  rw [testBit_maskOf]
  cases hp : p d <;> simp [h, hp]

theorem maskOf_filter_lt (p : Nat → Bool) (n : Nat) : maskOf ((List.range n).filter p) < 2 ^ n :=
  maskOf_lt fun _ hi => List.mem_range.1 (List.mem_filter.1 hi).1

theorem bit_lt (b : Bool) : bit b < 2 ^ 1 := by cases b <;> decide

theorem testBit_bit (b : Bool) : (bit b).testBit 0 = b := by cases b <;> rfl

/-- R492: SYSSTAT is made up of five fields of a bit for each die, or link, and of three sticky bits. -/
theorem sysstat_eq (s : State) : s.sysstat =
    maskOf ((List.range 4).filter fun d => (s.die d).off) * 2 ^ 28 + maskOf ((List.range 4).filter fun d => (s.die d).halted) * 2 ^ 24
      + maskOf ((List.range 4).filter fun k => (s.link k).failed) * 2 ^ 20
      + maskOf ((List.range 4).filter fun d => (s.die d).dout) * 2 ^ 16
      + maskOf ((List.range 4).filter fun d => !(s.die d).quadLost.isEmpty) * 2 ^ 12
      + bit s.evdrop * 8 + bit s.pfail * 4 + bit s.hld * 2 := rfl

/-- The bits of a field of `m` bits at bit `k`. -/
theorem testBit_field {n k m j x : Nat} (hx : n / 2 ^ k % 2 ^ m = x) (hj : j < m) : n.testBit (k + j) = x.testBit j := by
  rw [← hx, Nat.testBit_mod_two_pow, decide_eq_true hj, Bool.true_and, Nat.testBit_div_two_pow, Nat.add_comm]

theorem status_fields {n off halted failed dout lost ev pf hl : Nat}
    (hn : n = off * 2 ^ 28 + halted * 2 ^ 24 + failed * 2 ^ 20 + dout * 2 ^ 16 + lost * 2 ^ 12 + ev * 8 + pf * 4 + hl * 2)
    (hoff : off < 2 ^ 4) (hhalted : halted < 2 ^ 4) (hfailed : failed < 2 ^ 4) (hdout : dout < 2 ^ 4) (hlost : lost < 2 ^ 4)
    (hev : ev < 2 ^ 1) (hpf : pf < 2 ^ 1) (hhl : hl < 2 ^ 1) :
    n < 2 ^ 32 ∧ n / 2 ^ 28 % 2 ^ 4 = off ∧ n / 2 ^ 24 % 2 ^ 4 = halted ∧ n / 2 ^ 20 % 2 ^ 4 = failed ∧ n / 2 ^ 16 % 2 ^ 4 = dout ∧
    n / 2 ^ 12 % 2 ^ 4 = lost ∧ n / 2 ^ 3 % 2 ^ 1 = ev ∧ n / 2 ^ 2 % 2 ^ 1 = pf ∧ n / 2 ^ 1 % 2 ^ 1 = hl ∧
    n / 2 ^ 0 % 2 ^ 1 = 0 ∧ n / 2 ^ 4 % 2 ^ 8 = 0 := by
  omega

/-- R492: what each bit of SYSSTAT says. -/
theorem sysstat_bits (s : State) {d : Nat} (hd : d < 4) :
    s.sysstat < 2 ^ 32 ∧
    s.sysstat.testBit (28 + d) = (s.die d).off ∧ s.sysstat.testBit (24 + d) = (s.die d).halted ∧
    s.sysstat.testBit (20 + d) = (s.link d).failed ∧ s.sysstat.testBit (16 + d) = (s.die d).dout ∧
    s.sysstat.testBit (12 + d) = !(s.die d).quadLost.isEmpty ∧
    s.sysstat.testBit 3 = s.evdrop ∧ s.sysstat.testBit 2 = s.pfail ∧ s.sysstat.testBit 1 = s.hld ∧
    ∀ k, k = 0 ∨ (4 ≤ k ∧ k < 12) → s.sysstat.testBit k = false := by
  obtain ⟨hlt, hoff, hhalted, hfailed, hdout, hlost, hev, hpf, hhl, hzero, hgap⟩ := status_fields (sysstat_eq s)
    (maskOf_filter_lt ..) (maskOf_filter_lt ..) (maskOf_filter_lt ..) (maskOf_filter_lt ..) (maskOf_filter_lt ..)
    (bit_lt _) (bit_lt _) (bit_lt _)
  have hnibble {k : Nat} {p : Nat → Bool} (h : s.sysstat / 2 ^ k % 2 ^ 4 = maskOf ((List.range 4).filter p)) :
      s.sysstat.testBit (k + d) = p d := (testBit_field h hd).trans (testBit_maskOf_filter hd)
  have hsticky {k : Nat} {b : Bool} (h : s.sysstat / 2 ^ k % 2 ^ 1 = bit b) : s.sysstat.testBit k = b :=
    (testBit_field (j := 0) h Nat.one_pos).trans (testBit_bit b)
  refine ⟨hlt, hnibble hoff, hnibble hhalted, hnibble hfailed, hnibble hdout, hnibble hlost, hsticky hev, hsticky hpf, hsticky hhl, ?_⟩
  rintro k (rfl | ⟨hlo, hhi⟩)
  · exact hsticky (b := false) hzero
  · obtain ⟨j, rfl⟩ := Nat.exists_eq_add_of_le hlo
    rw [testBit_field hgap (by omega), Nat.zero_testBit]

end Sys2Proof.Machine

namespace Sys2Proof.Proofs
open Sys2Proof.Machine

/-- Settles O54: the register exists where the function leads a device, and the write reaches it with its own width. -/
theorem powerCap : Obligations.PowerCap := by
  have hread (s : State) (hdies : s.devDies 0 ≠ []) : s.registerRead 0 0 0x100 4 = leBytes 4 s.power.capNext :=
    registerRead_bar0 (cap_mem hdies)
  refine ⟨hread State.reset nofun, fun s v hup hdies => ⟨hread s hdies, fun hlo hhi => ?set, fun hout => ?dropped⟩⟩
  case set =>
    rw [registerWrite_bar0 hup (cap_mem hdies), ← toNat_setWidth_mod]
    exact congrArg Host.Outcome.next (writeCap_in rfl (toNat_setWidth_mod v ▸ hlo) (toNat_setWidth_mod v ▸ hhi))
  case dropped => exact registerWrite_dropped fun _ => writeCap_out (toNat_setWidth_mod v ▸ hout)

/-- Settles O55: the bits are those of `sysstat_bits`; a write has an effect through PF0 alone, and only with four bytes. -/
theorem systemStatus : Obligations.SystemStatus := by
  refine ⟨rfl, fun s v pf d k hd => ?_⟩
  obtain ⟨hlt, hoff, hhalted, hfailed, hdout, hlost, hev, hpf, hhl, hzero⟩ := sysstat_bits s hd
  exact ⟨fun hdies => registerRead_bar0 (sysstat_mem hdies), hlt, hoff, hhalted, hfailed, hdout, hlost, hev, hpf, hhl, hzero k,
    fun hup hdies => (registerWrite_bar0 hup (sysstat_mem hdies)).trans (congrArg Host.Outcome.next (clearSticky_setWidth v)),
    fun hother => registerWrite_dropped fun _ => clearSticky_other hother _,
    fun hk => registerWrite_dropped fun hmem => absurd (sysstat_width hmem) hk⟩

/-- Settles O36: a write reaches the register of its offset and width, an access of the aperture its place, and a doorbell the queue of
its number. -/
theorem registerWindows : Obligations.RegisterWindows := by
  intro pf off p width q v w bs s cap n hits
  simp only [exec_pcap, exec_sysstat, exec_bar4Access, exec_doorbell]
  refine ⟨fun hup hlo hhi => ?cap, fun hout => ?capDropped, fun hup => ?sticky, fun hother => ?stickyDropped,
    fun ⟨hplace, hreach⟩ hgood => congrArg _ (bar4_read hplace hreach hgood),
    fun ⟨hplace, hreach⟩ hbad => congrArg _ (bar4_read_bad hplace hreach hbad),
    fun ⟨hplace, hreach⟩ => congrArg _ (bar4_write hplace hreach),
    fun ⟨hplace, hreach⟩ => congrArg _ (bar4_swap hplace hreach),
    fun hup hidle => ⟨?address, ?command⟩,
    fun hbusy => ⟨registerWrite_dropped fun _ => (writeBar0_busy hbusy).1, registerWrite_dropped fun _ => (writeBar0_busy hbusy).2⟩,
    fun hnone => registerWrite_dropped fun hmem => absurd rfl (hnone _ hmem),
    fun hport => congrArg _ (ringDoorbell_unserved hport),
    fun x hport hx => ⟨fun hslot hahead => ?tail, fun hbad => ?badCommand⟩⟩
  case cap => rw [if_pos hup, writeCap_in rfl hlo hhi]
  case capDropped => rw [writeCap_out hout, ite_self]
  case sticky => rw [if_pos hup, clearSticky_pf0]
  case stickyDropped => rw [clearSticky_other hother, ite_self]
  case address => rw [registerWrite_bar0 hup (ctxAddr_mem ..), writeBar0_ctxAddr hidle]
  case command => rw [registerWrite_bar0 hup (ctxCmd_mem ..), writeBar0_ctxCmd hidle]
  case tail => rw [ringDoorbell_eq hport hx, if_pos ⟨hslot, hahead⟩]
  case badCommand =>
    rw [ringDoorbell_eq hport hx, if_neg fun ⟨hslot, hahead⟩ => hbad.elim (Nat.not_le.2 hslot) (Nat.not_lt.2 hahead)]

end Sys2Proof.Proofs

/-! ## Firmware commands (R397 to R400) -/

namespace Sys2Proof.Machine
open Sys2Proof.Claims

section
variable {s : State} {b : Bool} {src r : Nat}

/-- R400: a firmware command acts while the host link is up and no other is under way. -/
theorem State.fwRow_acts (hup : s.hostUp = true) (hidle : s.fw.cmd = none) (f : State → State) : s.fwRow f = f s := by
  rw [State.fwRow, hup, hidle]; rfl

/-! R400, R505: `STAGE` writes the bank that does not run; in recovery the device's choice. -/

theorem State.stageFrom_at (hsrc : s.fwSource bankBytes = some src) : s.stageFrom = (checkImage s.mem src s.fw.floor, src) := by
  simp only [State.stageFrom, hsrc]

theorem State.stage_good (hsrc : s.fwSource bankBytes = some src) (hgood : Checked s src) : s.stage =
    ({ (if s.fw.recovery then { s with free := s.free + 1 } else s) with
      mem := s.mem.copy src (bankPlace s.stageBank) bankBytes
      fw := { s.fw with lost := s.fw.lost.filter (· != s.stageBank) } }.fwResult 0) := by
  have hcheck : checkImage s.mem src s.fw.floor = 0 := hgood
  simp only [State.stage, State.stageFrom_at hsrc, hcheck, ne_eq, not_true_eq_false, if_false]

theorem State.stage_running (hrun : s.fw.recovery = false) (hsrc : s.fwSource bankBytes = some src) (hgood : Checked s src) : s.stage =
    ({ s with
      mem := s.mem.copy src (bankPlace !s.fw.running) bankBytes
      fw := { s.fw with lost := s.fw.lost.filter (· != !s.fw.running) } }.fwResult 0) := by
  have hbank : s.stageBank = !s.fw.running := if_neg (Bool.eq_false_iff.1 hrun)
  rw [State.stage_good hsrc hgood, hbank, if_neg (Bool.eq_false_iff.1 hrun)]

theorem State.stage_recovery (hrec : s.fw.recovery = true) (hsrc : s.fwSource bankBytes = some src) (hgood : Checked s src) : s.stage =
    ({ s with
      free := s.free + 1, mem := s.mem.copy src (bankPlace (Config.pick s.free % 2 == 1)) bankBytes
      fw := { s.fw with lost := s.fw.lost.filter (· != (Config.pick s.free % 2 == 1)) } }.fwResult 0) := by
  have hbank : s.stageBank = (Config.pick s.free % 2 == 1) := if_pos hrec
  rw [State.stage_good hsrc hgood, hbank, if_pos hrec]

theorem State.stage_bad (hsrc : s.fwSource bankBytes = some src) (hr : r = checkImage s.mem src s.fw.floor) (hbad : r ≠ 0)
    (hrun : s.fw.recovery = false) : s.stage = s.fwResult r := by
  subst hr
  simp only [State.stage, State.stageFrom_at hsrc, hrun, hbad, ne_eq, not_false_eq_true, if_true, Bool.false_eq_true, if_false]

/-! R398, R399: `ACTIVATE` of a bank whose image passes the checks. -/

theorem State.judgesToken_iff : s.judgesToken b = true ↔ imageVer s.mem (bankPlace b) < (bootMeta s.mem).cver ∨ s.presents = true := by
  rw [State.judgesToken, Bool.or_eq_true, decide_eq_true_iff]

section
variable (hgood : Checked s (bankPlace b))
include hgood

theorem State.activate_plain (hplain : s.judgesToken b = false) : s.activate b =
    if s.contexts.any (·.hostFw) then s.modFw fun f => { f with pend := some (b, none), result := 7 } else s.setActive b none := by
  have hcheck : checkImage s.mem (bankPlace b) s.fw.floor = 0 := hgood
  simp only [State.activate, hplain, hcheck, Bool.false_eq_true, and_false, if_false, ne_eq, not_true_eq_false]

theorem State.activate_accepted (hjudged : s.judgesToken b = true) (htoken : s.checkToken b = 0) : s.activate b =
    if s.contexts.any (·.hostFw) then s.modFw fun f => { f with pend := some (b, some (s.accepted b)), result := 7 }
    else s.setActive b (some (s.accepted b)) := by
  have hcheck : checkImage s.mem (bankPlace b) s.fw.floor = 0 := hgood
  simp only [State.activate, hjudged, hcheck, htoken, and_self, if_true, ne_eq, not_true_eq_false, if_false]

theorem State.activate_refused (hjudged : s.judgesToken b = true) (htoken : s.checkToken b = r) (hbad : r ≠ 0) :
    s.activate b = s.fwResult r := by
  have hcheck : checkImage s.mem (bankPlace b) s.fw.floor = 0 := hgood
  simp only [State.activate, hjudged, hcheck, htoken, hbad, and_self, if_true, ne_eq, not_false_eq_true]

end

/-! R398: one write of the metadata makes a bank ACTIVE. -/

theorem State.setActive_plain : (s.setActive b none).mem = s.mem.putMeta { bootMeta s.mem with active := b } := by
  rw [State.setActive, State.putFw]

theorem State.setActive_token (a : Accepted) : (s.setActive b (some a)).mem = s.mem.putMeta
    { bootMeta s.mem with active := b, cver := a.ver, tokcnt := ((bootMeta s.mem).tokcnt + 1) % 2 ^ 32 } := by
  rw [State.setActive, State.putFw]

/-! R397: `COMMIT`; a fuse for every SVN up to 64 suffices. -/

theorem Firmware.blow_all {f : Firmware} (h : f.runSvn ≤ 64) : f.blow 64 = { f with floor := max f.floor f.runSvn } := by
  rw [Firmware.blow, Nat.min_eq_right (by omega)]

theorem State.commitFw_runs (hmay : s.mayCommit = true) (hsvn : s.fw.runSvn ≤ 64) : s.commitFw =
    { s with
      fw := { s.fw with floor := max s.fw.floor s.fw.runSvn, result := 0 }
      mem := s.mem.putMeta { bootMeta s.mem with cver := s.fw.runVer } } := by
  rw [State.commitFw, if_pos hmay, Firmware.blow_all hsvn]
  rfl

theorem State.commitFw_refused (hmay : s.mayCommit = false) : s.commitFw = s.fwResult 9 := if_neg (Bool.eq_false_iff.1 hmay)

/-! R399: `COUNTERSIGN` of what is pending. -/

section
variable {t : Nat} {token : Option Accepted}
variable (hpend : s.fw.pend = some (b, token)) (hsrc : s.fwSource 768 = some t)

/-- R399: the host's key and its signature over the bank's manifest stand at FWADDR. -/
def State.countersigned (s : State) (t : Nat) (b : Bool) : Prop :=
  Config.sha384 (s.mem.bytes t 384) = Config.countersignHash ∧
    Config.rsaVerify (s.mem.bytes t 384) (s.mem.bytes (t + 384) 384) (manifestDigest s.mem (bankPlace b)) = true

include hpend hsrc

theorem State.countersign_signed (hgood : s.countersigned t b) : s.countersign =
    if s.pendResult b token = 0 then s.setActive b token
    else s.modFw fun f => { f with pend := none, result := s.pendResult b token } := by
  obtain ⟨hkey, hsig⟩ := hgood
  simp only [State.countersign, hpend, hsrc, hkey, hsig, beq_self_eq_true, Bool.and_self, if_true]

theorem State.countersign_unsigned (hbad : ¬ s.countersigned t b) :
    s.countersign = s.modFw fun f => { f with pend := none, result := 8 } := by
  simp only [State.countersign, hpend, hsrc]
  exact if_neg fun h => hbad (by rwa [Bool.and_eq_true, beq_iff_eq] at h)

end

theorem State.countersign_none (hpend : s.fw.pend = none) : s.countersign = s.fwResult 9 := by
  simp only [State.countersign, hpend]

end

theorem exec_stage (s : State) : exec .stage s = .next (s.fwRow State.stage) := rfl
theorem exec_activate (b : Bool) (s : State) : exec (.activate b) s = .next (s.fwRow (·.activate b)) := rfl
theorem exec_commit (s : State) : exec .commit s = .next (s.fwRow State.commitFw) := rfl
theorem exec_countersign (s : State) : exec .countersign s = .next (s.fwRow State.countersign) := rfl

end Sys2Proof.Machine

namespace Sys2Proof.Proofs
open Sys2Proof.Machine Sys2Proof.Claims

/-- Settles O37: no other command being under way, the image, the token and the signature that the device finds decide what a command
comes to. -/
theorem firmwareCommands : Obligations.FirmwareCommands := by
  intro b src t r token s bank modulus good signs named now judged hup hidle
  have hjudge : s.judgesToken b = true ↔ judged := State.judgesToken_iff
  have hplain (h : ¬ judged) : s.judgesToken b = false := Bool.eq_false_iff.2 (mt hjudge.1 h)
  simp only [exec_stage, exec_activate, exec_commit, exec_countersign, State.fwRow_acts hup hidle, Host.Outcome.next.injEq]
  refine ⟨State.stage_running, State.stage_recovery, State.stage_bad,
    fun hgood hno hsign => ?_, fun hgood hno hsign => ?_, fun hgood hyes htoken hsign => ?_, fun hgood hyes htoken hsign => ?_,
    fun hgood hyes => State.activate_refused hgood (hjudge.2 hyes), rfl, State.setActive_plain, State.setActive_token named,
    State.commitFw_runs, State.commitFw_refused,
    fun hpend hsrc hgood hr => ?_, fun hpend hsrc hgood hr hbad => ?_, State.countersign_unsigned, State.countersign_none⟩
  · rw [State.activate_plain hgood (hplain hno), if_neg (Bool.eq_false_iff.1 hsign)]
  · rw [State.activate_plain hgood (hplain hno), if_pos hsign]
  · exact (State.activate_accepted hgood (hjudge.2 hyes) htoken).trans (if_neg (Bool.eq_false_iff.1 hsign))
  · exact (State.activate_accepted hgood (hjudge.2 hyes) htoken).trans (if_pos hsign)
  · rw [State.countersign_signed hpend hsrc hgood, if_pos hr]
  · rw [State.countersign_signed hpend hsrc hgood, if_neg (hr ▸ hbad), hr]

end Sys2Proof.Proofs

/-! ## Resets, losses of power and Pavilion faults (R396, R407, R505, R506) -/

namespace Sys2Proof.Machine

theorem Memory.get_filter_out {m : Memory} {p : Host.Cell → Bool} {a : Nat} (h : ∀ x, p (a, x) = false) :
    Memory.get (m.filter p) a = Memory.blank := by
  induction m with
  | nil => rfl
  | cons c m ih =>
    obtain ⟨k, x⟩ := c
    by_cases hk : k = a
    · subst hk
      rw [List.filter_cons_of_neg (by simp [h x]), ih]
    · by_cases hp : p (k, x) = true
      · rw [List.filter_cons_of_pos hp, Memory.get, if_neg hk, ih]
      · rw [List.filter_cons_of_neg hp, ih]

/-! R396, R505: the bank that boots, where no copy fails. -/

section
variable {f : Firmware} {m : Memory}

theorem Firmware.bootBank_active (h : f.valid m (bootMeta m).active = true) : f.bootBank m [] = some (bootMeta m).active := by
  simp [Firmware.bootBank, h]

theorem Firmware.bootBank_other (h : f.valid m (bootMeta m).active = false) (hother : f.valid m (!(bootMeta m).active) = true) :
    f.bootBank m [] = some !(bootMeta m).active := by
  simp [Firmware.bootBank, h, hother]

theorem Firmware.bootBank_none (h : f.valid m (bootMeta m).active = false) (hother : f.valid m (!(bootMeta m).active) = false) :
    f.bootBank m [] = none := by
  simp [Firmware.bootBank, h, hother]

variable {lost : List Bool}

/-- The checks of a bank look at the floor alone, which a boot leaves. -/
theorem Firmware.boot_bank {b : Bool} (h : f.bootBank m lost = some b) : (f.boot m lost).loaded = true ∧ (f.boot m lost).loading = true ∧
    (f.boot m lost).running = b ∧ (f.boot m lost).fallback = (b != (bootMeta m).active) := by
  unfold Firmware.boot
  dsimp only
  split
  case h_1 hnone => exact absurd (hnone.symm.trans h) nofun
  case h_2 b' hsome =>
    obtain rfl : b' = b := Option.some.inj (hsome.symm.trans h)
    exact ⟨rfl, rfl, rfl, rfl⟩

theorem Firmware.boot_recovery (h : f.bootBank m lost = none) : (f.boot m lost).loaded = false ∧ (f.boot m lost).loading = false ∧
    (f.boot m lost).recovery = true := by
  unfold Firmware.boot
  dsimp only
  split
  case h_1 => exact ⟨rfl, rfl, rfl⟩
  case h_2 b hsome => exact absurd (h.symm.trans hsome) nofun

end

section
variable {s : State}

theorem State.rebooted_fw (m : Memory) (f : Firmware) (lost : List Bool) : (s.rebooted m f lost).fw = f.boot m lost := by
  rw [State.rebooted]

/-- Host memory and the boot store remain of memory, and nothing else. -/
theorem State.rebooted_lost (m : Memory) (f : Firmware) (lost : List Bool) {p : Nat} (h : p < placeHost 0 ∨ (2 ^ 52 ≤ p ∧ p < 2 ^ 54)) :
    (s.rebooted m f lost).mem.get p = 0 :=
  Memory.get_filter_out fun x => by
    simp only [isHost, placeHost] at h ⊢
    simp only [Bool.or_eq_false_iff, Bool.and_eq_false_iff, decide_eq_false_iff_not]
    omega

/-- What a reboot takes of the state are the memory, the firmware and what no update touches. -/
theorem State.rebooted_putFw (m m' : Memory) (f f' : Firmware) (lost : List Bool) :
    (s.putFw m f).rebooted m' f' lost = s.rebooted m' f' lost := by
  rw [State.putFw, State.rebooted, State.rebooted]

theorem State.cutStage_other (h : s.fw.cmd ≠ some 1) : s.cutStage = s.mem := if_neg fun hstage => h hstage.1

theorem execPackagePowerLoss_idle {blown : Nat} {done : Bool} (h : s.fw.cmd ≠ some 1) :
    execPackagePowerLoss none blown done s = .next (s.rebooted s.mem s.fw s.fw.lost) := by
  have hcut : s.cutUpdate none blown done = s := rfl
  rw [execPackagePowerLoss, hcut, State.cutStage_other h]

/-- R407: a `COMMIT` that runs is cut. -/
theorem State.cutUpdate_commit {blown : Nat} {done : Bool} (hcmd : s.fw.cmd = some 3) (hmay : s.mayCommit = true) :
    s.cutUpdate (some .commit) blown done =
      s.putFw (if done then s.mem.putMeta { bootMeta s.mem with cver := s.fw.runVer } else s.mem.cutMeta) (s.fw.blow blown) := by
  have hunder : (some FwUpdate.commit).filter (fun u => s.fw.cmd == some (updateWord u)) = some .commit := by rw [hcmd]; rfl
  simp only [State.cutUpdate, hunder, hmay, if_true, State.newCver]

theorem execPackagePowerLoss_commit {blown : Nat} {done : Bool} (hcmd : s.fw.cmd = some 3) (hmay : s.mayCommit = true) :
    execPackagePowerLoss (some .commit) blown done s =
      .next (s.rebooted (if done then s.mem.putMeta { bootMeta s.mem with cver := s.fw.runVer } else s.mem.cutMeta)
        (s.fw.blow blown) s.fw.lost) := by
  have hstage : (s.fw.blow blown).cmd ≠ some 1 := by
    rw [Firmware.blow, hcmd]
    decide
  rw [execPackagePowerLoss, State.cutUpdate_commit hcmd hmay, State.cutStage_other (by exact hstage), State.rebooted_putFw, State.putFw,
    Firmware.blow]

/-- R506. -/
theorem State.pavilionFault_reloads {d cause : Nat} (hd : d < 4) (hon : (s.die d).off = false) (hin : (s.die d).dout = false)
    (hfw : s.fw.loaded = true) : s.pavilionFault d cause =
      (let s₁ := ((s.loseStolen d).terminateAll [d] cause).1
      let faults := (s₁.die d).time :: (s₁.die d).faults.filter fun t => (s₁.die d).time < t + 86400000000000
      (s₁.modDie d fun x => { x with faults, dout := 3 ≤ faults.length }).refuseGangs) := by
  have hin_service : (4 ≤ d || (s.die d).off || (s.die d).dout || !s.fw.loaded) = false := by
    rw [decide_eq_false (Nat.not_le.2 hd), hon, hin, hfw]
    rfl
  rw [State.pavilionFault, hin_service]
  rfl

end

theorem exec_packageReset (cut : Bool) (lost : List Bool) (s : State) :
    exec (.packageReset cut lost) s = .next (s.rebooted (if cut then s.cutStage else s.mem) s.fw lost) := rfl
theorem exec_packagePowerLoss (during : Option FwUpdate) (blown : Nat) (done : Bool) (s : State) :
    exec (.packagePowerLoss during blown done) s = execPackagePowerLoss during blown done s := rfl
theorem exec_schedulerFirmwareFault (d : Nat) (s : State) : exec (.schedulerFirmwareFault d) s = .next (s.pavilionFault d 0xB0) := rfl
theorem exec_bitstreamIntegrityFault (d : Nat) (s : State) : exec (.bitstreamIntegrityFault d) s = .next (s.pavilionFault d 0xB1) := rfl

end Sys2Proof.Machine

namespace Sys2Proof.Proofs
open Sys2Proof.Machine

/-- Settles O38: the validity of the two banks decides what boots; a cut update decides what boots next, and a fault of a Pavilion that
runs reloads it. -/
theorem resets : Obligations.Resets := by
  intro d blown done s valid a up s₁ faults reload
  simp only [exec_packagePowerLoss, exec_schedulerFirmwareFault, exec_bitstreamIntegrityFault]
  refine ⟨exec_packageReset .., ⟨State.rebooted_fw .., fun _ => State.rebooted_lost _ _ _⟩, fun hvalid => ?active, fun hinvalid hother => ?other,
    fun hinvalid hother => Firmware.boot_recovery (Firmware.bootBank_none hinvalid hother), execPackagePowerLoss_idle,
    execPackagePowerLoss_commit, fun hd hon hin hfw => ⟨?scheduler, ?bitstream⟩⟩
  case active =>
    obtain ⟨hloaded, hloading, hrunning, hfallback⟩ := Firmware.boot_bank (Firmware.bootBank_active hvalid)
    exact ⟨hloaded, hloading, hrunning, hfallback.trans (bne_self_eq_false _)⟩
  case other =>
    obtain ⟨hloaded, hloading, hrunning, hfallback⟩ := Firmware.boot_bank (Firmware.bootBank_other hinvalid hother)
    exact ⟨hloaded, hloading, hrunning, hfallback.trans (by cases (bootMeta s.mem).active <;> rfl)⟩
  case scheduler => exact congrArg Host.Outcome.next (State.pavilionFault_reloads hd hon hin hfw)
  case bitstream => exact congrArg Host.Outcome.next (State.pavilionFault_reloads hd hon hin hfw)

end Sys2Proof.Proofs

/-! ## The power controller (R380, R382 to R387, R390 to R392, R491, R504) -/

namespace Sys2Proof.Machine

/-! R384: a window whose energy has reached the budget is spent. -/

section
variable {q : Power} {r : Nat}

theorem Power.checked_spends (h : q.spent = false) (hreach : q.budget r ≤ q.energy) :
    q.checked r = { q with spent := true, op := List.replicate 16 7 } := by
  rw [Power.checked, h, decide_eq_true hreach]
  rfl

theorem Power.checked_stands (h : q.spent = true ∨ q.energy < q.budget r) : q.checked r = q := by
  rw [Power.checked]
  refine if_neg fun hc => ?_
  simp only [Bool.and_eq_true, Bool.not_eq_true', decide_eq_true_iff] at hc
  exact h.elim (fun hs => absurd (hs.symm.trans hc.1) nofun) (Nat.not_lt.2 hc.2)

/-- Of the counters of the window that has ended, the check touches none. -/
theorem Power.checked_window (q : Power) (r : Nat) : (q.checked r).window = q.window ∧ (q.checked r).cap = q.cap ∧
    (q.checked r).doneEnergy = q.doneEnergy := by
  unfold Power.checked
  split_ifs <;> exact ⟨rfl, rfl, rfl⟩

end

section
variable {s : State}

/-! R384, R385, R392: the end of a window. -/

theorem State.windowDue_iff : s.windowDue = true ↔ (s.power.window + 1) * 100000 ≤ (s.die 0).time := decide_eq_true_iff

theorem State.endDue_early (h : (s.die 0).time < (s.power.window + 1) * 100000) : s.endDue = s :=
  if_neg fun hdue => Nat.not_le.2 h (State.windowDue_iff.1 hdue)

theorem State.endDue_due (h : (s.power.window + 1) * 100000 ≤ (s.die 0).time) :
    s.endDue = { s.endWindow s.drawn with free := s.free + 1 } := if_pos (State.windowDue_iff.2 h)

theorem State.endDue_limits (s : State) : s.endDue.limits = s.limits := by
  unfold State.endDue
  split_ifs <;> rfl

theorem State.endWindow_power (s : State) (energy : Nat) : (s.endWindow energy).power.window = s.power.window + 1 ∧
    (s.endWindow energy).power.cap = s.power.capNext ∧ (s.endWindow energy).power.doneEnergy = energy :=
  Power.checked_window ..

/-- R385: what nothing reports lies within the bound. -/
theorem State.drawn_bounds (s : State) : s.power.least s.limits.repay ≤ s.drawn ∧
    (s.power.least s.limits.repay ≤ s.power.most s.limits.repay → s.drawn ≤ s.power.most s.limits.repay) := by
  have hmod : Config.pick s.free % (s.power.most s.limits.repay - s.power.least s.limits.repay + 1) <
    s.power.most s.limits.repay - s.power.least s.limits.repay + 1 := Nat.mod_lt _ (Nat.succ_pos _)
  unfold State.drawn
  dsimp only
  omega

theorem execPowerWindowEnd_ends {energy : Nat} (hdue : (s.power.window + 1) * 100000 ≤ (s.die 0).time)
    (hlo : s.power.least s.limits.repay ≤ energy) (hhi : energy ≤ s.power.most s.limits.repay) :
    execPowerWindowEnd energy s = .next (s.endWindow energy) := by
  simp only [execPowerWindowEnd, State.windowDue_iff.2 hdue, decide_eq_false (Nat.not_lt.2 hlo), decide_eq_false (Nat.not_lt.2 hhi),
    Bool.not_true, Bool.or_self, Bool.false_eq_true, if_false]

theorem execBudgetReached_spends {energy : Nat} (hspent : s.endDue.power.spent = false)
    (hlo : max (s.endDue.power.budget s.limits.repay) s.endDue.power.energy ≤ energy)
    (hhi : energy ≤ s.endDue.power.budget s.limits.repay + s.endDue.power.ballast) : execBudgetReached energy s =
      .next (s.endDue.modPower fun p => { p with spent := true, op := List.replicate 16 7, energy }).setLayers := by
  simp only [execBudgetReached, State.endDue_limits, hspent, decide_eq_false (Nat.not_lt.2 hlo), decide_eq_false (Nat.not_lt.2 hhi),
    Bool.or_self, Bool.false_eq_true, if_false]
  rfl

/-! R380, R386, R387: operating points and ballast. -/

theorem execOperatingPointChange_sets {quad point : Nat} (hquad : quad < 16) (hpoint : point < 8)
    (hheld : s.power.spent = true ∨ (s.die (quad / 4)).throttle = true → point = 7) : execOperatingPointChange quad point s =
      .next (s.modPower fun p => { p with op := setNth quad point p.op }) := by
  have hfree : ((s.power.spent || (s.die (quad / 4)).throttle) && point != 7) = false := by
    rw [Bool.and_eq_false_imp, Bool.or_eq_true]
    exact fun h => bne_eq_false_iff_eq.2 (hheld h)
  rw [execOperatingPointChange, decide_eq_false (Nat.not_le.2 hquad), decide_eq_false (Nat.not_le.2 hpoint), hfree]
  rfl

theorem execBallastRamp_draws {quad energy : Nat} (hup : s.quadUp quad = true) : execBallastRamp quad energy s =
    .next (s.endDue.modPower fun p =>
      ({ p with
        ramps := modNth quad (fun n => (n + 1) % 2 ^ 8) p.ramps, ballast := p.ballast + energy, energy := p.energy + energy
        } : Power).checked s.limits.repay).setLayers := by
  rw [execBallastRamp, if_pos hup]

theorem execBallastRamp_down {quad energy : Nat} (hdown : s.quadUp quad = false) : execBallastRamp quad energy s = .next s := by
  rw [execBallastRamp, hdown]; rfl

/-! R382, R491, R504: a droop, and the alarm of more than a thousand in a millisecond. -/

/-- The droops of a die's clusters in the last millisecond, with one more of a cluster now. -/
def State.droopsNow (s : State) (cluster : Nat) : List (Nat × Nat) :=
  (cluster, (s.die (cluster / 12)).time) ::
    s.power.droopTimes.filter fun x => x.1 / 12 != cluster / 12 || (s.die (cluster / 12)).time < x.2 + 1000000

/-- A droop has been counted, and its cluster's clock is stretched. -/
def State.drooped (s : State) (cluster : Nat) : State := s.modPower fun p => { p.stretch cluster with
  droops := modNth (cluster / 3) (fun n => (n + 1) % 2 ^ 32) p.droops, droopTimes := s.droopsNow cluster }

def State.droopCount (s : State) (cluster : Nat) : Nat := ((s.droopsNow cluster).filter fun x => x.1 == cluster).length

section
variable {cluster : Nat} (hcluster : cluster < 48) (hup : s.quadUp (cluster / 3) = true)
include hcluster hup

theorem execDroop_eq : execDroop cluster s =
    if 1000 < s.droopCount cluster && (s.drooped cluster).mayNotice (cluster / 12) then
      .next (((s.drooped cluster).systemEvent [cluster / 12] (cluster / 12) 0x50 0
        (sysDetail (cluster / 12) (cluster / 3 % 4) (cluster % 3) (s.droopCount cluster))).noticed (cluster / 12))
    else .next (s.drooped cluster) := by
  have hon : (48 ≤ cluster || !s.quadUp (cluster / 3)) = false := by rw [decide_eq_false (Nat.not_le.2 hcluster), hup]; rfl
  rw [execDroop, hon]
  rfl

theorem execDroop_quiet (hfew : s.droopCount cluster ≤ 1000) : execDroop cluster s = .next (s.drooped cluster) := by
  rw [execDroop_eq hcluster hup, decide_eq_false (Nat.not_lt.2 hfew)]
  rfl

theorem execDroop_alarms (hmany : 1000 < s.droopCount cluster) (hmay : s.mayNotice (cluster / 12) = true) : execDroop cluster s =
    .next (((s.drooped cluster).systemEvent [cluster / 12] (cluster / 12) 0x50 0
      (sysDetail (cluster / 12) (cluster / 3 % 4) (cluster % 3) (s.droopCount cluster))).noticed (cluster / 12)) := by
  have hmay' : (s.drooped cluster).mayNotice (cluster / 12) = true := hmay
  rw [execDroop_eq hcluster hup, decide_eq_true hmany, hmay']
  rfl

end
end

theorem exec_powerWindowEnd (energy : Nat) (s : State) : exec (.powerWindowEnd energy) s = execPowerWindowEnd energy s := rfl
theorem exec_budgetReached (energy : Nat) (s : State) : exec (.budgetReached energy) s = execBudgetReached energy s := rfl
theorem exec_operatingPointChange (quad point : Nat) (s : State) :
    exec (.operatingPointChange quad point) s = execOperatingPointChange quad point s := rfl
theorem exec_ballastRamp (quad energy : Nat) (s : State) : exec (.ballastRamp quad energy) s = execBallastRamp quad energy s := rfl
theorem exec_droop (cluster : Nat) (s : State) : exec (.droop cluster) s = execDroop cluster s := rfl

end Sys2Proof.Machine

namespace Sys2Proof.Proofs
open Sys2Proof.Machine

/-- Settles O39: each happening comes to its effect where its energy is within the bound and its quadrant has its supply. -/
theorem powerControl : Obligations.PowerControl := by
  intro energy cluster quad point q s p r budget lo hi s₀ b₀ d now times n s₁
  simp only [exec_powerWindowEnd, exec_budgetReached, exec_operatingPointChange, exec_ballastRamp, exec_droop]
  refine ⟨execPowerWindowEnd_ends, Power.checked_spends, Power.checked_stands, State.endDue_early, fun hdue => ?ended,
    execBudgetReached_spends, execOperatingPointChange_sets, execBallastRamp_draws, execBallastRamp_down,
    fun hcluster hup => ⟨execDroop_quiet hcluster hup, execDroop_alarms hcluster hup⟩⟩
  case ended =>
    obtain ⟨hwindow, hcap, hdone⟩ := s.endWindow_power s.drawn
    rw [show s₀ = _ from State.endDue_due hdue]
    exact ⟨hwindow, hcap, hdone.symm ▸ s.drawn_bounds.1, hdone.symm ▸ s.drawn_bounds.2⟩

end Sys2Proof.Proofs

/-! ## The commands of the host queues (R339 to R344, R347, R354, R363) -/

namespace Sys2Proof.Machine
open Sys2Proof.Claims

section
variable {s s₀ s₁ : State} {pf q opc c : Nat} {x : Queue} {ws : List Word}

/-- R340, R341: the next command of a queue, which may start and has a good layout, is run by the row of its opcode. -/
theorem queueRow_runs (h : NextCommand s pf q opc x s₀ ws) (f : State → Queue → List Word → State) :
    queueRow opc pf q s f = f s₀ x ws := by
  obtain ⟨hqueue, hwords, hcode, hstart, hcommon, hlayout⟩ := h
  have hown : (opcOf ws == opc || (opc == 1 && !(1 ≤ opcOf ws && opcOf ws ≤ 5))) = true := by rw [hcode, beq_self_eq_true, Bool.true_or]
  simp only [queueRow, hqueue, hwords, hown, hstart, hcommon, hlayout, Bool.not_true, Bool.or_self, Bool.false_eq_true, if_false]

/-! R342: `SIGNAL`. -/

section
variable (h : NextCommand s pf q 3 x s₀ ws)
include h

theorem execSignal_stores (hstore : s₀.signalStore x (addrOf ws 2) (leBytes (sizeOf_ ws) (valueOf ws)) = .ok s₁) :
    execSignal pf q s = .next (ended s₁ x ws 0 0) := by
  rw [execSignal, queueRow_runs h, hstore]; rfl

theorem execSignal_faults (hstore : s₀.signalStore x (addrOf ws 2) (leBytes (sizeOf_ ws) (valueOf ws)) = .error (.fault s₁ c)) :
    execSignal pf q s = .next (ended s₁ x ws 0x0A c) := by
  rw [execSignal, queueRow_runs h, hstore]; rfl

theorem execSignal_waits (hstore : s₀.signalStore x (addrOf ws 2) (leBytes (sizeOf_ ws) (valueOf ws)) = .error (.wait s₁)) :
    execSignal pf q s = .next s₁ := by
  rw [execSignal, queueRow_runs h, hstore]

end

/-! R342: `WAITV` and its polls. -/

theorem execWaitv_starts (h : NextCommand s pf q 4 x s₀ ws) : execWaitv pf q s = .next
    (s₀.startSlot x ws (.wait (if wn ws 7 = 0 then none else some ((s₀.die x.die).time + 1000 * wn ws 7)) 0)) := by
  rw [execWaitv, queueRow_runs h]

section
variable {r : QueueRun} {dl : Option Nat} {last : DWord} {p : Nat}

/-- R342: the Pavilion has read the value of the `WAITV` that runs. -/
structure Polls (s : State) (pf q : Nat) (x : Queue) (r : QueueRun) (dl : Option Nat) (last : DWord) (s₁ : State) (p : Nat) : Prop where
  queue : s.queue? pf q = some x
  runs : x.suspended = false
  reads : s.reads x.die = true
  command : (x.runs.find? fun r => r.work != .ended) = some r
  work : r.work = .wait dl last
  place : s.reachVa (.queue x.num) x.pf x.ctx x.die (addrOf r.words 2) .read = .ok (s₁, p)

/-- The state in which the value is read. -/
abbrev polled (s₁ : State) (p : Nat) : State := if isDram p then s₁.conflict p false else s₁

variable (h : Polls s pf q x r dl last s₁ p)
include h

theorem execWaitvPoll_eq : execWaitvPoll pf q s = .next
    (if waitHolds (wn r.words 6 / 2 % 4) ((polled s₁ p).mem.nat p (sizeOf_ r.words)) (valueOf r.words) then
      (polled s₁ p).endCommand x.pf x.num r.slot 0 0
    else (polled s₁ p).waitOn x r dl ((polled s₁ p).mem.nat p (sizeOf_ r.words))) := by
  obtain ⟨hqueue, hruns, hreads, hcommand, hwork, hplace⟩ := h
  simp only [execWaitvPoll, hqueue, hruns, hreads, hcommand, hwork, hplace, Bool.not_true, Bool.or_self, Bool.false_eq_true, if_false,
    pollWait]

theorem execWaitvPoll_holds
    (hv : waitHolds (wn r.words 6 / 2 % 4) ((polled s₁ p).mem.nat p (sizeOf_ r.words)) (valueOf r.words) = true) :
    execWaitvPoll pf q s = .next ((polled s₁ p).endCommand x.pf x.num r.slot 0 0) := by
  rw [execWaitvPoll_eq h, if_pos hv]

theorem execWaitvPoll_over {d : Nat}
    (hv : waitHolds (wn r.words 6 / 2 % 4) ((polled s₁ p).mem.nat p (sizeOf_ r.words)) (valueOf r.words) = false)
    (hdl : dl = some d) (hd : d ≤ ((polled s₁ p).die x.die).time) :
    execWaitvPoll pf q s = .next
      ((polled s₁ p).endCommand x.pf x.num r.slot 0x04 ((polled s₁ p).mem.nat p (sizeOf_ r.words))) := by
  rw [execWaitvPoll_eq h, hv, hdl, State.waitOn, if_neg Bool.false_ne_true, if_pos hd]

end

/-! R342, R363: `FLUSH`. -/

section
variable (h : NextCommand s pf q 5 x s₀ ws)
include h

theorem execFlush_flushes (hperformed : (wn ws 2).testBit 0 = false ∨ s₀.translated pf x.ctx = false) : execFlush pf q s = .next
    (s₀.oneShot x ws fun s =>
      let dies := s.devDies pf
      let s := if (wn ws 2).testBit 0 then s.flushTlb pf x.ctx else s
      let s := if (wn ws 2).testBit 1 then s.flushRo dies else s
      let s := if (wn ws 2).testBit 2 then s.cleanL2 dies else s
      (s, 0, 0)) := by
  rw [execFlush, queueRow_runs h, if_neg (by rwa [Bool.and_eq_true, not_and_or, Bool.not_eq_true, Bool.not_eq_true])]

theorem execFlush_waits (htlb : (wn ws 2).testBit 0 = true) (hdue : s₀.translated pf x.ctx = true) : execFlush pf q s = .next s₀ := by
  rw [execFlush, queueRow_runs h, htlb, hdue]; rfl

end

/-! R344, R347, R354: `LAUNCH` and `REPLAY`. -/

theorem execLaunch_accepts {ln : Launch} (h : NextCommand s pf q 1 x s₀ ws)
    (himage : s₀.acceptImage x (addrOf ws 2) false = .ok s₁ ln) : execLaunch pf q s = .next (s₁.addLaunch x ws ln) := by
  rw [execLaunch, queueRow_runs h, himage]

theorem execLaunch_refuses (h : NextCommand s pf q 1 x s₀ ws)
    (himage : s₀.acceptImage x (addrOf ws 2) false = .refused s₁ c) : execLaunch pf q s = .next (refused s₁ x ws c) := by
  rw [execLaunch, queueRow_runs h, himage]
  rfl

section
variable {ln : Launch} {s₂ : State} {area : List Nat} (h : NextCommand s pf q 2 x s₀ ws) (himage : s₀.acceptImage x (addrOf ws 2) true = .ok s₁ ln)
include h himage

theorem execReplay_accepts (hareas : s₁.replayAreas x ws = .ok (s₂, area)) : execReplay pf q s = .next
    ((s₂.setCounters pf ((s₂.newReplay x ws ln area).selOf 0)).addLaunch x ws { ln with replay := some (s₂.newReplay x ws ln area) }) := by
  rw [execReplay, queueRow_runs h, himage]
  simp only [hareas]

theorem execReplay_refuses (hareas : s₁.replayAreas x ws = .error (.fault s₂ c)) :
    execReplay pf q s = .next (refused s₂ x ws (faultDetail c)) := by
  rw [execReplay, queueRow_runs h, himage]
  simp only [hareas]
  rfl

end
end

theorem exec_signal (pf q : Nat) (s : State) : exec (.signal pf q) s = execSignal pf q s := rfl
theorem exec_waitv (pf q : Nat) (s : State) : exec (.waitv pf q) s = execWaitv pf q s := rfl
theorem exec_waitvPoll (pf q : Nat) (s : State) : exec (.waitvPoll pf q) s = execWaitvPoll pf q s := rfl
theorem exec_flush (pf q : Nat) (s : State) : exec (.flush pf q) s = execFlush pf q s := rfl
theorem exec_launch (pf q : Nat) (s : State) : exec (.launch pf q) s = execLaunch pf q s := rfl
theorem exec_replay (pf q : Nat) (s : State) : exec (.replay pf q) s = execReplay pf q s := rfl

end Sys2Proof.Machine

namespace Sys2Proof.Proofs
open Sys2Proof.Machine Sys2Proof.Claims

/-- Settles O31: the row of the command's opcode runs it, and what its store, its value or the accesses before it come to decides its
end. -/
theorem queueCommands : Obligations.QueueCommands := by
  intro pf q p c d s s₀ s₁ x ws r dl last size value store polls s₂ v holds dies f₀ f₁ f₂ f₃
  have hpolls : polls → Polls s pf q x r dl last s₁ p := fun ⟨hqueue, hruns, hreads, hcommand, hwork, hplace⟩ =>
    ⟨hqueue, hruns, hreads, hcommand, hwork, hplace⟩
  simp only [exec_signal, exec_waitv, exec_waitvPoll, exec_flush]
  exact ⟨execSignal_stores, execSignal_faults, execSignal_waits, execWaitv_starts, fun h => execWaitvPoll_holds (hpolls h),
    fun h => execWaitvPoll_over (hpolls h), execFlush_flushes, execFlush_waits⟩

/-- Settles O32: the row of the command's opcode runs it, and the checks of its image and of its areas decide whether it starts. -/
theorem launchCommands : Obligations.LaunchCommands := by
  intro pf q c s s₀ s₁ s₂ x ws ln area rep
  simp only [exec_launch, exec_replay]
  exact ⟨execLaunch_accepts, execLaunch_refuses, execReplay_accepts, execReplay_refuses⟩

end Sys2Proof.Proofs

/-! ## The Pavilions (R347 to R356, R495, R496) -/

namespace Sys2Proof.Machine
open Sys2Proof.Claims

/-! ### Placement and time slices (R348, R350, R351) -/

section
variable {s s₁ : State} {l pf q : Nat} {cores victims : List Nat} {ln y : Launch} {x : Queue}

/-- R350: a launch wants a team, or its gang, on as many cores as that takes, and no launch that comes first waits for one. -/
structure MayPlace (s : State) (l : Nat) (cores : List Nat) (ln : Launch) : Prop where
  launch : s.launch? l = some ln
  wants : s.wantsTeam ln = true
  size : cores.length = s.unitSize ln
  first : s.outranked ln cores = false

section
variable (h : MayPlace s l cores ln)
include h

theorem execTeamPlacement_eq : execTeamPlacement l cores victims s =
    if victims.isEmpty then .next ((s.placeAll l cores).getD s)
    else if s.goodVictims l cores victims (fun y => s.launchLevel ln < s.launchLevel y) [] then .next (s.stopTeams victims)
    else .next s := by
  obtain ⟨hlaunch, hwants, hsize, hfirst⟩ := h
  simp only [execTeamPlacement, hlaunch, hwants, hsize, hfirst, bne_self_eq_false, Bool.not_true, Bool.or_self, Bool.false_eq_true, if_false]

theorem execTeamPlacement_places (hplaced : s.placeAll l cores = some s₁) : execTeamPlacement l cores [] s = .next s₁ := by
  rw [execTeamPlacement_eq h, hplaced]; rfl

theorem execTeamPlacement_displaces (hsome : victims ≠ [])
    (hgood : s.goodVictims l cores victims (fun y => s.launchLevel ln < s.launchLevel y) [] = true) :
    execTeamPlacement l cores victims s = .next (s.stopTeams victims) := by
  rw [execTeamPlacement_eq h, if_neg (mt List.isEmpty_iff.1 hsome), if_pos hgood]

end

theorem execGangTimeout_ends {d : Nat} (hlaunch : s.launch? l = some ln) (hgang : ln.gangBy = some d)
    (hover : d ≤ (s.die (s.queueOf ln).die).time) : execGangTimeout l s = .next (s.endAs ln 0x03 0) := by
  simp only [execGangTimeout, hlaunch, hgang, hover, if_true]

section
variable (h : SliceOver s pf q x)
include h

theorem execTimeSliceExpiry_again (halone : s.rival x = none) : execTimeSliceExpiry pf q victims s = .next (sliceAgain s pf q) := by
  obtain ⟨hqueue, hholds, helapsed⟩ := h
  simp only [execTimeSliceExpiry, hqueue, hholds, decide_eq_false (Nat.not_lt.2 helapsed), halone, Bool.not_true, Bool.or_self,
    Bool.false_eq_true, if_false]
  rfl

theorem execTimeSliceExpiry_turns (hrival : s.rival x = some y) (hturns : (s.ctx pf x.ctx).hostRuns = false)
    (hroom : (s.coresWithout y (victims ++ s.others x y)).length = s.unitSize y)
    (hgood : s.goodVictims y.id (s.coresWithout y (victims ++ s.others x y)) victims (ofQueue pf q) (s.others x y) = true) :
    execTimeSliceExpiry pf q victims s = .next ((sliceAgain (s.stopTeams victims) pf q).modQueue pf q fun x =>
      { x with served := (s.queues.map (·.served)).foldl max 0 + 1 }) := by
  obtain ⟨hqueue, hholds, helapsed⟩ := h
  simp only [execTimeSliceExpiry, hqueue, hholds, decide_eq_false (Nat.not_lt.2 helapsed), hrival, hturns, hroom, hgood, Bool.not_true,
    Bool.or_self, Bool.false_eq_true, decide_true, Bool.and_self, if_false, if_true]
  rfl

end
end

theorem exec_teamPlacement (l : Nat) (cores victims : List Nat) (s : State) :
    exec (.teamPlacement l cores victims) s = execTeamPlacement l cores victims s := rfl
theorem exec_gangTimeout (l : Nat) (s : State) : exec (.gangTimeout l) s = execGangTimeout l s := rfl
theorem exec_timeSliceExpiry (pf q : Nat) (victims : List Nat) (s : State) :
    exec (.timeSliceExpiry pf q victims) s = execTimeSliceExpiry pf q victims s := rfl

/-! ### Saves and replay passes (R347, R353 to R356, R495) -/

section
variable {s : State} {l : Nat} {ln : Launch} {r : Replay}
variable (hlaunch : s.launch? l = some ln)
include hlaunch

section
variable (hid : ln.id = l) (hrest : AtRest s ln)
include hid hrest

/-- R353: the save of teams at rest completes, a replay by its restore. -/
theorem execSaveComplete_eq : execSaveComplete l s = match ln.replay with
    | some r => .next (if ln.halting then ((s.killTeams l).restorePass ln r).endReplay s ln r 0x02 ln.save
        else if r.overflow then s.endOverflow ln r else s.abandonPass ln r)
    | none => .next (s.finishSave ln (stopping s l)) := by
  subst hid
  obtain ⟨hsome, hstopped, hall⟩ := hrest
  have hwaits : ((stopping s ln.id).isEmpty && !ln.halting ||
      !(stopping s ln.id).all (fun t => t.atRest && !s.waits.any (·.arrives t.id)) ||
      (ln.halting || ln.hdr.gang) && (s.teamsOfLaunch ln.id).any Team.active) = false := by
    refine Bool.or_eq_false_iff.2 ⟨Bool.or_eq_false_iff.2 ⟨?due, ?stopped⟩, ?all⟩
    case due =>
      rw [Bool.and_eq_false_iff, List.isEmpty_eq_false_iff, Bool.not_eq_false']
      exact hsome
    case stopped =>
      rw [Bool.not_eq_false', List.all_eq_true]
      intro tm htm
      rw [(hstopped tm htm).1, (hstopped tm htm).2]
      rfl
    case all =>
      rw [Bool.and_eq_false_imp, Bool.or_eq_true, List.any_eq_false]
      exact fun h tm htm => Bool.eq_false_iff.1 (hall h tm htm)
  simp only [execSaveComplete, hlaunch]
  exact if_neg (Bool.eq_false_iff.1 hwaits)

theorem execSaveComplete_saves (hplain : ln.replay = none) : execSaveComplete l s = .next (s.finishSave ln (stopping s l)) := by
  rw [execSaveComplete_eq hlaunch hid hrest, hplain]

variable (hreplay : ln.replay = some r)
include hreplay

theorem execSaveComplete_halts (hhalt : ln.halting = true) :
    execSaveComplete l s = .next (((s.killTeams l).restorePass ln r).endReplay s ln r 0x02 ln.save) := by
  simp only [execSaveComplete_eq hlaunch hid hrest, hreplay, hhalt, if_true]

variable (hgo : ln.halting = false)
include hgo

theorem execSaveComplete_overflows (hfull : r.overflow = true) :
    execSaveComplete l s = .next (((s.killTeams l).restorePass ln r).endReplay s ln r 0x07 0) := by
  simp only [execSaveComplete_eq hlaunch hid hrest, hreplay, hgo, hfull, Bool.false_eq_true, if_false, if_true, State.endOverflow, hid]

theorem execSaveComplete_abandons (hroom : r.overflow = false) : execSaveComplete l s = .next (s.abandonPass ln r) := by
  simp only [execSaveComplete_eq hlaunch hid hrest, hreplay, hgo, hroom, Bool.false_eq_true, if_false]

end

theorem execReplayPassRestore_ends (hreplay : ln.replay = some r) (hgo : ln.halting = false) :
    execReplayPassRestore l s = .next (s.passEnd ln r) := by
  simp only [execReplayPassRestore, hlaunch, hreplay, hgo, Bool.false_eq_true, if_false]

/-- R355. -/
theorem execReplayPassRestore_overflows (hid : ln.id = l) (hreplay : ln.replay = some r) (hgo : ln.halting = false)
    (hfull : r.overflow = true) :
    execReplayPassRestore l s = .next (((s.killTeams l).restorePass ln r).endReplay s ln r 0x07 0) := by
  rw [execReplayPassRestore_ends hlaunch hreplay hgo, State.passEnd, if_pos hfull, State.endOverflow, hid]

end

/-- R495: the context of a team that does not come to rest ends. -/
theorem execStopWatchdogExpiry_terminates {s : State} {t : Nat} {tm : Team} (hteam : s.team? t = some tm) (hst : tm.st = .saving)
    (hbusy : tm.atRest = false) (hover : tm.watchdog ≤ (s.die (dieOfCore tm.core)).time) (hcool : s.trip4Due (dieOfCore tm.core) = false) :
    execStopWatchdogExpiry t s = .next { (s.terminate (s.launchOf tm.launch).pf (s.queueOf (s.launchOf tm.launch)).ctx 0x82) with
      pfail := true } := by
  simp only [execStopWatchdogExpiry, hteam, hst, hbusy, decide_eq_true hover, hcool, beq_self_eq_true, Bool.not_false, Bool.and_self, if_true]

/-! ### Stealing (R349) -/

section
variable {s : State} {die : Nat}

/-- R349: a die that serves, with no resident team and no launch that it can place. -/
structure Idle (s : State) (die : Nat) : Prop where
  serves : s.serves die = true
  opened : s.shut die = false
  empty : ∀ t ∈ s.teams, dieOfCore t.core ≠ die
  stuck : ∀ y ∈ s.launches, y.die = some die → s.wantsTeam y = true → (s.unitCores y).length ≠ s.unitSize y

theorem execStealRequest_steals {y : Launch} (h : Idle s die)
    (hy : (if s.reaches die (ringNext die) && s.serves (ringNext die) then s.stealable die (ringNext die) else none).or
      (if s.reaches die (ringPrev die) && s.serves (ringPrev die) then s.stealable die (ringPrev die) else none) = some y) :
    execStealRequest die s = .next (s.modLaunch y.id fun x => { x with die := some die }) := by
  obtain ⟨hserves, hopen, hempty, hstuck⟩ := h
  have hteams : (s.teams.any fun t => dieOfCore t.core == die) = false := by
    simpa only [List.any_eq_false, beq_iff_eq] using hempty
  have hlaunches : (s.launches.any fun y => y.die == some die && s.wantsTeam y && (s.unitCores y).length == s.unitSize y) = false := by
    simpa only [List.any_eq_false, Bool.and_eq_true, beq_iff_eq, not_and, and_imp] using hstuck
  simp only [execStealRequest, hy, hserves, hopen, hteams, hlaunches, Bool.not_false, Bool.and_self, if_true]

end

theorem exec_saveComplete (l : Nat) (s : State) : exec (.saveComplete l) s = execSaveComplete l s := rfl
theorem exec_replayPassRestore (l : Nat) (s : State) : exec (.replayPassRestore l) s = execReplayPassRestore l s := rfl
theorem exec_stopWatchdogExpiry (t : Nat) (s : State) : exec (.stopWatchdogExpiry t) s = execStopWatchdogExpiry t s := rfl
theorem exec_stealRequest (die : Nat) (s : State) : exec (.stealRequest die) s = execStealRequest die s := rfl
theorem exec_runListWrite (die pf : Nat) (rows : List (Nat × Nat × Nat)) (s : State) :
    exec (.runListWrite die pf rows) s = execRunListWrite die pf rows s := rfl

end Sys2Proof.Machine

namespace Sys2Proof.Proofs
open Sys2Proof.Machine Sys2Proof.Claims

/-- Settles O33: each clause is what the happening comes to where its launch, its bound or its slice stands so. -/
theorem placement : Obligations.Placement := by
  intro l pf q d cores victims s s₁ ln y x ready
  have hready : ready → MayPlace s l cores ln := fun ⟨hlaunch, hwants, hsize, hfirst⟩ => ⟨hlaunch, hwants, hsize, hfirst⟩
  simp only [exec_teamPlacement, exec_gangTimeout, exec_timeSliceExpiry]
  exact ⟨fun h => execTeamPlacement_places (hready h), fun h => execTeamPlacement_displaces (hready h), execGangTimeout_ends,
    execTimeSliceExpiry_again, execTimeSliceExpiry_turns⟩

/-- Settles O34: each clause is what the happening comes to where its launch, team, die or run list stands so. -/
theorem pavilionHappenings : Obligations.PavilionHappenings := by
  intro l t die pf rows s ln y tm r ask idle owner listed told
  have hidle : idle → Idle s die := fun ⟨hserves, hopen, hempty, hstuck⟩ => ⟨hserves, hopen, hempty, hstuck⟩
  simp only [exec_saveComplete, exec_replayPassRestore, exec_stopWatchdogExpiry, exec_stealRequest, exec_runListWrite]
  exact ⟨fun hl hid hplain hrest => execSaveComplete_saves hl hid hrest hplain,
    fun hl hid hr hrest => execSaveComplete_abandons hl hid hrest hr,
    fun hl hid hr hrest => execSaveComplete_halts hl hid hrest hr,
    fun hl hid hr hrest => execSaveComplete_overflows hl hid hrest hr,
    execReplayPassRestore_overflows, execStopWatchdogExpiry_terminates, execReplayPassRestore_ends,
    fun h => execStealRequest_steals (hidle h), rfl⟩

end Sys2Proof.Proofs

/-! ## Contexts and queues through the window (R369 to R372, R493) -/

namespace Sys2Proof.Machine
open Sys2Proof.Claims

section
variable {s : State} {pf num q i : Nat} {d : List Byte} {c : Context} {x : Queue}

/-- R370: a context stands, its number the device's choice, with its partitions cleared. -/
def State.contextMade (s : State) (pf : Nat) (d : List Byte) : State :=
  let n := pickOf s.free (freeNumbers s pf)
  let s₁ := { s with mode := field d 0 4 % 4, contexts := s.contexts ++ [contextOf d pf n], free := s.free + 1 }
  { s₁ with mem := (s₁.partitions pf n).foldl (fun m (p : Nat × Nat) => m.clear p.1 p.2) s.mem }

theorem State.newContext_creates (h : Creatable s pf d) :
    s.newContext pf = (s.contextMade pf d, pickOf s.free (freeNumbers s pf), 0) := by
  obtain ⟨hup, hidle, hfirmware, hread, hlayout, hsigned, hmode, hleads, hroom, hserves⟩ := h
  have hbad : (!goodContext d || ((field d 0 4).testBit 7 && Config.countersignHash.all (· == 0))) = false := by
    rw [hlayout, Bool.not_true, Bool.false_or, Bool.eq_false_iff, ne_eq, Bool.and_eq_true]
    exact hsigned
  have hother : (!s.live.isEmpty && field d 0 4 % 4 != s.mode) = false := by
    rw [Bool.and_eq_false_iff, Bool.not_eq_false', List.isEmpty_iff, bne_eq_false_iff_eq]
    exact hmode
  have hfull : (decide (64 ≤ ((s.contexts.filter fun c => c.pf == pf).map (·.num)).length) ||
      decide (256 < s.dspUsed pf + field d 28 4) || (deviceDies (field d 0 4 % 4) pf).any fun x => !s.serves x) = false := by
    rw [List.length_map, decide_eq_false (Nat.not_le.2 hroom.1), decide_eq_false (Nat.not_lt.2 hroom.2), Bool.false_or, Bool.false_or,
      List.any_eq_false]
    exact fun x hx => by rw [hserves x hx]; decide
  simp only [State.newContext, hfirmware, hread, hbad, hother, hfull, List.isEmpty_iff, hleads, Bool.false_eq_true, if_false]
  rfl

theorem execCreateContext_creates (h : Creatable s pf d) :
    execCreateContext pf s = .next ((s.contextMade pf d).ctxStat pf (pickOf s.free (freeNumbers s pf)) 0) := by
  have hopen : (!s.hostUp || s.ctxBusy pf) = false := by rw [h.up, h.idle]; rfl
  rw [execCreateContext, hopen, State.newContext_creates h]
  rfl

section
variable (hup : s.hostUp = true) (hidle : s.ctxBusy pf = false)
include hup hidle

theorem execDestroyContext_destroys (hc : s.ctx? pf num = some c) :
    execDestroyContext pf num s = .next ((s.killContext pf num).ctxStat pf 0 0) := by
  simp only [execDestroyContext, hup, hidle, State.dropContext, hc, Bool.not_false, Bool.and_self, if_true]

theorem execDestroyContext_none (hc : s.ctx? pf num = none) : execDestroyContext pf num s = .next (s.ctxStat pf 0 5) := by
  simp only [execDestroyContext, hup, hidle, State.dropContext, hc, Bool.not_false, Bool.and_self, if_true]

/-- R371: a queue of a context takes the lowest free number. -/
theorem execCreateQueue_creates (hfirmware : s.fw.recovery = false) (hleads : s.devDies pf ≠ []) (hread : s.descriptor pf = some d)
    (hlayout : goodQueue d = true) (hc : s.ctx? pf (field d 12 4) = some c)
    (hfree : ((List.range (64 * (s.devDies pf).length)).find? fun i => (s.queue? pf i).isNone) = some i) : execCreateQueue pf s = .next
      ({ s with queues := s.queues ++ [queueFrom d pf i ((s.devDies pf).getD (i / 64) 0)] }.ctxStat pf i 0) := by
  simp only [execCreateQueue, hup, hidle, State.newQueue, hfirmware, List.isEmpty_iff, hleads, hread, hlayout, hc, hfree,
    Option.isNone_some, Bool.not_true, Bool.or_self, Bool.false_eq_true, if_false]

theorem execDestroyQueue_destroys (hx : s.queue? pf q = some x) :
    execDestroyQueue pf q s = .next ((s.killQueue pf q 0x84).ctxStat pf 0 0) := by
  simp only [execDestroyQueue, hup, hidle, State.dropQueue, hx, Bool.not_false, Bool.and_self, if_true]

theorem execDestroyQueue_none (hx : s.queue? pf q = none) : execDestroyQueue pf q s = .next (s.ctxStat pf 0 5) := by
  simp only [execDestroyQueue, hup, hidle, State.dropQueue, hx, Bool.not_false, Bool.and_self, if_true]

end

/-! R372. -/

theorem execQueueSuspend_up (hup : s.hostUp = true) : execQueueSuspend pf q s = .next (s.suspendQueue pf q) := by
  rw [execQueueSuspend, if_pos hup]

theorem execQueueResume_up (hup : s.hostUp = true) : execQueueResume pf q s = .next (s.resumeQueue pf q) := by
  rw [execQueueResume, if_pos hup]

end

theorem exec_createContext (pf : Nat) (s : State) : exec (.createContext pf) s = execCreateContext pf s := rfl
theorem exec_destroyContext (pf num : Nat) (s : State) : exec (.destroyContext pf num) s = execDestroyContext pf num s := rfl
theorem exec_createQueue (pf : Nat) (s : State) : exec (.createQueue pf) s = execCreateQueue pf s := rfl
theorem exec_destroyQueue (pf q : Nat) (s : State) : exec (.destroyQueue pf q) s = execDestroyQueue pf q s := rfl
theorem exec_queueSuspend (pf q : Nat) (s : State) : exec (.queueSuspend pf q) s = execQueueSuspend pf q s := rfl
theorem exec_queueResume (pf q : Nat) (s : State) : exec (.queueResume pf q) s = execQueueResume pf q s := rfl

end Sys2Proof.Machine

namespace Sys2Proof.Proofs
open Sys2Proof.Machine

/-- Settles O35: a command that CTXSTAT lets through comes to what its descriptor and the numbers in use allow; a queue is suspended and
resumed as PREEMPT says. -/
theorem contextCommands : Obligations.ContextCommands := by
  intro pf num q i d s c x n s₁ s₂ dies
  simp only [exec_createContext, exec_destroyContext, exec_createQueue, exec_destroyQueue, exec_queueSuspend, exec_queueResume]
  exact ⟨execCreateContext_creates, execDestroyContext_destroys, execDestroyContext_none, execCreateQueue_creates,
    execDestroyQueue_destroys, execDestroyQueue_none, execQueueSuspend_up, execQueueResume_up⟩

end Sys2Proof.Proofs

/-! ## Fragments that wait (R39, R85, R256, R459, R461) -/

namespace Sys2Proof.Machine
open Sys2Proof.Claims

section
variable {t g : Nat} {s s₁ s₂ : State} {fr : Frag}

/-! R459, R460: a trap that waits enters once its warp's frame is free; one in the privileged state halts the grid. -/

section
variable {x : TrapInfo} (h : Stands s t g fr .frame) (htrap : fr.trap = some x)
include h htrap

theorem execTrapEntry_enters (hpriv : fr.priv = false) (hfree : ((s.envAt t g).tm.warp fr.warp).frame = false) :
    execTrapEntry t g s = .next (s.enterTrap (s.envAt t g) x) := by
  obtain ⟨hactor, hst⟩ := h
  simp only [execTrapEntry, hactor, hst, htrap, hpriv, hfree, Bool.false_eq_true, if_false]

theorem execTrapEntry_second (hpriv : fr.priv = true) : execTrapEntry t g s = .next (s.secondTrap (s.envAt t g) x) := by
  obtain ⟨hactor, hst⟩ := h
  simp only [execTrapEntry, hactor, hst, htrap, hpriv, if_true]

end

/-- R461: a poll that finds a command clears it and acts on it. (The local definitions stay folded: the kernel would evaluate the value
that is read.) -/
theorem execHcmdPoll_acts {p v : Nat} (h : Stands s t g fr .host)
    (hreach : (s.dropL1 (s.envAt t g).core).reachVa (.unit (s.envAt t g).g) (s.envAt t g).pf
      ((s.envAt t g).ctx (s.dropL1 (s.envAt t g).core)) (s.envAt t g).die
      ((s.envAt t g).ln.headVa (s.envAt t g).tm.num (s.envAt t g).fr.warp + 112) .read = .ok (s₁, p))
    (hv : s₁.mem.nat p 8 = v) (hsome : v ≠ 0)
    (hwrite : s₁.deviceWrite (.unit (s.envAt t g).g) (s.envAt t g).pf ((s.envAt t g).ctx s₁) (s.envAt t g).die
      ((s.envAt t g).ln.headVa (s.envAt t g).tm.num (s.envAt t g).fr.warp + 112) (leBytes 8 0) = .ok s₂) :
    execHcmdPoll t g s = .next (s₂.hcmd (s.envAt t g) v) := by
  obtain ⟨hactor, hst⟩ := h
  unfold execHcmdPoll
  rw [hactor]
  dsimp -zeta only
  rw [hst, bne_self_eq_false, if_neg Bool.false_ne_true]
  extract_lets e va s'
  have hreach' : s'.reachVa (.unit e.g) e.pf (e.ctx s') e.die va .read = .ok (s₁, p) := hreach
  rw [hreach']
  dsimp -zeta only
  extract_lets v'
  have hwrite' : s₁.deviceWrite (.unit e.g) e.pf (e.ctx s₁) e.die va (leBytes 8 0) = .ok s₂ := hwrite
  rw [if_neg (hv.trans_ne hsome), hwrite', show v' = v from hv]

theorem State.hcmd_one (s : State) (e : Env) : s.hcmd e 1 = s.resumeFrame e.t e.g := rfl
theorem State.hcmd_two (s : State) (e : Env) :
    s.hcmd e 2 = (s.modFrag e.t e.g fun fr => { fr with st := .running, fromFrame := true }).haltLaunch e.ln.id := rfl
theorem State.hcmd_three (s : State) (e : Env) : s.hcmd e 3 = s.terminate e.pf (e.ctx s) 0x84 := rfl

theorem execRfGatherReturn_returns {tid : Nat} {f : Fields} {left : List Nat} (h : Stands s t g fr (.gather f left)) (hleft : tid ∈ left) :
    execRfGatherReturn t g tid s = .next (s.gatherBack t g tid f left) := by
  obtain ⟨hactor, hst⟩ := h
  simp only [execRfGatherReturn, hactor, hst, List.contains_iff_mem.2 hleft, if_true]

/-- R39: no late report precedes the park. -/
theorem execFragmentPark_parks (hissue : s.canIssue t g = true) (hjoin : (s.envAt t g).tm.atJoin (s.envAt t g).fr = true)
    (hnone : ((s.deliverFrag t g).team t).late g = none) : execFragmentPark t g s = .next ((s.deliverFrag t g).parkFrag t g) := by
  simp only [execFragmentPark, hissue, hjoin, hnone, Bool.and_self, if_true]

end

theorem exec_trapEntry (t g : Nat) (s : State) : exec (.trapEntry t g) s = execTrapEntry t g s := rfl
theorem exec_hcmdPoll (t g : Nat) (s : State) : exec (.hcmdPoll t g) s = execHcmdPoll t g s := rfl
theorem exec_rfGatherReturn (t g tid : Nat) (s : State) : exec (.rfGatherReturn t g tid) s = execRfGatherReturn t g tid s := rfl
theorem exec_fragmentPark (t g : Nat) (s : State) : exec (.fragmentPark t g) s = execFragmentPark t g s := rfl

end Sys2Proof.Machine

namespace Sys2Proof.Proofs
open Sys2Proof.Machine

/-- Settles O22: each clause is what the happening comes to where the fragment waits so. -/
theorem fragmentHappenings : Obligations.FragmentHappenings := by
  intro t g i tid s s₁ s₂ fr x f left p v e va
  simp only [exec_trapEntry, exec_hcmdPoll, exec_rfGatherReturn, exec_fragmentPark]
  refine ⟨execTrapEntry_enters, execTrapEntry_second, fun h hreach hv hsome hwrite => ?command, rfl, execRfGatherReturn_returns,
    execFragmentPark_parks⟩
  case command =>
    have hacts := execHcmdPoll_acts h hreach hv hsome hwrite
    exact ⟨fun hone => by rw [hacts, hone, State.hcmd_one], fun htwo => by rw [hacts, htwo, State.hcmd_two],
      fun hthree => by rw [hacts, hthree, State.hcmd_three]⟩

end Sys2Proof.Proofs

/-! ## The thermal ladder and the regulators (R501 to R504) -/

namespace Sys2Proof.Machine

section
variable {d : Nat} {s : State} (hd : d < 4) (hon : (s.die d).off = false)
include hd hon

theorem execThermalSample_trips {sensor : Nat} (temp : Int) (hsensor : sensor < 8) (htick : (s.die d).time % 50000 = 0) :
    execThermalSample d temp sensor s = .next (((s.tripWarn d temp sensor).tripThrottle d temp sensor).tripHalt d temp sensor) := by
  simp only [execThermalSample, hon, htick, decide_eq_false (Nat.not_le.2 hd), decide_eq_false (Nat.not_le.2 hsensor), bne_self_eq_false,
    Bool.or_self, Bool.false_eq_true, if_false]

theorem execPowerRemoved_removes {temp : Int} (hhot : celsius 135 ≤ temp) : execPowerRemoved d temp s =
    .next (((s.removePower d 0xA0).1.systemEvent [d] d 0x45 0xA0
      (sysDetail d 0xFF (temp16 temp) (s.removePower d 0xA0).2)).refuseGangs) := by
  simp only [execPowerRemoved, hon, decide_eq_false (Nat.not_le.2 hd), decide_eq_false (Int.not_lt.2 hhot), Bool.or_self, Bool.false_eq_true,
    if_false]

/-- R504: the supply of a quadrant. -/
theorem execRegulatorFault_quadrant {sensor : Nat} (hquad : sensor < 4) : execRegulatorFault d sensor s =
    .next (((((s.contextsOn d sensor).foldl (fun s c => s.terminate c.pf c.num 0xA1) s).modDie d fun x =>
      { x with quadLost := insertNat sensor x.quadLost }).systemEvent [d] d 0x51 0xA1
        (sysDetail d sensor 0 (s.contextsOn d sensor).length)).refuseGangs) := by
  have hsensor : ¬ 8 ≤ sensor := by omega
  simp only [execRegulatorFault, hon, hquad, decide_eq_false (Nat.not_le.2 hd), decide_eq_false hsensor, Bool.or_self, Bool.false_eq_true,
    if_false, if_true]

/-- R504: the supply of a DRAM layer. -/
theorem execRegulatorFault_layer {sensor : Nat} (hlayer : 4 ≤ sensor) (hsensor : sensor < 8) : execRegulatorFault d sensor s =
    .next (((s.removePower d 0xA1).1.systemEvent [d] d 0x51 0xA1 (sysDetail d sensor 0 (s.removePower d 0xA1).2)).refuseGangs) := by
  simp only [execRegulatorFault, hon, Nat.not_lt.2 hlayer, decide_eq_false (Nat.not_le.2 hd), decide_eq_false (Nat.not_le.2 hsensor),
    Bool.or_self, Bool.false_eq_true, if_false]

end

theorem exec_thermalSample (d : Nat) (temp : Int) (sensor : Nat) (s : State) :
    exec (.thermalSample d temp sensor) s = execThermalSample d temp sensor s := rfl
theorem exec_powerRemoved (d : Nat) (temp : Int) (s : State) : exec (.powerRemoved d temp) s = execPowerRemoved d temp s := rfl
theorem exec_regulatorFault (d sensor : Nat) (s : State) : exec (.regulatorFault d sensor) s = execRegulatorFault d sensor s := rfl

end Sys2Proof.Machine

namespace Sys2Proof.Proofs
open Sys2Proof.Machine

/-- Settles O40: on a die that is powered no guard stops the sample or the fault. -/
theorem thermalLadder : Obligations.ThermalLadder := by
  intro d sensor temp s s₁ n hit lost hd hon
  simp only [exec_thermalSample, exec_powerRemoved, exec_regulatorFault]
  exact ⟨execThermalSample_trips hd hon temp, execPowerRemoved_removes hd hon, execRegulatorFault_quadrant hd hon,
    execRegulatorFault_layer hd hon⟩

end Sys2Proof.Proofs

/-! ## Links and the scrubber (R480, R497 to R499) -/

namespace Sys2Proof.Machine

section
variable {k : Nat} {s : State}

/-- R497: the times of the retrains within one second of this one, which is the first of them. -/
def State.retrainTimes (s : State) (k : Nat) : List Nat :=
  (s.die ((linkEnds k).getD 0 0)).time :: (s.link k).recent.filter fun t => (s.die ((linkEnds k).getD 0 0)).time < t + 1000000000

/-- R497: the link as its retrain starts. -/
def State.startRetrain (s : State) (k : Nat) : State := s.modLink k fun x =>
  { x with retraining := true, replays := 0, retrains := x.retrains + 1, recent := s.retrainTimes k }

section
variable (hup : (s.link k).failed = false) (hidle : (s.link k).retraining = false)
include hup hidle

theorem execFlitReplay_replays (again : Bool) (hfew : (s.link k).replays < 8) : execFlitReplay k again s =
    .next (s.modLink k fun x => { x with replays := if again then x.replays + 1 else 1, retried := x.retried + 1 }) := by
  simp only [execFlitReplay, hup, hidle, decide_eq_false (Nat.not_le.2 hfew), Bool.or_self, Bool.false_eq_true, if_false]

theorem execLinkRetrain_starts (heighth : 8 ≤ (s.link k).replays) : execLinkRetrain k s =
    .next (if 3 ≤ (s.retrainTimes k).length then (s.startRetrain k).failLink k else s.startRetrain k) := by
  simp only [execLinkRetrain, hup, hidle, decide_eq_false (Nat.not_lt.2 heighth), Bool.or_self, Bool.false_eq_true, if_false]
  rfl

end

theorem execLinkRetrainEnd_done (hretrain : (s.link k).retraining = true) : execLinkRetrainEnd k true s =
    .next ((s.modLink k fun x => { x with retraining := false }).retrained k) := by
  simp only [execLinkRetrainEnd, hretrain, Bool.not_true, Bool.false_eq_true, if_false, if_true]

theorem execLinkRetrainEnd_fails (hretrain : (s.link k).retraining = true) : execLinkRetrainEnd k false s = .next (s.failLink k) := by
  simp only [execLinkRetrainEnd, hretrain, Bool.not_true, Bool.false_eq_true, if_false]

theorem execHostLinkDown_ends (hup : s.hostUp = true) : execHostLinkDown s =
    .next (s.contexts.foldl (fun s c => (s.terminate c.pf c.num 0x92).killContext c.pf c.num) { s with hostUp := false, hld := true }) := by
  simp only [execHostLinkDown, hup, Bool.not_true, Bool.false_eq_true, if_false]

end

/-- R480: a word of a powered die's DRAM comes to its data error, to nothing, or to a count of what was corrected. -/
theorem execPatrolScrub_reads {d word : Nat} (n : Nat) {s : State} (hd : d < 4) (hword : 64 * word < dramBytes) (hon : (s.die d).off = false) :
    execPatrolScrub d word n s = if s.isBad (placeDram d (64 * word)) then .next (s.dieDataError d (placeDram d (64 * word)))
      else if n = 0 then .next s else .next (s.noteCorrected d n (placeDram d (64 * word))) := by
  simp only [execPatrolScrub, hon, decide_eq_false (Nat.not_le.2 hd), decide_eq_false (Nat.not_le.2 hword), Bool.or_self, Bool.false_eq_true,
    if_false]

theorem exec_flitReplay (k : Nat) (again : Bool) (s : State) : exec (.flitReplay k again) s = execFlitReplay k again s := rfl
theorem exec_linkRetrain (k : Nat) (s : State) : exec (.linkRetrain k) s = execLinkRetrain k s := rfl
theorem exec_linkRetrainEnd (k : Nat) (ok : Bool) (s : State) : exec (.linkRetrainEnd k ok) s = execLinkRetrainEnd k ok s := rfl
theorem exec_hostLinkDown (s : State) : exec .hostLinkDown s = execHostLinkDown s := rfl
theorem exec_patrolScrub (d word n : Nat) (s : State) : exec (.patrolScrub d word n) s = execPatrolScrub d word n s := rfl

end Sys2Proof.Machine

namespace Sys2Proof.Proofs
open Sys2Proof.Machine

/-- Settles O41: a retrain splits by the count of those within a second, and a scrubbed word by what was found in it. -/
theorem linksAndScrub : Obligations.LinksAndScrub := by
  intro k d word n again s x recent s₁ place down
  simp only [exec_flitReplay, exec_linkRetrain, exec_linkRetrainEnd, exec_hostLinkDown, exec_patrolScrub]
  refine ⟨fun hup hidle => execFlitReplay_replays hup hidle again, fun hup hidle heighth hfew => ?starts,
    fun hup hidle heighth hthird => ?fails, execLinkRetrainEnd_done, execLinkRetrainEnd_fails, execHostLinkDown_ends, rfl,
    fun hd hword hon => ?scrub⟩
  case starts =>
    exact (execLinkRetrain_starts hup hidle heighth).trans (congrArg _ (if_neg (Nat.not_le.2 hfew)))
  case fails =>
    exact (execLinkRetrain_starts hup hidle heighth).trans (congrArg _ (if_pos hthird))
  case scrub =>
    rw [execPatrolScrub_reads n hd hword hon]
    exact ⟨fun hbad => if_pos hbad, fun hgood hnone => by rw [if_neg (Bool.eq_false_iff.1 hgood), if_pos hnone],
      fun hgood hsome => by rw [if_neg (Bool.eq_false_iff.1 hgood), if_neg hsome]⟩

end Sys2Proof.Proofs

/-! ## The management endpoint (R376, R396, R401 to R403, R507) -/

namespace Sys2Proof.Machine

/-! ### Which requests are served -/

section
variable {s : State}

theorem State.ready_busy (hload : s.fw.loading = true) (f : State → State) : s.ready f = s.answer (.error "Busy") := if_pos hload

theorem State.ready_serves (hload : s.fw.loading = false) (f : State → State) : s.ready f = f s :=
  if_neg (Bool.eq_false_iff.1 hload)

variable {v : Nat} {need : List Session} {f : State → State}

theorem State.spdm_busy (hload : s.fw.loading = true) : s.spdm v need f = s.answer (.error "Busy") := State.ready_busy hload _

/-- R401: after a choice of no algorithm. -/
theorem State.spdm_ended (hload : s.fw.loading = false) (hnone : s.session = .none_) :
    s.spdm v need f = s.answer (.error "UnexpectedRequest") := (State.ready_serves hload _).trans (if_pos hnone)

theorem State.spdm_mismatch (hload : s.fw.loading = false) (hsome : s.session ≠ .none_) (hv : v ≠ 0x13) :
    s.spdm v need f = s.answer (.error "VersionMismatch") :=
  (State.ready_serves hload _).trans ((if_neg hsome).trans (if_pos hv))

theorem State.spdm_serves {x : Session} (hload : s.fw.loading = false) (hx : s.session = x) (hsome : x ≠ .none_)
    (hneed : need.contains x = true) : s.spdm 0x13 need f = f s := by
  subst hx
  have hversion : ¬ 0x13 ≠ spdmVersion := fun h => h rfl
  simp only [State.spdm, State.ready_serves hload, if_neg hsome, if_neg hversion, hneed, Bool.not_true, Bool.false_eq_true, if_false]

theorem State.spdm_selected (hload : s.fw.loading = false) (hx : s.session = .selected) : s.spdm 0x13 [.selected] f = f s :=
  State.spdm_serves hload hx nofun rfl

end

/-! ### Signed answers (R402, R507) -/

section
variable {s : State} {body : List Byte} {f : OpaqueElement → List Byte → Answer}

/-- R507: the signatures over a transcript pass the device's own check. -/
def Sound (body : List Byte) : Prop := Config.slhVerify Config.slhKey (coSigned body).coSignature body = true ∧
  Config.rsaVerify Config.leafKey (Config.rsaSign ((coSigned body).cover body)) ((coSigned body).cover body) = true

theorem State.respond_sends (signed : Bool) (h : Sound body) : s.respond signed body f =
    s.answer (f (coSigned body) (if signed then Config.rsaSign ((coSigned body).cover body) else [])) := by
  obtain ⟨hco, hrsa⟩ := h
  cases signed with
  | false => simp only [State.respond, hco, Bool.not_false, Bool.true_or, Bool.and_self, if_true]
  | true => simp only [State.respond, hco, hrsa, Bool.or_true, Bool.and_self, if_true]

theorem State.respond_withholds (h : ¬ Sound body) : s.respond true body f = s.answer (.error "Unspecified") := by
  refine if_neg fun hc => h ?_
  simpa only [Sound, Bool.not_true, Bool.false_or, Bool.and_eq_true, if_true] using hc

end

/-! ### The requests, each in its place -/

section
variable {s : State} (hload : s.fw.loading = false)
include hload

theorem execGetVersion_serves (hsome : s.session ≠ .none_) :
    execGetVersion s = .next ({ s with session := .versioned }.answer (.version 0x13)) := by
  rw [execGetVersion, State.ready_serves hload, if_neg hsome]
  rfl

theorem execGetVersion_ended (hnone : s.session = .none_) : execGetVersion s = .next (s.answer (.error "UnexpectedRequest")) := by
  rw [execGetVersion, State.ready_serves hload, if_pos hnone]

theorem execGetCapabilities_serves (hx : s.session = .versioned) :
    execGetCapabilities 0x13 s = .next ({ s with session := .capable }.answer (.capabilities true true true true 22)) :=
  congrArg _ (State.spdm_serves hload hx nofun rfl)

theorem execNegotiateAlgorithms_serves (asym hash : List Nat) (meas : MeasurementOffer) (hx : s.session = .capable) :
    execNegotiateAlgorithms 0x13 asym hash meas s = .next ({ s with
      session := if asym.contains 0 || hash.contains 0 || meas.hashes.contains 0 || meas.specs.contains 0 then .selected else .none_ }.answer
      (.algorithms (asym.contains 0) (hash.contains 0) (meas.hashes.contains 0) (meas.specs.contains 0))) :=
  congrArg _ (State.spdm_serves hload hx nofun rfl)

section
variable (hx : s.session = .selected)
include hx

theorem execGetDigests_serves : execGetDigests 0x13 s = .next (s.answer (.digests (Config.sha384 Config.certificateChain))) :=
  congrArg _ (State.spdm_selected hload hx)

theorem execGetCertificate_serves {offset : Nat} (length : Nat) (hoff : offset < Config.certificateChain.length) :
    execGetCertificate 0x13 0 offset length s = .next (s.answer (.certificate ((Config.certificateChain.drop offset).take length)
      (Config.certificateChain.length - (offset + length)))) := by
  have hin : ¬ (0 ≠ 0 ∨ Config.certificateChain.length ≤ offset) := not_or.2 ⟨not_not.2 rfl, Nat.not_le.2 hoff⟩
  simp only [execGetCertificate, State.spdm_selected hload hx, if_neg hin]

/-- R401: slot 0 only. -/
theorem execGetCertificate_slot {slot : Nat} (offset length : Nat) (hslot : slot ≠ 0) :
    execGetCertificate 0x13 slot offset length s = .next (s.answer (.error "InvalidRequest")) := by
  simp only [execGetCertificate, State.spdm_selected hload hx, if_pos (Or.inl hslot)]

theorem execChallenge_slot {slot : Nat} (nonce : List Byte) (hslot : slot ≠ 0) :
    execChallenge 0x13 slot nonce s = .next (s.answer (.error "InvalidRequest")) := by
  rw [execChallenge, State.spdm_selected hload hx, if_pos hslot]

theorem execChallenge_responds (nonce : List Byte) : execChallenge 0x13 0 nonce s =
    .next (s.respond true (transcript 0x03 (nonce ++ Config.sha384 Config.certificateChain)) .challengeAuth) := by
  rw [execChallenge, State.spdm_selected hload hx, if_neg (not_not.2 rfl)]

theorem execGetMeasurements_responds {index : Nat} (signed : Bool) (nonce : List Byte) {blocks : List (Nat × Nat × List Byte)}
    (hblocks : s.measurements (if index = 0xFF then [1, 2, 3, 4, 5, 6, 7] else [index]) = blocks) (hsome : blocks ≠ []) :
    execGetMeasurements 0x13 index signed nonce s =
      .next (s.respond signed (transcript 0x60 (nonce ++ blocks.flatMap blockBytes)) (.measurements blocks)) := by
  refine congrArg _ ((State.spdm_selected hload hx).trans ?_)
  simp only [hblocks, List.isEmpty_eq_false_iff.2 hsome, Bool.false_and, Bool.false_eq_true, if_false]

end

section
variable {v : Nat} (code : Nat) (bad : Bool)

theorem execSpdmUnsupportedRequest_ended (hnone : s.session = .none_) :
    execSpdmUnsupportedRequest v code bad s = .next (s.answer (.error "UnexpectedRequest")) := by
  rw [execSpdmUnsupportedRequest, State.ready_serves hload, if_pos hnone]

theorem execSpdmUnsupportedRequest_mismatch (hsome : s.session ≠ .none_) (hv : v ≠ 0x13) :
    execSpdmUnsupportedRequest v code bad s = .next (s.answer (.error "VersionMismatch")) := by
  rw [execSpdmUnsupportedRequest, State.ready_serves hload, if_neg hsome, spdmVersion, if_pos hv]

theorem execSpdmUnsupportedRequest_refuses (hsome : s.session ≠ .none_) : execSpdmUnsupportedRequest 0x13 code bad s =
    .next (if bad then s.answer (.error "InvalidRequest") else s.answer (.error "UnsupportedRequest")) := by
  rw [execSpdmUnsupportedRequest, State.ready_serves hload, if_neg hsome, spdmVersion, if_neg (not_not.2 rfl)]

end
end

theorem execPldmRequest_sensor {sensor : Nat} (temp : Int) (s : State) (h : sensor < 32) :
    execPldmRequest sensor temp s = .next (s.answer (.sensor temp)) := congrArg _ (if_pos h)

theorem exec_getVersion (s : State) : exec .getVersion s = execGetVersion s := rfl
theorem exec_getCapabilities (v : Nat) (s : State) : exec (.getCapabilities v) s = execGetCapabilities v s := rfl
theorem exec_negotiateAlgorithms (v : Nat) (asym hash : List Nat) (meas : MeasurementOffer) (s : State) :
    exec (.negotiateAlgorithms v asym hash meas) s = execNegotiateAlgorithms v asym hash meas s := rfl
theorem exec_getDigests (v : Nat) (s : State) : exec (.getDigests v) s = execGetDigests v s := rfl
theorem exec_getCertificate (v slot offset length : Nat) (s : State) :
    exec (.getCertificate v slot offset length) s = execGetCertificate v slot offset length s := rfl
theorem exec_challenge (v slot : Nat) (nonce : List Byte) (s : State) :
    exec (.challenge v slot nonce) s = execChallenge v slot nonce s := rfl
theorem exec_getMeasurements (v index : Nat) (signed : Bool) (nonce : List Byte) (s : State) :
    exec (.getMeasurements v index signed nonce) s = execGetMeasurements v index signed nonce s := rfl
theorem exec_spdmUnsupportedRequest (v code : Nat) (bad : Bool) (s : State) :
    exec (.spdmUnsupportedRequest v code bad) s = execSpdmUnsupportedRequest v code bad s := rfl
theorem exec_pldmRequest (sensor : Nat) (temp : Int) (s : State) :
    exec (.pldmRequest sensor temp) s = execPldmRequest sensor temp s := rfl

end Sys2Proof.Machine

namespace Sys2Proof.Proofs
open Sys2Proof.Machine

/-- Settles O42: each request by its place in the sequence, each signed answer by the device's own check. -/
theorem managementAnswers : Obligations.ManagementAnswers := by
  intro v slot offset length index sensor asym hash meas nonce msg temp code bad sign s chain busy unexpected offered blocks proof whole
    sound challenge measured
  simp only [exec_getVersion, exec_getCapabilities, exec_negotiateAlgorithms, exec_getDigests, exec_getCertificate, exec_challenge,
    exec_getMeasurements, exec_spdmUnsupportedRequest, exec_pldmRequest]
  refine ⟨fun hload => ?busy, execGetVersion_serves, execGetCapabilities_serves, fun hload => execNegotiateAlgorithms_serves hload asym hash meas,
    execGetDigests_serves, fun hload hx => execGetCertificate_serves hload hx length,
    fun hload hx hslot => ⟨execGetCertificate_slot hload hx offset length hslot, execChallenge_slot hload hx nonce hslot⟩,
    fun hload hx hsound => ?challenge, fun hload hx hunsound => ?withheld, fun hload hx hsome hsound => ?measured,
    fun hload hsome hv => ?mismatch, fun hload hnone => ?ended, fun hload => execSpdmUnsupportedRequest_refuses hload code false,
    fun hload => execSpdmUnsupportedRequest_refuses hload code true, execPldmRequest_sensor temp s, rfl, rfl⟩
  case busy =>
    have hspdm {v need f} : s.spdm v need f = busy := State.spdm_busy hload
    exact ⟨congrArg _ (State.ready_busy hload _), congrArg _ hspdm, congrArg _ hspdm, congrArg _ hspdm, congrArg _ hspdm, congrArg _ hspdm,
      congrArg _ hspdm, congrArg _ (State.ready_busy hload _)⟩
  case challenge =>
    exact (execChallenge_responds hload hx nonce).trans (congrArg _ (State.respond_sends true hsound))
  case withheld =>
    exact (execChallenge_responds hload hx nonce).trans (congrArg _ (State.respond_withholds hunsound))
  case measured =>
    exact (execGetMeasurements_responds hload hx sign nonce rfl hsome).trans (congrArg _ (State.respond_sends sign hsound))
  case mismatch =>
    have hspdm {need f} : s.spdm v need f = s.answer (.error "VersionMismatch") := State.spdm_mismatch hload hsome hv
    exact ⟨congrArg _ hspdm, congrArg _ hspdm, execSpdmUnsupportedRequest_mismatch hload code bad hsome hv⟩
  case ended =>
    have hspdm {v need f} : s.spdm v need f = unexpected := State.spdm_ended hload hnone
    exact ⟨execGetVersion_ended hload hnone, congrArg _ hspdm, congrArg _ hspdm, congrArg _ hspdm, congrArg _ hspdm, congrArg _ hspdm,
      congrArg _ hspdm, execSpdmUnsupportedRequest_ended hload code bad hnone⟩

end Sys2Proof.Proofs
